-- ==== Sys2Proof/Word.lean ====
section
/-! DEFINITION. The word types of the Dalent architecture and their plainest names (02_encoding.md R39, 00_scope.md R4). -/

namespace Sys2Proof

/-- A byte of memory, of a typed buffer or of spill memory. -/
abbrev Byte := BitVec 8

/-- A 64-bit scalar word: scalar registers, system registers, addresses while they are computed (R39). -/
abbrev Word := BitVec 64

/-- A 256-bit descriptor image (R40). -/
abbrev Desc := BitVec 256

/-- A 16-bit format tag (R64). -/
abbrev FTag := BitVec 16

/-- An FA56 element (R58), as an accumulator entry holds it. -/
abbrev FA56 := BitVec 56

/-- The five floating-point flags of one engine group: bit 0 V, 1 Z, 2 O, 3 U, 4 X (R70). -/
abbrev FFlags := BitVec 5

end Sys2Proof
end

