-- ==== Sys2Proof/Syntax.lean ====
section
/-! DEFINITION. The syntax of the machine's steps: one constructor of `Instr` for each row of spec/opcode_table.json.
The first part are the instructions of the control stream (02_encoding.md R45 to R50), the second part the events of the
device (95_what_each_step_holds.md), which are no encodings but whole and indivisible steps of the package. -/

namespace Sys2Proof

/-- A 6-bit scalar, vector or mask register field (R39). -/
abbrev Reg := BitVec 6

/-- A descriptor code, 0 to 15 (R39). -/
abbrev DCode := BitVec 4

/-- The token field TK of a queue-routed instruction (R19): bits [17] sn, [16] sp, [15] pn, [14] pp. -/
structure Tok where
  sn : Bool
  sp : Bool
  pn : Bool
  pp : Bool
  deriving DecidableEq, Repr

/-- The scope codes of R38. -/
inductive Scope where
  | lane | core | quad | die | pkg | pod
  deriving DecidableEq, Repr

/-- Operand signs of MULH (R95): signed by signed, unsigned by unsigned, signed by unsigned. -/
inductive MulMode where
  | ss | uu | su
  deriving DecidableEq, Repr

/-- A shift count: a register's low six bits or an immediate (R95). -/
inductive ShCount where
  | reg (rb : Reg)
  | imm (n : BitVec 6)
  deriving DecidableEq, Repr

/-- Access sizes .b .h .w .d (R47). -/
inductive MSize where
  | b | h | w | d
  deriving DecidableEq, Repr

/-- Access kinds of PROBE (R146). -/
inductive Acc where
  | r | w | x
  deriving DecidableEq, Repr

/-- The rounding modes an encoding may name (R68). -/
inductive RM where
  | rne | rtz | rup | rdn
  deriving DecidableEq, Repr

/-- The out-of-bounds modes of descriptors and shape records (R40, R162). -/
inductive OobMode where
  | trap | zero | mirrorE | mirrorN
  deriving DecidableEq, Repr

/-- The buffer spaces an instruction may name (R164). -/
inductive BSpace where
  | wb | ab | cb
  deriving DecidableEq, Repr

/-- Destination spaces of FARD (R173). -/
inductive FSpace where
  | wb | ab | g
  deriving DecidableEq, Repr

/-- The register TAGCHK names: a vector register or a descriptor (R88). -/
inductive TagReg where
  | v (n : Reg)
  | d (n : DCode)
  deriving DecidableEq, Repr

/-- Five fields of one width, one per loop level of LNX and LNR (R233). -/
structure Lv5 (w : Nat) where
  l0 : BitVec w
  l1 : BitVec w
  l2 : BitVec w
  l3 : BitVec w
  l4 : BitVec w
  deriving DecidableEq, Repr

/-- The fields of LNX and LNR beside the descriptors (R233). `fn` is IMM20[10:7], `ext` holds the extents minus one. -/
structure LnFields where
  unary : Bool
  shD : BitVec 2
  shA : BitVec 2
  shB : BitVec 2
  nr : BitVec 3
  nl : BitVec 3
  sat : Bool
  rm : RM
  fn : BitVec 4
  vop : BitVec 7
  ext : Lv5 10
  dst : Lv5 9
  ast : Lv5 9
  bst : Lv5 9
  deriving DecidableEq, Repr

/-- The six bounds of a shape record (R162). -/
structure Bounds where
  b0 : BitVec 32
  b1 : BitVec 32
  b2 : BitVec 32
  b3 : BitVec 32
  b4 : BitVec 32
  b5 : BitVec 32
  deriving DecidableEq, Repr

/-- The declared use of an atomic and its operation fields (R188): ordered flag, USE, QNT, U, TYPE, OPC. -/
structure AtomF where
  ord : Bool
  use : BitVec 3
  qnt : BitVec 4
  u : Bool
  ty : BitVec 4
  opc : BitVec 4
  deriving DecidableEq, Repr

/-- The flags of COPY's extension word (R164). -/
structure CopyF where
  afmt : BitVec 4
  strm : Bool
  hbm : Bool
  esz : BitVec 4
  deriving DecidableEq, Repr

/-- The extension word of CHCFG (R346). -/
structure ChX where
  lbi : BitVec 3
  lbs : BitVec 3
  lbe : Bool
  rch : BitVec 3
  slotu : BitVec 8
  deriving DecidableEq, Repr

/-- The window fields of SCMAC (R281). -/
structure ScF where
  z : Bool
  cjb : Bool
  cja : Bool
  tb : Bool
  ta : Bool
  wcode : BitVec 3
  p0 : BitVec 9
  col0 : BitVec 7
  row0 : BitVec 7
  deriving DecidableEq, Repr

/-- The three queues of a core (R18). -/
inductive QName where
  | load | compute | store
  deriving DecidableEq, Repr

/-- Where an uncorrectable or correctable error strikes (R378). Addresses are byte addresses of the granule. `silent` is a soft error of the array that
leaves an entry of a working bank with one bit flipped and its check code right, so that no protection sees it (R405). -/
inductive ErrLoc where
  | mem (pa : Nat)
  | wb (off : Nat)
  | ab (off : Nat)
  | cb (entry : Nat)
  | spill (off : Nat)
  | scalar (r : Reg)
  | vector (r : Reg) (word : BitVec 6)
  | mask (r : BitVec 4) (word : BitVec 4)
  | descriptor (d : DCode)
  | working (acc : Bool) (entry : Nat)
  | silent (acc : Bool) (entry : Nat) (bit : BitVec 6)
  | codeLine (pa : Nat)
  | tlb (vpn : Nat)
  | view (pa : Nat)
  | walkCache (key : Nat)
  | journal (pa : Nat)
  | control
  deriving DecidableEq, Repr

/-- One remote participant's contribution to a collective, as the fabric brings it (R359, R360, R362): its key, its endpoint as a participant entry
has it, the digest of its request's tree, its source elements and its closure digest (`none`: invalid). -/
structure PartIn where
  key : BitVec 16
  ep : Nat
  treeDigest : Word
  vals : List Word
  poisoned : List Nat
  digest : Option Word
  deriving DecidableEq, Repr

/-- Reply status of a base-die port (R203). -/
inductive PortStatus where
  | ok | poisoned | compcap | failed | rolledBack
  deriving DecidableEq, Repr

/-- Where a Wedar Link flit comes from (R355, R394): the port of its link, and the partition key of its packet. -/
structure FlitSrc where
  port : BitVec 4
  key : BitVec 16
  deriving DecidableEq, Repr

/-- The packet a Wedar Link flit carries to this package (R355, R394). -/
inductive FlitBody where
  | tile (chan : BitVec 3) (core : BitVec 8) (tag : FTag) (rows : BitVec 16) (cols : BitVec 16) (bytes : List Byte) (pois : List Nat)
  | credit (chan : BitVec 3) (core : BitVec 8) (slot : BitVec 2)
  | paired (chan : BitVec 3) (core : BitVec 8) (slotu : BitVec 8)
  | released (chan : BitVec 3) (core : BitVec 8)
  | ack (chan : BitVec 3) (core : BitVec 8)
  | coreLost (pkg : BitVec 8) (phys : BitVec 8)
  | podArrive (podg : BitVec 32) (inst : BitVec 3)
  | remoteRead (ctx : BitVec 12) (pa : Nat)
  deriving DecidableEq, Repr

/-- Where a lower tier fails (R169): the queue of the copy engine, and the element its command waits for; of a scalar atomic 0 is the target, any other
one the place of its return value. -/
structure TierAt where
  q : QName
  elem : Nat
  deriving DecidableEq, Repr

/-- ONE constructor per row of spec/opcode_table.json. -/
inductive Instr where
  -- class 0, scalar integer (R46, R95 to R98)
  | add (rd ra rb : Reg)
  | sub (rd ra rb : Reg)
  | addi (rd ra : Reg) (imm : BitVec 20)
  | mul (rd ra rb : Reg)
  | mulh (m : MulMode) (rd ra rb : Reg)
  | div (u : Bool) (rd ra rb : Reg)
  | rem (u : Bool) (rd ra rb : Reg)
  | and (rd ra rb : Reg)
  | or (rd ra rb : Reg)
  | xor (rd ra rb : Reg)
  | andn (rd ra rb : Reg)
  | shl (rd ra : Reg) (k : ShCount)
  | shr (rd ra : Reg) (k : ShCount)
  | sar (rd ra : Reg) (k : ShCount)
  | rot (rd ra : Reg) (k : ShCount)
  | clz (rd ra : Reg)
  | popc (rd ra : Reg)
  | min (u : Bool) (rd ra rb : Reg)
  | max (u : Bool) (rd ra rb : Reg)
  | sel (rd ra rb rc : Reg)
  | ceq (rd ra rb : Reg)
  | clt (rd ra rb : Reg)
  | cltu (rd ra rb : Reg)
  | lea (rd ra rb : Reg) (scale : BitVec 2) (imm : BitVec 20)
  | bfx (s : Bool) (rd ra : Reg) (pos lenM1 : BitVec 6)
  | bfi (rd ra rb : Reg) (pos lenM1 : BitVec 6)
  | movi (rd : Reg) (imm : Word)
  -- class 1, control flow (R99 to R102)
  | brEq (ra rb : Reg) (off : BitVec 20)
  | brNe (ra rb : Reg) (off : BitVec 20)
  | brLt (ra rb : Reg) (off : BitVec 20)
  | brGe (ra rb : Reg) (off : BitVec 20)
  | brLtu (ra rb : Reg) (off : BitVec 20)
  | brGeu (ra rb : Reg) (off : BitVec 20)
  | jmp (off : BitVec 38)
  | jmpr (rd ra : Reg)
  | call (rd : Reg) (off : BitVec 38)
  | ret (ra : Reg)
  | loop (ra : Reg) (off : BitVec 20)
  | nop
  | hint (code : BitVec 8)
  -- class 2, memory access and ordering (R116 to R131)
  | ld (sz : MSize) (rd ra rb : Reg) (off : BitVec 20)
  | st (sz : MSize) (rd ra rb : Reg) (off : BitVec 20)
  | ldDsc (dd : DCode) (ra rb : Reg) (off : BitVec 20)
  | stDsc (dd : DCode) (ra rb : Reg) (off : BitVec 20)
  | spl (sz : MSize) (rd ra : Reg) (off : BitVec 20)
  | sps (sz : MSize) (rd ra : Reg) (off : BitVec 20)
  | pref (ra rb : Reg) (off : BitVec 20)
  | cln (ra : Reg) (off : BitVec 20)
  | inv (ra : Reg) (off : BitVec 20)
  | invI (ra : Reg) (off : BitVec 20)
  | commit
  | acq
  | phase (sc : Scope)
  | fence (sc : Scope)
  | twait (acq : Bool) (tl : BitVec 8) (ra : Reg)
  | tread (iss : Bool) (rd : Reg) (tl : BitVec 8)
  -- class 3, translation and system state (R146)
  | mfsr (rd : Reg) (n : BitVec 12)
  | mtsr (n : BitVec 12) (ra : Reg)
  | tlbiVa (ra : Reg)
  | tlbiCtx
  | tlbiCid (ra : Reg)
  | tlbiAll
  | tlbfence (sc : Scope)
  | probe (acc : Acc) (rd ra : Reg)
  | rfhint (ra : Reg)
  | rdcyc (task : Bool) (rd : Reg)
  | keysel (ra rb : Reg)
  | keyselClr (ra : Reg)
  | mode (rd ra : Reg)
  -- class 4, conversion and tags (R79 to R88)
  | cvt (tk : Tok) (dD dA : DCode) (rm : RM) (sat : Bool) (sf df : BitVec 4)
  | cvts (tk : Tok) (dD dA : DCode) (rb rc : Reg) (sat : Bool) (sf df : BitVec 4)
  | qntw (tk : Tok) (dD dA : DCode) (rm : RM) (sf df : BitVec 4)
  | dqw (tk : Tok) (dD dA : DCode) (rm : RM) (sf df : BitVec 4)
  | retag (tk : Tok) (v : Reg) (tag : FTag)
  | retagDsc (tk : Tok) (dd : DCode) (tag : FTag)
  | tagget (tk : Tok) (v : Reg) (off : BitVec 14)
  | tagchk (tk : Tok) (noexp : Bool) (x : TagReg) (tag : FTag)
  | scalex (tk : Tok) (rm : RM) (dD dA : DCode) (n : BitVec 10)
  -- class 5, copy engines (R161 to R182)
  | trvlIn (tk : Tok) (lvl : BitVec 3) (ra : Reg) (ss ds : BitVec 32)
  | trvlOut (tk : Tok) (lvl : BitVec 3) (ra : Reg) (ss ds : BitVec 32)
  | trvsIn (tk : Tok) (mode : OobMode) (ra rb rc : Reg) (b : Bounds)
  | trvsOut (tk : Tok) (mode : OobMode) (ra rb rc : Reg) (b : Bounds)
  | copyIn (tk : Tok) (sp : BSpace) (rd ra rb : Reg) (off : BitVec 20) (f : CopyF)
  | copyOut (tk : Tok) (sp : BSpace) (rd ra rb : Reg) (off : BitVec 20) (f : CopyF)
  | fillIn (tk : Tok) (sp : BSpace) (rd ra : Reg) (esz : BitVec 2)
  | fillOut (tk : Tok) (rd ra rb : Reg) (off : BitVec 20) (esz : BitVec 2)
  | gthr (tk : Tok) (sp : BSpace) (rd : Reg) (dT : DCode) (rb rc pol : Reg) (dstride : BitVec 32)
  | sctr (tk : Tok) (sp : BSpace) (dT : DCode) (ra rb rc pol : Reg) (dstride : BitVec 32)
  | fard (tk : Tok) (sp : FSpace) (w : BitVec 2) (rd ra rb rc : Reg)
  | cmpx (tk : Tok) (cmp : Bool) (ra : Reg)
  | tierq (rd : Reg) (store : Bool) (ra : Reg)
  -- class 6, accumulate-on-write (R187 to R202)
  | awr (tk : Tok) (f : AtomF) (rd ra rb : Reg) (off : BitVec 20)
  | awrT (tk : Tok) (f : AtomF) (sp : BSpace) (ra rb : Reg) (off : BitVec 20)
  | axch (tk : Tok) (f : AtomF) (rd ra rb : Reg) (off : BitVec 20)
  | acas (tk : Tok) (f : AtomF) (rd ra rb rc : Reg) (off : BitVec 20)
  | aflg (clr : Bool) (rd : Reg)
  -- classes 7 and 8, vector engine (R210, R233)
  | vrun (tk : Tok) (rE rP : Reg) (na : BitVec 4)
  | vruna (tk : Tok) (rE rP : Reg) (na : BitVec 4) (rJ : Reg) (rlen : BitVec 10) (rak : BitVec 3)
  | lnx (tk : Tok) (dD dA dB : DCode) (f : LnFields)
  | lnr (tk : Tok) (dD dA dB : DCode) (f : LnFields)
  -- class 9, matrix (R247 to R262)
  | mma (tk : Tok) (acc ta tb : Bool) (dA dB : DCode) (row0 col0 : BitVec 7)
  | mzero (tk : Tok) (acc : Bool)
  | mzeroCb (tk : Tok) (acc : Bool) (dC : DCode)
  | mswap (tk : Tok) (acc : Bool)
  | mst (tk : Tok) (dD : DCode) (acc : Bool) (add sat : Bool) (rm : RM) (df : BitVec 4) (row0 col0 : BitVec 7)
  | mcks (tk : Tok) (acc ta tb : Bool) (dA dB : DCode) (row0 col0 : BitVec 7)
  | mckv (tk : Tok) (acc rpl : Bool) (off : BitVec 14)
  | mfix (tk : Tok) (acc : Bool)
  | mtm (tk : Tok)
  | mte (tk : Tok)
  | wgrp (tk : Tok) (acc : Bool) (n : BitVec 7)
  -- class 10, spectral (R270 to R284)
  | sxf (tk : Tok) (dD dA : DCode)
  | sxi (tk : Tok) (dD dA : DCode)
  | scmac (tk : Tok) (acc : Bool) (dA dB : DCode) (f : ScF)
  | scmul (tk : Tok) (cj : Bool) (dD dA dB : DCode)
  | sconj (tk : Tok) (dD dA : DCode)
  | sdom (tk : Tok) (dD dA dG : DCode)
  | sexp (tk : Tok) (dD dA : DCode) (e : BitVec 5)
  -- class 11, differentiable blocks (R289)
  | blkb (rc hbm : Bool) (ra : Reg) (id : BitVec 16)
  | blke (id : BitVec 16)
  | revb (id : BitVec 16)
  | rpush (tk : Tok) (dA : DCode)
  | rpushSpl (tk : Tok) (off8 : BitVec 11) (n8m1 : BitVec 6)
  | rstkSet (ra : Reg)
  | rstkGet (ra : Reg)
  | gzero (tk : Tok) (dD : DCode)
  -- class 12, tasks and barriers (R327)
  | launch (rd ra rb : Reg)
  | launchRec (rd ra rb : Reg)
  | join (ra : Reg)
  | tend
  | yield
  | stepb (rd : Reg)
  | bari (sc : Scope) (b : BitVec 3)
  | bariLv (sc : Scope) (b : BitVec 3)
  | bara (sc : Scope) (rd : Reg) (b : BitVec 3)
  | barw (sc : Scope) (b : BitVec 3) (ra : Reg)
  | baraw (sc : Scope) (rd : Reg) (b : BitVec 3)
  | barx (sc : Scope) (b : BitVec 3) (ra : Reg)
  | prio (ra : Reg)
  -- class 13, channels and collectives (R346)
  | chcfgUp (n : BitVec 3) (ra rb : Reg) (x : ChX)
  | chcfgDn (n : BitVec 3) (ra rb : Reg) (x : ChX)
  | chsendFw (tk : Tok) (n : BitVec 3) (dA : DCode)
  | chsendRv (tk : Tok) (n : BitVec 3) (dA : DCode)
  | coll (tk : Tok) (k : BitVec 4) (ra : Reg)
  | cdig (ra rb : Reg)
  | cdigClr
  | cstat (rd : Reg) (k : BitVec 4) (ra : Reg)
  | cstatTl (rd : Reg) (k : BitVec 4)
  -- class 14, traps, contexts and reliability (R367)
  | trap (n : BitVec 16)
  | eret
  | eretKill
  | ctxsv (nb : Bool) (rd ra : Reg)
  | ctxrs (rd ra : Reg)
  | fltrec (ra : Reg)
  | brk (n : BitVec 16)
  | halt (ra : Reg)
  | crst (ra : Reg)
  | mchkq (clr : Bool) (rd : Reg) (sel : BitVec 4)
  -- the events of the device (95_what_each_step_holds.md)
  | bundleIssue
  | resultLanding
  | fetchLine (va : Word)
  | lineRefetch (va : Word)
  | checkerCompare (agree : Bool)
  | queueHeadIssue (q : QName)
  | commandComplete (q : QName)
  | heldPushRelease (q : QName)
  | mteRetire
  | tileReplay
  | pageWalk (va : Word)
  | trapEntry
  | taskDispatch
  | nestLaunchDispatch
  | recordAging
  | forcedPreemption
  | quadClockSwitch (quad : BitVec 6)
  | barrierRelease
  | phaseMerge
  | stepBarrierComplete
  | rstkRefill
  | tileLanding
  | creditReturn (n : BitVec 3)
  | chsendPairTimeout
  | partnerLoss (core : BitVec 8)
  | collMatch (k : BitVec 4) (parts : List PartIn)
  | collComplete (k : BitVec 4)
  | portRd (chan : Nat) (addr : Nat)
  | portWr (chan : Nat) (addr : Nat) (mask : Word) (data : List Byte)
  | portAop (chan : Nat) (addr : Nat) (ctx : BitVec 12) (u : Bool) (ty opc : BitVec 4) (v : Word)
  | portAxc (chan : Nat) (addr : Nat) (ctx : BitVec 12) (ty : BitVec 4) (v : Word)
  | portAcs (chan : Nat) (addr : Nat) (ctx : BitVec 12) (ty : BitVec 4) (cmp new : Word)
  | portReply (chan : Nat) (tag : BitVec 3)
  | atomicHomeEvent
  | quantumFlush
  | speculativeConfirm
  | l2WriteBack (line : Nat)
  | tierTimeout (x : TierAt)
  | tierPortFailure (x : TierAt)
  | flashSectorArrival (sector : Nat)
  | uncorrectableError (loc : ErrLoc)
  | correctableError (loc : ErrLoc)
  | coreHalted (core : BitVec 8)
  | dbgctlRun (core : BitVec 8)
  | dbgctlStep (core : BitVec 8)
  | dwhlt (core : BitVec 8)
  | debugApertureRead (core : BitVec 8) (off : Nat) (len : Nat)
  | debugApertureWrite (core : BitVec 8) (off : Nat) (data : List Byte)
  | doorbell (p : BitVec 2) (tail : BitVec 32)
  | hostRingRecordRead (p : BitVec 2)
  | ringReadFailure (p : BitVec 2)
  | windowAccess (write : Bool) (off : Word) (len : Nat) (data : List Byte)
  | attcmd (v : Word)
  | attestationReportWritten
  | hostRegisterWrite (off : BitVec 16) (v : Option Word)
  | hbmcapWrite (stack : BitVec 4) (map : BitVec 16)
  | tlnbaseWrite (v : Word)
  | powerOnBoot (image : List Byte)
  | thermalLimitReached (quad : BitVec 6)
  | thermalLimitCleared (quad : BitVec 6)
  | droopStretch (quad : BitVec 6)
  | refreshDue (chan : Nat)
  | rfhintIntervalEnd
  | flitReceive (crcOk : Bool) (src : FlitSrc) (body : FlitBody)
  | linkPortDown (port : BitVec 4)
  | keyRevocation (key : BitVec 16)
  | powerOff
  | loggedHostWrite
  | loggedLaunchRecord
  deriving DecidableEq, Repr

/-- The steps of the table that are instructions of the control stream (the others are events of the device). -/
def Instr.isEvent : Instr → Bool
  | .bundleIssue | .resultLanding | .fetchLine _ | .lineRefetch _ | .checkerCompare _ | .queueHeadIssue _
  | .commandComplete _ | .heldPushRelease _ | .mteRetire | .tileReplay | .pageWalk _ | .trapEntry | .taskDispatch
  | .nestLaunchDispatch | .recordAging | .forcedPreemption | .quadClockSwitch _ | .barrierRelease | .phaseMerge
  | .stepBarrierComplete | .rstkRefill | .tileLanding | .creditReturn _ | .chsendPairTimeout | .partnerLoss _
  | .collMatch _ _ | .collComplete _ | .portRd _ _ | .portWr _ _ _ _ | .portAop _ _ _ _ _ _ _ | .portAxc _ _ _ _ _
  | .portAcs _ _ _ _ _ _ | .portReply _ _ | .atomicHomeEvent | .quantumFlush | .speculativeConfirm | .l2WriteBack _
  | .tierTimeout _ | .tierPortFailure _ | .flashSectorArrival _ | .uncorrectableError _ | .correctableError _
  | .coreHalted _ | .dbgctlRun _ | .dbgctlStep _ | .dwhlt _ | .debugApertureRead _ _ _ | .debugApertureWrite _ _ _
  | .doorbell _ _ | .hostRingRecordRead _ | .ringReadFailure _ | .windowAccess _ _ _ _ | .attcmd _
  | .attestationReportWritten | .hostRegisterWrite _ _ | .hbmcapWrite _ _ | .tlnbaseWrite _ | .powerOnBoot _
  | .thermalLimitReached _ | .thermalLimitCleared _ | .droopStretch _ | .refreshDue _ | .rfhintIntervalEnd
  | .flitReceive _ _ _ | .linkPortDown _ | .keyRevocation _ | .powerOff | .loggedHostWrite | .loggedLaunchRecord => true
  | _ => false

end Sys2Proof
end

