-- ==== Sys2Proof/WellFormed.lean ====
section
/-! DEFINITION. Which terms of `Instr` are instructions the control core accepts at decode (02_encoding.md R37 and the class
chapters' own ILLOP lists): the checks on field values that the types of the fields do not already make. -/

namespace Sys2Proof

/-- Timeline selectors TWAIT and TREAD accept (R131). -/
def tlSelOk (t : BitVec 8) : Bool := t.toNat ≤ 3 || (0x10 ≤ t.toNat && t.toNat ≤ 0x1F)

/-- A well-formed format tag (R65). -/
def tagOk (t : FTag) : Bool :=
  let fmt := t.extractLsb' 0 4
  fmt != 0xE && fmt != 0xF && t.getLsbD 7 == false && (t.extractLsb' 4 2).toNat < 2 && (t.extractLsb' 8 3).toNat ≤ 5 &&
  (t.extractLsb' 4 2 != 0 || t.extractLsb' 8 8 == 0) &&
  (t.extractLsb' 4 2 != 1 || fmt == 6 || fmt == 7 || fmt == 8 || fmt == 0xB) &&
  (fmt != 0 || t == 0)

/-- The formats CVT converts between (R79). -/
def cvtFmtOk (f : BitVec 4) : Bool := f != 0 && f != 9 && f != 0xA && f != 0xE && f != 0xF

/-- The source formats of CVTS (R79). -/
def cvtsSfOk (f : BitVec 4) : Bool := f == 6 || f == 7 || f == 8 || f == 0xB

/-- The destination formats of CVTS (R79). -/
def cvtsDfOk (f : BitVec 4) : Bool := f == 6 || f == 7 || f == 8 || f == 4 || f == 5

/-- The floating side of QNTW and DQW (R82). -/
def gFltOk (f : BitVec 4) : Bool := f == 6 || f == 7 || f == 8

/-- The weight side of QNTW and DQW (R82). -/
def gWOk (f : BitVec 4) : Bool := f == 9 || f == 0xA

/-- AFMT of COPY (R164). -/
def afmtOk (f : BitVec 4) : Bool := f == 0 || f == 6 || f == 7 || f == 8 || f == 0xB

/-- Which atomic a field record belongs to. -/
inductive AtomKind where
  | awr | awrT | axch | acas
  deriving DecidableEq, Repr

/-- The decode checks of atomics (R190, R188): operation and type, U, USE, QNT, the return register and the tensor space. -/
def atomOk (k : AtomKind) (a : AtomF) (rd : Reg) (sp : BSpace) : Bool :=
  let isF := a.opc == 1 || a.opc == 4 || a.opc == 5
  let intTy := a.ty.toNat < 4
  let fltTy := a.ty == 6 || a.ty == 7 || a.ty == 8 || a.ty == 0xB
  let opcOk := match k with
    | .awr | .awrT => a.opc.toNat ≤ 8 && (if isF then fltTy else intTy) && (!a.u || a.opc == 2 || a.opc == 3)
    | .axch | .acas => a.opc == 0 && !a.u && intTy
  let useOk := match a.use.toNat with
    | 0 => true
    | 1 => k == .awr || k == .awrT
    | 2 => true
    | 3 => (k == .awr || k == .awrT) && (a.opc == 0 || a.opc == 1)
    | 4 => (k == .awr || k == .awrT) && a.opc == 0
    | _ => false
  opcOk && useOk && (!a.ord || a.use == 0) && (a.qnt == 0 || a.use == 3) &&
  (rd == 0 || !(a.use == 1 || a.use == 3 || a.use == 4)) &&
  (k != .awrT || sp != .wb) && (k != .awrT || sp != .cb || a.ty == 0xB)

/-- The register list of VRUN and VRUNA (R210). -/
def vrunOk (na : BitVec 4) (rb : Reg) : Bool :=
  na.toNat ≤ 8 && (na != 0 || rb == 0) && (na == 0 || rb.toNat + na.toNat - 1 ≤ 63)

/-- Fields of level `nl` and above are zero (R233). -/
def Lv5.zeroFrom (l : Lv5 w) (nl : Nat) : Bool :=
  (1 ≤ nl || l.l0 == 0) && (2 ≤ nl || l.l1 == 0) && (3 ≤ nl || l.l2 == 0) && (4 ≤ nl || l.l3 == 0) && (5 ≤ nl || l.l4 == 0)

/-- Unary vector operations of LNX and LNR (R233). -/
def lnUnary (vop : BitVec 7) : Bool :=
  vop == 0 || vop == 7 || vop == 8 || (0x20 ≤ vop.toNat && vop.toNat ≤ 0x26)

/-- What LNX and LNR share at decode (R233). -/
def lnCommon (l : LnFields) (dB : DCode) : Bool :=
  1 ≤ l.nl.toNat && l.nl.toNat ≤ 5 && l.unary == lnUnary l.vop &&
  (!l.unary || (dB == 0 && l.shB == 0 && l.bst == ⟨0, 0, 0, 0, 0⟩)) &&
  (!(0x20 ≤ l.vop.toNat && l.vop.toNat ≤ 0x26) || l.rm == .rne) &&
  l.ext.zeroFrom l.nl.toNat && l.dst.zeroFrom l.nl.toNat && l.ast.zeroFrom l.nl.toNat && l.bst.zeroFrom l.nl.toNat

/-- Operations LNX admits (R233). -/
def lnxVop (vop : BitVec 7) : Bool :=
  (1 ≤ vop.toNat && vop.toNat ≤ 0x0B) || (0x11 ≤ vop.toNat && vop.toNat ≤ 0x13) || (0x20 ≤ vop.toNat && vop.toNat ≤ 0x26)

/-- Function variants of an LNX operation (R222): FN beyond the operation's own raises ILLOP (R44). -/
def vopFnOk (vop : BitVec 7) (fn : BitVec 4) : Bool :=
  if vop == 4 then fn.toNat ≤ 3 else if vop == 0x0B || vop == 0x11 then fn.toNat ≤ 1 else fn == 0

/-- LNX operations that may use RM, and those that may use SAT, on some format (R221). -/
def lnxRm (vop : BitVec 7) : Bool := vop.toNat ≤ 4
def lnxSat (vop : BitVec 7) : Bool := vop.toNat ≤ 4 || vop == 7 || vop == 8 || vop == 0x13

/-- LNX at decode (R233, R221). DEDUCED (log 49). -/
def lnxOk (l : LnFields) (dB : DCode) : Bool :=
  lnCommon l dB && lnxVop l.vop && l.nr == 0 && vopFnOk l.vop l.fn && (l.rm == .rne || lnxRm l.vop) && (!l.sat || lnxSat l.vop)

/-- LNR at decode (R233). -/
def lnrOk (l : LnFields) (dB : DCode) : Bool :=
  lnCommon l dB && (l.vop == 0 || (lnxVop l.vop && l.vop != 4)) && 1 ≤ l.nr.toNat && l.nr.toNat ≤ l.nl.toNat &&
  l.fn.getLsbD 3 == false && l.fn.extractLsb' 0 2 != 3

/-- MST at decode (R253). -/
def mstOk (df : BitVec 4) (add sat : Bool) (rm : RM) : Bool :=
  (df == 1 || df == 2 || df == 3 || df == 4 || df == 5 || df == 6 || df == 7 || df == 8 || df == 0xB) &&
  (!add || !(df == 1 || df == 2 || df == 3 || df == 0xB)) &&
  (df != 0xB || (rm == .rne && !sat && !add))

/-- RPUSH.spl at decode: off + n at most 16,384 (R303). -/
def rsplOk (off8 : BitVec 11) (n8m1 : BitVec 6) : Bool := off8.toNat * 8 + (n8m1.toNat + 1) * 8 ≤ 16384

/-- Scopes of the barrier instructions (R327). -/
def barScope (s : Scope) : Bool := s != .lane && s != .core

/-- CHCFG's extension word (R346). -/
def chxOk (x : ChX) : Bool :=
  x.slotu.toNat ≤ 128 && (if x.lbe then x.lbs == 2 || x.lbs == 3 || x.lbs == 4 else x.lbs == 0 && x.lbi == 0)

/-- Tokens a load-queue command may carry (R19). -/
def Tok.okLoad (t : Tok) : Bool := !t.pp && !t.sp

/-- Tokens a store-queue command may carry (R19). -/
def Tok.okStore (t : Tok) : Bool := !t.pn && !t.sn

/-- Well-formed instructions: those an encoding of the stream can hold (R37). The events are no instructions and count as
well formed: they have no encoding to check. -/
def Instr.wf : Instr → Bool
  | .bfx _ _ _ p l | .bfi _ _ _ p l => p.toNat + l.toNat + 1 ≤ 64
  | .loop ra _ => ra != 0
  | .hint c => c.toNat ≤ 2
  | .phase sc => sc != .lane && sc != .pod
  | .fence sc => sc != .lane
  | .twait _ t _ | .tread _ _ t => tlSelOk t
  | .tlbfence sc => sc != .lane && sc != .pod
  | .cvt _ _ _ _ _ sf df => cvtFmtOk sf && cvtFmtOk df
  | .cvts _ _ _ _ _ _ sf df => cvtsSfOk sf && cvtsDfOk df
  | .qntw _ _ _ _ sf df => gFltOk sf && gWOk df
  | .dqw _ _ _ _ sf df => gWOk sf && gFltOk df
  | .retag _ _ t | .retagDsc _ _ t | .tagchk _ _ _ t => tagOk t
  | .tagget _ _ off => off.toNat ≤ 16382
  | .trvlIn tk l _ _ _ => tk.okLoad && l.toNat < 6
  | .trvlOut tk l _ _ _ => tk.okStore && l.toNat < 6
  | .trvsIn tk _ _ _ _ _ => tk.okLoad
  | .trvsOut tk _ _ _ _ _ => tk.okStore
  | .copyIn tk _ _ _ _ _ c => tk.okLoad && afmtOk c.afmt && c.esz.toNat ≤ 9
  | .copyOut tk _ _ _ _ _ c => tk.okStore && afmtOk c.afmt && c.esz.toNat ≤ 9
  | .fillIn tk sp _ _ _ => tk.okLoad && sp != .cb
  | .fillOut tk _ _ _ _ _ => tk.okStore
  | .gthr tk _ _ _ _ _ _ _ => tk.okLoad
  | .sctr tk _ _ _ _ _ _ _ => tk.okStore
  | .fard tk sp _ _ _ _ rc => tk.okLoad && (sp == .g || rc == 0)
  | .cmpx tk _ _ => tk.okStore
  | .awr tk a rd _ _ _ => tk.okStore && atomOk .awr a rd .ab
  | .awrT tk a sp _ _ _ => tk.okStore && atomOk .awrT a 0 sp
  | .axch tk a rd _ _ _ => tk.okStore && atomOk .axch a rd .ab
  | .acas tk a rd _ _ _ _ => tk.okStore && atomOk .acas a rd .ab
  | .vrun _ _ rP na => vrunOk na rP
  | .vruna _ _ rP na _ _ _ => vrunOk na rP
  | .lnx _ _ _ dB l => lnxOk l dB
  | .lnr _ _ _ dB l => lnrOk l dB
  | .mst _ _ _ ad sa rm df _ _ => mstOk df ad sa rm
  | .mckv _ _ _ off => off.extractLsb' 0 6 == 0
  | .scmac _ _ _ _ f => f.wcode != 7
  | .rpushSpl _ o n => rsplOk o n
  | .bari sc _ | .bariLv sc _ | .bara sc _ _ | .barw sc _ _ | .baraw sc _ _ | .barx sc _ _ => barScope sc
  | .chcfgUp _ _ _ x | .chcfgDn _ _ _ x => chxOk x
  | .chsendFw tk _ _ | .chsendRv tk _ _ => tk.okStore
  | .coll tk _ _ => tk.okStore
  | .mchkq _ _ k => k.toNat ≤ 5
  | _ => true

end Sys2Proof
end

