-- ==== Sys2Proof/Decode.lean ====
section
/-! DEFINITION. The control-stream decoder and encoder (02_encoding.md R35 to R50 and the encoding tables of the class
chapters). `decode` is total on any bytes and rejects by name; `encode` writes the words of an instruction. -/

namespace Sys2Proof

/-- Why bytes are no instruction; every one of them is an ILLOP (R37). -/
inductive DecodeErr where
  | truncated      -- fewer bytes than the size field asks for
  | badSize        -- SZ is 11, or differs from the opcode map's size
  | badClass       -- CL is 15
  | badOpcode      -- OP not assigned in the class
  | badModifier    -- an M value the class chapter does not assign
  | badToken       -- TK breaks R19
  | badRegister    -- a register field names a register that does not exist
  | badField       -- an unused field or extension bit is non-zero, or a value the chapter calls ILLOP
  deriving DecidableEq, Repr

/-! ### The fields of the first granule (R35) -/

/-- The first 64 bits of an instruction, field by field (R35, I8-R). -/
structure W8 where
  imm : BitVec 20
  rc : Reg
  rb : Reg
  ra : Reg
  rd : Reg
  m : BitVec 2
  tk : BitVec 4
  op : BitVec 8
  cl : BitVec 4
  sz : BitVec 2
  deriving DecidableEq, Repr

/-- The 64-bit word of the fields, high field first (R35). -/
def W8.pack (f : W8) : Word :=
  f.imm ++ (f.rc ++ (f.rb ++ (f.ra ++ (f.rd ++ (f.m ++ (f.tk ++ (f.op ++ (f.cl ++ f.sz))))))))

/-- The fields of a 64-bit word (R35). -/
def W8.unpack (w : Word) : W8 :=
  { imm := w.extractLsb' 44 20, rc := w.extractLsb' 38 6, rb := w.extractLsb' 32 6, ra := w.extractLsb' 26 6,
    rd := w.extractLsb' 20 6, m := w.extractLsb' 18 2, tk := w.extractLsb' 14 4, op := w.extractLsb' 6 8,
    cl := w.extractLsb' 2 4, sz := w.extractLsb' 0 2 }

/-- An all-zero field record. -/
def W8.zero : W8 := ⟨0, 0, 0, 0, 0, 0, 0, 0, 0, 0⟩

/-- IMM38 of the I8-J layout (R35). -/
def W8.imm38 (f : W8) : BitVec 38 := f.imm ++ (f.rc ++ (f.rb ++ f.ra))

/-! ### Little helpers -/

/-- A bit as a one-bit vector. -/
def bit (b : Bool) : BitVec 1 := BitVec.ofBool b

/-- TK's four bits (R19). -/
def Tok.bits (t : Tok) : BitVec 4 := bit t.sn ++ (bit t.sp ++ (bit t.pn ++ bit t.pp))

/-- The token record of TK's four bits (R19). -/
def Tok.ofBits (b : BitVec 4) : Tok :=
  { sn := b.getLsbD 3, sp := b.getLsbD 2, pn := b.getLsbD 1, pp := b.getLsbD 0 }

/-- Answers the instruction when the check holds, and the named rejection otherwise. -/
def ck (c : Bool) (e : DecodeErr) (r : Except DecodeErr Instr) : Except DecodeErr Instr :=
  if c then r else .error e

/-- A 6-bit field as a descriptor code; only called where it is below 16. -/
def dc (r : Reg) : DCode := r.setWidth 4

/-- A descriptor code as a 6-bit field. -/
def dr (d : DCode) : Reg := d.setWidth 6

/-- The codes of R38. -/
def Scope.ofCode : BitVec 3 → Option Scope
  | 0 => some .lane | 1 => some .core | 2 => some .quad | 3 => some .die | 4 => some .pkg | 5 => some .pod
  | _ => none

/-- The code of a scope (R38). -/
def Scope.code : Scope → BitVec 3
  | .lane => 0 | .core => 1 | .quad => 2 | .die => 3 | .pkg => 4 | .pod => 5

/-- The modes of R68 by code. -/
def RM.ofCode : BitVec 2 → RM
  | 0 => .rne | 1 => .rtz | 2 => .rup | _ => .rdn

/-- The code of a rounding mode (R68). -/
def RM.code : RM → BitVec 2
  | .rne => 0 | .rtz => 1 | .rup => 2 | .rdn => 3

/-- The out-of-bounds modes by code (R40). -/
def OobMode.ofCode : BitVec 2 → OobMode
  | 0 => .trap | 1 => .zero | 2 => .mirrorE | _ => .mirrorN

/-- The code of an out-of-bounds mode (R40). -/
def OobMode.code : OobMode → BitVec 2
  | .trap => 0 | .zero => 1 | .mirrorE => 2 | .mirrorN => 3

/-- Access sizes by code (R47). -/
def MSize.ofCode : BitVec 2 → MSize
  | 0 => .b | 1 => .h | 2 => .w | _ => .d

/-- The code of an access size (R47). -/
def MSize.code : MSize → BitVec 2
  | .b => 0 | .h => 1 | .w => 2 | .d => 3

/-- The buffer spaces by code (R164). -/
def BSpace.ofCode : BitVec 2 → Option BSpace
  | 0 => some .wb | 1 => some .ab | 2 => some .cb | _ => none

/-- The code of a buffer space (R164). -/
def BSpace.code : BSpace → BitVec 2
  | .wb => 0 | .ab => 1 | .cb => 2

/-- FARD's spaces by code (R173). -/
def FSpace.ofCode : BitVec 2 → Option FSpace
  | 0 => some .wb | 1 => some .ab | 3 => some .g | _ => none

/-- The code of a FARD space (R173). -/
def FSpace.code : FSpace → BitVec 2
  | .wb => 0 | .ab => 1 | .g => 3

/-- Five level fields from the low bits of a word, level 0 lowest (R233). -/
def Lv5.bits (l : Lv5 w) : BitVec (w + (w + (w + (w + w)))) := l.l4 ++ (l.l3 ++ (l.l2 ++ (l.l1 ++ l.l0)))

/-- Reads five level fields back (R233). -/
def Lv5.ofBits (w : Nat) (x : BitVec (w + (w + (w + (w + w))))) : Lv5 w :=
  { l0 := x.extractLsb' 0 w, l1 := x.extractLsb' w w, l2 := x.extractLsb' (2 * w) w,
    l3 := x.extractLsb' (3 * w) w, l4 := x.extractLsb' (4 * w) w }

/-! ### Sizes and opcodes -/

/-- The size the opcode map gives an opcode (R45 to R50): 0 I8, 1 I16, 2 I32; `none`: unassigned. -/
def opSize (cl : BitVec 4) (op : BitVec 8) : Option (BitVec 2) :=
  match cl.toNat, op.toNat with
  | 0, o => if o < 0x1A then some 0 else if o = 0x1A then some 1 else none
  | 1, o => if o < 6 ∨ (8 ≤ o ∧ o ≤ 0x0C) ∨ o = 0x10 ∨ o = 0x11 then some 0 else none
  | 2, o => if o < 7 ∨ (8 ≤ o ∧ o ≤ 0x0F) then some 0 else none
  | 3, o => if o < 9 then some 0 else none
  | 4, o => if o < 4 then some 1 else if o < 8 then some 0 else none
  | 5, o => if o = 1 then some 2 else if o < 7 then some 1 else if o < 9 then some 0 else none
  | 6, o => if o < 3 then some 1 else if o = 3 then some 0 else none
  | 7, o => if o < 2 then some 1 else none
  | 8, o => if o < 2 then some 2 else none
  | 9, o => if o = 0 ∨ o = 3 ∨ o = 4 ∨ o = 5 then some 1 else if o < 10 then some 0 else none
  | 10, o => if o = 2 then some 1 else if o < 7 then some 0 else none
  | 11, o => if o < 6 then some 0 else none
  | 12, o => if o < 0x0B then some 0 else none
  | 13, o => if o = 0 then some 1 else if o < 5 then some 0 else none
  | 14, o => if o < 9 then some 0 else none
  | _, _ => none

/-! ### The classes -/

/-- The register and immediate shapes of the first granule: which of the fields an instruction leaves unused. -/
def W8.zImm (f : W8) : Bool := f.imm == 0
def W8.zM (f : W8) : Bool := f.m == 0
def W8.zTk (f : W8) : Bool := f.tk == 0

/-- Class 0 (R95 to R98). -/
def decode0 (f : W8) (x1 : Word) : Except DecodeErr Instr :=
  let rrr (mk : Reg → Reg → Reg → Instr) :=
    ck (f.rc == 0 && f.imm == 0) .badField (ck (f.m == 0) .badModifier (.ok (mk f.rd f.ra f.rb)))
  let rru (mk : Bool → Reg → Reg → Reg → Instr) :=
    ck (f.rc == 0 && f.imm == 0) .badField
      (ck (f.m == 0 || f.m == 1) .badModifier (.ok (mk (f.m == 1) f.rd f.ra f.rb)))
  let rr (mk : Reg → Reg → Instr) :=
    ck (f.rb == 0 && f.rc == 0 && f.imm == 0) .badField (ck (f.m == 0) .badModifier (.ok (mk f.rd f.ra)))
  let sh (mk : Reg → Reg → ShCount → Instr) :=
    if f.m == 1 then
      ck (f.rb == 0 && f.rc == 0 && f.imm.extractLsb' 6 14 == 0) .badField
        (.ok (mk f.rd f.ra (.imm (f.imm.extractLsb' 0 6))))
    else
      ck (f.rc == 0 && f.imm == 0) .badField (ck (f.m == 0) .badModifier (.ok (mk f.rd f.ra (.reg f.rb))))
  ck (f.tk == 0) .badToken <|
  match f.op.toNat with
  | 0x00 => rrr .add
  | 0x01 => rrr .sub
  | 0x02 => ck (f.rb == 0 && f.rc == 0) .badField (ck (f.m == 0) .badModifier (.ok (.addi f.rd f.ra f.imm)))
  | 0x03 => rrr .mul
  | 0x04 =>
    ck (f.rc == 0 && f.imm == 0) .badField <|
    match f.m.toNat with
    | 0 => .ok (.mulh .ss f.rd f.ra f.rb)
    | 1 => .ok (.mulh .uu f.rd f.ra f.rb)
    | 2 => .ok (.mulh .su f.rd f.ra f.rb)
    | _ => .error .badModifier
  | 0x05 => rru .div
  | 0x06 => rru .rem
  | 0x07 => rrr .and
  | 0x08 => rrr .or
  | 0x09 => rrr .xor
  | 0x0A => rrr .andn
  | 0x0B => sh .shl
  | 0x0C => sh .shr
  | 0x0D => sh .sar
  | 0x0E => sh .rot
  | 0x0F => rr .clz
  | 0x10 => rr .popc
  | 0x11 => rru .min
  | 0x12 => rru .max
  | 0x13 => ck (f.imm == 0) .badField (ck (f.m == 0) .badModifier (.ok (.sel f.rd f.ra f.rb f.rc)))
  | 0x14 => rrr .ceq
  | 0x15 => rrr .clt
  | 0x16 => rrr .cltu
  | 0x17 => ck (f.rc == 0) .badField (.ok (.lea f.rd f.ra f.rb f.m f.imm))
  | 0x18 =>
    ck (f.rb == 0 && f.rc == 0 && f.imm.extractLsb' 12 8 == 0) .badField
      (ck (f.m == 0 || f.m == 1) .badModifier
        (ck ((f.imm.extractLsb' 0 6).toNat + (f.imm.extractLsb' 6 6).toNat + 1 ≤ 64) .badField
          (.ok (.bfx (f.m == 1) f.rd f.ra (f.imm.extractLsb' 0 6) (f.imm.extractLsb' 6 6)))))
  | 0x19 =>
    ck (f.rc == 0 && f.imm.extractLsb' 12 8 == 0) .badField
      (ck (f.m == 0) .badModifier
        (ck ((f.imm.extractLsb' 0 6).toNat + (f.imm.extractLsb' 6 6).toNat + 1 ≤ 64) .badField
          (.ok (.bfi f.rd f.ra f.rb (f.imm.extractLsb' 0 6) (f.imm.extractLsb' 6 6)))))
  | 0x1A =>
    ck (f.ra == 0 && f.rb == 0 && f.rc == 0 && f.imm == 0) .badField (ck (f.m == 0) .badModifier (.ok (.movi f.rd x1)))
  | _ => .error .badOpcode

/-- Class 1 (R99 to R102). -/
def decode1 (f : W8) : Except DecodeErr Instr :=
  let br (mk : Reg → Reg → BitVec 20 → Instr) :=
    ck (f.rd == 0 && f.rc == 0) .badField (.ok (mk f.ra f.rb f.imm))
  ck (f.tk == 0) .badToken <| ck (f.m == 0) .badModifier <|
  match f.op.toNat with
  | 0x00 => br .brEq
  | 0x01 => br .brNe
  | 0x02 => br .brLt
  | 0x03 => br .brGe
  | 0x04 => br .brLtu
  | 0x05 => br .brGeu
  | 0x08 => ck (f.rd == 0) .badField (.ok (.jmp f.imm38))
  | 0x09 => ck (f.rb == 0 && f.rc == 0 && f.imm == 0) .badField (.ok (.jmpr f.rd f.ra))
  | 0x0A => .ok (.call f.rd f.imm38)
  | 0x0B => ck (f.rd == 0 && f.rb == 0 && f.rc == 0 && f.imm == 0) .badField (.ok (.ret f.ra))
  | 0x0C =>
    ck (f.rd == 0 && f.rb == 0 && f.rc == 0) .badField (ck (f.ra != 0) .badRegister (.ok (.loop f.ra f.imm)))
  | 0x10 => ck (f.rd == 0 && f.ra == 0 && f.rb == 0 && f.rc == 0 && f.imm == 0) .badField (.ok .nop)
  | 0x11 =>
    ck (f.rd == 0 && f.ra == 0 && f.rb == 0 && f.rc == 0 && f.imm.toNat ≤ 2) .badField
      (.ok (.hint (f.imm.extractLsb' 0 8)))
  | _ => .error .badOpcode

/-- A scope operand in IMM20[2:0], the rest of IMM20 zero (R38). -/
def scopeOp (f : W8) (ok : Scope → Bool) (mk : Scope → Instr) : Except DecodeErr Instr :=
  ck (f.imm.extractLsb' 3 17 == 0) .badField <|
  match Scope.ofCode (f.imm.extractLsb' 0 3) with
  | some sc => ck (ok sc) .badField (.ok (mk sc))
  | none => .error .badField

/-- Class 2 (R116 to R131, R106). -/
def decode2 (f : W8) : Except DecodeErr Instr :=
  let noRegs := f.rd == 0 && f.ra == 0 && f.rb == 0 && f.rc == 0
  ck (f.tk == 0) .badToken <|
  match f.op.toNat with
  | 0x00 => ck (f.rc == 0) .badField (.ok (.ld (MSize.ofCode f.m) f.rd f.ra f.rb f.imm))
  | 0x01 => ck (f.rc == 0) .badField (.ok (.st (MSize.ofCode f.m) f.rd f.ra f.rb f.imm))
  | 0x02 => ck (f.rb == 0 && f.rc == 0) .badField (.ok (.spl (MSize.ofCode f.m) f.rd f.ra f.imm))
  | 0x03 => ck (f.rb == 0 && f.rc == 0) .badField (.ok (.sps (MSize.ofCode f.m) f.rd f.ra f.imm))
  | 0x04 => ck (f.rd == 0 && f.rc == 0) .badField (ck (f.m == 0) .badModifier (.ok (.pref f.ra f.rb f.imm)))
  | 0x05 => ck (f.rd == 0 && f.rb == 0 && f.rc == 0) .badField (ck (f.m == 0) .badModifier (.ok (.cln f.ra f.imm)))
  | 0x06 =>
    ck (f.rd == 0 && f.rb == 0 && f.rc == 0) .badField <|
    match f.m.toNat with
    | 0 => .ok (.inv f.ra f.imm)
    | 1 => .ok (.invI f.ra f.imm)
    | _ => .error .badModifier
  | 0x08 => ck (noRegs && f.imm == 0) .badField (ck (f.m == 0) .badModifier (.ok .commit))
  | 0x09 => ck (noRegs && f.imm == 0) .badField (ck (f.m == 0) .badModifier (.ok .acq))
  | 0x0A => ck noRegs .badField (ck (f.m == 0) .badModifier (scopeOp f (fun s => s != .lane && s != .pod) .phase))
  | 0x0B => ck noRegs .badField (ck (f.m == 0) .badModifier (scopeOp f (fun s => s != .lane) .fence))
  | 0x0C =>
    ck (f.rd == 0 && f.rb == 0 && f.rc == 0 && f.imm.extractLsb' 8 12 == 0 && tlSelOk (f.imm.extractLsb' 0 8)) .badField
      (ck (f.m == 0 || f.m == 1) .badModifier (.ok (.twait (f.m == 1) (f.imm.extractLsb' 0 8) f.ra)))
  | 0x0D =>
    ck (f.ra == 0 && f.rb == 0 && f.rc == 0 && f.imm.extractLsb' 8 12 == 0 && tlSelOk (f.imm.extractLsb' 0 8)) .badField
      (ck (f.m == 0 || f.m == 1) .badModifier (.ok (.tread (f.m == 1) f.rd (f.imm.extractLsb' 0 8))))
  | 0x0E =>
    ck (f.rc == 0) .badField (ck (f.m == 0) .badModifier
      (ck (f.rd.toNat < 16) .badRegister (.ok (.ldDsc (dc f.rd) f.ra f.rb f.imm))))
  | 0x0F =>
    ck (f.rc == 0) .badField (ck (f.m == 0) .badModifier
      (ck (f.rd.toNat < 16) .badRegister (.ok (.stDsc (dc f.rd) f.ra f.rb f.imm))))
  | _ => .error .badOpcode

/-- Class 3 (R146). -/
def decode3 (f : W8) : Except DecodeErr Instr :=
  ck (f.tk == 0) .badToken <| ck (f.rc == 0) .badField <|
  match f.op.toNat with
  | 0x00 =>
    ck (f.ra == 0 && f.rb == 0 && f.imm.extractLsb' 12 8 == 0) .badField
      (ck (f.m == 0) .badModifier (.ok (.mfsr f.rd (f.imm.extractLsb' 0 12))))
  | 0x01 =>
    ck (f.rd == 0 && f.rb == 0 && f.imm.extractLsb' 12 8 == 0) .badField
      (ck (f.m == 0) .badModifier (.ok (.mtsr (f.imm.extractLsb' 0 12) f.ra)))
  | 0x02 =>
    ck (f.rd == 0 && f.rb == 0 && f.imm == 0) .badField <|
    match f.m.toNat with
    | 0 => .ok (.tlbiVa f.ra)
    | 1 => ck (f.ra == 0) .badField (.ok .tlbiCtx)
    | 2 => .ok (.tlbiCid f.ra)
    | _ => ck (f.ra == 0) .badField (.ok .tlbiAll)
  | 0x03 =>
    ck (f.rd == 0 && f.ra == 0 && f.rb == 0) .badField (ck (f.m == 0) .badModifier
      (scopeOp f (fun s => s != .lane && s != .pod) .tlbfence))
  | 0x04 =>
    ck (f.rb == 0 && f.imm == 0) .badField <|
    match f.m.toNat with
    | 0 => .ok (.probe .r f.rd f.ra)
    | 1 => .ok (.probe .w f.rd f.ra)
    | 2 => .ok (.probe .x f.rd f.ra)
    | _ => .error .badModifier
  | 0x05 => ck (f.rd == 0 && f.rb == 0 && f.imm == 0) .badField (ck (f.m == 0) .badModifier (.ok (.rfhint f.ra)))
  | 0x06 =>
    ck (f.ra == 0 && f.rb == 0 && f.imm == 0) .badField
      (ck (f.m == 0 || f.m == 1) .badModifier (.ok (.rdcyc (f.m == 1) f.rd)))
  | 0x07 =>
    ck (f.rd == 0 && f.imm == 0) .badField <|
    match f.m.toNat with
    | 0 => .ok (.keysel f.ra f.rb)
    | 1 => ck (f.rb == 0) .badField (.ok (.keyselClr f.ra))
    | _ => .error .badModifier
  | 0x08 => ck (f.rb == 0 && f.imm == 0) .badField (ck (f.m == 0) .badModifier (.ok (.mode f.rd f.ra)))
  | _ => .error .badOpcode

/-- Tokens of a load-queue command may not name a previous neighbour (R19). -/
def tokLoad (f : W8) (k : Tok → Except DecodeErr Instr) : Except DecodeErr Instr :=
  ck (f.tk.getLsbD 0 == false && f.tk.getLsbD 2 == false) .badToken (k (Tok.ofBits f.tk))

/-- Tokens of a store-queue command may not name a next neighbour (R19). DEDUCED (log 47). -/
def tokStore (f : W8) (k : Tok → Except DecodeErr Instr) : Except DecodeErr Instr :=
  ck (f.tk.getLsbD 1 == false && f.tk.getLsbD 3 == false) .badToken (k (Tok.ofBits f.tk))

/-- Two descriptor fields, RD and RA. -/
def descDA (f : W8) (k : DCode → DCode → Except DecodeErr Instr) : Except DecodeErr Instr :=
  ck (f.rd.toNat < 16 && f.ra.toNat < 16) .badRegister (k (dc f.rd) (dc f.ra))

/-- Class 4 (R79 to R88). -/
def decode4 (f : W8) (x1 : Word) : Except DecodeErr Instr :=
  let tk := Tok.ofBits f.tk
  let df := x1.extractLsb' 0 4
  let sf := x1.extractLsb' 4 4
  let rm := x1.extractLsb' 8 3
  let sat := x1.getLsbD 11
  match f.op.toNat with
  | 0x00 =>
    ck (f.rb == 0 && f.rc == 0 && f.imm == 0 && x1.extractLsb' 12 52 == 0 && rm.toNat < 4 && cvtFmtOk sf && cvtFmtOk df)
      .badField (ck (f.m == 0) .badModifier (descDA f fun d a => .ok (.cvt tk d a (RM.ofCode (rm.setWidth 2)) sat sf df)))
  | 0x01 =>
    ck (f.imm == 0 && x1.extractLsb' 12 52 == 0 && rm == 0 && cvtsSfOk sf && cvtsDfOk df) .badField
      (ck (f.m == 0) .badModifier (descDA f fun d a => .ok (.cvts tk d a f.rb f.rc sat sf df)))
  | 0x02 =>
    ck (f.rb == 0 && f.rc == 0 && f.imm == 0 && x1.extractLsb' 12 52 == 0 && rm.toNat < 4 && !sat && gFltOk sf && gWOk df)
      .badField (ck (f.m == 0) .badModifier (descDA f fun d a => .ok (.qntw tk d a (RM.ofCode (rm.setWidth 2)) sf df)))
  | 0x03 =>
    ck (f.rb == 0 && f.rc == 0 && f.imm == 0 && x1.extractLsb' 12 52 == 0 && rm.toNat < 4 && !sat && gWOk sf && gFltOk df)
      .badField (ck (f.m == 0) .badModifier (descDA f fun d a => .ok (.dqw tk d a (RM.ofCode (rm.setWidth 2)) sf df)))
  | 0x04 =>
    ck (f.ra == 0 && f.rb == 0 && f.rc == 0 && f.imm.extractLsb' 16 4 == 0 && tagOk (f.imm.extractLsb' 0 16)) .badField <|
    match f.m.toNat with
    | 0 => .ok (.retag tk f.rd (f.imm.extractLsb' 0 16))
    | 1 => ck (f.rd.toNat < 16) .badRegister (.ok (.retagDsc tk (dc f.rd) (f.imm.extractLsb' 0 16)))
    | _ => .error .badModifier
  | 0x05 =>
    ck (f.rd == 0 && f.rb == 0 && f.rc == 0 && f.imm.toNat ≤ 16382) .badField
      (ck (f.m == 0) .badModifier (.ok (.tagget tk f.ra (f.imm.extractLsb' 0 14))))
  | 0x06 =>
    ck (f.rd == 0 && f.rb == 0 && f.rc == 0 && f.imm.extractLsb' 16 4 == 0 && tagOk (f.imm.extractLsb' 0 16)) .badField <|
    if f.m.getLsbD 0 then
      ck (f.ra.toNat < 16) .badRegister (.ok (.tagchk tk (f.m.getLsbD 1) (.d (dc f.ra)) (f.imm.extractLsb' 0 16)))
    else .ok (.tagchk tk (f.m.getLsbD 1) (.v f.ra) (f.imm.extractLsb' 0 16))
  | 0x07 =>
    ck (f.rb == 0 && f.rc == 0 && f.imm == (f.imm.extractLsb' 0 10).signExtend 20) .badField
      (descDA f fun d a => .ok (.scalex tk (RM.ofCode f.m) d a (f.imm.extractLsb' 0 10)))
  | _ => .error .badOpcode

/-- Class 5 (R161 to R182, R176). -/
def decode5 (f : W8) (x1 x2 x3 : Word) : Except DecodeErr Instr :=
  let store := f.m.getLsbD 0
  match f.op.toNat with
  | 0x08 =>
    ck (f.tk == 0) .badToken <|
    ck (f.rb == 0 && f.rc == 0 && f.imm.extractLsb' 8 12 == 0 &&
        (f.imm.extractLsb' 0 8 == 0 || f.imm.extractLsb' 0 8 == 2)) .badField
      (ck (f.m == 0) .badModifier (.ok (.tierq f.rd (f.imm.extractLsb' 0 8 == 2) f.ra)))
  | 0x00 =>
    ck (f.m.getLsbD 1 == false) .badModifier <|
    ck (f.rb == 0 && f.rc == 0 && f.imm == 0) .badField <| ck (f.rd.toNat < 6) .badRegister <|
    if store then tokStore f fun tk => .ok (.trvlOut tk (f.rd.setWidth 3) f.ra (x1.extractLsb' 0 32) (x1.extractLsb' 32 32))
    else tokLoad f fun tk => .ok (.trvlIn tk (f.rd.setWidth 3) f.ra (x1.extractLsb' 0 32) (x1.extractLsb' 32 32))
  | 0x01 =>
    let b : Bounds := ⟨x1.extractLsb' 0 32, x1.extractLsb' 32 32, x2.extractLsb' 0 32, x2.extractLsb' 32 32,
                       x3.extractLsb' 0 32, x3.extractLsb' 32 32⟩
    let mode := OobMode.ofCode (f.imm.extractLsb' 0 2)
    ck (f.m.getLsbD 1 == false) .badModifier <|
    ck (f.rd == 0 && f.imm.extractLsb' 2 18 == 0) .badField <|
    if store then tokStore f fun tk => .ok (.trvsOut tk mode f.ra f.rb f.rc b)
    else tokLoad f fun tk => .ok (.trvsIn tk mode f.ra f.rb f.rc b)
  | 0x02 =>
    let c : CopyF := ⟨x1.extractLsb' 8 4, x1.getLsbD 7, x1.getLsbD 6, x1.extractLsb' 2 4⟩
    ck (f.m.getLsbD 1 == false) .badModifier <|
    ck (f.rc == 0 && x1.extractLsb' 12 52 == 0 && afmtOk c.afmt && c.esz.toNat ≤ 9) .badField <|
    match BSpace.ofCode (x1.extractLsb' 0 2) with
    | none => .error .badField
    | some sp =>
      if store then tokStore f fun tk => .ok (.copyOut tk sp f.rd f.ra f.rb f.imm c)
      else tokLoad f fun tk => .ok (.copyIn tk sp f.rd f.ra f.rb f.imm c)
  | 0x03 =>
    ck (f.m.getLsbD 1 == false) .badModifier <|
    ck (f.rc == 0 && x1.extractLsb' 6 58 == 0 && (x1.extractLsb' 4 2) == 0) .badField <|
    if store then
      ck (x1.extractLsb' 0 2 == 3) .badField
        (tokStore f fun tk => .ok (.fillOut tk f.rd f.ra f.rb f.imm (x1.extractLsb' 2 2)))
    else
      ck (f.rb == 0 && f.imm == 0) .badField <|
      match (x1.extractLsb' 0 2).toNat with
      | 0 => tokLoad f fun tk => .ok (.fillIn tk .wb f.rd f.ra (x1.extractLsb' 2 2))
      | 1 => tokLoad f fun tk => .ok (.fillIn tk .ab f.rd f.ra (x1.extractLsb' 2 2))
      | _ => .error .badField
  | 0x04 =>
    ck (f.m == 0) .badModifier <|
    ck (f.imm == 0 && x1.extractLsb' 2 4 == 0 && x1.extractLsb' 12 20 == 0) .badField <|
    ck (f.ra.toNat < 16) .badRegister <|
    match BSpace.ofCode (x1.extractLsb' 0 2) with
    | some sp => tokLoad f fun tk => .ok (.gthr tk sp f.rd (dc f.ra) f.rb f.rc (x1.extractLsb' 6 6) (x1.extractLsb' 32 32))
    | none => .error .badField
  | 0x05 =>
    ck (f.m == 1) .badModifier <|
    ck (f.imm == 0 && x1.extractLsb' 2 4 == 0 && x1.extractLsb' 12 20 == 0) .badField <|
    ck (f.rd.toNat < 16) .badRegister <|
    match BSpace.ofCode (x1.extractLsb' 0 2) with
    | some sp => tokStore f fun tk => .ok (.sctr tk sp (dc f.rd) f.ra f.rb f.rc (x1.extractLsb' 6 6) (x1.extractLsb' 32 32))
    | none => .error .badField
  | 0x06 =>
    ck (f.m == 0) .badModifier <|
    ck (f.imm == 0 && x1.extractLsb' 4 60 == 0) .badField <|
    match FSpace.ofCode (x1.extractLsb' 0 2) with
    | none => .error .badField
    | some sp =>
      ck (sp == .g || f.rc == 0) .badField
        (tokLoad f fun tk => .ok (.fard tk sp (x1.extractLsb' 2 2) f.rd f.ra f.rb f.rc))
  | 0x07 =>
    ck (f.m == 1) .badModifier <|
    ck (f.rd == 0 && f.rb == 0 && f.rc == 0 && f.imm.extractLsb' 1 19 == 0) .badField
      (tokStore f fun tk => .ok (.cmpx tk (f.imm.getLsbD 0) f.ra))
  | _ => .error .badOpcode

/-- Class 6 (R187 to R190, R202). -/
def decode6 (f : W8) (x1 : Word) : Except DecodeErr Instr :=
  let a : AtomF := ⟨f.m.getLsbD 0, x1.extractLsb' 13 3, x1.extractLsb' 9 4, x1.getLsbD 8, x1.extractLsb' 4 4, x1.extractLsb' 0 4⟩
  let sp := x1.extractLsb' 16 2
  let tensor := f.m.getLsbD 1
  match f.op.toNat with
  | 0x00 =>
    ck (x1.extractLsb' 18 46 == 0) .badField <|
    if tensor then
      ck (f.rd == 0 && f.rc == 0) .badField <|
      match sp.toNat with
      | 1 => ck (atomOk .awrT a 0 .ab) .badField (tokStore f fun tk => .ok (.awrT tk a .ab f.ra f.rb f.imm))
      | 2 => ck (atomOk .awrT a 0 .cb) .badField (tokStore f fun tk => .ok (.awrT tk a .cb f.ra f.rb f.imm))
      | _ => .error .badField
    else
      ck (f.rc == 0 && sp == 0 && atomOk .awr a f.rd .ab) .badField
        (tokStore f fun tk => .ok (.awr tk a f.rd f.ra f.rb f.imm))
  | 0x01 =>
    ck (tensor == false) .badModifier <|
    ck (x1.extractLsb' 18 46 == 0 && f.rc == 0 && sp == 0 && atomOk .axch a f.rd .ab) .badField
      (tokStore f fun tk => .ok (.axch tk a f.rd f.ra f.rb f.imm))
  | 0x02 =>
    ck (tensor == false) .badModifier <|
    ck (x1.extractLsb' 18 46 == 0 && sp == 0 && atomOk .acas a f.rd .ab) .badField
      (tokStore f fun tk => .ok (.acas tk a f.rd f.ra f.rb f.rc f.imm))
  | 0x03 =>
    ck (f.tk == 0) .badToken <|
    ck (f.ra == 0 && f.rb == 0 && f.rc == 0 && f.imm == 0) .badField
      (ck (f.m == 0 || f.m == 1) .badModifier (.ok (.aflg (f.m == 1) f.rd)))
  | _ => .error .badOpcode

/-- Class 7 (R210). -/
def decode7 (f : W8) (x1 : Word) : Except DecodeErr Instr :=
  let tk := Tok.ofBits f.tk
  let na := x1.extractLsb' 0 4
  ck (f.rd == 0 && f.imm == 0 && vrunOk na f.rb) .badField <| ck (f.m == 0) .badModifier <|
  match f.op.toNat with
  | 0x00 => ck (f.rc == 0 && x1.extractLsb' 4 60 == 0) .badField (.ok (.vrun tk f.ra f.rb na))
  | 0x01 =>
    ck (x1.extractLsb' 4 12 == 0 && x1.extractLsb' 26 2 == 0 && x1.extractLsb' 31 33 == 0) .badField
      (.ok (.vruna tk f.ra f.rb na f.rc (x1.extractLsb' 16 10) (x1.extractLsb' 28 3)))
  | _ => .error .badOpcode

/-- The LNX and LNR fields (R233). -/
def lnFields (f : W8) (x1 x2 x3 : Word) : LnFields :=
  { unary := f.m.getLsbD 0, shD := f.rc.extractLsb' 0 2, shA := f.rc.extractLsb' 2 2, shB := f.rc.extractLsb' 4 2,
    nr := f.imm.extractLsb' 17 3, nl := f.imm.extractLsb' 14 3, sat := f.imm.getLsbD 13,
    rm := RM.ofCode (f.imm.extractLsb' 11 2), fn := f.imm.extractLsb' 7 4, vop := f.imm.extractLsb' 0 7,
    ext := Lv5.ofBits 10 (x1.extractLsb' 0 50),
    dst := Lv5.ofBits 9 (x2.extractLsb' 0 45),
    ast := Lv5.ofBits 9 (x3.extractLsb' 0 45),
    bst := { l0 := x2.extractLsb' 45 9, l1 := x2.extractLsb' 54 9, l2 := x3.extractLsb' 45 9, l3 := x3.extractLsb' 54 9,
             l4 := x1.extractLsb' 50 9 } }

/-- Class 8 (R233). -/
def decode8 (f : W8) (x1 x2 x3 : Word) : Except DecodeErr Instr :=
  let tk := Tok.ofBits f.tk
  let l := lnFields f x1 x2 x3
  ck (f.m.getLsbD 1 == false) .badModifier <|
  ck (x1.extractLsb' 59 5 == 0 && x2.getLsbD 63 == false && x3.getLsbD 63 == false) .badField <|
  ck (f.rd.toNat < 16 && f.ra.toNat < 16 && f.rb.toNat < 16) .badRegister <|
  match f.op.toNat with
  | 0x00 => ck (lnxOk l (dc f.rb)) .badField (.ok (.lnx tk (dc f.rd) (dc f.ra) (dc f.rb) l))
  | 0x01 => ck (lnrOk l (dc f.rb)) .badField (.ok (.lnr tk (dc f.rd) (dc f.ra) (dc f.rb) l))
  | _ => .error .badOpcode

/-- An accumulator field holds 0 or 1 (R247). -/
def accField (r : Reg) (k : Bool → Except DecodeErr Instr) : Except DecodeErr Instr :=
  ck (r.toNat < 2) .badRegister (k (r.getLsbD 0))

/-- Class 9 (R247 to R262). -/
def decode9 (f : W8) (x1 : Word) : Except DecodeErr Instr :=
  let tk := Tok.ofBits f.tk
  let row0 := x1.extractLsb' 0 7
  let col0 := x1.extractLsb' 8 7
  let accOnly (mk : Bool → Instr) :=
    ck (f.ra == 0 && f.rb == 0 && f.rc == 0 && f.imm == 0) .badField
      (ck (f.m == 0) .badModifier (accField f.rd fun a => .ok (mk a)))
  let prod (mk : Bool → Bool → Bool → DCode → DCode → BitVec 7 → BitVec 7 → Instr) :=
    ck (f.rc == 0 && f.imm == 0 && x1.extractLsb' 15 49 == 0 && x1.getLsbD 7 == false) .badField <|
    ck (f.ra.toNat < 16 && f.rb.toNat < 16) .badRegister
      (accField f.rd fun a => .ok (mk a (f.m.getLsbD 0) (f.m.getLsbD 1) (dc f.ra) (dc f.rb) row0 col0))
  match f.op.toNat with
  | 0x00 => prod (.mma tk)
  | 0x01 =>
    ck (f.rb == 0 && f.rc == 0 && f.imm == 0) .badField <|
    match f.m.toNat with
    | 0 => ck (f.ra == 0) .badField (accField f.rd fun a => .ok (.mzero tk a))
    | 1 => ck (f.ra.toNat < 16) .badRegister (accField f.rd fun a => .ok (.mzeroCb tk a (dc f.ra)))
    | _ => .error .badModifier
  | 0x02 => accOnly (.mswap tk)
  | 0x03 =>
    ck (f.rb == 0 && f.rc == 0 && f.imm == 0 && x1.extractLsb' 25 39 == 0 && x1.getLsbD 15 == false && x1.getLsbD 7 == false &&
        (x1.extractLsb' 20 3).toNat < 4 &&
        mstOk (x1.extractLsb' 16 4) (x1.getLsbD 24) (x1.getLsbD 23) (RM.ofCode (x1.extractLsb' 20 2))) .badField <|
    ck (f.m == 0) .badModifier <| ck (f.rd.toNat < 16) .badRegister <|
      accField f.ra fun a => .ok (.mst tk (dc f.rd) a (x1.getLsbD 24) (x1.getLsbD 23) (RM.ofCode (x1.extractLsb' 20 2))
        (x1.extractLsb' 16 4) row0 col0)
  | 0x04 => prod (.mcks tk)
  | 0x05 =>
    ck (f.ra == 0 && f.rb == 0 && f.rc == 0 && f.imm == 0 && x1.extractLsb' 17 47 == 0 && x1.extractLsb' 14 2 == 0 &&
        x1.extractLsb' 0 6 == 0) .badField <|
    ck (f.m == 0) .badModifier (accField f.rd fun a => .ok (.mckv tk a (x1.getLsbD 16) (x1.extractLsb' 0 14)))
  | 0x06 => accOnly (.mfix tk)
  | 0x07 => ck (f.rd == 0 && f.ra == 0 && f.rb == 0 && f.rc == 0 && f.imm == 0) .badField (ck (f.m == 0) .badModifier (.ok (.mtm tk)))
  | 0x08 => ck (f.rd == 0 && f.ra == 0 && f.rb == 0 && f.rc == 0 && f.imm == 0) .badField (ck (f.m == 0) .badModifier (.ok (.mte tk)))
  | 0x09 =>
    ck (f.ra == 0 && f.rb == 0 && f.rc == 0 && f.imm == (f.imm.extractLsb' 0 7).signExtend 20) .badField
      (ck (f.m == 0) .badModifier (accField f.rd fun a => .ok (.wgrp tk a (f.imm.extractLsb' 0 7))))
  | _ => .error .badOpcode

/-- Class 10 (R270, R281). -/
def decode10 (f : W8) (x1 : Word) : Except DecodeErr Instr :=
  let tk := Tok.ofBits f.tk
  ck (f.rc == 0) .badField <|
  match f.op.toNat with
  | 0x00 => ck (f.rb == 0 && f.imm == 0) .badField (ck (f.m == 0) .badModifier (descDA f fun d a => .ok (.sxf tk d a)))
  | 0x01 => ck (f.rb == 0 && f.imm == 0) .badField (ck (f.m == 0) .badModifier (descDA f fun d a => .ok (.sxi tk d a)))
  | 0x02 =>
    let s : ScF := ⟨f.m.getLsbD 0, x1.getLsbD 31, x1.getLsbD 30, x1.getLsbD 29, x1.getLsbD 28, x1.extractLsb' 25 3,
      x1.extractLsb' 16 9, x1.extractLsb' 8 7, x1.extractLsb' 0 7⟩
    ck (f.imm == 0 && x1.extractLsb' 32 32 == 0 && x1.getLsbD 15 == false && x1.getLsbD 7 == false && s.wcode != 7) .badField <|
    ck (f.m.getLsbD 1 == false) .badModifier <| ck (f.ra.toNat < 16 && f.rb.toNat < 16) .badRegister
      (accField f.rd fun a => .ok (.scmac tk a (dc f.ra) (dc f.rb) s))
  | 0x03 =>
    ck (f.imm == 0) .badField <| ck (f.m == 0 || f.m == 1) .badModifier <| ck (f.rb.toNat < 16) .badRegister
      (descDA f fun d a => .ok (.scmul tk (f.m == 1) d a (dc f.rb)))
  | 0x04 => ck (f.rb == 0 && f.imm == 0) .badField (ck (f.m == 0) .badModifier (descDA f fun d a => .ok (.sconj tk d a)))
  | 0x05 =>
    ck (f.imm == 0) .badField <| ck (f.m == 0) .badModifier <| ck (f.rb.toNat < 16) .badRegister
      (descDA f fun d a => .ok (.sdom tk d a (dc f.rb)))
  | 0x06 =>
    ck (f.rb == 0 && f.imm.extractLsb' 5 15 == 0) .badField
      (ck (f.m == 0) .badModifier (descDA f fun d a => .ok (.sexp tk d a (f.imm.extractLsb' 0 5))))
  | _ => .error .badOpcode

/-- Class 11 (R289). -/
def decode11 (f : W8) : Except DecodeErr Instr :=
  let tk := Tok.ofBits f.tk
  let id := f.imm.extractLsb' 0 16
  ck (f.rb == 0 && f.rc == 0) .badField <|
  match f.op.toNat with
  | 0x00 =>
    ck (f.tk == 0) .badToken <| ck (f.rd == 0 && f.imm.extractLsb' 17 3 == 0) .badField
      (ck (f.m == 0 || f.m == 1) .badModifier (.ok (.blkb (f.m == 1) (f.imm.getLsbD 16) f.ra id)))
  | 0x01 =>
    ck (f.tk == 0) .badToken <| ck (f.rd == 0 && f.ra == 0 && f.imm.extractLsb' 16 4 == 0) .badField
      (ck (f.m == 0) .badModifier (.ok (.blke id)))
  | 0x02 =>
    ck (f.tk == 0) .badToken <| ck (f.rd == 0 && f.ra == 0 && f.imm.extractLsb' 16 4 == 0) .badField
      (ck (f.m == 0) .badModifier (.ok (.revb id)))
  | 0x03 =>
    ck (f.rd == 0) .badField <|
    match f.m.toNat with
    | 0 => ck (f.imm == 0) .badField (ck (f.ra.toNat < 16) .badRegister (.ok (.rpush tk (dc f.ra))))
    | 1 =>
      ck (f.ra == 0 && f.imm.extractLsb' 17 3 == 0 && rsplOk (f.imm.extractLsb' 0 11) (f.imm.extractLsb' 11 6)) .badField
        (.ok (.rpushSpl tk (f.imm.extractLsb' 0 11) (f.imm.extractLsb' 11 6)))
    | _ => .error .badModifier
  | 0x04 =>
    ck (f.tk == 0) .badToken <| ck (f.rd == 0 && f.imm == 0) .badField <|
    match f.m.toNat with
    | 0 => .ok (.rstkSet f.ra)
    | 1 => .ok (.rstkGet f.ra)
    | _ => .error .badModifier
  | 0x05 =>
    ck (f.ra == 0 && f.imm == 0) .badField (ck (f.m == 0) .badModifier
      (ck (f.rd.toNat < 16) .badRegister (.ok (.gzero tk (dc f.rd)))))
  | _ => .error .badOpcode

/-- A barrier's scope and instance in IMM20 (R327). -/
def barOp (f : W8) (mk : Scope → BitVec 3 → Instr) : Except DecodeErr Instr :=
  ck (f.imm.extractLsb' 6 14 == 0) .badField <|
  match Scope.ofCode (f.imm.extractLsb' 0 3) with
  | some sc => ck (barScope sc) .badField (.ok (mk sc (f.imm.extractLsb' 3 3)))
  | none => .error .badField

/-- Class 12 (R327). -/
def decode12 (f : W8) : Except DecodeErr Instr :=
  ck (f.tk == 0) .badToken <| ck (f.rc == 0) .badField <|
  match f.op.toNat with
  | 0x00 =>
    ck (f.imm == 0) .badField <|
    match f.m.toNat with
    | 0 => .ok (.launch f.rd f.ra f.rb)
    | 1 => .ok (.launchRec f.rd f.ra f.rb)
    | _ => .error .badModifier
  | 0x01 => ck (f.rd == 0 && f.rb == 0 && f.imm == 0) .badField (ck (f.m == 0) .badModifier (.ok (.join f.ra)))
  | 0x02 => ck (f.rd == 0 && f.ra == 0 && f.rb == 0 && f.imm == 0) .badField (ck (f.m == 0) .badModifier (.ok .tend))
  | 0x03 => ck (f.rd == 0 && f.ra == 0 && f.rb == 0 && f.imm == 0) .badField (ck (f.m == 0) .badModifier (.ok .yield))
  | 0x04 => ck (f.ra == 0 && f.rb == 0 && f.imm == 0) .badField (ck (f.m == 0) .badModifier (.ok (.stepb f.rd)))
  | 0x05 =>
    ck (f.rd == 0 && f.ra == 0 && f.rb == 0) .badField <|
    match f.m.toNat with
    | 0 => barOp f .bari
    | 1 => barOp f .bariLv
    | _ => .error .badModifier
  | 0x06 => ck (f.ra == 0 && f.rb == 0) .badField (ck (f.m == 0) .badModifier (barOp f fun s b => .bara s f.rd b))
  | 0x07 => ck (f.rd == 0 && f.rb == 0) .badField (ck (f.m == 0) .badModifier (barOp f fun s b => .barw s b f.ra))
  | 0x08 => ck (f.ra == 0 && f.rb == 0) .badField (ck (f.m == 0) .badModifier (barOp f fun s b => .baraw s f.rd b))
  | 0x09 => ck (f.rd == 0 && f.rb == 0) .badField (ck (f.m == 0) .badModifier (barOp f fun s b => .barx s b f.ra))
  | 0x0A => ck (f.rd == 0 && f.rb == 0 && f.imm == 0) .badField (ck (f.m == 0) .badModifier (.ok (.prio f.ra)))
  | _ => .error .badOpcode

/-- Class 13 (R346). -/
def decode13 (f : W8) (x1 : Word) : Except DecodeErr Instr :=
  ck (f.rc == 0) .badField <|
  match f.op.toNat with
  | 0x00 =>
    let x : ChX := ⟨x1.extractLsb' 15 3, x1.extractLsb' 12 3, x1.getLsbD 11, x1.extractLsb' 8 3, x1.extractLsb' 0 8⟩
    ck (f.tk == 0) .badToken <| ck (f.imm == 0 && x1.extractLsb' 18 46 == 0 && chxOk x) .badField <|
    ck (f.rd.toNat < 8) .badRegister <|
    match f.m.toNat with
    | 0 => .ok (.chcfgUp (f.rd.setWidth 3) f.ra f.rb x)
    | 1 => .ok (.chcfgDn (f.rd.setWidth 3) f.ra f.rb x)
    | _ => .error .badModifier
  | 0x01 =>
    ck (f.rb == 0 && f.imm == 0) .badField <| ck (f.rd.toNat < 8 && f.ra.toNat < 16) .badRegister <|
    match f.m.toNat with
    | 0 => tokStore f fun tk => .ok (.chsendFw tk (f.rd.setWidth 3) (dc f.ra))
    | 1 => tokStore f fun tk => .ok (.chsendRv tk (f.rd.setWidth 3) (dc f.ra))
    | _ => .error .badModifier
  | 0x02 =>
    ck (f.rd == 0 && f.rb == 0 && f.imm.extractLsb' 4 16 == 0) .badField <| ck (f.m == 0) .badModifier
      (tokStore f fun tk => .ok (.coll tk (f.imm.extractLsb' 0 4) f.ra))
  | 0x03 =>
    ck (f.tk == 0) .badToken <| ck (f.rd == 0 && f.imm == 0) .badField <|
    match f.m.toNat with
    | 0 => .ok (.cdig f.ra f.rb)
    | 1 => ck (f.ra == 0 && f.rb == 0) .badField (.ok .cdigClr)
    | _ => .error .badModifier
  | 0x04 =>
    ck (f.tk == 0) .badToken <| ck (f.rb == 0 && f.imm.extractLsb' 4 16 == 0) .badField <|
    match f.m.toNat with
    | 0 => .ok (.cstat f.rd (f.imm.extractLsb' 0 4) f.ra)
    | 1 => ck (f.ra == 0) .badField (.ok (.cstatTl f.rd (f.imm.extractLsb' 0 4)))
    | _ => .error .badModifier
  | _ => .error .badOpcode

/-- Class 14 (R367). -/
def decode14 (f : W8) : Except DecodeErr Instr :=
  ck (f.tk == 0) .badToken <| ck (f.rb == 0 && f.rc == 0) .badField <|
  match f.op.toNat with
  | 0x00 =>
    ck (f.rd == 0 && f.ra == 0 && f.imm.extractLsb' 16 4 == 0) .badField
      (ck (f.m == 0) .badModifier (.ok (.trap (f.imm.extractLsb' 0 16))))
  | 0x01 =>
    ck (f.rd == 0 && f.ra == 0 && f.imm == 0) .badField <|
    match f.m.toNat with
    | 0 => .ok .eret
    | 1 => .ok .eretKill
    | _ => .error .badModifier
  | 0x02 => ck (f.imm == 0) .badField (ck (f.m == 0 || f.m == 1) .badModifier (.ok (.ctxsv (f.m == 1) f.rd f.ra)))
  | 0x03 => ck (f.imm == 0) .badField (ck (f.m == 0) .badModifier (.ok (.ctxrs f.rd f.ra)))
  | 0x04 => ck (f.rd == 0 && f.imm == 0) .badField (ck (f.m == 0) .badModifier (.ok (.fltrec f.ra)))
  | 0x05 =>
    ck (f.rd == 0 && f.ra == 0 && f.imm.extractLsb' 16 4 == 0) .badField
      (ck (f.m == 0) .badModifier (.ok (.brk (f.imm.extractLsb' 0 16))))
  | 0x06 => ck (f.rd == 0 && f.imm == 0) .badField (ck (f.m == 0) .badModifier (.ok (.halt f.ra)))
  | 0x07 => ck (f.rd == 0 && f.imm == 0) .badField (ck (f.m == 0) .badModifier (.ok (.crst f.ra)))
  | 0x08 =>
    ck (f.ra == 0 && f.imm.toNat ≤ 5) .badField
      (ck (f.m == 0 || f.m == 1) .badModifier (.ok (.mchkq (f.m == 1) f.rd (f.imm.extractLsb' 0 4))))
  | _ => .error .badOpcode

/-- The instruction whose first granule has fields `f` and whose extension words are `x1`, `x2`, `x3` (R37). -/
def decodeW (f : W8) (x1 x2 x3 : Word) : Except DecodeErr Instr :=
  if f.cl == 15 then .error .badClass
  else match opSize f.cl f.op with
  | none => .error .badOpcode
  | some sz =>
    if f.sz != sz then .error .badSize
    else match f.cl.toNat with
    | 0 => decode0 f x1
    | 1 => decode1 f
    | 2 => decode2 f
    | 3 => decode3 f
    | 4 => decode4 f x1
    | 5 => decode5 f x1 x2 x3
    | 6 => decode6 f x1
    | 7 => decode7 f x1
    | 8 => decode8 f x1 x2 x3
    | 9 => decode9 f x1
    | 10 => decode10 f x1
    | 11 => decode11 f
    | 12 => decode12 f
    | 13 => decode13 f x1
    | 14 => decode14 f
    | _ => .error .badClass

/-- How many granules the size field gives an instruction (R26): 1, 2 or 4; a size of 11 encodes none and counts as one (R30). -/
def sizeGran (sz : BitVec 2) : Nat := match sz.toNat with | 1 => 2 | 2 => 4 | _ => 1

/-- The granules of the instruction that stands at the head of `ws`, decoded (R36). -/
def decodeWords : List Word → Except DecodeErr (Instr × List Word)
  | [] => .error .truncated
  | w :: ws =>
    let f := W8.unpack w
    match f.sz.toNat, ws with
    | 0, _ => (decodeW f 0 0 0).map (·, ws)
    | 1, x1 :: r => (decodeW f x1 0 0).map (·, r)
    | 2, x1 :: x2 :: x3 :: r => (decodeW f x1 x2 x3).map (·, r)
    | 3, _ => .error .badSize
    | _, _ => .error .truncated

/-- Eight little-endian bytes as a word (R4). -/
def leWord (b0 b1 b2 b3 b4 b5 b6 b7 : Byte) : Word :=
  b7 ++ (b6 ++ (b5 ++ (b4 ++ (b3 ++ (b2 ++ (b1 ++ b0))))))

/-- The 64-bit little-endian granules of a byte sequence; a last part of fewer than eight bytes is dropped (R26). -/
def granules : List Byte → List Word
  | b0 :: b1 :: b2 :: b3 :: b4 :: b5 :: b6 :: b7 :: r => leWord b0 b1 b2 b3 b4 b5 b6 b7 :: granules r
  | _ => []

/-- The eight little-endian bytes of a word (R4). -/
def wordBytes (w : Word) : List Byte :=
  [w.extractLsb' 0 8, w.extractLsb' 8 8, w.extractLsb' 16 8, w.extractLsb' 24 8,
   w.extractLsb' 32 8, w.extractLsb' 40 8, w.extractLsb' 48 8, w.extractLsb' 56 8]

/-- The instruction at the head of a byte sequence, with the bytes after it. -/
def decode (bs : List Byte) : Except DecodeErr (Instr × List Byte) :=
  (decodeWords (granules bs)).map fun p => (p.1, bs.drop (bs.length / 8 * 8 - 8 * p.2.length))

/-- Bits `w` of an instruction as the opcode table numbers them, laid out as bytes in ascending order; the bits above
`nbits` are zero, up to the longest instruction of 32 bytes. -/
def tableBytes (nbits w : Nat) : List Byte :=
  (List.range 32).map fun k => BitVec.ofNat 8 ((w % 2 ^ nbits) >>> (8 * k))

/-- The instruction the decoder reads from a word numbered as spec/opcode_table.json numbers it. -/
def decodeTableWord (nbits w : Nat) : Option Instr :=
  match decode (tableBytes nbits w) with
  | .ok (i, _) => some i
  | .error _ => none

/-! ### The encoder -/

/-- The first granule with the given fields (R35). -/
def g8 (cl : BitVec 4) (op : BitVec 8) (sz : BitVec 2) (m : BitVec 2) (tk : BitVec 4) (rd ra rb rc : Reg)
    (imm : BitVec 20) : Word :=
  W8.pack { imm := imm, rc := rc, rb := rb, ra := ra, rd := rd, m := m, tk := tk, op := op, cl := cl, sz := sz }

/-- An I8 of a control-core class: no tokens (R35). -/
def i8 (cl : BitVec 4) (op : BitVec 8) (m : BitVec 2) (rd ra rb rc : Reg) (imm : BitVec 20) : List Word :=
  [g8 cl op 0 m 0 rd ra rb rc imm]

/-- An I8-J: IMM38 over the upper fields (R35). -/
def i8j (op : BitVec 8) (rd : Reg) (imm : BitVec 38) : List Word :=
  [g8 1 op 0 0 0 rd (imm.extractLsb' 0 6) (imm.extractLsb' 6 6) (imm.extractLsb' 12 6) (imm.extractLsb' 18 20)]

/-- A one-bit modifier (R35). -/
def m1 (b : Bool) : BitVec 2 := (bit b).setWidth 2

/-- A shift's words (R95). -/
def encShift (op : BitVec 8) (rd ra : Reg) : ShCount → List Word
  | .reg rb => i8 0 op 0 rd ra rb 0 0
  | .imm n => i8 0 op 1 rd ra 0 0 (n.setWidth 20)

/-- Class 4's extension word (R79). -/
def x4 (rm : RM) (sat : Bool) (sf df : BitVec 4) : Word :=
  ((0 : BitVec 52) ++ (bit sat ++ ((0 : BitVec 1) ++ (rm.code ++ (sf ++ df)))))

/-- An atomic's extension word (R188). -/
def x6 (a : AtomF) (sp : BitVec 2) : Word :=
  (0 : BitVec 46) ++ (sp ++ (a.use ++ (a.qnt ++ (bit a.u ++ (a.ty ++ a.opc)))))

/-- COPY's extension word (R164). -/
def x5c (sp : BSpace) (c : CopyF) : Word :=
  (0 : BitVec 52) ++ (c.afmt ++ (bit c.strm ++ (bit c.hbm ++ (c.esz ++ sp.code))))

/-- Row and column of a tile in an extension word (R247). -/
def xrc (row0 col0 : BitVec 7) : BitVec 16 := (0 : BitVec 1) ++ (col0 ++ ((0 : BitVec 1) ++ row0))

/-- LNX's and LNR's words (R233). -/
def encLn (op : BitVec 8) (tk : Tok) (dD dA dB : DCode) (l : LnFields) : List Word :=
  [g8 8 op 2 (m1 l.unary) tk.bits (dr dD) (dr dA) (dr dB) (l.shB ++ (l.shA ++ l.shD))
     (l.nr ++ (l.nl ++ (bit l.sat ++ (l.rm.code ++ (l.fn ++ l.vop))))),
   (0 : BitVec 5) ++ (l.bst.l4 ++ l.ext.bits),
   (0 : BitVec 1) ++ (l.bst.l1 ++ (l.bst.l0 ++ l.dst.bits)),
   (0 : BitVec 1) ++ (l.bst.l3 ++ (l.bst.l2 ++ l.ast.bits))]

/-- CHCFG's extension word (R346). -/
def x13 (x : ChX) : Word :=
  (0 : BitVec 46) ++ (x.lbi ++ (x.lbs ++ (bit x.lbe ++ (x.rch ++ x.slotu))))

/-- A barrier's immediate (R327). -/
def barImm (sc : Scope) (b : BitVec 3) : BitVec 20 := (0 : BitVec 14) ++ (b ++ sc.code)

/-- The code of a MULH modifier (R95). -/
def MulMode.code : MulMode → BitVec 2
  | .ss => 0 | .uu => 1 | .su => 2

/-- The code of a PROBE modifier (R146). -/
def Acc.code : Acc → BitVec 2
  | .r => 0 | .w => 1 | .x => 2

/-- The words of an instruction, first granule first (R35 to R50 and the class chapters); an event of the device is no
instruction and has none. -/
def encode : Instr → List Word
  | .add d a b => i8 0 0x00 0 d a b 0 0
  | .sub d a b => i8 0 0x01 0 d a b 0 0
  | .addi d a i => i8 0 0x02 0 d a 0 0 i
  | .mul d a b => i8 0 0x03 0 d a b 0 0
  | .mulh m d a b => i8 0 0x04 m.code d a b 0 0
  | .div u d a b => i8 0 0x05 (m1 u) d a b 0 0
  | .rem u d a b => i8 0 0x06 (m1 u) d a b 0 0
  | .and d a b => i8 0 0x07 0 d a b 0 0
  | .or d a b => i8 0 0x08 0 d a b 0 0
  | .xor d a b => i8 0 0x09 0 d a b 0 0
  | .andn d a b => i8 0 0x0A 0 d a b 0 0
  | .shl d a k => encShift 0x0B d a k
  | .shr d a k => encShift 0x0C d a k
  | .sar d a k => encShift 0x0D d a k
  | .rot d a k => encShift 0x0E d a k
  | .clz d a => i8 0 0x0F 0 d a 0 0 0
  | .popc d a => i8 0 0x10 0 d a 0 0 0
  | .min u d a b => i8 0 0x11 (m1 u) d a b 0 0
  | .max u d a b => i8 0 0x12 (m1 u) d a b 0 0
  | .sel d a b c => i8 0 0x13 0 d a b c 0
  | .ceq d a b => i8 0 0x14 0 d a b 0 0
  | .clt d a b => i8 0 0x15 0 d a b 0 0
  | .cltu d a b => i8 0 0x16 0 d a b 0 0
  | .lea d a b sc i => i8 0 0x17 sc d a b 0 i
  | .bfx s d a p l => i8 0 0x18 (m1 s) d a 0 0 ((0 : BitVec 8) ++ (l ++ p))
  | .bfi d a b p l => i8 0 0x19 0 d a b 0 ((0 : BitVec 8) ++ (l ++ p))
  | .movi d x => [g8 0 0x1A 1 0 0 d 0 0 0 0, x]
  | .brEq a b o => i8 1 0x00 0 0 a b 0 o
  | .brNe a b o => i8 1 0x01 0 0 a b 0 o
  | .brLt a b o => i8 1 0x02 0 0 a b 0 o
  | .brGe a b o => i8 1 0x03 0 0 a b 0 o
  | .brLtu a b o => i8 1 0x04 0 0 a b 0 o
  | .brGeu a b o => i8 1 0x05 0 0 a b 0 o
  | .jmp o => i8j 0x08 0 o
  | .jmpr d a => i8 1 0x09 0 d a 0 0 0
  | .call d o => i8j 0x0A d o
  | .ret a => i8 1 0x0B 0 0 a 0 0 0
  | .loop a o => i8 1 0x0C 0 0 a 0 0 o
  | .nop => i8 1 0x10 0 0 0 0 0 0
  | .hint c => i8 1 0x11 0 0 0 0 0 (c.setWidth 20)
  | .ld z d a b o => i8 2 0x00 z.code d a b 0 o
  | .st z d a b o => i8 2 0x01 z.code d a b 0 o
  | .ldDsc d a b o => i8 2 0x0E 0 (dr d) a b 0 o
  | .stDsc d a b o => i8 2 0x0F 0 (dr d) a b 0 o
  | .spl z d a o => i8 2 0x02 z.code d a 0 0 o
  | .sps z d a o => i8 2 0x03 z.code d a 0 0 o
  | .pref a b o => i8 2 0x04 0 0 a b 0 o
  | .cln a o => i8 2 0x05 0 0 a 0 0 o
  | .inv a o => i8 2 0x06 0 0 a 0 0 o
  | .invI a o => i8 2 0x06 1 0 a 0 0 o
  | .commit => i8 2 0x08 0 0 0 0 0 0
  | .acq => i8 2 0x09 0 0 0 0 0 0
  | .phase s => i8 2 0x0A 0 0 0 0 0 (s.code.setWidth 20)
  | .fence s => i8 2 0x0B 0 0 0 0 0 (s.code.setWidth 20)
  | .twait q t a => i8 2 0x0C (m1 q) 0 a 0 0 (t.setWidth 20)
  | .tread q d t => i8 2 0x0D (m1 q) d 0 0 0 (t.setWidth 20)
  | .mfsr d n => i8 3 0x00 0 d 0 0 0 (n.setWidth 20)
  | .mtsr n a => i8 3 0x01 0 0 a 0 0 (n.setWidth 20)
  | .tlbiVa a => i8 3 0x02 0 0 a 0 0 0
  | .tlbiCtx => i8 3 0x02 1 0 0 0 0 0
  | .tlbiCid a => i8 3 0x02 2 0 a 0 0 0
  | .tlbiAll => i8 3 0x02 3 0 0 0 0 0
  | .tlbfence s => i8 3 0x03 0 0 0 0 0 (s.code.setWidth 20)
  | .probe k d a => i8 3 0x04 k.code d a 0 0 0
  | .rfhint a => i8 3 0x05 0 0 a 0 0 0
  | .rdcyc t d => i8 3 0x06 (m1 t) d 0 0 0 0
  | .keysel a b => i8 3 0x07 0 0 a b 0 0
  | .keyselClr a => i8 3 0x07 1 0 a 0 0 0
  | .mode d a => i8 3 0x08 0 d a 0 0 0
  | .cvt t d a rm sat sf df => [g8 4 0x00 1 0 t.bits (dr d) (dr a) 0 0 0, x4 rm sat sf df]
  | .cvts t d a b c sat sf df => [g8 4 0x01 1 0 t.bits (dr d) (dr a) b c 0, x4 .rne sat sf df]
  | .qntw t d a rm sf df => [g8 4 0x02 1 0 t.bits (dr d) (dr a) 0 0 0, x4 rm false sf df]
  | .dqw t d a rm sf df => [g8 4 0x03 1 0 t.bits (dr d) (dr a) 0 0 0, x4 rm false sf df]
  | .retag t v g => [g8 4 0x04 0 0 t.bits v 0 0 0 (g.setWidth 20)]
  | .retagDsc t d g => [g8 4 0x04 0 1 t.bits (dr d) 0 0 0 (g.setWidth 20)]
  | .tagget t v o => [g8 4 0x05 0 0 t.bits 0 v 0 0 (o.setWidth 20)]
  | .tagchk t n (.v v) g => [g8 4 0x06 0 (bit n ++ (0 : BitVec 1)) t.bits 0 v 0 0 (g.setWidth 20)]
  | .tagchk t n (.d d) g => [g8 4 0x06 0 (bit n ++ (1 : BitVec 1)) t.bits 0 (dr d) 0 0 (g.setWidth 20)]
  | .scalex t rm d a n => [g8 4 0x07 0 rm.code t.bits (dr d) (dr a) 0 0 (n.signExtend 20)]
  | .trvlIn t l a ss ds => [g8 5 0x00 1 0 t.bits (l.setWidth 6) a 0 0 0, ds ++ ss]
  | .trvlOut t l a ss ds => [g8 5 0x00 1 1 t.bits (l.setWidth 6) a 0 0 0, ds ++ ss]
  | .trvsIn t m a b c n => [g8 5 0x01 2 0 t.bits 0 a b c (m.code.setWidth 20), n.b1 ++ n.b0, n.b3 ++ n.b2, n.b5 ++ n.b4]
  | .trvsOut t m a b c n => [g8 5 0x01 2 1 t.bits 0 a b c (m.code.setWidth 20), n.b1 ++ n.b0, n.b3 ++ n.b2, n.b5 ++ n.b4]
  | .copyIn t sp d a b o c => [g8 5 0x02 1 0 t.bits d a b 0 o, x5c sp c]
  | .copyOut t sp d a b o c => [g8 5 0x02 1 1 t.bits d a b 0 o, x5c sp c]
  | .fillIn t sp d a z => [g8 5 0x03 1 0 t.bits d a 0 0 0, ((0 : BitVec 60) ++ (z ++ sp.code))]
  | .fillOut t d a b o z => [g8 5 0x03 1 1 t.bits d a b 0 o, ((0 : BitVec 60) ++ (z ++ (3 : BitVec 2)))]
  | .gthr t sp d dT b c p ds => [g8 5 0x04 1 0 t.bits d (dr dT) b c 0,
      (ds ++ ((0 : BitVec 20) ++ (p ++ ((0 : BitVec 4) ++ sp.code))))]
  | .sctr t sp dT a b c p ds => [g8 5 0x05 1 1 t.bits (dr dT) a b c 0,
      (ds ++ ((0 : BitVec 20) ++ (p ++ ((0 : BitVec 4) ++ sp.code))))]
  | .fard t sp w d a b c => [g8 5 0x06 1 0 t.bits d a b c 0, ((0 : BitVec 60) ++ (w ++ sp.code))]
  | .cmpx t c a => [g8 5 0x07 0 1 t.bits 0 a 0 0 ((bit c).setWidth 20)]
  | .tierq d st a => i8 5 0x08 0 d a 0 0 (if st then 2 else 0)
  | .awr t f d a b o => [g8 6 0x00 1 (m1 f.ord) t.bits d a b 0 o, x6 f 0]
  | .awrT t f sp a b o => [g8 6 0x00 1 ((1 : BitVec 1) ++ bit f.ord) t.bits 0 a b 0 o, x6 f sp.code]
  | .axch t f d a b o => [g8 6 0x01 1 (m1 f.ord) t.bits d a b 0 o, x6 f 0]
  | .acas t f d a b c o => [g8 6 0x02 1 (m1 f.ord) t.bits d a b c o, x6 f 0]
  | .aflg c d => i8 6 0x03 (m1 c) d 0 0 0 0
  | .vrun t e p n => [g8 7 0x00 1 0 t.bits 0 e p 0 0, n.setWidth 64]
  | .vruna t e p n j l k => [g8 7 0x01 1 0 t.bits 0 e p j 0,
      ((0 : BitVec 33) ++ (k ++ ((0 : BitVec 2) ++ (l ++ ((0 : BitVec 12) ++ n)))))]
  | .lnx t d a b l => encLn 0x00 t d a b l
  | .lnr t d a b l => encLn 0x01 t d a b l
  | .mma t c ta tb a b r0 c0 => [g8 9 0x00 1 (bit tb ++ bit ta) t.bits ((bit c).setWidth 6) (dr a) (dr b) 0 0,
      (xrc r0 c0).setWidth 64]
  | .mzero t c => [g8 9 0x01 0 0 t.bits ((bit c).setWidth 6) 0 0 0 0]
  | .mzeroCb t c d => [g8 9 0x01 0 1 t.bits ((bit c).setWidth 6) (dr d) 0 0 0]
  | .mswap t c => [g8 9 0x02 0 0 t.bits ((bit c).setWidth 6) 0 0 0 0]
  | .mst t d c ad sa rm df r0 c0 => [g8 9 0x03 1 0 t.bits (dr d) ((bit c).setWidth 6) 0 0 0,
      ((0 : BitVec 39) ++ (bit ad ++ (bit sa ++ ((0 : BitVec 1) ++ (rm.code ++ (df ++ xrc r0 c0))))))]
  | .mcks t c ta tb a b r0 c0 => [g8 9 0x04 1 (bit tb ++ bit ta) t.bits ((bit c).setWidth 6) (dr a) (dr b) 0 0,
      (xrc r0 c0).setWidth 64]
  | .mckv t c rp o => [g8 9 0x05 1 0 t.bits ((bit c).setWidth 6) 0 0 0 0,
      ((0 : BitVec 47) ++ (bit rp ++ ((0 : BitVec 2) ++ o)))]
  | .mfix t c => [g8 9 0x06 0 0 t.bits ((bit c).setWidth 6) 0 0 0 0]
  | .mtm t => [g8 9 0x07 0 0 t.bits 0 0 0 0 0]
  | .mte t => [g8 9 0x08 0 0 t.bits 0 0 0 0 0]
  | .wgrp t c n => [g8 9 0x09 0 0 t.bits ((bit c).setWidth 6) 0 0 0 (n.signExtend 20)]
  | .sxf t d a => [g8 10 0x00 0 0 t.bits (dr d) (dr a) 0 0 0]
  | .sxi t d a => [g8 10 0x01 0 0 t.bits (dr d) (dr a) 0 0 0]
  | .scmac t c a b f => [g8 10 0x02 1 (m1 f.z) t.bits ((bit c).setWidth 6) (dr a) (dr b) 0 0,
      ((0 : BitVec 32) ++ (bit f.cjb ++ (bit f.cja ++ (bit f.tb ++ (bit f.ta ++ (f.wcode ++ (f.p0 ++ xrc f.row0 f.col0)))))))]
  | .scmul t cj d a b => [g8 10 0x03 0 (m1 cj) t.bits (dr d) (dr a) (dr b) 0 0]
  | .sconj t d a => [g8 10 0x04 0 0 t.bits (dr d) (dr a) 0 0 0]
  | .sdom t d a g => [g8 10 0x05 0 0 t.bits (dr d) (dr a) (dr g) 0 0]
  | .sexp t d a e => [g8 10 0x06 0 0 t.bits (dr d) (dr a) 0 0 (e.setWidth 20)]
  | .blkb rc h a id => i8 11 0x00 (m1 rc) 0 a 0 0 ((0 : BitVec 3) ++ (bit h ++ id))
  | .blke id => i8 11 0x01 0 0 0 0 0 (id.setWidth 20)
  | .revb id => i8 11 0x02 0 0 0 0 0 (id.setWidth 20)
  | .rpush t a => [g8 11 0x03 0 0 t.bits 0 (dr a) 0 0 0]
  | .rpushSpl t o n => [g8 11 0x03 0 1 t.bits 0 0 0 0 ((0 : BitVec 3) ++ (n ++ o))]
  | .rstkSet a => i8 11 0x04 0 0 a 0 0 0
  | .rstkGet a => i8 11 0x04 1 0 a 0 0 0
  | .gzero t d => [g8 11 0x05 0 0 t.bits (dr d) 0 0 0 0]
  | .launch d a b => i8 12 0x00 0 d a b 0 0
  | .launchRec d a b => i8 12 0x00 1 d a b 0 0
  | .join a => i8 12 0x01 0 0 a 0 0 0
  | .tend => i8 12 0x02 0 0 0 0 0 0
  | .yield => i8 12 0x03 0 0 0 0 0 0
  | .stepb d => i8 12 0x04 0 d 0 0 0 0
  | .bari s b => i8 12 0x05 0 0 0 0 0 (barImm s b)
  | .bariLv s b => i8 12 0x05 1 0 0 0 0 (barImm s b)
  | .bara s d b => i8 12 0x06 0 d 0 0 0 (barImm s b)
  | .barw s b a => i8 12 0x07 0 0 a 0 0 (barImm s b)
  | .baraw s d b => i8 12 0x08 0 d 0 0 0 (barImm s b)
  | .barx s b a => i8 12 0x09 0 0 a 0 0 (barImm s b)
  | .prio a => i8 12 0x0A 0 0 a 0 0 0
  | .chcfgUp n a b x => [g8 13 0x00 1 0 0 (n.setWidth 6) a b 0 0, x13 x]
  | .chcfgDn n a b x => [g8 13 0x00 1 1 0 (n.setWidth 6) a b 0 0, x13 x]
  | .chsendFw t n a => [g8 13 0x01 0 0 t.bits (n.setWidth 6) (dr a) 0 0 0]
  | .chsendRv t n a => [g8 13 0x01 0 1 t.bits (n.setWidth 6) (dr a) 0 0 0]
  | .coll t k a => [g8 13 0x02 0 0 t.bits 0 a 0 0 (k.setWidth 20)]
  | .cdig a b => i8 13 0x03 0 0 a b 0 0
  | .cdigClr => i8 13 0x03 1 0 0 0 0 0
  | .cstat d k a => i8 13 0x04 0 d a 0 0 (k.setWidth 20)
  | .cstatTl d k => i8 13 0x04 1 d 0 0 0 (k.setWidth 20)
  | .trap n => i8 14 0x00 0 0 0 0 0 (n.setWidth 20)
  | .eret => i8 14 0x01 0 0 0 0 0 0
  | .eretKill => i8 14 0x01 1 0 0 0 0 0
  | .ctxsv nb d a => i8 14 0x02 (m1 nb) d a 0 0 0
  | .ctxrs d a => i8 14 0x03 0 d a 0 0 0
  | .fltrec a => i8 14 0x04 0 0 a 0 0 0
  | .brk n => i8 14 0x05 0 0 0 0 0 (n.setWidth 20)
  | .halt a => i8 14 0x06 0 0 a 0 0 0
  | .crst a => i8 14 0x07 0 0 a 0 0 0
  | .mchkq c d k => i8 14 0x08 (m1 c) d 0 0 0 (k.setWidth 20)
  | .bundleIssue | .resultLanding | .fetchLine _ | .lineRefetch _ | .checkerCompare _ | .queueHeadIssue _
  | .commandComplete _ | .heldPushRelease _ | .mteRetire | .tileReplay | .pageWalk _ | .trapEntry
  | .taskDispatch | .nestLaunchDispatch | .recordAging | .forcedPreemption | .quadClockSwitch _
  | .barrierRelease | .phaseMerge | .stepBarrierComplete | .rstkRefill | .tileLanding | .creditReturn _
  | .chsendPairTimeout | .partnerLoss _ | .collMatch _ _ | .collComplete _ | .portRd _ _ | .portWr _ _ _ _
  | .portAop _ _ _ _ _ _ _ | .portAxc _ _ _ _ _ | .portAcs _ _ _ _ _ _ | .portReply _ _ | .atomicHomeEvent
  | .quantumFlush | .speculativeConfirm | .l2WriteBack _ | .tierTimeout _ | .tierPortFailure _
  | .flashSectorArrival _ | .uncorrectableError _ | .correctableError _ | .coreHalted _ | .dbgctlRun _
  | .dbgctlStep _ | .dwhlt _ | .debugApertureRead _ _ _ | .debugApertureWrite _ _ _ | .doorbell _ _
  | .hostRingRecordRead _ | .ringReadFailure _ | .windowAccess _ _ _ _ | .attcmd _ | .attestationReportWritten
  | .hostRegisterWrite _ _ | .hbmcapWrite _ _ | .tlnbaseWrite _ | .powerOnBoot _ | .thermalLimitReached _
  | .thermalLimitCleared _ | .droopStretch _ | .refreshDue _ | .rfhintIntervalEnd | .flitReceive _ _ _
  | .linkPortDown _ | .keyRevocation _ | .powerOff | .loggedHostWrite | .loggedLaunchRecord => []

/-- The bytes of an instruction, in the order they stand in memory (R26). -/
def encodeBytes (i : Instr) : List Byte := (encode i).flatMap wordBytes

end Sys2Proof
end

