-- ==== Sys2Proof/Machine/Num.lean ====
section
/-! DEFINITION. Number formats, exact values and rounding (03_formats.md R57 to R61, R68, R69, R73, R74, R81). -/

namespace Sys2Proof.Machine

/-- An exact number as the element formats hold it: NaN, an infinity, or (-1)^neg * m * 2^e; zero keeps its sign (R58, R59). -/
inductive Num where
  | nan
  | inf (neg : Bool)
  | fin (neg : Bool) (m : Nat) (e : Int)
  deriving DecidableEq, Repr

/-- Flag bits of an engine group (R70). -/
def fV : FFlags := 1
def fZ : FFlags := 2
def fO : FFlags := 4
def fU : FFlags := 8
def fX : FFlags := 16

/-- The layout of a floating-point format (R58): total width, fraction width, exponent bias, and whether it is E4M3 (R59). -/
structure FloatFmt where
  width : Nat
  frac : Nat
  bias : Nat
  e4m3 : Bool
  deriving DecidableEq, Repr

/-- The floating-point formats by tag code (R58). -/
def floatFmt? (f : BitVec 4) : Option FloatFmt :=
  match f.toNat with
  | 4 => some ⟨8, 3, 7, true⟩
  | 5 => some ⟨8, 2, 15, false⟩
  | 6 => some ⟨16, 10, 15, false⟩
  | 7 => some ⟨16, 7, 127, false⟩
  | 8 => some ⟨32, 23, 127, false⟩
  | 11 => some ⟨56, 44, 1023, false⟩
  | _ => none

/-- FP32 (R58). -/
def fp32 : FloatFmt := ⟨32, 23, 127, false⟩

/-- BF16 (R58). -/
def bf16 : FloatFmt := ⟨16, 7, 127, false⟩

/-- FA56 (R58). -/
def fa56 : FloatFmt := ⟨56, 44, 1023, false⟩

/-- Width and signedness of the integer formats (R57). -/
def intFmt? (f : BitVec 4) : Option (Nat × Bool) :=
  match f.toNat with
  | 0xC => some (4, true)
  | 1 => some (8, true)
  | 0xD => some (8, false)
  | 2 => some (16, true)
  | 3 => some (32, true)
  | _ => none

/-- Bits one element occupies in a tile outside CB; 0 for the codes that name no element (R62, R60). -/
def elemBits (f : BitVec 4) : Nat :=
  match f.toNat with
  | 1 | 4 | 5 | 0xD => 8
  | 2 | 6 | 7 => 16
  | 3 | 8 => 32
  | 9 | 0xC => 4
  | 0xA => 3
  | 0xB => 64
  | _ => 0

/-- Whether a tag code names a floating-point format (R58). -/
def isFloatFmt (f : BitVec 4) : Bool := (floatFmt? f).isSome

/-- Whether a tag code names an integer format (R57). -/
def isIntFmt (f : BitVec 4) : Bool := (intFmt? f).isSome

/-- The number of exponent bits (R58). -/
def FloatFmt.ebits (F : FloatFmt) : Nat := F.width - 1 - F.frac

/-- The exponent of the smallest normal (R58). -/
def FloatFmt.emin (F : FloatFmt) : Int := 1 - (F.bias : Int)

/-- The largest finite value as significand and exponent (R58). -/
def FloatFmt.maxFin (F : FloatFmt) : Nat × Int :=
  if F.e4m3 then (14, 5) else (2 ^ (F.frac + 1) - 1, (2 ^ F.ebits : Nat) - 2 - (F.bias : Int) - F.frac)

/-- The canonical NaN (R59). -/
def FloatFmt.nanBits (F : FloatFmt) : Nat :=
  if F.e4m3 then 0x7F else (2 ^ F.ebits - 1) * 2 ^ F.frac + 2 ^ (F.frac - 1)

/-- The sign bit at its place. -/
def FloatFmt.signBits (F : FloatFmt) (neg : Bool) : Nat := if neg then 2 ^ (F.width - 1) else 0

/-- An infinity's bits (R59); E4M3 has none. -/
def FloatFmt.infBits (F : FloatFmt) (neg : Bool) : Nat := F.signBits neg + (2 ^ F.ebits - 1) * 2 ^ F.frac

/-- The largest finite value's bits (R58). -/
def FloatFmt.maxBits (F : FloatFmt) (neg : Bool) : Nat :=
  F.signBits neg + (if F.e4m3 then 0x7E else (2 ^ F.ebits - 1) * 2 ^ F.frac - 1)

/-- The exact value of a pattern of the format (R58, R59). -/
def FloatFmt.decode (F : FloatFmt) (b : Nat) : Num :=
  let neg := b.testBit (F.width - 1)
  let ex := (b >>> F.frac) % 2 ^ F.ebits
  let fr := b % 2 ^ F.frac
  let emax := 2 ^ F.ebits - 1
  if F.e4m3 then
    if ex = emax ∧ fr = 2 ^ F.frac - 1 then .nan
    else if ex = 0 then .fin neg fr (F.emin - F.frac)
    else .fin neg (2 ^ F.frac + fr) ((ex : Int) - F.bias - F.frac)
  else if ex = emax then (if fr = 0 then .inf neg else .nan)
  else if ex = 0 then .fin neg fr (F.emin - F.frac)
  else .fin neg (2 ^ F.frac + fr) ((ex : Int) - F.bias - F.frac)

/-- The exact value of an integer (R57). -/
def Num.ofInt (i : Int) : Num := .fin (i < 0) i.natAbs 0

/-- The integer a pattern of an integer format holds (R57). -/
def intOf (w : Nat) (signed : Bool) (b : Nat) : Int :=
  let b := b % 2 ^ w
  if signed && b.testBit (w - 1) then (b : Int) - (2 ^ w : Nat) else b

/-- The pattern of an integer in w bits. -/
def intBits (w : Nat) (i : Int) : Nat := (i % (2 ^ w : Nat)).toNat

/-- The exact value of an element pattern of a float or integer format; other codes give NaN. -/
def elemVal (f : BitVec 4) (b : Nat) : Num :=
  match floatFmt? f, intFmt? f with
  | some F, _ => F.decode (b % 2 ^ F.width)
  | _, some (w, s) => .ofInt (intOf w s b)
  | _, _ => .nan

/-- m / 2^sh rounded to a natural number, of a value whose sign is `neg` (R68). -/
def roundShift (rm : RM) (neg : Bool) (m sh : Nat) : Nat :=
  let q := m >>> sh
  let r := m - (q <<< sh)
  if r = 0 then q
  else match rm with
    | .rtz => q
    | .rup => if neg then q else q + 1
    | .rdn => if neg then q + 1 else q
    | .rne => if 2 * r > 2 ^ sh ∨ (2 * r = 2 ^ sh ∧ q % 2 = 1) then q + 1 else q

/-- The value of a magnitude m * 2^e at the quantum 2^q, rounded: the integer multiple of 2^q. -/
def roundAt (rm : RM) (neg : Bool) (m : Nat) (e q : Int) : Nat :=
  if e ≥ q then m <<< (e - q).toNat else roundShift rm neg m (q - e).toNat

/-- a * 2^ea = b * 2^eb. -/
def dyEq (a : Nat) (ea : Int) (b : Nat) (eb : Int) : Bool :=
  if ea ≥ eb then a <<< (ea - eb).toNat == b else a == b <<< (eb - ea).toNat

/-- a * 2^ea < b * 2^eb. -/
def dyLt (a : Nat) (ea : Int) (b : Nat) (eb : Int) : Bool :=
  if ea ≥ eb then a <<< (ea - eb).toNat < b else a < b <<< (eb - ea).toNat

/-- The pattern of n * 2^q with q at least the subnormal quantum and n below 2^(frac+1) (R58). -/
def FloatFmt.encode (F : FloatFmt) (neg : Bool) (n : Nat) (q : Int) : Nat :=
  if n < 2 ^ F.frac then F.signBits neg + n
  else F.signBits neg + ((q + F.frac + F.bias).toNat * 2 ^ F.frac + (n - 2 ^ F.frac))

/-- What an overflow delivers (R69 steps 2 and 3). -/
def FloatFmt.overflow (F : FloatFmt) (rm : RM) (sat neg : Bool) : Nat × FFlags :=
  let toInf := match rm with | .rne => true | .rtz => false | .rup => !neg | .rdn => neg
  if sat || !toInf then (F.maxBits neg, fO ||| fX)
  else if F.e4m3 then (F.nanBits, fO ||| fX)
  else (F.infBits neg, fO ||| fX)

/-- The quantum of the subnormals (R58). -/
def FloatFmt.qmin (F : FloatFmt) : Int := F.emin - F.frac

/-- The value rounded as if the exponent were unbounded: multiple and quantum (R69 step 1); m is not zero. -/
def FloatFmt.unbounded (F : FloatFmt) (rm : RM) (neg : Bool) (m : Nat) (e : Int) : Nat × Int :=
  let q := e + m.log2 - F.frac
  (roundAt rm neg m e q, q)

/-- Whether the step-1 value is below the smallest normal (R69: tininess after rounding). -/
def FloatFmt.tiny (F : FloatFmt) (rm : RM) (neg : Bool) (m : Nat) (e : Int) : Bool :=
  let (n, q) := F.unbounded rm neg m e
  dyLt n q 1 F.emin

/-- Rounds an exact value into a format (R69): pattern and flags. A quotient or a function value that is not dyadic is handed
in as a value strictly between the same neighbours and midpoints of the format. -/
def FloatFmt.round (F : FloatFmt) (rm : RM) (sat : Bool) (x : Num) : Nat × FFlags :=
  match x with
  | .nan => (F.nanBits, 0)
  | .inf neg => if F.e4m3 then ((if sat then F.maxBits neg else F.nanBits), fV) else (F.infBits neg, 0)
  | .fin neg m e =>
    if m = 0 then (F.signBits neg, 0)
    else
      let (n1, q1) := F.unbounded rm neg m e
      let (mf, ef) := F.maxFin
      if dyLt mf ef n1 q1 then F.overflow rm sat neg
      else
        let q := max q1 F.qmin
        let n := roundAt rm neg m e q
        let inexact := !dyEq n q m e
        let fl := (if inexact then fX else 0) ||| (if inexact && dyLt n1 q1 1 F.emin then fU else 0)
        let (n', q') := if n < 2 ^ (F.frac + 1) then (n, q) else (n / 2, q + 1)
        (F.encode neg n' q', fl)

/-- The stochastic-rounding generator (R73). -/
def srBits (seed j : Word) : BitVec 24 :=
  let z := seed + (j + 1) * 0x9E3779B97F4A7C15#64
  let z := (z ^^^ (z >>> 30)) * 0xBF58476D1CE4E5B9#64
  let z := (z ^^^ (z >>> 27)) * 0x94D049BB133111EB#64
  let z := z ^^^ (z >>> 31)
  z.extractLsb' 40 24

/-- Stochastic rounding with the 24 bits of the generator (R74). -/
def FloatFmt.roundSR (F : FloatFmt) (bits : BitVec 24) (sat : Bool) (x : Num) : Nat × FFlags :=
  match x with
  | .nan => (F.nanBits, 0)
  | .inf neg => if F.e4m3 then ((if sat then F.maxBits neg else F.nanBits), fV) else (F.infBits neg, 0)
  | .fin neg m e =>
    if m = 0 then (F.signBits neg, 0)
    else
      let (mf, ef) := F.maxFin
      if dyLt mf ef m e then F.overflow .rne sat neg
      else
        let q := max (e + m.log2 - F.frac) F.qmin
        if e ≥ q then
          let n := m <<< (e - q).toNat
          (F.encode neg n q, 0)
        else
          let sh := (q - e).toNat
          let lo := m >>> sh
          let r := m - (lo <<< sh)
          if r = 0 then (F.encode neg lo q, 0)
          else
            -- d = (x - lo)/(hi - lo), with lo and hi in the order of the real line
            let num := if neg then 2 ^ sh - r else r
            let takeHi := bits.toNat * 2 ^ sh < num * 2 ^ 24
            let up := if neg then !takeHi else takeHi
            let n := if up then lo + 1 else lo
            let fl := fX ||| (if F.tiny .rne neg m e then fU else 0)
            let (n', q') := if n < 2 ^ (F.frac + 1) then (n, q) else (n / 2, q + 1)
            (F.encode neg n' q', fl)

/-- An exact value rounded to an integer (R68). -/
def roundInt (rm : RM) (neg : Bool) (m : Nat) (e : Int) : Int :=
  let n := roundAt rm neg m e 0
  if neg then -(n : Int) else n

/-- Least and greatest value of an integer format (R57). -/
def intMin (w : Nat) (s : Bool) : Int := if s then -(2 ^ (w - 1) : Nat) else 0
def intMax (w : Nat) (s : Bool) : Int := if s then (2 ^ (w - 1) : Nat) - 1 else (2 ^ w : Nat) - 1

/-- Conversion of an exact value to an integer format (R81): out of range gives the nearest bound and V. -/
def toIntFmt (w : Nat) (s : Bool) (rm : RM) (x : Num) : Nat × FFlags :=
  match x with
  | .nan => (0, fV)
  | .inf neg => (intBits w (if neg then intMin w s else intMax w s), fV)
  | .fin neg m e =>
    let i := roundInt rm neg m e
    if i < intMin w s then (intBits w (intMin w s), fV)
    else if intMax w s < i then (intBits w (intMax w s), fV)
    else (intBits w i, if dyEq i.natAbs 0 m e then 0 else fX)

/-- Convert(x, DF, RM, SAT) of R80 and R81. -/
def convert (df : BitVec 4) (rm : RM) (sat : Bool) (x : Num) : Nat × FFlags :=
  match floatFmt? df, intFmt? df with
  | some F, _ => F.round rm sat x
  | _, some (w, s) => toIntFmt w s rm x
  | _, _ => (0, 0)

/-- ConvertSR(x, DF, SAT, seed, j) of R80. -/
def convertSR (df : BitVec 4) (sat : Bool) (seed j : Word) (x : Num) : Nat × FFlags :=
  match floatFmt? df with
  | some F => F.roundSR (srBits seed j) sat x
  | none => (0, 0)

/-! ### Exact arithmetic -/

/-- The sign of a number; NaN has none. -/
def Num.neg : Num → Num
  | .nan => .nan
  | .inf n => .inf (!n)
  | .fin n m e => .fin (!n) m e

/-- The magnitude. -/
def Num.abs : Num → Num
  | .nan => .nan
  | .inf _ => .inf false
  | .fin _ m e => .fin false m e

/-- Whether the number is zero. -/
def Num.isZero : Num → Bool
  | .fin _ 0 _ => true
  | _ => false

/-- Whether the number is NaN. -/
def Num.isNan : Num → Bool
  | .nan => true
  | _ => false

/-- The sign bit (NaN: clear). -/
def Num.sign : Num → Bool
  | .nan => false
  | .inf n => n
  | .fin n _ _ => n

/-- A signed integer at a quantum, as a number; zero has the given sign. -/
def Num.ofScaled (i : Int) (e : Int) (zeroNeg : Bool) : Num :=
  if i = 0 then .fin zeroNeg 0 0 else .fin (i < 0) i.natAbs e

/-- The signed multiple of 2^q a finite number is, for q at most its exponent. -/
def scaledInt (neg : Bool) (m : Nat) (e q : Int) : Int :=
  let n := m <<< (e - q).toNat
  if neg then -(n : Int) else n

/-- The exact product; infinity times zero is NaN and invalid (IEEE 754). -/
def Num.mul (x y : Num) : Num × FFlags :=
  match x, y with
  | .nan, _ => (.nan, 0)
  | _, .nan => (.nan, 0)
  | .inf a, .inf b => (.inf (a != b), 0)
  | .inf a, .fin b m _ => if m = 0 then (.nan, fV) else (.inf (a != b), 0)
  | .fin a m _, .inf b => if m = 0 then (.nan, fV) else (.inf (a != b), 0)
  | .fin a m e, .fin b n f => (.fin (a != b) (m * n) (e + f), 0)

/-- The exact sum; opposite infinities are NaN and invalid; the sign of an exact zero is that of R69 step 5. -/
def Num.add (rm : RM) (x y : Num) : Num × FFlags :=
  match x, y with
  | .nan, _ => (.nan, 0)
  | _, .nan => (.nan, 0)
  | .inf a, .inf b => if a = b then (.inf a, 0) else (.nan, fV)
  | .inf a, _ => (.inf a, 0)
  | _, .inf b => (.inf b, 0)
  | .fin a m e, .fin b n f =>
    if m = 0 ∧ n = 0 then (.fin (if a = b then a else rm == .rdn) 0 0, 0)
    else
      let q := if m = 0 then f else if n = 0 then e else min e f
      let s := (if m = 0 then 0 else scaledInt a m e q) + (if n = 0 then 0 else scaledInt b n f q)
      (.ofScaled s q (rm == .rdn), 0)

/-- x < y of two numbers neither of which is NaN; the zeros are equal. -/
def Num.lt (x y : Num) : Bool :=
  match x, y with
  | .inf a, .inf b => a && !b
  | .inf a, .fin _ _ _ => a
  | .fin _ _ _, .inf b => !b
  | .fin a m e, .fin b n f =>
    if m = 0 then n != 0 && !b
    else if n = 0 then a
    else if a && !b then true
    else if !a && b then false
    else if a then dyLt n f m e else dyLt m e n f
  | _, _ => false

/-- x = y of numbers: NaN equals nothing, the zeros are equal. -/
def Num.eq (x y : Num) : Bool :=
  match x, y with
  | .inf a, .inf b => a == b
  | .fin a m e, .fin b n f => (m == 0 && n == 0) || (a == b && m != 0 && n != 0 && dyEq m e n f)
  | _, _ => false

/-- 2^n times the number, exactly. -/
def Num.scale (n : Int) : Num → Num
  | .fin a m e => .fin a m (e + n)
  | x => x

/-- The quotient of two finite numbers, the divisor not zero, to 256 further bits with a last bit that is set when the
quotient is not exact: it rounds as the exact quotient does in every format of R58. -/
def Num.quot (x y : Num) : Num :=
  match x, y with
  | .fin a m e, .fin b n f =>
    if m = 0 then .fin (a != b) 0 0
    else
      let w := 256 + n.log2
      let p := m <<< w
      let q := p / n
      let r := p % n
      .fin (a != b) (2 * q + (if r = 0 then 0 else 1)) (e - f - w - 1)
  | _, _ => .nan

/-- The quotient of any two numbers (IEEE 754): a division of a number by zero sets Z; 0/0 and ∞/∞ are invalid. -/
def Num.div (x y : Num) : Num × FFlags :=
  match x, y with
  | .nan, _ => (.nan, 0)
  | _, .nan => (.nan, 0)
  | .inf _, .inf _ => (.nan, fV)
  | .inf a, .fin b _ _ => (.inf (a != b), 0)
  | .fin a _ _, .inf b => (.fin (a != b) 0 0, 0)
  | .fin a m e, .fin b n f =>
    if n = 0 then (if m = 0 then (.nan, fV) else (.inf (a != b), fZ)) else (Num.quot (.fin a m e) (.fin b n f), 0)

end Sys2Proof.Machine
end

