-- ==== Sys2Proof/Config.lean ====
section
/-! DEFINITION. The constants of the PT-9400 (01_machine.md R13) and the free values the manual leaves open. A free value is an
opaque constant without a body: nothing can be proved about what it is. -/

namespace Sys2Proof.Config

/-- Capacity of WB and of AB in bytes (R13). -/
def wbBytes : Nat := 2 * 1024 * 1024
def abBytes : Nat := 2 * 1024 * 1024

/-- Entries and bytes of CB (R13, R60). -/
def cbEntries : Nat := 65536
def cbBytes : Nat := 7 * 65536

/-- Spill memory in bytes (R13, R105). -/
def spillBytes : Nat := 16384

/-- Entries of one engine queue (R13). -/
def queueDepth : Nat := 64

/-- Lines the L1 data cache holds: 384 KiB of 128-byte lines (R13); what the view needs beyond them is shadow (R123). -/
def l1Lines : Nat := 3072

/-- Lines the L1 instruction cache holds: 64 KiB (R13). -/
def icacheLines : Nat := 512

/-- Entries of the L1 and L2 TLB (R143). -/
def l1TlbEntries : Nat := 64
def l2TlbEntries : Nat := 4096

/-- Records of the pending-launch pool (R13, R325). -/
def poolRecords : Nat := 8192

/-- Physical addresses below this one are tier 2, HBM4: 12 stacks of 64 GB (R13); the addresses above are tier 3. DESIGN CHOICE:
the manual states no physical address map of the tiers. DESIGN CHOICE (log 5). -/
def tier2Limit : Nat := 768 * 1000 * 1000 * 1000 / 4096 * 4096

/-- A fresh value where the manual fixes none; each use takes the next argument (State.fresh). DESIGN CHOICE (log 40). -/
opaque freeValue : Nat → BitVec 64

/-- Which of n alternatives the device takes where the manual leaves the choice open. -/
opaque freeChoice : Nat → Nat

/-- Slots of 64 bytes in the free-space pool and in the overflow reserve of a compressible aperture (R179), by expansion port. DESIGN CHOICE (log 38). -/
opaque poolSlots : Nat → Nat
opaque reserveSlots : Nat → Nat

/-- Bytes of the parts of a context image whose layout the manual leaves to the device (R376), by the image's number and the offset. -/
opaque imageByte : Nat → Nat → BitVec 8

/-- The expansion port that holds a 4 KiB page of tier 3 (R13, R393): the capacity of each port's expander is tier 3. DESIGN CHOICE (log 5). -/
opaque tier3Port : Nat → Nat

/-- Whether launches of other packages of the pod carry a POD group (R335). DESIGN CHOICE (log 35). -/
opaque podRemote : BitVec 32 → Bool

/-- The Wedar Link port that packets to and from a package take (R394). DESIGN CHOICE (log 30). -/
opaque linkPort : BitVec 8 → BitVec 4

/-- Whether a POD group reaches other packages over a port (R335, R394). DESIGN CHOICE (log 30). -/
opaque podLink : BitVec 32 → BitVec 4 → Bool

/-- The process corner code fused for a quad (R395). -/
opaque procCode : Nat → BitVec 8

/-- Main-clock cycles beyond one that pass before a step of the machine (R1: rates belong to the implementation). DESIGN CHOICE (log 6). -/
opaque elapsed : Nat → Nat

/-! Firmware and attestation (R398, R399): the digest and signature algorithms are named, not given, and the fused values are the
package's own. -/

/-- SHAKE256 with a 64-byte output. DESIGN CHOICE (log 39). -/
opaque shake256 : List Byte → BitVec 512

/-- ML-DSA-65: whether a signature that comes with an image verifies over its digest against the fused public key. -/
opaque verifyImage : List Byte → BitVec 512 → Bool

/-- ML-DSA-65 key generation from a 32-byte seed (1,952 bytes), and signing with the key of a seed (3,309 bytes). -/
opaque mldsaPub : BitVec 256 → BitVec 15616
opaque mldsaSign : BitVec 256 → BitVec 512 → BitVec 26472

/-- The version an image carries. -/
opaque imageVersion : List Byte → Nat

/-- Fused values: rollback counter, package serial number, unique device secret, firmware-verification public key, the images of
the base dies, and this package's number in the pod as the fabric sets it (R366). -/
opaque rollback : Word
opaque serial : Word
opaque deviceSecret : BitVec 256
opaque fusedKey : List Byte
opaque baseImage : Nat → List Byte
opaque podId : BitVec 8

end Sys2Proof.Config
end

