-- ==== Sys2Proof/Machine/Sparse.lean ====
section
/-! DEFINITION. Maps from addresses to values in one canonical form: a list of (key, value) pairs, the keys strictly rising and
no value equal to what an unlisted key reads as. -/

namespace Sys2Proof.Machine

/-- A sparse map; what an unlisted key reads as is given to each operation. -/
abbrev Sparse (α : Type) := List (Nat × α)

/-- The value listed under a key. -/
def Sparse.find {α : Type} : Sparse α → Nat → Option α
  | [], _ => none
  | (k, v) :: m, a => if k = a then some v else if a < k then none else Sparse.find m a

/-- The value a key reads as. DESIGN CHOICE (log 2). -/
def Sparse.get {α : Type} (dflt : α) (m : Sparse α) (a : Nat) : α := (Sparse.find m a).getD dflt

/-- Lists a value under a key, in place. -/
def Sparse.ins {α : Type} : Sparse α → Nat → α → Sparse α
  | [], a, v => [(a, v)]
  | (k, w) :: m, a, v => if k = a then (a, v) :: m else if a < k then (a, v) :: (k, w) :: m else (k, w) :: Sparse.ins m a v

/-- Removes a key. -/
def Sparse.del {α : Type} : Sparse α → Nat → Sparse α
  | [], _ => []
  | (k, w) :: m, a => if k = a then m else if a < k then (k, w) :: m else (k, w) :: Sparse.del m a

/-- Writes a value under a key, keeping the canonical form. -/
def Sparse.put {α : Type} [DecidableEq α] (dflt : α) (m : Sparse α) (a : Nat) (v : α) : Sparse α :=
  if v = dflt then Sparse.del m a else Sparse.ins m a v

/-- Removes the keys from lo up to, not including, hi. -/
def Sparse.clearRange {α : Type} (m : Sparse α) (lo hi : Nat) : Sparse α := m.filter fun p => p.1 < lo || hi ≤ p.1

/-- Keys strictly rising. -/
def Sparse.rising {α : Type} : Sparse α → Bool
  | [] => true
  | [_] => true
  | (k, _) :: (l, w) :: m => k < l && Sparse.rising ((l, w) :: m)

/-- The canonical form. -/
def Sparse.wf {α : Type} [DecidableEq α] (dflt : α) (m : Sparse α) : Bool := Sparse.rising m && m.all fun p => p.2 ≠ dflt

/-! Sets of numbers, strictly rising. -/

/-- Membership. -/
def setHas (m : List Nat) (a : Nat) : Bool := m.contains a

/-- Adds a number in place. -/
def setIns : List Nat → Nat → List Nat
  | [], a => [a]
  | k :: m, a => if k = a then k :: m else if a < k then a :: k :: m else k :: setIns m a

/-- Removes a number. -/
def setDel (m : List Nat) (a : Nat) : List Nat := m.filter (· != a)

/-- Adds or removes a number. -/
def setPut (m : List Nat) (a : Nat) (b : Bool) : List Nat := if b then setIns m a else setDel m a

/-! ### Bytes of a sparse memory, little-endian (R4) -/

/-- The n bytes from address a. -/
def readBytes (m : Sparse Byte) (a n : Nat) : List Byte := (List.range n).map fun i => Sparse.get 0 m (a + i)

/-- Writes bytes from address a. -/
def writeBytes (m : Sparse Byte) (a : Nat) : List Byte → Sparse Byte
  | [] => m
  | b :: bs => writeBytes (Sparse.put 0 m a b) (a + 1) bs

/-- The number a little-endian byte list holds. -/
def leNat : List Byte → Nat
  | [] => 0
  | b :: bs => b.toNat + 256 * leNat bs

/-- The n little-endian bytes of a number. -/
def leBytes : Nat → Nat → List Byte
  | 0, _ => []
  | n + 1, x => BitVec.ofNat 8 (x % 256) :: leBytes n (x / 256)

/-- The number in the n bytes from address a. -/
def readLe (m : Sparse Byte) (a n : Nat) : Nat := leNat (readBytes m a n)

/-- Writes the n little-endian bytes of a number. -/
def writeLe (m : Sparse Byte) (a n x : Nat) : Sparse Byte := writeBytes m a (leBytes n x)

end Sys2Proof.Machine
end

