-- ==== Sys2Proof/Machine/State.lean ====
section
/-! DEFINITION. The state of the package: plain data, everything the manual gives the machine. One core stands in focus (`core`),
the others are listed by physical number (`others`; an unlisted core is a freshly reset one). -/

namespace Sys2Proof.Machine

/-! ### Registers of a context (R39) -/

/-- A vector register: 512 bytes, the format tag, poison and tier-failed marks of its 64 aligned 8-byte words (R39, R209, R230). -/
structure VReg where
  data : BitVec 4096
  tag : FTag
  pois : BitVec 64
  tfail : BitVec 64
  deriving DecidableEq, Repr

/-- The register files of R39 with the poison marks of R378: one per scalar and descriptor register, one per 64-bit mask word. -/
structure Regs where
  s : Vector Word 64
  spois : BitVec 64
  v : Vector VReg 64
  k : Vector (BitVec 1024) 16
  kpois : BitVec 256
  d : Vector Desc 16
  dpois : BitVec 16
  lc : Vector (BitVec 32) 4
  deriving DecidableEq, Repr

/-- Issued and completed number of a timeline (R130). -/
structure TL where
  i : Word
  v : Word
  deriving DecidableEq, Repr

/-- The timelines of a task (R130): load, compute, store queue, residual-stack unit, collective channels 0 to 15. -/
structure Timelines where
  l : TL
  c : TL
  s : TL
  x : TL
  coll : Vector TL 16
  deriving DecidableEq, Repr

/-- The four token counters, 0 to 63 (R18). -/
structure Tokens where
  lc : BitVec 6
  cl : BitVec 6
  cs : BitVec 6
  sc : BitVec 6
  deriving DecidableEq, Repr

/-- A fault as it is reported (R11, R368). `unit` is TCAUSE.UNIT, `tl` the timeline number, `va` the address when it is valid. -/
structure FaultInfo where
  code : BitVec 8
  unit : BitVec 4
  upc : Word
  tl : Word
  va : Option Word
  lvl : BitVec 3
  info : BitVec 32
  deriving DecidableEq, Repr

/-! ### Engine commands -/

/-- A gradient map (R292): the counterparts of d0 to d15, the three displacements, GFL. -/
structure GMap where
  cp : Vector Desc 16
  ggd : Word
  gab : Word
  gwb : Word
  gfl : BitVec 3
  deriving DecidableEq, Repr

/-- The block a command belongs to (R294): identifier, sequence number, kind flags, the command's ordinal, the gradient map, and whether a
recompute replay routed it (R309). -/
structure BlkRef where
  id : BitVec 16
  seq : BitVec 32
  rc : Bool
  hbm : Bool
  ord : Nat
  g : GMap
  replay : Bool
  deriving DecidableEq, Repr

/-- What a queue entry does: its instruction, one of the adjoint's carriers (R306), or nothing beyond its number and tokens. -/
inductive CmdKind where
  | fwd
  | adj (step : Nat)
  | stub
  deriving DecidableEq, Repr

/-- A command in one of the three queues (R15, R75): the instruction and what it is, its token bits, its number on its queue's timeline,
a second number (TL.X or a collective channel), the captured descriptors, scalars and system registers (FPEN, QHBM, QCXL, and of a FARD FLWw and QFLASH, of a COLL PKEY, R147), the block it belongs to, the micro-PC, how far it
has come, its status (R176), the fault it is stopped at (R371), residual data (R307) with its poisoned and its tier-failed bytes, the parts that have arrived (R173) or the addresses an
atomic was translated to (R191), and the phase of an atomic (R191, R200): 0 new, 1 held in a quantum combination, 2 sent, 3 performed and not
confirmed. -/
structure Cmd where
  instr : Instr
  kind : CmdKind
  tok : Tok
  num : Word
  num2 : Word
  descs : List Desc
  vals : List Word
  sysr : List Word
  blk : Option BlkRef
  upc : Nat
  compared : Bool
  issued : Bool
  done : Bool
  pushed : Bool
  status : Word
  fault : Option FaultInfo
  res : List Byte
  resPois : List Nat
  resFail : List Nat
  got : List Nat
  ph : Nat
  deriving DecidableEq, Repr

/-- The three queues, oldest command first (R13, R15). -/
structure Queues where
  load : List Cmd
  compute : List Cmd
  store : List Cmd
  deriving DecidableEq, Repr

/-- The traverse state and shape record of one copy engine (R160 to R162): N, OSS/ODS per level as strides, bounds and mode. -/
structure Traverse where
  n : Vector (BitVec 32) 6
  ss : Vector (BitVec 32) 6
  ds : Vector (BitVec 32) 6
  o : Vector (BitVec 32) 6
  b : Vector (BitVec 32) 6
  mode : OobMode
  deriving DecidableEq, Repr

/-! ### The vector engine (R208, R218) -/

/-- A pending write (R218): the physical destination (vector register, mask register or neither), its data and marks, the tag, the
mask effect, the flags it raises and the bundles still to issue before it lands. -/
structure PendW where
  isMask : Bool
  reg : BitVec 6
  data : BitVec 4096
  keep : BitVec 4096
  tag : Option FTag
  pois : BitVec 64
  tfail : BitVec 64
  flags : FFlags
  left : Nat
  deriving DecidableEq, Repr

/-- The vector engine's own state (R208); `fpx`: a landed result set a flag that FPEN enables, and FPX is due before the next bundle (R218);
`fslot`: the slot of the bundle that faulted last, 0 to 3 for M, A, B, C (R213). -/
structure VecState where
  rrb : BitVec 5
  mrb : BitVec 3
  sp : BitVec 7
  a : Vector Word 8
  bc : Word
  bidx : BitVec 16
  pend : List PendW
  fpx : Bool
  fslot : BitVec 2
  deriving DecidableEq, Repr

/-! ### The matrix array (R242 to R262) -/

/-- The check state of an accumulator (R259 to R262): armed, the products and moduli of rows and columns, the located element. -/
structure Check where
  arm : Bool
  pr : Sparse (BitVec 32)
  pc : Sparse (BitVec 32)
  mr : Sparse (BitVec 32)
  mc : Sparse (BitVec 32)
  loc : Bool
  row : BitVec 7
  col : BitVec 7
  deriving DecidableEq, Repr

/-- One accumulator: the working bank (128 x 128 entries, unlisted ones zero) with its poisoned entries, the tags of both banks, the
check state and ASX. The visible bank lies in CB (R243). -/
structure Accum where
  work : Sparse FA56
  wpois : List Nat
  wtag : FTag
  vtag : FTag
  chk : Check
  asx : BitVec 7
  deriving DecidableEq, Repr

/-- The tile window (R256, R257): open, the number of its MTM on TL.C, a replay that is due, the replay count, the checkpoint of both
accumulators. The tile's commands stay in the compute queue until MTE retires. -/
structure Tile where
  opened : Bool
  num : Word
  want : Bool
  replays : BitVec 1
  ck0 : Accum
  ck1 : Accum
  deriving DecidableEq, Repr

/-! ### Blocks and the residual stack (R290 to R310) -/

/-- The open block (R294): identifier, the kind flags, sequence number, address of its BLKB, captured s and d registers, both ASX, the
gradient map, the ordinal of the next instruction, and which TRVL, TRVS and copies each engine has had (R183: [5:0] TRVL.in by level,
[6] TRVS.in, [7] a copy-in, [15:8] the same of the store queue). -/
structure Block where
  id : BitVec 16
  rc : Bool
  hbm : Bool
  seq : BitVec 32
  pcb : Word
  s : Vector Word 64
  d : Vector Desc 16
  asx0 : BitVec 7
  asx1 : BitVec 7
  g : GMap
  ord : Nat
  seen : BitVec 16
  pct : Word
  deriving DecidableEq, Repr

/-- The storage of the residual stack (R296): ABBASE, ABSIZE, HBMBASE, HBMSIZE, CXLBASE, CXLSIZE. -/
structure RCfg where
  ab : Word
  absz : Word
  hbm : Word
  hbmsz : Word
  cxl : Word
  cxlsz : Word
  deriving DecidableEq, Repr

/-- No storage at all. -/
def RCfg.zero : RCfg := ⟨0, 0, 0, 0, 0, 0⟩

/-- The residual stack of a task (R298): pointers T, H, C, the sequence counter, and the sizes of the entries, the top one first. DEDUCED (log 25). -/
structure RStack where
  t : Word
  h : Word
  c : Word
  rseq : BitVec 32
  ents : List Nat
  deriving DecidableEq, Repr

/-- The window that an adjoint MST binds as an accumulator's gradient (R265): the counterpart tile and the bank row and column of its first
element. -/
structure Bind where
  d : Desc
  row0 : Nat
  col0 : Nat
  deriving DecidableEq, Repr

/-- The reverse walk in progress (R305, R310): the address of its REVB, its micro-PC (PH, ORD, STEP), the popped frame as the block it describes
with both traverse states, the address of BLKE, and the gradient windows bound to the accumulators. -/
structure Walk where
  active : Bool
  pc : Word
  ph : BitVec 2
  ord : Nat
  step : Nat
  f : Option Block
  tin : Traverse
  tout : Traverse
  blke : Word
  bind0 : Option Bind
  bind1 : Option Bind
  deriving DecidableEq, Repr

/-! ### Channels and collectives (R348, R361) -/

/-- A landing slot (R348): valid, sequence, tag, shape, and the TL.C number of the command bound to it. -/
structure Slot where
  valid : Bool
  seq : BitVec 32
  tag : FTag
  rows : BitVec 16
  cols : BitVec 16
  own : Option Word
  deriving DecidableEq, Repr

/-- A channel end (R348), with the slots of the partner for which this end holds a credit (R351, R353), whether the partner is lost (R25), and SLOTU of a
partner in another package that has been paired (R350). -/
structure ChEnd where
  conf : Bool
  up : Bool
  a : Word
  b : Word
  x : ChX
  ss : BitVec 32
  rs : BitVec 32
  slots : Vector Slot 4
  cred : BitVec 4
  dead : Bool
  peer : Option (BitVec 8)
  deriving DecidableEq, Repr

/-! ### The view (R122, R123) -/

/-- A pinned line: its 128 bytes at the home when it was pinned, and the poisoned ones of its sixteen words. -/
structure Pinned where
  bits : BitVec 1024
  pois : BitVec 16
  deriving DecidableEq, Repr

/-- The view of phase-ordered memory: pinned lines by line number, dirty bytes by physical address, the 8-byte words a whole
store has replaced (R118), and those that an error in L1 or in the shadow area has poisoned (R378). -/
structure View where
  pin : Sparse Pinned
  dirty : Sparse Byte
  whole : List Nat
  bad : List Nat
  deriving DecidableEq, Repr

/-! ### A task -/

/-- What the banksman holds of a task (R323, R324, R331, R345). `rec` is the continuation record's address, 0 for a root record. -/
structure TaskId where
  uid : Nat
  launch : Nat
  record : Word
  parent : Word
  lid : BitVec 32
  prio : BitVec 2
  maxPrio : BitVec 2
  depth : BitVec 5
  slot : BitVec 8
  ctx : BitVec 12
  nest : Bool
  logi : BitVec 8
  plumb : Bool
  bufd : Bool
  podg : BitVec 32
  deriving DecidableEq, Repr

/-- System registers a context carries with its task (R148, R368). -/
structure TaskSys where
  fpst : Word
  fpen : Word
  atfl : FFlags
  tpc : Word
  tcause : Word
  tupc : Word
  ttl : Word
  tva : Word
  inTrap : Bool
  tprv : Bool
  tblk : Bool
  tscr : Vector Word 4
  dieset : Word
  deriving DecidableEq, Repr

/-- How a task waits at a collective point: PHASE or STEPB (R126, R333, R374 byte 200). -/
inductive PhaseSt where
  | idle
  | held (sc : Scope) (step : Bool) (rd : Reg)
  | merged (sc : Scope) (step : Bool) (rd : Reg)
  deriving DecidableEq, Repr

/-- Faults a task has pending at a barrier or a step (R337, R363); `refused`: the code under which bytes it published were refused (R180). -/
structure Pending where
  barovr : Bool
  misclose : Bool
  barbrk : Bool
  refused : Option (BitVec 8)
  deriving DecidableEq, Repr

/-- What a core holds for its task beside the task itself, saved with it (R339): whether the PC was reached by an entry (R28), whether a trap
has stopped the engines (R370), undelivered faults of units without a command (R371), and the core itself (R156). -/
structure Away where
  entry : Bool
  stopped : Bool
  epend : List FaultInfo
  phys : BitVec 8
  deriving DecidableEq, Repr

/-- The context of a task: what pre-emption saves and resumption restores (R339, R376). `frames` holds the block frames whose places are
reserved (R295), `trest` the traverse states that take effect in the copy-in (false) or copy-out engine after its command of a number (R305),
`statL` and `statS` the command statuses that are not zero (R176), `collN` the COLLs issued since dispatch, `collSt` the status of the last 16
numbers of each collective channel, number n of channel k under 16 k + n mod 16 (R364, R365), `trapEnt` the saved PC where the instruction there had been reached by an entry (R28),
`valid` the VALID mark of the context (R375, R379), `away` what the core held beside the task when it was saved. -/
structure Task where
  id : TaskId
  pc : Word
  prv : Bool
  regs : Regs
  spill : Sparse Byte
  spPois : List Nat
  toks : Tokens
  tls : Timelines
  sys : TaskSys
  q : Queues
  tin : Traverse
  tout : Traverse
  vec : VecState
  acc0 : Accum
  acc1 : Accum
  tile : Tile
  blk : Option Block
  savedBlk : Option Block
  rstk : RStack
  rcfg : RCfg
  frames : List Cmd
  trest : List (Bool × Word × Traverse)
  walk : Walk
  statL : Sparse Word
  statS : Sparse Word
  chans : Vector ChEnd 8
  collN : Nat
  collSt : Sparse Word
  closure : List (Word × Word)
  view : View
  phase : PhaseSt
  barw : Option (Word × Nat)
  pend : Pending
  cycles : Nat
  trapEnt : Option Word
  valid : Bool
  away : Away
  deriving DecidableEq, Repr

/-- The typed buffers with poison and tier-failed marks of their aligned 8-byte words; CB by entry (R13, R169, R378). -/
structure Buffers where
  wb : Sparse Byte
  wbPois : List Nat
  wbFail : List Nat
  ab : Sparse Byte
  abPois : List Nat
  abFail : List Nat
  cb : Sparse FA56
  cbPois : List Nat
  cbFail : List Nat
  deriving DecidableEq, Repr

/-! ### Translation -/

/-- A TLB entry (R143): context, first page and number of 4 KiB pages covered, the leaf's bits, its level and size code. -/
structure TlbE where
  ctx : BitVec 12
  vpn : Nat
  pages : Nat
  leaf : Word
  lvl : BitVec 3
  size : BitVec 2
  deriving DecidableEq, Repr

/-- A walk-cache entry (R143): context, level of the entry, the VA bits that index it, the next table's address. -/
structure WcE where
  ctx : BitVec 12
  lvl : BitVec 3
  key : Nat
  table : Nat
  deriving DecidableEq, Repr

/-- A pending TLBI (R150): the context it names (none: every one) and the page (none: all). -/
structure Tlbi where
  ctx : Option (BitVec 12)
  va : Option Word
  deriving DecidableEq, Repr

/-! ### A core -/

/-- Debug and health state of a core (R368, R380, R383, R384). -/
structure Health where
  suspect : Bool
  halted : Bool
  haltReq : Bool
  dblf : Bool
  div : Bool
  cause : BitVec 8
  trp : Bool
  stepping : Bool
  cnt : Vector Word 6
  sinceRec : Option Nat
  deriving DecidableEq, Repr

/-- What a checker mismatch restores of the control core (R110): the state before an instruction that has routed commands, and how many instructions have
been issued from it on before the next such one. -/
structure Ckpt where
  pc : Word
  entry : Bool
  s : Vector Word 64
  spois : BitVec 64
  d : Vector Desc 16
  dpois : BitVec 16
  blk : Option Block
  walk : Walk
  tls : Timelines
  collN : Nat
  n : Nat
  deriving DecidableEq, Repr

/-- A core: the task on it, the buffers, the caches and its own state. `running`: a task holds the core; `waiting`: the instruction at
the PC waits; `stopped`: the engines are stopped by a trap (R370); `entry`: the PC was reached by a transfer or from the line
below (R28); `reserved`: a nest launch reserves the core (R319); `hold`: the action at the PC is with the checker, and whether it has compared equal
(R108); `ckpt`: the states before the instructions whose engine commands have not been compared, the oldest first: the first one is the committed
state (R110). -/
structure Core where
  phys : BitVec 8
  running : Bool
  waiting : Bool
  stopped : Bool
  entry : Bool
  lineKind : BitVec 2
  t : Task
  buf : Buffers
  icache : Sparse (BitVec 1024)
  vcache : Sparse (BitVec 1024)
  l1tlb : List TlbE
  tlbi : List Tlbi
  rfFrom : Nat
  rfUntil : Nat
  health : Health
  epend : List FaultInfo
  reserved : Option Nat
  resetAt : Nat
  csince : Nat
  hold : Option Bool
  ckpt : List Ckpt
  deriving DecidableEq, Repr

/-! ### The package -/

/-- Per-context system registers that system software sets (R148, R149, R174, R296, R345, R366, R368), the tails of the rings (R325), and how far a replay
has come: by kind of entry in `rpos`, of the captured values by core in `rcore`, and in `rdev` the entries of launches that device launches have taken ahead
of it (R386). -/
structure Ctx where
  ptroot : Word
  shdsz : Word
  tlnbase : Word
  flw : Vector Word 4
  qhbm : Word
  qcxl : Word
  qflash : Word
  pkey : Word
  clogb : Word
  rngbase : Word
  tvec : Word
  rrctl : Word
  rrbase : Word
  rrst : Word
  rcfg : RCfg
  type8 : Bool
  ringTail : Vector Nat 4
  rpos : Vector Nat 6
  rcore : Sparse Nat
  rdev : List Nat
  deriving DecidableEq, Repr

/-- A launch the banksman holds (R317, R319, R324): its record, the priority at which it was handed over (R389), what else it was given at acceptance, the
admitted dies, the completed steps, the tasks not yet ended, the join record of a LAUNCH.rec launch, whether its entry stands in the pool (R325), and
when it was first dispatched (R385). -/
structure Launch where
  id : Nat
  ctx : BitVec 12
  lid : BitVec 32
  image : List Byte
  prio : BitVec 2
  host : Bool
  depth : BitVec 5
  join : Word
  mask : BitVec 4
  steps : Nat
  live : Nat
  started : Bool
  redis : Option (Word × Reg)
  pooled : Bool
  disp : Nat
  deriving DecidableEq, Repr

/-- What a runnable entry of the priority queues stands for (R324, R325, R331, R339). -/
inductive Work where
  | root
  | record (addr : Word)
  | resume (t : Task) (buf : Buffers) (core : Option (BitVec 8))
  deriving DecidableEq, Repr

/-- An entry of the priority queues (R325, R326, R339): its level, since when it waits there and since when it waits at all, and the slot of the memory
ring in which it stands. -/
structure Ready where
  prio : BitVec 2
  ctx : BitVec 12
  launch : Nat
  since : Nat
  born : Nat
  ring : Option (BitVec 2 × Nat)
  work : Work
  deriving DecidableEq, Repr

/-- A barrier instance (R335), or the phase barrier of a scope (R127): members and arrivals by task number. -/
structure Bar where
  launch : Nat
  podg : BitVec 32
  sc : Scope
  unit : Nat
  b : BitVec 3
  phaseBar : Bool
  ph : Nat
  members : List Nat
  arrived : List Nat
  joining : List Nat
  leaving : List Nat
  bc : Nat
  armed : Option Nat
  started : Bool
  broken : Bool
  remote : Bool
  deriving DecidableEq, Repr

/-- A PHASE packet held at the homes (R126). -/
structure Packet where
  uid : Nat
  rank : Nat
  launch : Nat
  sc : Scope
  unit : Nat
  step : Bool
  bytes : Sparse Byte
  whole : List Nat
  bad : List Nat
  deriving DecidableEq, Repr

/-- What the schedule of the package does next beside the cores' own progress: bring a core into focus, or let the control core of the core in focus take a step, let an event of the
device or of its environment happen. DESIGN CHOICE (log 8). -/
inductive Move where
  | control
  | focus (c : BitVec 8)
  | event (i : Instr)
  deriving DecidableEq, Repr

/-! ### The whole package -/

/-- The host interface: BAR 0 registers, accepted tails, rings whose record read failed, held events, host memory, DWIDX by core, the data of the
last read the device has completed (none: Completer Abort) (R388 to R392). -/
structure HostSt where
  hrbase : Vector Word 4
  hrsize : Vector Word 4
  head : Vector (BitVec 32) 4
  tail : Vector (BitVec 32) 4
  failed : Vector Bool 4
  evbase : Word
  evsize : Word
  evtail : Word
  evhead : Word
  winctx : Word
  evdrop : Word
  attbuf : Word
  attnon : Vector Word 4
  busy : Bool
  adone : Bool
  attlen : BitVec 16
  evheld : List (List Byte)
  mem : List Host.Cell
  dwidx : Sparse Word
  rdata : Option (List Byte)
  deriving DecidableEq, Repr

/-- Platform state: firmware accepted, the HBM4 stacks whose base dies run verified firmware, reports since boot, image digests, map-out of the HBM stacks,
expansion ports, monitors by quad, thermal holds by quad and when TEMPQ was last above 100 °C, links that are down and the flits in a row that have failed
their check on a link's port, packets with their keys that wait at their senders for a halted core (R383, R393 to R399). -/
structure Plat where
  fwOk : Bool
  hbmOn : BitVec 12
  reports : Word
  image : List Byte
  hbmMap : Sparse (BitVec 16)
  expmode : Sparse Word
  expap : Sparse Word
  strcq : Sparse Word
  tempq : Sparse Word
  voltq : Sparse Word
  thermal : List Nat
  hot : Sparse Nat
  lnkdrop : Word
  linkDown : List Nat
  badFlits : Sparse Nat
  revoked : List Nat
  podid : Word
  held : List (BitVec 16 × FlitBody)
  deriving DecidableEq, Repr

/-- A request at a base-die port (R203): the header, its TAG zero until it is sent, and the data or operands behind it. -/
structure PortReq where
  header : BitVec 128
  data : List Byte
  deriving DecidableEq, Repr

/-- A base-die port (R203, R204): the replies outstanding by tag with status and data, the requests that wait for a tag, and the reply that left last:
its word and its data. -/
structure Port where
  busy : List (BitVec 3 × PortStatus × List Byte)
  waiting : List PortReq
  last : Option (BitVec 8 × List Byte)
  deriving DecidableEq, Repr

/-- A collective's request block, participant table and edge list (R357). -/
structure CollReq where
  op : Nat
  rop : Nat
  fmt : BitVec 4
  af : BitVec 4
  flg : Nat
  src : Word
  dst : Word
  count : Nat
  np : Nat
  me : Nat
  key : Word
  part : List Nat
  edge : List (Nat × Nat)
  deriving DecidableEq, Repr

/-- A COLL that the fabric holds (R356, R360): whose it is, its channel and number there, its ordinal, STEP at issue, the tokens it pushes, the
request, the closure list, the source elements and the poisoned ones. `ph`: 0 not matched, 1 matched, 2 its result has landed, 3 the outcome is
known, 4 lost before it was matched and completed; then the collective's number, the result, its flags, the outcome, the divergent participants, this participant's digest and those of
remote participants. -/
structure Coll where
  uid : Nat
  ctx : BitVec 12
  phys : BitVec 8
  prv : Bool
  lid : BitVec 32
  slot : BitVec 8
  k : BitVec 4
  num : Word
  n : Nat
  step : BitVec 32
  tok : Tok
  req : CollReq
  td : Word
  closure : List (Word × Word)
  src : List Nat
  srcPois : List Nat
  ph : Nat
  group : Nat
  res : List Nat
  resPois : List Nat
  flags : FFlags
  code : BitVec 8
  div : List Nat
  digest : Option Word
  remote : List (Nat × Option Word)
  deriving DecidableEq, Repr


/-- The scheduler's state (R320 to R345). `rr`: by level, the context that was served last (R326); `parked`: the records continuations are parked in, by physical address, each with the launch of the task
that parked there (R330). DEDUCED (log 62). -/
structure Sched where
  launches : List Launch
  ready : List Ready
  bars : List Bar
  packets : List Packet
  nextUid : Nat
  nextLid : BitVec 32
  nextLaunch : Nat
  rr : Vector Nat 4
  prethr : Word
  caldist : Sparse (BitVec 32)
  rfbank : Sparse Nat
  parked : List (Nat × Nat)
  deriving DecidableEq, Repr

/-- The metadata of a 512-byte block (R177, R179): how many slots it holds, in the overflow reserve or in the pool, the context they are
charged to, and whether its frame is raw. An unlisted block is raw with its eight slots. -/
structure CBlk where
  slots : Nat
  resv : Bool
  ctx : BitVec 12
  raw : Bool
  deriving DecidableEq, Repr

/-- Memory and translation state of the package: home values of tiers 2 and 3 by physical address, their poisoned 8-byte words (by
address / 8), lines a lower tier fails to deliver, the L2 TLBs by quad, the walk caches by die, the key slots installed, the blocks of the
compressed frames by block number (R177), the pool and reserve slots in use by expansion port (R179), TMODE by quad (R156), the frames in the base dies' attribute-mismatch logs
(R177), for each line last written through a leaf with a key the slot and the key record it was written under (R155), and the blocks whose next
base-die transaction is rolled back (R181). -/
structure Mem where
  bytes : List Host.Cell
  pois : List Nat
  failed : List Nat
  l2tlb : Sparse (List TlbE)
  wcache : Sparse (List WcE)
  keys : Sparse (BitVec 512)
  comp : Sparse CBlk
  pool : Sparse Int
  resv : Sparse Nat
  tmode : Sparse (BitVec 2)
  attlog : List Nat
  sealed : Sparse (Nat × BitVec 512)
  rollb : List Nat
  deriving DecidableEq, Repr

/-- What a context image holds whose layout the manual leaves to the device (R376): the task, and the tier-failed entries of the visible
banks. DESIGN CHOICE (log 26). -/
structure Saved where
  t : Task
  visFail : List Nat
  deriving DecidableEq, Repr

/-- The machine: the core in focus, the other cores, the per-context registers, memory, the scheduler, and the package's own units.
`flash` holds the flash namespaces, byte b of
namespace n under n * 2^64 + b. `now` counts main-clock cycles, `fresh` the free values taken, `turn` counts the turns that control cores and background units take, `ports` the base-die ports by channel, `colls` the collectives in the
fabric with the number of the next one, `images` the parts of context images whose layout the manual leaves to the device (R376), by the number that stands
in the image, `agenda` lists what the
schedule and the environment do next. DESIGN CHOICE (log 57). -/
structure State where
  core : Core
  others : Sparse Core
  ctxs : Sparse Ctx
  mem : Mem
  sched : Sched
  host : HostSt
  plat : Plat
  flash : Sparse Byte
  ports : Sparse Port
  colls : List Coll
  nextColl : Nat
  images : Sparse Saved
  nextImage : Nat
  now : Nat
  fresh : Nat
  turn : Nat
  agenda : List Move
  powered : Bool
  deriving DecidableEq, Repr

/-! ### The state after reset -/

/-- A vector register of zeros with tag 0 (R39). -/
def VReg.zero : VReg := ⟨0, 0, 0, 0⟩

/-- The register files at core reset: zero; k0 reads all ones by its accessor (R39). -/
def Regs.zero : Regs :=
  { s := .replicate 64 0, spois := 0, v := .replicate 64 VReg.zero, k := .replicate 16 0, kpois := 0,
    d := .replicate 16 0, dpois := 0, lc := .replicate 4 0 }

/-- Zero timelines (R130). -/
def Timelines.zero : Timelines := ⟨⟨0, 0⟩, ⟨0, 0⟩, ⟨0, 0⟩, ⟨0, 0⟩, .replicate 16 ⟨0, 0⟩⟩

/-- The traverse state and shape record at dispatch (R160). -/
def Traverse.zero : Traverse :=
  ⟨.replicate 6 1, .replicate 6 0, .replicate 6 0, .replicate 6 0, .replicate 6 0, .trap⟩

/-- An accumulator at dispatch: zero, tags 0x000B (R242, R334). -/
def Accum.zero : Accum := ⟨[], [], 0x000B, 0x000B, ⟨false, [], [], [], [], false, 0, 0⟩, 0⟩

/-- A channel end that is not configured (R348). -/
def ChEnd.zero : ChEnd :=
  ⟨false, false, 0, 0, ⟨0, 0, false, 0, 0⟩, 0, 0, .replicate 4 ⟨false, 0, 0, 0, 0, none⟩, 0xF, false, none⟩

/-- No task. -/
def TaskId.none : TaskId := ⟨0, 0, 0, 0, 0, 0, 0, 0, 0, 0, false, 0, false, false, 0⟩

/-- System registers of a task at dispatch (R334): zero. -/
def TaskSys.zero : TaskSys := ⟨0, 0, 0, 0, 0, 0, 0, 0, false, false, false, .replicate 4 0, 0⟩

/-- A task context with everything at its value at dispatch (R334). DESIGN CHOICE (log 3). -/
def Task.zero : Task :=
  { id := TaskId.none, pc := 8, prv := false, regs := Regs.zero, spill := [], spPois := [], toks := ⟨0, 0, 0, 0⟩,
    tls := Timelines.zero, sys := TaskSys.zero, q := ⟨[], [], []⟩, tin := Traverse.zero, tout := Traverse.zero,
    vec := ⟨0, 0, 0, .replicate 8 0, 0, 0, [], false, 0⟩, acc0 := Accum.zero, acc1 := Accum.zero,
    tile := ⟨false, 0, false, 0, Accum.zero, Accum.zero⟩, blk := none, savedBlk := none, rstk := ⟨0, 0, 0, 0, []⟩, rcfg := RCfg.zero, frames := [], trest := [],
    walk := ⟨false, 0, 0, 0, 0, none, Traverse.zero, Traverse.zero, 0, none, none⟩, statL := [], statS := [],
    chans := .replicate 8 ChEnd.zero, collN := 0, collSt := [], closure := [], view := ⟨[], [], [], []⟩,
    phase := .idle, barw := none, pend := ⟨false, false, false, none⟩, cycles := 0,
    trapEnt := none, valid := true, away := ⟨true, false, [], 0⟩ }

/-- Empty buffers. -/
def Buffers.zero : Buffers := ⟨[], [], [], [], [], [], [], [], []⟩

/-- A freshly reset core (R39, R381): no task, nothing cached. -/
def Core.fresh (phys : BitVec 8) : Core :=
  { phys := phys, running := false, waiting := false, stopped := false, entry := true, lineKind := 0, t := Task.zero,
    buf := Buffers.zero, icache := [], vcache := [], l1tlb := [], tlbi := [], rfFrom := 0, rfUntil := 0,
    health := ⟨false, false, false, false, false, 0, false, false, .replicate 6 0, none⟩, epend := [],
    reserved := none, resetAt := 0, csince := 0, hold := none, ckpt := [] }

/-- The per-context registers as reset leaves them (R148): zero. -/
def Ctx.zero : Ctx :=
  { ptroot := 0, shdsz := 0, tlnbase := 0, flw := .replicate 4 0, qhbm := 0, qcxl := 0, qflash := 0, pkey := 0, clogb := 0,
    rngbase := 0, tvec := 0, rrctl := 0, rrbase := 0, rrst := 0, rcfg := RCfg.zero, type8 := false, ringTail := .replicate 4 0, rpos := .replicate 6 0, rcore := [], rdev := [] }

/-- The host registers at reset (R388): zero. -/
def HostSt.zero : HostSt :=
  { hrbase := .replicate 4 0, hrsize := .replicate 4 0, head := .replicate 4 0, tail := .replicate 4 0,
    failed := .replicate 4 false, evbase := 0, evsize := 0, evtail := 0, evhead := 0, winctx := 0, evdrop := 0, attbuf := 0,
    attnon := .replicate 4 0, busy := false, adone := false, attlen := 0, evheld := [], mem := [], dwidx := [], rdata := none }

/-- The platform at reset (R395, R398): all firmware runs, no die is mapped out. -/
def Plat.reset : Plat := ⟨true, BitVec.allOnes 12, 0, [], [], [], [], [], [], [], [], [], 0, [], [], [], Config.podId.setWidth 64, []⟩

/-- The package right after reset: core 0 in focus, every core fresh and idle, nothing cached, nothing queued, memory with nothing
listed, no key installed, every quad elastic (R39, R148, R149, R155). DESIGN CHOICE (log 4). -/
def State.reset : State :=
  { core := Core.fresh 0, others := [], ctxs := [], mem := ⟨[], [], [], [], [], [], [], [], [], [], [], [], []⟩,
    sched := ⟨[], [], [], [], 1, 1, 1, .replicate 4 0, 0, [], [], []⟩,
    host := HostSt.zero, plat := Plat.reset, flash := [],
    ports := [], colls := [], nextColl := 1, images := [], nextImage := 1,
    now := 0, fresh := 0, turn := 0, agenda := [], powered := true }

/-- Why the machine stops. -/
inductive Fault where
  /-- Raised by `step` when the package has lost power (R399, POWER_OFF); nothing runs until power-on. Safe: the machine stops where
  the hardware does nothing. -/
  | poweredOff
  deriving DecidableEq, Repr

/-- Why a step has no meaning. -/
inductive Refusal where
  /-- An arm of `exec` without a meaning yet. Safe: the machine stops where the hardware goes on. -/
  | notModelled (mnemonic : String)
  deriving DecidableEq, Repr

end Sys2Proof.Machine
end

