-- ==== Sys2Proof/Machine/Base.lean ====
section
/-! DEFINITION. Named reads and writes of the state: registers with their special cases, poison marks, timelines, per-context
registers, fault codes, and the little language the meanings are written in. -/

namespace Sys2Proof.Machine

/-! ### Fault codes (R11) and units (R368) -/

def cILLOP : BitVec 8 := 0x01
def cPRIV : BitVec 8 := 0x02
def cALIGN : BitVec 8 := 0x03
def cBRTGT : BitVec 8 := 0x04
def cPAGE : BitVec 8 := 0x08
def cPROT : BitVec 8 := 0x09
def cRSVPTE : BitVec 8 := 0x0A
def cQUOTA : BitVec 8 := 0x0B
def cCOMPCAP : BitVec 8 := 0x0C
def cTIERERR : BitVec 8 := 0x0D
def cTAGMIS : BitVec 8 := 0x10
def cDOMAIN : BitVec 8 := 0x11
def cOOB : BitVec 8 := 0x12
def cFPX : BitVec 8 := 0x13
def cBLKOP : BitVec 8 := 0x18
def cRSTK : BitVec 8 := 0x19
def cRSTKX : BitVec 8 := 0x1A
def cBARBRK : BitVec 8 := 0x20
def cBAROVR : BitVec 8 := 0x21
def cLAUNCH : BitVec 8 := 0x22
def cCHAN : BitVec 8 := 0x23
def cPOISON : BitVec 8 := 0x28
def cMCHK : BitVec 8 := 0x29
def cMISCLOSE : BitVec 8 := 0x2A
def cREPLAY : BitVec 8 := 0x2B
def cTRAPI : BitVec 8 := 0x30
def cBRK : BitVec 8 := 0x31
def cHALT : BitVec 8 := 0x32

/-- A fault of the control core (R368: micro-PC and timeline number 0). -/
def FaultInfo.cc (code : BitVec 8) : FaultInfo := ⟨code, 0, 0, 0, none, 0, 0⟩

/-- A control-core fault with its virtual address. DEDUCED (log 55). -/
def FaultInfo.at (code : BitVec 8) (va : Word) (lvl : BitVec 3 := 0) : FaultInfo := ⟨code, 0, 0, 0, some va, lvl, 0⟩

/-! ### Updates of parts of the state -/

def State.modC (s : State) (f : Core → Core) : State := { s with core := f s.core }
def State.modT (s : State) (f : Task → Task) : State := { s with core := { s.core with t := f s.core.t } }
def State.modR (s : State) (f : Regs → Regs) : State := s.modT fun t => { t with regs := f t.regs }
def State.modY (s : State) (f : TaskSys → TaskSys) : State := s.modT fun t => { t with sys := f t.sys }
def State.modB (s : State) (f : Buffers → Buffers) : State := { s with core := { s.core with buf := f s.core.buf } }
def State.modM (s : State) (f : Mem → Mem) : State := { s with mem := f s.mem }
def State.modS (s : State) (f : Sched → Sched) : State := { s with sched := f s.sched }
def State.modH (s : State) (f : Health → Health) : State := s.modC fun c => { c with health := f c.health }
def State.modTl (s : State) (f : Timelines → Timelines) : State := s.modT fun t => { t with tls := f t.tls }

/-- The core with a physical number, in focus or not (R14). -/
def State.coreAt (s : State) (c : Nat) : Core :=
  if c = s.core.phys.toNat then s.core else (Sparse.find s.others c).getD (Core.fresh (BitVec.ofNat 8 c))

/-- Writes a core back. -/
def State.setCore (s : State) (c : Nat) (k : Core) : State :=
  if c = s.core.phys.toNat then { s with core := k } else { s with others := Sparse.ins s.others c k }

/-- Brings a core into focus. -/
def State.focus (s : State) (c : BitVec 8) : State :=
  if c = s.core.phys then s
  else { s with core := s.coreAt c.toNat, others := Sparse.del (Sparse.ins s.others s.core.phys.toNat s.core) c.toNat }

/-- A map over every core that has left its fresh state. -/
def State.mapCores (s : State) (f : Core → Core) : State :=
  { s with core := f s.core, others := s.others.map fun p => (p.1, f p.2) }

/-- The registers of a context (R148). -/
def State.ctx (s : State) (x : BitVec 12) : Ctx := (Sparse.find s.ctxs x.toNat).getD Ctx.zero

/-- Updates the registers of a context. -/
def State.modX (s : State) (x : BitVec 12) (f : Ctx → Ctx) : State :=
  { s with ctxs := Sparse.put Ctx.zero s.ctxs x.toNat (f (s.ctx x)) }

/-- The context of the running task (R149). -/
def State.cid (s : State) : BitVec 12 := s.core.t.id.ctx

/-- The registers of the running task's context. -/
def State.cx (s : State) : Ctx := s.ctx s.cid

/-- Takes a free value. DESIGN CHOICE (log 56). -/
def State.free (s : State) : BitVec 64 × State := (Config.freeValue s.fresh, { s with fresh := s.fresh + 1 })

/-! ### Scalar registers (R39, R94) -/

/-- The value of a scalar register; s0 reads zero. -/
def Regs.rdS (r : Regs) (n : Reg) : Word := if n = 0 then 0 else r.s[n.toNat]

/-- Writes a scalar register and clears its poison; writes to s0 are discarded. -/
def Regs.wrS (r : Regs) (n : Reg) (x : Word) : Regs :=
  if n = 0 then r else { r with s := r.s.set n.toNat x, spois := r.spois &&& ~~~(1#64 <<< n.toNat) }

/-- Whether a scalar register holds an uncorrectable error; s0 never does. -/
def Regs.poisS (r : Regs) (n : Reg) : Bool := n != 0 && r.spois.getLsbD n.toNat

/-- The value of a scalar register of the task in focus. -/
def State.S (s : State) (n : Reg) : Word := s.core.t.regs.rdS n

/-- Writes a scalar register of the task in focus. -/
def State.setS (s : State) (n : Reg) (x : Word) : State := s.modR fun r => r.wrS n x

/-- A descriptor register (R40). -/
def State.D (s : State) (n : DCode) : Desc := s.core.t.regs.d[n.toNat]

/-- Writes a descriptor register. -/
def State.setD (s : State) (n : DCode) (x : Desc) : State :=
  s.modR fun r => { r with d := r.d.set n.toNat x, dpois := r.dpois &&& ~~~(1#16 <<< n.toNat) }

/-! ### The PC (R32) -/

/-- The granule a PC names. -/
def granuleOf (pc : Word) : Nat := (pc.extractLsb' 3 4).toNat

/-- The address of the line a PC lies in. -/
def lineOf (pc : Word) : Word := pc &&& ~~~(127#64)

/-- The address of the next sequential instruction after one of n granules (R32). -/
def nextPc (pc : Word) (n : Nat) : Word :=
  if granuleOf pc + n < 16 then pc + BitVec.ofNat 64 (8 * n) else lineOf pc + 136#64

/-- The block with its next ordinal (R297). -/
def Block.next (b : Block) : Block := { b with ord := b.ord + 1 }

/-- Sequential advance: the PC moves on, a line boundary is an entry into the next line (R28, R32); in an open block the ordinal moves on
(R297). -/
def State.advance (s : State) (n : Nat) : State :=
  s.modC fun c => { c with waiting := false, entry := decide (16 ≤ granuleOf c.t.pc + n),
                           t := { c.t with pc := nextPc c.t.pc n, blk := c.t.blk.map Block.next } }

/-- Arrival at a transfer's target (R28). -/
def State.jump (s : State) (t : Word) : State :=
  s.modC fun c => { c with waiting := false, entry := true, t := { c.t with pc := t } }

/-! ### The language of meanings -/

/-- Why an instruction does not complete in this step: a fault with none of its effects, a fault that leaves the effects reached in place, a wait with
the PC at the instruction, or an end of the step in the state reached, with the PC as that state has it. -/
inductive Stop where
  | fault (f : FaultInfo)
  | late (f : FaultInfo)
  | wait
  | stay
  deriving DecidableEq, Repr

/-- A computation over the state that may stop. -/
abbrev M (α : Type) := StateT State (Except (Stop × State)) α

/-- Raises a fault (R7). -/
def raise {α : Type} (f : FaultInfo) : M α := fun s => .error (.fault f, s)

/-- Raises a fault with the effects reached in place, and more (R126, R180, R299, R337, R363). -/
def raiseLate {α : Type} (f : FaultInfo) (g : State → State) : M α := fun s => .error (.late f, g s)

/-- Waits at the instruction. -/
def wait {α : Type} : M α := fun s => .error (.wait, s)

/-- Ends the step in the state reached. -/
def stay {α : Type} (f : State → State) : M α := fun s => .error (.stay, f s)

/-- Raises a fault when the condition holds. -/
def failIf (c : Bool) (f : FaultInfo) : M Unit := if c then raise f else pure ()

/-- Applies an update. -/
def upd (f : State → State) : M Unit := fun s => .ok ((), f s)

/-- Reads the state. -/
def now : M State := fun s => .ok (s, s)

/-- Reads a scalar register that an instruction names as a source (R94). -/
def rdS (n : Reg) : M Word := fun s =>
  if s.core.t.regs.poisS n then .error (.fault (.cc cPOISON), s) else .ok (s.S n, s)

/-- Writes a scalar register. -/
def wrS (n : Reg) (x : Word) : M Unit := upd fun s => s.setS n x

/-- Reads a descriptor register that an instruction uses (R378). -/
def rdD (n : DCode) : M Desc := fun s =>
  if s.core.t.regs.dpois.getLsbD n.toNat then .error (.fault (.cc cPOISON), s) else .ok (s.D n, s)

/-- Sign extension of an offset to an address. -/
def sx {w : Nat} (x : BitVec w) : Word := x.signExtend 64

/-! ### Timelines (R130) -/

/-- The timelines by queue. -/
def Timelines.get (t : Timelines) : QName → TL
  | .load => t.l
  | .compute => t.c
  | .store => t.s

/-- Updates a queue's timeline. -/
def Timelines.mod (t : Timelines) (q : QName) (f : TL → TL) : Timelines :=
  match q with
  | .load => { t with l := f t.l }
  | .compute => { t with c := f t.c }
  | .store => { t with s := f t.s }

/-- The timeline a selector of R131 names. -/
def Timelines.sel (t : Timelines) (n : BitVec 8) : TL :=
  match n.toNat with
  | 0 => t.l
  | 1 => t.c
  | 2 => t.s
  | 3 => t.x
  | _ => t.coll[(n.extractLsb' 0 4).toNat]

/-- A queue's commands. -/
def Queues.get (q : Queues) : QName → List Cmd
  | .load => q.load
  | .compute => q.compute
  | .store => q.store

/-- Replaces a queue's commands. -/
def Queues.set (q : Queues) (n : QName) (l : List Cmd) : Queues :=
  match n with
  | .load => { q with load := l }
  | .compute => { q with compute := l }
  | .store => { q with store := l }

/-- Updates a queue of the task in focus. -/
def State.modQ (s : State) (n : QName) (f : List Cmd → List Cmd) : State :=
  s.modT fun t => { t with q := t.q.set n (f (t.q.get n)) }

/-! ### Vector and mask registers (R39, R208) -/

/-- A vector register by physical number. -/
def State.V (s : State) (n : BitVec 6) : VReg := s.core.t.regs.v[n.toNat]

/-- Writes a vector register by physical number. -/
def State.setV (s : State) (n : BitVec 6) (x : VReg) : State := s.modR fun r => { r with v := r.v.set n.toNat x }

/-- A mask register by physical number; k0 reads all ones. -/
def Regs.rdK (r : Regs) (n : BitVec 4) : BitVec 1024 := if n = 0 then BitVec.allOnes 1024 else r.k[n.toNat]

/-- Writes a mask register; writes to k0 are discarded. -/
def Regs.wrK (r : Regs) (n : BitVec 4) (x : BitVec 1024) : Regs :=
  if n = 0 then r else { r with k := r.k.set n.toNat x, kpois := r.kpois &&& ~~~(0xFFFF#256 <<< (16 * n.toNat)) }

/-! ### Floating-point flags (R70, R71) -/

/-- The three groups of FPST. -/
inductive FGroup where
  | vf | mf | xf
  deriving DecidableEq, Repr

/-- Bit position of a group (R70). -/
def FGroup.pos : FGroup → Nat
  | .vf => 0 | .mf => 8 | .xf => 16

/-- Sets flags in FPST (R70: sticky). -/
def State.orFlags (s : State) (g : FGroup) (f : FFlags) : State :=
  s.modY fun y => { y with fpst := y.fpst ||| ((f.setWidth 64) <<< g.pos) }

/-- The flags of a group that FPEN enables (R71). -/
def State.fpEn (s : State) (g : FGroup) : FFlags := (s.core.t.sys.fpen >>> g.pos).setWidth 5

end Sys2Proof.Machine
end

