-- ==== Sys2Proof/Machine/Memory.lean ====
section
/-! DEFINITION. Home memory (R112, R118, R378, R396), translation (R137 to R145), code lines (R26 to R31) and the view of
phase-ordered memory (R122 to R125). -/

namespace Sys2Proof.Machine

/-! ### Homes -/

/-- The canonical form of a memory: addresses strictly rising, no byte listed that equals what an unlisted address reads as, 0. DESIGN CHOICE (log 2). -/
def Memory.wf (m : List Host.Cell) : Bool := Sparse.wf 0 m

/-- HBM4 channel index of a tier-2 line (R419). -/
def channelOf (pa : Nat) : Nat := (pa / 512) % 384

/-- Whether the DRAM die that holds an address is removed (R396). -/
def State.mappedOut (s : State) (pa : Nat) : Bool :=
  pa < Config.tier2Limit &&
    (let g := channelOf pa; (Sparse.get 0 s.plat.hbmMap (g / 32)).getLsbD (g % 32 / 2))

/-- Whether the aligned 8-byte word that holds an address is poisoned at its home. -/
def State.homePois (s : State) (pa : Nat) : Bool := setHas s.mem.pois (pa / 8) || s.mappedOut pa

/-- The value of a byte at its home (R112). -/
def State.homeByte (s : State) (pa : Nat) : Byte := Sparse.get 0 s.mem.bytes pa

/-- n bytes at their homes. -/
def State.homeBytes (s : State) (pa n : Nat) : List Byte := (List.range n).map fun i => s.homeByte (pa + i)

/-- The little-endian number of n bytes at their homes. -/
def State.homeLe (s : State) (pa n : Nat) : Nat := leNat (s.homeBytes pa n)

/-- Whether any of n bytes lies in a poisoned word. -/
def State.homePoisN (s : State) (pa n : Nat) : Bool :=
  (List.range ((pa % 8 + n + 7) / 8)).any fun i => s.homePois (pa / 8 * 8 + 8 * i)

/-- Whether an HBM4 stack is not enabled because its base die's firmware has not been verified (R398): it delivers nothing. DESIGN CHOICE (log 79). -/
def State.hbmOff (s : State) (pa : Nat) : Bool := decide (pa < Config.tier2Limit) && !s.plat.hbmOn.getLsbD (channelOf pa / 32)

/-- Whether the lower tier fails to deliver a line of the access (R118). -/
def State.homeFail (s : State) (pa n : Nat) : Bool :=
  (List.range ((pa % 128 + n + 127) / 128)).any fun i => setHas s.mem.failed (pa / 128 + i) || s.hbmOff ((pa / 128 + i) * 128)

/-- Writes bytes of one 512-byte block at their homes; a word that is replaced whole loses its poison; a removed die discards them (R118, R396). -/
def State.homePart (s : State) (pa : Nat) (bs : List Byte) : State :=
  if s.mappedOut pa then s
  else
    let lo := (pa + 7) / 8
    let hi := (pa + bs.length) / 8
    s.modM fun m => { m with bytes := writeBytes m.bytes pa bs, pois := m.pois.filter fun w => w < lo || hi ≤ w }

/-- Writes bytes at their homes, block by block: each block lies on one die (R396, R419). -/
def State.homeWrite (s : State) (pa : Nat) (bs : List Byte) : State :=
  if pa % 512 + bs.length ≤ 512 then s.homePart pa bs
  else (List.range ((pa % 512 + bs.length + 511) / 512)).foldl (fun s i =>
    let lo := max pa (512 * (pa / 512 + i))
    s.homePart lo ((bs.drop (lo - pa)).take (512 * (pa / 512 + i + 1) - lo))) s

/-- Writes the n bytes of a number at their homes. -/
def State.homeWriteLe (s : State) (pa n x : Nat) : State := s.homeWrite pa (leBytes n x)

/-! ### Compressed frames (R175, R177 to R179) -/

/-- Whether an expansion port is in NVMe mode (R393). -/
def State.nvme (s : State) (n : Nat) : Bool := (Sparse.get 0 s.plat.expmode n).getLsbD 0

/-- The expansion port in CXL mode whose compressible aperture holds an address (R177, R393, R395). The spec gives registers for the apertures of the
ports only: none lies in an HBM4 stack. DESIGN CHOICE (log 38). -/
def State.aperture (s : State) (pa : Nat) : Option Nat :=
  (List.range 4).find? fun n =>
    let r := Sparse.get 0 s.plat.expap n
    let base := (r &&& 0x000FFFFFFFFFF000#64).toNat
    let size := (r.extractLsb' 0 12).toNat * 2 ^ 30
    !s.nvme n && base ≤ pa && pa < base + size

/-- Slots a block needs, by its non-zero words (R178). -/
def blockNeed (bs : List Byte) : Nat :=
  let nz := (List.range 64).countP fun i => ((bs.drop (8 * i)).take 8).any (· != 0)
  if nz = 0 then 0 else if nz ≤ 55 then (8 + 8 * nz + 63) / 64 else 8

/-- Charges d slots of a tier to a context, or refuses (R175). -/
def State.charge (s : State) (ctx : BitVec 12) (pa : Nat) (d : Int) : Except (BitVec 8) State :=
  let cxl := Config.tier2Limit ≤ pa
  let q := if cxl then (s.ctx ctx).qcxl else (s.ctx ctx).qhbm
  let used : Int := (q.extractLsb' 24 40).toNat
  let limit : Int := (q.extractLsb' 0 24).toNat
  if d > 0 && limit != 0 && limit * 16384 < used + d then .error 0x0B
  else
    let n := (max 0 (used + d)).toNat
    let q' : Word := (BitVec.ofNat 40 n) ++ (q.extractLsb' 0 24)
    .ok (s.modX ctx fun x => if cxl then { x with qcxl := q' } else { x with qhbm := q' })

/-- Whether a block lies in a frame that its metadata calls compressed (R177). The mode is kept by block, so that a frame of which CMPX has converted
some blocks has both. DESIGN CHOICE (log 38). -/
def State.isCompressed (s : State) (blk : Nat) : Bool := (Sparse.find s.mem.comp blk).any fun b => !b.raw

/-- d more slots of a port's pool in use. Raw frames that were never compressed hold theirs from the start. DESIGN CHOICE (log 38). -/
def addUse (m : Sparse Int) (port : Nat) (d : Int) : Sparse Int := Sparse.put 0 m port (Sparse.get 0 m port + d)

/-- d more slots of a port's overflow reserve in use. -/
def addResv (m : Sparse Nat) (port : Nat) (d : Int) : Sparse Nat := Sparse.put 0 m port ((Sparse.get 0 m port : Nat) + d).toNat

/-- Whether a base-die transaction on the block of an address is rolled back (R181): until the block is written back. Tier 3 has no base die. DESIGN
CHOICE (log 70). -/
def State.txBack (s : State) (pa : Nat) : Bool := setHas s.mem.rollb (pa / 512) && decide (pa < Config.tier2Limit)

/-- Whether the pool, the reserve of a port holds n more slots (R179). -/
def State.poolHas (s : State) (port n : Nat) : Bool := Sparse.get 0 s.mem.pool port + n ≤ Config.poolSlots port
def State.resvHas (s : State) (port n : Nat) : Bool := Sparse.get 0 s.mem.resv port + n ≤ Config.reserveSlots port

/-- Claims what one block of a compressed frame needs more than it holds (R179): from the pool; else the block moves raw into the reserve; else
the write is refused. Other blocks need nothing. -/
def State.claimBlock (s : State) (ctx : BitVec 12) (blk : Nat) (bs : List Byte) : Except (BitVec 8) State :=
  match Sparse.find s.mem.comp blk, s.aperture (512 * blk) with
  | some b, some p =>
    let need := blockNeed bs
    if need ≤ b.slots then .ok s
    else if s.poolHas p (need - b.slots) then
      (s.charge ctx (512 * blk) ((need : Int) - b.slots)).map fun s => s.modM fun m =>
        { m with comp := Sparse.ins m.comp blk ⟨need, false, ctx, false⟩, pool := addUse m.pool p ((need : Int) - b.slots) }
    else if s.resvHas p 8 then
      (s.charge ctx (512 * blk) (8 - (b.slots : Int))).map fun s => s.modM fun m =>
        { m with comp := Sparse.ins m.comp blk ⟨8, true, ctx, false⟩, pool := addUse m.pool p (-(b.slots : Int)), resv := addResv m.resv p 8 }
    else .error 0x0C
  | _, _ => .ok s

/-- Claims for a write of bytes, block by block; a refusal claims nothing. -/
def State.claim (s : State) (ctx : BitVec 12) (pa : Nat) (bs : List Byte) : Except (BitVec 8) State :=
  (List.range ((pa + bs.length + 511) / 512 - pa / 512)).foldlM (fun (s : State) i =>
    let blk := pa / 512 + i
    if (Sparse.find s.mem.comp blk).isNone then .ok s
    else s.claimBlock ctx blk ((List.range 512).map fun j =>
      let a := 512 * blk + j
      if pa ≤ a && a < pa + bs.length then bs.getD (a - pa) 0 else s.homeByte a)) s

/-- A write of a context at its home (R112, R179): refused whole, or performed whole. -/
def State.store (s : State) (ctx : BitVec 12) (pa : Nat) (bs : List Byte) : Except (BitVec 8) State :=
  (s.claim ctx pa bs).map fun s => s.homeWrite pa bs

/-- Marks the words of n bytes as poisoned at their homes (R168: copies carry poison). -/
def State.homeSetPois (s : State) (pa n : Nat) : State :=
  s.modM fun m => { m with pois := (List.range ((pa % 8 + n + 7) / 8)).foldl (fun l i => setIns l (pa / 8 + i)) m.pois }

/-! ### The walk (R137 to R140) -/

/-- A page-table entry's fields (R139). -/
def pteV (e : Nat) : Bool := e.testBit 0
def pteLeaf (e : Nat) : Bool := e.testBit 1
def pteR (e : Nat) : Bool := e.testBit 2
def pteW (e : Nat) : Bool := e.testBit 3
def pteX (e : Nat) : Bool := e.testBit 4
def pteT (e : Nat) : Bool := e.testBit 5
def pteCh (e : Nat) : Bool := e.testBit 6
def pteCls (e : Nat) : Nat := (e >>> 7) % 4
def pteCmp (e : Nat) : Nat := (e >>> 9) % 4
def pteKey (e : Nat) : Nat := (e >>> 52) % 256
def ptePa (e : Nat) : Nat := ((e >>> 12) % 2 ^ 40) <<< 12

/-- CheckReserved of R138: whether a valid entry raises RSVPTE at its level (R140). -/
def pteReserved (e lvl : Nat) : Bool :=
  (e >>> 60) % 16 != 0 || e.testBit 11 || (pteLeaf e && lvl ≥ 2) || (!pteLeaf e && lvl = 0) ||
  (!pteLeaf e && (pteKey e != 0 || pteCmp e != 0 || pteCls e != 0 || pteCh e || pteT e || pteX e || pteW e || pteR e)) ||
  (pteLeaf e && lvl = 1 && (e >>> 12) % 2 ^ 9 != 0) ||
  pteCls e = 3 || pteCmp e ≥ 2 || (pteW e && !pteR e) || (pteX e && pteCls e != 0)

/-- Index of an address at a level (R137). -/
def vaIndex (va : Nat) (lvl : Nat) : Nat := (va >>> (12 + 9 * lvl)) % 512

/-- A leaf as a walk ends at it: the entry, its level and its address. -/
structure Leaf where
  e : Nat
  lvl : Nat
  at_ : Nat
  deriving DecidableEq, Repr

/-- The walk of R138 from a table, `lvl` levels above the lowest still to read; the walk-cache entries it installs (R143). DESIGN CHOICE (log 75). -/
def walkFrom (s : State) (ctx : BitVec 12) (va : Nat) : Nat → Nat → List WcE → List WcE × Except (BitVec 8 × Nat) Leaf
  | lvl, table, fills =>
    let at_ := table + 8 * vaIndex va lvl
    let e := s.homeLe at_ 8
    if s.homePois at_ then (fills, .error (cPOISON, lvl))
    else if !pteV e then (fills, .error (cPAGE, lvl))
    else if pteReserved e lvl then (fills, .error (cRSVPTE, lvl))
    else if pteLeaf e then (fills, .ok ⟨e, lvl, at_⟩)
    else match lvl with
      | 0 => (fills, .error (cRSVPTE, 0))
      | l + 1 => walkFrom s ctx va l (ptePa e) (⟨ctx, BitVec.ofNat 3 lvl, va >>> (12 + 9 * lvl), ptePa e⟩ :: fills)

/-- The deepest walk-cache entry on an address's path (R143): the level to read next and the table. -/
def wcLookup (wc : List WcE) (ctx : BitVec 12) (va root : Nat) : Nat × Nat :=
  let hit (l : Nat) := wc.find? fun w => w.ctx = ctx && w.lvl.toNat = l && w.key = va >>> (12 + 9 * l)
  match hit 1, hit 2, hit 3, hit 4 with
  | some w, _, _, _ => (0, w.table)
  | none, some w, _, _ => (1, w.table)
  | none, none, some w, _ => (2, w.table)
  | none, none, none, some w => (3, w.table)
  | none, none, none, none => (4, root)

/-- The TLB entry a leaf installs, merged over a contiguous group where R142 allows it; a group with a poisoned entry is not merged, and raises
nothing. DESIGN CHOICE (log 66). -/
def leafEntry (s : State) (ctx : BitVec 12) (va : Nat) (l : Leaf) : TlbE :=
  let size := 2 ^ (9 * l.lvl)
  let single : TlbE := ⟨ctx, va / 4096 / size * size, size, BitVec.ofNat 64 l.e, BitVec.ofNat 3 l.lvl,
    if l.lvl = 0 then 0 else 2⟩
  let line := l.at_ / 128 * 128
  let es := (List.range 16).map fun j => s.homeLe (line + 8 * j) 8
  let e0 := es.headD 0
  let attr (e : Nat) := (pteKey e, pteCmp e, pteCls e, pteT e, pteX e, pteW e, pteR e)
  let ok := pteCh l.e && !s.homePoisN line 128 &&
    (es.all fun e => pteV e && pteLeaf e && pteCh e && !pteReserved e l.lvl && attr e = attr e0) &&
    ((List.range 16).all fun j => ptePa (es.getD j 0) = ptePa e0 + j * size * 4096) &&
    ptePa e0 % (16 * size * 4096) = 0
  if ok then ⟨ctx, va / 4096 / (16 * size) * (16 * size), 16 * size, BitVec.ofNat 64 e0, BitVec.ofNat 3 l.lvl,
    if l.lvl = 0 then 1 else 3⟩
  else single

/-- Whether a TLB entry covers an address (R145). -/
def TlbE.covers (t : TlbE) (ctx : BitVec 12) (va : Nat) : Bool :=
  t.ctx = ctx && t.vpn ≤ va / 4096 && va / 4096 < t.vpn + t.pages

/-- The physical address an entry gives. -/
def TlbE.pa (t : TlbE) (va : Nat) : Nat := ptePa t.leaf.toNat + (va - t.vpn * 4096)

/-- The quad and the die of a core (R14). -/
def quadOf (c : Nat) : Nat := c / 4
def dieOf (c : Nat) : Nat := c / 64

/-- Matching entries of a TLB; among several one is used, and which one is not defined (R145). DESIGN CHOICE (log 32). -/
def tlbPick (s : State) (l : List TlbE) (ctx : BitVec 12) (va : Nat) : Option TlbE :=
  match l.filter (·.covers ctx va) with
  | [] => none
  | [t] => some t
  | t :: ts => some ((t :: ts).getD (Config.freeChoice s.fresh % (ts.length + 1)) t)

/-- A translation: the physical address, the leaf's bits and the size code. -/
structure Xl where
  pa : Nat
  leaf : Nat
  size : BitVec 2
  deriving DecidableEq, Repr

/-- Page class of a translation (R113). -/
def Xl.cls (x : Xl) : Nat := pteCls x.leaf

/-- Permission checks in the order of R141. -/
def permOk (s : State) (leaf : Nat) (a : Acc) (task : Bool) : Bool :=
  (!task || pteT leaf) &&
  (match a with | .r => pteR leaf | .w => pteW leaf | .x => pteX leaf) &&
  (pteKey leaf = 0 || (Sparse.find s.mem.keys (pteKey leaf)).isSome)

/-- Finds the entry of an address: L1 TLB, the quad's L2 TLB, then a walk (R143); with the state in which the walk cache holds what the
walk installs. -/
def lookup (s : State) (ctx : BitVec 12) (va : Nat) : State × Except (BitVec 8 × Nat) TlbE :=
  match tlbPick s s.core.l1tlb ctx va with
  | some t => (s, .ok t)
  | none =>
    let q := quadOf s.core.phys.toNat
    match tlbPick s (Sparse.get [] s.mem.l2tlb q) ctx va with
    | some t => (s, .ok t)
    | none =>
      let d := dieOf s.core.phys.toNat
      let wc := Sparse.get [] s.mem.wcache d
      let (lvl, table) := wcLookup wc ctx va ((s.ctx ctx).ptroot.toNat)
      let (fills, r) := walkFrom s ctx va lvl table []
      let wc' := fills ++ wc.filter fun w => !fills.any fun f => f.ctx = w.ctx && f.lvl = w.lvl && f.key = w.key
      let s' := s.modM fun m => { m with wcache := Sparse.put [] m.wcache d wc' }
      (s', r.map (leafEntry s ctx va))

/-- Puts an entry into the L1 TLB and the quad's L2 TLB (R143). -/
def installTlb (s : State) (t : TlbE) : State :=
  let put (n : Nat) (l : List TlbE) := (t :: l.filter (· ≠ t)).take n
  let s := s.modC fun c => { c with l1tlb := put Config.l1TlbEntries c.l1tlb }
  let q := quadOf s.core.phys.toNat
  s.modM fun m => { m with l2tlb := Sparse.put [] m.l2tlb q (put Config.l2TlbEntries (Sparse.get [] m.l2tlb q)) }

/-- A line that is written keeps the slot and the record of the key it is written under (R155). -/
def sealLine (m : Mem) (n line : Nat) : Sparse (Nat × BitVec 512) :=
  match Sparse.find m.keys n with
  | some k => Sparse.ins m.sealed line (n, k)
  | none => Sparse.del m.sealed line

/-- What an access leaves in the base dies: a frame whose leaf's CMP disagrees with its metadata is in the attribute-mismatch log (R177), and the line
that is written keeps its key (R155). DEDUCED (log 37). -/
def noteAccess (s : State) (x : Xl) (a : Acc) : State :=
  let f := x.pa / 4096
  let hint : Bool := pteCmp x.leaf = 1
  let n := pteKey x.leaf
  s.modM fun m => { m with
    attlog := if hint = s.isCompressed (x.pa / 512) then m.attlog else setIns m.attlog f,
    sealed := if a = .w then sealLine m n (x.pa / 128) else m.sealed }

/-- The lines of a translated write of n bytes keep the key they are written under (R155). -/
def State.sealLines (s : State) (x : Xl) (pa n : Nat) : State :=
  s.modM fun m => { m with sealed :=
    ((List.range ((pa % 128 + n + 127) / 128)).foldl (fun m i => { m with sealed := sealLine m (pteKey x.leaf) (pa / 128 + i) }) m).sealed }

/-- Translate of R117: R137, the walk, the permissions, and the entries installed. -/
def translate (s : State) (ctx : BitVec 12) (va : Word) (a : Acc) (task : Bool) : State × Except (BitVec 8 × Nat) Xl :=
  if va.extractLsb' 57 7 != 0 then (s, .error (cPAGE, 4))
  else
    let (s1, r) := lookup s ctx va.toNat
    match r with
    | .error e => (s1, .error e)
    | .ok t =>
      let x : Xl := ⟨t.pa va.toNat, t.leaf.toNat, t.size⟩
      if permOk s t.leaf.toNat a task then (noteAccess (installTlb s1 t) x a, .ok x)
      else (s1, .error (cPROT, t.lvl.toNat))

/-- Whether a core of the running task's context is inside an interval that RFHINT has declared (R154). -/
def State.rfOpen (s : State) : Bool :=
  decide (s.now < s.core.rfUntil) ||
  s.others.any fun k => k.2.running && k.2.t.id.ctx == s.cid && decide (s.now < k.2.rfUntil)

/-- Whether a request to an address is held: in plumb mode a tier-2 request of a context inside the interval that RFHINT has declared for it (R154).
DEDUCED (log 64). -/
def State.rfHeld (s : State) (pa : Nat) : Bool :=
  s.core.t.id.plumb && decide (pa < Config.tier2Limit) && s.rfOpen

/-- Translation for the task in focus at its privilege, in the language of meanings; a request that is held waits. -/
def xlateAs (va : Word) (a : Acc) (task : Bool) : M Xl := fun s =>
  match translate s s.cid va a task with
  | (s', .ok x) => if s'.rfHeld x.pa then .error (.wait, s') else .ok (x, s')
  | (s', .error (c, l)) => .error (.fault (.at c va (BitVec.ofNat 3 l)), s')

/-- Translation of an access of the running task. -/
def xlate (va : Word) (a : Acc) : M Xl := fun s => xlateAs va a (!s.core.t.prv) s

/-- Keeps what a stopped instruction leaves in the translation structures and in the attribute-mismatch log, and nothing else (R143, R177). -/
def keepFills (s s' : State) : State :=
  { s with core := { s.core with l1tlb := s'.core.l1tlb, icache := s'.core.icache }, fresh := s'.fresh,
           mem := { s.mem with l2tlb := s'.mem.l2tlb, wcache := s'.mem.wcache, attlog := s'.mem.attlog } }

/-! ### Code lines (R26 to R31) -/

/-- One bit of the CRC of R29. -/
def crcStep : Nat → Nat
  | 0 => 0
  | c + 1 => (((c + 1) * 2) % 65536) ^^^ (0x1021 * ((c + 1) / 32768))

/-- One byte of the CRC of R29, most significant bit first. -/
def crcByte (c : Nat) (b : Byte) : Nat :=
  crcStep (crcStep (crcStep (crcStep (crcStep (crcStep (crcStep (crcStep (c ^^^ (b.toNat * 256)))))))))

/-- CRC-16 of a byte sequence from a value on (R29). -/
def crcFrom : List Byte → Nat → Nat
  | [], c => c
  | b :: bs, 0 => crcFrom bs (crcByte 0 b)
  | b :: bs, c + 1 => crcFrom bs (crcByte (c + 1) b)

/-- CRC-16 of a byte sequence (R29). -/
def crc16 (bs : List Byte) : Nat := crcFrom bs 0xFFFF

/-- A granule of a line (R26). -/
def lineGran (bits : BitVec 1024) (g : Nat) : Word := bits.extractLsb' (64 * g) 64

/-- The bytes of a line. -/
def lineBytes (bits : BitVec 1024) : List Byte := (List.range 128).map fun i => bits.extractLsb' (8 * i) 8

/-- Header fields (R27). -/
def hdrStart (h : Word) : BitVec 15 := h.extractLsb' 0 15
def hdrTgt (h : Word) : BitVec 15 := h.extractLsb' 15 15
def hdrKind (h : Word) : BitVec 2 := h.extractLsb' 30 2

/-- CHK (R29): over header bytes 0 to 5, then bytes 8 to 127. -/
def lineChkOk (bits : BitVec 1024) : Bool :=
  let bs := lineBytes bits
  crc16 (bs.take 6 ++ bs.drop 8) = ((lineGran bits 0).extractLsb' 48 16).toNat

/-- Whether START marks a granule, 1 to 15 (R27). -/
def startAt (h : Word) (g : Nat) : Bool := 1 ≤ g && g ≤ 15 && h.getLsbD (g - 1)

/-- Whether TGT marks a granule (R27). -/
def tgtAt (h : Word) (g : Nat) : Bool := 1 ≤ g && g ≤ 15 && h.getLsbD (14 + g)

/-- Granules an instruction's size field gives it (R30). -/
def granCount (w : Word) : Nat := match (w.extractLsb' 0 2).toNat with | 1 => 2 | 2 => 4 | _ => 1

/-- START against the sizes, from granule g on (R30). -/
def startWalk (bits : BitVec 1024) : Nat → Nat → Bool
  | 0, _ => true
  | fuel + 1, g =>
    if g ≥ 16 then true
    else
      let h := lineGran bits 0
      let n := granCount (lineGran bits g)
      startAt h g && g + n ≤ 16 && ((List.range (n - 1)).all fun i => !startAt h (g + 1 + i)) && startWalk bits fuel (g + n)

/-- The START and TGT rules of R30. -/
def lineStartOk (bits : BitVec 1024) : Bool :=
  let h := lineGran bits 0
  startWalk bits 16 1 && (hdrTgt h &&& ~~~hdrStart h) == 0

/-- What a fetched line raises at the first instruction that would execute (R28 to R30). -/
def lineBad (bits : BitVec 1024) : Bool :=
  let h := lineGran bits 0
  !lineChkOk bits || h.extractLsb' 32 16 != 0 || hdrKind h == 3 || (hdrKind h != 2 && !lineStartOk bits)

/-- The 128 bytes of a line at its home as one unit (R31). -/
def State.homeLine (s : State) (line : Nat) : BitVec 1024 :=
  (List.range 128).foldr (fun i acc => (acc <<< 8) ||| (s.homeByte (128 * line + i)).setWidth 1024) 0

/-- Reads the line of an address for execution (R29, R31): translated for execute, from the L1 instruction cache or the home, where a
line that passes its checks is kept; a request that is held waits (R154). The fault of a line that cannot be fetched is reported with unit 8; a
line that its tier does not deliver cannot be seen to be poisoned (R12: the lower code). -/
def fetchLine (va : Word) : M (BitVec 1024) := fun s =>
  match translate s s.cid va .x (!s.core.t.prv) with
  | (s1, .error (c, l)) => .error (.fault { FaultInfo.at c va (BitVec.ofNat 3 l) with unit := 8 }, s1)
  | (s1, .ok x) =>
    let line := x.pa / 128
    match Sparse.find s1.core.icache line with
    | some b => .ok (b, s1)
    | none =>
      if s1.rfHeld x.pa then .error (.wait, s1)
      else if s1.homeFail (128 * line) 128 then .error (.fault { FaultInfo.at cTIERERR va with unit := 8 }, s1)
      else if s1.homePoisN (128 * line) 128 then .error (.fault { FaultInfo.at cPOISON va with unit := 8 }, s1)
      else
        let b := s1.homeLine line
        if lineBad b then .ok (b, s1)
        else .ok (b, s1.modC fun c => { c with icache := (Sparse.ins c.icache line b).take Config.icacheLines })

/-! ### The view (R122 to R125) -/

/-- Lines the view holds, pinned or dirty (R123). -/
def View.lines (v : View) : List Nat :=
  v.dirty.foldl (fun l p => setIns l (p.1 / 128)) (v.pin.map (·.1))

/-- Updates the view. -/
def State.modV (s : State) (f : View → View) : State := s.modT fun t => { t with view := f t.view }

/-- Whether a view of n lines needs no more shadow lines than SHDSZ allows (R123). Lines count as lines that L1 can hold until they are more than
its capacity: the manual gives L1 no sets. DESIGN CHOICE (log 65). -/
def shadowOk (s : State) (n : Nat) : Bool := n ≤ Config.l1Lines + (s.cx.shdsz.extractLsb' 0 20).toNat

/-- The poisoned words of a line at its home. -/
def State.linePois (s : State) (line : Nat) : BitVec 16 :=
  (List.range 16).foldr (fun i acc => (acc <<< 1) ||| (if s.homePois (128 * line + 8 * i) then 1 else 0)) 0

/-- Pins a line (R122): QUOTA when it is a new line of the view and that has no room for it (R123), TIERERR when the lower tier fails (R118). -/
def pinLine (va : Word) (line : Nat) : M Unit := fun s =>
  let v := s.core.t.view
  if (Sparse.find v.pin line).isSome then .ok ((), s)
  else if !shadowOk s (setIns v.lines line).length && !v.lines.contains line then .error (.fault (.at cQUOTA va), s)
  else if s.homeFail (128 * line) 128 then .error (.fault (.at cTIERERR va), s)
  else .ok ((), s.modV fun v => { v with pin := Sparse.ins v.pin line ⟨s.homeLine line, s.linePois line⟩ })

/-- A byte of the view: the core's own value, else the pinned one, else the home's (R122). -/
def State.viewByte (s : State) (pa : Nat) : Byte :=
  match Sparse.find s.core.t.view.dirty pa with
  | some b => b
  | none =>
    match Sparse.find s.core.t.view.pin (pa / 128) with
    | some p => p.bits.extractLsb' (8 * (pa % 128)) 8
    | none => s.homeByte pa

/-- Whether the word of an address is poisoned in the view: not where the core replaced it whole (R118). -/
def State.viewPois (s : State) (pa : Nat) : Bool :=
  let v := s.core.t.view
  if setHas v.bad (pa / 8) then true
  else if setHas v.whole (pa / 8) then false
  else match Sparse.find v.pin (pa / 128) with
    | some p => p.pois.getLsbD (pa % 128 / 8)
    | none => s.homePois pa

/-- Reads n bytes of phase-ordered memory within one line (R122). -/
def viewRead (va : Word) (pa n : Nat) : M (List Byte) := do
  let s ← now
  if (List.range n).all fun i => (Sparse.find s.core.t.view.dirty (pa + i)).isSome then pure () else pinLine va (pa / 128)
  let s ← now
  failIf ((List.range ((pa % 8 + n + 7) / 8)).any fun i => s.viewPois (pa / 8 * 8 + 8 * i)) (.at cPOISON va)
  pure ((List.range n).map fun i => s.viewByte (pa + i))

/-- Writes bytes of phase-ordered memory within one line (R122, R123). -/
def viewWrite (va : Word) (pa : Nat) (bs : List Byte) : M Unit := fun s =>
  let v := s.core.t.view
  if !shadowOk s (setIns v.lines (pa / 128)).length && !v.lines.contains (pa / 128) then .error (.fault (.at cQUOTA va), s)
  else
    let lo := (pa + 7) / 8
    let hi := (pa + bs.length) / 8
    .ok ((), s.modV fun v => { v with
      dirty := (List.range bs.length).foldl (fun m i => Sparse.ins m (pa + i) (bs.getD i 0)) v.dirty,
      whole := (List.range (hi - lo)).foldl (fun l i => setIns l (lo + i)) v.whole,
      bad := v.bad.filter fun w => w < lo || hi ≤ w })

/-- Reads for LD and LD.dsc (R117): the view for phase-ordered pages, else the home. -/
def memRead (va : Word) (x : Xl) (n : Nat) : M (List Byte) := do
  if x.cls = 0 then viewRead va x.pa n
  else
    let s ← now
    failIf (s.homeFail x.pa n) (.at cTIERERR va)
    failIf (s.homePoisN x.pa n) (.at cPOISON va)
    pure (s.homeBytes x.pa n)

/-- Whether an address lies in the context's timeline area, whose program stores are ignored (R134). -/
def inTimelineArea (s : State) (va : Word) : Bool :=
  let b := s.cx.tlnbase &&& 0x01FFFFFFFFFFE000#64
  b != 0 && va &&& 0xFFFFFFFFFFFFE000#64 == b

/-- Writes for ST and ST.dsc (R117). A direct write is performed at its home when it issues: R128 lets accesses to different lines be performed in
any order. DESIGN CHOICE (log 59). -/
def memWrite (va : Word) (x : Xl) (bs : List Byte) : M Unit := do
  let s ← now
  if inTimelineArea s va then pure ()
  else if x.cls = 0 then viewWrite va x.pa bs
  else match s.store s.cid x.pa bs with
    | .error c => raise (.at c va)
    | .ok s' => upd fun _ => s'

/-- The dirty bytes grouped into runs of one aligned 8-byte word: address and bytes. -/
def dirtyWords (d : Sparse Byte) : List (Nat × List (Nat × Byte)) :=
  d.foldr (fun p acc => match acc with
    | (w, l) :: r => if w = p.1 / 8 then (w, p :: l) :: r else (p.1 / 8, [p]) :: (w, l) :: r
    | [] => [(p.1 / 8, [p])]) []

/-- Publishes bytes of a view at the homes for a context: a word the core replaced whole is written as one, clearing its poison (R112, R118,
R124); a word poisoned in L1 carries its mark (R378). The words that a compressed block or the quota refuses are left out and answered with the lowest
code (R12, R180). The claims are made word by word in the order of their addresses. DESIGN CHOICE (log 38). -/
def State.publish (s : State) (ctx : BitVec 12) (dirty : Sparse Byte) (whole bad : List Nat) : State × List Nat × Option (BitVec 8) :=
  (dirtyWords dirty).foldl (fun (acc : State × List Nat × Option (BitVec 8)) (w : Nat × List (Nat × Byte)) =>
    let (s, ref, e) := acc
    let r : Except (BitVec 8) State :=
      if w.2.length = 8 && setHas whole w.1 then s.store ctx (8 * w.1) (w.2.map (·.2))
      else w.2.foldlM (fun (s : State) p => s.store ctx p.1 [p.2]) s
    match r with
    | .ok s' => (if setHas bad w.1 then s'.homeSetPois (8 * w.1) 8 else s', ref, e)
    | .error c => (s, ref ++ [w.1], some (match e with | some d => if d.toNat < c.toNat then d else c | none => c))) (s, [], none)

/-- The pinned lines with the own bytes of the core that a predicate selects by their addresses laid over them. -/
def View.pinOwn (v : View) (sel : Nat → Bool) : Sparse Pinned :=
  v.pin.map fun p =>
    (p.1, (v.dirty.filter fun d => d.1 / 128 = p.1 && sel d.1).foldl (fun (q : Pinned) d =>
      let i := d.1 % 128
      { bits := (q.bits &&& ~~~(0xFF#1024 <<< (8 * i))) ||| ((d.2.setWidth 1024 : BitVec 1024) <<< (8 * i : Nat)),
        pois := if setHas v.whole (d.1 / 8) then q.pois &&& ~~~(1#16 <<< (i / 8)) else q.pois }) p.2)

/-- COMMIT over the lines a predicate selects (R124, R121 CLN); refused bytes stay dirty, with the code that is then raised (R180). -/
def State.commitSel (s : State) (sel : Nat → Bool) : State × Option (BitVec 8) :=
  let v := s.core.t.view
  let (s1, ref, e) := s.publish s.cid (v.dirty.filter fun p => sel (p.1 / 128)) v.whole v.bad
  let out (a : Nat) : Bool := sel (a / 128) && !ref.contains (a / 8)
  (s1.modV fun v =>
    let v' : View := { pin := v.pinOwn out, dirty := v.dirty.filter fun p => !out p.1, whole := v.whole.filter fun w => !out (8 * w), bad := v.bad }
    { v' with bad := v.bad.filter fun w => setHas v'.lines (w / 16) }, e)

/-- COMMIT (R124). -/
def State.commit (s : State) : State × Option (BitVec 8) := s.commitSel fun _ => true

/-- ACQ (R125): every line is unpinned, dirty bytes stay dirty. -/
def State.acquire (s : State) : State :=
  s.modV fun v => { v with pin := [], bad := v.bad.filter fun w => v.dirty.any fun d => d.1 / 8 = w }

/-! ### Accesses of engines and of the device -/

/-- The packets of a task that are held at the homes (R126). -/
def State.packetsOf (s : State) (uid : Nat) : List Packet := s.sched.packets.filter (·.uid == uid)

/-- A byte that a task has written and that is not at its home yet: dirty in its view, or in a packet of its own that is held (R126, R133). -/
def ownByte (v : View) (ps : List Packet) (pa : Nat) : Option Byte :=
  match Sparse.find v.dirty pa with
  | some b => some b
  | none => ps.findSome? fun p => Sparse.find p.bytes pa

/-- Whether an aligned 8-byte word reads as poisoned through a task's own bytes (R118, R378): its own mark, else not where the task replaced it whole,
else that of its home. -/
def ownPois (v : View) (ps : List Packet) (home : Bool) (w : Nat) : Bool :=
  let holds (d : Sparse Byte) : Bool := d.any fun b => b.1 / 8 = w
  if setHas v.bad w && holds v.dirty then true
  else if setHas v.whole w then false
  else match ps.find? fun p => holds p.bytes with
    | some p => setHas p.bad w || !setHas p.whole w && home
    | none => home

/-- A byte as an engine of the core reads it (R133): the task's own, else its home's. -/
def State.engineByte (s : State) (pa : Nat) : Byte := (ownByte s.core.t.view (s.packetsOf s.core.t.id.uid) pa).getD (s.homeByte pa)

/-- Bytes an engine of the core reads. -/
def State.engineBytes (s : State) (pa n : Nat) : List Byte := (List.range n).map fun i => s.engineByte (pa + i)

/-- Whether an engine read meets poison. -/
def State.enginePois (s : State) (pa n : Nat) : Bool :=
  (List.range ((pa % 8 + n + 7) / 8)).any fun i =>
    ownPois s.core.t.view (s.packetsOf s.core.t.id.uid) (s.homePois (8 * (pa / 8 + i))) (pa / 8 + i)

/-- A device write to an area a system register names (R134): dropped when it cannot be made; answers whether it was made. Which core's TLBs the
device's own translations use the spec does not say: those of the core in focus. DESIGN CHOICE (log 78). -/
def State.deviceWrite (s : State) (ctx : BitVec 12) (va : Word) (bs : List Byte) : State × Bool :=
  match translate s ctx va .w false with
  | (s', .error _) => (s', false)
  | (s', .ok x) =>
    if x.cls != 1 || s'.homePoisN x.pa bs.length then (s', false)
    else match s'.store ctx x.pa bs with
      | .ok s2 => (s2, true)
      | .error _ => (s', false)

end Sys2Proof.Machine
end

