-- ==== Sys2Proof/Machine/Sched.lean ====
section
/-! DEFINITION. What the banksman and the barrier networks share (13_tasks_scheduling.md R323 to R338) with the event ring
(16_platform.md R391): events, queues of runnable records, join counts, barrier instances, the end of a task. -/

namespace Sys2Proof.Machine

/-! ### The event ring (R391) -/

/-- Writes held events while the ring has room (R391). -/
def HostSt.flushEvents : Nat → HostSt → HostSt
  | 0, h => h
  | n + 1, h =>
    match h.evheld with
    | [] => h
    | e :: r =>
      let size := 2 ^ (h.evsize.extractLsb' 0 5).toNat
      if (h.evtail - h.evhead).toNat % 2 ^ 32 < size then
        HostSt.flushEvents n { h with
          mem := writeBytes h.mem (h.evbase.toNat + 64 * (h.evtail.toNat % size)) e,
          evtail := (h.evtail + 1) &&& 0xFFFFFFFF#64, evheld := r }
      else h

/-- Posts an event: to the ring, else held while fewer than 64 are, else dropped and counted (R391). -/
def HostSt.post (h : HostSt) (e : List Byte) : HostSt :=
  let h := HostSt.flushEvents 65 { h with evheld := h.evheld ++ [e] }
  if h.evheld.length ≤ 64 then h
  else { h with evheld := h.evheld.take 64, evdrop := if h.evdrop = BitVec.allOnes 64 then h.evdrop else h.evdrop + 1 }

/-- An event of 64 bytes: type, code, context, bytes 4 to 7, bytes 8 to 63 (R391). DEDUCED (log 33). -/
def eventBytes (ty : Nat) (code : BitVec 8) (ctx : BitVec 12) (w : Nat) (rest : List Byte) : List Byte :=
  leBytes 1 ty ++ leBytes 1 code.toNat ++ leBytes 2 ctx.toNat ++ leBytes 4 w ++ (rest ++ List.replicate 56 0).take 56

/-- Posts an event. -/
def State.post (s : State) (ty : Nat) (code : BitVec 8) (ctx : BitVec 12) (w : Nat) (rest : List Byte) : State :=
  { s with host := s.host.post (eventBytes ty code ctx w rest) }

/-- A context fault event (type 2, R391). -/
def State.postFault (s : State) (code : BitVec 8) (ctx : BitVec 12) (tcause tpc tupc tva ttl : Word) (lid : BitVec 32) : State :=
  s.post 2 code ctx 0 (leBytes 8 tcause.toNat ++ leBytes 8 tpc.toNat ++ leBytes 8 tupc.toNat ++ leBytes 8 tva.toNat ++
    leBytes 8 ttl.toNat ++ leBytes 4 lid.toNat)

/-- An event of type 8 for the first dropped write of a context (R134). -/
def State.postDrop (s : State) (ctx : BitVec 12) (src : Nat) (va : Word) : State :=
  if src = 1 && (s.ctx ctx).type8 then s
  else
    let s := s.post 8 0 ctx src (leBytes 8 va.toNat)
    if src = 1 then s.modX ctx fun c => { c with type8 := true } else s

/-- Writes a task's timeline-area entry (R134). -/
def State.timelineWrite (s : State) (ctx : BitVec 12) (slot : BitVec 8) (t : Nat) (v : Word) : State :=
  let base := (s.ctx ctx).tlnbase &&& 0x01FFFFFFFFFFE000#64
  if base = 0 then s
  else
    let va := base + BitVec.ofNat 64 (32 * slot.toNat + 8 * t)
    let (s, ok) := s.deviceWrite ctx va (leBytes 8 v.toNat)
    if ok then s else s.postDrop ctx 1 va

/-! ### Launches and the queues of runnable records (R324 to R326) -/

/-- A launch by its number. -/
def State.launch (s : State) (n : Nat) : Option Launch := s.sched.launches.find? fun l => l.id = n

/-- Updates a launch. -/
def State.modL (s : State) (n : Nat) (f : Launch → Launch) : State :=
  s.modS fun c => { c with launches := c.launches.map fun l => if l.id = n then f l else l }

/-- Records the pending-launch pool holds (R324, R325). -/
def State.poolUsed (s : State) : Nat :=
  (s.sched.launches.filter (·.pooled)).length + (s.sched.ready.filter fun r => r.ring.isNone && r.work ≠ .root).length

/-- Capacity of a context's ring of one priority (R325). -/
def ringCap (c : Ctx) : Nat := let n := (c.rngbase.extractLsb' 0 4).toNat; if n = 0 then 0 else 2 ^ n

/-- Slots of a context's ring of a priority from the oldest entry that stands there to its tail. -/
def State.ringUsed (s : State) (ctx : BitVec 12) (p : BitVec 2) : Nat :=
  let tail := (s.ctx ctx).ringTail[p.toNat]
  tail - (s.sched.ready.filter (·.ctx = ctx)).foldl (fun m r => match r.ring with | some x => if x.1 = p then min m x.2 else m | none => m) tail

/-- Whether neither the pool nor the context's ring has room (R328). -/
def State.noRoom (s : State) (ctx : BitVec 12) (p : BitVec 2) : Bool :=
  Config.poolRecords ≤ s.poolUsed && ringCap (s.ctx ctx) ≤ s.ringUsed ctx p

/-- The address of a slot of a context's ring of a priority (R325). -/
def ringVa (c : Ctx) (p : BitVec 2) (slot : Nat) : Word :=
  (c.rngbase &&& 0x01FFFFFFFFFFF000#64) + BitVec.ofNat 64 (64 * (p.toNat * ringCap c + slot % ringCap c))

/-- A continuation record (R323): CODE, FRAME, ARGS, LID, PARENT, PRIO, DEPTH, CTX. -/
def contBytes (code frame args : Word) (lid : BitVec 32) (parent : Word) (prio : BitVec 2) (depth : BitVec 5) (ctx : BitVec 12) : List Byte :=
  leBytes 8 code.toNat ++ leBytes 8 frame.toNat ++ leBytes 8 args.toNat ++ leBytes 4 0 ++ leBytes 4 lid.toNat ++ leBytes 8 parent.toNat ++
  leBytes 1 prio.toNat ++ leBytes 1 depth.toNat ++ leBytes 2 ctx.toNat ++ List.replicate 20 0

/-- The 64 bytes that stand in a ring for an entry: the record at its address, the banksman's own record of a root task, the continuation of a
pre-empted task (R324, R325, R339). -/
def State.workBytes (s : State) (ctx : BitVec 12) (launch : Nat) (w : Work) : List Byte :=
  match w with
  | .record a => match translate s ctx a .r false with
    | (_, .ok x) => s.homeBytes x.pa 64
    | _ => List.replicate 64 0
  | .root => match s.launch launch with
    | some l => l.image.take 8 ++ (l.image.drop 16).take 8 ++ (l.image.drop 8).take 8 ++ (contBytes 0 0 0 l.lid 0 l.prio l.depth l.ctx).drop 24
    | none => List.replicate 64 0
  | .resume t _ _ => contBytes t.pc (t.regs.rdS 62) (t.regs.rdS 60) t.id.lid t.id.parent t.id.prio t.id.depth t.id.ctx

/-- Whether the next entry of a context at a priority stands in the pool (R325): it has room, or the ring has none. -/
def State.toPool (s : State) (ctx : BitVec 12) (p : BitVec 2) : Bool :=
  s.poolUsed < Config.poolRecords || ringCap (s.ctx ctx) ≤ s.ringUsed ctx p

/-- Pushes a runnable entry at the tail of its priority: into the pool, or into the context's ring, where its 64-byte record stands in the next
slot (R325). -/
def State.pushAt (s : State) (pool : Bool) (prio : BitVec 2) (ctx : BitVec 12) (launch : Nat) (w : Work) : State :=
  let c := s.ctx ctx
  if pool then s.modS fun k => { k with ready := k.ready ++ [⟨prio, ctx, launch, s.now, s.now, none, w⟩] }
  else
    let tail := c.ringTail[prio.toNat]
    let s := s.modS fun k => { k with ready := k.ready ++ [⟨prio, ctx, launch, s.now, s.now, some (prio, tail), w⟩] }
    let (s, _) := s.deviceWrite ctx (ringVa c prio tail) (s.workBytes ctx launch w)
    s.modX ctx fun c => { c with ringTail := c.ringTail.set prio.toNat (tail + 1) }

/-- Pushes a runnable entry where it has room (R325). -/
def State.pushReady (s : State) (prio : BitVec 2) (ctx : BitVec 12) (launch : Nat) (w : Work) : State :=
  s.pushAt (s.toPool ctx prio) prio ctx launch w

/-- The record of an entry that stands in a ring, as the device reads it there (R134: R is required); none while the slot cannot be read. DESIGN
CHOICE (log 71). -/
def State.ringRead (s : State) (r : Ready) (x : BitVec 2 × Nat) : Option (List Byte) :=
  match translate s r.ctx (ringVa (s.ctx r.ctx) x.1 x.2) .r false with
  | (_, .ok t) => if s.homePoisN t.pa 64 then none else some (s.homeBytes t.pa 64)
  | _ => none

/-! ### Join counts (R323, R329) -/

/-- The checks a decrement makes of a join record (R329 check 4): a task-level direct write. -/
def joinAddr (s : State) (ctx : BitVec 12) (va : Word) : State × Except (BitVec 8 × Nat) Nat :=
  match translate s ctx va .w true with
  | (s, .error e) => (s, .error e)
  | (s, .ok x) =>
    if x.cls != 1 then (s, .error (cPROT, 0))
    else if s.homePois (x.pa + 24) then (s, .error (cPOISON, 0))
    else (s, .ok x.pa)

/-- The decrement of a join record at its home, as one event (R329): a count already zero posts an event of type 10; the last child of
a parked record queues it, in the launch of the task that parked there (R330). -/
def State.decJoin (s : State) (ctx : BitVec 12) (launch : Nat) (va : Word) (pa : Nat) (lid : BitVec 32) : State :=
  let j := s.homeLe (pa + 24) 4
  let count := j % 2 ^ 31
  if count = 0 then s.post 10 0 ctx 0 (leBytes 8 va.toNat ++ leBytes 4 lid.toNat)
  else if count = 1 && j ≥ 2 ^ 31 then
    let n := ((s.sched.parked.find? (·.1 = pa)).map (·.2)).getD launch
    let s1 := s.modS fun c => { c with parked := c.parked.filter (·.1 ≠ pa) }
    (s1.homeWriteLe (pa + 24) 4 0).pushReady (BitVec.ofNat 2 (s.homeLe (pa + 40) 1)) ctx n (.record va)
  else s.homeWriteLe (pa + 24) 4 (j - 1)

/-- A decrement that the device itself makes; when it cannot be made it posts a context fault event (R324, R377). -/
def State.decJoinOrPost (s : State) (ctx : BitVec 12) (launch : Nat) (va : Word) (lid : BitVec 32) : State :=
  if va = 0 then s
  else match joinAddr s ctx va with
  | (s, .ok pa) => s.decJoin ctx launch va pa lid
  | (s, .error (c, _)) => s.postFault c ctx 0 0 0 va 0 lid

/-- One task of a launch has ended; the last one ends the launch, which decrements its join record (R324). -/
def State.taskGone (s : State) (launch : Nat) : State :=
  match s.launch launch with
  | none => s
  | some l =>
    if l.live ≤ 1 then
      let s := s.modS fun c => { c with launches := c.launches.filter fun k => k.id ≠ launch,
                                        bars := c.bars.filter fun b => b.launch ≠ launch || b.podg != 0 }
      let s := s.mapCores fun c => if c.reserved = some launch then { c with reserved := none } else c
      s.decJoinOrPost l.ctx launch l.join l.lid
    else s.modL launch fun l => { l with live := l.live - 1 }

/-! ### Tasks -/

/-- Every core that has left its fresh state. -/
def State.cores (s : State) : List Core := s.core :: s.others.map (·.2)

/-- The contexts of the tasks that live: on cores, or saved in the queues. -/
def State.tasks (s : State) : List (Task × Option (BitVec 8)) :=
  (s.cores.filter (·.running)).map (fun c => (c.t, some c.phys)) ++
  s.sched.ready.filterMap fun r => match r.work with | .resume t _ c => some (t, c) | _ => none

/-- The tasks that live, with the core that holds them or that they are pinned to. -/
def State.liveTasks (s : State) : List (TaskId × Option (BitVec 8)) := s.tasks.map fun t => (t.1.id, t.2)

/-- The task slot a new task takes (R321): the highest free one. -/
def State.freeSlot (s : State) (ctx : BitVec 12) : Option (BitVec 8) :=
  let used := (s.liveTasks.filter fun t => t.1.ctx = ctx).map (·.1.slot)
  ((List.range 256).reverse.map (BitVec.ofNat 8)).find? fun n => !used.contains n

/-- Updates the task with a number, wherever it stands. -/
def State.mapTask (s : State) (uid : Nat) (f : Task → Task) : State :=
  let onCore (c : Core) : Core := if c.running && c.t.id.uid = uid then { c with t := f c.t } else c
  let onWork (w : Work) : Work := match w with
    | .resume t b c => if t.id.uid = uid then .resume (f t) b c else w
    | _ => w
  (s.mapCores onCore).modS fun c => { c with ready := c.ready.map fun r => { r with work := onWork r.work } }

/-- Updates every task, on its core or saved. -/
def State.mapAll (s : State) (f : Task → Task) : State :=
  let onWork (w : Work) : Work := match w with | .resume t b c => .resume (f t) b c | _ => w
  (s.mapCores fun c => { c with t := f c.t }).modS fun c => { c with ready := c.ready.map fun r => { r with work := onWork r.work } }

/-! ### Barrier instances (R335 to R338) -/

/-- The unit of a scope that holds a core (R335). -/
def unitOf (sc : Scope) (phys : BitVec 8) : Nat :=
  match sc with
  | .quad => quadOf phys.toNat
  | .die => dieOf phys.toNat
  | .core => phys.toNat
  | .lane | .pkg | .pod => 0

/-- Whether an instance is the one a task names. The barrier of STEPB spans the launch and stands under scope LANE (R333). -/
def Bar.is (r : Bar) (t : TaskId) (phys : BitVec 8) (sc : Scope) (b : BitVec 3) (ph : Bool) : Bool :=
  r.sc = sc && r.b = b && r.phaseBar = ph && r.unit = unitOf sc phys &&
  (if sc = .pod then r.podg = t.podg else r.launch = t.launch)

/-- Whether a POD instance has arrivals of other packages still to come in its open phase (R335). -/
def podWaits (sc : Scope) (podg : BitVec 32) : Bool := decide (sc = .pod) && Config.podRemote podg

/-- Whether a context's POD group has been cut off from its other packages, by its key or by a port that is down (R25, R355, R394). -/
def State.podCut (s : State) (ctx : BitVec 12) (podg : BitVec 32) : Bool :=
  setHas s.plat.revoked (s.ctx ctx).pkey.toNat || s.plat.linkDown.any fun p => Config.podLink podg (BitVec.ofNat 4 p)

/-- A fresh instance: the tasks of nest launches in the unit, of a POD instance those of every launch of its group, are members from dispatch (R335). DESIGN
CHOICE (log 35). -/
def newBar (s : State) (t : TaskId) (phys : BitVec 8) (sc : Scope) (b : BitVec 3) (ph : Bool) : Bar :=
  let mine (x : TaskId) : Bool := x.nest && (if sc = .pod then x.podg = t.podg else x.launch = t.launch)
  let mem := if ph then [] else
      (s.liveTasks.filter fun x => mine x.1 && (x.2.map (unitOf sc)) = some (unitOf sc phys)).map (·.1.uid)
  { launch := t.launch, podg := if sc = .pod then t.podg else 0, sc := sc, unit := unitOf sc phys, b := b, phaseBar := ph,
    ph := 0, members := mem, arrived := [], joining := [], leaving := [], bc := 0, armed := none, started := false,
    broken := podWaits sc t.podg && s.podCut t.ctx t.podg, remote := podWaits sc t.podg }

/-- The instance a task names, as it stands or fresh. -/
def State.bar (s : State) (t : TaskId) (phys : BitVec 8) (sc : Scope) (b : BitVec 3) (ph : Bool) : Bar :=
  (s.sched.bars.find? fun r => r.is t phys sc b ph).getD (newBar s t phys sc b ph)

/-- Completes an instance's open phase when every member has arrived and BC is zero (R336): changes of membership that waited take
effect. -/
def Bar.settle (r : Bar) : Bar :=
  if r.started && !r.broken && !r.remote && r.bc = 0 && !r.members.isEmpty && r.members.all r.arrived.contains then
    { r with ph := r.ph + 1, arrived := [], started := false, armed := none, remote := podWaits r.sc r.podg,
             members := (r.members.filter fun u => !r.leaving.contains u) ++ r.joining, joining := [], leaving := [] }
  else r

/-- Writes an instance back. -/
def State.setBar (s : State) (r : Bar) : State :=
  let same (q : Bar) : Bool :=
    q.sc = r.sc && q.b = r.b && q.phaseBar = r.phaseBar && q.unit = r.unit && q.launch = r.launch && q.podg = r.podg
  s.modS fun c => { c with bars := if c.bars.any same then c.bars.map fun q => if same q then r else q else c.bars ++ [r] }

/-- A task departs from every instance (R338). -/
def State.departAll (s : State) (uid : Nat) : State :=
  let leave (r : Bar) : Bar :=
    if r.phaseBar then { r with arrived := r.arrived.filter (· ≠ uid) }
    else if r.members.contains uid || r.joining.contains uid then
      Bar.settle { r with members := r.members.filter (· ≠ uid), arrived := r.arrived.filter (· ≠ uid),
                          joining := r.joining.filter (· ≠ uid), leaving := r.leaving.filter (· ≠ uid) }
    else r
  s.modS fun c => { c with bars := c.bars.map leave }

/-- A task of a nest launch that is dispatched is a member of every instance of its units that stands (R335). -/
def State.joinBars (s : State) (t : TaskId) (phys : BitVec 8) : State :=
  if !t.nest then s
  else s.modS fun c => { c with bars := c.bars.map fun r =>
    if r.phaseBar || r.unit ≠ unitOf r.sc phys || !(if r.sc = .pod then r.podg = t.podg else r.launch = t.launch) then r
    else { r with members := setIns r.members t.uid } }

/-- The instances of a nest task's units stand, so that a break of one of them lasts (R335, R338). -/
def State.standBars (s : State) (t : TaskId) (phys : BitVec 8) : State :=
  if !t.nest then s
  else
    ([Scope.quad, .die, .pkg] ++ (if t.podg = 0 then [] else [Scope.pod])).foldl (fun s sc =>
      (List.range 8).foldl (fun s i => s.setBar (s.bar t phys sc (BitVec.ofNat 3 i) false)) s) s

/-- Every instance that counts a task is broken, and where it waited to join it does not (R335, R338, R377). -/
def State.breakAll (s : State) (t : TaskId) (phys : BitVec 8) : State :=
  let s0 := s.standBars t phys
  let inZero (r : Bar) : Bool := s0.sched.bars.any fun q =>
    !q.phaseBar && q.b = 0 && q.sc = r.sc && q.unit = r.unit && q.launch = r.launch && q.members.contains t.uid
  let brk (r : Bar) : Bar :=
    if r.phaseBar then
      if !r.arrived.isEmpty && r.launch = t.launch && (r.sc = .lane || inZero r) then
        let a := r.arrived.filter (· ≠ t.uid)
        { r with broken := !a.isEmpty, started := r.started && !a.isEmpty, arrived := a }
      else r
    else if r.members.contains t.uid then { r with broken := true, members := r.members.filter (· ≠ t.uid) }
    else { r with joining := r.joining.filter (· ≠ t.uid) }
  s0.modS fun c => { c with bars := c.bars.map brk }

/-! ### The banked refresh allowance (R154, R342, R344) -/

/-- Calendar slots of a core that begin before a cycle: one of 4 cycles in each rotation of 1,024 (R342). -/
def slotsBefore (phys t : Nat) : Nat := if t ≤ 4 * phys then 0 else (t - 4 * phys - 1) / 1024 + 1

/-- Slots of a core's declared interval that have passed and are not credited yet (R344): in plumb mode. -/
def Core.rfSlots (c : Core) (now : Nat) : Nat :=
  if c.t.id.plumb then slotsBefore c.phys.toNat (min now c.rfUntil) - slotsBefore c.phys.toNat c.rfFrom else 0

/-- Adds n units to the bank of every channel, up to 8 units each (R344). -/
def State.bankSlots (s : State) (n : Nat) : State :=
  if n = 0 then s
  else s.modS fun k => { k with rfbank := (List.range 384).foldl (fun m ch => Sparse.put 0 m ch (min 8 (Sparse.get 0 m ch + n))) k.rfbank }

/-- The slots of the declared interval that have passed are credited (R344): those of the core in focus, and those of every core. -/
def State.rfCredit (s : State) : State := (s.modC fun c => { c with rfFrom := s.now }).bankSlots (s.core.rfSlots s.now)
def State.rfCreditAll (s : State) : State :=
  s.cores.foldl (fun s c => s.bankSlots (c.rfSlots s.now)) (s.mapCores fun c => if c.rfUntil = 0 then c else { c with rfFrom := s.now })

/-- The declared interval ends, with what has passed of it credited (R154). -/
def State.rfEnd (s : State) : State := s.rfCredit.modC fun c => { c with rfFrom := 0, rfUntil := 0 }

/-! ### The end of a task -/

/-- The core becomes idle: what belongs to the task is discarded (R377). -/
def State.idleCore (s : State) : State :=
  s.rfEnd.modC fun c => { c with running := false, waiting := false, stopped := false, entry := true, epend := [], hold := none,
                                 ckpt := [], t := Task.zero }

/-- Whether a command is in flight: issued and not performed, a CHSEND that waits for its credit too (R329, R349); a COLL is the fabric's. A speculative
atomic that has been sent and not confirmed is none: it has not issued, its addition stays. DEDUCED (log 72). -/
def inFlight (k : Cmd) : Bool := k.issued && !k.done && k.fault.isNone && match k.instr with | .coll .. => false | _ => true

/-- The channel end that a CHSEND in flight goes on with; every other end is released (R349). -/
def endInFlight (l : List Cmd) (n : Nat) (e : ChEnd) : ChEnd :=
  if l.any fun k => (match k.instr with | .chsendFw _ m _ | .chsendRv _ m _ => m.toNat = n | _ => false) then e else ChEnd.zero

/-- The task leaves its core by TEND or JOIN: commands in flight stay with what they work on and complete, the rest is discarded (R329): also a
speculative atomic that has not been confirmed, whose addition the home keeps, since only a reset or a kill takes it back (R200). DEDUCED (log 72). -/
def State.leaveCore (s : State) : State :=
  let t := s.core.t
  let live (l : List Cmd) : List Cmd := l.filter inFlight
  let q : Queues := ⟨live t.q.load, live t.q.compute, live t.q.store⟩
  if q = ⟨[], [], []⟩ then s.idleCore
  else s.idleCore.modC fun c => { c with t := { Task.zero with
    id := t.id, prv := t.prv, regs := t.regs, spill := t.spill, spPois := t.spPois, sys := { TaskSys.zero with fpen := t.sys.fpen }, q := q,
    tin := t.tin, tout := t.tout, vec := t.vec, acc0 := t.acc0, acc1 := t.acc1, rcfg := t.rcfg,
    chans := .ofFn fun n : Fin 8 => endInFlight q.store n t.chans[n] } }

/-- Whether commands of a task that has ended are still in flight on a core (R329). -/
def Core.draining (c : Core) : Bool := !c.running && (!c.t.q.load.isEmpty || !c.t.q.compute.isEmpty || !c.t.q.store.isEmpty)

/-- The PHASE packets of a task are dropped (R377, R127). -/
def State.dropPackets (s : State) (uid : Nat) : State :=
  s.modS fun c => { c with packets := c.packets.filter fun p => p.uid ≠ uid }

/-- Ends of channels that face a core lose their partner (R25, R338, R351), those of saved tasks too: the far end raises CHAN. The partner stands in A of
CHCFG: bits [15:8] the core (R348). -/
def State.loseChannels (s : State) (phys : BitVec 8) : State :=
  let own : Nat := s.plat.podid.toNat % 256
  let lose (t : Task) : Task := { t with chans := t.chans.map fun e =>
    if e.conf && (e.a.extractLsb' 8 8) = phys && (e.a.extractLsb' 0 8).toNat = own then { e with dead := true } else e }
  s.mapAll lose

/-- The quota of a residual stack's entries is freed (R301). -/
def State.freeStack (s : State) (ctx : BitVec 12) (r : RStack) : State :=
  let less (q : Word) (n : Nat) : Word := BitVec.ofNat 40 ((q.extractLsb' 24 40).toNat - n) ++ (q.extractLsb' 0 24)
  if r.h = 0 then s
  else s.modX ctx fun x => { x with qhbm := less x.qhbm ((r.h - r.c).toNat / 64), qcxl := less x.qcxl (r.c.toNat / 64) }

/-- The residual stack's entries are discarded and their quota is freed (R298, R301). -/
def State.dropStack (s : State) : State :=
  (s.freeStack s.cid s.core.t.rstk).modT fun t => { t with rstk := ⟨0, 0, 0, t.rstk.rseq, []⟩ }

/-- Whether a participant entry names a core of a package (R357). -/
def partIs (e pkg phys : Nat) : Bool := e % 256 = pkg && e / 256 % 256 = phys

/-- The endpoint of a request, and the other endpoints it names. -/
def Coll.ep (c : Coll) : Nat := c.req.part.getD c.req.me 0
def Coll.names (c : Coll) (e : Nat) : Bool := c.req.part.contains e

/-- The COLL of endpoint f that one is matched with: as many of f naming its endpoint come before it as of its own endpoint naming f. -/
def collPair (l : List Coll) (c : Coll) (f : Nat) : Option Coll :=
  let mine := l.filter fun d => d.ep = c.ep && d.names f
  let theirs := l.filter fun d => d.ep = f && d.names c.ep
  theirs[mine.idxOf c]?

/-- The collectives that a loss reaches: those it names, those of their groups, and those linked to them by matches that stand (R360). -/
def lostColls (l : List Coll) : Nat → List Coll → List Coll
  | 0, g => g
  | f + 1, g =>
    let pairs (c : Coll) : List Coll := (List.range c.req.part.length).filterMap fun i =>
      if i = c.req.me then none else collPair l c (c.req.part.getD i 0)
    let more := l.filter fun d => !g.contains d && g.any fun c => (pairs c).contains d || (pairs d).contains c
    if more.isEmpty then g else lostColls l f (g ++ more)

/-- Collectives that are not settled end with 0x22, with all that a match links to them (R360). -/
def State.endColls (s : State) (hit : Coll → Bool) : State :=
  let live (c : Coll) : Bool := c.ph ≠ 3 && c.ph ≠ 4 && c.code ≠ 0x21
  let g0 := s.colls.filter fun c => live c && hit c
  let g1 := s.colls.filter fun c => live c && (g0.contains c || c.group ≠ 0 && g0.any fun d => d.group = c.group)
  let g := lostColls (s.colls.filter fun c => c.ph = 0 || c.ph = 4) s.colls.length g1
  { s with colls := s.colls.map fun c => if live c && g.contains c then { c with code := 0x22 } else c }

/-- The collectives of a task that is killed have lost it, and so have those that count its core as a participant (R360, R25). What was not matched yet
stands on for the COLLs that are still to be matched with it. DEDUCED (log 29). -/
def State.loseColls (s : State) (uid : Nat) (phys : BitVec 8) : State :=
  let s1 := s.endColls fun c => c.uid = uid || c.req.part.any fun e => partIs e (s.plat.podid.toNat % 256) phys.toNat
  { s1 with colls := (s1.colls.filter fun c => c.uid ≠ uid || c.ph = 0 || c.ph = 4).map fun c => if c.uid = uid then { c with ph := 4 } else c }

/-- Bytes of an integer TYPE (R188, R191). -/
def atomBytes (ty : BitVec 4) : Nat :=
  match ty.toNat with
  | 0 => 1 | 1 => 2 | 2 => 4 | 3 => 8 | 6 => 2 | 7 => 2 | 8 => 4 | _ => 8

/-- The home takes v back from n bytes (R200): it adds -v. -/
def State.takeBack (s : State) (pa n v : Nat) : State := s.homeWriteLe pa n ((s.homeLe pa n + 2 ^ (8 * n) - v % 2 ^ (8 * n)) % 2 ^ (8 * n))

/-- The home takes back the speculative atomics that were performed and not confirmed (R200), of a tensor command each element that was performed. -/
def State.undoSpec (s : State) : State :=
  s.core.t.q.store.foldl (fun s k =>
    match k.instr with
    | .awr _ f _ _ _ _ => match k.ph, k.got with
      | 3, pa :: _ => s.takeBack pa (atomBytes f.ty) (k.vals.getD 1 0).toNat
      | _, _ => s
    | .awrT _ f .. =>
      let n := atomBytes f.ty
      if k.issued then s
      else (List.range k.got.length).foldl (fun s i => s.takeBack (k.got.getD i 0) n (leNat ((k.res.drop (n * i)).take n))) s
    | _ => s) s

/-- Kill of the task of the core in focus (R377). DEDUCED (log 31). -/
def State.kill (s : State) : State :=
  if !s.core.running then s
  else
    let t := s.core.t.id
    let s := (s.undoSpec.dropStack).loseColls t.uid s.core.phys
    let s := s.dropPackets t.uid
    let s := s.breakAll t s.core.phys
    let s := s.loseChannels s.core.phys
    let s := s.decJoinOrPost t.ctx t.launch t.parent t.lid
    (s.taskGone t.launch).idleCore

end Sys2Proof.Machine
end

