-- ==== Sys2Proof/Machine/Ops.lean ====
section
/-! DEFINITION. Taking a trap and returning from one (15_traps_reliability.md R369 to R373), transfers (R33, R103), debug halts (R383),
the record log (R385, R386), and how a meaning becomes an outcome. -/

namespace Sys2Proof.Machine

/-! ### Debug halt (R373, R383) -/

/-- The core halts: issue and engines stop while DBGST.HALTED is set, DBGST says why (R383, R384). -/
def State.halt (s : State) (dblf div : Bool) : State :=
  let h (k : Health) : Health := { k with halted := true, haltReq := false, cause := 0x32, dblf := dblf, div := div }
  s.modC fun c => { c with waiting := false, health := h c.health }

/-- Whether a copy that writes the core's own WB or AB is under way (R383): it has issued, is not done and has not stopped at a fault. -/
def copyOn (k : Cmd) : Bool :=
  k.kind = .fwd && k.issued && !k.done && k.fault.isNone && match k.instr with
    | .fard _ sp _ _ _ _ _ => sp != .g
    | .copyIn .. | .fillIn .. | .gthr .. => true
    | _ => false

/-- Whether such a copy is under way on a core. -/
def Core.copying (c : Core) : Bool := c.t.q.load.any copyOn

/-- The core stops for a halt: at once, or, while such a copy is under way, when it has run to completion and CORE_HALTED acknowledges (R383). DEDUCED (log 53). -/
def State.askHalt (s : State) (dblf div : Bool) : State :=
  if s.core.copying then
    s.modC fun c => { c with waiting := false, health := { c.health with haltReq := true, dblf := dblf, div := div } }
  else s.halt dblf div

/-! ### Pending engine faults (R371) -/

/-- Whether a queue of the core holds a command that the checker has not compared (R16, R108). -/
def Core.uncompared (c : Core) : Bool :=
  (c.t.q.load ++ c.t.q.compute ++ c.t.q.store).any fun k => !k.compared

/-- The state after the last committed instruction (R110): the commands that have not been compared leave their queues with their numbers, the
registers, the PC and the block are those before the first instruction that routed one of them, and a withheld action is discarded. What has issued is
not affected. -/
def Core.uncommit (c : Core) : Core :=
  match c.ckpt with
  | [] => { c with hold := none }
  | k :: _ =>
    let t := c.t
    let keep (l : List Cmd) : List Cmd := l.filter (·.compared)
    let tls : Timelines :=
      { l := ⟨k.tls.l.i, t.tls.l.v⟩, c := ⟨k.tls.c.i, t.tls.c.v⟩, s := ⟨k.tls.s.i, t.tls.s.v⟩, x := ⟨k.tls.x.i, t.tls.x.v⟩,
        coll := .ofFn fun n : Fin 16 => ⟨k.tls.coll[n].i, t.tls.coll[n].v⟩ }
    { c with hold := none, ckpt := [], waiting := false, entry := k.entry,
             t := { t with pc := k.pc, q := ⟨keep t.q.load, keep t.q.compute, keep t.q.store⟩, tls := tls, blk := k.blk, walk := k.walk,
                           collN := k.collN,
                           regs := { t.regs with s := k.s, spois := k.spois, d := k.d, dpois := k.dpois } } }

/-- Undelivered faults of the core: those the stopped commands hold and those of units without a command. -/
def Core.pendingFaults (c : Core) : List FaultInfo :=
  (c.t.q.load ++ c.t.q.compute ++ c.t.q.store ++ c.t.frames).filterMap (·.fault) ++ c.epend

/-- The order of R371: ascending unit, then lowest code. -/
def faultLt (a b : FaultInfo) : Bool := a.unit.toNat < b.unit.toNat || (a.unit = b.unit && a.code.toNat < b.code.toNat)

/-- The fault that is delivered next (R371). -/
def Core.nextFault (c : Core) : Option FaultInfo :=
  c.pendingFaults.foldl (fun b f => match b with | none => some f | some g => if faultLt f g then some f else some g) none

/-- Removes a fault that has been delivered. -/
def State.clearFault (s : State) (f : FaultInfo) : State :=
  let cl (l : List Cmd) := l.map fun k => if k.fault = some f then { k with fault := none } else k
  s.modC fun c => { c with epend := c.epend.filter (· ≠ f),
                           t := { c.t with frames := cl c.t.frames, q := ⟨cl c.t.q.load, cl c.t.q.compute, cl c.t.q.store⟩ } }

/-! ### Transfers (R33, R103) -/

/-- Whether a granule holds a BLKB (R28). -/
def isBlkb (w : Word) : Bool := w.extractLsb' 0 14 == 0x2C

/-- The checks of R103 steps 2 to 4 on a target: `some code` raises it at the transfer, with no effect; `none` lets the transfer take
effect, a fault of the target's line (steps 2 and 3) then being raised at the target. -/
def targetCheck (t : Word) (s : State) : State × Option (BitVec 8) :=
  match fetchLine t s with
  | .error (_, s') => (s', none)
  | .ok (b, s') =>
    let h := lineGran b 0
    let g := granuleOf t
    if lineBad b then (s', none)
    else if hdrKind h == 2 then (s', some cBRTGT)
    else if hdrKind h == 1 && s.core.t.blk.isNone && !(g == 1 && isBlkb (lineGran b 1)) then (s', none)
    else if g == 0 || !tgtAt h g then (s', some cBRTGT)
    else (s', none)

/-- Whether the fetch of a line is held (R154). -/
def lineHeld (t : Word) (s : State) : Bool := match fetchLine t s with | .error (.wait, _) => true | _ => false

/-- Transfer(t) of a control-flow instruction (R103). -/
def transfer (t : Word) (reg : Bool) : M Unit := do
  failIf (reg && t.extractLsb' 0 3 != 0) (.at cALIGN t)
  let s ← now
  if lineHeld t s then wait else pure ()
  let (s', r) := targetCheck t s
  match r with
  | some c => raise (.cc c)
  | none => upd fun _ => s'.jump t

/-! ### Taking a trap (R369, R370, R373, R377) -/

/-- TCAUSE of a fault (R368). -/
def FaultInfo.tcause (f : FaultInfo) : Word :=
  f.info ++ ((0 : BitVec 16) ++ (BitVec.ofBool f.va.isSome ++ (f.lvl ++ (f.unit ++ f.code))))

/-- The counters a trap advances (R380): MCHK traps, POISON traps; saturating. -/
def Health.count (h : Health) (i : Fin 6) : Health :=
  { h with cnt := h.cnt.set i (if h.cnt[i] = BitVec.allOnes 64 then h.cnt[i] else h.cnt[i] + 1) }

/-- The instructions that start in n lines from an address on, counted from a on and below b (R27, R34): each line as the core holds it or as it
stands at home. None where a line cannot be read. -/
def startsIn (s : State) (a b : Word) : Nat → Word → Option Nat
  | 0, _ => some 0
  | n + 1, l =>
    match (translate s s.cid l .x (!s.core.t.prv)) with
    | (_, .error _) => none
    | (s1, .ok x) =>
      let h := lineGran ((Sparse.find s1.core.icache (x.pa / 128)).getD (s1.homeLine (x.pa / 128))) 0
      let k := ((List.range 15).filter fun i =>
        h.getLsbD i && a.toNat ≤ l.toNat + 8 * (i + 1) && l.toNat + 8 * (i + 1) < b.toNat).length
      (startsIn s a b n (l + 128)).map (· + k)

/-- How many instructions stand from a to b; none where that cannot be read, or is more than a block can span (R290). -/
def startsFrom (s : State) (a b : Word) : Option Nat :=
  let n := ((lineOf b).toNat - (lineOf a).toNat) / 128 + 1
  if 64 < n then none else startsIn s a b n (lineOf a)

/-- An open block as ERET takes it up again at a PC (R290): its next ordinal is the position of the instruction there (R297), whichever PC the
handler has left in TPC. DEDUCED (log 25). -/
def Block.resumed (b : Block) (s : State) (pc : Word) : Block :=
  if b.pct = pc then b
  else if b.pct.toNat ≤ pc.toNat then { b with ord := b.ord + (startsFrom s b.pct pc).getD 0 }
  else { b with ord := b.ord - (startsFrom s pc b.pct).getD 0 }

/-- A fault of the running task with the PC to save (R369): in a handler the core halts; with no handler the task is killed and the
record goes to system software; else the trap registers are written and control passes to TVEC at system level. An uncorrectable error in control
state makes the context's image invalid (R379). -/
def takeTrap (f : FaultInfo) (pc : Word) (s : State) : State :=
  if s.core.t.sys.inTrap then s.askHalt true false
  else
    let s := if f.code = cPOISON then s.modH (·.count 3) else if f.code = cMCHK then s.modH (·.count 1) else s
    let tvec := s.cx.tvec &&& 0x01FFFFFFFFFFFFF8#64
    if tvec = 0 then
      let t := s.core.t.id
      (s.kill).postFault f.code t.ctx f.tcause pc f.upc (f.va.getD 0) f.tl t.lid
    else
      let s := s.modC fun c => { c with stopped := true, waiting := false, hold := none }
      let dead := f.code == cMCHK && f.info == 2
      let s := s.modT fun t => { t with
        trapEnt := if s.core.entry then some pc else none, valid := t.valid && !dead,
        prv := true, savedBlk := t.blk.map fun b => { b with pct := pc }, blk := none,
        sys := { t.sys with tprv := t.prv, tblk := t.blk.isSome, tpc := pc, tcause := f.tcause, tupc := f.upc, ttl := f.tl,
                            tva := f.va.getD 0, inTrap := true } }
      match targetCheck tvec s with
      | (s', some _) => s'.askHalt true false
      | (s', none) => s'.jump tvec

/-- Return from a trap (R372): privilege, open block, PC, the engines resume; a pending fault is taken at once. A BARAW that waited is resumed only where the
PC stands at it again (R336). The instruction at the saved PC is
still one reached by an entry if it was when the trap was taken (R28). DEDUCED (log 11). -/
def returnTrap (s : State) : State :=
  let y := s.core.t.sys
  let s := s.modT fun t => { t with prv := y.tprv }
  let s := s.modT fun t => { t with
    blk := if y.tblk then t.savedBlk.map (·.resumed s y.tpc) else t.blk, savedBlk := none, pc := y.tpc, barw := t.barw.filter (·.1 = y.tpc),
    sys := { t.sys with inTrap := false } }
  let s := s.modC fun c => { c with stopped := false, waiting := false,
                                    entry := decide (granuleOf y.tpc = 1) || decide (s.core.t.trapEnt = some y.tpc) }
  match s.core.nextFault with
  | some f => takeTrap f s.core.t.pc (s.clearFault f)
  | none => s

/-! ### Outcomes -/

/-- What a meaning answers. -/
abbrev Out := Host.Outcome State Fault Refusal

/-- Runs a computation as one instruction: a fault takes the trap from the state before the instruction (R7, R12), or from the state reached where the
rule keeps its effects; a wait leaves the PC at the instruction. DEDUCED (log 9). -/
def runM (s : State) (m : M Unit) : Out :=
  match m s with
  | .ok (_, s') => .next s'
  | .error (.fault f, s') => .next (takeTrap f s.core.t.pc (keepFills s s'))
  | .error (.late f, s') => .next (takeTrap f s'.core.t.pc s')
  | .error (.wait, s') => .next ((keepFills s s').modC fun c => { c with waiting := true })
  | .error (.stay, s') => .next s'

/-- What forbids an instruction of the control core where it stands (R37, R104, R120, R146, R291, R367): its privilege, or an open block. -/
def forbidden (s : State) (priv : Bool) : Option (BitVec 8) :=
  if priv && !s.core.t.prv then some cPRIV else if s.core.t.blk.isSome then some cBLKOP else none

/-- An instruction that is forbidden reports the lowest of the codes that it meets: that of the rule that forbids it, or of a fault of its own
with a lower one (R12, R37, R291); none of its effects takes place. DEDUCED (log 10). -/
def unlessLower (c : Option (BitVec 8)) (m : M Unit) : M Unit := fun s =>
  match c with
  | none => m s
  | some c => match m s with
    | .error (.fault f, s') | .error (.late f, s') =>
      if f.code.toNat < c.toNat then .error (.fault f, s') else .error (.fault (.cc c), s)
    | _ => .error (.fault (.cc c), s)

/-- A control-core instruction forbidden inside a block, and at task level where it is privileged. DEDUCED (log 10). -/
def cc (s : State) (priv : Bool) (m : M Unit) : Out := runM s (unlessLower (forbidden s priv) m)

/-- As `cc`, and the PC moves on to the next instruction, one granule further. -/
def ccNext (s : State) (priv : Bool) (m : M Unit) : Out := cc s priv (do m; upd (·.advance 1))

/-- Whether a dirty byte of the lines a predicate selects would be requested where requests are held (R154). -/
def State.heldDirty (s : State) (sel : Nat → Bool) : Bool := s.core.t.view.dirty.any fun p => sel (p.1 / 128) && s.rfHeld p.1

/-- COMMIT over selected lines as an instruction performs it: a refusal is raised with the applied bytes in place (R180); a write that is held waits. -/
def commitSelM (sel : Nat → Bool) : M Unit := fun s =>
  if s.heldDirty sel then .error (.wait, s)
  else match s.commitSel sel with
  | (s', none) => .ok ((), s'.modT fun t => { t with pend := { t.pend with refused := none } })
  | (s', some c) => .error (.late (.cc c), s'.modT fun t => { t with pend := { t.pend with refused := some c } })

/-- COMMIT as an instruction performs it. -/
def commitM : M Unit := commitSelM fun _ => true

/-! ### The policy operand (R114) -/

/-- CheckPolicy: a non-zero bit of [31:26] raises ILLOP. -/
def checkPolicy (p : Word) : M Unit := failIf (p.extractLsb' 26 6 != 0) (.cc cILLOP)

/-! ### Record and replay (R385, R386) -/

/-- Appends a 64-byte entry to a context's record log (R385). -/
def State.rrAppend (s : State) (ctx : BitVec 12) (e : List Byte) : State :=
  let x := s.ctx ctx
  let n := (x.rrbase.extractLsb' 0 6).toNat
  if x.rrctl.extractLsb' 0 2 != 1 || n = 0 || x.rrst.getLsbD 0 then s
  else
    let next := (x.rrst.extractLsb' 32 32).toNat
    if 2 ^ n ≤ next then s.modX ctx fun x => { x with rrst := x.rrst ||| 1 }
    else
      let va := (x.rrbase &&& 0x01FFFFFFFFFFF000#64) + BitVec.ofNat 64 (64 * next)
      let (s, ok) := s.deviceWrite ctx va e
      if !ok then (s.modX ctx fun x => { x with rrst := x.rrst ||| 1 }).postDrop ctx 2 va
      else
        s.modX ctx fun x => { x with rrst := BitVec.ofNat 64 ((next + 1) * 2 ^ 32) ||| (x.rrst &&& 2) |||
                                       (if 2 ^ n ≤ next + 1 then 1 else 0) }

/-- An entry of the log (R385): kind, byte 1, bytes 2 and 3, STEP, TCYC, bytes 16 to 23, bytes 32 to 63. -/
def rrEntry (kind b1 : Nat) (h : Nat) (step : Nat) (tcyc : Nat) (w : Word) (rest : List Byte) : List Byte :=
  leBytes 1 kind ++ leBytes 1 b1 ++ leBytes 2 h ++ leBytes 4 step ++ leBytes 8 tcyc ++ leBytes 8 w.toNat ++ leBytes 8 0 ++
  (rest ++ List.replicate 32 0).take 32

/-- The launch of a context that has been dispatched: the oldest one. DEDUCED (log 54). -/
def State.rrLaunch (s : State) (ctx : BitVec 12) : Option Launch := s.sched.launches.find? fun l => l.ctx = ctx && l.started

/-- STEP and TCYC of a launch (R385): its completed steps, and in plumb mode the cycles since its dispatch; 0 without one. -/
def Launch.rrStep (l : Option Launch) : Nat := (l.map (·.steps)).getD 0
def Launch.rrTcyc (l : Option Launch) (now : Nat) : Nat :=
  match l with
  | some l => if l.started && (l.image.getD 29 0).toNat = 1 then now - l.disp else 0
  | none => 0

/-- A log entry's bytes (R386), where the log can be read. -/
def State.rrRead (s : State) (ctx : BitVec 12) (i : Nat) : Option (List Byte) :=
  let x := s.ctx ctx
  let n := (x.rrbase.extractLsb' 0 6).toNat
  if n = 0 || 2 ^ n ≤ i then none
  else match translate s ctx ((x.rrbase &&& 0x01FFFFFFFFFFF000#64) + BitVec.ofNat 64 (64 * i)) .r false with
    | (_, .ok t) => some (s.homeBytes t.pa 64)
    | _ => none

/-- The core's next kind-4 entry from an index on, among the entries of the log (R386). -/
def State.rrNext4 (s : State) (ctx : BitVec 12) : Nat → Nat → Option (Nat × List Byte)
  | 0, _ => none
  | fuel + 1, i =>
    match s.rrRead ctx i with
    | none => none
    | some e =>
      if (e.headD 0).toNat = 0 then none
      else if (e.headD 0).toNat = 4 && leNat ((e.drop 2).take 2) = s.core.phys.toNat then some (i, e)
      else s.rrNext4 ctx fuel (i + 1)

/-- The next log entry of a kind from an index on, with its index. -/
def State.rrNextKind (s : State) (ctx : BitVec 12) (kind : Nat) : Nat → Nat → Option (Nat × List Byte)
  | 0, _ => none
  | fuel + 1, i =>
    match s.rrRead ctx i with
    | none => none
    | some e => if (e.headD 0).toNat = kind then some (i, e) else s.rrNextKind ctx kind fuel (i + 1)

/-- The next entry of kind 1, 2 or 3 of the running context, past those already taken. -/
def State.rrTake (s : State) (ctx : BitVec 12) (kind : Fin 6) : Option (Nat × List Byte) :=
  let x := s.ctx ctx
  if x.rrctl.extractLsb' 0 2 = 2 then
    s.rrNextKind ctx kind (2 ^ (x.rrbase.extractLsb' 0 6).toNat) x.rpos[kind]
  else none

/-- A captured value (R109) of source `src` (class and OP): recorded in record mode, taken from the log in replay mode, where a
divergence halts the core (R385, R386). DEDUCED (log 34). -/
def capture (src : Nat) (v : Word) (k : Word → M Unit) : M Unit := fun s =>
  let x := s.cx
  match (x.rrctl.extractLsb' 0 2).toNat with
  | 1 => k v (s.rrAppend s.cid (rrEntry 4 src s.core.phys.toNat 0 0 v []))
  | 2 =>
    match s.rrNext4 s.cid (2 ^ (x.rrbase.extractLsb' 0 6).toNat) (Sparse.get 0 x.rcore s.core.phys.toNat) with
    | some (i, e) =>
      if (e.getD 1 0).toNat = src then
        k (BitVec.ofNat 64 (leNat ((e.drop 16).take 8))) (s.modX s.cid fun x => { x with rcore := Sparse.put 0 x.rcore s.core.phys.toNat (i + 1) })
      else .error (.stay, (s.modX s.cid fun x => { x with rrst := x.rrst ||| 2 }).askHalt false true)
    | none => .error (.stay, (s.modX s.cid fun x => { x with rrst := x.rrst ||| 2 }).askHalt false true)
  | _ => k v s

end Sys2Proof.Machine
end

