-- ==== Sys2Proof/Machine/Operands.lean ====
section
/-! DEFINITION. Operands of the engines: descriptors and the tiles they name (02_encoding.md R40, 03_formats.md R60 to R67, R76), the
typed buffers with their poison and tier-failed marks (01_machine.md R13, R17; R118, R169, R378), spill memory and global memory as
engines reach them (R133). -/

namespace Sys2Proof.Machine

/-! ### Descriptor fields (R40) -/

def dSpace (d : Desc) : Nat := (d.extractLsb' 0 2).toNat
def dOobm (d : Desc) : OobMode :=
  match (d.extractLsb' 2 2).toNat with | 0 => .trap | 1 => .zero | 2 => .mirrorE | _ => .mirrorN
def dColmaj (d : Desc) : Bool := d.getLsbD 4
def dSpl (d : Desc) : Bool := d.getLsbD 5
def dTag (d : Desc) : FTag := d.extractLsb' 16 16
def dBase (d : Desc) : Nat := (d.extractLsb' 32 57).toNat
def dRows (d : Desc) : Nat := (d.extractLsb' 96 16).toNat
def dCols (d : Desc) : Nat := (d.extractLsb' 112 16).toNat
def dStride (d : Desc) : Nat := (d.extractLsb' 128 32).toNat
def dSpb (d : Desc) : Nat := (d.extractLsb' 160 57).toNat

/-! ### Tag fields (R64, R65) -/

def tFmt (t : FTag) : BitVec 4 := t.extractLsb' 0 4
def tDom (t : FTag) : Nat := (t.extractLsb' 4 2).toNat
def tG (t : FTag) : Bool := t.getLsbD 6
def tBcode (t : FTag) : Nat := (t.extractLsb' 8 3).toNat
def tExp (t : FTag) : Nat := (t.extractLsb' 11 5).toNat

/-- Whether a tag is well formed (R65). -/
def tagWf (t : FTag) : Bool :=
  let f := tFmt t
  f != 0xE && f != 0xF && !t.getLsbD 7 && tDom t ≤ 1 && tBcode t ≤ 5 &&
  (tDom t != 0 || t.extractLsb' 8 8 == 0) &&
  (tDom t != 1 || f == 6 || f == 7 || f == 8 || f == 0xB) && (f != 0 || t == 0)

/-- A format code of a descriptor. -/
def dFmt (d : Desc) : BitVec 4 := tFmt (dTag d)

/-! ### Layout of a tile (R62) -/

/-- Lines of a tile, and positions in a line. -/
def dLines (d : Desc) : Nat := if dColmaj d then dCols d else dRows d
def dPos (d : Desc) : Nat := if dColmaj d then dRows d else dCols d

/-- Bits per element: entries of 7 bytes in CB (R60). -/
def dBits (d : Desc) : Nat := if dSpace d = 2 then 56 else elemBits (dFmt d)

/-- Bytes of one line. -/
def dLineBytes (d : Desc) : Nat := (dPos d * dBits d + 7) / 8

/-- Bytes from BASE to the end of the last line. -/
def dSpan (d : Desc) : Nat := (dLines d - 1) * dStride d + dLineBytes d

/-- Line and position of the logical element (r, c). -/
def dPlace (d : Desc) (r c : Nat) : Nat × Nat := if dColmaj d then (c, r) else (r, c)

/-- Bit offset of the logical element (r, c) from BASE. -/
def dBitOff (d : Desc) (r c : Nat) : Nat :=
  let (l, p) := dPlace d r c
  8 * (l * dStride d) + p * dBits d

/-- The number of groups of a weight tile and the address of a group's scale (R63). -/
def dScaleAt (d : Desc) (g c : Nat) : Nat := dSpb d + 2 * (g * dCols d + c)

/-- Capacity of a buffer space in bytes (R76). -/
def spaceBytes : Nat → Nat
  | 0 => Config.wbBytes
  | 1 => Config.abBytes
  | _ => Config.cbBytes

/-- Whether a tag code is a weight format (R61). -/
def isWeight (f : BitVec 4) : Bool := f == 9 || f == 0xA

/-! ### Byte ranges -/

/-- The byte ranges of a tile: one per line (space, start, length), and the scale plane. -/
def dRanges (d : Desc) : List (Nat × Nat) :=
  (List.range (dLines d)).map (fun j => (dBase d + j * dStride d, dLineBytes d)) ++
  (if isWeight (dFmt d) && dSpl d then [(dSpb d, 2 * (dRows d / 32 * dCols d))] else [])

/-- Whether two ranges share a byte. -/
def rangeMeets (a b : Nat × Nat) : Bool := a.1 < b.1 + b.2 && b.1 < a.1 + a.2 && a.2 != 0 && b.2 != 0

/-- Whether two tiles share a byte. -/
def tilesMeet (a b : Desc) : Bool :=
  dSpace a == dSpace b && (dRanges a).any fun x => (dRanges b).any fun y => rangeMeets x y

/-- Bytes of CB that hold the visible banks, and whether a CB tile meets them, or reaches beyond them (R243). -/
def visBytes : Nat := 7 * 32768
def meetsVisible (d : Desc) : Bool := dSpace d == 2 && (dRanges d).any fun r => rangeMeets r (0, visBytes)
def beyondVisible (d : Desc) : Bool := dSpace d == 2 && (dRanges d).any fun r => visBytes < r.1 + r.2

/-- Whether two tiles coincide exactly (R76). -/
def tilesSame (a b : Desc) : Bool :=
  dSpace a == dSpace b && dBase a == dBase b && dStride a == dStride b && dBits a == dBits b && dColmaj a == dColmaj b

/-- Whether a tile lies inside its buffer, its scale plane included (R76). -/
def tileFits (d : Desc) : Bool := (dRanges d).all fun r => r.1 + r.2 ≤ spaceBytes (dSpace d)

/-- The residual stack's top region in AB (R296). -/
def topRange (t : Task) : Nat × Nat := (t.rcfg.ab.toNat, t.rcfg.absz.toNat)

/-! ### ILLOP, ALIGN, TAGMIS and OOB of one tile operand (R60 to R63, R67, R76) -/

/-- The ILLOP rules of one tile: its space, non-zero ROWS and COLS, the stride, the scale plane. -/
def tileIllop (d : Desc) (spaces : List Nat) : Bool :=
  !spaces.contains (dSpace d) || dRows d == 0 || dCols d == 0 ||
  (dStride d < dLineBytes d) ||
  (if isWeight (dFmt d) then dRows d % 32 != 0 || !dSpl d || dSpb d % 2 != 0 else dSpl d)

/-- The ALIGN rules of one tile (R60, R62). -/
def tileAlign (d : Desc) : Bool :=
  if dSpace d = 2 then dBase d % 7 != 0 || dStride d % 7 != 0
  else dBits d ≥ 8 && dBase d % (dBits d / 8) != 0

/-- A tag that no use with an element size admits (R65, R67), or a CB tile of another format than FA56 (R60). -/
def tileTagBad (d : Desc) : Bool := !tagWf (dTag d) || dFmt d == 0 || (dSpace d == 2 && dFmt d != 0xB)

/-- The operand checks of R76 over the tiles of a command, the lowest code first (R12). -/
def operandFault (l : List (Desc × List Nat)) (extraIllop : Bool) : Option (BitVec 8) :=
  if (l.any fun x => tileIllop x.1 x.2) || extraIllop then some cILLOP
  else if l.any fun x => tileAlign x.1 then some cALIGN
  else if l.any fun x => tileTagBad x.1 then some cTAGMIS
  else if l.any fun x => !tileFits x.1 then some cOOB
  else none

/-! ### Buffers (R13, R118, R169) -/

/-- The bytes of WB or AB. -/
def Buffers.mem (b : Buffers) (sp : Nat) : Sparse Byte := if sp = 0 then b.wb else b.ab
def Buffers.pois (b : Buffers) (sp : Nat) : List Nat := match sp with | 0 => b.wbPois | 1 => b.abPois | _ => b.cbPois
def Buffers.fail (b : Buffers) (sp : Nat) : List Nat := match sp with | 0 => b.wbFail | 1 => b.abFail | _ => b.cbFail

/-- Replaces a buffer's contents and marks. -/
def Buffers.put (b : Buffers) (sp : Nat) (m : Sparse Byte) (p f : List Nat) : Buffers :=
  match sp with
  | 0 => { b with wb := m, wbPois := p, wbFail := f }
  | 1 => { b with ab := m, abPois := p, abFail := f }
  | _ => { b with cbPois := p, cbFail := f }

/-- n bytes of WB (0) or AB (1); of CB (2) as 8-byte containers, one entry each (R60). -/
def Buffers.read (b : Buffers) (sp off n : Nat) : List Byte :=
  if sp = 2 then (List.range (n / 8)).flatMap fun i => leBytes 8 (Sparse.get 0 b.cb (off / 7 + i)).toNat
  else readBytes (b.mem sp) off n

/-- The mark words that n bytes touch: 8-byte words, in CB entries. -/
def markWords (sp off n : Nat) : List Nat :=
  if sp = 2 then (List.range (n / 8)).map fun i => off / 7 + i
  else (List.range ((off % 8 + n + 7) / 8)).map fun i => off / 8 + i

/-- Whether the bytes touch a marked word. -/
def Buffers.isPois (b : Buffers) (sp off n : Nat) : Bool := (markWords sp off n).any fun w => setHas (b.pois sp) w
def Buffers.isFail (b : Buffers) (sp off n : Nat) : Bool := (markWords sp off n).any fun w => setHas (b.fail sp) w

/-- Writes bytes into WB or AB: a word that is replaced whole loses its marks (R118, R169). -/
def Buffers.write (b : Buffers) (sp off : Nat) (bs : List Byte) : Buffers :=
  let lo := (off + 7) / 8
  let hi := (off + bs.length) / 8
  let keep (l : List Nat) := l.filter fun w => w < lo || hi ≤ w
  b.put sp (writeBytes (b.mem sp) off bs) (keep (b.pois sp)) (keep (b.fail sp))

/-- Marks words of a buffer. -/
def Buffers.markPois (b : Buffers) (sp off n : Nat) : Buffers :=
  b.put sp (b.mem sp) ((markWords sp off n).foldl setIns (b.pois sp)) (b.fail sp)
def Buffers.markFail (b : Buffers) (sp off n : Nat) : Buffers :=
  b.put sp (b.mem sp) (b.pois sp) ((markWords sp off n).foldl setIns (b.fail sp))

/-- Writes one CB entry, whole. -/
def Buffers.putCb (b : Buffers) (e : Nat) (x : FA56) : Buffers :=
  { b with cb := Sparse.put 0 b.cb e x, cbPois := setDel b.cbPois e, cbFail := setDel b.cbFail e }

/-! ### Elements of a tile -/

/-- The pattern of the logical element (r, c). -/
def Buffers.elem (b : Buffers) (d : Desc) (r c : Nat) : Nat :=
  let o := dBitOff d r c
  let n := dBits d
  if dSpace d = 2 then (Sparse.get 0 b.cb (dBase d / 7 + o / 56)).toNat
  else if n ≥ 8 then leNat (b.read (dSpace d) (dBase d + o / 8) (n / 8)) % (if n = 64 then 2 ^ 56 else 2 ^ n)
  else (leNat (b.read (dSpace d) (dBase d + o / 8) 2) >>> (o % 8)) % 2 ^ n

/-- Start and length of the bytes of an element, as `isPois` takes them. -/
def dElemAt (d : Desc) (r c : Nat) : Nat × Nat :=
  let o := dBitOff d r c
  if dSpace d = 2 then (dBase d + o / 8, 8) else (dBase d + o / 8, (o % 8 + dBits d + 7) / 8)

/-- Whether an element's word is poisoned, or tier-failed. -/
def Buffers.elemPois (b : Buffers) (d : Desc) (r c : Nat) : Bool := let (a, n) := dElemAt d r c; b.isPois (dSpace d) a n
def Buffers.elemFail (b : Buffers) (d : Desc) (r c : Nat) : Bool := let (a, n) := dElemAt d r c; b.isFail (dSpace d) a n

/-- Writes the pattern of an element of a tile in WB or AB. -/
def Buffers.putElem (b : Buffers) (d : Desc) (r c x : Nat) : Buffers :=
  let o := dBitOff d r c
  let n := dBits d
  let a := dBase d + o / 8
  if n ≥ 8 then b.write (dSpace d) a (leBytes (n / 8) x)
  else
    let k := (o % 8 + n + 7) / 8
    let old := leNat (b.read (dSpace d) a k)
    let keep := old - ((old >>> (o % 8)) % 2 ^ n) * 2 ^ (o % 8)
    b.write (dSpace d) a (leBytes k (keep + (x % 2 ^ n) * 2 ^ (o % 8)))

/-- The code of a weight and its value with its group's scale (R61): NaN and the invalid flag for a reserved code, a NaN scale, or an
infinite scale times zero. Code 0 under a negative scale is -0, the product of the signs. DESIGN CHOICE (log 69). -/
def weightVal (f : BitVec 4) (code scale : Nat) : Num × FFlags :=
  let w := if f == 9 then 4 else 3
  let c := intOf w true code
  if c = -(2 ^ (w - 1) : Nat) then (.nan, fV)
  else match bf16.decode scale with
    | .nan => (.nan, fV)
    | v => let (p, fl) := Num.mul (.ofInt c) v; (p, fl)

/-! ### The language of engine commands -/

/-- Why a command does not go on: a fault, a wait for something outside it, an enabled flag, or an end with a status (R176: CODE and TIER). -/
inductive EStop where
  | fault (code : BitVec 8) (va : Option Word) (lvl : BitVec 3)
  | wait
  | fpx
  | status (code : BitVec 8) (tier : BitVec 4)
  deriving DecidableEq, Repr

/-- A piece of a command: it takes its effect whole or not at all. -/
abbrev E (α : Type) := StateT State (Except EStop) α

/-- Raises a fault at the micro-PC of the piece. -/
def efail {α : Type} (c : BitVec 8) : E α := fun _ => .error (.fault c none 0)

/-- Raises a fault with its address. -/
def efailAt {α : Type} (c : BitVec 8) (va : Word) (lvl : BitVec 3 := 0) : E α := fun _ => .error (.fault c (some va) lvl)

/-- Raises a fault when the condition holds. -/
def efailIf (b : Bool) (c : BitVec 8) : E Unit := if b then efail c else pure ()

/-- Waits. -/
def ewait {α : Type} : E α := fun _ => .error .wait

/-- Reads the state. -/
def enow : E State := fun s => .ok (s, s)

/-- Applies an update. -/
def eupd (f : State → State) : E Unit := fun s => .ok ((), f s)

/-- Raises the fault a check found. -/
def echeck (o : Option (BitVec 8)) : E Unit := match o with | some c => efail c | none => pure ()

/-- Reads an element that an engine consumes: POISON and TIERERR (R77, R118, R169). -/
def eElem (d : Desc) (r c : Nat) : E Nat := do
  let s ← enow
  efailIf (s.core.buf.elemFail d r c) cTIERERR
  efailIf (s.core.buf.elemPois d r c) cPOISON
  pure (s.core.buf.elem d r c)

/-- Reads bytes of a buffer that an engine consumes. -/
def eBytes (sp off n : Nat) : E (List Byte) := do
  let s ← enow
  efailIf (s.core.buf.isFail sp off n) cTIERERR
  efailIf (s.core.buf.isPois sp off n) cPOISON
  pure (s.core.buf.read sp off n)

/-- The value of an element, a weight with its scale; with the flags of the read (R61). -/
def eVal (d : Desc) (r c : Nat) : E (Num × FFlags) := do
  let x ← eElem d r c
  if isWeight (dFmt d) then
    let sc ← eBytes (dSpace d) (dScaleAt d (r / 32) c) 2
    pure (weightVal (dFmt d) x (leNat sc))
  else pure (elemVal (dFmt d) x, 0)

/-- Writes an element. -/
def ePut (d : Desc) (r c x : Nat) : E Unit := eupd fun s => s.modB fun b => b.putElem d r c x

/-- Ends the command with a status. -/
def eend {α : Type} (code : BitVec 8) (tier : BitVec 4) : E α := fun _ => .error (.status code tier)

/-- Translation of an engine access of the task; a request that is held waits (R154). DEDUCED (log 43). -/
def exlate (va : Word) (a : Acc) : E Xl := fun s =>
  match translate s s.cid va a (!s.core.t.prv) with
  | (s', .ok x) => if s'.rfHeld x.pa then .error .wait else .ok (x, s')
  | (_, .error (c, l)) => .error (.fault c (some va) (BitVec.ofNat 3 l))

/-! ### Global memory (R133, R168, R169) -/

/-- A byte in transit: its value, whether its word is poisoned, whether its tier failed to deliver it. -/
structure GByte where
  b : Byte
  pois : Bool
  fail : Bool
  deriving DecidableEq, Repr

/-- The pieces of an access that lie in one page each: address, translation, length. -/
def ePieces (a : Acc) : Nat → Word → Nat → E (List (Word × Xl × Nat))
  | 0, _, _ => pure []
  | f + 1, va, n => do
    if n = 0 then pure []
    else
      let m := min n (4096 - va.toNat % 4096)
      let x ← exlate va a
      pure ((va, x, m) :: (← ePieces a f (va + BitVec.ofNat 64 m) (n - m)))

/-- The pieces of n bytes. -/
def eRange (a : Acc) (va : Word) (n : Nat) : E (List (Word × Xl × Nat)) := ePieces a (n / 4096 + 2) va n

/-- The bytes of translated pieces as an engine of the core reads them (R133). -/
def readPieces (s : State) (l : List (Word × Xl × Nat)) : List GByte :=
  l.flatMap fun p => (List.range p.2.2).map fun i =>
    let pa := p.2.1.pa + i
    let own := ownByte s.core.t.view (s.packetsOf s.core.t.id.uid) pa
    { b := own.getD (s.homeByte pa), pois := s.enginePois pa 1, fail := own.isNone && s.homeFail pa 1 }

/-- The tier of a piece's storage (R169). -/
def tierOf (pa : Nat) : BitVec 4 := if Config.tier2Limit ≤ pa then 3 else 2

/-- The tier of a list of pieces: the lowest-lying one that is not tier 2. -/
def piecesTier (l : List (Word × Xl × Nat)) : BitVec 4 := if l.any fun p => Config.tier2Limit ≤ p.2.1.pa then 3 else 2

/-- Engine read of n bytes with poison and failure carried (R168). -/
def eReadG (va : Word) (n : Nat) : E (List GByte) := do
  let l ← eRange .r va n
  let s ← enow
  pure (readPieces s l)

/-- Engine read of bytes that are consumed: a tier failure ends the command, poison faults. -/
def eUseG (va : Word) (n : Nat) : E (List Byte) := do
  let l ← eRange .r va n
  let s ← enow
  let bs := readPieces s l
  if bs.any (·.fail) then eend 0x11 (piecesTier l)
  else if bs.any (·.pois) then efailAt cPOISON va
  else pure (bs.map (·.b))

/-- Writes the bytes of one piece at its home (R112, R134, R179), poisoned words staying poisoned. -/
def writePiece (s : State) (va : Word) (pa : Nat) (bs : List GByte) : Except (BitVec 8) State :=
  if inTimelineArea s va then .ok s
  else
    (s.store s.cid pa (bs.map (·.b))).map fun s =>
      (List.range bs.length).foldl (fun (s : State) i => if (bs.getD i ⟨0, false, false⟩).pois then s.homeSetPois (pa + i) 1 else s) s

/-- Writes translated pieces; refused whole at the first refusal. -/
def writePieces (s : State) : List (Word × Xl × Nat) → List GByte → Except (BitVec 8) State
  | [], _ => .ok s
  | (va, x, n) :: l, bs =>
    match writePiece (s.sealLines x x.pa n) va x.pa (bs.take n) with
    | .error c => .error c
    | .ok s' => writePieces s' l (bs.drop n)

/-- Engine write of bytes whose pages are translated. -/
def eWriteAt (l : List (Word × Xl × Nat)) (bs : List GByte) : E Unit := fun s =>
  match writePieces s l bs with
  | .error c => .error (.fault c (l.head?.map (·.1)) 0)
  | .ok s' => .ok ((), s')

/-- Bytes without marks. -/
def cleanBytes (bs : List Byte) : List GByte := bs.map fun b => ⟨b, false, false⟩

/-- Whether a lower tier fails to deliver a line of translated pieces (R169). -/
def piecesFail (s : State) (l : List (Word × Xl × Nat)) : Bool := l.any fun p => s.homeFail p.2.1.pa p.2.2

/-- Engine write of an element whose pages are translated: a failure of its tier ends the command (R169). -/
def eWriteTier (l : List (Word × Xl × Nat)) (bs : List GByte) : E Unit := do
  let s ← enow
  if piecesFail s l then eend 0x11 (piecesTier l) else eWriteAt l bs

/-- Engine write of n bytes. -/
def eWriteG (va : Word) (bs : List GByte) : E Unit := do
  let l ← eRange .w va bs.length
  eWriteTier l bs

/-- Bytes of a buffer with the marks of their words. -/
def eCarryB (sp off n : Nat) : E (List GByte) := do
  let b := (← enow).core.buf
  let bs := b.read sp off n
  let mark (f : Nat → Nat → Nat → Bool) (i : Nat) : Bool := if sp = 2 then f 2 (off + 7 * (i / 8)) 8 else f sp (off + i) 1
  pure ((List.range n).map fun i => ⟨bs.getD i 0, mark b.isPois i, mark b.isFail i⟩)

/-- Bytes of a buffer with their poison carried; a tier-failed word raises TIERERR (R168, R169). -/
def eReadB (sp off n : Nat) : E (List GByte) := do
  let bs ← eCarryB sp off n
  efailIf (bs.any (·.fail)) cTIERERR
  pure bs

/-- Writes bytes into WB or AB: words that receive a poisoned byte become poisoned (R168), one its tier failed to deliver tier-failed (R169). -/
def eWriteB (sp off : Nat) (bs : List GByte) : E Unit := eupd fun s => s.modB fun b =>
  (List.range bs.length).foldl (fun (b : Buffers) i =>
      let x := bs.getD i ⟨0, false, false⟩
      let b := if x.pois then b.markPois sp (off + i) 1 else b
      if x.fail then b.markFail sp (off + i) 1 else b)
    (b.write sp off (bs.map (·.b)))

/-- Bytes that are consumed: a tier failure and poison are raised. -/
def eConsume (bs : List GByte) : E (List Byte) := do
  efailIf (bs.any (·.fail)) cTIERERR
  efailIf (bs.any (·.pois)) cPOISON
  pure (bs.map (·.b))

/-! ### The rows of a tile, packed (R303, R351) -/

/-- Bytes of a packed row. -/
def dRowBytes (d : Desc) : Nat := (dCols d * dBits d + 7) / 8

/-- Row r of a tile as ⌈COLS·bits/8⌉ bytes with their poison: the line itself; of a column-major tile the row's elements, packed. -/
def Buffers.tileRow (b : Buffers) (d : Desc) (r : Nat) : List GByte :=
  if dColmaj d then
    let bits := dBits d
    let x := (List.range (dCols d)).foldl (fun x c => x + b.elem d r c * 2 ^ (c * bits)) 0
    let pois (i : Nat) : Bool := (List.range (dCols d)).any fun c => c * bits < 8 * i + 8 && 8 * i < c * bits + bits && b.elemPois d r c
    (List.range (dRowBytes d)).map fun i => ⟨BitVec.ofNat 8 (x / 2 ^ (8 * i)), pois i, false⟩
  else
    let a := dBase d + r * dStride d
    let bs := b.read (dSpace d) a (dRowBytes d)
    (List.range (dRowBytes d)).map fun i => ⟨bs.getD i 0, b.isPois (dSpace d) (a + i) 1, false⟩

/-- Whether a byte of row r is tier-failed. -/
def Buffers.tileRowFail (b : Buffers) (d : Desc) (r : Nat) : Bool :=
  if dColmaj d then (List.range (dCols d)).any fun c => b.elemFail d r c
  else b.isFail (dSpace d) (dBase d + r * dStride d) (dRowBytes d)

/-- Writes a packed row back over the bytes it was read from: the poison of a byte goes to the elements it holds. -/
def Buffers.putTileRow (b : Buffers) (d : Desc) (r : Nat) (bs : List GByte) : Buffers :=
  let bits := dBits d
  let x := leNat (bs.map (·.b))
  let put (b : Buffers) : Buffers :=
    if dColmaj d then (List.range (dCols d)).foldl (fun b c => b.putElem d r c (x / 2 ^ (c * bits) % 2 ^ bits)) b
    else b.write (dSpace d) (dBase d + r * dStride d) (bs.map (·.b))
  let mark (b : Buffers) (i : Nat) : Buffers :=
    if (bs.getD i ⟨0, false, false⟩).pois then
      ((List.range (dCols d)).filter fun c => c * bits < 8 * i + 8 && 8 * i < c * bits + bits).foldl
        (fun b c => let (a, n) := dElemAt d r c; b.markPois (dSpace d) a n) b
    else b
  (List.range bs.length).foldl mark (put b)

/-- How far a command came: the micro-PC, residual data it holds, and whether it is done, with its status (R176), or stopped. -/
structure Prog where
  s : State
  upc : Nat
  res : List Byte
  status : Word
  stop : Option EStop
  got : List Nat

/-- The end of a command. -/
def Prog.ok (s : State) (upc : Nat) : Prog := ⟨s, upc, [], 0, none, []⟩

/-- Runs the elements from j on, n of them (R77, R167): at a fault the elements before the micro-PC have been performed; a flag that FPEN
enables stops after its element (R71). DEDUCED (log 9). -/
def elems (g : FGroup) (body : Nat → E FFlags) : Nat → Nat → State → Prog
  | 0, j, s => .ok s j
  | n + 1, j, s =>
    match body j s with
    | .error e => { Prog.ok s j with stop := some e }
    | .ok (f, s1) =>
      let s2 := s1.orFlags g f
      if f &&& s2.fpEn g != 0 then { Prog.ok s2 (j + 1) with stop := some .fpx }
      else elems g body n (j + 1) s2

/-- A command whose checks come first and then its elements up to a count. -/
def checkedElems (g : FGroup) (chk : E Unit) (total upc : Nat) (body : Nat → E FFlags) (s : State) : Prog :=
  match chk s with
  | .error e => { Prog.ok s upc with stop := some e }
  | .ok (_, s1) => elems g body (total - upc) upc s1

/-- A command of one piece. -/
def whole (m : E Unit) (s : State) : Prog :=
  match m s with
  | .error e => { Prog.ok s 0 with stop := some e }
  | .ok (_, s1) => .ok s1 0

end Sys2Proof.Machine
end

