-- ==== Sys2Proof/Machine/Engine.lean ====
section
/-! DEFINITION. Queue-routed instructions: the queue and the unit of each (01_machine.md R15, R18), what is captured at routing (03_formats.md
R75), timeline numbers (05_memory_ordering.md R130), what a block admits (12_blocks.md R291), and what routing does (R37, R108). -/

namespace Sys2Proof.Machine

/-- The queue of an instruction (R15, R48); none for the control core's own. -/
def queueOf : Instr → Option QName
  | .trvlIn .. | .trvsIn .. | .copyIn .. | .fillIn .. | .gthr .. | .fard .. => some .load
  | .trvlOut .. | .trvsOut .. | .copyOut .. | .fillOut .. | .sctr .. | .cmpx .. | .awr .. | .awrT .. | .axch .. | .acas ..
  | .chsendFw .. | .chsendRv .. | .coll .. => some .store
  | .cvt .. | .cvts .. | .qntw .. | .dqw .. | .retag .. | .retagDsc .. | .tagget .. | .tagchk .. | .scalex ..
  | .vrun .. | .vruna .. | .lnx .. | .lnr ..
  | .mma .. | .mzero .. | .mzeroCb .. | .mswap .. | .mst .. | .mcks .. | .mckv .. | .mfix .. | .mtm .. | .mte .. | .wgrp ..
  | .sxf .. | .sxi .. | .scmac .. | .scmul .. | .sconj .. | .sdom .. | .sexp ..
  | .rpush .. | .rpushSpl .. | .gzero .. => some .compute
  | _ => none

/-- The token field of an instruction (R19). -/
def tokOf : Instr → Tok
  | .trvlIn tk .. | .trvsIn tk .. | .copyIn tk .. | .fillIn tk .. | .gthr tk .. | .fard tk ..
  | .trvlOut tk .. | .trvsOut tk .. | .copyOut tk .. | .fillOut tk .. | .sctr tk .. | .cmpx tk .. | .awr tk .. | .awrT tk ..
  | .axch tk .. | .acas tk .. | .chsendFw tk .. | .chsendRv tk .. | .coll tk ..
  | .cvt tk .. | .cvts tk .. | .qntw tk .. | .dqw tk .. | .retag tk .. | .retagDsc tk .. | .tagget tk .. | .tagchk tk ..
  | .scalex tk .. | .vrun tk .. | .vruna tk .. | .lnx tk .. | .lnr tk ..
  | .mma tk .. | .mzero tk .. | .mzeroCb tk .. | .mswap tk .. | .mst tk .. | .mcks tk .. | .mckv tk .. | .mfix tk .. | .mtm tk
  | .mte tk | .wgrp tk .. | .sxf tk .. | .sxi tk .. | .scmac tk .. | .scmul tk .. | .sconj tk .. | .sdom tk .. | .sexp tk ..
  | .rpush tk .. | .rpushSpl tk .. | .gzero tk .. => tk
  | _ => ⟨false, false, false, false⟩

/-- Whether the matrix array executes a command (R15); `tile`: whether it belongs to an open tile (R256). -/
def isArray : Instr → Bool
  | .mma .. | .mzero .. | .mzeroCb .. | .mswap .. | .mst .. | .mcks .. | .mckv .. | .mfix .. | .mtm .. | .mte .. | .wgrp ..
  | .scmac .. => true
  | _ => false
def isTileCmd : Instr → Bool
  | .mma .. | .mzero .. | .mzeroCb .. | .mcks .. | .mckv .. | .mfix .. | .wgrp .. | .scmac .. => true
  | _ => false

/-- TCAUSE.UNIT of a command (R368). -/
def unitCode (i : Instr) : BitVec 4 :=
  match queueOf i with
  | some .load => 1
  | some .store => 5
  | some .compute =>
    if isArray i then 2
    else match i with
      | .sxf .. | .sxi .. => 4
      | .rpush .. | .rpushSpl .. => 6
      | _ => 3
  | none => 0

/-- The descriptors captured at routing, in the order of the command's operands: destination first (R75). -/
def descsOf : Instr → List DCode
  | .cvt _ d a _ _ _ _ => [d, a]
  | .cvts _ d a _ _ _ _ _ => [d, a]
  | .qntw _ d a _ _ _ => [d, a]
  | .dqw _ d a _ _ _ => [d, a]
  | .scalex _ _ d a _ => [d, a]
  | .tagchk _ _ (.d a) _ => [a]
  | .gthr _ _ _ t _ _ _ _ => [t]
  | .sctr _ _ t _ _ _ _ _ => [t]
  | .lnx _ d a b f => if f.unary then [d, a] else [d, a, b]
  | .lnr _ d a b f => if f.unary then [d, a] else [d, a, b]
  | .mma _ _ _ _ a b _ _ => [a, b]
  | .mcks _ _ _ _ a b _ _ => [a, b]
  | .mzeroCb _ _ c => [c]
  | .mst _ d _ _ _ _ _ _ _ => [d]
  | .sxf _ d a => [d, a]
  | .sxi _ d a => [d, a]
  | .scmac _ _ a b _ => [a, b]
  | .scmul _ _ d a b => [d, a, b]
  | .sconj _ d a => [d, a]
  | .sdom _ d a g => [d, a, g]
  | .sexp _ d a _ => [d, a]
  | .rpush _ a => [a]
  | .gzero _ d => [d]
  | .chsendFw _ _ a => [a]
  | .chsendRv _ _ a => [a]
  | _ => []

/-- n consecutive scalar registers from one on (R210). -/
def regRun (p : Reg) (n : Nat) : List Reg := (List.range n).map fun i => p + BitVec.ofNat 6 i

/-- The scalar registers captured at routing, in the order of the command's operands (R75). -/
def regsOf : Instr → List Reg
  | .cvts _ _ _ rb rc _ _ _ => [rb, rc]
  | .trvlIn _ _ ra _ _ => [ra]
  | .trvlOut _ _ ra _ _ => [ra]
  | .trvsIn _ _ ra rb rc _ => [ra, rb, rc]
  | .trvsOut _ _ ra rb rc _ => [ra, rb, rc]
  | .copyIn _ _ rd ra rb _ _ => [rd, ra, rb]
  | .copyOut _ _ rd ra rb _ _ => [rd, ra, rb]
  | .fillIn _ _ rd ra _ => [rd, ra]
  | .fillOut _ rd ra rb _ _ => [rd, ra, rb]
  | .gthr _ _ rd _ rb rc p _ => [rd, rb, rc, p]
  | .sctr _ _ _ ra rb rc p _ => [ra, rb, rc, p]
  | .fard _ _ _ rd ra rb rc => [rd, ra, rb, rc]
  | .cmpx _ _ ra => [ra]
  | .awr _ _ rd ra rb _ => [ra, rb, rd]
  | .awrT _ _ _ ra rb _ => [ra, rb]
  | .axch _ _ rd ra rb _ => [ra, rb, rd]
  | .acas _ _ rd ra rb rc _ => [ra, rb, rd, rc]
  | .vrun _ e p n => e :: regRun p n.toNat
  | .vruna _ e p n j _ _ => e :: j :: regRun p n.toNat
  | .coll _ _ ra => [ra]
  | _ => []

/-- Granules of an instruction (R30). -/
def granulesOf (i : Instr) : Nat := (encode i).length

/-! ### Gradient counterparts and residuals (R292, R312) -/

/-- The counterpart of a descriptor register's tile. -/
def cpOf (g : GMap) (d : DCode) : Option Desc := if g.cp[d.toNat] = 0 then none else some g.cp[d.toNat]

/-- Whether a tile has a counterpart. -/
def hasCp (g : GMap) (d : DCode) : Bool := (cpOf g d).isSome

/-- Whether the residual of an operation of R313 is not empty, given which of gA and gB are written. -/
def vopPushes (vop : Nat) (a b : Bool) : Bool :=
  match vop with
  | 0x03 | 0x04 | 0x05 | 0x06 => a || b
  | 0x07 | 0x20 | 0x21 | 0x22 | 0x23 | 0x24 | 0x25 | 0x26 => a
  | _ => false

/-- Whether a forward command pushes a residual (R312). -/
def pushes (i : Instr) (g : GMap) : Bool :=
  match i with
  | .cvts _ d a _ _ _ _ _ => hasCp g d && hasCp g a
  | .lnx _ d a b f => hasCp g d && vopPushes f.vop.toNat (hasCp g a) (!f.unary && hasCp g b)
  | .lnr _ d a b f =>
    let ga := hasCp g a
    let gb := !f.unary && hasCp g b
    hasCp g d && (vopPushes f.vop.toNat ga gb || ((f.fn.extractLsb' 0 2) != 0 && (ga || gb)))
  | .mma _ _ _ _ _ b _ _ => hasCp g b
  | .scmac _ _ _ b _ => hasCp g b
  | .scmul _ _ d a b => hasCp g d && (hasCp g a || hasCp g b)
  | .vruna _ _ _ _ _ l _ => l != 0
  | .rpush .. | .rpushSpl .. => true
  | _ => false

/-- Whether a command is an RPUSH. -/
def isRpush : Instr → Bool
  | .rpush .. | .rpushSpl .. => true
  | _ => false

/-- Whether a forward command writes a residual entry: in a recompute block only its replay does (R309). -/
def Cmd.doesPush (k : Cmd) : Bool :=
  k.kind = .fwd && (match k.blk with | some b => pushes k.instr b.g && (!b.rc || b.replay) | none => false)

/-- Whether a command takes a number on TL.X (R302, R303, R309). -/
def takesX (i : Instr) (kind : CmdKind) (blk : Option BlkRef) : Bool :=
  match blk with
  | none => false
  | some b => match kind with
    | .fwd => pushes i b.g && (!b.rc || b.replay) || isRpush i
    | .adj 0 => pushes i b.g
    | .adj _ | .stub => false

/-! ### Routing (R75, R130) -/

/-- The system registers that a command captures when it is routed (R147): FPEN, QHBM, QCXL; of a FARD FLWw and QFLASH, of a COLL PKEY. Of the quotas
the limit is what is captured, their USED counts as the charges are made. DEDUCED (log 67). -/
def State.capSys (s : State) (i : Instr) : List Word :=
  s.core.t.sys.fpen :: s.cx.qhbm :: s.cx.qcxl :: match i with
    | .fard _ _ w _ _ _ _ => [s.cx.flw[w.toNat], s.cx.qflash]
    | .coll .. => [s.cx.pkey]
    | _ => []

/-- A command that enters its queue, with its number, and TL.X's or the collective channel's. -/
def State.enqueue (s : State) (i : Instr) (kind : CmdKind) (tok : Tok) (descs : List Desc) (vals : List Word) (blk : Option BlkRef)
    (q : QName) : State :=
  let tl := s.core.t.tls
  let num := (tl.get q).i + 1
  let x := takesX i kind blk
  let k4 : Option (BitVec 4) := match i with | .coll _ k _ => some k | _ => none
  let num2 := if x then tl.x.i + 1 else match k4 with | some k => tl.coll[k.toNat].i + 1 | none => 0
  let s := s.modTl fun t => t.mod q fun l => { l with i := l.i + 1 }
  let s := if x then s.modTl fun t => { t with x := { t.x with i := t.x.i + 1 } } else s
  let s := match k4 with
    | some k => s.modTl fun t => { t with coll := t.coll.set k.toNat { t.coll[k.toNat] with i := t.coll[k.toNat].i + 1 } }
    | none => s
  let k : Cmd :=
    { instr := i, kind := kind, tok := tok, num := num, num2 := num2, descs := descs, vals := vals, sysr := s.capSys i, blk := blk, upc := 0,
      compared := false, issued := false, done := false, pushed := false, status := 1, fault := none, res := [], resPois := [], resFail := [], got := [],
      ph := 0 }
  s.modQ q fun l => l ++ [k]

/-- Whether a queue has an entry free: commands that have issued have left it (R13, R157). -/
def State.queueRoom (s : State) (q : QName) : Bool :=
  (s.core.t.q.get q).countP (fun k => !k.issued) < Config.queueDepth

/-- The block reference a forward command takes from the open block (R294). -/
def State.blkRef (s : State) : Option BlkRef :=
  s.core.t.blk.map fun b => ⟨b.id, b.seq, b.rc, b.hbm, b.ord, b.g, false⟩

/-- Reads every register an instruction captures. -/
def captureRegs : List Reg → M (List Word)
  | [] => pure []
  | r :: l => do
    let x ← rdS r
    pure (x :: (← captureRegs l))

/-- Reads every descriptor an instruction captures. -/
def captureDescs : List DCode → M (List Desc)
  | [] => pure []
  | d :: l => do
    let x ← rdD d
    pure (x :: (← captureDescs l))

/-! ### What a block admits (R89, R183, R212, R265, R287, R291) -/

/-- The bit of `Block.seen` for a TRVL, a TRVS or a copy of an engine, and whether the instruction is a copy. -/
def seenBit : Instr → Option (Nat × Bool)
  | .trvlIn _ l _ _ _ => some (l.toNat, false)
  | .trvlOut _ l _ _ _ => some (8 + l.toNat, false)
  | .trvsIn .. => some (6, false)
  | .trvsOut .. => some (14, false)
  | .copyIn .. | .fillIn .. | .gthr .. => some (7, true)
  | .copyOut .. | .fillOut .. | .sctr .. => some (15, true)
  | _ => none

/-- Whether an instruction executes in the open block. DEDUCED (log 51). -/
def blockAdmits (b : Block) (i : Instr) : Bool :=
  (match seenBit i with
   | some (n, false) => !b.seen.getLsbD n && !b.seen.getLsbD (if n < 8 then 7 else 15)
   | _ => true) &&
  (match i with
   | .retag .. | .retagDsc .. | .tagget .. | .fard .. | .cmpx .. | .awr .. | .awrT .. | .axch .. | .acas .. | .vrun ..
   | .mzeroCb .. | .wgrp .. | .coll .. | .gzero .. => false
   | .copyIn _ _ _ _ _ _ f | .copyOut _ .wb _ _ _ _ f | .copyOut _ .ab _ _ _ _ f | .copyOut _ .cb _ _ _ _ f =>
     f.afmt != 0 && 2 ^ f.esz.toNat % (elemBits f.afmt / 8) == 0
   | .mst _ _ _ _ _ _ df _ _ => df == 6 || df == 7 || df == 4 || df == 5
   | .scmac _ _ _ _ f => !f.ta && !f.tb && !f.cja && !f.cjb
   | _ => true)

/-- The register whose policy bits the routing of a copy-engine instruction checks (R114). -/
def policyOf : Instr → Option Reg
  | .copyIn _ _ _ _ p _ _ | .copyOut _ _ _ _ p _ _ | .fillOut _ _ _ p _ _ | .gthr _ _ _ _ _ _ p _ | .sctr _ _ _ _ _ _ p _ | .fard _ _ _ _ _ _ p =>
    some p
  | _ => none

/-- A policy register that can be read sets no reserved bit (R114). -/
def policyAt (i : Instr) : M Unit := fun s =>
  match policyOf i with
  | some p => if s.core.t.regs.poisS p then .ok ((), s) else checkPolicy (s.S p) s
  | none => .ok ((), s)

/-- Routes an instruction of the control stream (R37, R75, R108, R291): the policy's reserved bits, the block's admission, the captured operands, in
ascending order of their codes (R12), the number, the queue; a full queue waits. `also` is the control core's own part. -/
def routed (i : Instr) (also : M Unit) (s : State) : Out :=
  runM s do
    match queueOf i with
    | none => pure ()
    | some q => do
      let s ← now
      let open_ := s.core.t.blk
      policyAt i
      failIf (match open_ with | some b => !blockAdmits b i | none => isRpush i) (.cc cBLKOP)
      let vals ← captureRegs (regsOf i)
      -- a COLL captures the closure list (R361)
      let vals := match i with | .coll .. => vals ++ s.core.t.closure.flatMap fun p => [p.1, p.2] | _ => vals
      let descs ← captureDescs (descsOf i)
      also
      let s ← now
      if !s.queueRoom q then wait
      else do
        upd fun s => s.enqueue i .fwd (tokOf i) descs vals s.blkRef q
        let mark (b : Block) : Block := match seenBit i with
          | some (n, _) => { b with seen := b.seen ||| (1#16 <<< n) }
          | none => b
        upd fun s => (s.modT fun t => { t with blk := t.blk.map mark }).advance (granulesOf i)

/-! ### The open tile (R256 to R258) -/

/-- Whether a command of the compute queue belongs to the open tile: an array command routed after its MTM. -/
def Task.inTile (t : Task) (k : Cmd) : Bool := t.tile.opened && isArray k.instr && t.tile.num.toNat < k.num.toNat

/-- Whether an array command stands behind the MTE of the open tile: it is no part of the tile, and waits until that retires (R256, R257). DEDUCED (log 17). -/
def Task.behindTile (t : Task) (k : Cmd) : Bool :=
  t.tile.opened && isArray k.instr && t.q.compute.any fun c => match c.instr with
    | .mte _ => c.kind = .fwd && t.tile.num.toNat < c.num.toNat && c.num.toNat < k.num.toNat
    | _ => false

/-- The working state is restored from the checkpoint, and every command of the tile is to be issued again from the first (R258). -/
def Task.tileRestart (t : Task) : Task :=
  { t with acc0 := { t.tile.ck0 with vtag := t.acc0.vtag }, acc1 := { t.tile.ck1 with vtag := t.acc1.vtag },
           tile := { t.tile with want := false },
           q := { t.q with compute := t.q.compute.map fun k =>
             (if t.inTile k && k.issued then { k with upc := 0, done := false, res := if k.kind = .fwd then [] else k.res, got := [] } else k) } }

/-- A fault inside the tile that ends the attempt (R258): the fault stands at the command, the replay count is 0, and ERET resumes with the
tile's first command. -/
def Task.tileStop (t : Task) (num : Word) (f : FaultInfo) : Task :=
  let t := t.tileRestart
  { t with tile := { t.tile with replays := 0 },
           q := { t.q with compute := t.q.compute.map fun k => (if k.num = num then { k with fault := some f } else k) } }

/-- The command of the open tile at which the array stands: the first that is not done, else the last. -/
def Task.tileAt (t : Task) : Option Cmd :=
  let l := t.q.compute.filter fun k => t.inTile k && k.issued
  match l.find? fun k => !k.done with
  | some k => some k
  | none => l.getLast?

/-- Whether a fault of the open tile waits for its delivery: until then no command of the tile is issued again (R258). -/
def Task.tileHeld (t : Task) : Bool := t.q.compute.any fun k => k.fault.isSome && t.inTile k

/-- An error in the array, or a residue pattern that cannot be located, inside an open tile (R258): a replay, or at the second one REPLAY. -/
def Task.tileError (t : Task) : Task :=
  if t.tile.replays = 0 then { t with tile := { t.tile with want := true } }
  else match t.tileAt with
    | some k => t.tileStop k.num ⟨cREPLAY, 2, BitVec.ofNat 64 k.upc, k.num, none, 0, 0⟩
    | none => t.tileRestart

/-! ### Landing slots (R348, R352, R353) -/

/-- The byte range of slot q of a channel end (R349). -/
def slotRange (e : ChEnd) (q : Nat) : Nat × Nat := (e.b.toNat + q * (e.x.slotu.toNat * 512), e.x.slotu.toNat * 512)

/-- Every landing slot of a task: channel, slot, range. -/
def slotsOf (t : Task) : List (Nat × Nat × (Nat × Nat)) :=
  (List.range 8).flatMap fun n =>
    if h : n < 8 then
      let e := t.chans[n]
      if e.conf then (List.range 4).map fun q => (n, q, slotRange e q) else []
    else []

/-- Whether AB ranges meet a landing slot. -/
def meetsSlot (t : Task) (l : List (Nat × Nat)) : Bool := (slotsOf t).any fun x => l.any fun r => rangeMeets r x.2.2

/-- Whether AB ranges meet the top region. -/
def meetsTop (t : Task) (l : List (Nat × Nat)) : Bool := l.any fun r => rangeMeets r (topRange t)

/-- The AB ranges of a tile; none where it lies elsewhere. -/
def abRanges (d : Desc) : List (Nat × Nat) := if dSpace d = 1 then dRanges d else []

/-- A write into a landing slot by another command than the receiver: ILLOP (R352). -/
def destIllop (s : State) (d : Desc) : Bool := meetsSlot s.core.t (abRanges d)

/-- The landing slots that AB ranges meet. -/
def slotsHit (t : Task) (l : List (Nat × Nat)) : List (Nat × Nat × (Nat × Nat)) :=
  (slotsOf t).filter fun x => l.any fun r => rangeMeets r x.2.2

/-- A command of a TL.C number binds the landing slots it reads (R353) that no other command holds. -/
def bindSlots (s : State) (num : Word) (l : List (Nat × Nat)) : State :=
  let bind (s : State) (x : Nat × Nat × (Nat × Nat)) : State :=
    if h : x.1 < 8 ∧ x.2.1 < 4 then
      s.modT fun t => { t with chans := t.chans.set x.1 { t.chans[x.1] with
        slots := t.chans[x.1].slots.set x.2.1 { t.chans[x.1].slots[x.2.1] with own := some (t.chans[x.1].slots[x.2.1].own.getD num) } } }
    else s
  (slotsHit s.core.t l).foldl bind s

/-- Of the landing slots among AB ranges the ones that do not hold a tile for a command: the range, and whether the partner of one without a tile is
lost (R353). -/
def slotsMissing (s : State) (num : Word) (l : List (Nat × Nat)) : List ((Nat × Nat) × Bool) :=
  (slotsHit s.core.t l).filterMap fun x =>
    if h : x.1 < 8 ∧ x.2.1 < 4 then
      let e := s.core.t.chans[x.1]
      let q := e.slots[x.2.1]
      if q.valid && q.own.all (· = num) then none else some (x.2.2, e.dead && !q.valid)
    else none

/-- In a block a write to the top region raises BLKOP after the command's other checks (R291, R12). -/
def topBlkop (k : Cmd) (l : List (Nat × Nat)) : E Unit := do
  let s ← enow
  efailIf (k.blk.isSome && meetsTop s.core.t l) cBLKOP

/-- An operand of a command by its place. -/
def Cmd.d (k : Cmd) (n : Nat) : Desc := k.descs.getD n 0
def Cmd.v (k : Cmd) (n : Nat) : Word := k.vals.getD n 0

/-- The unit a command of a queue runs in (R368): carriers of copies run in the other copy engine (R305), the adjoint of CHSEND in the vector engine
(R315). -/
def cmdUnit (q : QName) (i : Instr) : BitVec 4 :=
  match q with | .load => 1 | .store => 5 | .compute => if queueOf i = some .compute then unitCode i else 3

/-- A status word (R176). -/
def statusWord (upc : Nat) (code : BitVec 8) (tier : BitVec 4) : Word :=
  BitVec.ofNat 64 (upc % 2 ^ 40 * 65536 + tier.toNat * 256 + code.toNat)

/-- A quota register's USED under another limit. -/
def withLimit (q lim : Word) : Word := q.extractLsb' 24 40 ++ lim.extractLsb' 0 24

/-- A state under FPEN and the limits of the quotas as a command has captured them (R147), and as another state has them. -/
def State.asRouted (s : State) (k : Cmd) : State :=
  let s := s.modY fun y => { y with fpen := k.sysr.headD y.fpen }
  match k.sysr with
  | _ :: h :: c :: _ =>
    if withLimit s.cx.qhbm h = s.cx.qhbm && withLimit s.cx.qcxl c = s.cx.qcxl then s
    else s.modX s.cid fun x => { x with qhbm := withLimit x.qhbm h, qcxl := withLimit x.qcxl c }
  | _ => s
def State.backFrom (s s0 : State) : State :=
  let s := s.modY fun y => { y with fpen := s0.core.t.sys.fpen }
  if withLimit s.cx.qhbm s0.cx.qhbm = s.cx.qhbm && withLimit s.cx.qcxl s0.cx.qcxl = s.cx.qcxl then s
  else s.modX s.cid fun x => { x with qhbm := withLimit x.qhbm s0.cx.qhbm, qcxl := withLimit x.qcxl s0.cx.qcxl }

/-- Runs an update under the system registers that a command has captured (R147). -/
def State.underRegs (s : State) (k : Cmd) (f : State → State) : State := (f (s.asRouted k)).backFrom s

/-- Keeps what the walk of a faulting access has read (R143). -/
def State.keepWalk (s : State) (va : Word) : State := if va.extractLsb' 57 7 = 0 then keepFills s (lookup s s.cid va.toNat).1 else s

/-- What a stop of an engine leaves beside its report: the upper entries that the walk of a faulting access has read. -/
def State.walkFills (s : State) (e : EStop) : State := match e with | .fault _ (some a) _ => s.keepWalk a | _ => s

/-- Updates the command with a number in a queue. -/
def State.modCmd (s : State) (q : QName) (num : Word) (f : Cmd → Cmd) : State :=
  s.modQ q fun l => l.map fun k => if k.num = num then f k else k

/-- Residual data of a command with its marks, and bytes of it that an adjoint consumes (R301, R307). -/
def State.setRes (s : State) (k : Cmd) (bs : List GByte) : State :=
  let at_ (f : GByte → Bool) : List Nat := (List.range bs.length).filter fun i => f (bs.getD i ⟨0, false, false⟩)
  s.modCmd .compute k.num fun c => { c with res := bs.map (·.b), resPois := at_ (·.pois), resFail := at_ (·.fail) }
def Cmd.resG (k : Cmd) : List GByte :=
  (List.range k.res.length).map fun i => ⟨k.res.getD i 0, k.resPois.contains i, k.resFail.contains i⟩
def eResUse (k : Cmd) (l : List (Nat × Nat)) : E Unit := do
  let meets (i : Nat) : Bool := l.any fun r => r.1 ≤ i && i < r.1 + r.2
  efailIf (k.resFail.any meets) cTIERERR
  efailIf (k.resPois.any meets) cPOISON
def eResAt (k : Cmd) (off n : Nat) : E (List Byte) := do
  eResUse k [(off, n)]
  pure ((k.res.drop off).take n)

/-- Appends residual data to a command as it runs. -/
def eRes (q : QName) (k : Cmd) (bs : List Byte) : E Unit := eupd fun s => s.modCmd q k.num fun c => { c with res := c.res ++ bs }

/-- What a run leaves of a command: done with its status, stopped at a fault, or waiting (R77, R176, R371); a walk that faults keeps the upper entries it
has read (R143). -/
def settleCmd (q : QName) (k : Cmd) (p : Prog) : State :=
  let at_ (c : Cmd) : Cmd := { c with upc := p.upc, res := if p.res = [] then c.res else p.res, got := p.got }
  let stopAt (code : BitVec 8) (va : Option Word) (lvl : BitVec 3) (c : Cmd) : Cmd :=
    { at_ c with fault := some ⟨code, cmdUnit q k.instr, BitVec.ofNat 64 p.upc, k.num, va, lvl, 0⟩ }
  match p.stop with
  | none => p.s.modCmd q k.num fun c => { at_ c with done := true, status := p.status }
  | some .wait => p.s.modCmd q k.num at_
  | some .fpx => p.s.modCmd q k.num (stopAt cFPX none 0)
  | some (.fault code va lvl) => (p.s.walkFills (.fault code va lvl)).modCmd q k.num (stopAt code va lvl)
  | some (.status code tier) => p.s.modCmd q k.num fun c => { at_ c with done := true, status := statusWord p.upc code tier }

/-- The counterpart of an operand of a command in a block. -/
def Cmd.cp (k : Cmd) (d : DCode) : Option Desc := k.blk.bind fun b => cpOf b.g d

end Sys2Proof.Machine
end

