-- ==== Sys2Proof/Machine/Convert.lean ====
section
/-! DEFINITION. Class 4, conversions and tags (03_formats.md R75 to R89): one definition per instruction for its routing, and what each
does at the queue head. -/

namespace Sys2Proof.Machine

/-- Row and column of tile position i (R77). -/
def rowCol (d : Desc) (i : Nat) : Nat × Nat := (i / dCols d, i % dCols d)

/-- CheckOperands of R80 (R60, R62, R63, R76): a source in CB lies in the visible banks (R17), landing slots are no destination (R352). -/
def checkPair (k : Cmd) (s : State) : Option (BitVec 8) :=
  let d := k.d 0
  let a := k.d 1
  operandFault [(d, [1]), (a, [0, 1, 2])]
    (dRows d != dRows a || dCols d != dCols a || (tilesMeet d a && !tilesSame d a) || destIllop s d || beyondVisible a)

/-- The tag rules of R80: FMT against the encoding, G equal, domains and exponents equal. -/
def checkTags (k : Cmd) (sf df : BitVec 4) : E Unit := do
  let d := dTag (k.d 0)
  let a := dTag (k.d 1)
  efailIf (tFmt a != sf || tFmt d != df) cTAGMIS
  efailIf (tG a != tG d) cTAGMIS
  efailIf (tDom a != tDom d || a.extractLsb' 8 8 != d.extractLsb' 8 8) cDOMAIN

/-- The checks of a class 4 command at the queue head. -/
def checkCvt (k : Cmd) (sf df : BitVec 4) : E Unit := do
  let s ← enow
  echeck (checkPair k s)
  checkTags k sf df
  topBlkop k (abRanges (k.d 0))

/-- An element-wise command from dA to dD. -/
def cvtRun (k : Cmd) (chk : E Unit) (f : Nat → Num → Nat × FFlags) (s : State) : Prog :=
  let d := k.d 0
  let a := k.d 1
  checkedElems .vf chk (dRows d * dCols d) k.upc (fun i => do
    let (r, c) := rowCol d i
    let (x, f0) ← eVal a r c
    let (y, f1) := f i x
    ePut d r c y
    pure (f0 ||| f1)) s

/-- CVT at the queue head (R80, R81). -/
def runCvt (k : Cmd) (rm : RM) (sat : Bool) (sf df : BitVec 4) (s : State) : Prog :=
  cvtRun k (checkCvt k sf df) (fun _ x => convert df rm sat x) s

/-- CVTS at the queue head (R80, R74). -/
def runCvts (k : Cmd) (sat : Bool) (sf df : BitVec 4) (s : State) : Prog :=
  cvtRun k (checkCvt k sf df) (fun i x => convertSR df sat (k.v 0) (k.v 1 + BitVec.ofNat 64 i) x) s

/-- Both tags spatial (R82). -/
def checkSpatial (k : Cmd) : E Unit := efailIf (tDom (dTag (k.d 0)) != 0 || tDom (dTag (k.d 1)) != 0) cDOMAIN

/-- The values of the 32 weights of a group (R83). -/
def groupVals (a : Desc) (g c : Nat) : Nat → E (List Num)
  | 0 => pure []
  | n + 1 => do
    let (x, _) ← eVal a (32 * g + (31 - n)) c
    pure (x :: (← groupVals a g c n))

/-- The codes, the scale and the flags of one group of QNTW (R83). -/
def quantGroup (q : Nat) (rm : RM) (xs : List Num) : List Int × Nat × FFlags :=
  if xs.any fun x => match x with | .fin .. => false | _ => true then (xs.map fun _ => 0, 0x7FC0, fV)
  else
    let a := xs.foldl (fun (m : Num) x => if Num.lt m x.abs then x.abs else m) (.fin false 0 0)
    let (s, f) := bf16.round .rne false (Num.quot a (.ofInt q))
    let f := f &&& fU
    let sv := bf16.decode s
    if sv.isZero then (xs.map fun _ => 0, s, f ||| (if a.isZero then 0 else fX))
    else
      let code (x : Num) : Int :=
        match Num.quot x sv with
        | .fin n m e => max (-(q : Int)) (min q (roundInt rm n m e))
        | _ => 0
      let off := xs.any fun x => !Num.eq (Num.mul (.ofInt (code x)) sv).1 x
      (xs.map code, s, f ||| (if off then fX else 0))

/-- Writes the codes of a group, lowest row first. -/
def putCodes (d : Desc) (c : Nat) : Nat → List Int → E Unit
  | _, [] => pure ()
  | r, x :: l => do
    ePut d r c (intBits (dBits d) x)
    putCodes d c (r + 1) l

/-- QNTW at the queue head (R82, R83): group g·COLS + c is the micro-PC. -/
def runQntw (k : Cmd) (rm : RM) (sf df : BitVec 4) (s : State) : Prog :=
  let d := k.d 0
  let a := k.d 1
  checkedElems .vf (do checkCvt k sf df; checkSpatial k) (dRows d / 32 * dCols d) k.upc (fun i => do
    let g := i / dCols d
    let c := i % dCols d
    let xs ← groupVals a g c 32
    let (codes, sc, f) := quantGroup (if df == 9 then 7 else 3) rm xs
    putCodes d c (32 * g) codes
    eupd fun s => s.modB fun b => b.write (dSpace d) (dScaleAt d g c) (leBytes 2 sc)
    pure f) s

/-- DQW at the queue head (R82, R84). -/
def runDqw (k : Cmd) (rm : RM) (sf df : BitVec 4) (s : State) : Prog :=
  cvtRun k (do checkCvt k sf df; checkSpatial k) (fun _ x => convert df rm false x) s

/-- SCALEX at the queue head (R85). Its checks stand in the order of R80, which names CVT and CVTS: OOB comes before TAGMIS and DOMAIN. DESIGN CHOICE
(log 77). -/
def runScalex (k : Cmd) (rm : RM) (n : BitVec 10) (s : State) : Prog :=
  let d := dTag (k.d 0)
  let a := dTag (k.d 1)
  let chk : E Unit := do
    let s ← enow
    echeck (checkPair k s)
    efailIf (!isFloatFmt (tFmt d) || !isFloatFmt (tFmt a) || tFmt d != tFmt a || tG d != tG a) cTAGMIS
    checkSpatial k
    topBlkop k (abRanges (k.d 0))
  cvtRun k chk (fun _ x => convert (tFmt d) rm false (x.scale n.toInt)) s

/-- RETAG of a vector register at issue (R86). -/
def runRetag (v : Reg) (tag : FTag) (s : State) : Prog := .ok (s.setV v { s.V v with tag := tag }) 0

/-- Writes bytes of spill memory: a word that is replaced whole loses its poison (R105, R118). -/
def State.spillPut (s : State) (off : Nat) (bs : List Byte) : State :=
  let lo := (off + 7) / 8
  let hi := (off + bs.length) / 8
  s.modT fun t => { t with spill := writeBytes t.spill off bs, spPois := t.spPois.filter fun w => w < lo || hi ≤ w }

/-- Writes bytes of spill memory with their poison. -/
def State.spillPutG (s : State) (off : Nat) (bs : List GByte) : State :=
  (List.range bs.length).foldl (fun (s : State) i => if (bs.getD i ⟨0, false, false⟩).pois then
    s.modT fun t => { t with spPois := setIns t.spPois ((off + i) / 8) } else s) (s.spillPut off (bs.map (·.b)))

/-- TAGGET at issue (R87), where an odd offset raises ALIGN. DESIGN CHOICE (log 74). -/
def runTagget (v : Reg) (off : BitVec 14) (s : State) : Prog :=
  whole (do
    efailIf (off.toNat % 2 != 0) cALIGN
    eupd fun s => s.spillPut off.toNat (leBytes 2 (s.V v).tag.toNat)) s

/-- TAGCHK at issue (R88). Under .noexp a descriptor tag that is malformed in EXP alone (R65) is compared as any other and raises nothing of its own.
DESIGN CHOICE (log 77). -/
def runTagchk (k : Cmd) (noexp : Bool) (x : TagReg) (tag : FTag) (s : State) : Prog :=
  let t := match x with | .v n => (s.V n).tag | .d _ => dTag (k.d 0)
  let m : FTag := if noexp then 0x07FF else 0xFFFF
  whole (efailIf ((t ^^^ tag) &&& m != 0) cTAGMIS) s

/-! ### Adjoints (R89, R308) -/

/-- One accumulation: gradient element := RoundRNE(g + y) in its format, the sum exact (R308). A poisoned or tier-failed gradient word is
consumed. -/
def gradAdd (g : Desc) (r c : Nat) (y : Num) : E FFlags := do
  let (x, f0) ← eVal g r c
  let (z, f1) := Num.add .rne x y
  let (b, f2) := convert (dFmt g) .rne false z
  ePut g r c b
  pure (f0 ||| f1 ||| f2)

/-- The adjoint of a class 4 command: y is formed from each element of gD and added into gA (R89). -/
def adjClass4 (k : Cmd) (gd ga : Desc) (s : State) : Prog :=
  checkedElems .vf (do let s ← enow; echeck (operandFault [(ga, [1]), (gd, [1])] (destIllop s ga)); topBlkop k (abRanges ga))
    (dRows ga * dCols ga) k.upc (fun i => do
      let (r, c) := rowCol ga i
      let (x, f0) ← eVal gd r c
      match k.instr with
      | .cvts .. =>
        let (y, f1) := convert (dFmt ga) .rne false x
        let seed := BitVec.ofNat 64 (leNat (← eResAt k 0 8))
        let idx := BitVec.ofNat 64 (leNat (← eResAt k 8 8))
        let (g, f2) ← eVal ga r c
        let (z, f3) := Num.add .rne g (elemVal (dFmt ga) y)
        let (b, f4) := convertSR (dFmt ga) false seed (idx + BitVec.ofNat 64 i) z
        ePut ga r c b
        pure (f0 ||| f1 ||| f2 ||| f3 ||| f4)
      | .scalex _ _ _ _ n =>
        let (y, f1) := convert (dFmt ga) .rne false (x.scale n.toInt)
        let f2 ← gradAdd ga r c (elemVal (dFmt ga) y)
        pure (f0 ||| f1 ||| f2)
      | .dqw .. =>
        let (y, f1) := convert 7 .rne false x
        let f2 ← gradAdd ga r c (elemVal 7 y)
        pure (f0 ||| f1 ||| f2)
      | _ =>
        let (y, f1) := convert (dFmt ga) .rne false x
        let f2 ← gradAdd ga r c (elemVal (dFmt ga) y)
        pure (f0 ||| f1 ||| f2)) s

/-! ### Routing -/

/-- CVT (R79). -/
def execCvt (tk : Tok) (dD dA : DCode) (rm : RM) (sat : Bool) (sf df : BitVec 4) (s : State) : Out :=
  routed (.cvt tk dD dA rm sat sf df) (pure ()) s

/-- CVTS (R79). -/
def execCvts (tk : Tok) (dD dA : DCode) (rb rc : Reg) (sat : Bool) (sf df : BitVec 4) (s : State) : Out :=
  routed (.cvts tk dD dA rb rc sat sf df) (pure ()) s

/-- QNTW (R82). -/
def execQntw (tk : Tok) (dD dA : DCode) (rm : RM) (sf df : BitVec 4) (s : State) : Out :=
  routed (.qntw tk dD dA rm sf df) (pure ()) s

/-- DQW (R82). -/
def execDqw (tk : Tok) (dD dA : DCode) (rm : RM) (sf df : BitVec 4) (s : State) : Out :=
  routed (.dqw tk dD dA rm sf df) (pure ()) s

/-- RETAG of a vector register (R86). -/
def execRetag (tk : Tok) (v : Reg) (tag : FTag) (s : State) : Out := routed (.retag tk v tag) (pure ()) s

/-- RETAG.dsc (R86): the control core replaces TAG when it routes the command. -/
def execRetagDsc (tk : Tok) (dd : DCode) (tag : FTag) (s : State) : Out :=
  routed (.retagDsc tk dd tag) (do
    let d ← rdD dd
    let s ← now
    if s.queueRoom .compute then upd fun s => s.setD dd ((d &&& ~~~(0xFFFF#256 <<< 16)) ||| ((tag.setWidth 256) <<< 16))
    else pure ()) s

/-- TAGGET (R87). -/
def execTagget (tk : Tok) (v : Reg) (off : BitVec 14) (s : State) : Out := routed (.tagget tk v off) (pure ()) s

/-- TAGCHK (R88). -/
def execTagchk (tk : Tok) (noexp : Bool) (x : TagReg) (tag : FTag) (s : State) : Out :=
  routed (.tagchk tk noexp x tag) (pure ()) s

/-- SCALEX (R85). -/
def execScalex (tk : Tok) (rm : RM) (dD dA : DCode) (n : BitVec 10) (s : State) : Out :=
  routed (.scalex tk rm dD dA n) (pure ()) s

end Sys2Proof.Machine
end

