-- ==== Sys2Proof/Machine/Copy.lean ====
section
/-! DEFINITION. Class 5, the copy engines (07_copy_engines.md R157 to R184): the traverse sequencer, COPY, FILL, GTHR, SCTR, FARD, CMPX,
TIERQ, their adjoints, and the flash sectors' arrival. -/

namespace Sys2Proof.Machine

/-! ### The traverse sequencer (R160 to R163) -/

/-- Elements of the traverse state. -/
def Traverse.count (t : Traverse) : Nat := (List.finRange 6).foldl (fun e l => e * t.n[l].toNat) 1

/-- The indices of element j (R163). -/
def Traverse.index (t : Traverse) (j : Nat) : Fin 6 → Nat := fun l =>
  j / ((List.finRange 6).foldl (fun e m => if m.val < l.val then e * t.n[m].toNat else e) 1) % t.n[l].toNat

/-- What GlobalAddress returns (R163). -/
inductive GAddr where
  | out
  | at_ (g : Word) (remapped : Bool)
  deriving DecidableEq, Repr

/-- A coordinate in bounds, or where its mode leads; none: OUT (R163). -/
def boundCoord (mode : OobMode) (c : Int) (b : Nat) : Option Int :=
  if b = 0 ∨ (0 ≤ c ∧ c < b) then some c
  else match mode with
    | .mirrorE => let t := c % (2 * (b : Int)); some (if t < b then t else 2 * b - 1 - t)
    | .mirrorN => if b = 1 then some 0 else let t := c % (2 * (b : Int) - 2); some (if t < b then t else 2 * b - 2 - t)
    | _ => none

/-- GlobalAddress of R163 for side strides S. -/
def Traverse.global (t : Traverse) (g : Word) (st : Vector (BitVec 32) 6) (j : Nat) : GAddr :=
  (List.finRange 6).foldl (fun acc l => match acc with
    | .out => .out
    | .at_ a r =>
      let o := t.o[l].toInt
      let c := o + t.index j l
      match boundCoord t.mode c t.b[l].toNat with
      | none => .out
      | some m => .at_ (a + BitVec.ofInt 64 ((m - o) * st[l].toInt)) (r || m != c)) (.at_ g false)

/-- The buffer byte of element j. -/
def Traverse.buffer (t : Traverse) (base : Nat) (st : Vector (BitVec 32) 6) (j : Nat) : Int :=
  (List.finRange 6).foldl (fun (a : Int) l => a + t.index j l * st[l].toInt) base

/-- Lowest and highest start of an element on the buffer side. -/
def Traverse.extent (t : Traverse) (base : Nat) (st : Vector (BitVec 32) 6) : Int × Int :=
  (List.finRange 6).foldl (fun (a : Int × Int) l =>
    let d := ((t.n[l].toNat : Int) - 1) * st[l].toInt
    (a.1 + min 0 d, a.2 + max 0 d)) (base, base)

/-- Whether a stride of a level with more than one element is not a multiple of m. -/
def Traverse.strideOff (t : Traverse) (st : Vector (BitVec 32) 6) (m : Nat) : Bool :=
  (List.finRange 6).any fun l => 1 < t.n[l].toNat && st[l].toInt % m != 0

/-- TRVL at issue (R161). -/
def Traverse.setLevel (t : Traverse) (l : Nat) (a : Word) (ss ds : BitVec 32) : Option Traverse :=
  if h : l < 6 then
    if a = 0 || 2 ^ 24 < a.toNat then none
    else some { t with n := t.n.set l (a.setWidth 32), ss := t.ss.set l ss, ds := t.ds.set l ds }
  else none

/-- TRVS at issue (R162). -/
def Traverse.setShape (t : Traverse) (mode : OobMode) (a b c : Word) (bs : Bounds) : Traverse :=
  { t with o := #v[a.extractLsb' 0 32, a.extractLsb' 32 32, b.extractLsb' 0 32, b.extractLsb' 32 32, c.extractLsb' 0 32,
                   c.extractLsb' 32 32],
           b := #v[bs.b0, bs.b1, bs.b2, bs.b3, bs.b4, bs.b5], mode := mode }

/-- TRVL at issue in an engine (R161): a bad extent raises ILLOP and changes nothing. -/
def runTrvl (out : Bool) (l : Nat) (a : Word) (ss ds : BitVec 32) (s : State) : Prog :=
  match (if out then s.core.t.tout else s.core.t.tin).setLevel l a ss ds with
  | none => { Prog.ok s 0 with stop := some (.fault cILLOP none 0) }
  | some t => .ok (s.modT fun k => if out then { k with tout := t } else { k with tin := t }) 0

/-- TRVS at issue in an engine (R162). -/
def runTrvs (out : Bool) (mode : OobMode) (a b c : Word) (bs : Bounds) (s : State) : Prog :=
  .ok (s.modT fun k => if out then { k with tout := k.tout.setShape mode a b c bs } else { k with tin := k.tin.setShape mode a b c bs }) 0

/-! ### COPY and FILL (R164 to R170) -/

/-- Number of a buffer space. -/
def spNum : BSpace → Nat
  | .wb => 0 | .ab => 1 | .cb => 2

/-- What the checks of R165 read: direction, space, element size code, buffer base and strides (none: no buffer side), global base and
strides (none: no global side). -/
structure CopyOp where
  out : Bool
  sp : Nat
  esz : Nat
  buf : Option (Nat × Vector (BitVec 32) 6)
  glb : Option (Word × Vector (BitVec 32) 6)

/-- Bytes of an element on the buffer side. -/
def CopyOp.bufSize (o : CopyOp) : Nat := if o.sp = 2 then 7 else 2 ^ o.esz

/-- Whether buffer bytes of some element meet one of the ranges. -/
def CopyOp.meets (o : CopyOp) (t : Traverse) (l : List (Nat × Nat)) : Bool :=
  match o.buf with
  | none => false
  | some (b, st) =>
    let l := l.filter fun r => r.2 != 0
    !l.isEmpty && (List.range t.count).any fun j =>
      let x := t.buffer b st j
      l.any fun r => rangeMeets (x.toNat, (x + o.bufSize).toNat - x.toNat) r

/-- The checks of R165 and R163 on a traverse state, in order, and R352's of the copy-out engine. -/
def checkCopy (t : Traverse) (o : CopyOp) (blk : Bool) : E Unit := do
  let s ← enow
  let m := min (2 ^ o.esz) 8
  efailIf (2 ^ 40 < t.count) cILLOP
  efailIf (o.buf.isSome && ((!o.out && o.sp = 2) || (o.out && o.sp = 0))) cILLOP
  efailIf (match o.buf with
    | some (b, st) => o.sp = 2 && (o.esz != 3 || b % 7 != 0 || t.strideOff st 7)
    | none => false) cILLOP
  let slots := (slotsOf s.core.t).map (·.2.2)
  efailIf (o.sp = 1 && o.meets t (if o.out then slots else topRange s.core.t :: slots)) cILLOP
  efailIf (match o.glb with
    | some (g, st) => g.toNat % m != 0 || t.strideOff st m
    | none => false) cALIGN
  efailIf (match o.buf with
    | some (b, st) => o.sp != 2 && (b % m != 0 || t.strideOff st m)
    | none => false) cALIGN
  efailIf (match o.buf with
    | some (b, st) => let (lo, hi) := t.extent b st; lo < 0 || (spaceBytes o.sp : Int) < hi + o.bufSize
    | none => false) cOOB
  efailIf (blk && o.out && o.sp = 2) cBLKOP

/-- Runs elements and, at a failure of a lower tier, marks the buffer words of the failing and the later elements (R169). -/
def copyLoop (chk : E Unit) (count upc : Nat) (body : Nat → E Unit) (mark : State → Nat → State) (s : State) : Prog :=
  let p := checkedElems .vf chk count upc (fun j => do body j; pure 0) s
  match p.stop with
  | some (.status 0x10 _) | some (.status 0x11 _) | some (.status 0x13 _) =>
    { p with s := (List.range (count - p.upc)).foldl (fun s i => mark s (p.upc + i)) p.s }
  | _ => p

/-- One element of COPY.in (R166). -/
def copyInElem (t : Traverse) (sp esz base : Nat) (g : Word) (hbm : Bool) (j : Nat) : E Unit := do
  let b := (t.buffer base t.ds j).toNat
  match t.global g t.ss j with
  | .out => if t.mode = .trap then efail cOOB else eWriteB sp b (cleanBytes (List.replicate (2 ^ esz) 0))
  | .at_ a _ => do
    let l ← eRange .r a (2 ^ esz)
    if hbm && piecesTier l = 3 then eend 0x12 3
    else do
      let s ← enow
      let bs := readPieces s l
      if bs.any (·.fail) then eend 0x11 (piecesTier l) else eWriteB sp b bs

/-- COPY.in at the queue head (R164 to R169). -/
def runCopyIn (k : Cmd) (sp : BSpace) (off : BitVec 20) (f : CopyF) (s : State) : Prog :=
  let t := s.core.t.tin
  let base := (k.v 0).toNat
  let g := k.v 1 + sx off
  let esz := f.esz.toNat
  let o : CopyOp := ⟨false, spNum sp, esz, some (base, t.ds), some (g, t.ss)⟩
  copyLoop (checkCopy t o k.blk.isSome) t.count k.upc (copyInElem t (spNum sp) esz base g f.hbm)
    (fun s j => s.modB fun b => b.markFail (spNum sp) (t.buffer base t.ds j).toNat (2 ^ esz)) s

/-- One element of COPY.out (R166). -/
def copyOutElem (t : Traverse) (sp esz base : Nat) (g : Word) (hbm : Bool) (j : Nat) : E Unit := do
  match t.global g t.ds j with
  | .out => if t.mode = .trap then efail cOOB else pure ()
  | .at_ a r => do
    if r then pure ()
    else do
      let l ← eRange .w a (2 ^ esz)
      if hbm && piecesTier l = 3 then eend 0x12 3
      else do
        let bs ← eReadB sp (t.buffer base t.ss j).toNat (2 ^ esz)
        eWriteTier l bs

/-- COPY.out at the queue head (R164 to R169). -/
def runCopyOut (k : Cmd) (sp : BSpace) (off : BitVec 20) (f : CopyF) (s : State) : Prog :=
  let t := s.core.t.tout
  let base := (k.v 0).toNat
  let g := k.v 1 + sx off
  let o : CopyOp := ⟨true, spNum sp, f.esz.toNat, some (base, t.ss), some (g, t.ds)⟩
  copyLoop (checkCopy t o k.blk.isSome) t.count k.upc (copyOutElem t (spNum sp) f.esz.toNat base g f.hbm) (fun s _ => s) s

/-- FILL.in at the queue head (R170). -/
def runFillIn (k : Cmd) (sp : BSpace) (esz : BitVec 2) (s : State) : Prog :=
  let t := s.core.t.tin
  let base := (k.v 0).toNat
  let n := 2 ^ esz.toNat
  let o : CopyOp := ⟨false, spNum sp, esz.toNat, some (base, t.ds), none⟩
  copyLoop (checkCopy t o k.blk.isSome) t.count k.upc
    (fun j => eWriteB (spNum sp) (t.buffer base t.ds j).toNat (cleanBytes (leBytes n (k.v 1).toNat))) (fun s _ => s) s

/-- FILL.out at the queue head (R170). -/
def runFillOut (k : Cmd) (off : BitVec 20) (esz : BitVec 2) (s : State) : Prog :=
  let t := s.core.t.tout
  let g := k.v 0 + sx off
  let n := 2 ^ esz.toNat
  let o : CopyOp := ⟨true, 3, esz.toNat, none, some (g, t.ds)⟩
  copyLoop (checkCopy t o k.blk.isSome) t.count k.upc (fun j =>
    match t.global g t.ds j with
    | .out => if t.mode = .trap then efail cOOB else pure ()
    | .at_ a r => if r then pure () else eWriteG a (cleanBytes (leBytes n (k.v 1).toNat))) (fun s _ => s) s

/-! ### GTHR and SCTR (R171, R172) -/

/-- Bytes of one row of a table in global memory (R171). -/
def rowBytes (d : Desc) : Nat := (dCols d * elemBits (dFmt d) + 7) / 8

/-- The checks of R171 and R172: captured values base, list, count; the buffer side's row length and the room it needs. DEDUCED (log 42). -/
def checkRows (k : Cmd) (sp : Nat) (dstride : BitVec 32) (out : Bool) : E Unit := do
  let s ← enow
  let d := k.d 0
  let n := (k.v 2).toNat
  let f := dFmt d
  let unit := if sp = 2 then 7 else 1
  let row := if sp = 2 then 7 * dCols d else rowBytes d
  let b := (k.v 0).toNat
  efailIf (sp = (if out then 0 else 2) || n = 0 || 65536 < n || dSpace d != 3 || dColmaj d || dSpl d || dRows d = 0 || dCols d = 0 || f == 9 || f == 0xA ||
    !tagWf (dTag d) || dStride d < rowBytes d || dstride.toNat < row || b % unit != 0 || dstride.toNat % unit != 0) cILLOP
  let ranges := (List.range n).map fun j => (b + j * dstride.toNat, row)
  efailIf (sp = 1 && (meetsSlot s.core.t ranges || (!out && meetsTop s.core.t ranges))) cILLOP
  efailIf (f == 0 || (sp = 2 && f != 0xB)) cTAGMIS
  efailIf ((k.v 1).toNat % 4 != 0 || dBase d % max 1 (elemBits f / 8) != 0) cALIGN
  efailIf (spaceBytes sp < b + (n - 1) * dstride.toNat + row) cOOB

/-- The table row that index k names (R171, R172); none: out of range. -/
def tableRow (d : Desc) (i : Int) : Option Int := boundCoord (dOobm d) i (dRows d)

/-- The address of a table row. -/
def rowAddr (d : Desc) (i : Int) : Word := BitVec.ofNat 64 (dBase d) + BitVec.ofInt 64 (i * dStride d)

/-- Reads index j of a list (R168, R171). -/
def readIndex (l : Word) (j : Nat) : E Int := do
  let bs ← eUseG (l + BitVec.ofNat 64 (4 * j)) 4
  pure (intOf 32 true (leNat bs))

/-- GTHR at the queue head (R171). -/
def runGthr (k : Cmd) (sp : BSpace) (dstride : BitVec 32) (s : State) : Prog :=
  let d := k.d 0
  let r := rowBytes d
  let at_ (j : Nat) := (k.v 0).toNat + j * dstride.toNat
  copyLoop (checkRows k (spNum sp) dstride false) (k.v 2).toNat k.upc (fun j => do
    let i ← readIndex (k.v 1) j
    match tableRow d i with
    | none => if dOobm d = .trap then efail cOOB else eWriteB (spNum sp) (at_ j) (cleanBytes (List.replicate r 0))
    | some i => do
      let l ← eRange .r (rowAddr d i) r
      let s ← enow
      let bs := readPieces s l
      if bs.any (·.fail) then eend 0x11 (piecesTier l) else eWriteB (spNum sp) (at_ j) bs)
    (fun s j => s.modB fun b => b.markFail (spNum sp) (at_ j) r) s

/-- SCTR at the queue head (R172): a row of an index out of range is dropped, under TRAP it raises OOB. -/
def runSctr (k : Cmd) (sp : BSpace) (dstride : BitVec 32) (s : State) : Prog :=
  let d := k.d 0
  let r := rowBytes d
  copyLoop (checkRows k (spNum sp) dstride true) (k.v 2).toNat k.upc (fun j => do
    let i ← readIndex (k.v 1) j
    if 0 ≤ i && i < dRows d then do
      let l ← eRange .w (rowAddr d i) r
      let bs ← eReadB (spNum sp) ((k.v 0).toNat + j * dstride.toNat) r
      eWriteTier l bs
    else if dOobm d = .trap then efail cOOB else pure ()) (fun s _ => s) s

/-! ### FARD (R173, R174) -/

/-- A flash window (R174): port, namespace, length and start in MiB. -/
def flwPort (w : Word) : Nat := (w.extractLsb' 62 2).toNat
def flwNsi (w : Word) : Nat := (w.extractLsb' 56 6).toNat
def flwLen (w : Word) : Nat := (w.extractLsb' 28 28).toNat
def flwStart (w : Word) : Nat := (w.extractLsb' 0 28).toNat

/-- The flash window of a FARD as its routing captured it (R147). -/
def Cmd.flw (k : Cmd) : Word := k.sysr.getD 3 0

/-- The checks of R173 and the charge made once, at micro-PC 0: window and limit as captured at routing (R147), USED as it stands. DEDUCED (log 67). -/
def fardStart (k : Cmd) (sp : FSpace) : E Unit := do
  let s ← enow
  let d := (k.v 0).toNat
  let a := (k.v 1).toNat
  let c := (k.v 2).toNat
  let win := k.flw
  efailIf (c = 0 || 2 ^ 24 < c) cILLOP
  let n := match sp with | .wb => some 0 | .ab => some 1 | .g => none
  efailIf (n = some 1 && (meetsSlot s.core.t [(d, c)] || meetsTop s.core.t [(d, c)])) cILLOP
  efailIf (a % 512 != 0 || c % 512 != 0 || d % 64 != 0) cALIGN
  efailIf (flwLen win = 0) cPROT
  efailIf (flwLen win * 2 ^ 20 < a + c) cOOB
  efailIf (match n with | some sp => spaceBytes sp < d + c | none => false) cOOB
  let q := s.cx.qflash
  let used := (q.extractLsb' 24 40).toNat + (c + 4095) / 4096
  let limit := ((k.sysr.getD 4 0).extractLsb' 0 24).toNat
  efailIf (limit != 0 && limit * 256 < used) cQUOTA
  eupd fun s => s.modX s.cid fun x => { x with qflash := (BitVec.ofNat 40 used) ++ (q.extractLsb' 0 24) }

/-- Bytes of a flash namespace (R173, R393). -/
def State.drive (s : State) (win : Word) (off n : Nat) : List Byte :=
  readBytes s.flash ((flwPort win * 64 + flwNsi win) * 2 ^ 64 + flwStart win * 2 ^ 20 + off) n

/-- One sector of a FARD arrives and is written (R173); of a port in CXL mode no controller answers, and its transfer fails (R169, R393). -/
def fardSector (k : Cmd) (sp : FSpace) (i : Nat) : E Unit := do
  let s ← enow
  if !s.nvme (flwPort k.flw) then eend 0x13 4 else pure ()
  let bs := cleanBytes (s.drive k.flw ((k.v 1).toNat + 512 * i) 512)
  match sp with
  | .wb => eWriteB 0 ((k.v 0).toNat + 512 * i) bs
  | .ab => eWriteB 1 ((k.v 0).toNat + 512 * i) bs
  | .g => eWriteG (k.v 0 + BitVec.ofNat 64 (512 * i)) bs

/-! ### CMPX (R182) -/

/-- The bytes of a block at its home. -/
def State.blockBytes (s : State) (blk : Nat) : List Byte := s.homeBytes (512 * blk) 512

/-- Charges d slots for a block and applies an update, or faults (R175). -/
def cmpxCharge (blk : Nat) (d : Int) (f : Mem → Mem) : E Unit := fun s =>
  match s.charge s.cid (512 * blk) d with
  | .error c => .error (.fault c none 0)
  | .ok s => .ok ((), s.modM f)

/-- Re-encodes one block (R179, R182): to raw it claims eight slots, in the pool or else in the reserve; to compressed it keeps what it needs and frees
the rest, and a block in the reserve returns to the pool where that can hold it. DESIGN CHOICE (log 38). -/
def cmpxBlock (cmp : Bool) (pa i : Nat) : E Unit := fun s =>
  let blk := pa / 4096 * 8 + i
  match s.aperture (512 * blk) with
  | none => .ok ((), s)
  | some p =>
    let b := (Sparse.find s.mem.comp blk).getD ⟨8, false, s.cid, true⟩
    let need := blockNeed (s.blockBytes blk)
    if s.homeFail (512 * blk) 512 then .error (.status 0x11 (tierOf (512 * blk)))
    else if setHas s.mem.rollb blk then .error (.status 0x21 (tierOf (512 * blk)))
    else if cmp != b.raw then .ok ((), s)
    else if cmp then
      if !b.resv then
        cmpxCharge blk ((need : Int) - 8) (fun m =>
          { m with comp := Sparse.ins m.comp blk ⟨need, false, s.cid, false⟩, pool := addUse m.pool p ((need : Int) - 8) }) s
      else if s.poolHas p need then
        cmpxCharge blk ((need : Int) - 8) (fun m =>
          { m with comp := Sparse.ins m.comp blk ⟨need, false, s.cid, false⟩, pool := addUse m.pool p need, resv := addResv m.resv p (-8) }) s
      else .ok ((), s.modM fun m => { m with comp := Sparse.ins m.comp blk { b with raw := false } })
    else if b.resv then .ok ((), s.modM fun m => { m with comp := Sparse.ins m.comp blk { b with raw := true } })
    else if s.poolHas p (8 - b.slots) then
      cmpxCharge blk (8 - (b.slots : Int)) (fun m =>
        { m with comp := Sparse.del m.comp blk, pool := addUse m.pool p (8 - (b.slots : Int)) }) s
    else if s.resvHas p 8 then
      cmpxCharge blk (8 - (b.slots : Int)) (fun m =>
        { m with comp := Sparse.ins m.comp blk ⟨8, true, s.cid, true⟩, pool := addUse m.pool p (-(b.slots : Int)), resv := addResv m.resv p 8 }) s
    else .error (.fault cCOMPCAP none 0)

/-- CMPX at the queue head (R182): the block index is the micro-PC; a frame outside any aperture ends with status 0x22, a transaction that is rolled
back with 0x21 (R181). -/
def runCmpx (k : Cmd) (cmp : Bool) (s : State) : Prog :=
  match exlate (k.v 0) .w s with
  | .error e => { Prog.ok s k.upc with stop := some e }
  | .ok (x, s) =>
    if (s.aperture (x.pa / 4096 * 4096)).isNone then { Prog.ok s 0 with stop := some (.status 0x22 0) }
    else elems .vf (fun i => do cmpxBlock cmp x.pa i; pure 0) (8 - k.upc) k.upc s

/-! ### Adjoints of the copies (R184) -/

/-- Adds y to an element of a format in AB (R308); the flags join those of the atomics. -/
def accBuf (fmt : BitVec 4) (off : Int) (y : Num) : E Unit := do
  let n := elemBits fmt / 8
  efailIf (off < 0 || (Config.abBytes : Int) < off + n) cOOB
  let bs ← eBytes 1 off.toNat n
  let (z, f1) := Num.add .rne (elemVal fmt (leNat bs)) y
  let (b, f2) := convert fmt .rne false z
  eupd fun s => (s.modB fun k => k.write 1 off.toNat (leBytes n b)).modY fun t => { t with atfl := t.atfl ||| f1 ||| f2 }

/-- Translation of an atomic's target: a device page raises PROT. -/
def atomXlate (va : Word) : E Xl := do
  let x ← exlate va .w
  if x.cls = 2 then efailAt cPROT va else pure x

/-- Adds y to an element of a format in global memory, as an ordered tensor AWR .fadd does at its home (R186, R191 to R194). The sum of an integer
format saturates; a format of less than a byte has no atomic, and nothing is added. DESIGN CHOICE (log 68). -/
def accGlobal (fmt : BitVec 4) (va : Word) (y : Num) : E Unit := do
  let n := elemBits fmt / 8
  if n = 0 then pure ()
  else if va.toNat % n != 0 then efailAt cALIGN va
  else do
  let x ← atomXlate va
  let s ← enow
  if s.homeFail x.pa n then eend 0x11 (tierOf x.pa)
  else if s.txBack x.pa then eend 0x21 (tierOf x.pa)
  else do
    if s.homePoisN x.pa n then efailAt cPOISON va else pure ()
    let (z, f1) := Num.add .rne (elemVal fmt (s.homeLe x.pa n)) y
    let (b, f2) := convert fmt .rne false z
    eWriteAt [(va, x, n)] (cleanBytes (leBytes n b))
    eupd fun s => s.modY fun t => { t with atfl := t.atfl ||| f1 ||| f2 }

/-- Values of a format in AB, n of them from an offset. -/
def gradBuf (fmt : BitVec 4) (off : Int) : Nat → E (List Num)
  | 0 => pure []
  | n + 1 => do
    let w := elemBits fmt / 8
    efailIf (off < 0 || (Config.abBytes : Int) < off + w) cOOB
    let bs ← eBytes 1 off.toNat w
    pure (elemVal fmt (leNat bs) :: (← gradBuf fmt (off + w) n))

/-- Values of a format in global memory, n of them from an address. -/
def gradGlobal (fmt : BitVec 4) (va : Word) : Nat → E (List Num)
  | 0 => pure []
  | n + 1 => do
    let w := elemBits fmt / 8
    let bs ← eUseG va w
    pure (elemVal fmt (leNat bs) :: (← gradGlobal fmt (va + BitVec.ofNat 64 w) n))

/-- Adds values to consecutive elements in AB, in global memory. -/
def accBufs (fmt : BitVec 4) (off : Int) : List Num → E Unit
  | [] => pure ()
  | y :: l => do accBuf fmt off y; accBufs fmt (off + (elemBits fmt / 8 : Nat)) l
def accGlobals (fmt : BitVec 4) (va : Word) : List Num → E Unit
  | [] => pure ()
  | y :: l => do accGlobal fmt va y; accGlobals fmt (va + BitVec.ofNat 64 (elemBits fmt / 8)) l

/-- The AB byte of the gradient of buffer byte o (R292); none where the displacement is not valid. -/
def gradOff (g : GMap) (sp : Nat) (o : Int) : Option Int :=
  if sp = 1 then (if g.gfl.getLsbD 1 then some (o + g.gab.toInt) else none)
  else if sp = 0 then (if g.gfl.getLsbD 2 then some (o + g.gwb.toNat) else none)
  else none

/-- The gradient of a global byte (R292). -/
def gradVa (g : GMap) (va : Word) : Word := va + g.ggd

/-- A traverse state as words, and back: N, SS, DS, O, B by level, and the mode. -/
def modeNum : OobMode → Nat
  | .trap => 0 | .zero => 1 | .mirrorE => 2 | .mirrorN => 3
def modeOf (n : Nat) : OobMode := match n % 4 with | 0 => .trap | 1 => .zero | 2 => .mirrorE | _ => .mirrorN
def Traverse.words (t : Traverse) : List Word :=
  (List.flatten [t.n.toList, t.ss.toList, t.ds.toList, t.o.toList, t.b.toList]).map (·.setWidth 64) ++ [BitVec.ofNat 64 (modeNum t.mode)]
def Traverse.ofWords (l : List Word) : Traverse :=
  let v (i : Nat) : Vector (BitVec 32) 6 := Vector.ofFn fun j => (l.getD (6 * i + j.val) 0).setWidth 32
  ⟨v 0, v 1, v 2, v 3, v 4, modeOf (l.getD 30 0).toNat⟩

/-- The traverse state of the forward command, which an adjoint holds after the captured scalars (R184, R295). -/
def Cmd.trav (k : Cmd) : Traverse := Traverse.ofWords (k.vals.drop (regsOf k.instr).length)

/-- An adjoint of a copy writes no landing slot, and in the copy-out engine it reads none (R352). -/
def adjDest (l : List (Int × Nat)) : E Unit := do
  let s ← enow
  let bytes (r : Int × Nat) : Nat × Nat := (r.1.toNat, (r.1 + r.2).toNat - r.1.toNat)
  efailIf (meetsSlot s.core.t (l.map bytes)) cILLOP

/-- Adjoint of COPY.in, in the copy-out engine (R184). -/
def adjCopyIn (k : Cmd) (g : GMap) (sp : BSpace) (off : BitVec 20) (f : CopyF) (s : State) : Prog :=
  let t := k.trav
  let n := 2 ^ f.esz.toNat / (elemBits f.afmt / 8)
  let src := (List.range t.count).filterMap fun j => (gradOff g (spNum sp) (t.buffer (k.v 0).toNat t.ds j)).map (·, 2 ^ f.esz.toNat)
  checkedElems .vf (adjDest src) t.count k.upc (fun j => do
    match t.global (k.v 1 + sx off) t.ss j, gradOff g (spNum sp) (t.buffer (k.v 0).toNat t.ds j) with
    | .at_ a _, some o => do
      let ys ← gradBuf f.afmt o n
      accGlobals f.afmt (gradVa g a) ys
      pure 0
    | _, _ => pure 0) s

/-- Adjoint of COPY.out, in the copy-in engine (R184). DEDUCED (log 44). -/
def adjCopyOut (k : Cmd) (g : GMap) (sp : BSpace) (off : BitVec 20) (f : CopyF) (s : State) : Prog :=
  let t := k.trav
  let n := 2 ^ f.esz.toNat / (elemBits f.afmt / 8)
  let dst := (List.range t.count).filterMap fun j => (gradOff g (spNum sp) (t.buffer (k.v 0).toNat t.ss j)).map (·, 2 ^ f.esz.toNat)
  checkedElems .vf (adjDest dst) t.count k.upc (fun j => do
    match t.global (k.v 1 + sx off) t.ds j, gradOff g (spNum sp) (t.buffer (k.v 0).toNat t.ss j) with
    | .at_ a false, some o => do
      let ys ← gradGlobal f.afmt (gradVa g a) n
      accBufs f.afmt o ys
      pure 0
    | _, _ => pure 0) s

/-- Adjoint of GTHR, in the copy-out engine (R184): the index list is read again. -/
def adjGthr (k : Cmd) (g : GMap) (sp : BSpace) (dstride : BitVec 32) (s : State) : Prog :=
  let d := k.d 0
  let src := (List.range (k.v 2).toNat).filterMap fun (j : Nat) => (gradOff g (spNum sp) ((k.v 0).toNat + j * dstride.toNat)).map (·, rowBytes d)
  checkedElems .vf (adjDest src) (k.v 2).toNat k.upc (fun j => do
    let i ← readIndex (k.v 1) j
    match tableRow d i, gradOff g (spNum sp) ((k.v 0).toNat + j * dstride.toNat) with
    | some i, some o => do
      let ys ← gradBuf (dFmt d) o (dCols d)
      accGlobals (dFmt d) (gradVa g (rowAddr d i)) ys
      pure 0
    | _, _ => pure 0) s

/-- Whether an index occurs again later in a list. -/
def occursLater (l : Word) (i : Int) (j : Nat) : Nat → E Bool
  | 0 => pure false
  | n + 1 => do
    let x ← readIndex l (j + n + 1)
    if x = i then pure true else occursLater l i j n

/-- Adjoint of SCTR, in the copy-in engine (R184): only the last occurrence of each index adds. -/
def adjSctr (k : Cmd) (g : GMap) (sp : BSpace) (dstride : BitVec 32) (s : State) : Prog :=
  let d := k.d 0
  let n := (k.v 2).toNat
  let dst := (List.range n).filterMap fun (j : Nat) => (gradOff g (spNum sp) ((k.v 0).toNat + j * dstride.toNat)).map (·, rowBytes d)
  checkedElems .vf (adjDest dst) n k.upc (fun j => do
    let i ← readIndex (k.v 1) j
    match gradOff g (spNum sp) ((k.v 0).toNat + j * dstride.toNat) with
    | some o => do
      if 0 ≤ i && i < dRows d && !(← occursLater (k.v 1) i j (n - 1 - j)) then do
        let ys ← gradGlobal (dFmt d) (gradVa g (rowAddr d i)) (dCols d)
        accBufs (dFmt d) o ys
        pure 0
      else pure 0
    | none => pure 0) s

/-! ### Routing -/

/-- TRVL.in and TRVL.out (R161). -/
def execTrvlIn (tk : Tok) (lvl : BitVec 3) (ra : Reg) (ss ds : BitVec 32) (s : State) : Out :=
  routed (.trvlIn tk lvl ra ss ds) (pure ()) s
def execTrvlOut (tk : Tok) (lvl : BitVec 3) (ra : Reg) (ss ds : BitVec 32) (s : State) : Out :=
  routed (.trvlOut tk lvl ra ss ds) (pure ()) s

/-- TRVS.in and TRVS.out (R162). -/
def execTrvsIn (tk : Tok) (mode : OobMode) (ra rb rc : Reg) (b : Bounds) (s : State) : Out :=
  routed (.trvsIn tk mode ra rb rc b) (pure ()) s
def execTrvsOut (tk : Tok) (mode : OobMode) (ra rb rc : Reg) (b : Bounds) (s : State) : Out :=
  routed (.trvsOut tk mode ra rb rc b) (pure ()) s

/-- COPY.in and COPY.out (R164). -/
def execCopyIn (tk : Tok) (sp : BSpace) (rd ra rb : Reg) (off : BitVec 20) (f : CopyF) (s : State) : Out :=
  routed (.copyIn tk sp rd ra rb off f) (pure ()) s
def execCopyOut (tk : Tok) (sp : BSpace) (rd ra rb : Reg) (off : BitVec 20) (f : CopyF) (s : State) : Out :=
  routed (.copyOut tk sp rd ra rb off f) (pure ()) s

/-- FILL.in and FILL.out (R170). -/
def execFillIn (tk : Tok) (sp : BSpace) (rd ra : Reg) (esz : BitVec 2) (s : State) : Out :=
  routed (.fillIn tk sp rd ra esz) (pure ()) s
def execFillOut (tk : Tok) (rd ra rb : Reg) (off : BitVec 20) (esz : BitVec 2) (s : State) : Out :=
  routed (.fillOut tk rd ra rb off esz) (pure ()) s

/-- GTHR and SCTR (R171, R172). -/
def execGthr (tk : Tok) (sp : BSpace) (rd : Reg) (dT : DCode) (rb rc pol : Reg) (dstride : BitVec 32) (s : State) : Out :=
  routed (.gthr tk sp rd dT rb rc pol dstride) (pure ()) s
def execSctr (tk : Tok) (sp : BSpace) (dT : DCode) (ra rb rc pol : Reg) (dstride : BitVec 32) (s : State) : Out :=
  routed (.sctr tk sp dT ra rb rc pol dstride) (pure ()) s

/-- FARD (R173). -/
def execFard (tk : Tok) (sp : FSpace) (w : BitVec 2) (rd ra rb rc : Reg) (s : State) : Out :=
  routed (.fard tk sp w rd ra rb rc) (pure ()) s

/-- CMPX (R182). -/
def execCmpx (tk : Tok) (cmp : Bool) (ra : Reg) (s : State) : Out := routed (.cmpx tk cmp ra) (pure ()) s

/-- TIERQ (R176): the status of one of the 128 most recent command numbers. -/
def execTierq (rd : Reg) (store : Bool) (ra : Reg) (s : State) : Out :=
  ccNext s false do
    let n ← rdS ra
    let s ← now
    let t := s.core.t
    let tl := if store then t.tls.s else t.tls.l
    failIf (n == 0 || tl.i.ult n) (.cc cILLOP)
    let v : Word :=
      if n.toNat + 128 ≤ tl.i.toNat then 2
      else match (if store then t.q.store else t.q.load).find? fun k => k.num = n with
        | some k => if k.pushed then k.status else 1
        | none => Sparse.get 0 (if store then t.statS else t.statL) n.toNat
    capture 0x58 v (wrS rd)

end Sys2Proof.Machine
end

