-- ==== Sys2Proof/Machine/Atomics.lean ====
section
/-! DEFINITION. Class 6, accumulate-on-write (08_atomics.md R186 to R202): routing, the home event, quantum and speculative uses, AFLG; and
the base-die ports (R203, R204). -/

namespace Sys2Proof.Machine

/-! ### Operations (R191, R192) -/

/-- Whether a TYPE is a float format (R188). -/
def atomFloat (ty : BitVec 4) : Bool := ty == 6 || ty == 7 || ty == 8 || ty == 0xB

/-- The smaller or larger of two floats (R192): -0 below +0, the number where the other is NaN, the canonical NaN of two. -/
def fminmax (F : FloatFmt) (isMax : Bool) (a b : Nat) : Nat :=
  let x := F.decode a
  let y := F.decode b
  if x.isNan && y.isNan then F.nanBits
  else if x.isNan then b
  else if y.isNan then a
  else
    let lt := Num.lt x y || (x.isZero && y.isZero && x.sign && !y.sign)
    if lt = isMax then b else a

/-- new and the flags of an AWR operation (R192). -/
def atomOp (opc ty : BitVec 4) (u : Bool) (old v : Nat) : Nat × FFlags :=
  let w := 8 * atomBytes ty
  let less := intOf w (!u) v < intOf w (!u) old
  match opc.toNat with
  | 0 => ((old + v) % 2 ^ w, 0)
  | 1 =>
    match floatFmt? ty with
    | none => (old, 0)
    | some F =>
      let (z, f1) := Num.add .rne (F.decode (old % 2 ^ F.width)) (F.decode (v % 2 ^ F.width))
      let (b, f2) := F.round .rne false z
      (b, f1 ||| f2)
  | 2 => (if less then v else old, 0)
  | 3 => (if less || old = v then old else v, 0)
  | 4 => match floatFmt? ty with | some F => (fminmax F false (old % 2 ^ F.width) (v % 2 ^ F.width), 0) | none => (old, 0)
  | 5 => match floatFmt? ty with | some F => (fminmax F true (old % 2 ^ F.width) (v % 2 ^ F.width), 0) | none => (old, 0)
  | 6 => (old &&& v, 0)
  | 7 => (old ||| v, 0)
  | _ => (old ^^^ v, 0)

/-- What an atomic does with the old bytes: the new ones, whether they are written, the flags (R191). -/
inductive AtomAct where
  | op (opc : BitVec 4) (u : Bool) (v : Nat)
  | xch (v : Nat)
  | cas (cmp new : Nat)
  deriving DecidableEq, Repr

/-- new, whether it is written, flags. -/
def AtomAct.run (a : AtomAct) (ty : BitVec 4) (old : Nat) : Nat × Bool × FFlags :=
  let m := 2 ^ (8 * atomBytes ty)
  match a with
  | .op opc u v => let (x, f) := atomOp opc ty u old (v % m); (x, true, f)
  | .xch v => (v % m, true, 0)
  | .cas c n => if old = c % m then (n % m, n % m != old, 0) else (old, false, 0)

/-- The fields of an atomic. -/
def atomF? : Instr → Option AtomF
  | .awr _ f .. | .awrT _ f .. | .axch _ f .. | .acas _ f .. => some f
  | _ => none

/-- Whether a command is an atomic; relaxed; held; exempt from R158; anticipated (R197, R199). A tensor command has no single target with which it could
combine, and is not held. DESIGN CHOICE (log 16). -/
def isAtomic (i : Instr) : Bool := (atomF? i).isSome
def isTensor (i : Instr) : Bool := match i with | .awrT .. => true | _ => false
def isRelaxed (i : Instr) : Bool := match atomF? i with | some f => !f.ord | none => false
def isQuantum (i : Instr) : Bool := match i with | .awr _ f .. => !f.ord && f.use == 3 | _ => false
def isNord (i : Instr) : Bool := match atomF? i with | some f => !f.ord && f.use == 2 | none => false
def isSpec (i : Instr) : Bool := match atomF? i with | some f => !f.ord && f.use == 4 | none => false

/-- Target, return address and act of a scalar atomic from its captured operands; no return where RD is s0. -/
def scalarAtom (k : Cmd) : Option (BitVec 4 × Word × Option Word × AtomAct) :=
  let ret (rd : Reg) (x : Word) : Option Word := if rd = 0 then none else some x
  match k.instr with
  | .awr _ f rd _ _ off => some (f.ty, k.v 0 + sx off, ret rd (k.v 2), .op f.opc f.u (k.v 1).toNat)
  | .axch _ f rd _ _ off => some (f.ty, k.v 0 + sx off, ret rd (k.v 2), .xch (k.v 1).toNat)
  | .acas _ f rd _ _ _ off => some (f.ty, k.v 0 + sx off, ret rd (k.v 2), .cas (k.v 1).toNat (k.v 3).toNat)
  | _ => none

/-! ### The home event (R191, R193 to R195) -/

/-- What a scalar atomic does before its event (R191): alignment and both translations; the addresses it found. -/
def atomPrepare (ty : BitVec 4) (ta : Word) (ra : Option Word) : E (List Nat) := do
  let n := atomBytes ty
  if ta.toNat % n != 0 then efailAt cALIGN ta
  else match ra with
    | none => do let x ← atomXlate ta; pure [x.pa]
    | some r =>
      if r.toNat % n != 0 then efailAt cALIGN r
      else do
        let x ← atomXlate ta
        let y ← exlate r .w
        pure [x.pa, y.pa]

/-- The event at the home of n bytes (R191, R195): the old value. The home value is that of R112, whatever any view holds. -/
def atomEvent (ty : BitVec 4) (va : Word) (pa : Nat) (a : AtomAct) : E Nat := do
  let n := atomBytes ty
  let s ← enow
  if s.homeFail pa n then eend 0x11 (tierOf pa)
  else if s.txBack pa then eend 0x21 (tierOf pa)
  else if s.homePoisN pa n then efailAt cPOISON va
  else
    let old := if ty = 0xB then s.homeLe pa n % 2 ^ 56 else s.homeLe pa n
    let (new, wr, f) := a.run ty old
    if wr then fun s =>
      match writePiece s va pa (cleanBytes (leBytes n (if ty = 0xB then new % 2 ^ 56 else new))) with
      | .error c => .error (.fault c (some va) 0)
      | .ok s' => .ok (old, s'.modY fun y => { y with atfl := y.atfl ||| f })
    else pure old

/-- One event of a scalar atomic that has been sent: the update at the home, then the return value. A return write that is refused leaves
the atomic performed: `res` holds what is still to be written (R191); one that its tier fails ends the command (R194). -/
def runScalarAtom (k : Cmd) (s : State) : Prog :=
  match scalarAtom k, k.got with
  | some (ty, ta, ra, act), pa :: rest =>
    let ret (old : List Byte) (s : State) : Prog :=
      match ra, rest with
      | some r, y :: _ =>
        if s.homeFail y old.length then { Prog.ok s 0 with stop := some (.status 0x11 (tierOf y)), res := old }
        else match writePiece s r y (cleanBytes old) with
        | .error c => { Prog.ok s 0 with stop := some (.fault c (some r) 0), res := old }
        | .ok s' => .ok s' 0
      | _, _ => .ok s 0
    if k.res ≠ [] then ret k.res s
    else match atomEvent ty ta pa act s with
      | .error e => { Prog.ok s 0 with stop := some e }
      | .ok (old, s1) => ret (leBytes (atomBytes ty) old) s1
  | _, _ => .ok s k.upc

/-- The checks of AWR.t at the queue head (R193): those of COPY.out with the element size of TYPE, on the traverse state it has taken. -/
def checkAwrT (k : Cmd) (f : AtomF) (sp : BSpace) (off : BitVec 20) : E Unit :=
  let t := k.trav
  checkCopy t ⟨true, spNum sp, (atomBytes f.ty).log2, some ((k.v 1).toNat, t.ss), some (k.v 0 + sx off, t.ds)⟩ k.blk.isSome

/-- The traverse state and shape record that an AWR.t has taken at issue, after its captured scalars (R161, R162, R193). -/
def Cmd.shaped (k : Cmd) (t : Traverse) : Cmd :=
  match k.instr with
  | .awrT .. => if k.vals.length ≤ 2 then { k with vals := k.vals ++ t.words } else k
  | _ => k

/-- One element of AWR.t (R193): dropped where it is OUT or remapped; where it was performed, and with which value. -/
def awrTElem (k : Cmd) (f : AtomF) (sp : BSpace) (off : BitVec 20) (j : Nat) : E (Option (Nat × List Byte)) := do
  let t := k.trav
  let n := atomBytes f.ty
  match t.global (k.v 0 + sx off) t.ds j with
  | .out => if t.mode = .trap then efail cOOB else pure none
  | .at_ _ true => pure none
  | .at_ a false =>
    if a.toNat % n != 0 then efailAt cALIGN a
    else do
      let x ← atomXlate a
      let bs ← eBytes (spNum sp) (t.buffer (k.v 1).toNat t.ss j).toNat n
      let _ ← atomEvent f.ty a x.pa (.op f.opc f.u (leNat bs))
      pure (some (x.pa, bs))

/-- One home event of a command that has been sent (R186): of the tensor form the next element, in micro-PC order (R193). A speculative one
notes what it has added and where (R200). -/
def atomRun (k : Cmd) (s : State) : Prog :=
  match k.instr with
  | .awrT _ f sp _ _ off =>
    let n := k.trav.count
    if n ≤ k.upc then { Prog.ok s k.upc with got := k.got }
    else match awrTElem k f sp off k.upc s with
      | .error e => { Prog.ok s k.upc with stop := some e, got := k.got }
      | .ok (d, s1) =>
        let stop := if k.upc + 1 < n then some .wait else none
        match d with
        | some (pa, bs) =>
          if isSpec k.instr then { Prog.ok s1 (k.upc + 1) with stop := stop, got := k.got ++ [pa], res := k.res ++ bs }
          else { Prog.ok s1 (k.upc + 1) with stop := stop, got := k.got }
        | none => { Prog.ok s1 (k.upc + 1) with stop := stop, got := k.got }
  | _ => { runScalarAtom k s with got := k.got }

/-- What a command does when it leaves the queue (R191, R193): its checks and translations. -/
def atomIssue (k : Cmd) : E (List Nat) :=
  match k.instr with
  | .awrT _ f sp _ _ off => do checkAwrT k f sp off; pure k.got
  | _ => match scalarAtom k with
    | some (ty, ta, ra, _) => atomPrepare ty ta ra
    | none => pure []

/-- Whether the engines of the core may act: for a task that runs, or for one that has ended with commands in flight (R329), while no trap and no halt
stops them (R370, R383). -/
def enginesRun (s : State) : Bool := (s.core.running || s.core.draining) && !s.core.stopped && !s.core.health.halted && !s.core.health.haltReq

/-- The command of the store queue with a number, as it stands. -/
def State.storeCmd (s : State) (num : Word) : Option Cmd := s.core.t.q.store.find? fun k => k.num = num

/-- Settles an atomic after its event: a fault sends it back to its checks (R198), a speculative one is not done before it is confirmed. A scalar one
whose target has not been updated has nothing to take back: its phase is 4. -/
def settleAtom (k : Cmd) (p : Prog) : State :=
  (settleCmd .store k p).modCmd .store k.num fun c =>
    if c.fault.isSome then { c with ph := 0 }
    else if c.done && !c.issued then { c with ph := if !isTensor c.instr && c.status != 0 && c.res.isEmpty then 4 else 3, done := false }
    else c

/-! ### Quantum atomics (R200) -/

/-- Whether two held commands combine: equal OPC, TYPE, QNT and target. -/
def combines (a b : Cmd) : Bool :=
  match a.instr, b.instr, a.got, b.got with
  | .awr _ f _ _ _ _, .awr _ g _ _ _ _, x :: _, y :: _ => f.opc = g.opc && f.ty = g.ty && f.qnt = g.qnt && x = y
  | _, _, _, _ => false

/-- How many commands a quantum atomic's combination may hold: 2^QNT (R200). -/
def quantum (k : Cmd) : Nat := 2 ^ (match atomF? k.instr with | some f => f.qnt.toNat | none => 0)

/-- Whether a command joins a combination that stands. -/
def joins (k : Cmd) (g : List Cmd) : Bool :=
  match g with
  | [] => false
  | a :: _ => isQuantum k.instr && combines a k && g.length < quantum a

/-- Quantum commands as they combine, oldest first: consecutive ones with equal OPC, TYPE, QNT and target, up to 2^QNT of them (R200). -/
def groupUp (l : List Cmd) : List (List Cmd) :=
  l.foldl (fun gs k => match gs.getLast? with
    | some g => if joins k g then gs.dropLast ++ [g ++ [k]] else gs ++ [[k]]
    | none => [[k]]) []

/-- The combinations that the engine holds. -/
def heldGroups (s : State) : List (List Cmd) :=
  groupUp (s.core.t.q.store.filter fun k => isQuantum k.instr && k.ph = 1 && !k.done && k.fault.isNone)

/-- Whether the targets of two atomics share a byte; those of a tensor command may be anywhere. -/
def targetsMeet (a b : Cmd) : Bool :=
  match atomF? a.instr, atomF? b.instr, a.got, b.got with
  | some f, some g, x :: _, y :: _ => (isTensor a.instr || isTensor b.instr) || rangeMeets (x, atomBytes f.ty) (y, atomBytes g.ty)
  | some _, some _, _, _ => true
  | _, _, _, _ => false

/-- Whether an earlier atomic that has been sent, and that R158 orders before this one, has not been performed: one that has faulted at its event is sent
again before (R198). -/
def sentBefore (s : State) (k : Cmd) : Bool :=
  !isNord k.instr && (s.core.t.q.store.takeWhile fun c => c.num ≠ k.num).any fun c =>
    isAtomic c.instr && (c.ph = 2 || c.ph = 0 && c.issued) && !c.done && !isNord c.instr && targetsMeet c k

/-- ATOMIC_HOME_EVENT (R191, R195, R197): the oldest atomic that has been sent, and that no earlier one on its bytes holds back, is performed at the home
of its target as one event, under the registers it has captured (R147). -/
def execAtomicHomeEvent (s : State) : Out :=
  .next <|
  if !enginesRun s then s
  else match s.core.t.q.store.find? fun k => isAtomic k.instr && k.ph = 2 && !k.done && k.fault.isNone && !sentBefore s k with
    | none => s
    | some k => s.underRegs k fun s => settleAtom k (atomRun k s)

/-- The combined value of a group, and the flags of its partial sums (R199, R200). -/
def combined (opc ty : BitVec 4) : List Nat → Nat × FFlags
  | [] => (0, 0)
  | v :: l => l.foldl (fun (acc : Nat × FFlags) x => let (y, f) := atomOp opc ty false acc.1 x; (y, acc.2 ||| f)) (v, 0)

/-- A combination's home event: all of it completes, or its oldest command takes the fault and the others are sent by themselves. It waits for the
earlier atomics on its bytes (R158). -/
def flushGroup (g : List Cmd) (s : State) : State :=
  match g with
  | [] => s
  | k :: l =>
    match k.instr, k.got with
    | .awr _ f _ _ _ off, pa :: _ =>
      if sentBefore s k then s
      else s.underRegs k fun s =>
        let m := 2 ^ (8 * atomBytes f.ty)
        let (v, fl) := combined f.opc f.ty ((k :: l).map fun c => (c.v 1).toNat % m)
        let nums := (k :: l).map (·.num)
        match atomEvent f.ty (k.v 0 + sx off) pa (.op f.opc false v) s with
        | .ok (_, s1) =>
          (s1.modY fun y => { y with atfl := y.atfl ||| fl }).modQ .store fun q =>
            q.map fun c => if nums.contains c.num then { c with done := true, status := 0 } else c
        | .error e =>
          let s1 := s.modQ .store fun q => q.map fun c => if nums.contains c.num then { c with ph := 2 } else c
          settleAtom k { Prog.ok s1 0 with stop := some e, got := k.got }
    | _, _ => s

/-- Whether a command has entered its engine: it has issued, or is a speculative atomic that has been sent (R157, R200). -/
def Cmd.entered (k : Cmd) : Bool := k.issued || 2 ≤ k.ph

/-- Whether an engine holds as many commands that have not completed as it can (R157). -/
def engineFull (l : List Cmd) : Bool := Config.queueDepth ≤ l.countP fun c => c.entered && !c.pushed

/-- Whether a command at a queue head waits for a combination: for a token that one of its commands pushes, or for room in the copy-out engine. -/
def engineWaits (t : Task) (g : List Cmd) : Bool :=
  (g.any (·.tok.sp) && t.toks.sc == 0 && (t.q.compute.find? (!·.issued)).any (·.tok.pn)) ||
  (engineFull t.q.store && t.q.store.any (!·.entered))

/-- Whether a combination's moment has come (R200): 2^QNT combined, 4,096 cycles since its oldest command was issued, or an instruction that waits, of the
control core or at a queue head. -/
def groupDue (s : State) (g : List Cmd) : Bool :=
  match g with
  | [] => false
  | k :: _ => quantum k ≤ g.length || (k.got.getD 1 0) + 4096 ≤ s.now || s.core.waiting || engineWaits s.core.t g

/-- Whether a combination is due. -/
def flushDue (s : State) : Bool := (heldGroups s).any (groupDue s)

/-- QUANTUM_FLUSH (R200). -/
def execQuantumFlush (s : State) : Out :=
  .next (if !enginesRun s then s else match (heldGroups s).find? fun g => groupDue s g && (g.take 1).all (!sentBefore s ·) with
    | some g => flushGroup g s
    | none => s)

/-! ### Tokens (R18 to R20) -/

/-- The counter a queue pops from on each side, and the ones it pushes to. -/
def Tokens.canPop (t : Tokens) (q : QName) (k : Tok) : Bool :=
  match q with
  | .load => !k.pn || t.cl != 0
  | .compute => (!k.pp || t.lc != 0) && (!k.pn || t.sc != 0)
  | .store => !k.pp || t.cs != 0

/-- Both decrements at once (R20). -/
def Tokens.pop (t : Tokens) (q : QName) (k : Tok) : Tokens :=
  match q with
  | .load => if k.pn then { t with cl := t.cl - 1 } else t
  | .compute =>
    let t := if k.pp then { t with lc := t.lc - 1 } else t
    if k.pn then { t with sc := t.sc - 1 } else t
  | .store => if k.pp then { t with cs := t.cs - 1 } else t

/-- Whether every push fits below 64 (R20). -/
def Tokens.canPush (t : Tokens) (q : QName) (k : Tok) : Bool :=
  match q with
  | .load => !k.sn || t.lc != 63
  | .compute => (!k.sp || t.cl != 63) && (!k.sn || t.cs != 63)
  | .store => !k.sp || t.sc != 63

/-- All pushes of one command at once (R20). -/
def Tokens.push (t : Tokens) (q : QName) (k : Tok) : Tokens :=
  match q with
  | .load => if k.sn then { t with lc := t.lc + 1 } else t
  | .compute =>
    let t := if k.sp then { t with cl := t.cl + 1 } else t
    if k.sn then { t with cs := t.cs + 1 } else t
  | .store => if k.sp then { t with sc := t.sc + 1 } else t

/-! ### Speculative atomics (R200) -/

/-- Unconfirmed speculative atomics of the engine. -/
def unconfirmed (l : List Cmd) : Nat := l.countP fun k => !k.issued && 2 ≤ k.ph

/-- SPECULATIVE_CONFIRM (R200): the oldest unconfirmed speculative atomic takes its pops when they are satisfied. -/
def execSpeculativeConfirm (s : State) : Out :=
  .next <|
  if !enginesRun s then s
  else match s.core.t.q.store.find? fun k => !k.issued with
    | none => s
    | some k =>
      if isSpec k.instr && 2 ≤ k.ph && s.core.t.toks.canPop .store k.tok then
        (s.modT fun t => { t with toks := t.toks.pop .store k.tok }).modCmd .store k.num fun c =>
          { c with issued := true, done := 3 ≤ c.ph }
      else s

/-! ### The base-die ports (R203, R204) -/

/-- Status of the bytes of a read. -/
def portReadStatus (s : State) (pa n : Nat) : PortStatus :=
  if s.homeFail pa n then .failed else if s.homePoisN pa n then .poisoned else .ok

/-- A write's enabled bytes, word by word: a whole word clears its poison, a partly enabled one keeps it (R204, R118). -/
def portWrite (s : State) (pa : Nat) (mask : Word) (data : List Byte) : State :=
  (List.range 8).foldl (fun s w =>
    let on (i : Nat) : Bool := mask.getLsbD (8 * w + i)
    if (List.range 8).all on then s.homeWrite (pa + 8 * w) ((List.range 8).map fun i => data.getD (8 * w + i) 0)
    else (List.range 8).foldl (fun s i => if on i then s.homeWrite (pa + 8 * w + i) [data.getD (8 * w + i) 0] else s) s) s

/-- An atomic request at the base die (R195, R196, R203): the old value, which is 0 where the status says that nothing was read; a refused claim leaves the
target and answers COMPCAP. DEDUCED (log 45). -/
def portAtom (s : State) (addr : Nat) (ctx : BitVec 12) (ty : BitVec 4) (a : AtomAct) : State × PortStatus × List Byte :=
  let pa := addr / 8 * 8
  let n := atomBytes ty
  match portReadStatus s pa n with
  | .ok =>
    if s.txBack pa then (s, .rolledBack, leBytes 8 0) else
    let old := if ty = 0xB then s.homeLe pa n % 2 ^ 56 else s.homeLe pa n
    let (new, wr, _) := a.run ty old
    if wr then
      match s.store ctx pa (leBytes n (if ty = 0xB then new % 2 ^ 56 else new)) with
      | .ok s' => (s', .ok, leBytes 8 old)
      | .error _ => (s, .compcap, leBytes 8 old)
    else (s, .ok, leBytes 8 old)
  | e => (s, e, leBytes 8 0)

/-- The header of a request (R203): MASK or CTX, PA[51:3], KIND, TAG, AOPD. -/
def portHeader (hi : Word) (addr : Nat) (kind : BitVec 3) (aopd : BitVec 9) : BitVec 128 :=
  hi ++ (BitVec.ofNat 49 (addr / 8) ++ (kind ++ ((0 : BitVec 3) ++ aopd)))

/-- AOPD of an atomic: U, TYPE, OPC (R188, R203). -/
def aopd (u : Bool) (ty opc : BitVec 4) : BitVec 9 := BitVec.ofBool u ++ (ty ++ opc)

/-- The fields of a header (R203). -/
def PortReq.hi (r : PortReq) : Word := r.header.extractLsb' 64 64
def PortReq.addr (r : PortReq) : Nat := 8 * (r.header.extractLsb' 15 49).toNat
def PortReq.kind (r : PortReq) : BitVec 3 := r.header.extractLsb' 12 3
def PortReq.u (r : PortReq) : Bool := r.header.getLsbD 8
def PortReq.ty (r : PortReq) : BitVec 4 := r.header.extractLsb' 4 4
def PortReq.opc (r : PortReq) : BitVec 4 := r.header.extractLsb' 0 4

/-- The request with its tag in the header, as it is sent. -/
def PortReq.tagged (r : PortReq) (t : BitVec 3) : PortReq := { r with header := r.header ||| (t.setWidth 128 <<< (9 : Nat)) }

/-- STATUS of a reply (R203). -/
def portStatusCode : PortStatus → BitVec 4
  | .ok => 0 | .poisoned => 1 | .compcap => 2 | .failed => 3 | .rolledBack => 4

/-- The reply word (R203): TAG in [2:0], STATUS in [6:3]. -/
def replyWord (t : BitVec 3) (st : PortStatus) : BitVec 8 := (0 : BitVec 1) ++ (portStatusCode st ++ t)

/-- An atomic operand of a request: the n-th eight bytes behind its header. -/
def PortReq.operand (r : PortReq) (n : Nat) : Nat := leNat ((r.data.drop (8 * n)).take 8)

/-- The effect of a request when it is sent (R204: in request order), with its reply: failed where the tier fails the unit (R169), rolled back
where the base die's transaction is (R181), with no effect. -/
def portPerform (s : State) (r : PortReq) : State × PortStatus × List Byte :=
  let a := r.addr
  let unit := a / 64 * 64
  let ctx : BitVec 12 := r.hi.extractLsb' 0 12
  match r.kind.toNat with
  | 0 => (s, portReadStatus s unit 64, s.homeBytes unit 64)
  | 1 =>
    if s.homeFail unit 64 then (s, .failed, [])
    else if s.txBack unit then (s, .rolledBack, [])
    else (portWrite s unit r.hi r.data, .ok, [])
  | 2 => portAtom s a ctx r.ty (.op r.opc r.u (r.operand 0))
  | 3 => portAtom s a ctx r.ty (.xch (r.operand 0))
  | 4 => portAtom s a ctx r.ty (.cas (r.operand 0) (r.operand 1))
  | _ => (s, .ok, [])

/-- A port with nothing outstanding. -/
def Port.idle : Port := ⟨[], [], none⟩

/-- The port of a channel. -/
def State.port (s : State) (c : Nat) : Port := (Sparse.find s.ports c).getD Port.idle

/-- Writes a port back. -/
def State.setPort (s : State) (c : Nat) (p : Port) : State := { s with ports := Sparse.put Port.idle s.ports c p }

/-- The lowest free one of the eight tags. -/
def Port.freeTag (p : Port) : Option (BitVec 3) :=
  ((List.range 8).map (BitVec.ofNat 3)).find? fun t => !p.busy.any fun b => b.1 = t

/-- Sends the oldest waiting request when a tag is free. -/
def portSend (s : State) (c : Nat) : State :=
  let p := s.port c
  match p.freeTag, p.waiting with
  | some t, i :: l =>
    let (s1, st, d) := portPerform s (i.tagged t)
    s1.setPort c { p with busy := p.busy ++ [(t, st, d)], waiting := l }
  | _, _ => s

/-- A request arrives at a port (R204): it waits behind those that wait. -/
def portRequest (c : Nat) (i : PortReq) (s : State) : Out :=
  .next (if c < 384 then let p := s.port c; portSend (s.setPort c { p with waiting := p.waiting ++ [i] }) c else s)

/-- PORT_RD (R203). -/
def execPortRd (chan addr : Nat) (s : State) : Out := portRequest chan ⟨portHeader 0 addr 0 0, []⟩ s

/-- PORT_WR (R203, R204). -/
def execPortWr (chan addr : Nat) (mask : Word) (data : List Byte) (s : State) : Out :=
  portRequest chan ⟨portHeader mask addr 1 0, data⟩ s

/-- PORT_AOP (R203, R192). -/
def execPortAop (chan addr : Nat) (ctx : BitVec 12) (u : Bool) (ty opc : BitVec 4) (v : Word) (s : State) : Out :=
  portRequest chan ⟨portHeader (ctx.setWidth 64) addr 2 (aopd u ty opc), leBytes 8 v.toNat⟩ s

/-- PORT_AXC (R203): AOPD carries the size as an AOP's TYPE does. DEDUCED (log 45). -/
def execPortAxc (chan addr : Nat) (ctx : BitVec 12) (ty : BitVec 4) (v : Word) (s : State) : Out :=
  portRequest chan ⟨portHeader (ctx.setWidth 64) addr 3 (aopd false ty 0), leBytes 8 v.toNat⟩ s

/-- PORT_ACS (R203): AOPD carries the size as an AOP's TYPE does. DEDUCED (log 45). -/
def execPortAcs (chan addr : Nat) (ctx : BitVec 12) (ty : BitVec 4) (cmp new : Word) (s : State) : Out :=
  portRequest chan ⟨portHeader (ctx.setWidth 64) addr 4 (aopd false ty 0), leBytes 8 cmp.toNat ++ leBytes 8 new.toNat⟩ s

/-- PORT_REPLY (R204): the reply of a busy tag leaves, the tag is free, and the oldest waiting request takes it. -/
def execPortReply (chan : Nat) (tag : BitVec 3) (s : State) : Out :=
  .next <|
  let p := s.port chan
  match p.busy.find? fun b => b.1 = tag with
  | none => s
  | some b => portSend (s.setPort chan { p with busy := p.busy.filter (·.1 ≠ tag), last := some (replyWord b.1 b.2.1, b.2.2) }) chan

/-! ### Routing -/

/-- AWR, scalar form (R187, R191). -/
def execAwr (tk : Tok) (f : AtomF) (rd ra rb : Reg) (off : BitVec 20) (s : State) : Out :=
  routed (.awr tk f rd ra rb off) (pure ()) s

/-- AWR.t (R193). -/
def execAwrT (tk : Tok) (f : AtomF) (sp : BSpace) (ra rb : Reg) (off : BitVec 20) (s : State) : Out :=
  routed (.awrT tk f sp ra rb off) (pure ()) s

/-- AXCH (R191). -/
def execAxch (tk : Tok) (f : AtomF) (rd ra rb : Reg) (off : BitVec 20) (s : State) : Out :=
  routed (.axch tk f rd ra rb off) (pure ()) s

/-- ACAS (R191). -/
def execAcas (tk : Tok) (f : AtomF) (rd ra rb rc : Reg) (off : BitVec 20) (s : State) : Out :=
  routed (.acas tk f rd ra rb rc off) (pure ()) s

/-- AFLG (R202): the flags of the atomics, captured for both cores; .clr clears the bits it read. -/
def execAflg (clr : Bool) (rd : Reg) (s : State) : Out :=
  ccNext s false do
    let s ← now
    let v := s.core.t.sys.atfl
    if clr then upd fun s => s.modY fun y => { y with atfl := y.atfl &&& ~~~v } else pure ()
    capture 0x63 (v.setWidth 64) (wrS rd)

end Sys2Proof.Machine
end

