-- ==== Sys2Proof/Machine/Special.lean ====
section
/-! DEFINITION. The special functions (09_vector.md R227). Each is computed as an exact number where it is one, and else as a number with 300
and more bits and a last bit set, which rounds into every format of R58 as the exact value does. -/

namespace Sys2Proof.Machine

/-- Fraction bits of the fixed-point work. -/
def fixP : Nat := 400

/-- ln 2 as 2·atanh(1/3): the terms 1/((2i+1)·3^(2i+1)) from term i on, where p is 2^fixP/3^(2i+1). -/
def ln2Terms : Nat → Nat → Nat → Nat
  | 0, _, _ => 0
  | n + 1, i, p => p / (2 * i + 1) + ln2Terms n (i + 1) (p / 9)

/-- ln 2 in fixed point. -/
def ln2Fix : Nat := 2 * ln2Terms 135 0 (2 ^ fixP / 3)

/-- The terms of e^t from term i on, `acc` being t^i/i!. -/
def expTerms (t : Nat) : Nat → Nat → Nat → Nat
  | 0, _, _ => 0
  | n + 1, i, acc => acc + expTerms t n (i + 1) (acc * t / 2 ^ fixP / (i + 1))

/-- e^t in fixed point, 0 ≤ t < 1. -/
def expFix (t : Nat) : Nat := expTerms t 110 0 (2 ^ fixP)

/-- The terms of 2·atanh(z) from term i on, `p` being z^(2i+1), `q` being z². -/
def atanhTerms (q : Nat) : Nat → Nat → Nat → Nat
  | 0, _, _ => 0
  | n + 1, i, p => p / (2 * i + 1) + atanhTerms q n (i + 1) (p * q / 2 ^ fixP)

/-- ln(m / 2^k) in fixed point, 2^k ≤ m < 2^(k+1). -/
def lnFix (m k : Nat) : Nat :=
  let d := 2 ^ k
  let z := (m - d) * 2 ^ fixP / (m + d)
  2 * atanhTerms (z * z / 2 ^ fixP) 135 0 z

/-- 2^y for the dyadic y = ±m·2^e, e ≥ -fixP: exact for an integer y. Exponents beyond every format are cut short. -/
def exp2Num (neg : Bool) (m : Nat) (e : Int) : Num :=
  if m = 0 then .fin false 1 0
  else if dyLt 4096 0 m e then (if neg then .fin false 3 (-6000) else .fin false 1 6000)
  else
    let y : Nat := if 0 ≤ e + fixP then m <<< (e + fixP).toNat else m >>> (-(e + fixP)).toNat
    let u : Int := if neg then -(y : Int) else y
    let n : Int := u / (2 ^ fixP : Nat)
    let f : Nat := (u - n * (2 ^ fixP : Nat)).toNat
    if f = 0 then .fin false 1 n
    else .fin false (2 * expFix (f * ln2Fix / 2 ^ fixP) + 1) (n - fixP - 1)

/-- log2 of the positive m·2^e. -/
def log2Num (m : Nat) (e : Int) : Num :=
  let k := m.log2
  let n : Int := e + k
  if m = 2 ^ k then .ofInt n
  else
    let l : Int := n * (2 ^ fixP : Nat) + (lnFix m k * 2 ^ fixP / ln2Fix : Nat)
    .fin (l < 0) (2 * l.natAbs + 1) (-(fixP : Int) - 1)

/-- The integer square root, bit by bit from bit b - 1 down. -/
def isqrtBits (n : Nat) : Nat → Nat → Nat
  | 0, r => r
  | b + 1, r => if (r + 2 ^ b) * (r + 2 ^ b) ≤ n then isqrtBits n b (r + 2 ^ b) else isqrtBits n b r

/-- 1/√(m·2^e), m positive. -/
def rsqNum (m : Nat) (e : Int) : Num :=
  let (m, e) := if e % 2 = 0 then (m, e) else (2 * m, e - 1)
  let w := 256
  let q := isqrtBits (2 ^ (2 * w) / m) (w + 1) 0
  .fin false (2 * q + (if q * q * m = 2 ^ (2 * w) then 0 else 1)) (-(e / 2) - w - 1)

/-- tanh of ±m·2^e, m positive: (1 - t)/(1 + t) with t = e^(-2x); close to zero just below x, far out just below 1. -/
def tanhNum (neg : Bool) (m : Nat) (e : Int) : Num :=
  if dyLt m e 1 (-60) then .fin neg (m * 2 ^ 100 - 1) (e - 100)
  else if dyLt 128 0 m e then .fin neg (2 ^ 200 - 1) (-200)
  else
    let y : Nat := if 0 ≤ e + fixP + 1 then m <<< (e + fixP + 1).toNat else m >>> (-(e + fixP + 1)).toNat
    let n := y / ln2Fix
    -- e^(-y) = 2^(-n)/e^r
    let r := y - n * ln2Fix
    let t := 2 ^ fixP * 2 ^ fixP / expFix r / 2 ^ n
    .fin neg (2 * ((2 ^ fixP - t) * 2 ^ fixP / (2 ^ fixP + t)) + 1) (-(fixP : Int) - 1)

/-- The constants of VEXP and VLOG (R227): significand and exponent. -/
def expK : Nat × Int := (0xB8AA3B295C17F0BC, -63)
def logM : Nat × Int := (0xB17217F7D1CF79AC, -64)

/-- A special function by its code: the value of F, and V or Z of the operand table (R227). DEDUCED (log 20). -/
def specialNum (opc : Nat) (x : Num) : Num × FFlags :=
  match opc, x with
  | _, .nan => (.nan, 0)
  | 0x20, .inf n => (if n then .fin false 0 0 else .inf false, 0)
  | 0x22, .inf n => (if n then .fin false 0 0 else .inf false, 0)
  | 0x20, .fin n m e => (exp2Num n m e, 0)
  | 0x22, .fin n m e => (exp2Num n (m * expK.1) (e + expK.2), 0)
  | 0x21, .inf n => if n then (.nan, fV) else (.inf false, 0)
  | 0x23, .inf n => if n then (.nan, fV) else (.inf false, 0)
  | 0x21, .fin n m e => if m = 0 then (.inf true, fZ) else if n then (.nan, fV) else (log2Num m e, 0)
  | 0x23, .fin n m e =>
    if m = 0 then (.inf true, fZ) else if n then (.nan, fV) else (Num.mul (log2Num m e) (.fin false logM.1 logM.2)).1 |> (·, 0)
  | 0x24, .inf n => (.fin n 0 0, 0)
  | 0x24, .fin n m e => if m = 0 then (.inf n, fZ) else (Num.quot (.fin false 1 0) (.fin n m e), 0)
  | 0x25, .inf n => if n then (.nan, fV) else (.fin false 0 0, 0)
  | 0x25, .fin n m e => if m = 0 then (.inf n, fZ) else if n then (.nan, fV) else (rsqNum m e, 0)
  | 0x26, .inf n => (.fin n 1 0, 0)
  | 0x26, .fin n m e => if m = 0 then (.fin n 0 0, 0) else (tanhNum n m e, 0)
  | _, _ => (.nan, 0)

end Sys2Proof.Machine
end

