-- ==== Sys2Proof/Machine/Flags.lean ====
section
/-! DEFINITION. Element operations of the vector engine with the flags they set (09_vector.md R221 to R227), for vector programs and for LNX
and LNR; the fixed reduction tree. -/

namespace Sys2Proof.Machine

/-- The arithmetic formats I and F (R221). -/
def isI (f : BitVec 4) : Bool := f == 1 || f == 0xD || f == 2 || f == 3
def isF (f : BitVec 4) : Bool := f == 6 || f == 7 || f == 8

/-- Wraps an integer result into w bits, or clamps it (R221). -/
def wrapInt (w : Nat) (s sat : Bool) (i : Int) : Nat :=
  intBits w (if sat then max (intMin w s) (min (intMax w s) i) else i)

/-- The larger or smaller number as .fmax and .fmin take it (R192). -/
def numMaxMin (isMax : Bool) (x y : Num) : Num :=
  if x.isNan then y
  else if y.isNan then x
  else
    let lt := Num.lt x y || (x.isZero && y.isZero && x.sign && !y.sign)
    if lt = isMax then y else x

/-- ±A·B ± C, exact (R222): a NaN operand gives NaN with no flag. -/
def fmaNum (rm : RM) (fn : Nat) (a b c : Num) : Num × FFlags :=
  if a.isNan || b.isNan || c.isNan then (.nan, 0)
  else
    let (p, f1) := Num.mul a b
    if p.isNan then (.nan, f1)
    else
      let p := if fn = 2 || fn = 3 then p.neg else p
      let c := if fn = 1 || fn = 3 then c.neg else c
      Num.add rm p c

/-- The exact result of a float operation before its rounding, with V and Z (R222, R227). Bitwise operations, VABS and VNEG act on the
pattern. -/
def vopNum (opc fn : Nat) (rm : RM) (F : FloatFmt) (a b c : Nat) : Num × FFlags :=
  let x := F.decode a
  let y := F.decode b
  match opc with
  | 0x00 => (x, 0)
  | 0x01 => Num.add rm x y
  | 0x02 => Num.add rm x y.neg
  | 0x03 => Num.mul x y
  | 0x04 => fmaNum rm fn x y (F.decode c)
  | 0x05 => (numMaxMin true x y, 0)
  | 0x06 => (numMaxMin false x y, 0)
  | 0x07 => (F.decode (a % 2 ^ (F.width - 1)), 0)
  | 0x08 => (F.decode (a ^^^ 2 ^ (F.width - 1)), 0)
  | 0x09 => (F.decode (a &&& b), 0)
  | 0x0A => (F.decode (a ||| b), 0)
  | 0x12 => (F.decode (a ^^^ b), 0)
  | _ => specialNum opc x

/-- Whether a float operation delivers a pattern without rounding it (R222). -/
def vopBits (opc : Nat) (F : FloatFmt) (a b : Nat) : Option Nat :=
  match opc with
  | 0x00 => some a
  | 0x07 => some (a % 2 ^ (F.width - 1))
  | 0x08 => some (a ^^^ 2 ^ (F.width - 1))
  | 0x09 => some (a &&& b)
  | 0x0A => some (a ||| b)
  | 0x12 => some (a ^^^ b)
  | _ => none

/-- The exact result of an integer operation (R222); `b` is the second operand's pattern, a count's low eight bits. -/
def vopInt (opc fn w : Nat) (s : Bool) (a b c : Nat) : Int :=
  let x := intOf w s a
  let y := intOf w s b
  let k := b % 256
  match opc with
  | 0x00 => x
  | 0x01 => x + y
  | 0x02 => x - y
  | 0x03 => x * y
  | 0x04 =>
    let z := intOf w s c
    (if fn = 2 || fn = 3 then -(x * y) else x * y) + (if fn = 1 || fn = 3 then -z else z)
  | 0x05 => max x y
  | 0x06 => min x y
  | 0x07 => x.natAbs
  | 0x08 => -x
  | 0x09 => intOf w s (a &&& b)
  | 0x0A => intOf w s (a ||| b)
  | 0x12 => intOf w s (a ^^^ b)
  | 0x13 => if x = 0 then 0 else x * (2 ^ k : Nat)
  | 0x0B => if fn = 1 then x / (2 ^ k : Nat) else intOf w s (a / 2 ^ k)
  | 0x11 => intOf w s (intBits w ((x * y + (if fn = 1 then (2 ^ (w - 1) : Nat) else 0)) / (2 ^ w : Nat)))
  | _ => 0

/-- The result pattern of an element operation of format `f` and its flags (R221, R222, R227). -/
def vopElem (opc fn : Nat) (rm : RM) (sat : Bool) (f : BitVec 4) (a b c : Nat) : Nat × FFlags :=
  match floatFmt? f, intFmt? f with
  | some F, _ =>
    match vopBits opc F a b with
    | some x => (x, 0)
    | none =>
      let (x, f1) := vopNum opc fn rm F a b c
      let (z, f2) := F.round rm false x
      (z, f1 ||| f2)
  | _, some (w, s) => (wrapInt w s sat (vopInt opc fn w s a b c), 0)
  | _, _ => (0, 0)

/-- VCMP's condition and flags (R222): a NaN makes every one false but .ne, and an ordering of it is invalid. -/
def vcmpElem (fn : Nat) (f : BitVec 4) (a b : Nat) : Bool × FFlags :=
  let pick (lt eq : Bool) : Bool :=
    match fn with
    | 0 => eq | 1 => !eq | 2 => lt | 3 => lt || eq | 4 => !(lt || eq) | _ => !lt
  match floatFmt? f, intFmt? f with
  | some F, _ =>
    let x := F.decode a
    let y := F.decode b
    if x.isNan || y.isNan then (fn == 1, if 2 ≤ fn then fV else 0) else (pick (Num.lt x y) (Num.eq x y), 0)
  | _, some (w, s) => (pick (intOf w s a < intOf w s b) (intOf w s a == intOf w s b), 0)
  | _, _ => (false, 0)

/-! ### The fixed tree (R226) -/

/-- A value in a reduction. -/
inductive TVal where
  | f (x : Num)
  | i (x : Int)
  deriving DecidableEq, Repr

/-- One node: a float sum is rounded to FP32 by RNE; integers are exact; `red` 0 add, 1 max, 2 min. -/
def treeNode (red : Nat) (x y : TVal) : TVal × FFlags :=
  match x, y with
  | .f a, .f b =>
    if red = 0 then
      let (z, f1) := Num.add .rne a b
      let (p, f2) := fp32.round .rne false z
      (.f (fp32.decode p), f1 ||| f2)
    else (.f (numMaxMin (red = 1) a b), 0)
  | .i a, .i b => (.i (if red = 0 then a + b else if red = 1 then max a b else min a b), 0)
  | x, _ => (x, 0)

/-- One pass over neighbours; an odd last value passes up unchanged. -/
def treePass (red : Nat) : List TVal → List TVal × FFlags
  | x :: y :: l =>
    let (z, f) := treeNode red x y
    let (r, g) := treePass red l
    (z :: r, f ||| g)
  | l => (l, 0)

/-- Tree of R226, as many passes as needed (n passes suffice for n values). -/
def tree (red : Nat) : Nat → List TVal → TVal × FFlags
  | 0, l => (l.headD (.i 0), 0)
  | n + 1, l =>
    match l with
    | [] => (.i 0, 0)
    | [x] => (x, 0)
    | l =>
      let (l', f) := treePass red l
      let (x, g) := tree red n l'
      (x, f ||| g)

/-- The tree's result in the destination format (R226). -/
def treeOut (rm : RM) (sat : Bool) (f : BitVec 4) (v : TVal) : Nat × FFlags :=
  match v, floatFmt? f, intFmt? f with
  | .f x, some F, _ => F.round rm false x
  | .i x, _, some (w, s) => (wrapInt w s sat x, 0)
  | _, _, _ => (0, 0)

/-- The value of an element in a reduction. -/
def treeIn (f : BitVec 4) (a : Nat) : TVal :=
  match floatFmt? f, intFmt? f with
  | some F, _ => .f (F.decode a)
  | _, some (w, s) => .i (intOf w s a)
  | _, _ => .i 0

/-- The identity of a reduction (R226). -/
def treeId (red : Nat) (f : BitVec 4) : TVal :=
  match intFmt? f with
  | some (w, s) => .i (if red = 0 then 0 else if red = 1 then intMin w s else intMax w s)
  | none => .f (if red = 0 then .fin false 0 0 else .inf (red = 1))

end Sys2Proof.Machine
end

