-- ==== Sys2Proof/Machine/Vector.lean ====
section
/-! DEFINITION. Class 7, vector programs (09_vector.md R205 to R232; bundles 02_encoding.md R41 to R44): VRUN, VRUNA, BUNDLE_ISSUE,
RESULT_LANDING. -/

namespace Sys2Proof.Machine

/-! ### Registers, elements, masks (R205 to R208) -/

/-- Bits of an element of a register by format; whole bytes where the format names no other (R205). -/
def vBits (f : BitVec 4) : Nat :=
  match f.toNat with
  | 0xC => 4 | 2 | 6 | 7 => 16 | 3 | 8 => 32 | 0xB => 64 | _ => 8

/-- Elements of a register. -/
def vCount (f : BitVec 4) : Nat := 4096 / vBits f

/-- Pattern of element p. -/
def vElem (d : BitVec 4096) (bits p : Nat) : Nat := (d.extractLsb' (p * bits) bits).toNat

/-- Whether element p of a size is active under a mask (R206). -/
def vActive (m : BitVec 1024) (bits p : Nat) : Bool := m.getLsbD (p * bits / 4)

/-- The bits of an element's place, all ones. -/
def vOnes (bits p : Nat) : BitVec 4096 := (BitVec.ofNat 4096 (2 ^ bits - 1)) <<< (p * bits)

/-- Elements laid out at their places. -/
def vPack (bits : Nat) (l : List (Nat × Nat)) : BitVec 4096 :=
  l.foldl (fun d x => d ||| ((BitVec.ofNat 4096 (x.2 % 2 ^ bits)) <<< (x.1 * bits))) 0

/-- The places of the elements for which a condition holds. -/
def vWhere (bits n : Nat) (c : Nat → Bool) : BitVec 4096 :=
  (List.range n).foldl (fun d p => if c p then d ||| vOnes bits p else d) 0

/-- Rotation of names (R208). -/
def VecState.physV (v : VecState) (n : BitVec 6) : BitVec 6 :=
  if n.toNat < 32 then n else BitVec.ofNat 6 (32 + (n.toNat - 32 + v.rrb.toNat) % 32)
def VecState.physK (v : VecState) (n : Nat) : BitVec 4 :=
  if n < 8 then BitVec.ofNat 4 n else BitVec.ofNat 4 (8 + (n - 8 + v.mrb.toNat) % 8)

/-- The vector engine's state and its update. -/
def State.vec (s : State) : VecState := s.core.t.vec
def State.modVec (s : State) (f : VecState → VecState) : State := s.modT fun t => { t with vec := f t.vec }

/-- A vector register and a mask register by their names in a bundle. -/
def State.vreg (s : State) (n : BitVec 6) : VReg := s.V (s.vec.physV n)
def State.mask (s : State) (n : Nat) : BitVec 1024 := s.core.t.regs.rdK (s.vec.physK n)

/-- Whether a mask register holds a poisoned word. -/
def State.maskPois (s : State) (n : Nat) : Bool :=
  let k := s.vec.physK n
  k != 0 && (s.core.t.regs.kpois.extractLsb' (16 * k.toNat) 16) != 0

/-- Whether words of a register from lo up to hi carry a mark. -/
def marked (m : BitVec 64) (lo hi : Nat) : Bool := (m.extractLsb' lo (hi - lo)) != 0

/-- Words of a register that hold an active element of a mask. -/
def activeMarked (m : BitVec 64) (act : BitVec 4096) : Bool :=
  (List.range 64).any fun w => m.getLsbD w && (act.extractLsb' (64 * w) 64) != 0

/-! ### Fields of the slots (R42, R220, R228, R231) -/

/-- The slots of a bundle. -/
def slotM (b : BitVec 256) : Word := b.extractLsb' 16 64
def slotA (b : BitVec 256) : Word := b.extractLsb' 80 64
def slotB (b : BitVec 256) : Word := b.extractLsb' 144 64
def slotC (b : BitVec 256) : BitVec 48 := b.extractLsb' 208 48
def bPres (b : BitVec 256) (n : Nat) : Bool := b.getLsbD n
def bLast (b : BitVec 256) : Bool := b.getLsbD 4
def bStg (b : BitVec 256) : Nat := (b.extractLsb' 5 3).toNat

/-- Fields of an A or B slot (R220). -/
structure AB where
  opc : Nat
  vd : BitVec 6
  va : BitVec 6
  vb : BitVec 6
  vc : BitVec 6
  km : Nat
  kz : Bool
  et : BitVec 4
  rm : RM
  sat : Bool
  imm : Bool
  imm16 : BitVec 16
  fn : Nat

/-- A rounding mode code (R68). -/
def rmOf (n : Nat) : RM := match n with | 0 => .rne | 1 => .rtz | 2 => .rup | _ => .rdn

/-- The fields of an A or B slot word. -/
def abOf (w : Word) : AB :=
  { opc := (w.extractLsb' 0 7).toNat, vd := w.extractLsb' 7 6, va := w.extractLsb' 13 6, vb := w.extractLsb' 19 6,
    vc := w.extractLsb' 25 6, km := (w.extractLsb' 31 4).toNat, kz := w.getLsbD 35, et := w.extractLsb' 36 4,
    rm := rmOf (w.extractLsb' 40 2).toNat, sat := w.getLsbD 42, imm := w.getLsbD 43, imm16 := w.extractLsb' 44 16,
    fn := (w.extractLsb' 60 4).toNat }

/-- Operations that read vB (R222). -/
def abReadsB (opc : Nat) : Bool :=
  (1 ≤ opc && opc ≤ 6) || opc = 9 || opc = 0xA || opc = 0xB || opc = 0xC || opc = 0xD || (0xF ≤ opc && opc ≤ 0x13)

/-- Operations that accept an immediate (R221). -/
def abImmOk (opc : Nat) : Bool :=
  (1 ≤ opc && opc ≤ 6) || opc = 9 || opc = 0xA || opc = 0xB || opc = 0xC || opc = 0x11 || opc = 0x12 || opc = 0x13

/-- The immediate as a pattern of the format; none where it does not fit (R221). -/
def immPattern (f : BitVec 4) (opc : Nat) (v : BitVec 16) : Option Nat :=
  if opc = 0xB || opc = 0x13 then (if v.extractLsb' 8 8 = 0 then some v.toNat else none)
  else match floatFmt? f, intFmt? f with
    | some F, _ =>
      let (x, fl) := F.round .rne false (bf16.decode v.toNat)
      if fl = 0 then some x else none
    | _, some (w, s) => if intMin w s ≤ v.toInt && v.toInt ≤ intMax w s then some (intBits w v.toInt) else none
    | _, _ => some v.toNat

/-- Formats an operation admits (R221, R222, R225, R227). -/
def abFmtOk (opc : Nat) (f : BitVec 4) : Bool :=
  match opc with
  | 0x0D => f != 0 && f != 9 && f != 0xA && f != 0xE && f != 0xF
  | 0x10 => f == 1 || f == 0xD || f == 4 || f == 5 || f == 6 || f == 7
  | 0x0B | 0x13 | 0x11 => isI f
  | _ => if 0x20 ≤ opc then isF f else isI f || isF f

/-- Result format of VDOT4 and VWMUL (R225). -/
def dotFmt (f : BitVec 4) : BitVec 4 := if isIntFmt f then 3 else 8
def wideFmt (fn : Nat) (f : BitVec 4) : BitVec 4 := if isIntFmt f then (if fn = 1 then 3 else if f == 1 then 2 else 3) else 8

/-- FN codes of an operation (R222, R225, R226). -/
def abFnOk (a : AB) : Bool :=
  match a.opc with
  | 0x04 => a.fn ≤ 3
  | 0x0B | 0x11 => a.fn ≤ 1
  | 0x0C => a.fn ≤ 5
  | 0x0E => a.fn ≤ 2
  | 0x0F => (a.fn = 0 && (a.et == 1 || a.et == 2 || a.et == 6 || a.et == 7)) || (a.fn = 1 && (a.et == 1 || a.et == 0xD))
  | 0x10 => if a.et == 6 || a.et == 7 then a.fn ≤ 1 else a.fn = 0
  | _ => a.fn = 0

/-- Whether RM and SAT are used (R221). -/
def abRmUsed (opc : Nat) (f : BitVec 4) : Bool :=
  match opc with
  | 1 | 2 | 3 | 4 | 0xE => isF f
  | 0xF => f == 6 || f == 7
  | 0x10 => !isIntFmt f
  | _ => false
def abSatUsed (opc : Nat) (f : BitVec 4) : Bool :=
  match opc with
  | 1 | 2 | 3 | 4 | 7 | 8 | 0x13 | 0xE => isI f
  | 0x10 => isIntFmt f
  | _ => false

/-- The ILLOP rules of an A or B slot (R44, R207, R220 to R227). -/
def abIllop (isB : Bool) (w : Word) : Bool :=
  let a := abOf w
  let g := (a.imm16.extractLsb' 0 4).toNat
  !((1 ≤ a.opc && a.opc ≤ 0x13) || (isB && 0x20 ≤ a.opc && a.opc ≤ 0x26)) ||
  (a.imm && !abImmOk a.opc) || (a.imm && a.vb != 0) || (!abReadsB a.opc && a.vb != 0) ||
  (a.opc != 4 && a.opc != 0x10 && a.vc != 0) || !abFnOk a ||
  (!a.imm && a.opc != 0x0E && a.imm16 != 0) ||
  (a.imm && (immPattern a.et a.opc a.imm16).isNone) ||
  (a.rm != .rne && !abRmUsed a.opc a.et) || (a.sat && !abSatUsed a.opc a.et) ||
  (a.opc = 0x0C && a.vd.extractLsb' 4 2 != 0) ||
  ((a.opc = 0x0D || a.opc = 0x0E) && a.kz) ||
  (a.opc = 0x0E && (a.imm16.extractLsb' 4 12 != 0 || g = 0 || (vCount a.et).log2 < g)) ||
  (a.opc = 0x0F && a.vd.toNat % (if a.fn = 1 then 4 else 2) != 0)

/-- Fields of an M slot (R228). -/
structure MS where
  opc : Nat
  vr : BitVec 6
  spc : Nat
  ar : Fin 8
  km : Nat
  kz : Bool
  pi : Bool
  off : Word
  tag : FTag
  xv : BitVec 6

/-- The fields of an M slot word. -/
def msOf (w : Word) : MS :=
  { opc := (w.extractLsb' 0 7).toNat, vr := w.extractLsb' 7 6, spc := (w.extractLsb' 13 2).toNat,
    ar := (w.extractLsb' 15 3).toFin, km := (w.extractLsb' 18 4).toNat, kz := w.getLsbD 22, pi := w.getLsbD 23,
    off := sx (w.extractLsb' 24 16), tag := w.extractLsb' 40 16, xv := w.extractLsb' 56 6 }

/-- The ILLOP rules of an M slot that its word decides (R228, R229). -/
def mIllop (w : Word) : Bool :=
  let m := msOf w
  m.opc = 0 || 4 < m.opc || w.extractLsb' 62 2 != 0 || !tagWf m.tag ||
  (m.opc != 1 && m.spc = 1) ||
  (m.opc = 2 && (m.tag != 0 || m.kz)) ||
  ((m.opc = 1 || m.opc = 2) && m.xv != 0) || (m.opc = 3 && m.xv.extractLsb' 3 3 != 0) ||
  (3 ≤ m.opc && (tFmt m.tag == 0xC || tFmt m.tag == 9 || tFmt m.tag == 0xA))

/-- Fields of a C slot (R231). -/
structure CS where
  opc : Nat
  d : BitVec 6
  a : BitVec 6
  b : BitVec 6
  f4 : BitVec 4
  fn : Nat
  imm : BitVec 16

/-- The fields of a C slot word. -/
def csOf (w : BitVec 48) : CS :=
  { opc := (w.extractLsb' 0 6).toNat, d := w.extractLsb' 6 6, a := w.extractLsb' 12 6, b := w.extractLsb' 18 6,
    f4 := w.extractLsb' 24 4, fn := (w.extractLsb' 28 4).toNat, imm := w.extractLsb' 32 16 }

/-- VMOVS selectors (R231). -/
def selOk (n : Nat) : Bool := n ≤ 3 || (8 ≤ n && n ≤ 0x12)

/-- The ILLOP rules of a C slot that its word decides (R231, R232). An F4 of VBCAST.imm that names E4M3, E5M2 or FA56, for which R221 defines no immediate,
is a malformed field. DESIGN CHOICE (log 77). -/
def cIllop (w : BitVec 48) : Bool :=
  let c := csOf w
  match c.opc with
  | 1 => 6 < c.fn || (c.fn != 2 && c.imm != 0) || ((c.fn = 1 || c.fn = 2) && c.b != 0) || c.f4 != 0
  | 2 =>
    2 < c.fn || c.b != 0 || (c.fn = 0 && c.f4 != 0) || (c.fn = 1 && c.a != 0) ||
    (c.fn = 2 && (c.a.extractLsb' 3 3 != 0 || c.imm != 0 || !isIntFmt c.f4)) ||
    (c.fn = 1 && (!(isI c.f4 || isF c.f4 || c.f4 == 0 || c.f4 == 9 || c.f4 == 0xA || c.f4 == 0xC) ||
      (immPattern c.f4 1 c.imm).isNone))
  | 3 =>
    4 ≤ c.fn || c.b != 0 || c.f4 != 0 || !selOk c.d.toNat ||
    (if c.fn % 2 = 1 then c.a != 0 else c.imm != 0 || !selOk c.a.toNat)
  | 4 => c.d.extractLsb' 2 4 != 0 || c.a != 0 || c.b != 0 || c.fn != 0 || c.f4 == 0 || 7 < c.f4.toNat
  | 5 =>
    6 < c.fn || c.d.extractLsb' 4 2 != 0 || c.a.extractLsb' 4 2 != 0 || c.b.extractLsb' 4 2 != 0 ||
    (3 < c.fn && c.b != 0) ||
    (if c.fn = 6 then c.a != 0 || c.f4 == 0xE || c.f4 == 0xF || vCount c.f4 < c.imm.toNat else c.f4 != 0 || c.imm != 0)
  | _ => true

/-- The slots M, A, B, C that R44 finds malformed by their bits. -/
def badSlots (b : BitVec 256) : List Bool :=
  [if bPres b 0 then mIllop (slotM b) else slotM b != 0, if bPres b 1 then abIllop false (slotA b) else slotA b != 0,
   if bPres b 2 then abIllop true (slotB b) else slotB b != 0, if bPres b 3 then cIllop (slotC b) else slotC b != 0]

/-- The rules of R44 that the bundle's bits decide. -/
def bundleIllop (b : BitVec 256) : Bool := (b.extractLsb' 8 8) != 0 || (badSlots b).any id

/-- The first malformed slot of a bundle (R213), M where its header alone is. -/
def firstBad (b : BitVec 256) : BitVec 2 := BitVec.ofNat 2 (if (badSlots b).any id then (badSlots b).idxOf true else 0)

/-! ### A and B slots (R221 to R227) -/

/-- A pending write of whole elements under a mask. -/
def landV (reg : BitVec 6) (data keep : BitVec 4096) (tag : FTag) (fl : FFlags) (left : Nat) : PendW :=
  { isMask := false, reg := reg, data := data, keep := keep, tag := some tag, pois := 0, tfail := 0, flags := fl, left := left }

/-- The data faults of an A or B slot: tags, domains, marks (R206, R209, R221, R225, R230). DEDUCED (log 19). -/
def abFaults (s : State) (w : Word) : List (BitVec 8) :=
  let a := abOf w
  let ra := s.vreg a.va
  let rb := s.vreg a.vb
  let rc := s.vreg a.vc
  let useB := abReadsB a.opc && !a.imm
  let useC := a.opc = 4 || a.opc = 0x10
  let sp (t : FTag) : Bool := tDom t != 0
  let spA := sp ra.tag
  let spB := useB && sp rb.tag
  let spC := useC && sp rc.tag
  let tagBad := !abFmtOk a.opc a.et || tFmt ra.tag != a.et || (useB && tFmt rb.tag != a.et) ||
    (a.opc = 4 && tFmt rc.tag != a.et) || (a.opc = 0x10 && tFmt rc.tag != dotFmt a.et)
  let domOk := (!spA && !spB && !spC) ||
    ((a.opc = 1 || a.opc = 2) && useB && spA && spB && ra.tag.extractLsb' 8 8 == rb.tag.extractLsb' 8 8) ||
    a.opc = 8 || (a.opc = 0x0D && ra.tag == rb.tag) || (a.opc = 3 && a.imm)
  let m := s.mask a.km
  let bits := if a.opc = 0x10 then 32 else vBits a.et
  let half : Nat × Nat := if a.opc = 0x10 && vBits a.et = 16 then (32 * a.fn, 32 * a.fn + 32) else (0, 64)
  let act : BitVec 4096 := if a.opc = 0x0D then BitVec.allOnes 4096 else vWhere bits (4096 / bits) (vActive m bits)
  let actC : BitVec 4096 := if a.opc = 0x10 && vBits a.et = 16 then
      vWhere 32 128 (fun p => 64 * a.fn ≤ p && p < 64 * a.fn + 64 && vActive m 32 p) else act
  let actS : BitVec 4096 := if a.opc = 0x10 && vBits a.et = 16 then
      vWhere 64 64 (fun p => vActive m 32 (64 * a.fn + p)) else act
  (if tagBad then [cTAGMIS] else []) ++ (if domOk then [] else [cDOMAIN]) ++
  (if activeMarked ra.tfail actS || (useB && activeMarked rb.tfail actS) || (useC && activeMarked rc.tfail actC) then [cTIERERR]
   else []) ++
  (if ra.pois != 0 || (useB && rb.pois != 0) || (useC && marked rc.pois half.1 half.2) || s.maskPois a.km then [cPOISON] else [])

/-- Latency of an operation (R215). -/
def abLatency (opc : Nat) : Nat :=
  match opc with
  | 3 | 4 | 0xF | 0x10 | 0x11 => 4
  | 0xE => 6
  | _ => if 0x20 ≤ opc then 12 else 2

/-- Element-wise results: the places kept are those of inactive elements that are not zeroed (R206). -/
def abElementwise (s : State) (a : AB) : PendW :=
  let ra := s.vreg a.va
  let rb := s.vreg a.vb
  let rc := s.vreg a.vc
  let m := s.mask a.km
  let bits := vBits a.et
  let n := vCount a.et
  let b (p : Nat) : Nat := if a.imm then (immPattern a.et a.opc a.imm16).getD 0 else vElem rb.data bits p
  let on := (List.range n).filter (vActive m bits)
  let rs := on.map fun p => (p, vopElem a.opc a.fn a.rm a.sat a.et (vElem ra.data bits p) (b p) (vElem rc.data bits p))
  landV (s.vec.physV a.vd) (vPack bits (rs.map fun r => (r.1, r.2.1)))
    (if a.kz then 0 else vWhere bits n fun p => !vActive m bits p)
    (ra.tag ||| (if abReadsB a.opc && !a.imm then rb.tag &&& 0x40 else 0)) (rs.foldl (fun f r => f ||| r.2.2) 0) (abLatency a.opc)

/-- VCMP (R222): the mask bits of active elements; KZ clears those of inactive ones. Bits that stand for no element are not written. DEDUCED (log 19). -/
def abCompare (s : State) (a : AB) : PendW :=
  let ra := s.vreg a.va
  let rb := s.vreg a.vb
  let m := s.mask a.km
  let bits := vBits a.et
  let b (p : Nat) : Nat := if a.imm then (immPattern a.et a.opc a.imm16).getD 0 else vElem rb.data bits p
  let on := (List.range (vCount a.et)).filter (vActive m bits)
  let rs := on.map fun p => (p, vcmpElem a.fn a.et (vElem ra.data bits p) (b p))
  let at_ (p : Nat) : BitVec 4096 := 1#4096 <<< (p * bits / 4)
  let wr := (if a.kz then List.range (vCount a.et) else on).foldl (fun d p => d ||| at_ p) 0
  { isMask := true, reg := (s.vec.physK (a.vd.extractLsb' 0 4).toNat).setWidth 6,
    data := rs.foldl (fun d r => if r.2.1 then d ||| at_ r.1 else d) 0,
    keep := ~~~wr, tag := none, pois := 0, tfail := 0,
    flags := rs.foldl (fun f r => f ||| r.2.2) 0, left := 2 }

/-- VSEL (R222): KM selects, every element is written. -/
def abSelect (s : State) (a : AB) : PendW :=
  let ra := s.vreg a.va
  let rb := s.vreg a.vb
  let bits := vBits a.et
  let pickA := vWhere bits (vCount a.et) (vActive (s.mask a.km) bits)
  landV (s.vec.physV a.vd) ((ra.data &&& pickA) ||| (rb.data &&& ~~~pickA)) 0 (ra.tag ||| (rb.tag &&& 0x40)) 0 2

/-- VRED (R226): groups of 2^g elements, inactive ones as the identity. -/
def abReduce (s : State) (a : AB) : PendW :=
  let ra := s.vreg a.va
  let m := s.mask a.km
  let bits := vBits a.et
  let g := 2 ^ (a.imm16.extractLsb' 0 4).toNat
  let x (q : Nat) : TVal := if vActive m bits q then treeIn a.et (vElem ra.data bits q) else treeId a.fn a.et
  let rs := (List.range (vCount a.et / g)).map fun p =>
    let (v, f1) := tree a.fn g ((List.range g).map fun q => x (p * g + q))
    let (y, f2) := treeOut a.rm a.sat a.et v
    (p, y, f1 ||| f2)
  landV (s.vec.physV a.vd) (vPack bits (rs.map fun r => (r.1, r.2.1))) 0 ra.tag (rs.foldl (fun f r => f ||| r.2.2) 0) 6

/-- The exact product of two elements, widened (R225). -/
def wideElem (rm : RM) (f g : BitVec 4) (a b : Nat) : Nat × FFlags :=
  match floatFmt? f, intFmt? f, floatFmt? g, intFmt? g with
  | some F, _, some G, _ =>
    let (x, f1) := Num.mul (F.decode a) (F.decode b)
    let (z, f2) := G.round rm false x
    (z, f1 ||| f2)
  | _, some (w, s), _, some (v, _) => (intBits v (intOf w s a * intOf w s b), 0)
  | _, _, _, _ => (0, 0)

/-- VWMUL (R207, R225): result p goes to register p mod n of the pair or quad. -/
def abWiden (s : State) (a : AB) : List PendW :=
  let ra := s.vreg a.va
  let rb := s.vreg a.vb
  let m := s.mask a.km
  let bits := vBits a.et
  let n := if a.fn = 1 then 4 else 2
  let g := wideFmt a.fn a.et
  let tag : FTag := g.setWidth 16 ||| ((ra.tag ||| rb.tag) &&& 0x40)
  (List.range n).map fun r =>
    let ps := (List.range (vCount a.et / n)).map fun e => (e, n * e + r)
    let rs := (ps.filter fun e => vActive m bits e.2).map fun e =>
      (e.1, wideElem a.rm a.et g (vElem ra.data bits e.2) (vElem rb.data bits e.2))
    landV (s.vec.physV (a.vd + BitVec.ofNat 6 r)) (vPack (n * bits) (rs.map fun x => (x.1, x.2.1)))
      (if a.kz then 0 else (ps.filter fun e => !vActive m bits e.2).foldl (fun d e => d ||| vOnes (n * bits) e.1) 0)
      tag (rs.foldl (fun f x => f ||| x.2.2) 0) 4

/-- The exact sum of an addend and products (R225), a NaN operand without a flag. -/
def dotNum (rm : RM) (c : Num) (ps : List (Num × Num)) : Num × FFlags :=
  if c.isNan || ps.any fun p => p.1.isNan || p.2.isNan then (.nan, 0)
  else
    let ms := ps.map fun p => Num.mul p.1 p.2
    let fl := ms.foldl (fun f x => f ||| x.2) 0
    if fl != 0 then (.nan, fl)
    else ms.foldl (fun acc x => let (z, f) := Num.add rm acc.1 x.1; (z, acc.2 ||| f)) (c, 0)

/-- VDOT4 (R225). -/
def abDot (s : State) (a : AB) : PendW :=
  let ra := s.vreg a.va
  let rb := s.vreg a.vb
  let rc := s.vreg a.vc
  let m := s.mask a.km
  let bits := vBits a.et
  let g := dotFmt a.et
  let t0 := if bits = 16 then 64 * a.fn else 0
  let n := 4096 / bits / 4
  let one (p : Nat) : Nat × FFlags :=
    let c := vElem rc.data 32 (t0 + p)
    let q := (List.range 4).map fun i => (vElem ra.data bits (4 * p + i), vElem rb.data bits (4 * p + i))
    match floatFmt? a.et, intFmt? a.et with
    | some F, _ =>
      let (z, f1) := dotNum a.rm (fp32.decode c) (q.map fun x => (F.decode x.1, F.decode x.2))
      let (y, f2) := fp32.round a.rm false z
      (y, f1 ||| f2)
    | _, some (w, sg) => (wrapInt 32 true a.sat (q.foldl (fun i x => i + intOf w sg x.1 * intOf w sg x.2) (intOf 32 true c)), 0)
    | _, _ => (0, 0)
  let on := (List.range n).filter fun p => vActive m 32 (t0 + p)
  let rs := on.map fun p => (t0 + p, one p)
  let keep : BitVec 4096 := vWhere 32 128 fun p => p < t0 || t0 + n ≤ p || (!a.kz && !vActive m 32 p)
  landV (s.vec.physV a.vd) (vPack 32 (rs.map fun r => (r.1, r.2.1))) keep (g.setWidth 16 ||| ((ra.tag ||| rb.tag) &&& 0x40))
    (rs.foldl (fun f r => f ||| r.2.2) 0) 4

/-- The pending writes of an A or B slot. -/
def abRun (s : State) (w : Word) : List PendW :=
  let a := abOf w
  match a.opc with
  | 0x0C => [abCompare s a]
  | 0x0D => [abSelect s a]
  | 0x0E => [abReduce s a]
  | 0x0F => abWiden s a
  | 0x10 => [abDot s a]
  | _ => [abElementwise s a]

/-! ### The M slot (R228 to R230) -/

/-- One access of an M slot: first register byte, address (a word's value in global memory, an offset else), bytes, and the bits of each byte
that take part. -/
structure MAcc where
  reg : Nat
  at_ : Int
  n : Nat
  bits : BitVec 8

/-- The format that governs an M slot: TAG's for loads, the register's for VST. -/
def mFmt (s : State) (m : MS) : BitVec 4 := if m.opc = 2 then tFmt (s.vreg m.vr).tag else tFmt m.tag

/-- The base address x (R229). -/
def mBase (s : State) (m : MS) : Word := if m.pi then s.vec.a[m.ar] else s.vec.a[m.ar] + m.off

/-- The address of element p relative to a base: a global address wraps, an offset does not. -/
def mAt (m : MS) (x : Word) (d : Int) : Int := if m.spc = 2 then ((x + BitVec.ofInt 64 d).toNat : Int) else (x.toNat : Int) + d

/-- Index elements of VGTH: their count and values (R230). -/
def gthCount (s : State) (m : MS) : Nat := vCount (tFmt (s.vreg m.xv).tag)
def gthIdx (s : State) (m : MS) (p : Nat) : Int :=
  let r := s.vreg m.xv
  let bits := vBits (tFmt r.tag)
  intOf bits true (vElem r.data bits p)

/-- The accesses of the active elements (R230). -/
def mAccesses (s : State) (m : MS) : List MAcc :=
  let f := mFmt s m
  let k := s.mask m.km
  let x := mBase s m
  let bits := vBits f
  if bits = 4 then
    (List.range 512).filterMap fun i =>
      let b : BitVec 8 := (if vActive k 4 (2 * i) then 0x0F else 0) ||| (if vActive k 4 (2 * i + 1) then 0xF0 else 0)
      if b = 0 then none else some ⟨i, mAt m x i, 1, b⟩
  else
    let sz := bits / 8
    let n := if m.opc = 4 then min (gthCount s m) (vCount f) else vCount f
    ((List.range n).filter (vActive k bits)).map fun (p : Nat) =>
      let d : Int := match m.opc with
        | 3 => (p : Int) * (s.vec.a[(m.xv.extractLsb' 0 3).toFin]).toInt
        | 4 => (sz : Int) * gthIdx s m p
        | _ => ((p * sz : Nat) : Int)
      ⟨p * sz, mAt m x d, sz, 0xFF⟩

/-- Buffer number of an SPC code: AB, WB. -/
def spcBuf (n : Nat) : Nat := if n = 0 then 1 else 0

/-- Capacity of a space that is not global. -/
def spcBytes (n : Nat) : Nat := if n = 3 then Config.spillBytes else Config.abBytes

/-- The data faults of an M slot before its accesses (R229, R230). -/
def mFaults (s : State) (m : MS) : List (BitVec 8 × Option Word) :=
  let r := s.vreg m.vr
  let ix := s.vreg m.xv
  let ixBad := m.opc = 4 && !(tFmt ix.tag == 2 || tFmt ix.tag == 3)
  let mp : List (BitVec 8 × Option Word) := if s.maskPois m.km then [(cPOISON, none)] else []
  if ixBad then (cTAGMIS, none) :: mp
  else
    let l := mAccesses s m
    let x := mBase s m
    let f := mFmt s m
    let rs := l.map fun a => (a.at_.toNat, a.n)
    let ab := m.spc = 0
    let outside := l.any fun a => a.at_ < 0 || (spcBytes m.spc : Int) < a.at_ + a.n
    let act : BitVec 4096 := if m.opc = 4 then vWhere (vBits (tFmt ix.tag)) (gthCount s m) fun p => vActive (s.mask m.km) (vBits f) p
      else 0
    let va (b : Bool) : Option Word := if m.spc = 2 && b then some x else none
    (if (m.opc = 4 && vCount f < gthCount s m) ||
        (m.opc = 2 && ab && (meetsSlot s.core.t rs || meetsTop s.core.t rs)) then [(cILLOP, none)] else []) ++
    (if (m.opc ≤ 2 && x.toNat % (if m.spc = 3 then 8 else 64) != 0) || (3 ≤ m.opc && l.any fun a => a.at_ % a.n != 0) then
      [(cALIGN, va true)] else []) ++
    (if m.spc != 2 && outside then [(cOOB, none)] else []) ++
    (if m.spc ≤ 1 && !outside && m.opc != 2 && l.any fun a => s.core.buf.isFail (spcBuf m.spc) a.at_.toNat a.n then [(cTIERERR, none)]
     else []) ++
    (if m.opc = 2 && l.any fun a => marked r.tfail (a.reg / 8) ((a.reg + a.n + 7) / 8) then [(cTIERERR, none)] else []) ++
    (if m.opc = 4 && activeMarked ix.tfail act then [(cTIERERR, none)] else []) ++
    (if m.opc = 4 && ix.pois != 0 then [(cPOISON, none)] else []) ++ mp

/-- Reads the bytes of one access. -/
def mRead (m : MS) (a : MAcc) : E (List GByte) :=
  match m.spc with
  | 2 => eReadG (BitVec.ofInt 64 a.at_) a.n
  | 3 => do
    let s ← enow
    pure ((List.range a.n).map fun i =>
      ⟨Sparse.get 0 s.core.t.spill (a.at_.toNat + i), setHas s.core.t.spPois ((a.at_.toNat + i) / 8), false⟩)
  | _ => eCarryB (spcBuf m.spc) a.at_.toNat a.n

/-- Writes the bytes of one access. -/
def mWrite (m : MS) (a : MAcc) (bs : List GByte) : E Unit :=
  match m.spc with
  | 2 => eWriteG (BitVec.ofInt 64 a.at_) bs
  | 3 => eupd fun s => s.spillPutG a.at_.toNat bs
  | _ => eWriteB (spcBuf m.spc) a.at_.toNat bs

/-- Reads all accesses. -/
def mReads (m : MS) : List MAcc → E (List (MAcc × List GByte))
  | [] => pure []
  | a :: l => do
    let b ← mRead m a
    pure ((a, b) :: (← mReads m l))

/-- Latency of a load (R215). -/
def mLatency (m : MS) : Nat :=
  match m.spc, m.opc with
  | 2, _ => 40
  | 3, _ => 3
  | _, 1 => 6
  | _, 3 => 8
  | _, _ => 10

/-- The bits of byte i of a register that an element of a format uses: the top byte of an FA56 container is read and written as zero (R60). -/
def mKeep (f : BitVec 4) (i : Nat) : Byte := if f = 0xB && i % 8 = 7 then 0 else 0xFF

/-- A load's pending write (R60, R206, R209, R230). -/
def mLoad (s : State) (m : MS) : E (List PendW) := do
  let f := mFmt s m
  let k := s.mask m.km
  let rs ← mReads m (mAccesses s m)
  let byte (a : MAcc) (i : Nat) (g : GByte) : BitVec 4096 := ((g.b &&& a.bits &&& mKeep f (a.reg + i)).setWidth 4096) <<< (8 * (a.reg + i))
  let fold {α : Type} (z : α) (h : α → MAcc → Nat → GByte → α) : α :=
    rs.foldl (fun acc r => (List.range r.2.length).foldl (fun acc i => h acc r.1 i (r.2.getD i ⟨0, false, false⟩)) acc) z
  let data := fold 0 fun d a i g => d ||| byte a i g
  let pois : BitVec 64 := fold 0 fun d a i g => if g.pois then d ||| (1#64 <<< ((a.reg + i) / 8)) else d
  let fail : BitVec 64 := fold 0 fun d a i g => if g.fail then d ||| (1#64 <<< ((a.reg + i) / 8)) else d
  let bits := vBits f
  let n := if m.opc = 4 then gthCount s m else vCount f
  let keep : BitVec 4096 := if m.kz then 0 else vWhere bits n fun p => !vActive k bits p
  pure [{ isMask := false, reg := s.vec.physV m.vr, data := data, keep := keep, tag := some m.tag, pois := pois, tfail := fail,
          flags := 0, left := mLatency m }]

/-- Accesses of whole bytes to one aligned 8-byte word as one, so that elements which replace a word together replace it whole (R118, R209). -/
def joinWords : List MAcc → List MAcc
  | [] => []
  | a :: l => match joinWords l with
    | b :: r =>
      if a.bits = 0xFF && b.bits = 0xFF && b.reg = a.reg + a.n && b.at_ = a.at_ + a.n && b.at_ / 8 = a.at_ / 8 then { a with n := a.n + b.n } :: r
      else a :: b :: r
    | [] => [a]

/-- Stores one access of VST after another: the poison of a register word goes with its bytes (R209); a half byte is merged; the top byte of an FA56
container is zero (R60). -/
def mStores (r : VReg) (m : MS) : List MAcc → E Unit
  | [] => pure ()
  | a :: l => do
    let old ← if a.bits = 0xFF then pure [] else mRead m a
    let bs := (List.range a.n).map fun i =>
      let o := old.getD i ⟨0, false, false⟩
      let v : Byte := r.data.extractLsb' (8 * (a.reg + i)) 8 &&& mKeep (tFmt r.tag) (a.reg + i)
      (⟨(v &&& a.bits) ||| (o.b &&& ~~~a.bits), r.pois.getLsbD ((a.reg + i) / 8) || o.pois, false⟩ : GByte)
    mWrite m a bs
    mStores r m l

/-- The M slot's work: its pending writes, and the address register after it. -/
def mRun (s : State) (m : MS) : E (List PendW) := do
  let ps ← if m.opc = 2 then (do mStores (s.vreg m.vr) m (joinWords (mAccesses s m)); pure []) else mLoad s m
  if m.pi then eupd fun t => t.modVec fun v => { v with a := v.a.set m.ar (s.vec.a[m.ar] + m.off) } else pure ()
  pure ps

/-! ### The C slot (R231, R232) -/

/-- Source element of a VPERM result element: from vB or not, its number; none: the element stays zero. -/
def permFrom (c : CS) (n : Nat) (vb : VReg) (p : Nat) : Bool × Nat :=
  let h := n / 2
  match c.fn with
  | 0 => (false, (vElem vb.data 16 p) % n)
  | 1 => (false, n - 1 - p)
  | 2 => (false, (p + c.imm.toNat) % n)
  | 3 => (p % 2 = 1, p / 2)
  | 4 => (p % 2 = 1, p / 2 + h)
  | 5 => (h ≤ p, 2 * (p % h))
  | _ => (h ≤ p, 2 * (p % h) + 1)

/-- Whether a register is spectral. -/
def VReg.spectral (r : VReg) : Bool := tDom r.tag != 0

/-- Whether VPERM and VBCAST refuse a tag (R205, R231). -/
def cTagBad (t : FTag) : Bool := let f := tFmt t; f == 0 || f == 9 || f == 0xA || f == 0xC

/-- The data faults of a C slot; its operations take spatial registers alone (R286). -/
def cFaults (s : State) (w : BitVec 48) : List (BitVec 8) :=
  let c := csOf w
  let ra := s.vreg c.a
  let rb := s.vreg c.b
  let mark (n bits : Nat) (r : Bool → Bool) (from_ : Nat → Bool × Nat) (fa fb : BitVec 64) : Bool :=
    (List.range n).any fun p =>
      let (b, q) := from_ p
      r b && marked (if b then fb else fa) (q * bits / 64) ((q * bits + bits + 63) / 64)
  match c.opc with
  | 1 =>
    let bits := vBits (tFmt ra.tag)
    let n := vCount (tFmt ra.tag)
    let bad := cTagBad ra.tag || (c.fn = 0 && (tFmt rb.tag != 2 || (bits != 16 && bits != 32))) || (3 ≤ c.fn && rb.tag != ra.tag)
    if bad then [cTAGMIS]
    else
      let src := permFrom c n rb
      let idx (m : BitVec 64) : Bool := c.fn = 0 && marked m 0 (n / 4)
      (if ra.spectral then [cDOMAIN] else []) ++
      (if mark n bits (fun _ => true) src ra.tfail rb.tfail || idx rb.tfail then [cTIERERR] else []) ++
      (if mark n bits (fun _ => true) src ra.pois rb.pois || idx rb.pois then [cPOISON] else [])
  | 2 =>
    if c.fn = 0 then
      let bits := vBits (tFmt ra.tag)
      let q := c.imm.toNat % vCount (tFmt ra.tag)
      if cTagBad ra.tag then [cTAGMIS]
      else
        (if ra.spectral then [cDOMAIN] else []) ++
        (if marked ra.tfail (q * bits / 64) ((q * bits + bits + 63) / 64) then [cTIERERR] else []) ++
        (if marked ra.pois (q * bits / 64) ((q * bits + bits + 63) / 64) then [cPOISON] else [])
    else if cTagBad (c.f4.setWidth 16) then [cTAGMIS] else []
  | 5 =>
    let k (n : BitVec 6) : Bool := s.maskPois n.toNat
    if (c.fn ≤ 3 && (k c.a || k c.b)) || ((c.fn = 4 || c.fn = 5) && k c.a) then [cPOISON] else []
  | _ => []

/-- The value of a VMOVS selector. -/
def selGet (s : State) (n : Nat) : Word :=
  let v := s.vec
  if h : n < 4 then (s.core.t.regs.lc[n]).setWidth 64
  else if h : 8 ≤ n ∧ n < 16 then v.a[n - 8]
  else if n = 0x10 then v.sp.setWidth 64
  else if n = 0x11 then v.rrb.setWidth 64
  else v.mrb.setWidth 64

/-- Writes a VMOVS selector, modulo its width. -/
def selSet (s : State) (n : Nat) (x : Word) : State :=
  if h : n < 4 then s.modR fun r => { r with lc := r.lc.set n (x.setWidth 32) }
  else if h : 8 ≤ n ∧ n < 16 then s.modVec fun v => { v with a := v.a.set (n - 8) x }
  else if n = 0x10 then s.modVec fun v => { v with sp := x.setWidth 7 }
  else if n = 0x11 then s.modVec fun v => { v with rrb := x.setWidth 5 }
  else s.modVec fun v => { v with mrb := x.setWidth 3 }

/-- VLOOP (R232): the state after it and the next bundle index; none where the target is out of range. -/
def vloop (s : State) (c : CS) (upc : Nat) : Option (State × Nat × Bool) :=
  let n : Fin 4 := (c.d.extractLsb' 0 2).toFin
  let v := s.core.t.regs.lc[n]
  let inn : BitVec 7 := if v != 0 then 1 else 0
  let sp := (s.vec.sp <<< 1) ||| inn
  let take := (sp &&& BitVec.ofNat 7 (2 ^ c.f4.toNat - 1)) != 0
  let t : Int := if take then (upc : Int) + c.imm.toInt else upc + 1
  if take && (t < 0 || 65535 < t) then none
  else
    let s1 := s.modR fun r => { r with lc := r.lc.set n (if v != 0 then v - 1 else v) }
    some (s1.modVec fun k => { k with sp := sp, rrb := k.rrb - 1, mrb := k.mrb - 1 }, t.toNat, take)

/-- The pending writes of VPERM, VBCAST and KOP. The result of VBCAST.elem takes Tag(vA), as that of VPERM does; that of .imm and .a the spatial tag of the
format F4. DESIGN CHOICE (log 77). -/
def cPends (s : State) (w : BitVec 48) : List PendW :=
  let c := csOf w
  let vd := s.vec.physV c.d
  match c.opc with
  | 1 =>
    let ra := s.vreg c.a
    let rb := s.vreg c.b
    let bits := vBits (tFmt ra.tag)
    let n := vCount (tFmt ra.tag)
    [landV vd (vPack bits ((List.range n).map fun p =>
      let (b, q) := permFrom c n rb p
      (p, vElem (if b then rb.data else ra.data) bits q))) 0 ra.tag 0 3]
  | 2 =>
    let ra := s.vreg c.a
    let f := if c.fn = 0 then tFmt ra.tag else c.f4
    let bits := vBits f
    let x : Nat := match c.fn with
      | 0 => vElem ra.data bits (c.imm.toNat % vCount f)
      | 1 => (immPattern f 1 c.imm).getD 0
      | _ => (s.vec.a[(c.a.extractLsb' 0 3).toFin]).toNat % 2 ^ bits
    [landV vd (vPack bits ((List.range (vCount f)).map fun p => (p, x))) 0 (if c.fn = 0 then ra.tag else c.f4.setWidth 16) 0 2]
  | 5 =>
    let a := s.mask c.a.toNat
    let b := s.mask c.b.toNat
    let x : BitVec 1024 := match c.fn with
      | 0 => a &&& b | 1 => a ||| b | 2 => a ^^^ b | 3 => a &&& ~~~b | 4 => ~~~a | 5 => a
      | _ => (List.range c.imm.toNat).foldl (fun d p => d ||| (1#1024 <<< (p * vBits c.f4 / 4))) 0
    [{ isMask := true, reg := (s.vec.physK c.d.toNat).setWidth 6, data := x.setWidth 4096, keep := 0, tag := none, pois := 0,
       tfail := 0, flags := 0, left := 1 }]
  | _ => []

/-- VMOVS (R231). -/
def vmovs (s0 : State) (c : CS) (s : State) : State :=
  let x := if c.fn % 2 = 1 then sx c.imm else selGet s0 c.a.toNat
  selSet s c.d.toNat (if 2 ≤ c.fn then selGet s0 c.d.toNat + x else x)

/-! ### Programs (R210 to R218) -/

/-- Whether a command is a vector program. -/
def isVrun : Instr → Bool
  | .vrun .. | .vruna .. => true
  | _ => false

/-- The entry a program runs from: sJ in the adjoint of a VRUNA, else sE (R210, R212). -/
def Cmd.entryVa (k : Cmd) : Word :=
  match k.instr, k.kind with
  | .vruna .., .adj _ => k.v 1
  | _, _ => k.v 0

/-- The values captured for a0 to a(NA-1). -/
def Cmd.avals (k : Cmd) : List Word :=
  match k.instr with
  | .vruna .. => k.vals.drop 2
  | _ => k.vals.drop 1

/-- The residual of a VRUNA: AB offset p and bytes (R212). -/
def Cmd.vrunaRes (k : Cmd) : Option (Nat × Nat) :=
  match k.instr with
  | .vruna _ _ _ _ _ l ak => if l = 0 then none else some ((k.avals.getD ak.toNat 0).toNat, l.toNat * 512)
  | _ => none

/-- The checks and the state at a program's start (R211, R212). -/
def vrunStart (k : Cmd) : E Unit := do
  let jBad := match k.instr with | .vruna .. => (k.v 1).toNat % 32 != 0 | _ => false
  efailIf ((k.v 0).toNat % 32 != 0 || jBad) cALIGN
  efailIf (match k.instr with
    | .vruna _ _ _ na _ l ak => k.blk.isSome && l != 0 && na.toNat ≤ ak.toNat
    | _ => false) cBLKOP
  let load (a : Vector Word 8) (x : Nat × Word) : Vector Word 8 := if h : x.1 < 8 then a.set x.1 x.2 else a
  eupd fun s => s.modVec fun v =>
    { v with a := ((List.range 8).zip k.avals).foldl load v.a, rrb := 0, mrb := 0, sp := 0, bc := 0, bidx := 0, pend := [],
             fpx := false }

/-- The command whose program runs: in the compute queue, issued, not stopped. -/
def State.running (s : State) : Option Cmd :=
  s.core.t.q.compute.find? fun k => isVrun k.instr && 1 ≤ k.ph && !k.done && k.fault.isNone

/-- Reads a bundle (R41, R211) through the bundle cache, which INV.i empties (R136). DEDUCED (log 21). -/
def fetchBundle (va : Word) : E (BitVec 256) := do
  let x ← exlate va .r
  let s ← enow
  let line := x.pa / 128
  let cut (b : BitVec 1024) : BitVec 256 := b.extractLsb' (8 * (x.pa % 128)) 256
  match Sparse.find s.core.vcache line with
  | some b => pure (cut b)
  | none =>
    if s.homeFail (128 * line) 128 then efailAt cTIERERR va
    else if s.homePoisN x.pa 32 then efailAt cPOISON va
    else do
      let b := s.homeLine line
      if s.homePoisN (128 * line) 128 then pure () else eupd fun s => s.modC fun c => { c with vcache := Sparse.ins c.vcache line b }
      pure (cut b)

/-- Stops a command at its micro-PC. -/
def stopCmd (s : State) (k : Cmd) (upc : Nat) (e : EStop) : State :=
  settleCmd .compute k { Prog.ok s upc with stop := some e }

/-- The lowest of the faults found (R12). DEDUCED (log 50). -/
def lowest : List (BitVec 8 × Option Word) → Option (BitVec 8 × Option Word)
  | [] => none
  | x :: l => match lowest l with
    | some y => if y.1.toNat < x.1.toNat then some y else some x
    | none => some x

/-- Whether a fault is one of the bundle's checks, which stand before its issue (R211, R229), not of the data it reads. -/
def isBundleCheck (x : BitVec 8 × Option Word) : Bool := x.1 != cTIERERR && x.1 != cPOISON

/-- The fault of a bundle among those found: the lowest of its checks, else the lowest of its data. DEDUCED (log 50). -/
def bundleFault (l : List (BitVec 8 × Option Word)) : Option (BitVec 8 × Option Word) :=
  match lowest (l.filter isBundleCheck) with
  | some x => some x
  | none => lowest l

/-- Performs the slots of a bundle in the order M, A, B, C (R214): every operand is read from the state before, the results become
pending writes. The translation of the M slot's addresses is one of the checks (R229), whatever marks its data carry. -/
def slotsRun (b : BitVec 256) (s0 : State) : Except EStop (State × List PendW) :=
  let codes (l : List (BitVec 8)) : List (BitVec 8 × Option Word) := l.map fun c => (c, none)
  let ms := if bPres b 0 then mFaults s0 (msOf (slotM b)) else []
  let fs := ms ++
    (if bPres b 1 then codes (abFaults s0 (slotA b)) else []) ++ (if bPres b 2 then codes (abFaults s0 (slotB b)) else []) ++
    (if bPres b 3 then codes (cFaults s0 (slotC b)) else [])
  let mem : Except EStop (List PendW × State) :=
    if bPres b 0 && !ms.any isBundleCheck then mRun s0 (msOf (slotM b)) s0 else .ok ([], s0)
  let more : List (BitVec 8 × Option Word) := match mem with | .error (.fault c va _) => [(c, va)] | _ => []
  match bundleFault (fs ++ more), mem with
  | some (c, va), .error (.fault c' va' l) => if c = c' then .error (.fault c' va' l) else .error (.fault c va 0)
  | some (c, va), .error e => if isBundleCheck (c, va) then .error (.fault c va 0) else .error e
  | some (c, va), .ok _ => .error (.fault c va 0)
  | none, .error e => .error e
  | none, .ok (ps, s1) =>
    .ok (s1, ps ++ (if bPres b 1 then abRun s0 (slotA b) else []) ++ (if bPres b 2 then abRun s0 (slotB b) else []) ++
      (if bPres b 3 then cPends s0 (slotC b) else []))

/-- The slot that raises a fault of a bundle (R213, R214): 0 to 3 for M, A, B, C. DEDUCED (log 19). -/
def faultSlot (b : BitVec 256) (s : State) (e : EStop) : BitVec 2 :=
  match e with
  | .fault c _ _ =>
    if bPres b 0 && (mFaults s (msOf (slotM b))).any (·.1 = c) then 0
    else if bPres b 1 && (abFaults s (slotA b)).contains c then 1
    else if bPres b 2 && (abFaults s (slotB b)).contains c then 2
    else if bPres b 3 && (cFaults s (slotC b)).contains c then 3
    else 0
  | _ => 0

/-- The program has issued its last bundle: it is done when nothing is pending, and drains else (R211, R218). -/
def endProgram (k : Cmd) (upc : Nat) (s : State) : State :=
  if s.vec.pend.isEmpty && !s.vec.fpx then settleCmd .compute k (Prog.ok s upc)
  else s.modCmd .compute k.num fun c => { c with ph := 2, upc := upc }

/-- The landing slots that the M slot of a bundle reads, its checks passed (R353). -/
def bundleSlots (s : State) (b : BitVec 256) : List (Nat × Nat) :=
  let m := msOf (slotM b)
  if bPres b 0 && m.opc != 2 && m.spc = 0 && !(mFaults s m).any isBundleCheck then (mAccesses s m).map fun a => (a.at_.toNat, a.n) else []

/-- The words of some AB ranges as if no earlier use had left a tier-failed mark there: a slot without its tile holds no data yet (R353). -/
def State.unfailed (s : State) (l : List (Nat × Nat)) : State :=
  s.modB fun b => { b with abFail := b.abFail.filter fun w => !l.any fun r => r.1 ≤ 8 * w && 8 * w < r.1 + r.2 }

/-- What a bundle meets at a landing slot before it can issue (R309, R353): BLKOP in the forward pass of a recompute block, CHAN where the partner of a slot
without its tile is lost, else a wait for the tile. -/
def slotStop (k : Cmd) (s : State) (l : List (Nat × Nat)) : Option EStop :=
  let miss := slotsMissing s k.num l
  if meetsSlot s.core.t l && k.kind = .fwd && (match k.blk with | some q => q.rc && !q.replay | none => false) then some (.fault cBLKOP none 0)
  else if miss.any (·.2) then some (.fault cCHAN none 0)
  else if miss.isEmpty then none
  else some .wait

/-- Whether a fault of a bundle comes before what it meets at a landing slot: its checks before a wait, a lower code before a fault (R12, R211). -/
def beforeSlot (e x : EStop) : Bool :=
  match e, x with
  | .fault c va _, .wait => isBundleCheck (c, va)
  | .fault c _ _, .fault d _ _ => c.toNat < d.toNat
  | _, _ => false

/-- Issue of one bundle (R211, R214): it counts in BC, its pending writes join the queue, and every one comes one bundle nearer. -/
def issueBundle (k : Cmd) (b : BitVec 256) (s : State) : State :=
  let upc := k.upc
  let stg := bStg b
  let performs := stg = 0 || s.vec.sp.getLsbD (stg - 1)
  let c := csOf (slotC b)
  let isLoop := bPres b 3 && c.opc = 4
  let at_ (s : State) (n : BitVec 2) (e : EStop) : State := stopCmd (s.modVec fun v => { v with fslot := n }) k upc e
  if bundleIllop b then at_ s (firstBad b) (.fault cILLOP none 0)
  else
    let slots := if performs then bundleSlots s b else []
    let miss := slotsMissing s k.num slots
    let sb := bindSlots s k.num slots
    let r := if performs then slotsRun b (sb.unfailed (miss.map (·.1))) else .ok (sb, [])
    let stop : Option EStop := match slotStop k s slots, r with
      | some x, .error e => if beforeSlot e x then none else some x
      | x, _ => x
    match stop, r with
    | some .wait, _ => sb
    | some x, _ => at_ s 0 x
    | none, .error e => at_ s (faultSlot b s e) e
    | none, .ok (s1, ps) =>
      let s1 := if performs && bPres b 3 && c.opc = 3 then vmovs s c s1 else s1
      match (if isLoop then vloop s1 c upc else some (s1, upc + 1, false)) with
      | none => at_ s 3 (.fault cILLOP none 0)
      | some (s2, next, took) =>
        let s3 := s2.modVec fun v => { v with
          bc := v.bc + 1, bidx := BitVec.ofNat 16 next,
          pend := (v.pend ++ ps).map fun p => { p with left := p.left - 1 } }
        if bLast b && !took then endProgram k next s3
        else s3.modCmd .compute k.num fun q => { q with upc := next }

/-- BUNDLE_ISSUE (R214, R217, R218): the next bundle of the running program, once every result due at its count has landed. -/
def execBundleIssue (s : State) : Out :=
  .next <|
  if !enginesRun s then s
  else match s.running with
    | none => s
    | some k =>
      if s.vec.pend.any fun p => p.left = 0 then s
      else if s.vec.fpx then stopCmd (s.modVec fun v => { v with fpx := false }) k k.upc (.fault cFPX none 0)
      else if k.ph = 2 then (if s.vec.pend.isEmpty then settleCmd .compute k (Prog.ok s k.upc) else s)
      else if 65535 < k.upc then stopCmd s k k.upc (.fault cILLOP none 0)
      else
        let va := k.entryVa + BitVec.ofNat 64 (32 * k.upc)
        match fetchBundle va s with
        | .error e => stopCmd s k k.upc e
        | .ok (b, s1) => s1.underRegs k (issueBundle k b)

/-- A pending write lands (R216): partial results merge with the destination as it stands, the tag lands with the data. -/
def land (s : State) (p : PendW) : State :=
  let s1 :=
    if p.isMask then
      let k : BitVec 4 := p.reg.setWidth 4
      let old := s.core.t.regs.rdK k
      let r := s.modR fun r => r.wrK k ((old &&& p.keep.setWidth 1024) ||| p.data.setWidth 1024)
      -- a mask word that is merged keeps its poison
      r.modR fun g => if k = 0 then g else { g with kpois := g.kpois |||
        ((List.range 16).foldl (fun (d : BitVec 256) w =>
          let i := 16 * k.toNat + w
          if s.core.t.regs.kpois.getLsbD i && (p.keep.extractLsb' (64 * w) 64) != 0 then d ||| (1#256 <<< i) else d) 0) }
    else
      let o := s.V p.reg
      let kept (m : BitVec 64) : BitVec 64 :=
        (List.range 64).foldl (fun d w => if m.getLsbD w && (p.keep.extractLsb' (64 * w) 64) != 0 then d ||| (1#64 <<< w) else d) 0
      s.setV p.reg ⟨(o.data &&& p.keep) ||| p.data, p.tag.getD o.tag, kept o.pois ||| p.pois, kept o.tfail ||| p.tfail⟩
  let s2 := s1.orFlags .vf p.flags
  if p.flags &&& s2.fpEn .vf != 0 then s2.modVec fun v => { v with fpx := true } else s2

/-- Removes the first pending write that is due. -/
def takeDue : List PendW → Option (PendW × List PendW)
  | [] => none
  | p :: l => if p.left = 0 then some (p, l) else (takeDue l).map fun r => (r.1, p :: r.2)

/-- RESULT_LANDING (R216, R218): one result that is due lands, in issue order; at a program's end the remaining ones come due in turn. -/
def execResultLanding (s : State) : Out :=
  .next <|
  if !enginesRun s then s
  else match s.running with
    | none => s
    | some k =>
      let pend := s.vec.pend
      let least := pend.foldl (fun m p => min m p.left) 1000
      let pend := if k.ph = 2 then pend.map fun p => { p with left := p.left - least } else pend
      match takeDue pend with
      | none => s
      | some (p, rest) => (s.modVec fun v => { v with pend := rest }).underRegs k (land · p)

/-! ### Routing -/

/-- VRUN (R210, R212). -/
def execVrun (tk : Tok) (rE rP : Reg) (na : BitVec 4) (s : State) : Out := routed (.vrun tk rE rP na) (pure ()) s

/-- VRUNA (R210, R212). -/
def execVruna (tk : Tok) (rE rP : Reg) (na : BitVec 4) (rJ : Reg) (rlen : BitVec 10) (rak : BitVec 3) (s : State) : Out :=
  routed (.vruna tk rE rP na rJ rlen rak) (pure ()) s

end Sys2Proof.Machine
end

