-- ==== Sys2Proof/Machine/LoopNest.lean ====
section
/-! DEFINITION. Class 8, LNX and LNR (09_vector.md R233 to R239), and their residuals and adjoints (12_blocks.md R313, R314, R316). -/

namespace Sys2Proof.Machine

/-! ### Geometry (R233, R234) -/

/-- The levels of a five-level field. -/
def Lv5.list {w : Nat} (l : Lv5 w) : List (BitVec w) := [l.l0, l.l1, l.l2, l.l3, l.l4]

/-- Extents of the levels in use. -/
def lnExts (f : LnFields) : List Nat := ((Lv5.list f.ext).take f.nl.toNat).map fun x => x.toNat + 1

/-- Strides in bytes of an operand. -/
def lnStrides (f : LnFields) (sh : BitVec 2) (st : Lv5 9) (size : Nat) : List Int :=
  ((Lv5.list st).take f.nl.toNat).map fun x => x.toInt * (16 ^ sh.toNat * size : Nat)

/-- Indices of element j, level 0 innermost. -/
def lnIndex : List Nat → Nat → List Nat
  | [], _ => []
  | e :: l, j => (j % e) :: lnIndex l (j / e)

/-- Number of elements. -/
def lnCount (l : List Nat) : Nat := l.foldl (· * ·) 1

/-- Bytes of an element of a tile's format. -/
def eSize (d : Desc) : Nat := elemBits (dFmt d) / 8

/-- An operand of a loop nest: its tile and its strides. -/
structure LnOpd where
  d : Desc
  st : List Int

/-- Byte address of element j of an operand (R234). -/
def LnOpd.at_ (o : LnOpd) (exts : List Nat) (j : Nat) : Int :=
  ((lnIndex exts j).zip o.st).foldl (fun (a : Int) x => a + x.1 * x.2) (dBase o.d)

/-- Lowest and highest element start. -/
def LnOpd.extent (o : LnOpd) (exts : List Nat) : Int × Int :=
  (exts.zip o.st).foldl (fun (a : Int × Int) x =>
    let d := ((x.1 : Int) - 1) * x.2
    (a.1 + min 0 d, a.2 + max 0 d)) (dBase o.d, dBase o.d)

/-- Operands of a command: destination, A, B. -/
def lnD (k : Cmd) (f : LnFields) : LnOpd := ⟨k.d 0, lnStrides f f.shD f.dst (eSize (k.d 0))⟩
def lnA (k : Cmd) (f : LnFields) : LnOpd := ⟨k.d 1, lnStrides f f.shA f.ast (eSize (k.d 1))⟩
def lnB (k : Cmd) (f : LnFields) : LnOpd := ⟨k.d 2, lnStrides f f.shB f.bst (eSize (k.d 2))⟩

/-- The operand with its tile's gradient counterpart in place of the tile (R293: equal offsets). -/
def LnOpd.cp (o : LnOpd) (g : Desc) : LnOpd := { o with d := g }

/-- The bytes of AB of element j: none of a part below its first byte. -/
def LnOpd.bytes (o : LnOpd) (exts : List Nat) (j : Nat) : Nat × Nat :=
  let a := o.at_ exts j
  (a.toNat, (a + eSize o.d - a.toNat).toNat)

/-- Whether an element of an operand in AB meets one of the ranges. -/
def LnOpd.meets (o : LnOpd) (exts : List Nat) (l : List (Nat × Nat)) : Bool :=
  let l := l.filter fun r => r.2 != 0
  dSpace o.d == 1 && !l.isEmpty &&
  (List.range (lnCount exts)).any fun j => l.any fun r => rangeMeets (o.bytes exts j) r

/-- Whether an operand reaches beyond its buffer or its descriptor (R234). -/
def LnOpd.outside (o : LnOpd) (exts : List Nat) : Bool :=
  let (lo, hi) := o.extent exts
  lo < 0 || lo < dBase o.d || (spaceBytes (dSpace o.d) : Int) < hi + eSize o.d ||
  ((dBase o.d + dRows o.d * dStride o.d : Nat) : Int) < hi + eSize o.d

/-- The pattern of element j. -/
def LnOpd.raw (o : LnOpd) (exts : List Nat) (s : State) (j : Nat) : Nat :=
  leNat (s.core.buf.read (dSpace o.d) (o.at_ exts j).toNat (eSize o.d))

/-- Reads element j as an engine does. -/
def LnOpd.read (o : LnOpd) (exts : List Nat) (j : Nat) : E Nat := do
  pure (leNat (← eBytes (dSpace o.d) (o.at_ exts j).toNat (eSize o.d)))

/-- Writes element j. -/
def LnOpd.write (o : LnOpd) (exts : List Nat) (j x : Nat) : E Unit :=
  eupd fun s => s.modB fun b => b.write (dSpace o.d) (o.at_ exts j).toNat (leBytes (eSize o.d) x)

/-! ### Checks (R234, R313, R314) -/

/-- Operations with a row in the table of R313. -/
def lnTable (vop : Nat) : Bool := (vop ≤ 8) || (0x20 ≤ vop && vop ≤ 0x26)

/-- Whether a float operation of the loop nest rounds by RM; whether an integer one may saturate (R221). -/
def lnRmUsed (lnr : Bool) (vop : Nat) (f : BitVec 4) : Bool := isF f && (lnr || (1 ≤ vop && vop ≤ 4))
def lnSatUsed (lnr : Bool) (vop : Nat) (f : BitVec 4) : Bool :=
  isI f && (lnr || vop = 1 || vop = 2 || vop = 3 || vop = 4 || vop = 7 || vop = 8 || vop = 0x13)

/-- Checks of LNX and LNR at the queue head, in the order of R234's table; the rules of the descriptors themselves (R40, R62, R63) and unused RM and
SAT stand with its first row. DEDUCED (log 22). -/
def checkLn (k : Cmd) (lnr : Bool) (f : LnFields) : E Unit := do
  let s ← enow
  let exts := lnExts f
  let D := lnD k f
  let A := lnA k f
  let B := lnB k f
  let bin := !f.unary
  let vop := f.vop.toNat
  let fa := dFmt A.d
  let fd := dFmt D.d
  let slots := (slotsOf s.core.t).map (·.2.2)
  let srcs := if bin then [A, B] else [A]
  efailIf (tileIllop D.d [1] || (srcs.any fun o => tileIllop o.d [0, 1]) || D.meets exts (topRange s.core.t :: slots)) cILLOP
  efailIf ((f.rm != .rne && !lnRmUsed lnr vop fa) || (f.sat && !lnSatUsed lnr vop fa)) cILLOP
  efailIf ((D :: srcs).any fun o => !tagWf (dTag o.d)) cTAGMIS
  efailIf (if vop = 0 then !(isI fa || isF fa) else !abFmtOk vop fa) cTAGMIS
  efailIf (bin && dFmt B.d != fa) cTAGMIS
  efailIf (if lnr then !(isI fd || isF fd) || isF fd != isF fa else fd != fa) cTAGMIS
  let sp (o : LnOpd) : Bool := tDom (dTag o.d) != 0
  let same (x y : LnOpd) : Bool := sp x == sp y && (dTag x.d).extractLsb' 8 8 == (dTag y.d).extractLsb' 8 8
  efailIf ((D :: srcs).any sp && (lnr || !same D A || !(((vop = 1 || vop = 2) && bin && same A B) || vop = 8))) cDOMAIN
  efailIf ((D :: srcs).any fun o => eSize o.d != 0 && dBase o.d % eSize o.d != 0) cALIGN
  efailIf ((D :: srcs).any fun o => o.outside exts) cOOB
  efailIf (lnr && (D.st.take f.nr.toNat).any (· != 0)) cILLOP
  match k.blk with
  | none => pure ()
  | some _ => do
    let cps := ((descsOf k.instr).filterMap fun d => k.cp d).length
    let hits (o : LnOpd) : Bool :=
      dSpace o.d = 1 && (List.range (lnCount exts)).any fun j => D.meets exts [o.bytes exts j]
    efailIf (!lnr && srcs.any hits) cBLKOP
    efailIf (vop = 4 && (f.fn = 1 || f.fn = 3)) cBLKOP
    efailIf (!lnTable vop && cps != 0) cBLKOP
    efailIf (lnr && f.fn.extractLsb' 0 2 != 0 && f.fn.getLsbD 2) cBLKOP

/-! ### Execution (R235, R236) -/

/-- Whether B is chosen by a maximum or minimum (R313): the result is B and A did not tie with it, or A alone is NaN. -/
def choosesB (vop : Nat) (f : BitVec 4) (a b : Nat) : Bool :=
  match floatFmt? f, intFmt? f with
  | some F, _ =>
    let x := F.decode a
    let y := F.decode b
    if x.isNan then !y.isNan
    else if y.isNan then false
    else if vop = 5 then Num.lt x y || (x.isZero && y.isZero && x.sign && !y.sign)
    else Num.lt y x || (x.isZero && y.isZero && !x.sign && y.sign)
  | _, some (w, s) => if vop = 5 then intOf w s a < intOf w s b else intOf w s b < intOf w s a
  | _, _ => false

/-- Residual data of one element of R313, as it is collected: A's and B's bytes, the result's, or a mask byte. `ga`, `gb`: whether the gradients
of A and B are written. -/
def lnResElem (vop : Nat) (f : BitVec 4) (ga gb : Bool) (a b d : Nat) : List Byte :=
  let n := elemBits f / 8
  match vop with
  | 0x03 | 0x04 => (if gb then leBytes n a else []) ++ (if ga then leBytes n b else [])
  | 0x05 | 0x06 => [if choosesB vop f a b then 1 else 0]
  | 0x07 => [if a.testBit (8 * n - 1) then 1 else 0]
  | 0x20 | 0x22 | 0x24 | 0x25 | 0x26 => leBytes n d
  | 0x21 | 0x23 => leBytes n a
  | _ => []

/-- Whether the gradients of a command's sources are written. -/
def lnGrads (k : Cmd) : Bool × Bool :=
  match k.instr, k.blk with
  | .lnx _ _ a b f, some g => (hasCp g.g a, !f.unary && hasCp g.g b)
  | .lnr _ _ a b f, some g => (hasCp g.g a, !f.unary && hasCp g.g b)
  | _, _ => (false, false)

/-- LNX at the queue head (R235): elements in increasing j. -/
def runLnx (k : Cmd) (f : LnFields) (s : State) : Prog :=
  let exts := lnExts f
  let D := lnD k f
  let A := lnA k f
  let B := lnB k f
  let fm := dFmt A.d
  let vop := f.vop.toNat
  let (ga, gb) := lnGrads k
  checkedElems .vf (checkLn k false f) (lnCount exts) k.upc (fun j => do
    let a ← A.read exts j
    let b ← if f.unary then pure 0 else B.read exts j
    let c ← if vop = 4 then D.read exts j else pure 0
    let (y, fl) := vopElem vop f.fn.toNat f.rm f.sat fm a b c
    D.write exts j y
    if k.doesPush then eRes .compute k (lnResElem vop fm ga gb a b y) else pure ()
    pure fl) s

/-- The value of VOP on one inner element of LNR (R236): exact, floats then rounded to FP32 by RNE. -/
def lnrVal (vop : Nat) (f : BitVec 4) (a b : Nat) : TVal × FFlags :=
  match floatFmt? f, intFmt? f with
  | some F, _ =>
    let (x, f1) := vopNum vop 0 .rne F a b 0
    let (p, f2) := fp32.round .rne false x
    (.f (fp32.decode p), f1 ||| f2)
  | _, some (w, s) => (.i (if vop = 0x13 && w ≤ b % 256 then 0 else vopInt vop 0 w s a b 0), 0)
  | _, _ => (.i 0, 0)

/-- The inner elements of outer point o: linear indices over all levels (inner levels vary first). -/
def lnrInner (exts : List Nat) (nr o : Nat) : List Nat :=
  let n := lnCount (exts.take nr)
  (List.range n).map fun i => o * n + i

/-- Values, flags and residual bytes of the inner elements. -/
def lnrVals (k : Cmd) (f : LnFields) : List Nat → E (List TVal × FFlags × List Byte)
  | [] => pure ([], 0, [])
  | j :: l => do
    let exts := lnExts f
    let A := lnA k f
    let a ← A.read exts j
    let b ← if f.unary then pure 0 else (lnB k f).read exts j
    let vop := f.vop.toNat
    let fm := dFmt A.d
    let (v, fl) := lnrVal vop fm a b
    let (ga, gb) := lnGrads k
    let r := lnResElem vop fm ga gb a b (vopElem vop 0 .rne false fm a b 0).1
    let (vs, fs, rs) ← lnrVals k f l
    pure (v :: vs, fl ||| fs, r ++ rs)

/-- The inner index Tree carries to the root (R314): at a tie the left one, a NaN loses to a number. -/
def treeWinner (red : Nat) (l : List TVal) : Nat :=
  let better (x y : TVal) : Bool := match x, y with
    | .f a, .f b => if b.isNan then false else if a.isNan then true
        else if red = 1 then Num.lt a b || (a.isZero && b.isZero && a.sign && !b.sign)
        else Num.lt b a || (a.isZero && b.isZero && !a.sign && b.sign)
    | .i a, .i b => if red = 1 then a < b else b < a
    | _, _ => false
  (l.foldl (fun (acc : Nat × Option (Nat × TVal)) v =>
    match acc.2 with
    | none => (acc.1 + 1, some (acc.1, v))
    | some (i, w) => (acc.1 + 1, some (if better w v then (acc.1, v) else (i, w)))) (0, none)).2.elim 0 (·.1)

/-- LNR at the queue head (R236): one outer point at a time. -/
def runLnr (k : Cmd) (f : LnFields) (s : State) : Prog :=
  let exts := lnExts f
  let nr := f.nr.toNat
  let n := lnCount (exts.take nr)
  let D := lnD k f
  let red := (f.fn.extractLsb' 0 2).toNat
  let fd := dFmt D.d
  checkedElems .vf (checkLn k true f) (lnCount (exts.drop nr)) k.upc (fun o => do
    let (vs, f1, rs) ← lnrVals k f (lnrInner exts nr o)
    let (t, f2) := tree red n vs
    let (t, f3) ← if f.fn.getLsbD 2 then do
        let d ← D.read exts (o * n)
        pure (treeNode red (treeIn fd d) t)
      else pure (t, 0)
    let (y, f4) := treeOut f.rm f.sat fd t
    D.write exts (o * n) y
    if k.doesPush then
      eRes .compute k (rs ++ (if red != 0 then leBytes 4 (treeWinner red vs) else []))
    else pure ()
    pure (f1 ||| f2 ||| f3 ||| f4)) s

/-! ### The residual entry (R313, R314, R316) -/

/-- Bits as bytes, least significant first; n bytes suffice for n bits. -/
def packBits : Nat → List Byte → List Byte
  | 0, _ => []
  | n + 1, l =>
    if l.isEmpty then []
    else ((List.range 8).foldl (fun (d : Byte) i => d ||| ((l.getD i 0) <<< i)) 0) :: packBits n (l.drop 8)

/-- Bytes that R313 collects for one element. -/
def lnResBytes (vop : Nat) (n : Nat) (ga gb : Bool) : Nat :=
  match vop with
  | 0x03 | 0x04 => (if gb then n else 0) + (if ga then n else 0)
  | 0x05 | 0x06 | 0x07 => 1
  | 0x20 | 0x21 | 0x22 | 0x23 | 0x24 | 0x25 | 0x26 => n
  | _ => 0

/-- Every step-th chunk of `take` bytes from an offset on, `n` of them. -/
def chunks (l : List Byte) (off step take : Nat) : Nat → List Byte
  | 0 => []
  | n + 1 => (l.drop off).take take ++ chunks l (off + step) step take n

/-- What was collected element by element, as R316 lays it out: A's values, then B's; a mask as bits. -/
def lnArrange (vop n : Nat) (ga gb : Bool) (e : Nat) (l : List Byte) : List Byte :=
  match vop with
  | 0x03 | 0x04 => if ga && gb then chunks l 0 (2 * n) n e ++ chunks l n (2 * n) n e else l
  | 0x05 | 0x06 | 0x07 => packBits l.length l
  | _ => l

/-- Bytes of the entry's values for e elements. -/
def lnLen (vop n : Nat) (ga gb : Bool) (e : Nat) : Nat :=
  match vop with
  | 0x05 | 0x06 | 0x07 => (e + 7) / 8
  | _ => e * lnResBytes vop n ga gb

/-- The tag of the entry (R316): a mask alone has tag 0; the winners of LNR stand beside it as values. DEDUCED (log 22). -/
def lnTag (k : Cmd) (vop : Nat) (winners : Bool) : FTag :=
  if winners then dTag (k.d 1) else
  match vop with
  | 0x03 | 0x04 | 0x20 | 0x21 | 0x22 | 0x23 | 0x24 | 0x25 | 0x26 => dTag (k.d 1)
  | _ => 0

/-- Data, length and tag of the entry of an LNX or LNR. -/
def lnResidual (k : Cmd) (lnr : Bool) (f : LnFields) : List Byte :=
  let (ga, gb) := lnGrads k
  let n := eSize (k.d 1)
  let vop := f.vop.toNat
  let exts := lnExts f
  let e := lnCount exts
  if lnr && f.fn.extractLsb' 0 2 != 0 then
    let inner := lnCount (exts.take f.nr.toNat)
    let outer := e / inner
    let w := inner * lnResBytes vop n ga gb
    lnArrange vop n ga gb e (chunks k.res 0 (w + 4) w outer) ++ chunks k.res w (w + 4) 4 outer
  else lnArrange vop n ga gb e k.res
def lnResLen (k : Cmd) (lnr : Bool) (f : LnFields) : Nat :=
  let (ga, gb) := lnGrads k
  let exts := lnExts f
  let e := lnCount exts
  lnLen f.vop.toNat (eSize (k.d 1)) ga gb e +
    (if lnr && f.fn.extractLsb' 0 2 != 0 then 4 * (e / lnCount (exts.take f.nr.toNat)) else 0)

/-! ### Adjoints (R308, R313, R314) -/

/-- λ of R313. -/
def lambda : Num := fp32.decode 0x3F317218

/-- Value of a residual element. -/
def resVal (f : BitVec 4) (l : List Byte) (i : Nat) : Num :=
  let n := elemBits f / 8
  elemVal f (leNat ((l.drop (i * n)).take n))

/-- Bit j of a mask. -/
def resBit (l : List Byte) (j : Nat) : Bool := (l.getD (j / 8) 0).getLsbD (j % 8)

/-- y into gA and gB (R313) for upstream u at element j of e, from the residual. -/
def lnY (vop fn : Nat) (f : BitVec 4) (ga gb : Bool) (res : List Byte) (e j : Nat) (u : Num) : Option (Num × FFlags) × Option (Num × FFlags) :=
  let mul (x y : Num) : Num × FFlags := Num.mul x y
  let mul3 (x y z : Num) : Num × FFlags :=
    let (p, f1) := Num.mul x y
    let (q, f2) := Num.mul p z
    (q, f1 ||| f2)
  let v (i : Nat) : Num := resVal f res i
  let un (x : Num × FFlags) : Option (Num × FFlags) × Option (Num × FFlags) := (some x, none)
  let sgn (x : Num) : Num := if fn = 2 && vop = 4 then x.neg else x
  match vop with
  | 0x00 => un (u, 0)
  | 0x01 => (some (u, 0), some (u, 0))
  | 0x02 => (some (u, 0), some (u.neg, 0))
  | 0x03 | 0x04 =>
    -- A values stand first where gB is written, then B values where gA is written
    let bAt := if gb then e + j else j
    ((if ga then some (mul (sgn u) (v bAt)) else none), (if gb then some (mul (sgn u) (v j)) else none))
  | 0x05 | 0x06 => if resBit res j then (none, some (u, 0)) else (some (u, 0), none)
  | 0x07 => un ((if resBit res j then u.neg else u), 0)
  | 0x08 => un (u.neg, 0)
  | 0x20 => un (mul3 u (v j) lambda)
  | 0x22 => un (mul u (v j))
  | 0x21 => let (p, f1) := mul (v j) lambda; let (q, f2) := Num.div u p; un (q, f1 ||| f2)
  | 0x23 => un (Num.div u (v j))
  | 0x24 => un (mul3 u.neg (v j) (v j))
  | 0x25 =>
    let (p, f1) := mul3 u.neg (v j) (v j)
    let (q, f2) := mul p (v j)
    un (q.scale (-1), f1 ||| f2)
  | 0x26 =>
    let (d2, f1) := mul (v j) (v j)
    let (w, f2) := Num.add .rne (.fin false 1 0) d2.neg
    let (q, f3) := mul u w
    un (q, f1 ||| f2 ||| f3)
  | _ => (none, none)

/-- The residual bytes that y reads (R313). -/
def lnResUse (vop : Nat) (f : BitVec 4) (ga gb : Bool) (e j : Nat) : List (Nat × Nat) :=
  let n := elemBits f / 8
  match vop with
  | 0x03 | 0x04 => (if ga then [((if gb then e + j else j) * n, n)] else []) ++ (if gb then [(j * n, n)] else [])
  | 0x05 | 0x06 | 0x07 => [(j / 8, 1)]
  | 0x20 | 0x21 | 0x22 | 0x23 | 0x24 | 0x25 | 0x26 => [(j * n, n)]
  | _ => []

/-- y of element j of e, its residual consumed. -/
def eLnY (k : Cmd) (vop fn : Nat) (ga gb : Bool) (e j : Nat) (u : Num) : E (Option (Num × FFlags) × Option (Num × FFlags)) := do
  let f := dFmt (k.d 1)
  eResUse k (lnResUse vop f ga gb e j)
  pure (lnY vop fn f ga gb k.res e j u)

/-- Adds y into element j of a counterpart (R308). -/
def lnAcc (o : LnOpd) (exts : List Nat) (j : Nat) (y : Num × FFlags) : E FFlags := do
  let x ← o.read exts j
  let (z, f1) := Num.add .rne (elemVal (dFmt o.d) x) y.1
  let (b, f2) := convert (dFmt o.d) .rne false z
  o.write exts j b
  pure (y.2 ||| f1 ||| f2)

/-- Adds the contributions of one element. -/
def lnAdd (exts : List Nat) (j : Nat) (ga gb : Option LnOpd) (y : Option (Num × FFlags) × Option (Num × FFlags)) : E FFlags := do
  let f1 ← match ga, y.1 with | some o, some v => lnAcc o exts j v | _, _ => pure 0
  let f2 ← match gb, y.2 with | some o, some v => lnAcc o exts j v | _, _ => pure 0
  pure (f1 ||| f2)

/-- The counterparts an adjoint works on: of the destination, of A, of B. -/
def lnCps (k : Cmd) (f : LnFields) : Option LnOpd × Option LnOpd × Option LnOpd :=
  match descsOf k.instr with
  | d :: a :: l =>
    ((k.cp d).map (lnD k f).cp, (k.cp a).map (lnA k f).cp, match l with | b :: _ => (k.cp b).map (lnB k f).cp | [] => none)
  | _ => (none, none, none)

/-- The checks of an adjoint over its counterparts: landing slots and the top region are not its to write (R352, R291). -/
def checkLnAdj (exts : List Nat) (gd : LnOpd) (gs : List LnOpd) : E Unit := do
  let s ← enow
  efailIf (gs.any fun o => o.meets exts ((slotsOf s.core.t).map (·.2.2))) cILLOP
  efailIf ((gd :: gs).any fun o => let (lo, hi) := o.extent exts; lo < 0 || (Config.abBytes : Int) < hi + eSize o.d) cOOB
  efailIf (gs.any fun o => o.meets exts [topRange s.core.t]) cBLKOP

/-- The adjoint of LNX (R313): micro-PC j. -/
def adjLnx (k : Cmd) (f : LnFields) (s : State) : Prog :=
  let exts := lnExts f
  let e := lnCount exts
  match lnCps k f with
  | (some gd, ga, gb) =>
    checkedElems .vf (checkLnAdj exts gd (ga.toList ++ gb.toList)) e k.upc (fun j => do
      let u ← gd.read exts j
      lnAdd exts j ga gb (← eLnY k f.vop.toNat f.fn.toNat ga.isSome gb.isSome e j (elemVal (dFmt gd.d) u))) s
  | _ => .ok s k.upc

/-- The contributions of the inner elements of one outer point. -/
def lnrAdds (k : Cmd) (f : LnFields) (ga gb : Option LnOpd) (u : Num) (win : Option Nat) : List Nat → Nat → E FFlags
  | [], _ => pure 0
  | j :: l, i => do
    let exts := lnExts f
    let f1 ← if win.all (· = i) then
        lnAdd exts j ga gb (← eLnY k f.vop.toNat 0 ga.isSome gb.isSome (lnCount exts) j u)
      else pure 0
    let f2 ← lnrAdds k f ga gb u win l (i + 1)
    pure (f1 ||| f2)

/-- The adjoint of LNR (R314): micro-PC the outer point. -/
def adjLnr (k : Cmd) (f : LnFields) (s : State) : Prog :=
  let exts := lnExts f
  let nr := f.nr.toNat
  let n := lnCount (exts.take nr)
  let outer := lnCount (exts.drop nr)
  match lnCps k f with
  | (some gd, ga, gb) =>
    let vals := lnLen f.vop.toNat (eSize (k.d 1)) ga.isSome gb.isSome (n * outer)
    checkedElems .vf (checkLnAdj exts gd (ga.toList ++ gb.toList)) outer k.upc (fun o => do
      let u ← gd.read exts (o * n)
      let win : Option Nat ← if f.fn.extractLsb' 0 2 = 0 then pure none
        else do pure (some (leNat (← eResAt k (vals + 4 * o) 4)))
      lnrAdds k f ga gb (elemVal (dFmt gd.d) u) win (lnrInner exts nr o) 0) s
  | _ => .ok s k.upc

/-! ### Routing -/

/-- LNX (R233). -/
def execLnx (tk : Tok) (dD dA dB : DCode) (f : LnFields) (s : State) : Out := routed (.lnx tk dD dA dB f) (pure ()) s

/-- LNR (R233). -/
def execLnr (tk : Tok) (dD dA dB : DCode) (f : LnFields) (s : State) : Out := routed (.lnr tk dD dA dB f) (pure ()) s

end Sys2Proof.Machine
end

