-- ==== Sys2Proof/Machine/Matrix.lean ====
section
/-! DEFINITION. Class 9, the matrix array and the residue check (10_matrix.md R240 to R266): one definition per instruction for its routing,
and what each does at the queue head; tiles and their replay. -/

namespace Sys2Proof.Machine

/-! ### Accumulators (R242 to R244) -/

/-- An accumulator and its update. -/
def State.acc (s : State) (a : Bool) : Accum := if a then s.core.t.acc1 else s.core.t.acc0
def State.modAcc (s : State) (a : Bool) (f : Accum → Accum) : State :=
  s.modT fun t => if a then { t with acc1 := f t.acc1 } else { t with acc0 := f t.acc0 }

/-- Index of element (i, j) of a bank. -/
def bankAt (i j : Nat) : Nat := 128 * i + j

/-- First CB entry of a visible bank (R243). -/
def visBase (a : Bool) : Nat := if a then 16384 else 0

/-- The tag of an empty bank. -/
def accTag : FTag := 0x000B

/-- The exact value of an FA56 pattern. -/
def faVal (x : FA56) : Num := fa56.decode x.toNat

/-- A working-bank entry, and a write of one: +0 is not listed. -/
def Accum.w (a : Accum) (i : Nat) : FA56 := Sparse.get 0 a.work i
def Accum.setW (a : Accum) (i : Nat) (x : FA56) : Accum := { a with work := Sparse.put 0 a.work i x }

/-- An unarmed check state without a located element. -/
def Check.clear (c : Check) : Check := { c with arm := false, loc := false }

/-- A freshly armed check state (R250). -/
def Check.armed : Check := ⟨true, [], [], [], [], false, 0, 0⟩

/-- RoundFA56 by RNE. -/
def roundFA (x : Num) : FA56 × FFlags := let (b, f) := fa56.round .rne false x; (BitVec.ofNat 56 b, f)

/-! ### Operands (R240, R241, R248) -/

/-- Element of a matrix operand: of the tile, or of the tile transposed. -/
def opAt (tr : Bool) (i j : Nat) : Nat × Nat := if tr then (j, i) else (i, j)

/-- Rows and columns of a matrix operand. -/
def opRows (d : Desc) (tr : Bool) : Nat := if tr then dCols d else dRows d
def opCols (d : Desc) (tr : Bool) : Nat := if tr then dRows d else dCols d

/-- The pairs of R240. -/
def pairOk (a b : BitVec 4) : Bool :=
  let h (f : BitVec 4) : Bool := f == 6 || f == 7
  let q (f : BitVec 4) : Bool := f == 4 || f == 5
  let w (f : BitVec 4) : Bool := f == 9 || f == 0xA
  let i (f : BitVec 4) : Bool := f == 1 || f == 0xD
  (h a && (h b || q b || w b)) || (q a && (h b || q b || w b)) || (i a && i b)

/-- Rules of one source tile of the array: ILLOP, ALIGN (R248, R62, R63). -/
def srcIllop (d : Desc) : Bool := tileIllop d [0, 1]
def srcAlign (d : Desc) : Bool := dBits d ≥ 8 && dBase d % (dBits d / 8) != 0

/-- The queue-head checks of MMA and MCKS, in the order of R248. -/
def checkMma (k : Cmd) (acc ta tb : Bool) (row0 col0 : Nat) : E Unit := do
  let s ← enow
  let a := k.d 0
  let b := k.d 1
  efailIf (srcIllop a || srcIllop b || opCols a ta != opRows b tb || 128 < opRows a ta || 128 < opCols b tb ||
    128 < row0 + opRows a ta || 128 < col0 + opCols b tb) cILLOP
  efailIf (!tagWf (dTag a) || !tagWf (dTag b) || !pairOk (dFmt a) (dFmt b)) cTAGMIS
  efailIf (tDom (dTag a) != 0 || tDom (dTag b) != 0 || tDom (s.acc acc).wtag != 0) cDOMAIN
  efailIf (srcAlign a || srcAlign b) cALIGN
  efailIf (!tileFits a || !tileFits b) cOOB

/-! ### The summation order (R245, R246) -/

/-- Floor of log2 of a number's magnitude, for a finite number that is not zero. -/
def numLog (x : Num) : Option Int := match x with | .fin _ m e => if m = 0 then none else some (m.log2 + e) | _ => none

/-- A finite number truncated toward zero to a multiple of 2^q: the multiple, and whether it changed. -/
def truncAt (q : Int) (x : Num) : Int × Bool :=
  match x with
  | .fin n m e =>
    let (r, ch) := if q ≤ e then (m <<< (e - q).toNat, false)
      else let k := (q - e).toNat; (m >>> k, decide ((m >>> k) <<< k ≠ m))
    (if n then -(r : Int) else r, ch)
  | _ => (0, false)

/-- ChunkSum (R246) of exact products, each with the V its formation set. -/
def chunkSum (ps : List (Num × FFlags)) : Num × FFlags :=
  let fl := ps.foldl (fun f p => f ||| p.2) 0
  if ps.any fun p => p.1.isNan then (.nan, fl)
  else
    let inf (n : Bool) : Bool := ps.any fun p => p.1 == .inf n
    if inf false && inf true then (.nan, fl ||| fV)
    else if inf false then (.inf false, fl)
    else if inf true then (.inf true, fl)
    else match ps.foldl (fun (m : Option Int) p => match m, numLog p.1 with
        | some a, some b => some (max a b) | none, b => b | a, none => a) none with
      | none => (.fin false 0 0, fl)
      | some e =>
        let q := e - 70
        let (sum, ch) := ps.foldl (fun (acc : Int × Bool) p => let (i, c) := truncAt q p.1; (acc.1 + i, acc.2 || c)) (0, false)
        (.ofScaled sum q false, fl ||| (if ch then fX else 0))

/-- A grid of values, read row by row. -/
def eRow {α : Type} (f : Nat → E α) : Nat → Nat → E (List α)
  | 0, _ => pure []
  | n + 1, i => do
    let x ← f i
    pure (x :: (← eRow f n (i + 1)))
def eGrid {α : Type} (f : Nat → Nat → E α) (n m : Nat) : E (List (List α)) := eRow (fun i => eRow (f i) m 0) n 0

/-- Element of a grid. -/
def gridAt {α : Type} (z : α) (g : List (List α)) (i j : Nat) : α := (g.getD i []).getD j z

/-- A product in the array: its factors' own flags, and V for ∞ times 0; a NaN operand sets nothing. -/
def arrMul (x y : Num × FFlags) : Num × FFlags :=
  let (p, f) := Num.mul x.1 y.1
  (p, f ||| x.2 ||| y.2)

/-- The two operands of one chunk: columns of A and rows of B from 32c on; with scales, the weights are bare codes and each column has its
group's scale (GroupPath, R241, R245). -/
structure Chunk where
  a : List (List (Num × FFlags))
  b : List (List (Num × FFlags))
  g : Option (List (Num × FFlags))

/-- A zero beyond K. -/
def noNum : Num × FFlags := (.fin false 0 0, 0)

/-- ASX of a command: the accumulator's; in a replay or a walk the block frame's, which its captured values hold last (R305). -/
def Cmd.asx (k : Cmd) (acc : Bool) (s : State) : Int :=
  match k.vals.getLast? with
  | some x => (x.setWidth 7).toInt
  | none => (s.acc acc).asx.toInt

/-- One chunk's sums times scale and ASX, added into the window of the working bank (R245). -/
def chunkInto (k : Cmd) (acc : Bool) (row0 col0 m n : Nat) (ch : Chunk) : E FFlags := fun s =>
  let asx := k.asx acc s
  let one (w : Accum × FFlags) (ij : Nat × Nat) : Accum × FFlags :=
    let (i, j) := ij
    let ps := (List.range 32).map fun kk => arrMul (gridAt noNum ch.a i kk) (gridAt noNum ch.b kk j)
    let (sum, f0) := chunkSum ps
    let (sum, f1) := match ch.g with
      | some g => arrMul (sum, 0) (g.getD j noNum)
      | none => (sum, 0)
    let at_ := bankAt (row0 + i) (col0 + j)
    let (z, f2) := Num.add .rne (faVal (w.1.w at_)) (sum.scale asx)
    let (y, f3) := roundFA z
    (w.1.setW at_ y, w.2 ||| f0 ||| f1 ||| f2 ||| f3)
  let cells := (List.range m).flatMap fun i => (List.range n).map fun j => (i, j)
  let (a, f) := cells.foldl one (s.acc acc, 0)
  .ok (f, s.modAcc acc fun _ => a)

/-- A weight's bare code on the GroupPath: a reserved code is NaN and invalid, and so is code 0 under an infinite scale (R241). -/
def codeVal (f : BitVec 4) (code scale : Nat) : Num × FFlags :=
  let w := if f == 9 then 4 else 3
  let c := intOf w true code
  if c = -(2 ^ (w - 1) : Nat) then (.nan, fV)
  else match bf16.decode scale with
    | .inf _ => if c = 0 then (.nan, fV) else (.ofInt c, 0)
    | _ => (.ofInt c, 0)

/-- The scale of a group on the GroupPath: a NaN one is invalid (R241). -/
def scaleVal (b : Nat) : Num × FFlags := let x := bf16.decode b; (x, if x.isNan then fV else 0)

/-- Reads chunk c of A·B for the operands and transposes given (R241): beyond K there is nothing. -/
def readChunk (a b : Desc) (ta tb : Bool) (c : Nat) : E Chunk := do
  let m := opRows a ta
  let kk := opCols a ta
  let n := opCols b tb
  let w := min 32 (kk - 32 * c)
  let av ← eGrid (fun i j => let (r, cc) := opAt ta i (32 * c + j); eVal a r cc) m w
  if isWeight (dFmt b) && !tb then
    let bv ← eGrid (fun i j => do
      let r := 32 * c + i
      let x ← eElem b r j
      let sc ← eBytes (dSpace b) (dScaleAt b c j) 2
      pure (codeVal (dFmt b) x (leNat sc))) w n
    let gs ← eRow (fun j => do let sc ← eBytes (dSpace b) (dScaleAt b c j) 2; pure (scaleVal (leNat sc))) n 0
    pure ⟨av, bv, some gs⟩
  else
    let bv ← eGrid (fun i j => let (r, cc) := opAt tb (32 * c + i) j; eVal b r cc) w n
    pure ⟨av, bv, none⟩

/-- Raw elements of an operand matrix in logical row order, as a residual holds them (R266). -/
def rawMatrix (b : Buffers) (d : Desc) (tr : Bool) : List Byte :=
  (List.range (opRows d tr)).flatMap fun i => (List.range (opCols d tr)).flatMap fun j =>
    let (r, c) := opAt tr i j
    leBytes (elemBits (dFmt d) / 8) (b.elem d r c)

/-- The residual of the array is taken when the last chunk is done. -/
def takeMatrix (k : Cmd) (d : Desc) (tr : Bool) (p : Prog) : Prog :=
  if p.stop.isNone && k.doesPush then { p with res := rawMatrix p.s.core.buf d tr } else p

/-- Clears the located element: any MMA, MZERO or MSWAP issued after the MCKV does (R262). -/
def unlocate (acc : Bool) : E Unit := eupd fun s => s.modAcc acc fun a => { a with chk := { a.chk with loc := false } }

/-- MMA at the queue head (R245, R248, R249): the chunk index is the micro-PC. -/
def runMma (k : Cmd) (acc ta tb : Bool) (row0 col0 : BitVec 7) (s : State) : Prog :=
  let a := k.d 0
  let b := k.d 1
  takeMatrix k a ta <|
  checkedElems .mf (do checkMma k acc ta tb row0.toNat col0.toNat; unlocate acc) ((opCols a ta + 31) / 32) k.upc (fun c => do
    let ch ← readChunk a b ta tb c
    chunkInto k acc row0.toNat col0.toNat (opRows a ta) (opCols b tb) ch) s

/-! ### MZERO, WGRP, MSWAP (R250 to R252) -/

/-- MZERO (R250). -/
def runMzero (acc : Bool) (s : State) : Prog :=
  .ok (s.modAcc acc fun a => { a with work := [], wpois := [], wtag := accTag, chk := Check.armed }) 0

/-- Exact sum; zeros of one sign keep it (R69). -/
def numSum : List Num → Num
  | [] => .fin false 0 0
  | x :: l => l.foldl (fun z x => (Num.add .rne z x).1) x

/-- Exact sum of numbers, rounded once to FP32 by RNE. -/
def sum32 (l : List Num) : BitVec 32 := BitVec.ofNat 32 (fp32.round .rne false (numSum l)).1

/-- MZERO.cb (R250): a poisoned source word poisons the entries it feeds, but in an open tile it raises POISON (R258). -/
def runMzeroCb (k : Cmd) (acc : Bool) (s : State) : Prog :=
  let d := k.d 0
  whole (do
    efailIf (tileIllop d [2] || dColmaj d || 128 < dRows d || 128 < dCols d || meetsVisible d) cILLOP
    efailIf (tileAlign d) cALIGN
    efailIf (dTag d != accTag) cTAGMIS
    efailIf (!tileFits d) cOOB
    let cells := (List.range (dRows d)).flatMap fun i => (List.range (dCols d)).map fun j => (i, j)
    efailIf (s.core.t.inTile k && cells.any fun ij => s.core.buf.elemPois d ij.1 ij.2) cPOISON
    eupd fun s =>
      let v (i j : Nat) : FA56 := BitVec.ofNat 56 (s.core.buf.elem d i j)
      let rows (f : Num → Num) : Sparse (BitVec 32) := (List.range (dRows d)).foldl (fun m i =>
        Sparse.put 0 m i (sum32 ((List.range (dCols d)).map fun j => f (faVal (v i j))))) []
      let cols (f : Num → Num) : Sparse (BitVec 32) := (List.range (dCols d)).foldl (fun m j =>
        Sparse.put 0 m j (sum32 ((List.range (dRows d)).map fun i => f (faVal (v i j))))) []
      s.modAcc acc fun a => { a with
        work := cells.foldl (fun w ij => Sparse.put 0 w (bankAt ij.1 ij.2) (v ij.1 ij.2)) [],
        wpois := (cells.filter fun ij => s.core.buf.elemPois d ij.1 ij.2).foldl (fun l ij => setIns l (bankAt ij.1 ij.2)) [],
        wtag := accTag,
        chk := { Check.armed with pr := rows id, pc := cols id, mr := rows Num.abs, mc := cols Num.abs } }) s

/-- WGRP (R251). -/
def runWgrp (acc : Bool) (n : BitVec 7) (s : State) : Prog := .ok (s.modAcc acc fun a => { a with asx := n }) 0

/-- Shifts the keys of entries. -/
def shiftKeys {α : Type} (n : Nat) (m : Sparse α) : Sparse α := m.map fun p => (p.1 + n, p.2)
def unshiftKeys {α : Type} (n : Nat) (m : Sparse α) : Sparse α := m.map fun p => (p.1 - n, p.2)

/-- MSWAP (R252): the banks, their tags and the poison of their entries are exchanged as one event. -/
def runMswap (acc : Bool) (s : State) : Prog :=
  if s.core.t.tile.opened then { Prog.ok s 0 with stop := some (.fault cILLOP none 0) }
  else
    let b := s.core.buf
    let a := s.acc acc
    let v := visBase acc
    let inV (i : Nat) : Bool := v ≤ i && i < v + 16384
    let below (i : Nat) : Bool := i < v
    let above (i : Nat) : Bool := v + 16384 ≤ i
    let cb := b.cb.filter (fun p => below p.1) ++ shiftKeys v a.work ++ b.cb.filter (fun p => above p.1)
    let pois := b.cbPois.filter below ++ a.wpois.map (· + v) ++ b.cbPois.filter above
    let s1 := s.modB fun b => { b with cb := cb, cbPois := pois }
    .ok (s1.modAcc acc fun a => { a with
      work := unshiftKeys v (b.cb.filter fun p => inV p.1), wpois := (b.cbPois.filter inV).map (· - v),
      wtag := a.vtag, vtag := a.wtag, chk := a.chk.clear }) 0

/-! ### MST (R253, R254) -/

/-- The queue-head checks of MST. -/
def checkMst (k : Cmd) (acc : Bool) (df : BitVec 4) (row0 col0 : Nat) : E Unit := do
  let s ← enow
  let d := k.d 0
  let tag := dTag d
  let v := (s.acc acc).vtag
  efailIf s.core.t.tile.opened cILLOP
  efailIf (tileIllop d (if df == 0xB then [1, 2] else [1]) || meetsVisible d || 128 < row0 + dRows d || 128 < col0 + dCols d ||
    destIllop s d) cILLOP
  efailIf (tileAlign d) cALIGN
  efailIf (!tagWf tag || tFmt tag != df) cTAGMIS
  efailIf (tDom tag != tDom v || tag.extractLsb' 8 8 != v.extractLsb' 8 8) cDOMAIN
  efailIf (!tileFits d) cOOB
  efailIf (k.blk.isSome && dSpace d != 1) cBLKOP
  topBlkop k (abRanges d)

/-- One element of MST: poison of the visible entry goes with it. -/
def mstElem (acc : Bool) (d : Desc) (add sat : Bool) (rm : RM) (df : BitVec 4) (row0 col0 r c : Nat) : E FFlags := do
  let s ← enow
  let b := s.core.buf
  let e := visBase acc + bankAt (row0 + r) (col0 + c)
  let x := Sparse.get 0 b.cb e
  let pois := setHas b.cbPois e
  let v := faVal x
  let (y, f) :=
    if df == 0xB then (x.toNat, 0)
    else if add then
      let (z, f1) := Num.add rm (elemVal df (b.elem d r c)) v
      let (y, f2) := convert df rm sat z
      (y, f1 ||| f2)
    else convert df rm sat v
  let put (b : Buffers) : Buffers := if dSpace d = 2 then b.putCb (dBase d / 7 + dBitOff d r c / 56) (BitVec.ofNat 56 y) else b.putElem d r c y
  let mark (b : Buffers) : Buffers := if pois then let (a, n) := dElemAt d r c; b.markPois (dSpace d) a n else b
  eupd fun s => s.modB fun b => mark (put b)
  pure f

/-- The elements of one row, their flags together. -/
def mstRow (acc : Bool) (d : Desc) (add sat : Bool) (rm : RM) (df : BitVec 4) (row0 col0 r : Nat) : Nat → Nat → E FFlags
  | 0, _ => pure 0
  | n + 1, c => do
    let f ← mstElem acc d add sat rm df row0 col0 r c
    let g ← mstRow acc d add sat rm df row0 col0 r n (c + 1)
    pure (f ||| g)

/-- MST at the queue head (R254): the row is the micro-PC. -/
def runMst (k : Cmd) (acc add sat : Bool) (rm : RM) (df : BitVec 4) (row0 col0 : BitVec 7) (s : State) : Prog :=
  let d := k.d 0
  checkedElems .mf (checkMst k acc df row0.toNat col0.toNat) (dRows d) k.upc
    (fun r => mstRow acc d add sat rm df row0.toNat col0.toNat r (dCols d) 0) s

/-! ### The residue check (R259 to R262) -/

/-- A number rounded to FP32 by RNE, as a number. -/
def to32 (x : Num) : Num := fp32.decode (fp32.round .rne false x).1

/-- Adds a value, rounded to FP32, to a check value with one further rounding (R259). -/
def chkAdd (m : Sparse (BitVec 32)) (i : Nat) (x : Num) : Sparse (BitVec 32) :=
  let z := (Num.add .rne (fp32.decode (Sparse.get 0 m i).toNat) (to32 x)).1
  Sparse.put 0 m i (BitVec.ofNat 32 (fp32.round .rne false z).1)

/-- MCKS at the queue head (R259). -/
def runMcks (k : Cmd) (acc ta tb : Bool) (row0 col0 : BitVec 7) (s : State) : Prog :=
  let a := k.d 0
  let b := k.d 1
  let m := opRows a ta
  let kk := opCols a ta
  let n := opCols b tb
  whole (do
    checkMma k acc ta tb row0.toNat col0.toNat
    let av ← eGrid (fun i j => do let (r, c) := opAt ta i j; pure (← eVal a r c).1) m kk
    let bv ← eGrid (fun i j => do let (r, c) := opAt tb i j; pure (← eVal b r c).1) kk n
    let A (i j : Nat) : Num := gridAt (.fin false 0 0) av i j
    let B (i j : Nat) : Num := gridAt (.fin false 0 0) bv i j
    let ks := List.range kk
    let al := ks.map fun x => to32 (numSum ((List.range m).map fun i => A i x))
    let alm := ks.map fun x => to32 (numSum ((List.range m).map fun i => (A i x).abs))
    let be := ks.map fun x => to32 (numSum ((List.range n).map fun j => B x j))
    let bem := ks.map fun x => to32 (numSum ((List.range n).map fun j => (B x j).abs))
    let at_ (l : List Num) (x : Nat) : Num := l.getD x (.fin false 0 0)
    let mul (x y : Num) : Num := (Num.mul x y).1
    eupd fun s => s.modAcc acc fun q =>
      let sc (x : Num) : Num := x.scale (k.asx acc s)
      let c := q.chk
      let rows (mp : Sparse (BitVec 32)) (f : Nat → Nat → Num) : Sparse (BitVec 32) :=
        (List.range m).foldl (fun mp i => chkAdd mp (row0.toNat + i) (sc (numSum (ks.map (f i))))) mp
      let cols (mp : Sparse (BitVec 32)) (f : Nat → Nat → Num) : Sparse (BitVec 32) :=
        (List.range n).foldl (fun mp j => chkAdd mp (col0.toNat + j) (sc (numSum (ks.map fun x => f x j)))) mp
      { q with chk := { c with
          pr := rows c.pr fun i x => mul (A i x) (at_ be x), pc := cols c.pc fun x j => mul (at_ al x) (B x j),
          mr := rows c.mr fun i x => mul (A i x).abs (at_ bem x), mc := cols c.mc fun x j => mul (at_ alm x) (B x j).abs } }) s

/-- Whether a number is finite. -/
def Num.isFin : Num → Bool
  | .fin .. => true
  | _ => false

/-- Outcome of one row or column of the check: unchecked, whether it mismatches, and the difference (R260). -/
structure Line1 where
  unchecked : Bool
  bad : Bool
  diff : Num

/-- Checks one sum against its prediction. -/
def checkLine (p m : BitVec 32) (l : List Num) : Line1 :=
  let pv := fp32.decode p.toNat
  let mv := fp32.decode m.toNat
  let act := to32 (numSum l)
  if !pv.isFin || !act.isFin || !mv.isFin then ⟨true, false, .fin false 0 0⟩
  else
    let diff := (Num.add .rne pv act.neg).1
    let mag := (Num.add .rne mv act.abs).1
    ⟨false, Num.lt (mag.scale (-16)) diff.abs, diff⟩

/-- Bits of a bitmap, 16 bytes. -/
def bitmap (l : List Bool) : List Byte :=
  leBytes 16 ((List.range 128).foldl (fun n i => if l.getD i false then n + 2 ^ i else n) 0)

/-- MCKV at the queue head (R260, R261). -/
def runMckv (acc rpl : Bool) (off : BitVec 14) (s : State) : Prog :=
  let a := s.acc acc
  let o := off.toNat
  if tDom a.wtag != 0 then { Prog.ok s 0 with stop := some (.fault cDOMAIN none 0) }
  else if !a.chk.arm then .ok (s.spillPut o (3 :: List.replicate 63 0)) 0
  else if !a.wpois.isEmpty then { Prog.ok s 0 with stop := some (.fault cPOISON none 0) }
  else
    let v (i j : Nat) : Num := faVal (a.w (bankAt i j))
    let rows := (List.range 128).map fun i =>
      checkLine (Sparse.get 0 a.chk.pr i) (Sparse.get 0 a.chk.mr i) ((List.range 128).map fun j => v i j)
    let cols := (List.range 128).map fun j =>
      checkLine (Sparse.get 0 a.chk.pc j) (Sparse.get 0 a.chk.mc j) ((List.range 128).map fun i => v i j)
    let nr := rows.countP (·.bad)
    let nc := cols.countP (·.bad)
    let located := nr = 1 && nc = 1
    let pass := nr = 0 && nc = 0
    let i := rows.findIdx (·.bad)
    let j := cols.findIdx (·.bad)
    let f32 (x : Num) : List Byte := leBytes 4 (fp32.round .rne false x).1
    let z : Line1 := ⟨false, false, .fin false 0 0⟩
    let rep : List Byte :=
      leBytes 1 (if pass then 0 else if located then 1 else 2) ++ leBytes 1 nr ++ leBytes 1 nc ++
      leBytes 1 (if located then i else 0) ++ leBytes 1 (if located then j else 0) ++
      leBytes 1 (rows.countP (·.unchecked)) ++ leBytes 1 (cols.countP (·.unchecked)) ++ [0] ++
      (if located then f32 (cols.getD j z).diff ++ f32 (rows.getD i z).diff else List.replicate 8 0) ++
      bitmap (rows.map (·.bad)) ++ bitmap (cols.map (·.bad)) ++ List.replicate 16 0
    let s1 := s.spillPut o rep
    if pass then .ok s1 0
    else if located then
      .ok (s1.modAcc acc fun q => { q with chk := { q.chk with loc := true, row := BitVec.ofNat 7 i, col := BitVec.ofNat 7 j } }) 0
    else if rpl && s.core.t.tile.opened then
      if s.core.t.tile.replays = 0 then { Prog.ok (s1.modT Task.tileError) 0 with stop := some .wait }
      else { Prog.ok s1 0 with stop := some (.fault cREPLAY none 0) }
    else { Prog.ok s1 0 with stop := some (.fault cREPLAY none 0) }

/-- MFIX at the queue head (R262). -/
def runMfix (acc : Bool) (s : State) : Prog :=
  .ok (s.modAcc acc fun a =>
    if !a.chk.loc then a
    else
      let i := a.chk.row.toNat
      let j := a.chk.col.toNat
      let rest := numSum (((List.range 128).filter (· ≠ i)).map fun r => faVal (a.w (bankAt r j)))
      let x := (Num.add .rne (fp32.decode (Sparse.get 0 a.chk.pc j).toNat) rest.neg).1
      { a.setW (bankAt i j) (roundFA x).1 with wpois := setDel a.wpois (bankAt i j), chk := { a.chk with loc := false } }) 0

/-! ### Tile marks (R256, R257) -/

/-- MTM at the queue head: it waits until every earlier array command has completed. -/
def runMtm (k : Cmd) (s : State) : Prog :=
  if s.core.t.tile.opened then { Prog.ok s 0 with stop := some (.fault cILLOP none 0) }
  else if s.core.t.q.compute.any fun c => isArray c.instr && c.num.toNat < k.num.toNat && !c.pushed then
    { Prog.ok s 0 with stop := some .wait }
  else .ok (s.modT fun t => { t with tile := ⟨true, k.num, false, 0, t.acc0, t.acc1⟩ }) 0

/-- MTE at the queue head: MTE_RETIRE retires it. -/
def runMte (s : State) : Prog :=
  if s.core.t.tile.opened then .ok s 0 else { Prog.ok s 0 with stop := some (.fault cILLOP none 0) }

/-- Whether a command is one too many for the open tile (R256). -/
def tileFull (k : Cmd) (s : State) : Bool :=
  isTileCmd k.instr && s.core.t.inTile k &&
  33 ≤ s.core.t.q.compute.countP fun c => isTileCmd c.instr && s.core.t.inTile c && c.num.toNat ≤ k.num.toNat

/-- TILE_REPLAY (R258): the working state is restored from the checkpoint, the tile's commands are to be issued again, the replay is
counted. -/
def execTileReplay (s : State) : Out :=
  .next <|
  if s.core.running && s.core.t.tile.opened && s.core.t.tile.want then
    (s.modT fun t => let t := t.tileRestart; { t with tile := { t.tile with replays := 1 } }).modH (·.count 2)
  else s

/-! ### The adjoint of MMA (R266) -/

/-- Geometry of the adjoint: M, K, N, and the steps of its two phases. Each strip of 128 values of k takes its chunks and one step that
adds the strip into the gradient. -/
structure MmaAdj where
  m : Nat
  k : Nat
  n : Nat
  ga : Option Desc
  gb : Option Desc

def MmaAdj.strips (g : MmaAdj) : Nat := (g.k + 127) / 128
def MmaAdj.stepsA (g : MmaAdj) : Nat := (g.n + 31) / 32 + 1
def MmaAdj.stepsB (g : MmaAdj) : Nat := (g.m + 31) / 32 + 1
def MmaAdj.totalA (g : MmaAdj) : Nat := if g.ga.isSome then g.strips * g.stepsA else 0
def MmaAdj.total (g : MmaAdj) : Nat := g.totalA + if g.gb.isSome then g.strips * g.stepsB else 0

/-- Geometry of a command's adjoint. DEDUCED (log 23). -/
def mmaAdj (k : Cmd) (ta tb : Bool) : MmaAdj :=
  let dc := descsOf k.instr
  { m := opRows (k.d 0) ta, k := opCols (k.d 0) ta, n := opCols (k.d 1) tb,
    ga := (dc[0]?).bind k.cp, gb := (dc[1]?).bind k.cp }

/-- The gradient of accumulator element (i, j) through the window the adjoint MST bound (R265); zero outside it. DEDUCED (log 23). -/
def gradC (k : Cmd) (row0 col0 i j : Nat) : E (Num × FFlags) :=
  match k.descs[2]? with
  | none => pure noNum
  | some d =>
    let r0 := (k.v 0).toNat
    let c0 := (k.v 1).toNat
    let r := row0 + i
    let c := col0 + j
    if r0 ≤ r && r < r0 + dRows d && c0 ≤ c && c < c0 + dCols d then eVal d (r - r0) (c - c0) else pure noNum

/-- Adds the strip in the working bank into a gradient tile: element (i, j) of the strip to tile element `at_ i j`. -/
def addStrip (acc : Bool) (g : Desc) (at_ : Nat → Nat → Nat × Nat) : List (Nat × Nat) → E FFlags
  | [] => pure 0
  | (i, j) :: l => do
    let s ← enow
    let (r, c) := at_ i j
    let f ← gradAdd g r c (faVal ((s.acc acc).w (bankAt i j)))
    let f' ← addStrip acc g at_ l
    pure (f ||| f')

/-- The cells of a grid in row order. -/
def gridCells (m n : Nat) : List (Nat × Nat) := (List.range m).flatMap fun i => (List.range n).map fun j => (i, j)

/-- w := 0 at the first chunk of a strip. -/
def clearBank (acc : Bool) : E Unit := eupd fun s => s.modAcc acc fun a =>
  { a with work := [], wpois := [], wtag := accTag, chk := { a.chk with loc := false } }

/-- One step of the adjoint of MMA. -/
def mmaAdjStep (k : Cmd) (g : MmaAdj) (acc ta tb : Bool) (row0 col0 : Nat) (u : Nat) : E FFlags := do
  let a := k.d 0
  let b := k.d 1
  if u < g.totalA then
    let strip := u / g.stepsA
    let c := u % g.stepsA
    let k0 := 128 * strip
    let kn := min 128 (g.k - k0)
    if c = g.stepsA - 1 then
      match g.ga with
      | some ga => addStrip acc ga (fun i j => opAt ta i (k0 + j)) (gridCells g.m kn)
      | none => pure 0
    else
      if c = 0 then clearBank acc else pure ()
      let w := min 32 (g.n - 32 * c)
      let av ← eGrid (fun i j => gradC k row0 col0 i (32 * c + j)) g.m w
      -- B transposed: element (n, k); its groups run along the chunk where the tile itself is read
      if isWeight (dFmt b) && tb then
        let bv ← eGrid (fun i j => do
          let x ← eElem b (32 * c + i) (k0 + j)
          let sc ← eBytes (dSpace b) (dScaleAt b c (k0 + j)) 2
          pure (codeVal (dFmt b) x (leNat sc))) w kn
        let gs ← eRow (fun j => do let sc ← eBytes (dSpace b) (dScaleAt b c (k0 + j)) 2; pure (scaleVal (leNat sc))) kn 0
        chunkInto k acc 0 0 g.m kn ⟨av, bv, some gs⟩
      else
        let bv ← eGrid (fun i j => let (r, cc) := opAt tb (k0 + j) (32 * c + i); eVal b r cc) w kn
        chunkInto k acc 0 0 g.m kn ⟨av, bv, none⟩
  else
    let u := u - g.totalA
    let strip := u / g.stepsB
    let c := u % g.stepsB
    let k0 := 128 * strip
    let kn := min 128 (g.k - k0)
    if c = g.stepsB - 1 then
      match g.gb with
      | some gb => addStrip acc gb (fun i j => opAt tb (k0 + i) j) (gridCells kn g.n)
      | none => pure 0
    else
      if c = 0 then clearBank acc else pure ()
      let w := min 32 (g.m - 32 * c)
      let sz := elemBits (dFmt a) / 8
      -- A transposed, from the popped residual in logical row order
      let resA (i kx : Nat) : E (Num × FFlags) := do pure (elemVal (dFmt a) (leNat (← eResAt k ((i * g.k + kx) * sz) sz)), 0)
      let av ← eGrid (fun i j => resA (32 * c + j) (k0 + i)) kn w
      let bv ← eGrid (fun i j => gradC k row0 col0 (32 * c + i) j) w g.n
      chunkInto k acc 0 0 kn g.n ⟨av, bv, none⟩

/-- The adjoint of MMA (R266): its gradient tiles and the window bound to the accumulator pass the checks of every tile (R62, R63). -/
def adjMma (k : Cmd) (acc ta tb : Bool) (row0 col0 : BitVec 7) (s : State) : Prog :=
  let g := mmaAdj k ta tb
  let chk : E Unit := do
    let s ← enow
    let gs := g.ga.toList ++ g.gb.toList
    echeck (operandFault ((gs ++ k.descs.drop 2).map fun d => (d, [1])) (gs.any (destIllop s)))
    efailIf (gs.any fun d => meetsTop s.core.t (abRanges d)) cBLKOP
  if (k.descs[2]?).isNone then .ok s k.upc
  else checkedElems .mf chk g.total k.upc (mmaAdjStep k g acc ta tb row0.toNat col0.toNat) s

/-! ### Routing -/

/-- MMA (R248). -/
def execMma (tk : Tok) (acc ta tb : Bool) (dA dB : DCode) (row0 col0 : BitVec 7) (s : State) : Out :=
  routed (.mma tk acc ta tb dA dB row0 col0) (pure ()) s

/-- MZERO (R250). -/
def execMzero (tk : Tok) (acc : Bool) (s : State) : Out := routed (.mzero tk acc) (pure ()) s

/-- MZERO.cb (R250). -/
def execMzeroCb (tk : Tok) (acc : Bool) (dC : DCode) (s : State) : Out := routed (.mzeroCb tk acc dC) (pure ()) s

/-- MSWAP (R252). -/
def execMswap (tk : Tok) (acc : Bool) (s : State) : Out := routed (.mswap tk acc) (pure ()) s

/-- MST (R253). -/
def execMst (tk : Tok) (dD : DCode) (acc add sat : Bool) (rm : RM) (df : BitVec 4) (row0 col0 : BitVec 7) (s : State) : Out :=
  routed (.mst tk dD acc add sat rm df row0 col0) (pure ()) s

/-- MCKS (R259). -/
def execMcks (tk : Tok) (acc ta tb : Bool) (dA dB : DCode) (row0 col0 : BitVec 7) (s : State) : Out :=
  routed (.mcks tk acc ta tb dA dB row0 col0) (pure ()) s

/-- MCKV (R260). -/
def execMckv (tk : Tok) (acc rpl : Bool) (off : BitVec 14) (s : State) : Out := routed (.mckv tk acc rpl off) (pure ()) s

/-- MFIX (R262). -/
def execMfix (tk : Tok) (acc : Bool) (s : State) : Out := routed (.mfix tk acc) (pure ()) s

/-- MTM (R256). -/
def execMtm (tk : Tok) (s : State) : Out := routed (.mtm tk) (pure ()) s

/-- MTE (R256). -/
def execMte (tk : Tok) (s : State) : Out := routed (.mte tk) (pure ()) s

/-- WGRP (R251). -/
def execWgrp (tk : Tok) (acc : Bool) (n : BitVec 7) (s : State) : Out := routed (.wgrp tk acc n) (pure ()) s

end Sys2Proof.Machine
end

