-- ==== Sys2Proof/Machine/Spectral.lean ====
section
/-! DEFINITION. Class 10, spectral instructions (11_spectral.md R267 to R288): one definition per instruction for its routing, and what each
does at the queue head; the transform arithmetic and its twiddle table; the adjoints. -/

namespace Sys2Proof.Machine

/-! ### Blocks (R267, R268) -/

/-- log2 of the block size a tag gives, the block size, and half of it. -/
def sL (t : FTag) : Nat := tBcode t + 4
def sB (t : FTag) : Nat := 2 ^ sL t
def sH (t : FTag) : Nat := 2 ^ (sL t - 1)

/-- The data formats of class 10 (R271). -/
def isSF (f : BitVec 4) : Bool := f == 6 || f == 7 || f == 8

/-- A tile that breaks R267 for blocks of b values, where its tag gives b. -/
def sIllop (b : Option Nat) (d : Desc) : Bool :=
  dColmaj d || (b.any fun b => dCols d % b != 0) || (dBits d ≥ 8 && dBase d % (dBits d / 8) != 0)

/-- Whether a position of a block is the imaginary part of a bin. -/
def isImag (p : Nat) : Bool := 3 ≤ p && p % 2 == 1

/-! ### The twiddle table (R272) -/

/-- The terms of arctan(1/n) from term i on, `p` being 2^fixP/n^(2i+1), with alternating signs. -/
def arctanTerms (n2 : Nat) : Nat → Nat → Nat → Int
  | 0, _, _ => 0
  | k + 1, i, p => (if i % 2 = 0 then (1 : Int) else -1) * (p / (2 * i + 1) : Nat) + arctanTerms n2 k (i + 1) (p / n2)

/-- π in fixed point: 16·arctan(1/5) - 4·arctan(1/239). -/
def piFix : Nat := (16 * arctanTerms 25 90 0 (2 ^ fixP / 5) - 4 * arctanTerms (239 * 239) 30 0 (2 ^ fixP / 239)).toNat

/-- The terms of cos (from i = 0 and t = 1) or sin (from i = 1 and t = x), q being x². -/
def trigTerms (q : Nat) : Nat → Nat → Int → Int
  | 0, _, _ => 0
  | k + 1, i, t => t + trigTerms q k (i + 2) (-(t * q / (2 ^ fixP : Nat)) / ((i + 1) * (i + 2) : Nat))

/-- cos and sin of 2πj/512 for 0 < j < 128, rounded to FP32. -/
def trig32 (isSin : Bool) (j : Nat) : Num :=
  let x := piFix * j / 256
  let q := x * x / 2 ^ fixP
  let v := if isSin then trigTerms q 60 1 x else trigTerms q 60 0 ((2 ^ fixP : Nat) : Int)
  fp32.decode (fp32.round .rne false (.fin false (2 * v.toNat + 1) (-(fixP : Int) - 1))).1

/-- C[j] and S[j]. -/
def twC (j : Nat) : Num :=
  let k := j % 128
  match (j / 128) % 4 with
  | 0 => if k = 0 then .ofInt 1 else trig32 false k
  | 1 => if k = 0 then .ofInt 0 else (trig32 true k).neg
  | 2 => if k = 0 then .ofInt (-1) else (trig32 false k).neg
  | _ => if k = 0 then .ofInt 0 else trig32 true k
def twS (j : Nat) : Num := twC ((j + 384) % 512)

/-- The twiddle (C[j], sgn·S[j]); its imaginary part is +0 where S[j] is zero. -/
def twiddle (inv : Bool) (j : Nat) : Num × Num :=
  let v := twS j
  (twC j, if inv || v.isZero then v else v.neg)

/-! ### FP32 arithmetic (R273) -/

/-- A computation that gathers flags. -/
abbrev Ar (α : Type) := StateM FFlags α

/-- An exact result with its flags. -/
def arOf (p : Num × FFlags) : Ar Num := fun f => (p.1, f ||| p.2)

/-- RN. -/
def arRn (x : Num) : Ar Num := fun f => let (b, g) := fp32.round .rne false x; (fp32.decode b, f ||| g)

def arAdd (x y : Num) : Ar Num := do arRn (← arOf (Num.add .rne x y))
def arSub (x y : Num) : Ar Num := arAdd x y.neg

/-- Complex operations on FP32 pairs. -/
def cAdd (u v : Num × Num) : Ar (Num × Num) := do pure (← arAdd u.1 v.1, ← arAdd u.2 v.2)
def cSub (u v : Num × Num) : Ar (Num × Num) := do pure (← arSub u.1 v.1, ← arSub u.2 v.2)
def cMul (v w : Num × Num) : Ar (Num × Num) := do
  let q ← arRn (← arOf (Num.mul v.2 w.2))
  let re ← arSub (← arOf (Num.mul v.1 w.1)) q
  let q ← arRn (← arOf (Num.mul v.2 w.1))
  let im ← arAdd (← arOf (Num.mul v.1 w.2)) q
  pure (re, im)

/-! ### CFFT (R274) -/

/-- Reverses the low bits of an index. -/
def revBits : Nat → Nat → Nat
  | 0, _ => 0
  | k + 1, n => (n % 2) * 2 ^ k + revBits k (n / 2)

/-- A complex zero. -/
def cZero : Num × Num := (.fin false 0 0, .fin false 0 0)

/-- One stage: the butterflies (g, t) of stage m, paired as lists of the lower and upper halves. -/
def cfftStage (inv : Bool) (tw : List (Num × Num)) (m : Nat) (z : List (Num × Num)) : Nat → Ar (List (Num × Num))
  | 0 => pure []
  | n + 1 => do
    let half := m / 2
    let lo := z.take half
    let hi := (z.drop half).take half
    let ps ← (hi.zip tw).mapM fun x => cMul x.1 x.2
    let a ← (lo.zip ps).mapM fun x => cAdd x.1 x.2
    let b ← (lo.zip ps).mapM fun x => cSub x.1 x.2
    let rest ← cfftStage inv tw m (z.drop m) n
    pure (a ++ b ++ rest)

/-- Stages s to log2 h. -/
def cfftFrom (inv : Bool) (h : Nat) : Nat → Nat → List (Num × Num) → Ar (List (Num × Num))
  | 0, _, z => pure z
  | n + 1, s, z => do
    let m := 2 ^ s
    let tw := (List.range (m / 2)).map fun t => twiddle inv (t * 512 / m)
    cfftFrom inv h n (s + 1) (← cfftStage inv tw m z (h / m))

/-- The transform of h = 2^lg points. -/
def cfft (inv : Bool) (lg : Nat) (z : List (Num × Num)) : Ar (List (Num × Num)) :=
  let h := 2 ^ lg
  cfftFrom inv h lg 1 ((List.range h).map fun n => z.getD (revBits lg n) cZero)

/-- A value of a block, and a pair. -/
def numAt (l : List Num) (i : Nat) : Num := l.getD i (.fin false 0 0)
def pairAt (l : List (Num × Num)) (i : Nat) : Num × Num := l.getD i cZero

/-- SXF's computation before its scale (R275): the packed half-spectrum X of the b = 2^L values. -/
def sFwd (L : Nat) (x : List Num) : Ar (List Num) := do
  let h := 2 ^ (L - 1)
  let z ← cfft false (L - 1) ((List.range h).map fun n => (numAt x (2 * n), numAt x (2 * n + 1)))
  let z0 := pairAt z 0
  let x0 ← arAdd z0.1 z0.2
  let xh ← arSub z0.1 z0.2
  let l ← ((List.range h).drop 1).mapM fun k => do
    let a := pairAt z k
    let b := pairAt z (h - k)
    let e ← do pure (← arAdd a.1 b.1, ← arSub a.2 b.2)
    let o ← do pure (← arAdd a.2 b.2, ← arSub b.1 a.1)
    let p ← cMul o (twiddle false (k * 2 ^ (9 - L)))
    let y ← cAdd e p
    pure [y.1.scale (-1), y.2.scale (-1)]
  pure (x0 :: xh :: l.flatten)

/-- SXI's computation before its scale (R276). -/
def sInv (L : Nat) (s : List Num) : Ar (List Num) := do
  let h := 2 ^ (L - 1)
  let z0 ← do pure (← arAdd (numAt s 0) (numAt s 1), ← arSub (numAt s 0) (numAt s 1))
  let zs ← ((List.range h).drop 1).mapM fun k => do
    let a := (numAt s (2 * k), numAt s (2 * k + 1))
    let b := (numAt s (2 * (h - k)), numAt s (2 * (h - k) + 1))
    let sm ← do pure (← arAdd a.1 b.1, ← arSub a.2 b.2)
    let df ← do pure (← arSub a.1 b.1, ← arAdd a.2 b.2)
    let q ← cMul df (twiddle true (k * 2 ^ (9 - L)))
    pure (← arSub sm.1 q.2, ← arAdd sm.2 q.1)
  let z ← cfft true (L - 1) (z0 :: zs)
  pure (z.flatMap fun p => [p.1, p.2])

/-! ### Checks at the queue head (R271) -/

/-- The checks of R271: sources, whether WB is admitted too, the tiles R267 holds for with their block sizes, further ILLOP, TAGMIS and
DOMAIN conditions. -/
def checkS (k : Cmd) (srcs : List Desc) (wb : Bool) (lay : List (Desc × Option Nat)) (illop tag dom : Bool) : E Unit := do
  let s ← enow
  let d := k.d 0
  let spaces := if wb then [0, 1] else [1]
  let all := d :: srcs
  efailIf (tileIllop d [1] || (srcs.any fun x => tileIllop x spaces || (tilesMeet d x && !tilesSame d x)) || destIllop s d || illop ||
    lay.any fun x => sIllop x.2 x.1) cILLOP
  efailIf (all.any tileAlign) cALIGN
  efailIf ((all.any fun x => !tagWf (dTag x) || !isSF (dFmt x)) || tag) cTAGMIS
  efailIf dom cDOMAIN
  efailIf (all.any fun x => !tileFits x) cOOB
  topBlkop k (abRanges d)

/-- Whether two tiles have one shape. -/
def sameShape (a b : Desc) : Bool := dRows a == dRows b && dCols a == dCols b

/-- The block size of a tile where its tag is a well-formed spectral one. -/
def blockOf (d : Desc) : Option Nat := if tagWf (dTag d) && tDom (dTag d) == 1 then some (sB (dTag d)) else none

/-- Spectral tiles, each with the block size of its own tag. -/
def ownBlocks (l : List Desc) : List (Desc × Option Nat) := l.map fun d => (d, blockOf d)

/-- Row and first column of block β of a tile. -/
def blockAt (d : Desc) (b u : Nat) : Nat × Nat := let n := dCols d / b; (u / n, b * (u % n))

/-- Blocks of a tile. -/
def blocksOf (d : Desc) (b : Nat) : Nat := dRows d * (dCols d / b)

/-- The values, and the patterns, of a block of b elements from (r, c) on. -/
def eBlock (d : Desc) (r c b : Nat) : E (List Num) := eRow (fun i => do pure (elemVal (dFmt d) (← eElem d r (c + i)))) b 0
def eBlockRaw (d : Desc) (r c b : Nat) : E (List Nat) := eRow (fun i => eElem d r (c + i)) b 0

/-- Writes patterns from (r, c) on. -/
def ePutRow (d : Desc) (r c : Nat) : List Nat → E Unit
  | [] => pure ()
  | x :: l => do ePut d r c x; ePutRow d r (c + 1) l

/-- Rounds values into a tile's format, from (r, c) on. -/
def ePutNums (d : Desc) (r c : Nat) (l : List Num) : E FFlags := do
  let ys := l.map fun x => convert (dFmt d) .rne false x
  ePutRow d r c (ys.map (·.1))
  pure (ys.foldl (fun f y => f ||| y.2) 0)

/-! ### The forward commands -/

/-- SXF at the queue head (R275). -/
def runSxf (k : Cmd) (s : State) : Prog :=
  let d := k.d 0
  let a := k.d 1
  let t := dTag d
  let L := sL t
  let b := sB t
  checkedElems .xf (checkS k [a] false [(d, blockOf d), (a, blockOf d)] (!sameShape d a) (tG t != tG (dTag a))
      (tDom (dTag a) != 0 || tDom t != 1 || tExp t != L)) (blocksOf d b) k.upc (fun u => do
    let (r, c) := blockAt d b u
    let x ← eBlock a r c b
    let (y, f) := sFwd L x 0
    let g ← ePutNums d r c (y.map (·.scale (-(L : Int))))
    pure (f ||| g)) s

/-- SXI at the queue head (R276). -/
def runSxi (k : Cmd) (s : State) : Prog :=
  let d := k.d 0
  let a := k.d 1
  let t := dTag a
  let L := sL t
  let b := sB t
  checkedElems .xf (checkS k [a] false (ownBlocks [a]) (!sameShape d a) (tG t != tG (dTag d))
      (tDom t != 1 || tDom (dTag d) != 0)) (blocksOf d b) k.upc (fun u => do
    let (r, c) := blockAt d b u
    let x ← eBlock a r c b
    let (y, f) := sInv L x 0
    let g ← ePutNums d r c (y.map (·.scale ((tExp t : Int) - L)))
    pure (f ||| g)) s

/-- The packed product of two blocks, exact (R277): B conjugated, or not. -/
def packMul (cj : Bool) (a b : List Num) : Ar (List Num) :=
  (List.range a.length).mapM fun p =>
    let bi (q : Nat) : Num := if cj then (numAt b q).neg else numAt b q
    if p < 2 then arOf (Num.mul (numAt a p) (numAt b p))
    else if p % 2 = 0 then do
      let x ← arOf (Num.mul (numAt a p) (numAt b p))
      let y ← arOf (Num.mul (numAt a (p + 1)) (bi (p + 1)))
      arOf (Num.add .rne x y.neg)
    else do
      let x ← arOf (Num.mul (numAt a (p - 1)) (bi p))
      let y ← arOf (Num.mul (numAt a p) (numAt b (p - 1)))
      arOf (Num.add .rne x y)

/-- SCMUL's residual (R287, R316): A where gB is written, then B where gA is written. -/
def scmulResidual (k : Cmd) (gA gB : Bool) (b : Buffers) : List Byte :=
  (if gB then rawMatrix b (k.d 1) false else []) ++ (if gA then rawMatrix b (k.d 2) false else [])

/-- The counterparts of A and B of SCMUL. -/
def scmulGrads (k : Cmd) : Bool × Bool :=
  let dc := descsOf k.instr
  (((dc[1]?).bind k.cp).isSome, ((dc[2]?).bind k.cp).isSome)

/-- A residual that is the operands' bytes, taken before the first element is written and kept with the command. -/
def eKeep (k : Cmd) (f : Buffers → List Byte) : E Unit :=
  if k.doesPush && k.upc = 0 then eupd fun s => s.modCmd .compute k.num fun c => { c with res := f s.core.buf } else pure ()

/-- SCMUL at the queue head (R277). -/
def runScmul (k : Cmd) (cj : Bool) (s : State) : Prog :=
  let d := k.d 0
  let a := k.d 1
  let x := k.d 2
  let (t, ta, tb) := (dTag d, dTag a, dTag x)
  let b := sB ta
  let e := tExp ta + tExp tb
  checkedElems .vf (do
      checkS k [a, x] true (ownBlocks [d, a, x]) (!sameShape d a || !sameShape x a) (tG t != (tG ta || tG tb))
        (tDom t != 1 || tDom ta != 1 || tDom tb != 1 || tBcode ta != tBcode tb || tBcode ta != tBcode t || 31 < e || tExp t != e)
      eKeep k (scmulResidual k (scmulGrads k).1 (scmulGrads k).2)) (blocksOf d b) k.upc (fun u => do
    let (r, c) := blockAt d b u
    let av ← eBlock a r c b
    let bv ← eBlock x r c b
    let (y, f) := packMul cj av bv 0
    let g ← ePutNums d r c y
    pure (f ||| g)) s

/-- SCONJ at the queue head (R278). -/
def runSconj (k : Cmd) (s : State) : Prog :=
  let d := k.d 0
  let a := k.d 1
  let t := dTag a
  let b := sB t
  checkedElems .vf (checkS k [a] true (ownBlocks [d, a]) (!sameShape d a) (dFmt d != dFmt a || tG (dTag d) != tG t)
      (tDom t != 1 || dTag d != t)) (blocksOf d b) k.upc (fun u => do
    let (r, c) := blockAt d b u
    let x ← eBlockRaw a r c b
    let w := dBits a
    ePutRow d r c ((List.range b).map fun p => if isImag p then x.getD p 0 ^^^ 2 ^ (w - 1) else x.getD p 0)
    pure 0) s

/-- SEXP at the queue head (R279). DEDUCED (log 80). -/
def runSexp (k : Cmd) (e : BitVec 5) (s : State) : Prog :=
  let d := k.d 0
  let a := k.d 1
  let t := dTag a
  let b := sB t
  checkedElems .vf (checkS k [a] true (ownBlocks [d, a]) (!sameShape d a) (dFmt d != dFmt a || tG (dTag d) != tG t)
      (tDom t != 1 || tDom (dTag d) != 1 || tBcode (dTag d) != tBcode t || tExp (dTag d) != e.toNat)) (blocksOf d b) k.upc (fun u => do
    let (r, c) := blockAt d b u
    let x ← eBlock a r c b
    ePutNums d r c (x.map (·.scale ((tExp t : Int) - e.toNat)))) s

/-- The gain of a position (R280). -/
def gainAt (g : List Num) (h p : Nat) : Num := numAt g (if p = 0 then 0 else if p = 1 then h else p / 2)

/-- SDOM at the queue head (R280). -/
def runSdom (k : Cmd) (s : State) : Prog :=
  let d := k.d 0
  let a := k.d 1
  let gd := k.d 2
  let t := dTag a
  let b := sB t
  let h := sH t
  checkedElems .vf (checkS k [a, gd] true (ownBlocks [d, a]) (!sameShape d a || (dRows gd != 1 || ((blockOf a).isSome && dCols gd != h + 1)))
      (dFmt d != dFmt a || tG (dTag d) != tG t) (tDom t != 1 || dTag d != t || tDom (dTag gd) != 0)) (blocksOf d b) k.upc (fun u => do
    let (r, c) := blockAt d b u
    let x ← eBlock a r c b
    let g ← eRow (fun i => do pure (elemVal (dFmt gd) (← eElem gd 0 i))) (h + 1) 0
    let (y, f) := ((List.range b).mapM fun p => arOf (Num.mul (numAt x p) (gainAt g h p)) : Ar (List Num)) 0
    let f' ← ePutNums d r c y
    pure (f ||| f')) s

/-! ### SCMAC (R281 to R284) -/

/-- Grid rows and columns of an operand, transposed or not (R282). -/
def gridRows (d : Desc) (b : Nat) (tr : Bool) : Nat := if tr then dCols d / b else dRows d
def gridCols (d : Desc) (b : Nat) (tr : Bool) : Nat := if tr then dRows d else dCols d / b

/-- The working bank's tag under SCMAC (R284). -/
def scTag (bcode e : Nat) : FTag := BitVec.ofNat 16 (0x1B + bcode % 8 * 256 + e % 32 * 2048)

/-- The queue-head checks of SCMAC, in the order of R282. -/
def checkScmac (k : Cmd) (acc : Bool) (f : ScF) : E Unit := do
  let s ← enow
  let a := k.d 0
  let b := k.d 1
  let (ta, tb) := (dTag a, dTag b)
  let (ba, bb) := (sB ta, sB tb)
  let ww := 2 ^ (f.wcode.toNat + 1)
  let m := gridRows a ba f.ta
  let n := gridCols b bb f.tb
  let e := tExp ta + tExp tb
  efailIf (tileIllop a [0, 1] || tileIllop b [0, 1]) cILLOP
  efailIf (!tagWf ta || !tagWf tb || !isSF (dFmt a) || !isSF (dFmt b)) cTAGMIS
  efailIf (tDom ta != 1 || tDom tb != 1) cDOMAIN
  efailIf (sIllop (some ba) a || sIllop (some bb) b || gridCols a ba f.ta != gridRows b bb f.tb || 128 < m || 128 < f.row0.toNat + m ||
    128 < f.col0.toNat + n * ww || f.p0.toNat % ww != 0 || ba < f.p0.toNat + ww) cILLOP
  efailIf (tBcode ta != tBcode tb || 31 < e || (!f.z && (s.acc acc).wtag != scTag (tBcode ta) e)) cDOMAIN
  efailIf (srcAlign a || srcAlign b) cALIGN
  efailIf (!tileFits a || !tileFits b) cOOB

/-- The sums of 16 products of window position p: the operands by (j, position in the window), p0 being the window's first position. -/
def scSum (p0 w : Nat) (a b : Nat → Nat → Num × FFlags) (n : Nat) : Num × FFlags :=
  let p := p0 + w
  let neg (x : Num × FFlags) : Num × FFlags := (x.1.neg, x.2)
  chunkSum <| (List.range n).flatMap fun j =>
    if p < 2 then [arrMul (a j w) (b j w)]
    else if p % 2 = 0 then [arrMul (a j w) (b j w), neg (arrMul (a j (w + 1)) (b j (w + 1)))]
    else [arrMul (a j (w - 1)) (b j w), arrMul (a j w) (b j (w - 1))]

/-- Adds one chunk into the working bank from (row0, col0) on: m by n blocks of ww positions. `a i` and `b i` give the values of block row,
column i by j and window position. -/
def scInto (acc : Bool) (row0 col0 m n p0 ww js : Nat) (a b : Nat → Nat → Nat → Num × FFlags) : E FFlags := fun s =>
  let one (w : Accum × FFlags) (x : Nat × Nat) : Accum × FFlags :=
    let (i, q) := x
    let (sum, f0) := scSum p0 (q % ww) (a i) (b (q / ww)) js
    let at_ := bankAt (row0 + i) (col0 + q)
    let (z, f1) := Num.add .rne (faVal (w.1.w at_)) sum
    let (y, f2) := roundFA z
    (w.1.setW at_ y, w.2 ||| f0 ||| f1 ||| f2)
  let (a', f) := (gridCells m (n * ww)).foldl one (s.acc acc, 0)
  .ok (f, s.modAcc acc fun _ => a')

/-- A value of a block grid, window position w of logical block (i, j), conjugated or not. -/
def scVal (d : Desc) (b p0 : Nat) (tr cj : Bool) (i j w : Nat) : E (Num × FFlags) := do
  let (r, q) := opAt tr i j
  let p := p0 + w
  let x := elemVal (dFmt d) (← eElem d r (q * b + p))
  pure (if cj && isImag p then x.neg else x, 0)

/-- A read grid by (row, j, position). -/
def scPick (ww : Nat) (g : List (List (Num × FFlags))) (i j w : Nat) : Num × FFlags := gridAt noNum g i (j * ww + w)

/-- .z (R284). -/
def scClear (acc : Bool) (t : FTag) : E Unit := eupd fun s => s.modAcc acc fun a =>
  { a with work := [], wpois := [], wtag := t, chk := a.chk.clear }

/-- SCMAC at the queue head (R283): the chunk of 16 blocks is the micro-PC. -/
def runScmac (k : Cmd) (acc : Bool) (f : ScF) (s : State) : Prog :=
  let a := k.d 0
  let b := k.d 1
  let bs := sB (dTag a)
  let ww := 2 ^ (f.wcode.toNat + 1)
  let p0 := f.p0.toNat
  let m := gridRows a bs f.ta
  let kk := gridCols a bs f.ta
  let n := gridCols b bs f.tb
  takeMatrix k a false <|
  checkedElems .mf (do
      checkScmac k acc f
      if f.z && k.upc = 0 then scClear acc (scTag (tBcode (dTag a)) (tExp (dTag a) + tExp (dTag b))) else pure ())
    ((kk + 15) / 16) k.upc (fun c => do
      let js := min 16 (kk - 16 * c)
      let av ← eGrid (fun i x => scVal a bs p0 f.ta f.cja i (16 * c + x / ww) (x % ww)) m (js * ww)
      let bv ← eGrid (fun i x => scVal b bs p0 f.tb f.cjb (16 * c + x / ww) i (x % ww)) n (js * ww)
      scInto acc f.row0.toNat f.col0.toNat m n p0 ww js (scPick ww av) (scPick ww bv)) s

/-! ### Adjoints (R287, R288) -/

/-- The checks of an adjoint of class 10 that reads gD and adds into gradients. -/
def checkSAdj (k : Cmd) (gd : Desc) (gs : List Desc) : E Unit := do
  let s ← enow
  echeck (operandFault ((gd, [1]) :: gs.map fun g => (g, [1])) (gs.any (destIllop s)))
  topBlkop k (gs.flatMap abRanges)

/-- Adds values into a gradient tile from (r, c) on. -/
def addRow (g : Desc) (r c : Nat) : List Num → E FFlags
  | [] => pure 0
  | y :: l => do
    let f ← gradAdd g r c y
    let f' ← addRow g r (c + 1) l
    pure (f ||| f')

/-- Values of a residual, n from element i on, of a format. -/
def resBlock (fmt : BitVec 4) (l : List Byte) (i n : Nat) : List Num := (List.range n).map fun j => resVal fmt l (i + j)

/-- Scales the complex positions. -/
def scaleComplex (e : Int) (l : List Num) : List Num := (List.range l.length).map fun p => if p < 2 then numAt l p else (numAt l p).scale e

/-- y of the one-source adjoints (R287) from a block of gD: SXF, SXI, SCONJ, SDOM (with its gains), SEXP. DEDUCED (log 24). -/
def sAdjY (k : Cmd) (b : Nat) (x gains : List Num) : List Num × FFlags :=
  match k.instr with
  | .sxf .. =>
    let L := sL (dTag (k.d 0))
    let (y, f) := sInv L (scaleComplex (-1) x) 0
    (y.map (·.scale L), f)
  | .sxi .. =>
    let t := dTag (k.d 1)
    let (y, f) := sFwd (sL t) x 0
    -- X * 2^-L is SXF's value before its final rounding
    (scaleComplex 1 (y.map fun v => (v.scale (-(sL t : Int))).scale ((sL t : Int) - tExp t)), f)
  | .sconj .. => ((List.range b).map fun p => if isImag p then (numAt x p).neg else numAt x p, 0)
  | .sdom .. => ((List.range b).mapM fun p => arOf (Num.mul (numAt x p) (gainAt gains (b / 2) p)) : Ar (List Num)) 0
  | .sexp _ _ _ e => (x.map (·.scale ((e.toNat : Int) - tExp (dTag (k.d 1)))), 0)
  | _ => ([], 0)

/-- The adjoint of a one-source command. -/
def adjS (k : Cmd) (gd ga : Desc) (s : State) : Prog :=
  let grp : FGroup := match k.instr with | .sxf .. | .sxi .. => .xf | _ => .vf
  let b := match k.instr with | .sxf .. => sB (dTag (k.d 0)) | _ => sB (dTag (k.d 1))
  let gn := k.d 2
  checkedElems grp (checkSAdj k gd [ga]) (blocksOf ga b) k.upc (fun u => do
    let (r, c) := blockAt ga b u
    let x ← eBlock gd r c b
    let gains ← match k.instr with
      | .sdom .. => eRow (fun i => do pure (elemVal (dFmt gn) (← eElem gn 0 i))) (b / 2 + 1) 0
      | _ => pure []
    let (y, f) := sAdjY k b x gains
    let f' ← addRow ga r c y
    pure (f ||| f')) s

/-- The adjoint of SCMUL: the residual holds A where gB is written, then B where gA is. -/
def adjScmul (k : Cmd) (cj : Bool) (gd : Desc) (ga gb : Option Desc) (s : State) : Prog :=
  let a := k.d 1
  let x := k.d 2
  let b := sB (dTag a)
  let n := dRows a * dCols a
  let aLen := if gb.isSome then n * (elemBits (dFmt a) / 8) else 0
  checkedElems .vf (checkSAdj k gd (ga.toList ++ gb.toList)) (blocksOf gd b) k.upc (fun u => do
    let (r, c) := blockAt gd b u
    let g ← eBlock gd r c b
    let i := r * dCols a + c
    let (na, nx) := (elemBits (dFmt a) / 8, elemBits (dFmt x) / 8)
    eResUse k ((if ga.isSome then [(aLen + i * nx, b * nx)] else []) ++ (if gb.isSome then [(i * na, b * na)] else []))
    let f1 ← match ga with
      | some ga => do
        let (y, f) := packMul (!cj) g (resBlock (dFmt x) (k.res.drop aLen) i b) 0
        let f' ← addRow ga r c (y.map (·.scale (2 * (tExp (dTag x) : Int))))
        pure (f ||| f')
      | none => pure 0
    let f2 ← match gb with
      | some gb => do
        let (y, f) := packMul true g (resBlock (dFmt a) k.res i b) 0
        let y := if cj then (List.range b).map fun p => if isImag p then (numAt y p).neg else numAt y p else y
        let f' ← addRow gb r c (y.map (·.scale (2 * (tExp (dTag a) : Int))))
        pure (f ||| f')
      | none => pure 0
    pure (f1 ||| f2)) s

/-- Geometry of the adjoint of SCMAC: like that of MMA, in strips of as many blocks as fill the bank. -/
structure ScAdj where
  m : Nat
  k : Nat
  n : Nat
  ww : Nat
  ga : Option Desc
  gb : Option Desc

def ScAdj.perA (g : ScAdj) : Nat := max 1 (128 / g.ww)
def ScAdj.stripsA (g : ScAdj) : Nat := (g.k + g.perA - 1) / g.perA
def ScAdj.stepsA (g : ScAdj) : Nat := (g.n + 15) / 16 + 1
def ScAdj.totalA (g : ScAdj) : Nat := if g.ga.isSome then g.stripsA * g.stepsA else 0
def ScAdj.stripsB (g : ScAdj) : Nat := (g.k + 127) / 128
def ScAdj.stepsB (g : ScAdj) : Nat := (g.m + 15) / 16 + 1
def ScAdj.total (g : ScAdj) : Nat := g.totalA + if g.gb.isSome then g.stripsB * g.stepsB else 0

/-- Geometry of a command's adjoint; its forms in a block are not transposed (R287). DEDUCED (log 24). -/
def scAdj (k : Cmd) (f : ScF) : ScAdj :=
  let dc := descsOf k.instr
  let b := sB (dTag (k.d 0))
  { m := gridRows (k.d 0) b false, k := gridCols (k.d 0) b false, n := gridCols (k.d 1) b false, ww := 2 ^ (f.wcode.toNat + 1),
    ga := (dc[0]?).bind k.cp, gb := (dc[1]?).bind k.cp }

/-- Adds the strip in the working bank, times 2^e, into window positions of a gradient tile: bank row i, block q of the strip to tile row
and block `at_ i q`. -/
def scAddStrip (acc : Bool) (g : Desc) (b p0 ww : Nat) (e : Int) (at_ : Nat → Nat → Nat × Nat) : List (Nat × Nat) → E FFlags
  | [] => pure 0
  | (i, x) :: l => do
    let s ← enow
    let (r, q) := at_ i (x / ww)
    let f ← gradAdd g r (q * b + p0 + x % ww) ((faVal ((s.acc acc).w (bankAt i x))).scale e)
    let f' ← scAddStrip acc g b p0 ww e at_ l
    pure (f ||| f')

/-- One step of the adjoint of SCMAC (R288). -/
def scAdjStep (k : Cmd) (g : ScAdj) (acc : Bool) (f : ScF) (u : Nat) : E FFlags := do
  let a := k.d 0
  let x := k.d 1
  let (ta, tx) := (dTag a, dTag x)
  let b := sB ta
  let ww := g.ww
  let p0 := f.p0.toNat
  let row0 := f.row0.toNat
  let col0 := f.col0.toNat
  let (ea, eb) := (tExp ta, tExp tx)
  if u < g.totalA then
    let strip := u / g.stepsA
    let c := u % g.stepsA
    let k0 := g.perA * strip
    let kn := min g.perA (g.k - k0)
    if c = g.stepsA - 1 then
      match g.ga with
      | some ga => scAddStrip acc ga b p0 ww (2 * (eb : Int)) (fun i q => (i, k0 + q)) (gridCells g.m (kn * ww))
      | none => pure 0
    else
      if c = 0 then scClear acc (scTag (tBcode ta) (ea + 2 * eb)) else pure ()
      let js := min 16 (g.n - 16 * c)
      let gv ← eGrid (fun i y => gradC k row0 col0 i (16 * c * ww + y)) g.m (js * ww)
      let bv ← eGrid (fun i y => scVal x b p0 true true (16 * c + y / ww) (k0 + i) (y % ww)) kn (js * ww)
      scInto acc 0 0 g.m kn p0 ww js (scPick ww gv) (scPick ww bv)
  else
    let u := u - g.totalA
    let strip := u / g.stepsB
    let c := u % g.stepsB
    let k0 := 128 * strip
    let kn := min 128 (g.k - k0)
    if c = g.stepsB - 1 then
      match g.gb with
      | some gb => scAddStrip acc gb b p0 ww (2 * (ea : Int)) (fun i q => (k0 + i, q)) (gridCells kn (g.n * ww))
      | none => pure 0
    else
      if c = 0 then scClear acc (scTag (tBcode ta) (2 * ea + eb)) else pure ()
      let js := min 16 (g.m - 16 * c)
      -- A transposed and conjugated, from the popped residual
      let sz := elemBits (dFmt a) / 8
      eResUse k ((List.range js).flatMap fun j => (List.range kn).map fun i =>
        (((16 * c + j) * dCols a + (k0 + i) * b + p0) * sz, ww * sz))
      let av (i j w : Nat) : Num × FFlags :=
        let p := p0 + w
        let v := resVal (dFmt a) k.res ((16 * c + j) * dCols a + (k0 + i) * b + p)
        (if isImag p then v.neg else v, 0)
      let gv ← eGrid (fun i y => gradC k row0 col0 (16 * c + y / ww) (i * ww + y % ww)) g.n (js * ww)
      scInto acc 0 0 kn g.n p0 ww js av (scPick ww gv)

/-- The checks of the adjoint of SCMAC (R288), those of the SCMAC.z it stands for in the order of R282: the tiles it reads and adds into, the exponents of the
products with gC, whose exponent is that of the product of A and B. -/
def checkScAdj (k : Cmd) (g : ScAdj) : E Unit := do
  let s ← enow
  let gs := g.ga.toList ++ g.gb.toList
  let all := gs ++ k.descs.drop 2
  let ea := tExp (dTag (k.d 0))
  let eb := tExp (dTag (k.d 1))
  efailIf (all.any (tileIllop · [1]) || gs.any (destIllop s)) cILLOP
  efailIf (all.any tileTagBad) cTAGMIS
  efailIf (all.any fun d => sIllop (blockOf d) d) cILLOP
  efailIf ((g.ga.isSome && 31 < ea + 2 * eb) || (g.gb.isSome && 31 < 2 * ea + eb)) cDOMAIN
  efailIf (all.any fun d => !tileFits d) cOOB
  efailIf (gs.any fun d => meetsTop s.core.t (abRanges d)) cBLKOP

/-- The adjoint of SCMAC (R288). -/
def adjScmac (k : Cmd) (acc : Bool) (f : ScF) (s : State) : Prog :=
  let g := scAdj k f
  if (k.descs[2]?).isNone then .ok s k.upc
  else checkedElems .mf (checkScAdj k g) g.total k.upc (scAdjStep k g acc f) s

/-! ### Routing -/

/-- SXF (R275). -/
def execSxf (tk : Tok) (dD dA : DCode) (s : State) : Out := routed (.sxf tk dD dA) (pure ()) s

/-- SXI (R276). -/
def execSxi (tk : Tok) (dD dA : DCode) (s : State) : Out := routed (.sxi tk dD dA) (pure ()) s

/-- SCMAC (R281). -/
def execScmac (tk : Tok) (acc : Bool) (dA dB : DCode) (f : ScF) (s : State) : Out := routed (.scmac tk acc dA dB f) (pure ()) s

/-- SCMUL (R277). -/
def execScmul (tk : Tok) (cj : Bool) (dD dA dB : DCode) (s : State) : Out := routed (.scmul tk cj dD dA dB) (pure ()) s

/-- SCONJ (R278). -/
def execSconj (tk : Tok) (dD dA : DCode) (s : State) : Out := routed (.sconj tk dD dA) (pure ()) s

/-- SDOM (R280). -/
def execSdom (tk : Tok) (dD dA dG : DCode) (s : State) : Out := routed (.sdom tk dD dA dG) (pure ()) s

/-- SEXP (R279). -/
def execSexp (tk : Tok) (dD dA : DCode) (e : BitVec 5) (s : State) : Out := routed (.sexp tk dD dA e) (pure ()) s

end Sys2Proof.Machine
end

