-- ==== Sys2Proof/Machine/Scalar.lean ====
section
/-! DEFINITION. Class 0, scalar integer (04_scalar_control.md R94 to R98): one definition per instruction. -/

namespace Sys2Proof.Machine

/-- An instruction of one source (R95): poison of the source raises POISON with no effect (R94). -/
def op1 (f : Word → Word) (rd ra : Reg) (s : State) : Out :=
  ccNext s false do
    let a ← rdS ra
    wrS rd (f a)

/-- An instruction of two sources (R95). -/
def op2 (f : Word → Word → Word) (rd ra rb : Reg) (s : State) : Out :=
  ccNext s false do
    let a ← rdS ra
    let b ← rdS rb
    wrS rd (f a b)

/-- A truth value as a word. -/
def boolW (b : Bool) : Word := if b then 1 else 0

/-- The high half of the exact 128-bit product (R95). -/
def mulHigh (m : MulMode) (a b : Word) : Word :=
  let p : Int := match m with
    | .ss => a.toInt * b.toInt
    | .uu => (a.toNat : Int) * b.toNat
    | .su => a.toInt * (b.toNat : Int)
  BitVec.ofInt 64 (p / 2 ^ 64)

/-- DIV (R96). -/
def divWord (u : Bool) (a b : Word) : Word :=
  if b = 0 then BitVec.allOnes 64
  else if u then a / b
  else BitVec.ofInt 64 (a.toInt.tdiv b.toInt)

/-- REM (R96). -/
def remWord (u : Bool) (a b : Word) : Word :=
  if b = 0 then a
  else if u then a % b
  else BitVec.ofInt 64 (a.toInt.tmod b.toInt)

/-- The number of leading zero bits (R95). -/
def clzWord (a : Word) : Word := if a = 0 then 64 else BitVec.ofNat 64 (63 - a.toNat.log2)

/-- The number of one bits (R95). -/
def popcWord (a : Word) : Word := BitVec.ofNat 64 ((List.range 64).countP fun i => a.getLsbD i)

/-- Signed or unsigned order (R95). -/
def ltWord (u : Bool) (a b : Word) : Bool := if u then a.ult b else a.slt b

/-- A mask of len low bits (R97). -/
def lowMask (len : Nat) : Word := BitVec.ofNat 64 (2 ^ len - 1)

/-- BFX (R97). -/
def bfxWord (sgn : Bool) (a : Word) (pos len : Nat) : Word :=
  let f := (a >>> pos) &&& lowMask len
  if sgn && f.getLsbD (len - 1) then f ||| ~~~lowMask len else f

/-- BFI (R97). -/
def bfiWord (a b : Word) (pos len : Nat) : Word :=
  (a &&& ~~~(lowMask len <<< pos)) ||| ((b &&& lowMask len) <<< pos)

/-- A shift whose count is a register's low six bits or an immediate (R95). -/
def opShift (f : Word → Nat → Word) (rd ra : Reg) (k : ShCount) (s : State) : Out :=
  ccNext s false do
    let a ← rdS ra
    let n ← match k with
      | .reg rb => do
        let b ← rdS rb
        pure (b.extractLsb' 0 6).toNat
      | .imm n => pure n.toNat
    wrS rd (f a n)

/-- ADD (R95). -/
def execAdd (rd ra rb : Reg) (s : State) : Out := op2 (· + ·) rd ra rb s

/-- SUB (R95). -/
def execSub (rd ra rb : Reg) (s : State) : Out := op2 (· - ·) rd ra rb s

/-- MUL (R95): the low half of the product. -/
def execMul (rd ra rb : Reg) (s : State) : Out := op2 (· * ·) rd ra rb s

/-- AND (R95). -/
def execAnd (rd ra rb : Reg) (s : State) : Out := op2 (· &&& ·) rd ra rb s

/-- OR (R95). -/
def execOr (rd ra rb : Reg) (s : State) : Out := op2 (· ||| ·) rd ra rb s

/-- XOR (R95). -/
def execXor (rd ra rb : Reg) (s : State) : Out := op2 (· ^^^ ·) rd ra rb s

/-- ANDN (R95): A AND NOT B. -/
def execAndn (rd ra rb : Reg) (s : State) : Out := op2 (fun a b => a &&& ~~~b) rd ra rb s

/-- CEQ (R95). -/
def execCeq (rd ra rb : Reg) (s : State) : Out := op2 (fun a b => boolW (a == b)) rd ra rb s

/-- CLT (R95): signed. -/
def execClt (rd ra rb : Reg) (s : State) : Out := op2 (fun a b => boolW (a.slt b)) rd ra rb s

/-- CLTU (R95): unsigned. -/
def execCltu (rd ra rb : Reg) (s : State) : Out := op2 (fun a b => boolW (a.ult b)) rd ra rb s

/-- ADDI (R95). -/
def execAddi (rd ra : Reg) (imm : BitVec 20) (s : State) : Out := op1 (· + sx imm) rd ra s

/-- MULH (R95). -/
def execMulh (m : MulMode) (rd ra rb : Reg) (s : State) : Out := op2 (mulHigh m) rd ra rb s

/-- DIV (R96). -/
def execDiv (u : Bool) (rd ra rb : Reg) (s : State) : Out := op2 (divWord u) rd ra rb s

/-- REM (R96). -/
def execRem (u : Bool) (rd ra rb : Reg) (s : State) : Out := op2 (remWord u) rd ra rb s

/-- MIN (R95). -/
def execMin (u : Bool) (rd ra rb : Reg) (s : State) : Out := op2 (fun a b => if ltWord u b a then b else a) rd ra rb s

/-- MAX (R95). -/
def execMax (u : Bool) (rd ra rb : Reg) (s : State) : Out := op2 (fun a b => if ltWord u a b then b else a) rd ra rb s

/-- SHL (R95). -/
def execShl (rd ra : Reg) (k : ShCount) (s : State) : Out := opShift (· <<< ·) rd ra k s

/-- SHR (R95). -/
def execShr (rd ra : Reg) (k : ShCount) (s : State) : Out := opShift (· >>> ·) rd ra k s

/-- SAR (R95). -/
def execSar (rd ra : Reg) (k : ShCount) (s : State) : Out := opShift (fun a k => a.sshiftRight k) rd ra k s

/-- ROT (R95). -/
def execRot (rd ra : Reg) (k : ShCount) (s : State) : Out := opShift (fun a k => a.rotateLeft k) rd ra k s

/-- CLZ (R95). -/
def execClz (rd ra : Reg) (s : State) : Out := op1 clzWord rd ra s

/-- POPC (R95). -/
def execPopc (rd ra : Reg) (s : State) : Out := op1 popcWord rd ra s

/-- SEL (R95): A where C is not zero, else B. -/
def execSel (rd ra rb rc : Reg) (s : State) : Out :=
  ccNext s false do
    let a ← rdS ra
    let b ← rdS rb
    let c ← rdS rc
    wrS rd (if c ≠ 0 then a else b)

/-- LEA (R95): A + (B << M) + imm. -/
def execLea (rd ra rb : Reg) (scale : BitVec 2) (imm : BitVec 20) (s : State) : Out :=
  op2 (fun a b => a + (b <<< scale.toNat) + sx imm) rd ra rb s

/-- BFX (R97). -/
def execBfx (sgn : Bool) (rd ra : Reg) (pos lenM1 : BitVec 6) (s : State) : Out :=
  op1 (fun a => bfxWord sgn a pos.toNat (lenM1.toNat + 1)) rd ra s

/-- BFI (R97): RD is not read. -/
def execBfi (rd ra rb : Reg) (pos lenM1 : BitVec 6) (s : State) : Out :=
  op2 (fun a b => bfiWord a b pos.toNat (lenM1.toNat + 1)) rd ra rb s

/-- MOVI (R98): an instruction of two granules. -/
def execMovi (rd : Reg) (imm : Word) (s : State) : Out := cc s false (do wrS rd imm; upd (·.advance 2))

end Sys2Proof.Machine
end

