-- ==== Sys2Proof/Machine/Control.lean ====
section
/-! DEFINITION. Class 1, control flow (04_scalar_control.md R99 to R104): one definition per instruction. -/

namespace Sys2Proof.Machine

/-- The PC of the task in focus. -/
def pcNow : M Word := fun s => .ok (s.core.t.pc, s)

/-- A compare and branch (R99). -/
def branch (c : Word → Word → Bool) (ra rb : Reg) (off : BitVec 20) (s : State) : Out :=
  cc s false do
    let a ← rdS ra
    let b ← rdS rb
    let pc ← pcNow
    if c a b then transfer (pc + 8 * sx off) false else upd (·.advance 1)

/-- BR.EQ (R99). -/
def execBrEq (ra rb : Reg) (off : BitVec 20) (s : State) : Out := branch (fun a b => a == b) ra rb off s

/-- BR.NE (R99). -/
def execBrNe (ra rb : Reg) (off : BitVec 20) (s : State) : Out := branch (fun a b => a != b) ra rb off s

/-- BR.LT (R99): signed. -/
def execBrLt (ra rb : Reg) (off : BitVec 20) (s : State) : Out := branch (fun a b => a.slt b) ra rb off s

/-- BR.GE (R99): signed. -/
def execBrGe (ra rb : Reg) (off : BitVec 20) (s : State) : Out := branch (fun a b => !a.slt b) ra rb off s

/-- BR.LTU (R99): unsigned. -/
def execBrLtu (ra rb : Reg) (off : BitVec 20) (s : State) : Out := branch (fun a b => a.ult b) ra rb off s

/-- BR.GEU (R99): unsigned. -/
def execBrGeu (ra rb : Reg) (off : BitVec 20) (s : State) : Out := branch (fun a b => !a.ult b) ra rb off s

/-- JMP (R100). -/
def execJmp (off : BitVec 38) (s : State) : Out :=
  cc s false do
    let pc ← pcNow
    transfer (pc + 8 * sx off) false

/-- JMPR (R100): the target is A's old value; the link is written when the transfer takes effect. -/
def execJmpr (rd ra : Reg) (s : State) : Out :=
  cc s false do
    let a ← rdS ra
    let pc ← pcNow
    transfer a true
    wrS rd (nextPc pc 1)

/-- CALL (R100). -/
def execCall (rd : Reg) (off : BitVec 38) (s : State) : Out :=
  cc s false do
    let pc ← pcNow
    transfer (pc + 8 * sx off) false
    wrS rd (nextPc pc 1)

/-- RET (R100). -/
def execRet (ra : Reg) (s : State) : Out :=
  cc s false do
    let a ← rdS ra
    transfer a true

/-- LOOP (R101): a transfer that raises BRTGT leaves the counter as it was (R33). -/
def execLoop (ra : Reg) (off : BitVec 20) (s : State) : Out :=
  cc s false do
    let a ← rdS ra
    let pc ← pcNow
    if a = 0 then upd (·.advance 1)
    else if a = 1 then
      wrS ra 0
      upd (·.advance 1)
    else
      transfer (pc + 8 * sx off) false
      wrS ra (a - 1)

/-- NOP (R102): no effect; allowed inside a block (R104). -/
def execNop (s : State) : Out := runM s (upd (·.advance 1))

/-- HINT (R102): changes no architectural state; code 2 may bring the next sequential line into the L1 instruction cache, which this
model leaves to FETCH_LINE. -/
def execHint (_code : BitVec 8) (s : State) : Out := ccNext s false (pure ())

end Sys2Proof.Machine
end

