-- ==== Sys2Proof/Machine/MemIns.lean ====
section
/-! DEFINITION. Class 2, memory access and ordering (05_memory_ordering.md R114 to R131; SPL and SPS 04_scalar_control.md R105 to R107):
one definition per instruction. -/

namespace Sys2Proof.Machine

/-- Bytes of an access (R116). -/
def szBytes : MSize → Nat
  | .b => 1 | .h => 2 | .w => 4 | .d => 8

/-- The address part of R117: alignment, translation, the device rule and the policy, in that order. -/
def accessAddr (ra rb : Reg) (off : BitVec 20) (n : Nat) (a : Acc) : M (Word × Xl) := do
  let base ← rdS ra
  let va := base + sx off
  failIf (va.toNat % n != 0) (.at cALIGN va)
  let x ← xlate va a
  failIf (x.cls = 2 && (n < 4 || n = 32)) (.at cALIGN va)
  let p ← rdS rb
  checkPolicy p
  pure (va, x)

/-- LD (R117): zero-extended; a load into s0 performs its access. -/
def execLd (sz : MSize) (rd ra rb : Reg) (off : BitVec 20) (s : State) : Out :=
  ccNext s false do
    let (va, x) ← accessAddr ra rb off (szBytes sz) .r
    let bs ← memRead va x (szBytes sz)
    wrS rd (BitVec.ofNat 64 (leNat bs))

/-- ST (R117, R118, R122). -/
def execSt (sz : MSize) (rd ra rb : Reg) (off : BitVec 20) (s : State) : Out :=
  ccNext s false do
    let (va, x) ← accessAddr ra rb off (szBytes sz) .w
    let d ← rdS rd
    memWrite va x (leBytes (szBytes sz) d.toNat)

/-- The reserved bits of a descriptor image (R40). -/
def descRsv : Desc :=
  ((BitVec.allOnes 39) ++ (0 : BitVec 217)) ||| ((0 : BitVec 160) ++ ((BitVec.allOnes 7) ++ (0 : BitVec 89))) ||| 0xFFC0#256

/-- LD.dsc (R117, R40): an image with a reserved bit set raises ILLOP and leaves the register unchanged. -/
def execLdDsc (dd : DCode) (ra rb : Reg) (off : BitVec 20) (s : State) : Out :=
  ccNext s false do
    let (va, x) ← accessAddr ra rb off 32 .r
    let bs ← memRead va x 32
    let img : Desc := BitVec.ofNat 256 (leNat bs)
    failIf (img &&& descRsv != 0) (.cc cILLOP)
    upd (·.setD dd img)

/-- ST.dsc (R117): reserved bits are written as zero. -/
def execStDsc (dd : DCode) (ra rb : Reg) (off : BitVec 20) (s : State) : Out :=
  ccNext s false do
    let (va, x) ← accessAddr ra rb off 32 .w
    let d ← rdD dd
    memWrite va x (leBytes 32 (d &&& ~~~descRsv).toNat)

/-- The offset of a spill access (R106). -/
def spillOff (ra : Reg) (off : BitVec 20) (n : Nat) : M Nat := do
  let a ← rdS ra
  let o := (a + sx off).toNat
  failIf (o % n != 0) (.cc cALIGN)
  failIf (16384 - n < o) (.cc cOOB)
  pure o

/-- SPL (R106). -/
def execSpl (sz : MSize) (rd ra : Reg) (off : BitVec 20) (s : State) : Out :=
  ccNext s false do
    let o ← spillOff ra off (szBytes sz)
    let s ← now
    failIf (setHas s.core.t.spPois (o / 8)) (.cc cPOISON)
    wrS rd (BitVec.ofNat 64 (readLe s.core.t.spill o (szBytes sz)))

/-- SPS (R106): a whole word clears the word's poison. -/
def execSps (sz : MSize) (rd ra : Reg) (off : BitVec 20) (s : State) : Out :=
  ccNext s false do
    let o ← spillOff ra off (szBytes sz)
    let d ← rdS rd
    let s ← now
    failIf ((szBytes sz) < 8 && setHas s.core.t.spPois (o / 8)) (.cc cPOISON)
    upd fun s => s.modT fun t => { t with spill := writeLe t.spill o (szBytes sz) d.toNat, spPois := setDel t.spPois (o / 8) }

/-- PREF (R121): pins a phase-ordered line as a read would; a PREF that would fault does nothing, one that is held waits (R154). -/
def execPref (ra rb : Reg) (off : BitVec 20) (s : State) : Out :=
  ccNext s false fun s =>
    let body : M Unit := do
      let base ← rdS ra
      let va := base + sx off
      let x ← xlate va .r
      let p ← rdS rb
      checkPolicy p
      if x.cls = 0 then pinLine va (x.pa / 128) else pure ()
    match body s with
    | .ok r => .ok r
    | .error (.wait, s') => .error (.wait, s')
    | .error (_, s') => .ok ((), keepFills s s')

/-- The line CLN, INV and INV.i act on. -/
def lineAddr (ra : Reg) (off : BitVec 20) (a : Acc) : M Nat := do
  let base ← rdS ra
  let x ← xlate (base + sx off) a
  pure (x.pa / 128)

/-- CLN (R121): publishes the core's dirty bytes of the line. -/
def execCln (ra : Reg) (off : BitVec 20) (s : State) : Out :=
  ccNext s false do
    let l ← lineAddr ra off .r
    commitSelM (· = l)

/-- INV (R121): unpins the line as ACQ does; its dirty bytes stay dirty. -/
def execInv (ra : Reg) (off : BitVec 20) (s : State) : Out :=
  ccNext s false do
    let l ← lineAddr ra off .r
    upd fun s => s.modV fun v =>
      { v with pin := Sparse.del v.pin l, bad := v.bad.filter fun w => w / 16 ≠ l || v.dirty.any fun d => d.1 / 8 = w }

/-- INV.i (R121, R136, R211): removes the line from every instruction cache of the package. -/
def execInvI (ra : Reg) (off : BitVec 20) (s : State) : Out :=
  ccNext s false do
    let l ← lineAddr ra off .x
    upd fun s => s.mapCores fun c => { c with icache := Sparse.del c.icache l, vcache := Sparse.del c.vcache l }

/-- COMMIT (R124). -/
def execCommit (s : State) : Out := ccNext s false commitM

/-- ACQ (R125). -/
def execAcq (s : State) : Out := ccNext s false (upd State.acquire)

/-- Whether a task is a member of instance 0 of a scope where it runs (R127, R335). -/
def phaseMember (s : State) (sc : Scope) : Bool :=
  (s.bar s.core.t.id s.core.phys sc 0 false).members.contains s.core.t.id.uid

/-- The publish and arrival of a PHASE or a STEPB (R126, R333): the packet goes to the homes, where it is held. -/
def phaseSend (s : State) (sc : Scope) (step : Bool) (rd : Reg) : State :=
  let t := s.core.t
  let p : Packet := ⟨t.id.uid, t.id.logi.toNat, t.id.launch, sc, unitOf sc s.core.phys, step, t.view.dirty, t.view.whole, t.view.bad⟩
  let bar := s.bar t.id s.core.phys sc 0 true
  let s := s.setBar { bar with arrived := bar.arrived ++ [t.id.uid], started := true }
  let s := s.modS fun c => { c with packets := c.packets ++ [p] }
  s.modT fun t =>
    let v : View := { pin := t.view.pinOwn fun _ => true, dirty := [], whole := [], bad := t.view.bad }
    { t with view := { v with bad := v.bad.filter fun w => setHas v.lines (w / 16) }, phase := .held sc step rd,
             pend := { t.pend with refused := none } }

/-- PHASE (R126, R127): CORE scope merges at once; a wider scope sends its packet, arrives and waits for the merge, then acquires. A
member killed while the barrier was open gives the waiting ones BARBRK with PHASE complete; refused bytes raise COMPCAP or QUOTA before the acquire
(R180). -/
def execPhase (sc : Scope) (s : State) : Out :=
  cc s false fun s =>
    if sc = .core then (do commitM; upd State.acquire; upd (·.advance 1) : M Unit) s
    else match s.core.t.phase with
    | .idle =>
      if !phaseMember s sc then raise (.cc cILLOP) s
      else if s.heldDirty fun _ => true then wait s
      else stay (fun s => (phaseSend s sc false 0).modC fun c => { c with waiting := true }) s
    | .held _ _ _ => wait s
    | .merged _ _ _ =>
      match s.core.t.pend.refused with
      | some c => raiseLate (.cc c) (fun s => s.modT fun t => { t with phase := .idle }) s
      | none =>
      let s1 := (s.acquire.modT fun t => { t with phase := .idle }).advance 1
      if s.core.t.pend.barbrk then
        raiseLate (.cc cBARBRK) (fun _ => s1.modT fun t => { t with pend := { t.pend with barbrk := false } }) s
      else .ok ((), s1)

/-- FENCE (R129): waits until every engine command routed before it has completed, collectives with their channel numbers (R356); accesses of the
control core are performed when they issue. -/
def execFence (_sc : Scope) (s : State) : Out :=
  ccNext s false do
    let s ← now
    if s.core.t.q.load.isEmpty && s.core.t.q.compute.isEmpty && s.core.t.q.store.isEmpty &&
        s.core.t.tls.coll.toList.all (fun t => t.i = t.v) then pure () else wait

/-- TWAIT (R131, R132). -/
def execTwait (acq : Bool) (tl : BitVec 8) (ra : Reg) (s : State) : Out :=
  ccNext s false do
    let n ← rdS ra
    let s ← now
    let t := s.core.t.tls.sel tl
    failIf (t.i.ult n) (.cc cILLOP)
    if t.v.ult n then wait else if acq then upd State.acquire else pure ()

/-- TREAD (R131). -/
def execTread (iss : Bool) (rd : Reg) (tl : BitVec 8) (s : State) : Out :=
  ccNext s false do
    let s ← now
    let t := s.core.t.tls.sel tl
    wrS rd (if iss then t.i else t.v)

end Sys2Proof.Machine
end

