-- ==== Sys2Proof/Machine/SysIns.lean ====
section
/-! DEFINITION. Class 3, translation and system state (06_translation_system.md R146 to R156), with the system register map
(R148, R149, R174, R345, R366, R368, R384, R385, R395): one definition per instruction. -/

namespace Sys2Proof.Machine

/-! ### System registers -/

/-- Masks of the writable fields. -/
def mFpst : Word := 0x1F1F1F#64
def mPtroot : Word := 0x000FFFFFFFFFF000#64
def mShdsz : Word := 0xFFFFF#64
def mTlnbase : Word := 0x01FFFFFFFFFFE000#64
def mPage57 : Word := 0x01FFFFFFFFFFF000#64
def mTvec : Word := 0x01FFFFFFFFFFFFF8#64
def mTcause : Word := 0xFFFFFFFF0000FFFF#64

/-- TMODE of a quad: bit 1 NEXT, bit 0 CUR (R149). -/
def State.tmode (s : State) (quad : Nat) : BitVec 2 := Sparse.get 0 s.mem.tmode quad

/-- The smallest refresh bank over all 384 channels (R344). -/
def State.rfbank (s : State) : Nat := (List.range 384).foldl (fun m c => min m (Sparse.get 0 s.sched.rfbank c)) 8

/-- TCS (R368). -/
def Core.tcs (c : Core) : Word :=
  let y := c.t.sys
  BitVec.ofNat 64 ((if y.inTrap then 1 else 0) + (if y.tprv then 2 else 0) + (if y.tblk then 4 else 0) +
    (if c.pendingFaults.isEmpty then 0 else 8))

/-- TSTAT (R345). -/
def TaskId.tstat (t : TaskId) : Word :=
  BitVec.ofNat 64 ((if t.nest then 1 else 0) + (if t.plumb then 2 else 0) + 16 * t.prio.toNat + 256 * t.depth.toNat +
    65536 * t.slot.toNat)

/-- DBGST (R384). -/
def Health.dbgst (h : Health) : Word :=
  BitVec.ofNat 64 ((if h.halted then 1 else 0) + (if h.dblf then 2 else 0) + (if h.div then 4 else 0) + 256 * h.cause.toNat)

/-- HBMCAP of a stack (R395, R396): 64 GB less 4 GB for each removed die. -/
def State.hbmcap (s : State) (n : Nat) : Word :=
  let m := Sparse.get 0 s.plat.hbmMap n
  BitVec.ofNat 64 (m.toNat * 65536 + (64 - 4 * (List.range 16).countP fun d => m.getLsbD d))

/-- How a register may be accessed at task level (R148, R368). -/
inductive TaskAcc where
  | rw | ro | none
  deriving DecidableEq, Repr

/-- The registers the chapters assign, with their task access; `none`: unassigned (R147, R148). -/
def srAccess (n : Nat) : Option TaskAcc :=
  if n = 0 || n = 1 then some .rw
  else if n = 8 || n = 9 || (0x10 ≤ n && n ≤ 0x14) || (0x18 ≤ n && n ≤ 0x1E) || (0x20 ≤ n && n ≤ 0x22) then some .ro
  else if (0x100 ≤ n && n ≤ 0x106) || (0x108 ≤ n && n ≤ 0x10C) || n = 0x110 || n = 0x111 || (0x118 ≤ n && n ≤ 0x11A) then
    some .none
  else if (0x200 ≤ n && n ≤ 0x204) || (0x300 ≤ n && n ≤ 0x303) || (0x310 ≤ n && n ≤ 0x31B) || (0x320 ≤ n && n ≤ 0x327) ||
      n = 0x330 then some .ro
  else none

/-- Whether a register is not per context, so that its value is captured for the record log (R385 kind 4). -/
def srShared (n : Nat) : Bool :=
  n = 9 || n = 0x13 || n = 0x14 || n = 0x21 || n = 0x10C || n = 0x110 || n = 0x111 || n = 0x203 || n = 0x204 || 0x300 ≤ n

/-- A quad's temperature in units of 1/16 °C (R395). -/
def State.temp (s : State) (quad : Nat) : Int := ((Sparse.get 0 s.plat.tempq quad).extractLsb' 0 16).toInt

/-- TEMPQ of a quad takes a value (R397): above 105 °C dispatch to the quad is held and an event posted; the time at which it was last above 100 °C is
kept. -/
def State.setTemp (s : State) (quad : Nat) (x : Word) : State :=
  let s1 : State := { s with plat := { s.plat with tempq := Sparse.put 0 s.plat.tempq quad x } }
  let s2 : State := if 1600 < s.temp quad || 1600 < s1.temp quad then { s1 with plat := { s1.plat with hot := Sparse.ins s1.plat.hot quad s.now } } else s1
  if 1680 < s1.temp quad && !s.plat.thermal.contains quad then
    { s2 with plat := { s2.plat with thermal := setIns s2.plat.thermal quad } }.post 6 0 0 quad [1]
  else s2

/-- Whether TEMPQ of a held quad has stayed at or below 100 °C for 2^20 cycles (R397). -/
def State.cooled (s : State) (quad : Nat) : Bool :=
  s.plat.thermal.contains quad && s.temp quad ≤ 1600 && (Sparse.find s.plat.hot quad).all (· + 2 ^ 20 ≤ s.now)

/-- What a monitor shows next: a free value of its 16 bits. DESIGN CHOICE (log 40). -/
def State.monitor (s : State) (quad : Nat) (temp : Bool) : State :=
  let (v, s) := s.free
  let x : Word := v &&& 0xFFFF#64
  if temp then s.setTemp quad x else { s with plat := { s.plat with voltq := Sparse.put 0 s.plat.voltq quad x } }

/-- The value of a system register (R148). The monitors TEMPQ and VOLTQ are the environment's: a read answers what they show, and they move
on. DESIGN CHOICE (log 40). -/
def srRead (s : State) (n : Nat) : Word × State :=
  let y := s.core.t.sys
  let x := s.cx
  let ph := s.core.phys.toNat
  match n with
  | 0x000 => (y.fpst, s)
  | 0x001 => (y.fpen, s)
  | 0x008 => (s.cid.setWidth 64, s)
  | 0x009 => ((s.core.phys.setWidth 64 <<< 8) ||| (s.core.t.id.logi.setWidth 64), s)
  | 0x010 => (x.ptroot, s)
  | 0x011 => (x.shdsz, s)
  | 0x012 => (x.tlnbase, s)
  | 0x013 => ((s.tmode (quadOf ph)).setWidth 64, s)
  | 0x014 => (BitVec.ofNat 64 s.rfCreditAll.rfbank, s.rfCreditAll)
  | 0x018 => (x.flw[0], s)
  | 0x019 => (x.flw[1], s)
  | 0x01A => (x.flw[2], s)
  | 0x01B => (x.flw[3], s)
  | 0x01C => (x.qhbm, s)
  | 0x01D => (x.qcxl, s)
  | 0x01E => (x.qflash, s)
  | 0x020 => (x.pkey, s)
  | 0x021 => (s.plat.podid, s)
  | 0x022 => (x.clogb, s)
  | 0x100 => (x.tvec, s)
  | 0x101 => (y.tpc, s)
  | 0x102 => (y.tcause, s)
  | 0x103 => (y.tupc, s)
  | 0x104 => (y.ttl, s)
  | 0x105 => (y.tva, s)
  | 0x106 => (s.core.tcs, s)
  | 0x108 => (y.tscr[0], s)
  | 0x109 => (y.tscr[1], s)
  | 0x10A => (y.tscr[2], s)
  | 0x10B => (y.tscr[3], s)
  | 0x10C => (if s.core.health.suspect then 1 else 0, s)
  | 0x110 => (if s.core.health.trp then 2 else 0, s)
  | 0x111 => (s.core.health.dbgst, s)
  | 0x118 => (x.rrctl, s)
  | 0x119 => (x.rrbase, s)
  | 0x11A => (x.rrst, s)
  | 0x200 => (s.core.t.id.tstat, s)
  | 0x201 => (x.rngbase, s)
  | 0x202 => (y.dieset, s)
  | 0x203 => (s.sched.prethr, s)
  | 0x204 => ((Sparse.get 0 s.sched.caldist (quadOf ph)).setWidth 64, s)
  | 0x300 => (Sparse.get 0 s.plat.tempq (quadOf ph), s.monitor (quadOf ph) true)
  | 0x301 => (Sparse.get 0 s.plat.voltq (quadOf ph), s.monitor (quadOf ph) false)
  | 0x302 => ((Config.procCode (quadOf ph)).setWidth 64, s)
  | 0x303 => (Sparse.get 0 s.plat.strcq (quadOf ph), s)
  | 0x330 => (s.plat.lnkdrop, s)
  | n =>
    if 0x310 ≤ n && n ≤ 0x31B then (s.hbmcap (n - 0x310), s)
    else if 0x320 ≤ n && n ≤ 0x323 then (Sparse.get 0 s.plat.expmode (n - 0x320), s)
    else if 0x324 ≤ n && n ≤ 0x327 then (Sparse.get 0 s.plat.expap (n - 0x324), s)
    else (0, s)

/-- Map-out of DRAM dies by a write to HBMCAP (R395, R396): bits are only set, an event of type 5 is posted, and what the removed dies
hold reads as poisoned from then on. -/
def State.setHbmMap (s : State) (stack : Nat) (m : BitVec 16) : State :=
  let old := Sparse.get 0 s.plat.hbmMap stack
  let s' := { s with plat := { s.plat with hbmMap := Sparse.put 0 s.plat.hbmMap stack (old ||| m) } }
  if old ||| m = old then s else s'.post 5 0 0 stack (leBytes 8 (s'.hbmcap stack).toNat)

/-- The first timeline-area write after system software has written TLNBASE may post an event again (R134). -/
def State.setTlnbase (s : State) (ctx : BitVec 12) (v : Word) : State :=
  s.modX ctx fun x => { x with tlnbase := v &&& mTlnbase, type8 := false }

/-- Whether some page of a table and the tables below it is tier-3 memory that an expansion port's aperture holds (R139, R177). -/
def tablePages (s : State) (hit : Nat → Nat → Bool) : Nat → Nat → Bool
  | lvl, table => (List.range 512).any fun i =>
    let e := s.homeLe (table + 8 * i) 8
    pteV e && !pteReserved e lvl &&
      (if pteLeaf e then hit (ptePa e) (4096 * 512 ^ lvl)
       else match lvl with
         | 0 => false
         | l + 1 => tablePages s hit l (ptePa e))

/-- Whether an expansion port may switch its mode (R393): no flash window names it and no mapped tier-3 page lies in it, by its aperture or by its
capacity. A window of length 0 is disabled and names none. DESIGN CHOICE (log 73). -/
def State.portFree (s : State) (n : Nat) : Bool :=
  let r := Sparse.get 0 s.plat.expap n
  let base := (r &&& 0x000FFFFFFFFFF000#64).toNat
  let size := (r.extractLsb' 0 12).toNat * 2 ^ 30
  let hit (pa len : Nat) : Bool :=
    (pa < base + size && base < pa + len) || (Config.tier2Limit ≤ pa && Config.tier3Port (pa / 4096) % 4 = n)
  s.ctxs.all fun p =>
    (p.2.flw.toList.all fun w => w.extractLsb' 28 28 = 0 || (w.extractLsb' 62 2).toNat ≠ n) &&
    (p.2.ptroot = 0 || !tablePages s hit 4 p.2.ptroot.toNat)

/-- Writes a system register at system level, or FPST and FPEN at task level; read-only and reserved fields keep their value (R147). -/
def srWrite (s : State) (n : Nat) (v : Word) : State :=
  let x (f : Ctx → Ctx) : State := s.modX s.cid f
  let y (f : TaskSys → TaskSys) : State := s.modY f
  match n with
  | 0x000 => y fun r => { r with fpst := r.fpst &&& ~~~v }
  | 0x001 => y fun r => { r with fpen := v &&& mFpst }
  | 0x010 => x fun c => { c with ptroot := v &&& mPtroot }
  | 0x011 => x fun c => { c with shdsz := v &&& mShdsz }
  | 0x012 => s.setTlnbase s.cid v
  | 0x018 => x fun c => { c with flw := c.flw.set 0 v }
  | 0x019 => x fun c => { c with flw := c.flw.set 1 v }
  | 0x01A => x fun c => { c with flw := c.flw.set 2 v }
  | 0x01B => x fun c => { c with flw := c.flw.set 3 v }
  | 0x01C => x fun c => { c with qhbm := v }
  | 0x01D => x fun c => { c with qcxl := v }
  | 0x01E => x fun c => { c with qflash := v }
  | 0x020 => x fun c => { c with pkey := v &&& 0xFFFF#64 }
  | 0x022 => x fun c => { c with clogb := v &&& mPage57 }
  | 0x100 => x fun c => { c with tvec := v &&& mTvec }
  | 0x101 => y fun r => { r with tpc := v }
  | 0x102 => y fun r => { r with tcause := v &&& mTcause }
  | 0x103 => y fun r => { r with tupc := v }
  | 0x104 => y fun r => { r with ttl := v }
  | 0x105 => y fun r => { r with tva := v }
  | 0x106 => y fun r => { r with inTrap := v.getLsbD 0, tprv := v.getLsbD 1, tblk := v.getLsbD 2 }
  | 0x108 => y fun r => { r with tscr := r.tscr.set 0 v }
  | 0x109 => y fun r => { r with tscr := r.tscr.set 1 v }
  | 0x10A => y fun r => { r with tscr := r.tscr.set 2 v }
  | 0x10B => y fun r => { r with tscr := r.tscr.set 3 v }
  | 0x10C => s.modH fun h => { h with suspect := v.getLsbD 0 }
  | 0x110 => s.modH fun h => { h with trp := v.getLsbD 1 }
  | 0x118 =>
    if v.extractLsb' 0 2 = 3 then s
    else if v.extractLsb' 0 2 = 2 then x fun c => if c.rrctl = 2 then c else { c with rrctl := 2, rpos := .replicate 6 0, rcore := [], rdev := [] }
    else x fun c => { c with rrctl := v &&& 3 }
  | 0x119 => x fun c => { c with rrbase := v &&& (mPage57 ||| 0x3F#64) }
  | 0x11A => x fun c => { c with rrst := v &&& 0xFFFFFFFF00000003#64 }
  | 0x201 => x fun c => { c with rngbase := v &&& (mPage57 ||| 0xF#64) }
  | 0x203 => s.modS fun c => { c with prethr := v &&& 0xFFFFFFFF#64 }
  | n =>
    if 0x310 ≤ n && n ≤ 0x31B then s.setHbmMap (n - 0x310) (v.extractLsb' 16 16)
    else if 0x320 ≤ n && n ≤ 0x323 then
      if (Sparse.get 0 s.plat.expmode (n - 0x320)).getLsbD 0 = v.getLsbD 0 || !s.portFree (n - 0x320) then s
      else { s with plat := { s.plat with expmode := Sparse.put 0 s.plat.expmode (n - 0x320) (v &&& 1) } }
    else if 0x324 ≤ n && n ≤ 0x327 then
      { s with plat := { s.plat with expap := Sparse.put 0 s.plat.expap (n - 0x324) (v &&& 0x000FFFFFFFFFFFFF#64) } }
    else s

/-- MFSR (R147, R109, R385). -/
def execMfsr (rd : Reg) (n : BitVec 12) (s : State) : Out :=
  ccNext s false do
    let s ← now
    match srAccess n.toNat with
    | none => raise (.cc cILLOP)
    | some a =>
      failIf (a == .none && !s.core.t.prv) (.cc cPRIV)
      let (v, s') := srRead s n.toNat
      upd fun _ => s'
      if srShared n.toNat then capture 0x30 v (wrS rd) else wrS rd v

/-- MTSR (R147): takes effect before the next instruction issues. -/
def execMtsr (n : BitVec 12) (ra : Reg) (s : State) : Out :=
  ccNext s false do
    let s ← now
    match srAccess n.toNat with
    | none => raise (.cc cILLOP)
    | some a =>
      failIf (a != .rw && !s.core.t.prv) (.cc cPRIV)
      let v ← rdS ra
      upd (srWrite · n.toNat v)

/-! ### Invalidation (R150, R151) -/

/-- Whether a TLBI names a TLB entry. -/
def Tlbi.hits (i : Tlbi) (t : TlbE) : Bool :=
  (match i.ctx with | none => true | some c => t.ctx = c) && (match i.va with | none => true | some v => t.covers t.ctx v.toNat)

/-- Whether a TLBI names a walk-cache entry: for an address, one on its path. -/
def Tlbi.hitsWc (i : Tlbi) (w : WcE) : Bool :=
  (match i.ctx with | none => true | some c => w.ctx = c) &&
  (match i.va with | none => true | some v => w.key = v.toNat >>> (12 + 9 * w.lvl.toNat))

/-- Adds an invalidation to those the core has sent (R150). -/
def sendTlbi (i : Tlbi) : M Unit := upd fun s => s.modC fun c => { c with tlbi := c.tlbi ++ [i] }

/-- TLBI.va (R150); an address that no page can have (R137) removes nothing and raises nothing. DESIGN CHOICE (log 32). -/
def execTlbiVa (ra : Reg) (s : State) : Out :=
  ccNext s false do
    let a ← rdS ra
    let s ← now
    sendTlbi ⟨some s.cid, some a⟩

/-- TLBI.ctx (R150). -/
def execTlbiCtx (s : State) : Out := ccNext s false (do sendTlbi ⟨some (← now).cid, none⟩)

/-- TLBI.cid (R150): privileged; A[63:12] non-zero raises ILLOP. -/
def execTlbiCid (ra : Reg) (s : State) : Out :=
  ccNext s true do
    let a ← rdS ra
    failIf (a.extractLsb' 12 52 != 0) (.cc cILLOP)
    sendTlbi ⟨some (a.extractLsb' 0 12), none⟩

/-- TLBI.all (R150): privileged. -/
def execTlbiAll (s : State) : Out := ccNext s true (sendTlbi ⟨none, none⟩)

/-- The effect of TLBFENCE (R151): every TLBI the core sent has taken effect, at a fence of any scope in every structure of the package, which is
sooner than R150 requires outside the scope; within the scope every walk-cache entry of the issuing context is removed. DESIGN CHOICE (log 32). -/
def State.tlbfence (s : State) (sc : Scope) : State :=
  let p := s.core.phys.toNat
  let l := s.core.tlbi
  let x := s.cid
  let keepT (ts : List TlbE) := ts.filter fun t => !l.any (·.hits t)
  let s := s.mapCores fun c => { c with l1tlb := keepT c.l1tlb }
  let dieIn (d : Nat) : Bool := match sc with | .pkg | .pod => true | _ => d = dieOf p
  let s := s.modM fun m => { m with
    l2tlb := m.l2tlb.map fun q => (q.1, keepT q.2),
    wcache := m.wcache.map fun d => (d.1, d.2.filter fun w => !(dieIn d.1 && w.ctx = x) && !l.any (·.hitsWc w)) }
  s.modC fun c => { c with tlbi := [] }

/-- TLBFENCE (R151). -/
def execTlbfence (sc : Scope) (s : State) : Out := ccNext s false (upd (·.tlbfence sc))

/-- PROBE's result for a translation (R152). -/
def probeWord (x : Xl) : Word :=
  BitVec.ofNat 64 (pteKey x.leaf * 2 ^ 52 + x.pa / 4096 * 4096 + x.size.toNat * 1024 + pteCls x.leaf * 256 + pteCmp x.leaf * 64 +
    (if pteT x.leaf then 32 else 0) + (if pteX x.leaf then 16 else 0) + (if pteW x.leaf then 8 else 0) +
    (if pteR x.leaf then 4 else 0))

/-- PROBE (R152): raises no translation fault; poison in an entry it reads is raised. -/
def execProbe (a : Acc) (rd ra : Reg) (s : State) : Out :=
  ccNext s false do
    let va ← rdS ra
    let s ← now
    match translate s s.cid va a (!s.core.t.prv) with
    | (s', .ok x) =>
      upd fun _ => (keepFills s s').modM fun m => { m with attlog := s.mem.attlog }
      wrS rd (probeWord x)
    | (s', .error (c, l)) =>
      failIf (c == cPOISON) (.at cPOISON va (BitVec.ofNat 3 l))
      upd fun _ => s'
      wrS rd ((1#64 <<< 63) ||| (c.setWidth 64 <<< 8) ||| BitVec.ofNat 64 l)

/-- RFHINT (R154): declares that the context makes no HBM4 request for n cycles. -/
def execRfhint (ra : Reg) (s : State) : Out :=
  ccNext s false do
    let a ← rdS ra
    failIf (a.extractLsb' 32 32 != 0) (.cc cILLOP)
    upd fun s => s.rfCredit.modC fun c => { c with rfFrom := s.now, rfUntil := s.now + a.toNat }

/-- RDCYC (R153): cycles since core reset, or those the task has held a core. -/
def execRdcyc (task : Bool) (rd : Reg) (s : State) : Out :=
  ccNext s false do
    let s ← now
    let v := if task then s.core.t.cycles + (s.now - s.core.csince) else s.now - s.core.resetAt
    capture 0x36 (BitVec.ofNat 64 v) (wrS rd)

/-- The slot KEYSEL names (R155). -/
def keySlot (ra : Reg) : M Nat := do
  let a ← rdS ra
  failIf (a.extractLsb' 8 56 != 0 || a == 0) (.cc cILLOP)
  pure a.toNat

/-- Bytes that are not others of the same length: where they are equal, every bit differs. -/
def unlike (bs old : List Byte) : List Byte := if bs = old then old.map (~~~ ·) else bs

/-- A new key record in a slot (R155): a line written under the slot's old key that has gone to DRAM reads as bytes the manual does not give, but not as
the old plaintext; which lines have gone there it leaves open too. DESIGN CHOICE (log 36). -/
def State.rekey (s : State) (n : Nat) (k : BitVec 512) : State :=
  ((s.mem.sealed.filter fun p => p.2.1 = n && p.2.2 != k).map (128 * ·.1)).foldl (fun s a =>
    if Config.freeChoice s.fresh % 2 = 0 then { s with fresh := s.fresh + 1 }
    else
      let bs := (List.range 16).flatMap fun i => leBytes 8 (Config.freeValue (s.fresh + i)).toNat
      ({ s with fresh := s.fresh + 16 } : State).modM fun m => { m with bytes := writeBytes m.bytes a (unlike bs (s.homeBytes a 128)) }) s

/-- KEYSEL (R155): installs a key record read from a direct-class page; the PROT of another page class has level 0. DESIGN CHOICE (log 36). -/
def execKeysel (ra rb : Reg) (s : State) : Out :=
  ccNext s true do
    let n ← keySlot ra
    let b ← rdS rb
    failIf (b.toNat % 64 != 0) (.at cALIGN b)
    let x ← xlate b .r
    failIf (x.cls != 1) (.at cPROT b)
    let bs ← memRead b x 64
    let k := BitVec.ofNat 512 (leNat bs)
    upd fun s => (s.rekey n k).modM fun m => { m with keys := Sparse.ins m.keys n k }

/-- KEYSEL.clr (R155). -/
def execKeyselClr (ra : Reg) (s : State) : Out :=
  ccNext s true do
    let n ← keySlot ra
    upd fun s => s.modM fun m => { m with keys := Sparse.del m.keys n }

/-- MODE (R156): answers TMODE.CUR and assigns the quad to a mode. -/
def execMode (rd ra : Reg) (s : State) : Out :=
  ccNext s true do
    let a ← rdS ra
    failIf (a.extractLsb' 1 63 != 0) (.cc cILLOP)
    let s ← now
    let q := quadOf s.core.phys.toNat
    let m := s.tmode q
    upd fun s => s.modM fun k => { k with tmode := Sparse.put 0 k.tmode q ((if a.getLsbD 0 then 2 else 0) ||| (m &&& 1)) }
    wrS rd (if m.getLsbD 0 then 1 else 0)

end Sys2Proof.Machine
end

