-- ==== Sys2Proof/Machine/Tasks.lean ====
section
/-! DEFINITION. Class 12, tasks and barriers, and the banksman (13_tasks_scheduling.md R317 to R340): one definition per instruction and
per event of the scheduler. -/

namespace Sys2Proof.Machine

/-! ### Launch records (R317, R318) -/

/-- n little-endian bytes of a record at an offset. -/
def fld (r : List Byte) (o n : Nat) : Nat := leNat ((r.drop o).take n)

/-- Whether a byte range of a record is zero. -/
def zeroAt (r : List Byte) (o n : Nat) : Bool := ((r.drop o).take n).all (· == 0)

/-- The fields of a launch record the banksman uses. -/
def lrCode (r : List Byte) : Word := BitVec.ofNat 64 (fld r 0 8)
def lrArgs (r : List Byte) : Word := BitVec.ofNat 64 (fld r 8 8)
def lrFrame (r : List Byte) : Word := BitVec.ofNat 64 (fld r 16 8)
def lrCtx (r : List Byte) : BitVec 12 := BitVec.ofNat 12 (fld r 24 2)
def lrPrio (r : List Byte) : BitVec 2 := BitVec.ofNat 2 (fld r 26 1)
def lrMind (r : List Byte) : Nat := fld r 27 1
def lrMaxd (r : List Byte) : Nat := fld r 28 1
def lrPlumb (r : List Byte) : Bool := fld r 29 1 = 1
def lrNest (r : List Byte) : Bool := fld r 30 1 = 1
def lrBufd (r : List Byte) : Bool := fld r 31 1 % 2 = 1
def lrN (r : List Byte) (i : Nat) : Nat := fld r (32 + 4 * i) 4
def lrPodg (r : List Byte) : BitVec 32 := BitVec.ofNat 32 (fld r 52 4)

/-- Whether PERM names each dimension once (R318). -/
def permutation (p : Nat) : Bool := (List.range 4).all fun d => (List.range 4).any fun i => (p / 4 ^ i) % 4 = d

/-- The check of a launch record (R318); for a device launch against the launching task's priority and context. -/
def launchOk (r : List Byte) (dev : Option (BitVec 2 × BitVec 12)) : Bool :=
  let rsv := fld r 24 2 < 4096 && fld r 26 1 < 4 && fld r 31 1 < 2 && zeroAt r 49 3 && zeroAt r 56 72
  let dies := 1 ≤ lrMind r && lrMind r ≤ 4 && lrMind r ≤ lrMaxd r && lrMaxd r ≤ 4
  let prod := lrN r 0 * lrN r 1 * lrN r 2 * lrN r 3
  let form := if fld r 30 1 = 1 then permutation (fld r 48 1) && prod != 0 && prod ≤ 2 ^ 48
    else zeroAt r 32 17
  rsv && dies && fld r 29 1 ≤ 1 && fld r 30 1 ≤ 1 && form &&
  (match dev with | none => true | some (p, c) => (lrPrio r).toNat ≤ p.toNat && lrCtx r = c)

/-- Accepts a launch: its identifier, its root record in the queue of its priority, in the pool or in the context's ring (R324, R325, R389). -/
def State.accept (s : State) (r : List Byte) (host : Bool) (depth : BitVec 5) (join : Word) (prio : BitVec 2) : State :=
  let l : Launch :=
    { id := s.sched.nextLaunch, ctx := lrCtx r, lid := s.sched.nextLid, image := r, prio := prio, host := host, depth := depth, join := join,
      mask := 0, steps := 0, live := 1, started := false, redis := none, pooled := s.toPool (lrCtx r) prio, disp := 0 }
  let s := s.modS fun c => { c with launches := c.launches ++ [l], nextLaunch := c.nextLaunch + 1, nextLid := c.nextLid + 1 }
  let s := s.pushAt l.pooled prio l.ctx l.id .root
  -- the record log (R385): one entry of kind 1 and the record in two of kind 5
  let by_ := if host then s.rrLaunch l.ctx else s.launch s.core.t.id.launch
  let s := s.rrAppend l.ctx (rrEntry 1 0 0 (Launch.rrStep by_) (Launch.rrTcyc by_ s.now) (lrCode r) [])
  let s := s.rrAppend l.ctx (5 :: (r.take 64).drop 1)
  s.rrAppend l.ctx (5 :: (r.drop 64).drop 1)

/-! ### LAUNCH, TEND, JOIN -/

/-- Runs a body after a COMMIT that stands even when the body raises a fault (R328, R7). -/
def afterCommit (m : M Unit) : M Unit := fun s =>
  match commitM s with
  | .error e => .error e
  | .ok (_, c) =>
    match m c with
    | .ok r => .ok r
    | .error (.fault f, s') => .error (.late f, keepFills c s')
    | .error e => .error e

/-- A direct-class page for a read or a write of the running task; another class raises PROT (R328). -/
def xlateDirect (va : Word) (a : Acc) : M Xl := do
  let x ← xlate va a
  failIf (x.cls != 1) (.at cPROT va)
  pure x

/-- Whether a continuation record has a non-zero reserved bit (R323). -/
def contBad (r : List Byte) : Bool := !zeroAt r 44 20 || 4 ≤ fld r 40 1 || 32 ≤ fld r 41 1 || 4096 ≤ fld r 42 2

/-- The count of a join record is raised before the child is queued (R328); the answer is its physical address. -/
def joinTarget (b : Word) : M (Option Nat) := do
  if b = 0 then pure none
  else
    let x ← xlateDirect b .w
    let s ← now
    failIf (s.homePois (x.pa + 24)) (.at cPOISON b)
    pure (some x.pa)

/-- Status 1 to 3 of LAUNCH, or 0 with the join count raised (R328). -/
def launchAdmit (prio : BitVec 2) (join : Option Nat) (s : State) : Nat × State :=
  if 31 ≤ s.core.t.id.depth.toNat then (1, s)
  else if s.noRoom s.cid prio then (2, s)
  else match join with
    | none => (0, s)
    | some pa =>
      let j := s.homeLe (pa + 24) 4
      if j % 2 ^ 31 = 2 ^ 31 - 1 then (3, s) else (0, s.homeWriteLe (pa + 24) 4 (j + 1))

/-- LAUNCH of a task form (R328). -/
def execLaunch (rd ra rb : Reg) (s : State) : Out :=
  ccNext s false (afterCommit do
    let a ← rdS ra
    let b ← rdS rb
    failIf (a.toNat % 64 != 0 || b.toNat % 64 != 0) (.cc cALIGN)
    let x ← xlateDirect a .w
    let j ← joinTarget b
    let s ← now
    failIf (s.homePoisN x.pa 64) (.at cPOISON a)
    let r := s.homeBytes x.pa 64
    let t := s.core.t.id
    failIf (contBad r || t.prio.toNat < fld r 40 1) (.cc cLAUNCH)
    let prio := BitVec.ofNat 2 (fld r 40 1)
    let (st, s1) := launchAdmit prio j s
    if st = 0 then
      let s2 := ((((s1.homeWriteLe (x.pa + 24) 4 0).homeWriteLe (x.pa + 28) 4 t.lid.toNat).homeWriteLe (x.pa + 32) 8
        b.toNat).homeWriteLe (x.pa + 41) 1 (t.depth.toNat + 1)).homeWriteLe (x.pa + 42) 2 t.ctx.toNat
      upd fun _ => (s2.pushReady prio t.ctx t.launch (.record a)).modL t.launch fun l => { l with live := l.live + 1 }
      capture 0xC0 0 (wrS rd)
    else capture 0xC0 (BitVec.ofNat 64 st) (wrS rd))

/-- The launch record of the log entry of kind 1 at an index (R385): CODE gives the first byte, which kind 5 stands over in each half; that of the second
half is reserved, zero (R317). -/
def State.rrRecord (s : State) (ctx : BitVec 12) (i : Nat) : Option (List Byte) :=
  match s.rrRead ctx i, s.rrRead ctx (i + 1), s.rrRead ctx (i + 2) with
  | some e, some a, some b => if (e.headD 0).toNat = 1 then some ((e.getD 16 0 :: a.drop 1) ++ (0 :: b.drop 1)) else none
  | _, _, _ => none

/-- The first log entry from an index on that holds a launch record and that no device launch has taken yet. -/
def State.rrOwn (s : State) (ctx : BitVec 12) (r : List Byte) : Nat → Nat → Option Nat
  | 0, _ => none
  | n + 1, i =>
    if (s.rrRead ctx i).isNone then none
    else if s.rrRecord ctx i = some r && !(s.ctx ctx).rdev.contains i then some i
    else s.rrOwn ctx r n (i + 1)

/-- A device launch is queued (R328, R324). In replay mode it takes its own entry from the log, wherever that stands, so that the log does not launch it
again; where the log has launched it already, that launch is its own (R386). DEDUCED (log 54). -/
def State.acceptOwn (s : State) (r : List Byte) (depth : BitVec 5) (join : Word) (ctx : BitVec 12) : State :=
  let x := s.ctx ctx
  let new := s.accept r false depth join (lrPrio r)
  if x.rrctl.extractLsb' 0 2 != 2 then new
  else match s.rrOwn ctx r (2 ^ (x.rrbase.extractLsb' 0 6).toNat) x.rpos[1] with
    | some i => new.modX ctx fun x => { x with rdev := i :: x.rdev }
    | none => match s.sched.launches.find? fun l => l.host && l.ctx = ctx && l.image = r with
      | some l => s.modL l.id fun l => { l with host := false, depth := depth, join := join }
      | none => new

/-- LAUNCH.rec (R328, R318, R324). -/
def execLaunchRec (rd ra rb : Reg) (s : State) : Out :=
  ccNext s false (afterCommit do
    let a ← rdS ra
    let b ← rdS rb
    failIf (a.toNat % 128 != 0 || b.toNat % 64 != 0) (.cc cALIGN)
    let x ← xlateDirect a .r
    let j ← joinTarget b
    let s ← now
    failIf (s.homePoisN x.pa 128) (.at cPOISON a)
    let r := s.homeBytes x.pa 128
    let t := s.core.t.id
    failIf (!launchOk r (some (t.prio, t.ctx))) (.cc cLAUNCH)
    let (st, s1) := launchAdmit (lrPrio r) j s
    if st = 0 then
      upd fun _ => s1.acceptOwn r (t.depth + 1) b t.ctx
      capture 0xC0 0 (wrS rd)
    else capture 0xC0 (BitVec.ofNat 64 st) (wrS rd))

/-- Whether a closure COLL of the task has not completed (R363); whether one that has not issued asks for a closure is not known yet. -/
def closurePending (s : State) : Bool :=
  (s.colls.any fun c => c.uid = s.core.t.id.uid && c.ph ≠ 4 && c.req.flg % 2 = 1) ||
  s.core.t.q.store.any fun k => !k.done && (match k.instr with | .coll .. => true | _ => false)

/-- Checks 1 to 3 of TEND and JOIN (R329): an open tile, a pending MISCLOSE, a pending BAROVR. Each pending fault is taken once. Closure
COLLs complete first (R363). -/
def endChecks : M Unit := fun s =>
  let t := s.core.t
  if closurePending s then wait s
  else if t.tile.opened then .error (.fault (.cc cILLOP), s)
  else if t.pend.misclose then raiseLate (.cc cMISCLOSE) (·.modT fun t => { t with pend := { t.pend with misclose := false } }) s
  else if t.pend.barovr then raiseLate (.cc cBAROVR) (·.modT fun t => { t with pend := { t.pend with barovr := false } }) s
  else .ok ((), s)

/-- The end of the running task after its writes are published (R329). -/
def State.endTask (s : State) : State :=
  let t := s.core.t.id
  ((s.dropStack.departAll t.uid).taskGone t.launch).leaveCore

/-- TEND (R329). -/
def execTend (s : State) : Out :=
  cc s false do
    endChecks
    let s ← now
    let t := s.core.t.id
    if t.parent = 0 then do commitM; upd State.endTask
    else
      match joinAddr s t.ctx t.parent with
      | (s1, .error (c, l)) => do
        upd fun _ => s1
        raise (.at c t.parent (BitVec.ofNat 3 l))
      | (s1, .ok pa) => do
        upd fun _ => s1
        commitM
        upd fun s => ((s.departAll t.uid).decJoin t.ctx t.launch t.parent pa t.lid).endTask

/-- JOIN (R330): parks the continuation, or queues it when no child is unfinished; the launch keeps counting it. -/
def execJoin (ra : Reg) (s : State) : Out :=
  cc s false do
    endChecks
    let a ← rdS ra
    failIf (a.toNat % 64 != 0) (.at cALIGN a)
    let s ← now
    let t := s.core.t.id
    let x ← xlateAs a .w true
    failIf (x.cls != 1) (.at cPROT a)
    failIf (contBad (s.homeBytes x.pa 64)) (.cc cLAUNCH)
    failIf (s.homePois (x.pa + 24)) (.at cPOISON a)
    commitM
    upd fun s =>
      let s := s.dropStack.departAll t.uid
      let j := s.homeLe (x.pa + 24) 4
      let s := if j % 2 ^ 31 = 0 then s.pushReady (BitVec.ofNat 2 (s.homeLe (x.pa + 40) 1)) t.ctx t.launch (.record a)
        else (s.modS fun c => { c with parked := (x.pa, t.launch) :: c.parked.filter (·.1 ≠ x.pa) }).homeWriteLe (x.pa + 24) 4 (j % 2 ^ 31 + 2 ^ 31)
      s.leaveCore

/-! ### Pre-emption (R331, R339) -/

/-- The buffer bytes that are saved where the launch discards its buffers: the visible banks, which belong to the accumulators (R242, R376), and the
landing slots (R354). -/
def keptBuffers (c : Core) : Buffers :=
  let inSlot (o : Nat) : Bool := c.t.chans.toList.any fun e => e.conf && e.b.toNat ≤ o && o < e.b.toNat + 4 * (e.x.slotu.toNat * 512)
  { Buffers.zero with ab := c.buf.ab.filter fun p => inSlot p.1, abPois := c.buf.abPois.filter fun w => inSlot (8 * w),
                      abFail := c.buf.abFail.filter fun w => inSlot (8 * w), cb := c.buf.cb.filter fun p => p.1 < 32768,
                      cbPois := c.buf.cbPois.filter (· < 32768), cbFail := c.buf.cbFail.filter (· < 32768) }

/-- Saves the task's context, with what the core holds for it, and queues its continuation at the tail of its current priority (R339): a nest task for its
own core. -/
def State.preempt (s : State) : State :=
  let c := s.core
  let t := { c.t with cycles := c.t.cycles + (s.now - c.csince), away := ⟨c.entry, c.stopped, c.epend, c.phys⟩ }
  let buf := if t.id.bufd then keptBuffers c else c.buf
  (s.pushReady t.id.prio t.id.ctx t.id.launch (.resume t buf (if t.id.nest then some c.phys else none))).idleCore

/-- YIELD (R331): the PC saved is the next instruction's. -/
def execYield (s : State) : Out := cc s false (upd fun s => (s.advance 1).preempt)

/-- PRIO (R331). -/
def execPrio (ra : Reg) (s : State) : Out :=
  ccNext s false do
    let a ← rdS ra
    let s ← now
    failIf (a.extractLsb' 2 62 != 0 || s.core.t.id.maxPrio.toNat < a.toNat) (.cc cILLOP)
    upd fun s => s.modT fun t => { t with id := { t.id with prio := a.extractLsb' 0 2 } }

/-! ### Dies and cores (R319, R320) -/

/-- Whether a die is eligible for a launch (R320). -/
def dieEligible (s : State) (l : Launch) (d : Nat) : Bool :=
  let plumb := lrPlumb l.image
  let quads := (List.range 16).map (16 * d + ·)
  let inMode (q : Nat) : Bool := (s.tmode q).getLsbD 1 = plumb
  (if lrNest l.image then quads.all inMode else quads.any inMode) &&
  !quads.any (s.plat.thermal.contains ·) &&
  (!lrNest l.image || s.cores.all fun c =>
    dieOf c.phys.toNat ≠ d || ((c.reserved = none || c.reserved = some l.id) && !c.health.suspect))

/-- Dies of a mask, ascending. -/
def diesOf (m : BitVec 4) : List Nat := (List.range 4).filter fun d => m.getLsbD d

/-- A mask of dies. -/
def maskOf (l : List Nat) : BitVec 4 := l.foldl (fun m d => m ||| (1#4 <<< d)) 0

/-- The dies a launch admits (R320): a pool launch keeps what is still eligible and fills up with the lowest eligible ones; a nest launch
takes the lowest ones. Fewer than MIND: none. -/
def admitDies (s : State) (l : Launch) : List Nat :=
  let el := (List.range 4).filter (dieEligible s l)
  let keep := if lrNest l.image then [] else (diesOf l.mask).filter el.contains
  let more := (el.filter fun d => !keep.contains d).take (lrMaxd l.image - keep.length)
  let all := (List.range 4).filter fun d => keep.contains d || more.contains d
  if all.length < lrMind l.image then [] else all

/-- Logical index of a core among admitted dies (R319). -/
def logical (dies : List Nat) (c : Nat) : Nat := 64 * (dies.idxOf (dieOf c)) + c % 64

/-- Physical core of a logical index (R319). -/
def physical (dies : List Nat) (i : Nat) : Nat := 64 * (dies.getD (i / 64) 0) + i % 64

/-- DIESET (R345). -/
def diesetWord (steps : Nat) (dies : List Nat) : Word :=
  BitVec.ofNat 64 ((steps % 2 ^ 32) * 2 ^ 32 + 16 * dies.length + (maskOf dies).toNat)

/-- Whether a quad's clock may switch (R24, R156): no task runs on it and no pre-empted nest task is pinned to its cores. -/
def quadIdle (s : State) (q : Nat) : Bool :=
  (s.cores.all fun c => quadOf c.phys.toNat ≠ q || !c.running) &&
  !s.sched.ready.any fun r => match r.work with | .resume _ _ (some c) => quadOf c.toNat = q | _ => false

/-- Whether a task of a mode can be dispatched to a quad now (R24, R156): the quad is assigned to the mode and its clock runs in it or may
switch; a nest task pinned there resumes in its own mode. -/
def quadReady (s : State) (q : Nat) (plumb pinned : Bool) : Bool :=
  let m := s.tmode q
  if pinned then m.getLsbD 0 = plumb else m.getLsbD 1 = plumb && (m.getLsbD 0 = plumb || quadIdle s q)

/-- Switches a quad's clock to NEXT (R156). -/
def State.switchQuad (s : State) (q : Nat) : State :=
  let m := s.tmode q
  s.modM fun k => { k with tmode := Sparse.put 0 k.tmode q ((m &&& 2) ||| (if m.getLsbD 1 then 1 else 0)) }

/-- The clock of the quad in focus runs in a task's mode before the task is dispatched there (R24). -/
def State.clockFor (s : State) (plumb : Bool) : State :=
  let q := quadOf s.core.phys.toNat
  if (s.tmode q).getLsbD 0 = plumb then s else s.switchQuad q

/-- Whether a core can take a task: idle, healthy, its quad not held (R26, R320, R379, R397). -/
def coreFree (s : State) (c : Nat) : Bool :=
  let k := s.coreAt c
  !k.running && !k.draining && !k.health.halted && !k.health.suspect && !s.plat.thermal.contains (quadOf c)

/-! ### Dispatch (R33, R134, R321, R334) -/

/-- Starts a task on the core in focus: registers, timelines and view as R334 gives them, RD of the STEPB over the others (R333), the timeline area zeroed,
CODE checked by R33. Wherever it starts,
the PC has been reached by an entry (R28): also behind a STEPB (R333). DEDUCED (log 11). DEDUCED (log 60). -/
def State.startTask (s : State) (id : TaskId) (dies : List Nat) (steps : Nat) (code args frame : Word)
    (regs : List (Reg × Word)) (rd : Option (Reg × Word)) (checkTgt : Bool) : State :=
  let all : List (Reg × Word) := regs ++ [(60, args), (61, id.lid.setWidth 64), (62, frame)] ++ rd.toList
  let r := all.foldl (fun (r : Regs) (p : Reg × Word) => r.wrS p.1 p.2) Regs.zero
  let s := s.clockFor id.plumb
  let rcfg := (s.ctx id.ctx).rcfg
  let y : TaskSys := { TaskSys.zero with dieset := diesetWord steps dies }
  let t : Task := { Task.zero with id := id, pc := code, regs := r, rcfg := rcfg, sys := y }
  let s := s.modC fun c =>
    { c with running := true, waiting := false, stopped := false, entry := true, reserved := none, t := t, hold := none, ckpt := [],
             csince := s.now,
             buf := { c.buf with cb := c.buf.cb.clearRange 0 32768, cbPois := c.buf.cbPois.filter (32768 ≤ ·),
                                 cbFail := c.buf.cbFail.filter (32768 ≤ ·) } }
  let s := s.joinBars id s.core.phys
  let s := [0, 1, 2, 3].foldl (fun s k => s.timelineWrite id.ctx id.slot k 0) s
  if !checkTgt then s
  else if code.extractLsb' 0 3 != 0 then takeTrap (.at cALIGN code) code s
  else match targetCheck code s with
    | (s', some c) => takeTrap (.cc c) code s'
    | (s', none) => s'

/-- Resumes a saved task on the core in focus with what the core held for it (R23, R339); a pool task has the index its core has among the admitted dies,
and keeps the one it had on a die that is none of them (R156). -/
def State.resumeTask (s : State) (t : Task) (buf : Buffers) (dies : List Nat) : State :=
  let c := s.core.phys.toNat
  let t := if t.id.nest || !dies.contains (dieOf c) then t else { t with id := { t.id with logi := BitVec.ofNat 8 (logical dies c) } }
  (s.clockFor t.id.plumb).modC fun c =>
    { c with running := true, waiting := false, stopped := t.away.stopped, entry := t.away.entry, epend := t.away.epend, hold := none, ckpt := [],
             t := t, csince := s.now, buf := buf }

/-- Whether a saved pool task may resume on a core: members of QUAD and DIE instances stay within theirs (R335). -/
def resumeHere (s : State) (t : Task) (c : Nat) : Bool :=
  s.sched.bars.all fun r => !(r.members.contains t.id.uid && !r.phaseBar) ||
    (match r.sc with | .quad => r.unit = quadOf c | .die => r.unit = dieOf c | _ => true)

/-- Whether a pool task that was pre-empted on a core's quad may resume there in its own mode although the quad, or its whole die, has been assigned to the
other one since (R156): while the quad's clock has not switched. -/
def backHere (s : State) (t : Task) (c : Nat) : Bool :=
  let q := quadOf c
  quadOf t.away.phys.toNat = q && (s.tmode q).getLsbD 0 = t.id.plumb && !quadIdle s q &&
  !((List.range 16).map (16 * dieOf c + ·)).any (s.plat.thermal.contains ·)

/-- Whether an entry is the start of a nest launch, which needs every core of its dies (R319). -/
def nestRoot (s : State) (r : Ready) : Bool := r.work = .root && (s.launch r.launch).any fun l => lrNest l.image

/-- The dies on which a nest launch that waits can start (R320): none while fewer than MIND are eligible, or while other tasks of its context hold
slots of it (R321). -/
def nestDies (s : State) (l : Launch) : List Nat :=
  let dies := if l.redis.isSome then diesOf l.mask else admitDies s l
  if s.liveTasks.all fun t => t.1.ctx ≠ l.ctx || 64 * dies.length ≤ t.1.slot.toNat then dies else []

/-- The dies an entry's launch admits (R320). -/
def readyDies (s : State) (r : Ready) : List Nat :=
  match s.launch r.launch with
  | none => []
  | some l => if nestRoot s r then nestDies s l else if lrNest l.image then diesOf l.mask else admitDies s l

/-- Whether an entry can be dispatched to a core now (R319 to R321); one in a ring only where the device can read it there (R134). -/
def canTake (s : State) (r : Ready) (c : Nat) : Bool :=
  match s.launch r.launch with
  | none => false
  | some l =>
    let ready (pinned : Bool) : Bool := quadReady s (quadOf c) (lrPlumb l.image) pinned
    let die : Bool := (readyDies s r).contains (dieOf c)
    coreFree s c && (s.coreAt c).reserved = none && (r.ring.all fun x => (s.ringRead r x).isSome) &&
    (match r.work with
      | .root => ready false && !lrNest l.image && die && (s.freeSlot r.ctx).isSome
      | .record _ => ready false && die && (s.freeSlot r.ctx).isSome
      | .resume t _ (some k) => ready true && k.toNat = c && t.id.nest
      | .resume t _ none => (ready false && die || backHere s t c) && resumeHere s t c)

/-- Numbers without repeats, ascending. -/
def ascending (l : List Nat) : List Nat := l.foldl setIns []

/-- The entries in the order the banksman serves them (R326): highest level first; within a level the contexts in turn from the one after that
served last; of a context in push order. -/
def serveOrder (s : State) : List (Nat × Ready) :=
  let e := (List.range s.sched.ready.length).zip s.sched.ready
  [3, 2, 1, 0].flatMap fun p =>
    let l := e.filter fun x => x.2.prio.toNat = p
    let cs := ascending (l.map (·.2.ctx.toNat))
    let rr := s.sched.rr.toList.getD p 0
    ((cs.filter (rr < ·)) ++ cs.filter (· ≤ rr)).flatMap fun c => l.filter fun x => x.2.ctx.toNat = c

/-- Removes an entry of the queues. -/
def State.unready (s : State) (i : Nat) : State :=
  s.modS fun c => { c with ready := c.ready.eraseIdx i }

/-- The first entry that some core can take, with the core: the one in focus where it can, else the lowest. No entry takes a core of the dies on which
a nest launch before it in turn can start (R319, R326). DESIGN CHOICE (log 41). -/
def pickFrom (s : State) : List (Nat × Ready) → List Nat → Option (Nat × Ready × Nat)
  | [], _ => none
  | (i, r) :: l, held =>
    if nestRoot s r then pickFrom s l (held ++ readyDies s r)
    else match (s.core.phys.toNat :: List.range 256).find? fun c => !held.contains (dieOf c) && canTake s r c with
      | some c => some (i, r, c)
      | none => pickFrom s l held

/-- The entry that is dispatched next, and its core. DESIGN CHOICE (log 41). -/
def pickDispatch (s : State) : Option (Nat × Ready × Nat) := pickFrom s (serveOrder s) []

/-- An entry has been served at its level (R326). -/
def State.served (s : State) (i : Nat) (r : Ready) : State :=
  (s.unready i).modS fun k => { k with rr := k.rr.set r.prio.toNat r.ctx.toNat }

/-- The 64-byte record from which an entry starts: as the device reads it in the ring (R134), as it stands at its address, or the one the banksman keeps
of a root task (R324). -/
def State.recordOf (s : State) (r : Ready) : List Byte :=
  (r.ring.bind (s.ringRead r)).getD (s.workBytes r.ctx r.launch r.work)

/-- Dispatches an entry to a core (R326, R334). -/
def State.dispatch (s : State) (i : Nat) (r : Ready) (c : Nat) : State :=
  match s.launch r.launch with
  | none => s
  | some l =>
    let nest := lrNest l.image
    let dies := if nest then diesOf l.mask else admitDies s l
    let img := s.recordOf r
    let s := s.served i r
    let s := if nest then s else s.modL l.id fun l =>
      { l with mask := maskOf dies, started := true, disp := if l.started then l.disp else s.now }
    let s := s.focus (BitVec.ofNat 8 c)
    let uid := s.sched.nextUid
    let base : TaskId :=
      { uid := uid, launch := l.id, record := 0, parent := 0, lid := l.lid, prio := l.prio, maxPrio := l.prio,
        depth := l.depth, slot := (s.freeSlot l.ctx).getD 0, ctx := l.ctx, nest := nest,
        logi := BitVec.ofNat 8 (logical dies c), plumb := lrPlumb l.image, bufd := lrBufd l.image, podg := lrPodg l.image }
    let start (id : TaskId) : State :=
      (s.modS fun k => { k with nextUid := uid + 1 }).startTask id dies l.steps (BitVec.ofNat 64 (fld img 0 8))
        (BitVec.ofNat 64 (fld img 16 8)) (BitVec.ofNat 64 (fld img 8 8)) [] none true
    match r.work with
    | .resume t b _ => s.resumeTask t b dies
    | .root => start base
    | .record a =>
      let p := BitVec.ofNat 2 (fld img 40 1)
      start { base with record := a, parent := BitVec.ofNat 64 (fld img 32 8), lid := BitVec.ofNat 32 (fld img 28 4),
                        prio := p, maxPrio := p, depth := BitVec.ofNat 5 (fld img 41 1) }

/-- TASK_DISPATCH (R326, R334): the first entry some idle core can take. -/
def execTaskDispatch (s : State) : Out :=
  .next (if !s.plat.fwOk then s else match pickDispatch s with | some (i, r, c) => s.dispatch i r c | none => s)

/-- A nest launch's slice bounds (R322). -/
def sliceOf (t p c : Nat) : Word × Word := (BitVec.ofNat 64 (c * t / p), BitVec.ofNat 64 ((c + 1) * t / p))

/-- Starts the P tasks of a nest launch, one after the other in one step (R319, R322, R334). -/
def State.startNest (s : State) (l : Launch) (dies : List Nat) : State :=
  let p := 64 * dies.length
  let t := lrN l.image 0 * lrN l.image 1 * lrN l.image 2 * lrN l.image 3
  (List.range p).foldl (fun s c =>
    let s := s.focus (BitVec.ofNat 8 (physical dies c))
    let uid := s.sched.nextUid
    let id : TaskId :=
      { uid := uid, launch := l.id, record := 0, parent := 0, lid := l.lid, prio := l.prio, maxPrio := l.prio,
        depth := l.depth, slot := BitVec.ofNat 8 c, ctx := l.ctx, nest := true, logi := BitVec.ofNat 8 c,
        plumb := lrPlumb l.image, bufd := lrBufd l.image, podg := lrPodg l.image }
    let (lo, hi) := sliceOf t p c
    let base : List (Reg × Word) := [(1, lo), (2, hi), (3, BitVec.ofNat 64 c), (4, BitVec.ofNat 64 p)]
    (s.modS fun k => { k with nextUid := uid + 1 }).startTask id dies l.steps ((l.redis.map (·.1)).getD (lrCode l.image)) (lrArgs l.image)
      (lrFrame l.image) base (l.redis.map fun p => (p.2, BitVec.ofNat 64 (2 * l.steps + 1))) l.redis.isNone) s

/-- The physical cores of the P tasks of a nest launch on its dies (R319). -/
def nestCores (dies : List Nat) : List Nat := (List.range (64 * dies.length)).map (physical dies)

/-- A nest launch that waits reserves the cores of its dies that are idle, and no others (R319). -/
def State.reserve (s : State) (l : Launch) : State :=
  let want := nestCores (nestDies s l)
  let s := s.mapCores fun c => if c.reserved = some l.id && !want.contains c.phys.toNat then { c with reserved := none } else c
  (want.filter fun c => coreFree s c && (s.coreAt c).reserved = none).foldl (fun (s : State) c =>
    s.setCore c { s.coreAt c with reserved := some l.id }) s

/-- Whether the last core of a nest launch is free and reserved for it, in quads of its mode (R319, R24). -/
def nestReady (s : State) (l : Launch) : Bool :=
  let want := nestCores (nestDies s l)
  !want.isEmpty && want.all fun c =>
    coreFree s c && (s.coreAt c).reserved = some l.id && quadReady s (quadOf c) (lrPlumb l.image) false

/-- NEST_LAUNCH_DISPATCH (R319, R340): every nest launch that waits reserves in its turn the idle cores of its dies, and the first one whose last
core is free starts all its tasks. -/
def execNestLaunchDispatch (s : State) : Out :=
  .next <|
  if !s.plat.fwOk then s
  else
    let waits (s : State) : List (Nat × Ready × Launch) := (serveOrder s).filterMap fun (i, r) =>
      if nestRoot s r && (r.ring.all fun x => (s.ringRead r x).isSome) then (s.launch r.launch).map fun l => (i, r, l) else none
    let s1 := (waits s).foldl (fun s x => s.reserve x.2.2) s
    match (waits s1).find? fun x => nestReady s1 x.2.2 with
    | none => s1
    | some (i, r, l) =>
      let dies := nestDies s1 l
      let s2 := (s1.served i r).modL l.id fun k =>
        { k with mask := maskOf dies, started := true, disp := if k.started then k.disp else s.now, live := k.live - 1 + 64 * dies.length, redis := none }
      (s2.startNest l dies).focus s1.core.phys

/-- RECORD_AGING (R326): a record that has waited 2^20 cycles at its level moves to the tail of the next higher level. -/
def execRecordAging (s : State) : Out :=
  .next <| s.modS fun c =>
    let old (r : Ready) : Bool := r.prio.toNat < 3 && r.since + 2 ^ 20 ≤ s.now
    { c with ready := c.ready.filter (!old ·) ++
        (c.ready.filter old).map fun r => { r with prio := r.prio + 1, since := s.now } }

/-- Whether a channel end of a task is at rest (R354): no valid slot, no bound slot, no CHSEND in flight. -/
def chanIdle (t : Task) (n : Nat) (e : ChEnd) : Bool :=
  !e.conf || (e.slots.toList.all fun q => !q.valid && q.own.isNone) &&
    !t.q.store.any fun k => !k.done && (match k.instr with | .chsendFw _ m _ | .chsendRv _ m _ => m.toNat = n | _ => false)

/-- Whether the task on a core may be pre-empted (R339, R354, R379): by force not in plumb mode and not while it holds a channel, at STEPB only with
every channel at rest; not from a suspect core when it is a nest task. -/
def preemptible (c : Core) (forced : Bool) : Bool :=
  c.running && !c.health.halted && (!forced || !c.t.id.plumb) &&
  (if forced then !(c.t.chans.toList.any (·.conf))
   else ((List.range 8).zip c.t.chans.toList).all fun x => chanIdle c.t x.1 x.2) &&
  !(c.health.suspect && c.t.id.nest)

/-- Whether a waiting entry could replace the task on a core (R339): a lower current priority, on a core the entry can go to. -/
def couldReplace (s : State) (r : Ready) (c : Core) : Bool :=
  c.t.id.prio.toNat < r.prio.toNat && (readyDies s r).contains (dieOf c.phys.toNat) &&
  (match r.work with
   | .resume _ _ (some k) => k = c.phys
   | .resume t _ none => resumeHere s t c.phys.toNat
   | _ => (s.freeSlot r.ctx).isSome)

/-- Whether an entry has to wait for a running task to give way: no idle core can take it. -/
def stillWaits (s : State) (r : Ready) : Bool := nestRoot s r || !(List.range 256).any (canTake s r)

/-- Whether a waiting record of higher priority takes the core at STEPB (R339): its task is one of the lowest current priority among those the
record could replace. DEDUCED (log 62). -/
def wantsCore (s : State) (c : Core) : Bool :=
  s.sched.ready.any fun r => couldReplace s r c && stillWaits s r &&
    (nestRoot s r || s.cores.all fun d => !(preemptible d true && couldReplace s r d) || c.t.id.prio.toNat ≤ d.t.id.prio.toNat)

/-- FORCED_PREEMPTION (R339): for a record that has waited PRETHR cycles, one of the tasks of lowest current priority it could replace; which
one is the banksman's choice. DESIGN CHOICE (log 41). -/
def execForcedPreemption (s : State) : Out :=
  .next <|
  let thr := s.sched.prethr.toNat
  if thr = 0 then s
  else match s.sched.ready.find? fun r => r.born + thr ≤ s.now && stillWaits s r && s.cores.any fun c => preemptible c true && couldReplace s r c with
  | none => s
  | some r =>
    let cand := s.cores.filter fun c => preemptible c true && couldReplace s r c
    let low := cand.foldl (fun m c => min m c.t.id.prio.toNat) 3
    let cand := cand.filter fun c => c.t.id.prio.toNat = low
    match cand[Config.freeChoice s.fresh % cand.length]? with
    | none => s
    | some c =>
      let back := s.core.phys
      ((({ s with fresh := s.fresh + 1 }.focus c.phys).modC Core.uncommit).preempt).focus back

/-- QUAD_CLOCK_SWITCH (R24, R156): only while no task runs on the quad and no pre-empted nest task is pinned to its cores. -/
def execQuadClockSwitch (quad : BitVec 6) (s : State) : Out :=
  .next (if quadIdle s quad.toNat then s.switchQuad quad.toNat else s)

/-! ### STEPB (R333) -/

/-- The publish, merge and acquire of STEPB in a pool launch, and a pre-emption point (R333, R339). -/
def stepPreempt (s : State) : State := if preemptible s.core false && wantsCore s s.core then s.preempt else s

/-- The dies a launch admits at a STEPB: those it admits now (R320), in replay mode those of the logged die set, which is taken (R386). -/
def State.stepDies (s : State) (l : Launch) : State × List Nat :=
  match s.rrTake l.ctx 3 with
  | some (i, e) =>
    let d := diesOf (BitVec.ofNat 4 (fld e 16 1))
    (s.modX l.ctx fun x => { x with rpos := x.rpos.set 3 (i + 1) }, if d.isEmpty then admitDies s l else d)
  | none => (s, admitDies s l)

/-- The die set at a STEPB is logged in record mode (R385). -/
def State.logDies (s : State) (l : Launch) (w : Word) : State := s.rrAppend l.ctx (rrEntry 3 0 0 l.steps 0 w [])

/-- The banksman writes DIESET at a pool task's STEPB (R320, R345, R385, R386). -/
def State.poolStep (s : State) : State :=
  match s.launch s.core.t.id.launch with
  | none => s
  | some l =>
    let (s, dies) := s.stepDies l
    let w := diesetWord l.steps (if dies.isEmpty then diesOf l.mask else dies)
    (s.logDies l w).modY fun y => { y with dieset := w }

/-- STEPB (R333): a pool task publishes and acquires as PHASE.core does; a nest task sends its packet, arrives and waits for the step to
complete. A pending MISCLOSE is delivered here. -/
def execStepb (rd : Reg) (s : State) : Out :=
  cc s false fun s =>
    let t := s.core.t
    match t.phase with
    | .held _ _ _ => wait s
    | .merged _ _ _ =>
      match t.pend.refused with
      | some c => raiseLate (.cc c) (·.modT fun t => { t with phase := .idle }) s
      | none =>
      let steps := ((s.launch t.id.launch).map (·.steps)).getD 0
      let s1 := (((s.acquire.modT fun t => { t with phase := .idle }).setS rd (BitVec.ofNat 64 (2 * steps))).advance 1)
      if t.pend.barbrk then
        raiseLate (.cc cBARBRK) (fun _ => s1.modT fun t => { t with pend := { t.pend with barbrk := false } }) s
      else .ok ((), stepPreempt s1)
    | .idle =>
      if closurePending s then wait s
      else if t.pend.misclose then
        raiseLate (.cc cMISCLOSE) (·.modT fun t => { t with pend := { t.pend with misclose := false } }) s
      else if s.heldDirty fun _ => true then wait s
      else if !t.id.nest then (do commitM; upd fun s => stepPreempt ((s.acquire.poolStep.setS rd 0).advance 1) : M Unit) s
      else stay (fun s => (phaseSend s .lane true rd).modC fun c => { c with waiting := true }) s

/-! ### Merges (R126, R127, R333) -/

/-- Applies one held packet; refused bytes stay dirty in the publisher's view (R126, R180). -/
def State.applyPacket (s : State) (p : Packet) : State :=
  let ctx := ((s.launch p.launch).map (·.ctx)).getD 0
  let (s, ref, e) := s.publish ctx p.bytes p.whole p.bad
  match e with
  | none => s
  | some c => s.mapTask p.uid fun t =>
    { t with pend := { t.pend with refused := some c },
             view := { t.view with
               dirty := (p.bytes.filter fun b => ref.contains (b.1 / 8)).foldl (fun m b => Sparse.ins m b.1 b.2) t.view.dirty,
               whole := (p.whole.filter ref.contains).foldl setIns t.view.whole,
               bad := (p.bad.filter ref.contains).foldl setIns t.view.bad } }

/-- Applies the held packets of a barrier in ascending rank (R126). -/
def State.applyPackets (s : State) (sel : Packet → Bool) : State :=
  let ps := s.sched.packets.filter sel
  let s := (List.range 256).foldl (fun (s : State) r => (ps.filter fun p => p.rank = r).foldl State.applyPacket s) s
  s.modS fun c => { c with packets := c.packets.filter fun p => !sel p }

/-- The members a phase barrier counts: those of instance 0 of its scope (R127). -/
def phaseMembers (s : State) (r : Bar) : List Nat :=
  match s.sched.bars.find? fun q => !q.phaseBar && q.b = 0 && q.sc = r.sc && q.unit = r.unit && q.launch = r.launch with
  | some q => q.members
  | none => (s.liveTasks.filter fun x => x.1.launch = r.launch && x.1.nest && (x.2.map (unitOf r.sc)) = some r.unit).map (·.1.uid)

/-- Marks the waiting members of a merged barrier (R126, R127). -/
def State.mergedTasks (s : State) (r : Bar) (uids : List Nat) : State :=
  uids.foldl (fun s u => s.mapTask u fun t =>
    { t with phase := match t.phase with | .held sc st rd => .merged sc st rd | p => p,
             pend := { t.pend with barbrk := t.pend.barbrk || r.broken } }) s

/-- PHASE_MERGE (R126): the first phase barrier whose members have all arrived is merged as one event; one that a killed member broke is merged at
once for the members that wait on it (R127). DEDUCED (log 31). -/
def execPhaseMerge (s : State) : Out :=
  .next <|
  match s.sched.bars.find? fun r => r.phaseBar && r.sc ≠ .lane && !r.arrived.isEmpty && (r.broken || (phaseMembers s r).all r.arrived.contains) with
  | none => s
  | some r =>
    let s1 := s.applyPackets fun p => p.launch = r.launch && p.sc = r.sc && p.unit = r.unit && !p.step
    (s1.mergedTasks r r.arrived).setBar { r with arrived := [], started := false, broken := false }

/-- The tasks of a launch that live. -/
def launchTasks (s : State) (n : Nat) : List (TaskId × Option (BitVec 8)) := s.liveTasks.filter fun t => t.1.launch = n

/-- STEP_BARRIER_COMPLETE (R333, R379): every task of a nest launch stands at STEPB. A suspect core whose launch cannot leave it loses its
task first. With the die set unchanged every task continues, and where a killed member broke the barrier the waiting ones do (R127); otherwise every task ends and the launch is dispatched anew. -/
def execStepBarrierComplete (s : State) : Out :=
  .next <|
  match s.sched.bars.find? fun r => r.phaseBar && r.sc = .lane && !r.arrived.isEmpty &&
      (r.broken || (launchTasks s r.launch).all fun t => r.arrived.contains t.1.uid) with
  | none => s
  | some r =>
    match s.launch r.launch with
    | none => s
    | some l =>
      let brk := r.broken
      let (s, adm) := s.stepDies l
      let dies := if brk then diesOf l.mask else adm
      let back := s.core.phys
      let s := if brk || !dies.isEmpty then s else
        ((launchTasks s l.id).filterMap (·.2)).foldl (fun (s : State) c =>
          if (s.coreAt c.toNat).health.suspect then
            let s := s.focus c
            let t := s.core.t.id
            (s.kill).postFault cMCHK t.ctx (FaultInfo.cc cMCHK).tcause 0 0 0 0 t.lid
          else s) s
      let s := s.focus back
      let r := ((s.sched.bars.find? fun q => q.phaseBar && q.sc = .lane && q.launch = r.launch).getD r)
      let s := s.applyPackets fun p => p.launch = l.id && p.step
      let steps := l.steps + 1
      let logged := s.logDies l (diesetWord steps (if dies.isEmpty then diesOf l.mask else dies))
      if brk || dies.isEmpty || maskOf dies = l.mask then
        let s := logged.modL l.id fun l => { l with steps := steps }
        let s := r.arrived.foldl (fun (s : State) u => s.mapTask u fun t =>
          { t with sys := { t.sys with dieset := diesetWord steps (diesOf l.mask) } }) s
        (s.mergedTasks r r.arrived).setBar { r with arrived := [], started := false, broken := false }
      else
        -- the new tasks start after the STEPB of the task of lowest logical index that lives, whose RD they receive
        let mine := s.tasks.filter fun t => t.1.id.launch = l.id
        let site := (List.range 256).findSome? fun i => (mine.find? fun t => t.1.id.logi.toNat = i).map fun t =>
          (nextPc t.1.pc 1, match t.1.phase with | .held _ _ rd => rd | _ => 0)
        if mine.isEmpty then s else
        let s := (s.cores.filter fun c => c.running && c.t.id.launch = l.id).foldl (fun (s : State) c =>
          (s.focus c.phys).dropStack.leaveCore) logged
        let s := s.sched.ready.foldl (fun (s : State) r => match r.work with
          | .resume t _ _ => if t.id.launch = l.id then s.freeStack t.id.ctx t.rstk else s
          | _ => s) s
        let s := mine.foldl (fun (s : State) t => s.departAll t.1.id.uid) s
        let s := s.mapCores fun c => if c.reserved = some l.id then { c with reserved := none } else c
        let gone (r : Ready) : Bool := match r.work with | .resume t _ _ => t.id.launch = l.id | _ => false
        let root : Ready := ⟨l.prio, l.ctx, l.id, s.now, s.now, none, .root⟩
        let s := s.modS fun c => { c with ready := c.ready.filter (!gone ·) ++ [root],
                                          bars := c.bars.filter fun b => b.launch ≠ l.id || !b.phaseBar }
        (s.modL l.id fun k => { k with live := k.live - mine.length + 1, steps := steps, mask := maskOf dies, redis := site }).focus back

/-! ### Barriers (R335 to R338) -/

/-- What every barrier instruction checks first: POD instances need a POD group (R335). -/
def barCheck (sc : Scope) : M Bar := fun s =>
  if sc = .pod && s.core.t.id.podg = 0 then .error (.fault (.cc cILLOP), s) else .ok (s.bar s.core.t.id s.core.phys sc 0 false, s)

/-- The instance an instruction names (R335). -/
def barOf (sc : Scope) (b : BitVec 3) : M Bar := do
  let _ ← barCheck sc
  let s ← now
  pure (s.bar s.core.t.id s.core.phys sc b false)

/-- A broken instance raises BARBRK, then a pending BAROVR is raised (R337, R338, R12). -/
def barFaults (r : Bar) : M Unit := fun s =>
  if r.broken then .error (.fault (.cc cBARBRK), s)
  else if s.core.t.pend.barovr then raiseLate (.cc cBAROVR) (·.modT fun t => { t with pend := { t.pend with barovr := false } }) s
  else .ok ((), s)

/-- The number of the running task. -/
def myUid : M Nat := fun s => .ok (s.core.t.id.uid, s)

/-- BARI (R335): a nest task is a member already; a pool task joins at once, or when the started phase completes; a member that has asked to leave with the
started phase stays. -/
def execBari (sc : Scope) (b : BitVec 3) (s : State) : Out :=
  ccNext s false do
    let r ← barOf sc b
    let u ← myUid
    let s ← now
    if s.core.t.id.nest || r.joining.contains u then pure ()
    else if r.members.contains u then upd fun s => s.setBar { r with leaving := r.leaving.filter (· ≠ u) }
    else if r.started then upd fun s => s.setBar { r with joining := r.joining ++ [u] }
    else upd fun s => s.setBar { r with members := r.members ++ [u] }

/-- BARI.lv (R335, R338). -/
def execBariLv (sc : Scope) (b : BitVec 3) (s : State) : Out :=
  ccNext s false do
    let r ← barOf sc b
    let u ← myUid
    let s ← now
    if s.core.t.id.nest then pure ()
    else if r.joining.contains u then upd fun s => s.setBar { r with joining := r.joining.filter (· ≠ u) }
    else if !r.members.contains u then pure ()
    else if r.started then upd fun s => s.setBar { r with leaving := r.leaving.filter (· ≠ u) ++ [u] }
    else upd fun s => s.setBar { r with members := r.members.filter (· ≠ u) }

/-- The arrival of BARA (R336): a non-member raises ILLOP; a task that has arrived in the open phase waits. Answers the phase number. -/
def arrive (sc : Scope) (b : BitVec 3) : M Nat := do
  let r ← barOf sc b
  let u ← myUid
  failIf (!r.members.contains u) (.cc cILLOP)
  barFaults r
  if r.arrived.contains u then wait
  else
    upd fun s => s.setBar (Bar.settle { r with arrived := r.arrived ++ [u], started := true })
    pure r.ph

/-- BARA (R336). -/
def execBara (sc : Scope) (rd : Reg) (b : BitVec 3) (s : State) : Out :=
  ccNext s false do
    let n ← arrive sc b
    wrS rd (BitVec.ofNat 64 n)

/-- The wait of BARW (R336). -/
def waitPhase (sc : Scope) (b : BitVec 3) (n : Nat) : M Unit := do
  let r ← barOf sc b
  failIf (r.ph < n) (.cc cILLOP)
  barFaults r
  if n < r.ph then pure () else wait

/-- BARW (R336). -/
def execBarw (sc : Scope) (b : BitVec 3) (ra : Reg) (s : State) : Out :=
  ccNext s false do
    let a ← rdS ra
    waitPhase sc b a.toNat

/-- BARAW (R336): BARA, then BARW on the phase it arrived in; the arrival stands while the instruction waits. -/
def execBaraw (sc : Scope) (rd : Reg) (b : BitVec 3) (s : State) : Out :=
  ccNext s false fun s =>
    let pc := s.core.t.pc
    let clear (s : State) : State := s.modT fun t => { t with barw := none }
    match s.core.t.barw.filter (·.1 = pc) with
    | some (_, n) =>
      match waitPhase sc b n s with
      | .ok (_, s') => .ok ((), clear s')
      | .error (.fault f, s') | .error (.late f, s') => .error (.late f, clear s')
      | .error e => .error e
    | none =>
      match arrive sc b s with
      | .error e => .error e
      | .ok (n, s1) =>
        let s2 := s1.setS rd (BitVec.ofNat 64 n)
        let r := s2.bar s2.core.t.id s2.core.phys sc b false
        if n < r.ph then .ok ((), clear s2)
        else .error (.stay, (s2.modT fun t => { t with barw := some (pc, n) }).modC fun c => { c with waiting := true })

/-- BARX (R337). -/
def execBarx (sc : Scope) (b : BitVec 3) (ra : Reg) (s : State) : Out :=
  ccNext s false do
    let a ← rdS ra
    let r ← barOf sc b
    let u ← myUid
    failIf (a = 0 || 2 ^ 32 ≤ a.toNat || !r.members.contains u) (.cc cILLOP)
    barFaults r
    upd fun s => s.setBar { r with bc := r.bc + a.toNat, armed := some u, started := true }

/-- Bytes that land against an instance (R337): an excess records BAROVR against the task that armed the phase. -/
def State.landBytes (s : State) (r : Bar) (n : Nat) : State :=
  let excess := decide (r.bc < n)
  let s := match r.armed with
    | some u => if excess then s.mapTask u fun t => { t with pend := { t.pend with barovr := true } } else s
    | none => s
  s.setBar (Bar.settle { r with bc := r.bc - n })

/-- BARRIER_RELEASE (R336): every instance whose open phase can complete does so. -/
def execBarrierRelease (s : State) : Out :=
  .next (s.modS fun c => { c with bars := c.bars.map fun r => if r.phaseBar then r else r.settle })

end Sys2Proof.Machine
end

