-- ==== Sys2Proof/Machine/Traps.lean ====
section
/-! DEFINITION. Class 14, traps and reliability (15_traps_reliability.md R367 to R384), and the events of the checker, of soft errors and
of the debugger. The context image of CTXSV and CTXRS stands in Context.lean. -/

namespace Sys2Proof.Machine

/-- TRAP (R373, R369): TPC names the next instruction. -/
def execTrap (n : BitVec 16) (s : State) : Out :=
  cc s false (stay fun s => takeTrap { FaultInfo.cc cTRAPI with info := n.setWidth 32 } (nextPc s.core.t.pc 1) s)

/-- BRK (R373, R369): TPC names the BRK. -/
def execBrk (n : BitVec 16) (s : State) : Out :=
  cc s false (stay fun s => takeTrap { FaultInfo.cc cBRK with info := n.setWidth 32 } s.core.t.pc s)

/-- Whether an ERET kills the task (R372, R375): an uncorrectable error in control state, or an image that is not valid. -/
def eretKills (s : State) : Bool :=
  !s.core.t.valid || ((s.core.t.sys.tcause.extractLsb' 0 8) == cMCHK && (s.core.t.sys.tcause.extractLsb' 32 32) == 2)

/-- ERET (R372). -/
def execEret (s : State) : Out :=
  cc s true do
    let s ← now
    failIf (!s.core.t.sys.inTrap) (.cc cILLOP)
    if eretKills s then upd State.kill else upd returnTrap

/-- ERET.kill (R372, R377). -/
def execEretKill (s : State) : Out :=
  cc s true do
    let s ← now
    failIf (!s.core.t.sys.inTrap) (.cc cILLOP)
    upd State.kill

/-- The reverse walk's micro-PC as one word (R310): PH, ORD, STEP; zero when no walk is in progress. -/
def Walk.word (w : Walk) : Word :=
  if w.active then BitVec.ofNat 64 (w.ph.toNat * 2 ^ 30 + w.ord % 1024 * 2 ^ 20 + w.step % 4 * 2 ^ 18) else 0

/-- The open block of the task, in a handler the one trap entry saved (R290). -/
def Task.openBlock (t : Task) : Option Block := if t.sys.inTrap && t.sys.tblk then t.savedBlk else t.blk

/-- The fault record (R374). -/
def faultRecord (t : Task) : List Byte :=
  let w (x : Word) : List Byte := leBytes 8 x.toNat
  let tl (x : TL) : List Byte := w x.i ++ w x.v
  let q (l : List Cmd) : List Byte := match l with
    | [] => List.replicate 16 0
    | c :: _ => w c.num ++ leBytes 8 c.upc
  let y := t.sys
  let ph : Nat := match t.phase with
    | .idle => if t.pend.refused.isSome then 3 else 0
    | .held _ _ _ => 1
    | .merged _ _ _ => 2
  let dirtyLines := t.view.dirty.foldl (fun l p => setIns l (p.1 / 128)) ([] : List Nat)
  let b := t.openBlock
  let fl := (if t.tile.opened then 1 else 0) + 2 * t.tile.replays.toNat + (if b.isSome then 4 else 0)
  w y.tcause ++ w y.tpc ++ w y.tupc ++ w y.tva ++ w y.ttl ++ tl t.tls.l ++ tl t.tls.c ++ tl t.tls.s ++ tl t.tls.x ++
  q t.q.load ++ q t.q.compute ++ q t.q.store ++ w t.walk.word ++ w t.rstk.t ++ w t.rstk.h ++ w t.rstk.c ++
  leBytes 8 t.rstk.rseq.toNat ++ leBytes 4 dirtyLines.length ++ leBytes 4 t.view.pin.length ++ leBytes 1 ph ++ leBytes 1 fl ++
  leBytes 2 ((b.map (·.id.toNat)).getD 0) ++ List.replicate 52 0

/-- FLTREC (R374): written through the view as ST writes. -/
def execFltrec (ra : Reg) (s : State) : Out :=
  ccNext s false do
    let a ← rdS ra
    failIf (a.toNat % 256 != 0) (.at cALIGN a)
    let x ← xlate a .w
    let s ← now
    let r := faultRecord s.core.t
    memWrite a x (r.take 128)
    memWrite (a + 128) { x with pa := x.pa + 128 } (r.drop 128)
    upd fun s => s.sealLines x x.pa 256

/-- Runs an update with another core in focus. -/
def State.withCore (s : State) (c : BitVec 8) (f : State → State) : State := (f (s.focus c)).focus s.core.phys

/-- HALT (R383): halts the core A names and waits until it acknowledges; the issuing core halts with its PC at the next instruction. -/
def execHalt (ra : Reg) (s : State) : Out :=
  ccNext s true do
    let a ← rdS ra
    failIf (a.extractLsb' 8 56 != 0) (.cc cILLOP)
    let s ← now
    let k := s.coreAt a.toNat
    let ask (s : State) : State := s.withCore (a.extractLsb' 0 8) (·.askHalt false false)
    if k.health.halted then pure ()
    else if k.copying && a.extractLsb' 0 8 != s.core.phys then stay fun s => (ask s).modC fun c => { c with waiting := true }
    else upd ask

/-- The reset of a core (R381, R39): everything cleared but its number, its counters and what reserves it. -/
def Core.reset (c : Core) (now : Nat) : Core :=
  let f := Core.fresh c.phys
  { f with reserved := c.reserved, resetAt := now,
           health := { f.health with cnt := (Health.count c.health 5).cnt } }

/-- CRST (R381): kills the target's task, with no handler and no image, and resets the core. DESIGN CHOICE (log 76). -/
def execCrst (ra : Reg) (s : State) : Out :=
  ccNext s true do
    let a ← rdS ra
    let s ← now
    failIf (a.extractLsb' 8 56 != 0 || a.extractLsb' 0 8 == s.core.phys) (.cc cILLOP)
    upd fun s =>
      let back := s.core.phys
      let s := (s.focus (a.extractLsb' 0 8)).kill
      let s := (s.loseChannels s.core.phys).loseColls 0 s.core.phys
      (s.modC fun c => c.reset s.now).focus back

/-- MCHKQ (R380): reads a counter; .clr then zeroes it and is privileged. -/
def execMchkq (clr : Bool) (rd : Reg) (sel : BitVec 4) (s : State) : Out :=
  ccNext s clr do
    let s ← now
    if h : sel.toNat < 6 then
      let v := s.core.health.cnt[sel.toNat]
      if clr then upd fun s => s.modH fun k => { k with cnt := k.cnt.set sel.toNat 0 } else pure ()
      capture 0xE8 v (wrS rd)
    else raise (.cc cILLOP)

/-! ### Events -/

/-- TRAP_ENTRY (R369 to R371): a pending engine fault of the running task is delivered, when the checker has agreed to it (R108). -/
def execTrapEntry (s : State) : Out :=
  .next (if s.core.running && !s.core.stopped && !s.core.health.halted && !s.core.health.haltReq && s.core.ckpt.isEmpty then
    match s.core.nextFault with
    | some f =>
      if s.core.hold = some true then takeTrap f s.core.t.pc (s.clearFault f) else s.modC fun c => { c with hold := some false }
    | none => s
  else s)

/-- Marks the commands of a queue up to a number as compared (R16, R108). -/
def markCompared (n : Word) (l : List Cmd) : List Cmd := l.map fun k => if k.num.toNat ≤ n.toNat then { k with compared := true } else k

/-- The checker agrees (R16, R108, R110), in program order: the commands of the oldest instruction that waits for it may issue, and the instructions
before the next such one are committed; with none, the withheld action of the control core may take effect. -/
def Core.agreed (c : Core) : Core :=
  match c.ckpt with
  | k :: l =>
    let t := c.t
    let n := (l.head?.map (·.tls)).getD t.tls
    { c with ckpt := l, health := { c.health with sinceRec := c.health.sinceRec.map (· + k.n) },
             t := { t with q := ⟨markCompared n.l.i t.q.load, markCompared n.c.i t.q.compute, markCompared n.s.i t.q.store⟩ } }
  | [] => if c.hold = some false then { c with hold := some true } else c

/-- CHECKER_COMPARE (R108, R110, R379): equal copies release what waits for them; a mismatch restores the committed state and is counted; a second
one within 256 committed instructions raises MCHK. DEDUCED (log 13). -/
def execCheckerCompare (agree : Bool) (s : State) : Out :=
  .next <|
  if agree then s.modC Core.agreed
  else
    let s1 := (s.modC Core.uncommit).modH (·.count 0)
    match s.core.health.sinceRec with
    | some n =>
      if n < 256 && s.core.running then
        let s2 := s1.modH fun h => { h with suspect := true, sinceRec := none }
        takeTrap { FaultInfo.cc cMCHK with info := 1 } s1.core.t.pc s2
      else s1.modH fun h => { h with sinceRec := some 0 }
    | none => s1.modH fun h => { h with sinceRec := some 0 }

/-- Poison marks of an uncorrectable error by what the storage holds (R378, R29); inside an open tile an error of the array replays the
tile (R258); an error of a base die's journal rolls transactions on its block back (R181); an error in control state while a handler runs halts the core
(R373, R379). A soft error that its protection does not see changes a value and nothing else (R405). DESIGN CHOICE (log 70). -/
def State.strike (s : State) (loc : ErrLoc) : State :=
  match loc with
  | .mem pa => s.homeSetPois (pa / 8 * 8) 8
  | .wb o => s.modB fun b => { b with wbPois := setIns b.wbPois (o % Config.wbBytes / 8) }
  | .ab o => s.modB fun b => { b with abPois := setIns b.abPois (o % Config.abBytes / 8) }
  | .cb e => s.modB fun b => { b with cbPois := setIns b.cbPois (e % Config.cbEntries) }
  | .spill o => s.modT fun t => { t with spPois := setIns t.spPois (o % 16384 / 8) }
  | .scalar r => if r = 0 then s else s.modR fun g => { g with spois := g.spois ||| (1#64 <<< r.toNat) }
  | .vector r w => s.modR fun g =>
      let v := g.v[r.toNat]
      { g with v := g.v.set r.toNat { v with pois := v.pois ||| (1#64 <<< w.toNat) } }
  | .mask r w => s.modR fun g => { g with kpois := g.kpois ||| (1#256 <<< (16 * r.toNat + w.toNat)) }
  | .descriptor d => s.modR fun g => { g with dpois := g.dpois ||| (1#16 <<< d.toNat) }
  | .silent a e b =>
      let f (k : Accum) : Accum :=
        { k with work := Sparse.put 0 k.work (e % 16384) (Sparse.get 0 k.work (e % 16384) ^^^ (1#56 <<< b.toNat)) }
      s.modT fun t => if a then { t with acc1 := f t.acc1 } else { t with acc0 := f t.acc0 }
  | .working a e =>
      let f (k : Accum) : Accum := { k with wpois := setIns k.wpois (e % 16384) }
      s.modT fun t => if t.tile.opened then t.tileError else if a then { t with acc1 := f t.acc1 } else { t with acc0 := f t.acc0 }
  | .codeLine pa => (s.homeSetPois (pa / 128 * 128) 8).mapCores fun c => { c with icache := Sparse.del c.icache (pa / 128) }
  | .tlb v =>
      let keep (l : List TlbE) := l.filter fun t => !(t.vpn ≤ v && v < t.vpn + t.pages)
      (s.modC fun c => { c with l1tlb := keep c.l1tlb }).modM fun m => { m with l2tlb := m.l2tlb.map fun q => (q.1, keep q.2) }
  | .walkCache n => s.modM fun m => { m with wcache := m.wcache.map fun d => (d.1, d.2.filter fun w => w.key ≠ n) }
  | .view pa => if setHas s.core.t.view.lines (pa / 128) then s.modV fun v => { v with bad := setIns v.bad (pa / 8) } else s
  | .journal pa => s.modM fun m => { m with rollb := setIns m.rollb (pa / 512) }
  | .control =>
      let s := s.modH fun h => { h with suspect := true }
      if s.core.running && s.core.t.sys.inTrap && !s.core.health.halted then (s.modT fun t => { t with valid := false }).askHalt true false
      else s.modC fun c => { c with epend := c.epend ++ [{ FaultInfo.cc cMCHK with info := 2 }] }

/-- UNCORRECTABLE_ERROR (R378). -/
def execUncorrectableError (loc : ErrLoc) (s : State) : Out := .next (s.strike loc)

/-- CORRECTABLE_ERROR (R378, R380): corrected in place and counted where it lies in the core's storage. DEDUCED (log 58). -/
def execCorrectableError (loc : ErrLoc) (s : State) : Out :=
  .next (match loc with
    | .mem _ | .walkCache _ | .journal _ | .silent .. => s
    | _ => s.modH (·.count 4))

/-- CORE_HALTED (R383): the core a halt was asked of acknowledges, when the copies that write its WB or AB have run to completion. -/
def execCoreHalted (core : BitVec 8) (s : State) : Out :=
  let k := s.coreAt core.toNat
  .next (if k.health.haltReq && !k.copying then s.withCore core (·.halt k.health.dblf k.health.div) else s)

/-- Release from a debug halt (R384, R33): engines resume unless a trap holds them; with TRP set the release enters a trap. -/
def State.release (s : State) (stepping : Bool) : State :=
  if !s.core.health.halted then s
  else
    let s := s.modC fun c => { c with waiting := false }
    let s := s.modH fun h => { h with halted := false, cause := 0, dblf := false, div := false, stepping := stepping }
    if s.core.health.trp && s.core.running then takeTrap (.cc cHALT) s.core.t.pc s else s

/-- A write of DBGCTL (R384): TRP takes its bit; on a halted core STEP releases it for one instruction, else RUN releases it. -/
def State.setDbgctl (s : State) (v : Word) : State :=
  let s := s.modH fun h => { h with trp := v.getLsbD 1 }
  if v.getLsbD 2 then s.release true else if v.getLsbD 0 then s.release false else s

/-- A host write of DWHLT (R392): halts the core as HALT from another core does; a core that is halted stays so. -/
def State.dwhlt (s : State) : State := if s.core.health.halted then s else s.modH fun h => { h with haltReq := true }

/-- DWHLT (R392): halts the core as HALT from another core does; the halt is acknowledged by CORE_HALTED. Without firmware the device offers only BAR 0
(R398). -/
def execDwhlt (core : BitVec 8) (s : State) : Out :=
  .next (if s.plat.fwOk then s.withCore core State.dwhlt else s)

/-- DBGCTL.RUN (R384, R392). -/
def execDbgctlRun (core : BitVec 8) (s : State) : Out := .next (if s.plat.fwOk then s.withCore core (·.release false) else s)

/-- DBGCTL.STEP (R384): one control-core instruction, then the core halts again. -/
def execDbgctlStep (core : BitVec 8) (s : State) : Out := .next (if s.plat.fwOk then s.withCore core (·.release true) else s)

end Sys2Proof.Machine
end

