-- ==== Sys2Proof/Machine/Blocks.lean ====
section
/-! DEFINITION. Class 11, differentiable blocks (12_blocks.md R289 to R316): the gradient map, the residual stack, the block frame, RPUSH, GZERO
and the reverse walk. -/

namespace Sys2Proof.Machine

/-! ### The gradient map (R292, R293) -/

/-- No counterpart at all. -/
def GMap.zero : GMap := ⟨.replicate 16 0, 0, 0, 0, 0⟩

/-- A gradient map from the 576 bytes of its record, and back. -/
def gmapOf (b : List Byte) : GMap :=
  { cp := Vector.ofFn fun i => BitVec.ofNat 256 (fld b (32 * i.val) 32), ggd := BitVec.ofNat 64 (fld b 512 8),
    gab := BitVec.ofNat 64 (fld b 520 8), gwb := BitVec.ofNat 64 (fld b 528 8), gfl := BitVec.ofNat 3 (fld b 536 1) }
def gmapBytes (g : GMap) : List Byte :=
  (g.cp.toList.flatMap fun d => leBytes 32 d.toNat) ++ leBytes 8 g.ggd.toNat ++ leBytes 8 g.gab.toNat ++ leBytes 8 g.gwb.toNat ++
  leBytes 1 g.gfl.toNat ++ List.replicate 39 0

/-- The shape rows of R293 for a tile and its counterpart. -/
def cpShapeBad (d c : Desc) : Bool :=
  let w := isWeight (dFmt d)
  dRows d != dRows c || dCols d != dCols c || dColmaj d != dColmaj c || (dBits d == dBits c && dStride d != dStride c) ||
  (w && dStride c < dLineBytes c)

/-- The tag row of R293. -/
def cpTagBad (d c : Desc) : Bool :=
  let f := dFmt d
  dTag c != (if isWeight f then 0x0047 else dTag d ||| 0x40) || !tagWf (dTag d) || f == 0 || isIntFmt f

/-- The checks of R293 on a map record, row by row of its table. -/
def checkMap (s : State) (b : List Byte) : Option (BitVec 8) :=
  let g := gmapOf b
  let cps := ((List.range 16).map fun i => (s.D (BitVec.ofNat 4 i), g.cp.toList.getD i 0)).filter fun p => p.2 != 0
  let any (f : Desc → Desc → Bool) : Bool := cps.any fun p => f p.1 p.2
  if any (fun _ c => c &&& descRsv != 0) || 8 ≤ fld b 536 1 || 2 ^ 21 ≤ fld b 528 8 || !zeroAt b 537 39 then some cILLOP
  else if any fun _ c => dRows c == 0 || dCols c == 0 then some cILLOP
  else if any fun d c => (dSpace d != 3 && dSpace c != 1) || (dSpace d == 3 && dSpace c != 3) then some cILLOP
  else if any cpShapeBad then some cILLOP
  else if any cpTagBad then some cTAGMIS
  else if any fun _ c => meetsTop s.core.t (abRanges c) then some cILLOP
  else none

/-- Reads n times 64 bytes through the view (R292). -/
def readMap (a : Word) : Nat → M (List Byte)
  | 0 => pure []
  | n + 1 => do
    let x ← xlate a .r
    let bs ← memRead a x 64
    pure (bs ++ (← readMap (a + 64) n))

/-! ### Storage of the residual stack (R297, R298) -/

/-- An entry's header (R297). -/
structure Hdr where
  bid : Nat
  tag : Nat
  seq : Nat
  len : Nat
  idx : Nat
  kind : Nat
  flags : Nat
  deriving DecidableEq, Repr

/-- Its 64 bytes, and back. -/
def Hdr.bytes (h : Hdr) : List Byte :=
  leBytes 2 h.bid ++ leBytes 2 h.tag ++ leBytes 4 h.seq ++ leBytes 8 h.len ++ leBytes 2 h.idx ++ leBytes 1 h.kind ++ leBytes 1 h.flags ++
  List.replicate 44 0
def Hdr.of (b : List Byte) : Hdr := ⟨fld b 0 2, fld b 2 2, fld b 4 4, fld b 8 8, fld b 16 2, fld b 18 1, fld b 19 1⟩

/-- Length of n bytes padded to a multiple of 64. -/
def pad64 (n : Nat) : Nat := (n + 63) / 64 * 64

/-- An entry: data, padding, header. -/
def entryBytes (h : Hdr) (data : List GByte) : List GByte :=
  data ++ cleanBytes (List.replicate (pad64 data.length - data.length) 0 ++ h.bytes)

/-- The pieces of n bytes from logical offset x in a region of a size that starts at a base. -/
def segsOf (base size x n : Nat) : List (Nat × Nat) :=
  if size = 0 then []
  else
    let o := x % size
    if o + n ≤ size then [(base + o, n)] else [(base + o, size - o), (base, n - (size - o))]

/-- The region of a tier: 0 the AB top region, 1 HBM4, 2 CXL (R298). -/
def stackSegs (t : Task) (tier x n : Nat) : List (Nat × Nat) :=
  let c := t.id.slot.toNat
  match tier with
  | 0 => segsOf t.rcfg.ab.toNat t.rcfg.absz.toNat x n
  | 1 => segsOf (t.rcfg.hbm.toNat + c * t.rcfg.hbmsz.toNat) t.rcfg.hbmsz.toNat x n
  | _ => segsOf (t.rcfg.cxl.toNat + c * t.rcfg.cxlsz.toNat) t.rcfg.cxlsz.toNat x n

/-- Runs a piece with system-level accesses (R134, R301). -/
def asSystem {α : Type} (m : E α) : E α := fun s =>
  let p := s.core.t.prv
  match m (s.modT fun t => { t with prv := true }) with
  | .ok (a, s') => .ok (a, s'.modT fun t => { t with prv := p })
  | .error e => .error e

/-- Reads pieces of a region, poison and the failure of a tier carried (R301, R307). -/
def segsRead (ab : Bool) : List (Nat × Nat) → E (List GByte)
  | [] => pure []
  | (a, n) :: l => do
    let bs ← if ab then eCarryB 1 a n else asSystem (eReadG (BitVec.ofNat 64 a) n)
    pure (bs ++ (← segsRead ab l))

/-- Writes bytes over the pieces of a region. -/
def segsWrite (ab : Bool) : List (Nat × Nat) → List GByte → E Unit
  | [], _ => pure ()
  | (a, n) :: l, bs => do
    if ab then eWriteB 1 a (bs.take n) else asSystem (eWriteG (BitVec.ofNat 64 a) (bs.take n))
    segsWrite ab l (bs.drop n)

/-- Charges or frees slots of the HBM4 and the CXL region (R301). -/
def echarge (hbm cxl : Int) : E Unit := fun s =>
  let step (pa : Nat) (d : Int) (s : State) : Except (BitVec 8) State := if d = 0 then .ok s else s.charge s.cid pa d
  match (step 0 hbm s).bind (step Config.tier2Limit cxl) with
  | .ok s' => .ok ((), s')
  | .error c => .error (.fault c none 0)

/-- Updates the stack's pointers. -/
def State.modRs (s : State) (f : RStack → RStack) : State := s.modT fun t => { t with rstk := f t.rstk }

/-- The size of the entry that starts at offset p, from the sizes of the entries below offset t, the top one first. -/
def entAt : List Nat → Nat → Nat → Nat
  | [], t, p => t - p
  | m :: l, t, p => if t - m ≤ p then t - p else entAt l (t - m) p

/-- Moves n bytes of the stack at offset x from one tier to another; what cannot be delivered cannot move. DEDUCED (log 25). -/
def moveEntry (x n src dst : Nat) : E Unit := do
  let s ← enow
  let bs ← segsRead (src == 0) (stackSegs s.core.t src x n)
  efailIf (bs.any (·.fail)) cTIERERR
  let d : Int := n / 64
  echarge ((if dst = 1 then d else 0) - (if src = 1 then d else 0)) ((if dst = 2 then d else 0) - (if src = 2 then d else 0))
  segsWrite (dst == 0) (stackSegs s.core.t dst x n) bs

/-- SpillLowestHBM (R299). -/
def spillHbm : E Unit := do
  let s ← enow
  let r := s.core.t.rstk
  let m := entAt r.ents r.t.toNat r.c.toNat
  efailIf (s.core.t.rcfg.cxlsz.toNat < r.c.toNat + m) cRSTKX
  moveEntry r.c.toNat m 1 2
  eupd fun s => s.modRs fun r => { r with c := r.c + BitVec.ofNat 64 m }

/-- One move of SpillLowestAB (R299): the entry itself, or one that must make room for it. -/
def spillAb : E Unit := do
  let s ← enow
  let r := s.core.t.rstk
  let g := s.core.t.rcfg
  let m := entAt r.ents r.t.toNat r.h.toNat
  if m ≤ g.hbmsz.toNat then
    if g.hbmsz.toNat < (r.h - r.c).toNat + m then spillHbm
    else do
      moveEntry r.h.toNat m 0 1
      eupd fun s => s.modRs fun r => { r with h := r.h + BitVec.ofNat 64 m }
  else if r.c ≠ r.h then spillHbm
  else do
    efailIf (g.cxlsz.toNat < r.h.toNat + m) cRSTKX
    moveEntry r.h.toNat m 0 2
    eupd fun s => s.modRs fun r => { r with c := r.h + BitVec.ofNat 64 m, h := r.h + BitVec.ofNat 64 m }

/-- Repeats a move while a condition holds: the moves that completed stand (R299). -/
def moveWhile (c : State → Bool) (m : E Unit) : Nat → State → State × Option EStop
  | 0, s => (s, none)
  | f + 1, s =>
    if c s then
      match m s with
      | .ok (_, s') => moveWhile c m f s'
      | .error e => (s.walkFills e, some e)
    else (s, none)

/-- Moves that may be needed at most: every entry twice. -/
def State.spillFuel (s : State) : Nat := 2 * s.core.t.rstk.ents.length + 2

/-- SpillAllAB (R299). -/
def spillAllAb (s : State) : State × Option EStop :=
  moveWhile (fun s => s.core.t.rstk.h != s.core.t.rstk.t) spillAb s.spillFuel s

/-- Runs a further part after one that did not stop. -/
def andThen (p : State × Option EStop) (f : State → State × Option EStop) : State × Option EStop :=
  match p with
  | (s, none) => f s
  | p => p

/-- A piece as a part; a walk that faults keeps what it has read (R143). -/
def piece (m : E Unit) (s : State) : State × Option EStop :=
  match m s with
  | .ok (_, s') => (s', none)
  | .error e => (s.walkFills e, some e)

/-- A push of a complete entry (R299): room is made, the entry is written at T, T passes it. -/
def pushEntry (hbmFirst : Bool) (bs : List GByte) (s : State) : State × Option EStop :=
  let n := bs.length
  let g := s.core.t.rcfg
  let w : Word := BitVec.ofNat 64 n
  let at_ (tier : Nat) (f : RStack → RStack) : State → State × Option EStop := piece do
    let s ← enow
    let r := s.core.t.rstk
    echarge (if tier = 1 then (n / 64 : Nat) else 0) (if tier = 2 then (n / 64 : Nat) else 0)
    segsWrite (tier == 0) (stackSegs s.core.t tier r.t.toNat n) bs
    eupd fun s => s.modRs fun r => { f r with t := r.t + w, ents := n :: r.ents }
  if !hbmFirst && n ≤ g.absz.toNat then
    andThen (moveWhile (fun s => g.absz.toNat < (s.core.t.rstk.t - s.core.t.rstk.h).toNat + n) spillAb s.spillFuel s) (at_ 0 id)
  else if n ≤ g.hbmsz.toNat then
    andThen (andThen (spillAllAb s)
      (moveWhile (fun s => g.hbmsz.toNat < (s.core.t.rstk.t - s.core.t.rstk.c).toNat + n) spillHbm s.spillFuel))
      (at_ 1 fun r => { r with h := r.t + w })
  else
    andThen (andThen (spillAllAb s) (moveWhile (fun s => s.core.t.rstk.c != s.core.t.rstk.h) spillHbm s.spillFuel))
      (piece (do
        let s ← enow
        efailIf (g.cxlsz.toNat < s.core.t.rstk.t.toNat + n) cRSTKX)) |> (andThen · (at_ 2 fun r => { r with c := r.t + w, h := r.t + w }))

/-- Bytes of the stack at offset x, which lie in one entry, wherever that lies. -/
def stackRead (x n : Nat) : E (List GByte) := do
  let s ← enow
  let r := s.core.t.rstk
  let tier := if r.h.toNat ≤ x then 0 else if r.c.toNat ≤ x then 1 else 2
  segsRead (tier == 0) (stackSegs s.core.t tier x n)

/-- The header of the top entry, consumed: RSTK where there is none (R300, R307). -/
def topHdr : E Hdr := do
  let s ← enow
  let t := s.core.t.rstk.t.toNat
  efailIf (t < 64) cRSTK
  pure (Hdr.of (← eConsume (← stackRead (t - 64) 64)))

/-- The top entry leaves the stack (R300, R301): T to its start, H and C no higher, the storage it leaves is freed. -/
def dropTop (size : Nat) : E Unit := do
  let s ← enow
  let r := s.core.t.rstk
  let t := r.t.toNat - size
  let excess (x : Word) : Nat := x.toNat - t
  echarge (-((excess r.h - excess r.c) / 64 : Nat)) (-((excess r.c) / 64 : Nat))
  let low (x : Word) : Word := if t < x.toNat then BitVec.ofNat 64 t else x
  eupd fun s => s.modRs fun r => { r with t := BitVec.ofNat 64 t, h := low r.h, c := low r.c, ents := r.ents.drop 1 }

/-- Pops the top entry: its header must be the expected one (R307); its data with their marks. -/
def popEntry (ok : Hdr → Bool) : E (List GByte) := do
  let h ← topHdr
  let s ← enow
  let size := pad64 h.len + 64
  efailIf (!ok h || s.core.t.rstk.t.toNat < size) cRSTK
  let bs ← stackRead (s.core.t.rstk.t.toNat - size) h.len
  dropTop size
  pure bs

/-- RSTK_REFILL (R300): in elastic mode, during a walk, the highest HBM4 entry moves into AB or the highest CXL entry into HBM4 where it fits. A
refill that would fault is abandoned. -/
def execRstkRefill (s : State) : Out :=
  .next <|
  let t := s.core.t
  let r := t.rstk
  if !enginesRun s || !t.walk.active || t.id.plumb then s
  else
    let below (p : Nat) : Nat := (r.ents.foldl (fun (a : Nat × Nat) m => (a.1 - m, if a.1 = p then m else a.2)) (r.t.toNat, 0)).2
    let m := below r.h.toNat
    let n := below r.c.toNat
    let h' := r.h.toNat - m
    let c' := r.c.toNat - n
    if m != 0 && r.c != r.h && r.t.toNat - h' ≤ t.rcfg.absz.toNat then
      (piece (do moveEntry h' m 1 0; eupd fun s => s.modRs fun r => { r with h := BitVec.ofNat 64 h' }) s).1
    else if n != 0 && r.h.toNat - c' ≤ t.rcfg.hbmsz.toNat then
      (piece (do moveEntry c' n 2 1; eupd fun s => s.modRs fun r => { r with c := BitVec.ofNat 64 c' }) s).1
    else s

/-! ### What a command pushes (R312, R316) -/

/-- Length, tag and kind of the entry of a command, from its forward operands. -/
def entryOf (k : Cmd) : Nat × FTag × Nat :=
  let tile (d : Desc) : Nat := dRows d * dCols d * (elemBits (dFmt d) / 8)
  match k.instr with
  | .cvts .. => (16, 0, 0)
  | .lnx _ _ _ _ f => (lnResLen k false f, lnTag k f.vop.toNat false, 0)
  | .lnr _ _ _ _ f => (lnResLen k true f, lnTag k f.vop.toNat (f.fn.extractLsb' 0 2 != 0), 0)
  | .mma .. => (tile (k.d 0), dTag (k.d 0), 0)
  | .scmac .. => (tile (k.d 0), dTag (k.d 0), 0)
  | .scmul .. =>
    let (ga, gb) := scmulGrads k
    ((if gb then tile (k.d 1) else 0) + (if ga then tile (k.d 2) else 0), dTag (k.d 1), 0)
  | .vruna _ _ _ _ _ l _ => (l.toNat * 512, 0, 0)
  | .rpush .. => (dRows (k.d 0) * dRowBytes (k.d 0), dTag (k.d 0), 2)
  | .rpushSpl _ _ n => (8 * (n.toNat + 1), 0, 2)
  | _ => (0, 0, 0)

/-- The header of a command's entry, and the header an adjoint expects (R307). -/
def hdrOf (k : Cmd) (b : BlkRef) (rcp : Bool) : Hdr :=
  let (len, tag, kind) := entryOf k
  ⟨b.id.toNat, tag.toNat, b.seq.toNat, len, b.ord, kind, if rcp then 1 else 0⟩

/-- The residual's data when a command has run (R316): of a VRUNA its bytes of AB, poison carried (R168). -/
def residualOf (k : Cmd) : E (List GByte) :=
  match k.instr with
  | .cvts .. => pure (cleanBytes (leBytes 8 (k.v 0).toNat ++ leBytes 8 (k.v 1).toNat))
  | .lnx _ _ _ _ f => pure (cleanBytes (lnResidual k false f))
  | .lnr _ _ _ _ f => pure (cleanBytes (lnResidual k true f))
  | .vruna .. => match k.vrunaRes with | some (p, n) => eReadB 1 p n | none => pure []
  | _ => pure k.resG

/-- The push stage of a command (R299, R301). -/
def pushResidual (k : Cmd) (s : State) : State × Option EStop :=
  match k.blk with
  | none => (s, none)
  | some b =>
    match residualOf k s with
    | .error e => (s, some e)
    | .ok (bs, s) => pushEntry b.hbm (entryBytes (hdrOf k b b.replay) bs) s

/-- The pop stage of an adjoint (R307). -/
def popResidual (k : Cmd) : E (List GByte) :=
  match k.blk with
  | none => pure []
  | some b => popEntry fun h => h = hdrOf k b b.rc

/-! ### RPUSH and GZERO (R303, R304) -/

/-- The bytes of spill memory with their poison. -/
def eSpill (off n : Nat) : E (List GByte) := do
  let t := (← enow).core.t
  let bs := readBytes t.spill off n
  pure ((List.range n).map fun i => ⟨bs.getD i 0, setHas t.spPois ((off + i) / 8), false⟩)

/-- The rows of a tile in order, poison carried: the residual-stack unit is no consumer of R378. -/
def eLines (d : Desc) : Nat → Nat → E (List GByte)
  | 0, _ => pure []
  | n + 1, j => do
    let b := (← enow).core.buf
    efailIf (b.tileRowFail d j) cTIERERR
    pure (b.tileRow d j ++ (← eLines d n (j + 1)))

/-- The checks of the tile form of RPUSH, the lowest code first (R12); a landing slot is not read (R352). -/
def checkRpush (d : Desc) : E Unit := do
  let s ← enow
  echeck (operandFault [(d, [1])] (meetsSlot s.core.t (abRanges d)))

/-- RPUSH at the queue head (R303): its checks, and what it will push; a recompute block's forward pass reads nothing (R309). -/
def runRpush (k : Cmd) (s : State) : Prog :=
  let d := k.d 0
  let skip := match k.blk with | some b => b.rc && !b.replay | none => true
  whole (do
    let bs ← match k.instr with
      | .rpushSpl _ o n => if skip then pure [] else eSpill (8 * o.toNat) (8 * (n.toNat + 1))
      | _ => do
        checkRpush d
        if skip then pure [] else eLines d (dRows d) 0
    eupd fun s => s.setRes k bs) s

/-- Writes data over the rows of a tile. -/
def ePutLines (d : Desc) : Nat → Nat → List GByte → E Unit
  | 0, _, _ => pure ()
  | n + 1, j, bs => do
    eupd fun s => s.modB fun b => b.putTileRow d j (bs.take (dRowBytes d))
    ePutLines d n (j + 1) (bs.drop (dRowBytes d))

/-- The adjoint of RPUSH: the popped data goes back into the same bytes, poison carried; what a tier failed to deliver raises TIERERR (R301). -/
def adjRpush (k : Cmd) (s : State) : Prog :=
  let d := k.d 0
  let lost : E Unit := efailIf (!k.resFail.isEmpty) cTIERERR
  match k.instr with
  | .rpushSpl _ o _ => whole (do lost; eupd fun s => s.spillPutG (8 * o.toNat) k.resG) s
  | _ => whole (do checkRpush d; topBlkop k (abRanges d); lost; ePutLines d (dRows d) 0 k.resG) s

/-- Writes a pattern to every element of a tile. -/
def eFill (d : Desc) (x : Nat) : List (Nat × Nat) → E Unit
  | [] => pure ()
  | (r, c) :: l => do ePut d r c x; eFill d x l

/-- GZERO at the queue head (R304), in the order of its table. -/
def runGzero (k : Cmd) (s : State) : Prog :=
  let d := k.d 0
  let f := dFmt d
  whole (do
    let s ← enow
    efailIf (tileIllop d [1] || meetsTop s.core.t (abRanges d) || destIllop s d) cILLOP
    efailIf (tileAlign d) cALIGN
    efailIf (!tileFits d) cOOB
    efailIf (!tagWf (dTag d) || !tG (dTag d) || !(f == 6 || f == 7 || f == 8 || f == 0xB)) cTAGMIS
    eFill d 0 (gridCells (dRows d) (dCols d))) s

/-- RPUSH (R303). -/
def execRpush (tk : Tok) (dA : DCode) (s : State) : Out := routed (.rpush tk dA) (pure ()) s

/-- RPUSH.spl (R303); its bytes lie in spill memory, which decoding checks. -/
def execRpushSpl (tk : Tok) (off8 : BitVec 11) (n8m1 : BitVec 6) (s : State) : Out := routed (.rpushSpl tk off8 n8m1) (pure ()) s

/-- GZERO (R304). -/
def execGzero (tk : Tok) (dD : DCode) (s : State) : Out := routed (.gzero tk dD) (pure ()) s

/-! ### RSTK (R296) -/

/-- A configuration record, and its 48 bytes. -/
def rcfgOf (b : List Byte) : RCfg :=
  let w (o : Nat) : Word := BitVec.ofNat 64 (fld b o 8)
  ⟨w 0, w 8, w 16, w 24, w 32, w 40⟩
def rcfgBytes (c : RCfg) : List Byte := [c.ab, c.absz, c.hbm, c.hbmsz, c.cxl, c.cxlsz].flatMap fun w => leBytes 8 w.toNat

/-- Whether a record breaks a rule of R296's table. -/
def rcfgBad (b : List Byte) : Bool :=
  let c := rcfgOf b
  let off (w : Word) (n : Nat) : Bool := w.toNat % n != 0
  2 ^ 21 ≤ c.ab.toNat || off c.ab 512 || 524288 < c.absz.toNat || off c.absz 512 || Config.abBytes < c.ab.toNat + c.absz.toNat ||
  off c.hbm 4096 || off c.hbmsz 4096 || off c.cxl 4096 || off c.cxlsz 4096 || !zeroAt b 48 16

/-- RSTK.set (R296): the checks in the order of its table; in effect at the next dispatch of each task. -/
def execRstkSet (ra : Reg) (s : State) : Out :=
  ccNext s true do
    let a ← rdS ra
    failIf (a.toNat % 64 != 0) (.at cALIGN a)
    let x ← xlateDirect a .r
    let s ← now
    failIf (s.homeFail x.pa 64) (.at cTIERERR a)
    failIf (s.homePoisN x.pa 64) (.at cPOISON a)
    let b := s.homeBytes x.pa 64
    failIf (rcfgBad b) (.cc cILLOP)
    failIf (s.tasks.any fun t => t.1.id.ctx = s.cid && t.1.rstk.t != 0) (.cc cILLOP)
    upd fun s => s.modX s.cid fun c => { c with rcfg := rcfgOf b }

/-- RSTK.get (R296). DEDUCED (log 25). -/
def execRstkGet (ra : Reg) (s : State) : Out :=
  ccNext s true do
    let a ← rdS ra
    failIf (a.toNat % 128 != 0) (.at cALIGN a)
    let x ← xlate a .w
    let s ← now
    let r := s.core.t.rstk
    let open_ : Nat := match s.core.t.blk with | some b => 65536 + b.id.toNat | none => 0
    memWrite a x (rcfgBytes s.cx.rcfg ++ leBytes 8 r.t.toNat ++ leBytes 8 r.h.toNat ++ leBytes 8 r.c.toNat ++
      leBytes 8 r.rseq.toNat ++ leBytes 8 open_ ++ List.replicate 40 0)

/-! ### BLKB, BLKE and the frame (R290, R294, R295) -/

/-- A fault of a piece as the control core reports it. -/
def EStop.info (e : EStop) : FaultInfo :=
  match e with
  | .fault c va l => { FaultInfo.cc c with va := va, lvl := l }
  | .status _ _ => .cc cTIERERR
  | .wait | .fpx => .cc cFPX

/-- Runs a piece of an engine's language in the control core; a walk that faults keeps what it has read (R143). -/
def liftE {α : Type} (m : E α) : M α := fun s =>
  match m s with
  | .ok r => .ok r
  | .error .wait => .error (.wait, s)
  | .error e => .error (.fault e.info, s.walkFills e)

/-- ASX of an accumulator as the commands routed so far leave it (R251, R294). -/
def Task.asxNow (t : Task) (acc : Bool) : BitVec 7 :=
  t.q.compute.foldl (fun x k => match k.instr with
    | .wgrp _ a n => if a = acc && !k.done && k.kind = .fwd then n else x
    | _ => x) (if acc then t.acc1 else t.acc0).asx

/-- A frame pop that holds its TL.X number without having popped (R416): the walk stands at its REVB and no frame has been read. -/
def Task.popHeld (t : Task) : Bool := t.walk.active && t.walk.f.isNone

/-- A frame pop that its REVB does not repeat is given up: its number completes and the walk is gone. DEDUCED (log 52). -/
def State.dropPop (s : State) : State :=
  if s.core.t.popHeld then
    ((s.modTl fun t => { t with x := { t.x with v := t.x.i } }).modT fun t => { t with walk := Task.zero.walk }).timelineWrite
      s.cid s.core.t.id.slot 3 s.core.t.tls.x.i
  else s

/-- Where BLKB may stand (R28, R290): outside a block, in granule 1 of a line of kind 01. -/
def blkbPlace (s : State) : Bool := s.core.t.blk.isNone && granuleOf s.core.t.pc == 1 && s.core.lineKind == 1

/-- BLKB (R290, R293, R294); elsewhere than in its place it reports the lowest code that it meets (R12). A spill of BLKB.hbm is left to the block's first
push where earlier pushes are not complete. DEDUCED (log 46). -/
def execBlkb (rc hbm : Bool) (ra : Reg) (id : BitVec 16) (s : State) : Out :=
  runM s <| unlessLower (if blkbPlace s then none else some cBLKOP) do
    let s ← now
    let g ← if ra = 0 then pure GMap.zero
      else do
        let a ← rdS ra
        failIf (a.toNat % 64 != 0) (.at cALIGN a)
        let bs ← readMap a 9
        match checkMap s bs with
        | some c => raise (.cc c)
        | none => pure (gmapOf bs)
    -- the registers are read whole; s0 holds nothing
    failIf (s.core.t.regs.spois &&& ~~~1#64 != 0 || s.core.t.regs.dpois != 0) (.cc cPOISON)
    upd (·.dropPop)
    let s ← now
    let tl := s.core.t.tls.x
    if hbm && tl.i = tl.v && s.core.t.frames.isEmpty then
      match spillAllAb s with
      | (s', none) => upd fun _ => s'
      | (s', some e) => raiseLate e.info fun _ => s'
    else pure ()
    upd fun s =>
      let t := s.core.t
      let seq := t.rstk.rseq + 1
      let s0 := (Vector.ofFn fun (i : Fin 64) => s.S (BitVec.ofNat 6 i.val) : Vector Word 64)
      let b : Block :=
        { id := id, rc := rc, hbm := hbm, seq := seq, pcb := t.pc, s := s0, d := t.regs.d, asx0 := t.asxNow false,
          asx1 := t.asxNow true, g := g, ord := 0, seen := 0, pct := 0 }
      ((s.modRs fun r => { r with rseq := seq }).modT fun t => { t with blk := some b }).advance 1

/-- A traverse state in the layout of R295. -/
def travBytes (t : Traverse) : List Byte :=
  ((List.finRange 6).flatMap fun l => [t.n[l], t.ss[l], t.ds[l], t.o[l], t.b[l]].flatMap fun x => leBytes 4 x.toNat) ++
  leBytes 1 (modeNum t.mode) ++ List.replicate 7 0
def travOf (b : List Byte) : Traverse :=
  let v (f : Nat) : Vector (BitVec 32) 6 := Vector.ofFn fun l => BitVec.ofNat 32 (fld b (20 * l.val + 4 * f) 4)
  ⟨v 0, v 1, v 2, v 3, v 4, modeOf (fld b 120 1)⟩

/-- The traverse state of an engine after every command routed so far (R295): the ones that have not run are taken in order. -/
def Task.travNow (t : Task) (out : Bool) : Traverse :=
  let cmds := (if out then t.q.store else t.q.load).filter fun k => !k.done && k.kind = .fwd
  let rests := t.trest.filter fun r => r.1 = out
  let pick (x : Traverse) (n : Option Word) : Traverse :=
    rests.foldl (fun x r => if n.all fun w => r.2.1.toNat < w.toNat then r.2.2 else x) x
  let step (x : Traverse) (k : Cmd) : Traverse :=
    let x := pick x (some k.num)
    match k.instr with
    | .trvlIn _ l _ ss ds | .trvlOut _ l _ ss ds => (x.setLevel l.toNat (k.v 0) ss ds).getD x
    | .trvsIn _ m _ _ _ b | .trvsOut _ m _ _ _ b => x.setShape m (k.v 0) (k.v 1) (k.v 2) b
    | _ => x
  let r := cmds.foldl step (if out then t.tout else t.tin)
  match cmds.getLast? with
  | some k => (rests.filter fun q => k.num.toNat ≤ q.2.1.toNat).foldl (fun _ q => q.2.2) r
  | none => pick r none

/-- The data of a block frame (R295). -/
def frameBytes (b : Block) (blke : Word) (tin tout : Traverse) : List Byte :=
  leBytes 8 b.pcb.toNat ++ leBytes 8 blke.toNat ++ leBytes 1 ((if b.rc then 1 else 0) + (if b.hbm then 2 else 0)) ++ [0] ++
  leBytes 1 (b.asx0.signExtend 8).toNat ++ leBytes 1 (b.asx1.signExtend 8).toNat ++ List.replicate 44 0 ++
  (b.s.toList.flatMap fun w => leBytes 8 w.toNat) ++ (b.d.toList.flatMap fun w => leBytes 32 w.toNat) ++ gmapBytes b.g ++
  travBytes tin ++ travBytes tout

/-- A frame's data and header as the block it describes, with the address of BLKE and the traverse states. -/
def frameOf (h : Hdr) (f : List Byte) : Block × Word × Traverse × Traverse :=
  let b : Block :=
    { id := BitVec.ofNat 16 h.bid, rc := fld f 16 1 % 2 = 1, hbm := fld f 16 1 / 2 % 4 = 1, seq := BitVec.ofNat 32 h.seq,
      pcb := BitVec.ofNat 64 (fld f 0 8), s := Vector.ofFn fun i => BitVec.ofNat 64 (fld f (64 + 8 * i.val) 8),
      d := Vector.ofFn fun i => BitVec.ofNat 256 (fld f (576 + 32 * i.val) 32), asx0 := BitVec.ofNat 7 (fld f 18 1),
      asx1 := BitVec.ofNat 7 (fld f 19 1), g := gmapOf (f.drop 1088), ord := 0, seen := 0, pct := 0 }
  (b, BitVec.ofNat 64 (fld f 8 8), travOf (f.drop 1664), travOf (f.drop 1792))

/-- The oldest frame that has its place is written once every earlier entry is complete (R295, R299). -/
def settleFrame (s : State) : State :=
  match s.core.t.frames with
  | [] => s
  | k :: l =>
    if s.core.t.tls.x.v + 1 ≠ k.num || k.fault.isSome then s
    else
      let b := match k.blk with | some b => b | none => ⟨0, 0, false, false, 0, GMap.zero, false⟩
      match pushEntry b.hbm (entryBytes ⟨b.id.toNat, 0, b.seq.toNat, 1920, b.ord, 1, 0⟩ (cleanBytes k.res)) s with
      | (s', none) => ((s'.modT fun t => { t with frames := l }).modTl fun t => { t with x := { t.x with v := k.num } }).timelineWrite
          s.cid s.core.t.id.slot 3 k.num
      | (s', some e) => s'.modT fun t => { t with frames := { k with fault := some { e.info with unit := 6, tl := k.num } } :: l }

/-- BLKE (R290, R295): the frame takes its place on the stack, the block closes. DEDUCED (log 51). -/
def execBlke (id : BitVec 16) (s : State) : Out :=
  runM s do
    let s ← now
    match s.core.t.blk with
    | none => raise (.cc cBLKOP)
    | some b =>
      failIf (b.id != id) (.cc cBLKOP)
      upd fun s =>
        let t := s.core.t
        let num := t.tls.x.i + 1
        let k : Cmd :=
          { instr := .blke id, kind := .fwd, tok := ⟨false, false, false, false⟩, num := num, num2 := 0, descs := [], vals := [], sysr := [],
            blk := some ⟨b.id, b.seq, b.rc, b.hbm, b.ord, b.g, false⟩, upc := 0, compared := true, issued := true, done := false,
            pushed := false, status := 1, fault := none, res := frameBytes b t.pc (t.travNow false) (t.travNow true), resPois := [], resFail := [],
            got := [], ph := 0 }
        let s := (s.modTl fun t => { t with x := { t.x with i := num } }).modT fun t => { t with frames := t.frames ++ [k], blk := none }
        settleFrame (s.advance 1)

/-! ### The walk (R305 to R310) -/

/-- The instructions of a line by their granules (R34), none where one does not decode. -/
def lineCode (b : BitVec 1024) : Nat → Nat → List (Nat × Option Instr)
  | 0, _ => []
  | f + 1, g =>
    if 16 ≤ g then []
    else
      let ws := ((List.range 16).drop g).map (lineGran b)
      let i := match decodeWords ws with | .ok (i, _) => some i | .error _ => none
      (g, i) :: lineCode b f (g + granCount (lineGran b g))

/-- Fetches n lines from an address on: each must be of kind 01 (R305). -/
def codeLines (a : Word) : Nat → M (List (Word × Option Instr))
  | 0 => pure []
  | n + 1 => do
    let b ← fetchLine a
    failIf (lineBad b) (.cc cILLOP)
    failIf (hdrKind (lineGran b 0) != 1) (.cc cBLKOP)
    let l := (lineCode b 16 1).map fun x => (a + BitVec.ofNat 64 (8 * x.1), x.2)
    pure (l ++ (← codeLines (a + 128) n))

/-- The instruction at an address, from its line as it is fetched and checked (R29, R30), with the line's kind; none where none starts there. -/
def codeAt (a : Word) : M (BitVec 2 × Option Instr) := do
  let b ← fetchLine a
  failIf (lineBad b) (.cc cILLOP)
  pure (hdrKind (lineGran b 0),
    if a.toNat % 8 = 0 then ((lineCode b 16 1).find? fun x => x.1 = granuleOf a).bind (·.2) else none)

/-- The code of a block from BLKB to BLKE, with the rows of R305 on both addresses and on the lines between, in their order. -/
def blockCode (id : BitVec 16) (pcb blke : Word) : M (List (Option Instr)) := do
  let (kind, i) ← codeAt pcb
  failIf (granuleOf pcb != 1 || kind != 1 || !(match i with | some (.blkb _ _ _ n) => n == id | _ => false)) (.cc cBLKOP)
  let (_, i) ← codeAt blke
  failIf (!(match i with | some (.blke n) => n == id | _ => false)) (.cc cBLKOP)
  let n := ((lineOf blke).toNat - (lineOf pcb).toNat) / 128 + 1
  failIf (blke.toNat ≤ pcb.toNat || 64 < n) (.cc cBLKOP)
  let l ← codeLines (lineOf pcb) n
  pure ((l.filter fun x => x.1.toNat ≤ blke.toNat).map (·.2))

/-- The frame pop of the REVB at the PC has its TL.X number (R302): the one it took before its pop faulted (R416), or the next. -/
def State.takePop (s : State) : State :=
  if s.core.t.popHeld && s.core.t.walk.pc = s.core.t.pc then s
  else
    (s.modTl fun t => { t with x := { t.x with i := t.x.i + 1 } }).modT fun t =>
      { t with walk := { Task.zero.walk with active := true, pc := t.pc } }

/-- Runs a part of REVB that keeps the pop's number when it faults. -/
def keepPop {α : Type} (g : FaultInfo → FaultInfo) (m : M α) : M α := fun s =>
  match m s with
  | .error (.fault f, s') => .error (.late (g f), keepFills s s')
  | r => r

/-- A fault of the frame pop: the residual-stack unit and the pop's number (R416). -/
def FaultInfo.ofPop (n : Word) (f : FaultInfo) : FaultInfo := { f with unit := 6, tl := n }

/-- The header of the top entry and the first 16 bytes of its data, both read before the entry must be the frame of the block id (R305). -/
def topFrame (id : BitVec 16) : M (Hdr × List Byte) := do
  let s ← now
  failIf (s.core.t.rstk.t.toNat < 64) (.cc cRSTK)
  let h ← liftE topHdr
  let size := pad64 h.len + 64
  let t := s.core.t.rstk.t.toNat
  failIf (t < size || h.len = 0) (.cc cRSTK)
  let hd ← liftE (do eConsume (← stackRead (t - size) 16))
  failIf (h.len != 1920 || h.kind != 1 || h.bid != id.toNat || h.flags != 0) (.cc cRSTK)
  pure (h, hd)

/-- The start of REVB: the frame pop's number on TL.X, the checks in the order of R305, the pop, the restored traverse states. -/
def revbStart (id : BitVec 16) : M Unit := do
  let s ← now
  let held := s.core.t.popHeld && s.core.t.walk.pc = s.core.t.pc
  upd fun s => if held then s else s.dropPop
  let s ← now
  let x := s.core.t.tls.x
  if !s.core.t.frames.isEmpty || (!held && x.i != x.v) then wait
  else
    upd (·.takePop)
    let s ← now
    let n := s.core.t.tls.x.i
    let (h, a) ← keepPop (·.ofPop n) (topFrame id)
    let code ← keepPop (fun f => f) (blockCode id (BitVec.ofNat 64 (fld a 0 8)) (BitVec.ofNat 64 (fld a 8 8)))
    let f ← keepPop (·.ofPop n) (liftE (do eConsume (← popEntry fun _ => true)))
    upd fun s =>
      let (b, blke, tin, tout) := frameOf h f
      let w : Walk :=
        { active := true, pc := s.core.t.pc, ph := if b.rc then 1 else 2, ord := if b.rc then 1 else code.length - 2, step := 0, f := some b,
          tin := tin, tout := tout, blke := blke, bind0 := none, bind1 := none }
      let s := s.modTl fun t => { t with x := { t.x with v := n } }
      let s := s.timelineWrite s.cid s.core.t.id.slot 3 n
      s.modT fun t => { t with walk := w, trest := t.trest ++ [(false, t.tls.l.i, tin), (true, t.tls.s.i, tout)] }

/-- The mirror queue and the mirrored tokens (R22, R306). -/
def mirrorQ : QName → QName
  | .load => .store | .store => .load | .compute => .compute
def mirrorTok (t : Tok) : Tok := { t with sn := t.pp, pp := t.sn, sp := t.pn, pn := t.sp }

/-- Whether the buffer side of a copy has a valid displacement, and the global side too (R312). -/
def copyGrads (g : GMap) (sp : BSpace) : Bool :=
  g.gfl.getLsbD 0 && (match sp with | .wb => g.gfl.getLsbD 2 | .ab => g.gfl.getLsbD 1 | .cb => false)

/-- Whether a forward command has an adjoint with something to add or to pop (R306, R312). -/
def hasAdjoint (g : GMap) (i : Instr) : Bool :=
  match i with
  | .cvt _ d a _ _ _ _ => hasCp g d && hasCp g a
  | .cvts _ d a _ _ _ _ _ => hasCp g d && hasCp g a
  | .qntw _ d a _ _ _ => hasCp g d && hasCp g a
  | .dqw _ d a _ _ _ => hasCp g d && hasCp g a
  | .scalex _ _ d a _ => hasCp g d && hasCp g a
  | .copyIn _ sp .. | .copyOut _ sp .. | .gthr _ sp .. | .sctr _ sp .. => copyGrads g sp
  | .lnx _ d a b f | .lnr _ d a b f => hasCp g d && (hasCp g a || (!f.unary && hasCp g b))
  | .mma _ _ _ _ a b _ _ => hasCp g a || hasCp g b
  | .scmac _ _ a b _ => hasCp g a || hasCp g b
  | .sxf _ d a | .sxi _ d a | .sconj _ d a | .sdom _ d a _ | .sexp _ d a _ => hasCp g d && hasCp g a
  | .scmul _ _ d a b => hasCp g d && (hasCp g a || hasCp g b)
  | .vruna .. | .rpush .. | .rpushSpl .. => true
  | _ => false

/-- A carrier: its queue, what it does, the instruction it stands for, its tokens. -/
structure Carrier where
  q : QName
  kind : CmdKind
  i : Instr
  tok : Tok

/-- The carriers of a forward instruction in the walk (R306). -/
def carriers (g : GMap) (i : Instr) : List Carrier :=
  match queueOf i with
  | none => []
  | some q =>
    let m := mirrorQ q
    let t := mirrorTok (tokOf i)
    match i with
    | .chsendFw .. | .chsendRv .. => [⟨m, .stub, i, t⟩, ⟨.compute, .adj 1, i, ⟨false, false, false, false⟩⟩]
    | .mtm _ => [⟨m, .fwd, .mte t, t⟩]
    | .mte _ => [⟨m, .fwd, .mtm t, t⟩]
    | _ => [⟨m, if hasAdjoint g i then .adj 0 else .stub, i, t⟩]

/-- ASX of the accumulator a command names, from the frame. -/
def frameAsx (b : Block) (acc : Bool) : Word := (if acc then b.asx1 else b.asx0).setWidth 64

/-- The captured scalars and descriptors of a walked or replayed command, all from the frame (R305). -/
def frameOperands (b : Block) (w : Walk) (kind : CmdKind) (i : Instr) : List Word × List Desc :=
  let vals : List Word := (regsOf i).map fun (r : Reg) => if r = 0 then 0 else b.s[r.toNat]
  let descs : List Desc := (descsOf i).map fun (d : DCode) => b.d[d.toNat]
  let bound (acc : Bool) : List Word × List Desc :=
    match (if acc then w.bind1 else w.bind0) with
    | some x => ([BitVec.ofNat 64 x.row0, BitVec.ofNat 64 x.col0, frameAsx b acc], descs ++ [x.d])
    | none => ([0, 0, frameAsx b acc], descs)
  match i, kind with
  | .mma _ acc .., .adj _ | .scmac _ acc .., .adj _ => bound acc
  | .mma _ acc .., .fwd | .mcks _ acc .., .fwd => ([frameAsx b acc], descs)
  | .copyIn .., .adj _ => (vals ++ w.tin.words, descs)
  | .copyOut .., .adj _ => (vals ++ w.tout.words, descs)
  | _, _ => (vals, descs)

/-- Routes one command of REVB; a full queue waits. -/
def walkRoute (b : Block) (ord : Nat) (replay : Bool) (c : Carrier) : M Unit := do
  let s ← now
  if !s.queueRoom c.q then wait
  else upd fun s =>
    let (vals, descs) := frameOperands b s.core.t.walk c.kind c.i
    s.enqueue c.i c.kind c.tok descs vals (some ⟨b.id, b.seq, b.rc, b.hbm, ord, b.g, replay⟩) c.q

/-- The window that a walked MST binds to its accumulator (R265). -/
def bindMst (g : GMap) (i : Instr) (w : Walk) : Walk :=
  match i with
  | .mst _ d acc _ _ _ _ r c =>
    let x := (cpOf g d).map fun d => (⟨d, r.toNat, c.toNat⟩ : Bind)
    if acc then { w with bind1 := x } else { w with bind0 := x }
  | _ => w

/-- Updates the walk. -/
def State.modW (s : State) (f : Walk → Walk) : State := s.modT fun t => { t with walk := f t.walk }

/-- One step of REVB (R305, R309, R310): at most one command is routed, and the micro-PC names the next one. -/
def walkStep (b : Block) : M Unit := do
  let s ← now
  let w := s.core.t.walk
  let code ← blockCode b.id b.pcb w.blke
  let last := code.length - 1
  if w.ph = 1 then
    if last ≤ w.ord then upd fun s => s.modW fun w => { w with ph := 2, ord := last - 1, step := 0 }
    else match code.getD w.ord none with
      | none => raise (.cc cILLOP)
      | some i => do
        match queueOf i with
        | none => pure ()
        | some q =>
          let kind : CmdKind := match i with | .chsendFw .. | .chsendRv .. => .stub | _ => .fwd
          walkRoute b w.ord true ⟨q, kind, i, tokOf i⟩
        upd fun s => s.modW fun w => { w with ord := w.ord + 1 }
  else if w.ord = 0 then upd fun s => (s.modW fun _ => Task.zero.walk).advance 1
  else match code.getD w.ord none with
    | none => raise (.cc cILLOP)
    | some i =>
      match (carriers b.g i)[w.step]? with
      | none => upd fun s => s.modW fun w => { w with ord := w.ord - 1, step := 0 }
      | some c => do
        walkRoute b w.ord false c
        upd fun s => s.modW fun w => { bindMst b.g i w with step := w.step + 1 }

/-- A fault of REVB is reported with its micro-PC (R310). -/
def withWalkPc (m : M Unit) : M Unit := fun s =>
  match m s with
  | .error (.fault f, s') => .error (.fault { f with upc := s.core.t.walk.word }, s')
  | r => r

/-- REVB (R305 to R310): it holds issue until its last command is routed; the PC stays at it. Inside a block it reports the lowest code that it meets
(R12, R291). DEDUCED (log 52). -/
def execRevb (id : BitVec 16) (s : State) : Out :=
  runM (settleFrame s) <| unlessLower (if s.core.t.blk.isSome then some cBLKOP else none) do
    let s ← now
    let w := s.core.t.walk
    match w.f with
    | some b => if w.active && w.pc = s.core.t.pc && b.id = id then withWalkPc (walkStep b) else revbStart id
    | none => revbStart id
    upd fun s => s.modC fun c => { c with waiting := false }

end Sys2Proof.Machine
end

