-- ==== Sys2Proof/Machine/Channels.lean ====
section
/-! DEFINITION. Class 13, stage channels and collectives (14_channels_collectives.md R346 to R366), with the packets of the Wedar Link
(R355, R394) and the loss of a partner (R25). -/

namespace Sys2Proof.Machine

/-! ### Ends (R348 to R350) -/

/-- This package's own number (R366). -/
def State.pkg (s : State) : Nat := s.plat.podid.toNat % 256

/-- The package and the core an end names (R349). -/
def ChEnd.pkg (e : ChEnd) : Nat := (e.a.extractLsb' 0 8).toNat
def ChEnd.phys (e : ChEnd) : BitVec 8 := e.a.extractLsb' 8 8

/-- The AB bytes of all four slots of an end. -/
def ChEnd.region (e : ChEnd) : Nat × Nat := (e.b.toNat, 4 * (e.x.slotu.toNat * 512))

/-- Updates a channel end of the task in focus. -/
def State.modCh (s : State) (n : BitVec 3) (f : ChEnd → ChEnd) : State :=
  s.modT fun t => { t with chans := t.chans.set n.toNat (f t.chans[n.toNat]) }

/-- The channel end of the task in focus. -/
def State.ch (s : State) (n : BitVec 3) : ChEnd := s.core.t.chans[n.toNat]

/-- The channel a CHSEND names and whether it sends forward. -/
def chsendOf : Instr → Option (BitVec 3 × Bool)
  | .chsendFw _ n _ => some (n, true)
  | .chsendRv _ n _ => some (n, false)
  | _ => none

/-- Whether a channel holds a landed tile or has a CHSEND in flight (R349). -/
def chanBusy (t : Task) (n : BitVec 3) : Bool :=
  t.chans[n.toNat].conf && t.chans[n.toNat].slots.toList.any (·.valid) ||
  t.q.store.any fun k => !k.done && (chsendOf k.instr).any fun c => c.1 = n

/-- The checks of CHCFG in the order of R349, on the end it would make. DEDUCED (log 48). -/
def chcfgCheck (s : State) (n : BitVec 3) (e : ChEnd) : Option FaultInfo :=
  let t := s.core.t
  let others := ((List.range 8).zip t.chans.toList).any fun c => c.1 ≠ n.toNat && c.2.conf && rangeMeets e.region c.2.region
  if e.a.extractLsb' 16 48 != 0 || (e.pkg = s.pkg && dieOf e.phys.toNat = dieOf s.core.phys.toNat) || !t.id.nest then some (.cc cILLOP)
  else if s.cx.pkey = 0 && e.pkg ≠ s.pkg then some (.cc cPROT)
  else if e.b.toNat % 512 ≠ 0 || 2 ^ 21 ≤ e.b.toNat then some (.cc cALIGN)
  else if Config.abBytes < e.region.1 + e.region.2 then some (.cc cOOB)
  else if rangeMeets e.region (topRange t) || others then some (.cc cILLOP)
  else if chanBusy t n then some (.cc cCHAN)
  else none

/-- Whether what a context has with another package is cut off: by its key, or by a link port that is down (R25, R355, R394). -/
def State.cutOff (s : State) (ctx : BitVec 12) (pkg : Nat) : Bool :=
  pkg ≠ s.pkg && (setHas s.plat.revoked (s.ctx ctx).pkey.toNat || setHas s.plat.linkDown (Config.linkPort (BitVec.ofNat 8 pkg)).toNat)

/-- CHCFG (R349): SLOTU 0 releases the channel. An end toward a package that is cut off has lost its partner from the start (R25). -/
def chcfg (up : Bool) (n : BitVec 3) (ra rb : Reg) (x : ChX) (s : State) : Out :=
  cc s false do
    let s ← now
    if x.slotu = 0 then do
      failIf (chanBusy s.core.t n) (.cc cCHAN)
      upd fun s => s.modCh n fun _ => ChEnd.zero
    else do
      let a ← rdS ra
      let b ← rdS rb
      let e : ChEnd := { ChEnd.zero with conf := true, up := up, a := a, b := b, x := x }
      let e : ChEnd := { e with dead := s.cutOff s.cid e.pkg }
      match chcfgCheck s n e with
      | some f => raise f
      | none => upd fun s => s.modCh n fun _ => e
    upd (·.advance 2)

/-- CHCFG.up (R348, R349). -/
def execChcfgUp (n : BitVec 3) (ra rb : Reg) (x : ChX) (s : State) : Out := chcfg true n ra rb x s

/-- CHCFG.dn (R348, R349). -/
def execChcfgDn (n : BitVec 3) (ra rb : Reg) (x : ChX) (s : State) : Out := chcfg false n ra rb x s

/-- The partner of an end on another core of the package, when the two are paired (R350): its core and channel. -/
def State.partner (s : State) (n : BitVec 3) : Option (Core × BitVec 3) :=
  let e := s.ch n
  if !e.conf || e.pkg ≠ s.pkg then none
  else
    let c := s.coreAt e.phys.toNat
    let m := e.x.rch
    let p := c.t.chans[m.toNat]
    if c.running && p.conf && p.up ≠ e.up && p.pkg = s.pkg && p.phys = s.core.phys && p.x.rch = n then some (c, m)
    else none

/-! ### CHSEND (R351) -/

/-- Bytes of a tile as it is sent. -/
def sendBytes (d : Desc) : Nat := dRows d * dRowBytes d

/-- The checks of CHSEND at the queue head, in the order of R351, with those of every tile (R62, R63); last a word that a lower tier has failed
to deliver (R169), since a CHSEND that has passed its checks does not fault. DEDUCED (log 28). -/
def checkChsend (s : State) (n : BitVec 3) (fw : Bool) (d : Desc) : Option (BitVec 8) :=
  let e := s.ch n
  if !e.conf || e.up ≠ fw then some cCHAN
  else if tileIllop d [1] || meetsSlot s.core.t (abRanges d) then some cILLOP
  else if tileAlign d then some cALIGN
  else if !tagWf (dTag d) || dFmt d = 0 then some cTAGMIS
  else if !tileFits d then some cOOB
  else if (List.range (dRows d)).any fun r => s.core.buf.tileRowFail d r then some cTIERERR
  else none

/-- CHSEND at the queue head: its checks; it then stands by for its partner and its credit, from now on. -/
def runChsend (k : Cmd) (n : BitVec 3) (fw : Bool) (s : State) : Prog :=
  match checkChsend s n fw (k.d 0) with
  | some c => { Prog.ok s 0 with stop := some (.fault c none 0) }
  | none => { Prog.ok s 0 with stop := some .wait, got := [s.now] }

/-- The bytes a CHSEND sends, row by row, with their marks. DEDUCED (log 28). -/
def sendData (b : Buffers) (d : Desc) : List GByte :=
  (List.range (dRows d)).flatMap fun r => (b.tileRow d r).map fun x => { x with fail := b.tileRowFail d r }

/-- A tile lands in slot q of channel n of a core (R351): bytes, poison, metadata, the barrier's byte count, then VALID. -/
def State.landTile (s : State) (c : Core) (n : BitVec 3) (q : Nat) (tag : FTag) (rows cols : BitVec 16) (seq : BitVec 32)
    (bs : List GByte) : State :=
  let e := c.t.chans[n.toNat]
  let at_ := (slotRange e q).1
  let buf := (List.range bs.length).foldl (fun (b : Buffers) i =>
    let x := bs.getD i ⟨0, false, false⟩
    let b := if x.pois then b.markPois 1 (at_ + i) 1 else b
    if x.fail then b.markFail 1 (at_ + i) 1 else b) (c.buf.write 1 at_ (bs.map (·.b)))
  let slot : Slot := { e.slots[q % 4] with valid := true, seq := seq, tag := tag, rows := rows, cols := cols }
  let e' : ChEnd := { e with slots := e.slots.set (q % 4) slot }
  let c' : Core := { c with buf := buf, t := { c.t with chans := c.t.chans.set n.toNat e' } }
  let s := s.setCore c.phys.toNat c'
  match e.x.lbe, Scope.ofCode e.x.lbs with
  | true, some sc => s.landBytes (s.bar c.t.id c.phys sc e.x.lbi false) bs.length
  | _, _ => s

/-- A CHSEND that stands by stops with CHAN and makes its checks again when it resumes (R351). -/
def sendLost (k : Cmd) (s : State) : State :=
  s.modCmd .store k.num fun c => { c with ph := 0, got := [], fault := some ⟨cCHAN, 5, 0, k.num, none, 0, 0⟩ }

/-- A tile has been sent: SS moves on, the credit is used. -/
def State.sent (s : State) (n : BitVec 3) : State :=
  s.modCh n fun e => { e with ss := e.ss + 1, cred := e.cred &&& ~~~(1#4 <<< (e.ss.toNat % 4)) }

/-- The partner has acknowledged VALID (R351). -/
def sendDone (k : Cmd) (s : State) : State := s.modCmd .store k.num fun c => { c with done := true, status := 0 }

/-- What TILE_LANDING does with a CHSEND: none while it has to wait: for its partner, which stops it with CHAN where the tile is larger than its
slots, for the credit, for a halted partner (R383), for the acknowledgement of another package. DEDUCED (log 28). -/
def sendStep (k : Cmd) (n : BitVec 3) (s : State) : Option State :=
  let e := s.ch n
  let d := k.d 0
  let q := e.ss.toNat % 4
  if e.dead then some (sendLost k s)
  else if k.ph = 2 then none
  else if e.pkg ≠ s.pkg then
    match e.peer with
    | none => none
    | some u =>
      if u.toNat * 512 < sendBytes d then some (sendLost k s)
      else if e.cred.getLsbD q then some ((s.sent n).modCmd .store k.num fun c => { c with ph := 2 })
      else none
  else match s.partner n with
    | none => none
    | some (c, m) =>
      let p := c.t.chans[m.toNat]
      if p.x.slotu.toNat * 512 < sendBytes d then some (sendLost k s)
      else if p.slots[q % 4].valid || !e.cred.getLsbD q || c.health.halted then none
      else
        some (sendDone k ((s.landTile c m q (dTag d) (BitVec.ofNat 16 (dRows d)) (BitVec.ofNat 16 (dCols d)) e.ss (sendData s.core.buf d)).sent n))

/-- The CHSENDs that stand by, the oldest of each channel (R351: they land in issue order). -/
def standing : List Cmd → List (Cmd × BitVec 3)
  | [] => []
  | k :: l =>
    match chsendOf k.instr with
    | some (n, _) =>
      let r := (standing l).filter fun x => x.2 ≠ n
      if k.done then standing l else if 1 ≤ k.ph && k.fault.isNone then (k, n) :: r else r
    | none => standing l

/-- CREDIT_RETURN (R351, R353): credits of the partner's free slots reach the sender of a channel of the core in focus. -/
def execCreditReturn (n : BitVec 3) (s : State) : Out :=
  .next <|
  match s.partner n with
  | none => s
  | some (c, m) =>
    let p := c.t.chans[m.toNat]
    s.modCh n fun e => { e with cred := (List.range 4).foldl (fun (w : BitVec 4) q => if p.slots[q % 4].valid then w else w ||| (1#4 <<< q)) e.cred }

/-- Whether an end has been paired with its partner (R350). -/
def State.isPaired (s : State) (n : BitVec 3) : Bool := if (s.ch n).pkg = s.pkg then (s.partner n).isSome else (s.ch n).peer.isSome

/-- CHSEND_PAIR_TIMEOUT (R350): a CHSEND that has waited 2^26 cycles for its partner to be paired raises CHAN. -/
def execChsendPairTimeout (s : State) : Out :=
  .next <|
  if !enginesRun s then s
  else match (standing s.core.t.q.store).find? fun x => x.1.ph = 1 && (x.1.got.headD 0) + 2 ^ 26 ≤ s.now && !s.isPaired x.2 with
    | some (k, _) => sendLost k s
    | none => s

/-- The bound command has completed (R353): its slots are free, RS moves on. -/
def freeSlots (num : Word) (s : State) : State :=
  let free (e : ChEnd) : ChEnd :=
    let n := e.slots.toList.countP fun q => q.own = some num
    { e with rs := e.rs + BitVec.ofNat 32 n, slots := e.slots.map fun q => if q.own = some num then { q with valid := false, own := none } else q }
  s.modT fun t => { t with chans := t.chans.map free }

/-! ### The adjoint of CHSEND (R315) -/

/-- A tile of packed rows in AB. -/
def abTile (base : Nat) (tag : FTag) (rows cols : BitVec 16) : Desc :=
  let d : Desc := (1 : Desc) ||| ((tag.setWidth 256 : Desc) <<< (16 : Nat)) ||| (BitVec.ofNat 256 base <<< (32 : Nat)) |||
    ((rows.setWidth 256 : Desc) <<< (96 : Nat)) ||| ((cols.setWidth 256 : Desc) <<< (112 : Nat))
  d ||| (BitVec.ofNat 256 (dRowBytes d) <<< (128 : Nat))

/-- The slot the adjoint of CHSEND reads: the one bound to it, else the valid unbound one with the lowest SEQ. -/
def adjSlot (e : ChEnd) (num : Word) : Option Nat :=
  match (List.range 4).find? fun q => e.slots[q % 4].own = some num with
  | some q => some q
  | none =>
    (List.range 4).foldl (fun (b : Option Nat) q =>
      if e.slots[q % 4].valid && e.slots[q % 4].own.isNone then
        match b with
        | none => some q
        | some p => if e.slots[q % 4].seq.toNat < e.slots[p % 4].seq.toNat then some q else b
      else b) none

/-- The adjoint of CHSEND: binds its slot, waits for the tile, adds it into the counterpart. -/
def adjChsend (k : Cmd) (n : BitVec 3) (fw : Bool) (cp : Option Desc) (s : State) : Prog :=
  let e := s.ch n
  let stop (s : State) (u : Nat) (x : EStop) : Prog := { Prog.ok s u with stop := some x }
  if !e.conf || e.up ≠ fw then stop s 0 (.fault cCHAN none 0)
  else match adjSlot e k.num with
    | none => if e.dead then stop s k.upc (.fault cCHAN none 0) else stop s k.upc .wait
    | some q =>
      let s := s.modCh n fun e => { e with slots := e.slots.set (q % 4) { e.slots[q % 4] with own := some k.num } }
      let sl := e.slots[q % 4]
      match cp with
      | none => .ok s 0
      | some g =>
        let d := abTile (slotRange e q).1 sl.tag sl.rows sl.cols
        let chk : E Unit := do
          echeck (operandFault [(g, [1])] (destIllop s g))
          efailIf (sl.tag != dTag g) cTAGMIS
          efailIf (sl.rows.toNat ≠ dRows g || sl.cols.toNat ≠ dCols g) cCHAN
          topBlkop k (abRanges g)
        checkedElems .vf chk (dRows d * dCols d) k.upc (fun j => do
          let x ← eElem d (j / dCols d) (j % dCols d)
          gradAdd g (j / dCols d) (j % dCols d) (elemVal (dFmt d) x)) s

/-- CHSEND.fw (R351). -/
def execChsendFw (tk : Tok) (n : BitVec 3) (dA : DCode) (s : State) : Out := routed (.chsendFw tk n dA) (pure ()) s

/-- CHSEND.rv (R351). -/
def execChsendRv (tk : Tok) (n : BitVec 3) (dA : DCode) (s : State) : Out := routed (.chsendRv tk n dA) (pure ()) s

/-! ### Matching (R360) -/

/-- The COLLs linked to a list of them by matches; none where one of them is not matched yet: a local one by another COLL, one of another package by what
the fabric has brought (`far`). -/
def collLinked (s : State) (l : List Coll) (far : List Nat) : Nat → List Coll → List Coll → Option (List Coll)
  | 0, _, done => some done
  | _ + 1, [], done => some done
  | f + 1, c :: todo, done =>
    if done.contains c then collLinked s l far f todo done
    else
      let others := (List.range c.req.part.length).filter fun i => i ≠ c.req.me
      let r := others.map fun i =>
        let e := c.req.part.getD i 0
        if e % 256 ≠ s.pkg then (if far.contains e then some [] else none) else (collPair l c e).map fun d => [d]
      if r.any (·.isNone) then none else collLinked s l far f (todo ++ r.flatMap fun x => x.getD []) (done ++ [c])

/-! ### The loss of a partner (R25) and the link (R355, R394) -/

/-- PARTNER_LOSS (R25, R360): a core that holds no task takes no part in any handshake any more: ends that name it are lost, and the
collectives that count it. -/
def execPartnerLoss (core : BitVec 8) (s : State) : Out :=
  .next (if (s.coreAt core.toNat).running then s else (s.loseChannels core).loseColls 0 core)

/-- What tasks of some contexts have with other packages is lost (R25): channel ends, the POD barriers of groups, collectives. -/
def State.cutLinks (s : State) (own : BitVec 12 → Bool) (far : Nat → Bool) (group : BitVec 32 → Bool) : State :=
  let cut (t : Task) : Task :=
    { t with chans := t.chans.map fun e => if e.conf && own t.id.ctx && e.pkg ≠ s.pkg && far e.pkg then { e with dead := true } else e }
  let groups := (s.liveTasks.filter fun t => own t.1.ctx && t.1.podg != 0).map (·.1.podg)
  let brk (r : Bar) : Bar := if podWaits r.sc r.podg && group r.podg && groups.contains r.podg then { r with broken := true } else r
  let s1 := (s.mapAll cut).modS fun c => { c with bars := c.bars.map brk }
  s1.endColls fun c => own c.ctx && c.req.part.any fun e => e % 256 ≠ s.pkg && far (e % 256)

/-- KEY_REVOCATION (R25, R355, R360): the switches drop every packet of the key from now on; what its contexts have with other packages is lost. -/
def execKeyRevocation (key : BitVec 16) (s : State) : Out :=
  .next <|
  let s1 := s.cutLinks (fun x => (s.ctx x).pkey = key.setWidth 64) (fun _ => true) fun _ => true
  { s1 with plat := { s1.plat with revoked := setIns s1.plat.revoked key.toNat, held := s1.plat.held.filter (·.1 ≠ key) } }

/-- The port by which the far end of a channel is reached. -/
def ChEnd.port (e : ChEnd) : BitVec 4 := Config.linkPort (BitVec.ofNat 8 e.pkg)

/-- A link port goes down (R394): what waited on it is lost, tiles that wait for a halted core too. -/
def State.portDown (s : State) (port : BitVec 4) : State :=
  let waits (p : BitVec 16 × FlitBody) : Bool := match p.2 with | .tile n c .. => (s.coreAt c.toNat).t.chans[n.toNat].port = port | _ => false
  let s1 := s.cutLinks (fun _ => true) (fun p => Config.linkPort (BitVec.ofNat 8 p) = port) fun g => Config.podLink g port
  { s1 with plat := { s1.plat with linkDown := setIns s1.plat.linkDown port.toNat, badFlits := Sparse.put 0 s1.plat.badFlits port.toNat 0,
                                   held := s1.plat.held.filter (!waits ·) } }

/-- LINK_PORT_DOWN (R394): what waited on the port is lost. DESIGN CHOICE (log 30). -/
def execLinkPortDown (port : BitVec 4) (s : State) : Out := .next (s.portDown port)

/-- Whether a packet's key is accepted for a context (R355). DESIGN CHOICE (log 35). -/
def State.keyOk (s : State) (key : BitVec 16) (ctx : BitVec 12) : Bool :=
  (s.ctx ctx).pkey = key.setWidth 64 && !setHas s.plat.revoked key.toNat

/-- A packet that is not accepted is counted (R355): LNKDROP saturates (R395). -/
def State.dropPacket (s : State) : State :=
  { s with plat := { s.plat with lnkdrop := if s.plat.lnkdrop = BitVec.allOnes 64 then s.plat.lnkdrop else s.plat.lnkdrop + 1 } }

/-- The context that owns the destination of a packet, where there is one. -/
def flitOwner (s : State) : FlitBody → Option (BitVec 12)
  | .tile n c .. | .credit n c _ | .paired n c _ | .released n c | .ack n c =>
    let k := s.coreAt c.toNat
    if (k.running || k.draining) && k.t.chans[n.toNat].conf && k.t.chans[n.toNat].pkg ≠ s.pkg then some k.t.id.ctx else none
  | .podArrive g _ => (s.liveTasks.find? fun t => t.1.podg = g).map (·.1.ctx)
  | .remoteRead x _ => some x
  | .coreLost .. => none

/-- Updates an end of the task on a core. -/
def State.modEnd (s : State) (c : BitVec 8) (n : BitVec 3) (f : ChEnd → ChEnd) : State :=
  let k := s.coreAt c.toNat
  s.setCore c.toNat { k with t := { k.t with chans := k.t.chans.set n.toNat (f k.t.chans[n.toNat]) } }

/-- A core of another package has been reset or has lost its task (R25, R351, R360): ends that face it have lost their partner, and the collectives that
count it end. -/
def State.farLost (s : State) (pkg phys : BitVec 8) : State :=
  if pkg.toNat = s.pkg then s
  else
    let lose (t : Task) : Task := { t with chans := t.chans.map fun e => if e.conf && e.pkg = pkg.toNat && e.phys = phys then { e with dead := true } else e }
    (s.mapAll lose).endColls fun c => c.req.part.any fun e => partIs e pkg.toNat phys.toNat

/-- A packet of a remote partner takes its effect. A remote read answers its requester and changes nothing here. DESIGN CHOICE (log 30). -/
def flitApply (s : State) : FlitBody → State
  | .tile n c tag rows cols bs pois =>
    let k := s.coreAt c.toNat
    let e := k.t.chans[n.toNat]
    let seq := e.rs.toNat + e.slots.toList.countP (·.valid)
    if e.slots[seq % 4].valid || e.x.slotu.toNat * 512 < bs.length then s
    else s.landTile k n (seq % 4) tag rows cols (BitVec.ofNat 32 seq)
      ((List.range bs.length).map fun i => ⟨bs.getD i 0, pois.contains (i / 8), false⟩)
  | .credit n c q => s.modEnd c n fun e => { e with cred := e.cred ||| (1#4 <<< q.toNat) }
  | .paired n c u => s.modEnd c n fun e => { e with peer := some u }
  | .released n c => s.modEnd c n fun e => { e with peer := none }
  | .coreLost p c => s.farLost p c
  | .ack n c =>
    let k := s.coreAt c.toNat
    match (standing k.t.q.store).find? fun x => x.2 = n && x.1.ph = 2 with
    | none => s
    | some (m, _) => s.setCore c.toNat { k with t := { k.t with q := { k.t.q with
        store := k.t.q.store.map fun x => if x.num = m.num then { x with done := true, status := 0 } else x } } }
  | .podArrive g b =>
    s.modS fun c => { c with bars := c.bars.map fun r => if r.sc = .pod && r.podg = g && r.b = b && !r.phaseBar then Bar.settle { r with remote := false } else r }
  | .remoteRead .. => s

/-- The core a packet waits for: a tile goes to no halted core (R383). -/
def flitHalted (s : State) : FlitBody → Bool
  | .tile _ c .. => (s.coreAt c.toNat).health.halted
  | _ => false

/-- A packet that has arrived: of another key than its destination's context it is dropped; a tile for a halted core waits at its sender (R383). Word
that a remote core is lost comes from the fabric itself and is under no key. -/
def State.receive (s : State) (key : BitVec 16) (body : FlitBody) : State :=
  match body, flitOwner s body with
  | .coreLost .., _ => flitApply s body
  | _, none => s.dropPacket
  | _, some x =>
    if !s.keyOk key x then s.dropPacket
    else if flitHalted s body then { s with plat := { s.plat with held := s.plat.held ++ [(key, body)] } }
    else flitApply s body

/-- A flit that fails its check asks for a retry (R394): with the 32nd in a row on its port the port goes down. DEDUCED (log 30). -/
def State.badFlit (s : State) (port : BitVec 4) : State :=
  let n := Sparse.get 0 s.plat.badFlits port.toNat + 1
  if n = 32 then s.portDown port else { s with plat := { s.plat with badFlits := Sparse.put 0 s.plat.badFlits port.toNat n } }

/-- FLIT_RECEIVE (R355, R394): a flit that fails its check is resent and not delivered; a port that is down brings none. -/
def execFlitReceive (crcOk : Bool) (src : FlitSrc) (body : FlitBody) (s : State) : Out :=
  .next <|
  if setHas s.plat.linkDown src.port.toNat then s
  else if crcOk then ({ s with plat := { s.plat with badFlits := Sparse.put 0 s.plat.badFlits src.port.toNat 0 } } : State).receive src.key body
  else s.badFlit src.port

/-- The oldest tile that waits for a core that is halted no more lands (R383, R384). -/
def State.unhold (s : State) : Option State :=
  (s.plat.held.find? fun p => !flitHalted s p.2).map fun p =>
    ({ s with plat := { s.plat with held := s.plat.held.erase p } } : State).receive p.1 p.2

/-- The first CHSEND that can go on, toward this package or out of it. -/
def sendNext (s : State) (remote : Bool) : Option State :=
  ((standing s.core.t.q.store).filter fun x => remote || (s.ch x.2).pkg = s.pkg || (s.ch x.2).dead).findSome? fun x => sendStep x.1 x.2 s

/-- TILE_LANDING (R351): a tile lands in its slot, or a CHSEND that has lost its partner stops; a tile leaves for another package where
none lands here. -/
def execTileLanding (s : State) : Out :=
  .next <|
  match s.unhold with
  | some s' => s'
  | none =>
    if !enginesRun s then s
    else match sendNext s false with
      | some s' => s'
      | none => (sendNext s true).getD s

/-! ### The request of a collective (R357, R358) -/

/-- 2^61 - 1 (R362). -/
def p61 : Nat := 2 ^ 61 - 1

/-- The digest of words under a key (R362). -/
def digest (key : Nat) (ws : List Nat) : Nat :=
  (ws.foldl (fun (a : Nat × Nat) w => ((a.1 + w % p61 * a.2) % p61, a.2 * (key % p61) % p61)) (0, key % p61)).1

/-- Words of four bytes. -/
def words4 (b : List Byte) (n : Nat) : List Nat := (List.range n).map fun i => fld b (4 * i) 4

/-- Bytes of an element in memory (R358: FA56 in a container of eight). -/
def collSize (f : BitVec 4) : Nat := if f = 0xB then 8 else elemBits f / 8

/-- Elements a participant reads and writes (R359). -/
def CollReq.srcCount (r : CollReq) : Nat := if r.op = 4 then r.np * r.count else r.count
def CollReq.dstCount (r : CollReq) : Nat := if r.op = 3 then r.np * r.count else r.count

/-- Whether ROP and AF go with OP and FMT (R357). -/
def collTypes (r : CollReq) : Bool :=
  let fl := r.fmt == 6 || r.fmt == 7 || r.fmt == 8 || r.fmt == 0xB
  let int := r.fmt == 2 || r.fmt == 3
  (fl || int) &&
  (if r.op = 2 || r.op = 3 then r.rop = 0 && r.af = 0
   else if r.rop ≤ 2 then fl && (r.af == r.fmt || r.af == 0xB || (r.af == 8 && (r.fmt == 6 || r.fmt == 7)))
   else r.rop ≤ 5 && int && r.af == r.fmt)

/-- The ILLOP rules of the request block (R358). -/
def collIllop (b : List Byte) (r : CollReq) : Bool :=
  let ns := r.srcCount * collSize r.fmt
  let nd := r.dstCount * collSize r.fmt
  let meet := decide (r.src.toNat < r.dst.toNat + nd) && decide (r.dst.toNat < r.src.toNat + ns)
  !zeroAt b 5 3 || !zeroAt b 52 4 || 16 ≤ fld b 2 1 || 16 ≤ fld b 3 1 || 2 ≤ r.flg || 4 < r.op || !collTypes r || r.np = 0 || 256 < r.np ||
  r.np ≤ r.me || r.count = 0 || 2 ^ 32 < r.count || (r.flg = 1 && (r.op = 1 || r.op = 4 || r.key.toNat % p61 < 2)) ||
  (meet && (r.src != r.dst || r.op = 3 || r.op = 4))

/-- The root of a tree: the participant that is never a FROM. -/
def collRoot (r : CollReq) : Nat := ((List.range r.np).find? fun i => !r.edge.any (·.1 = i)).getD 0

/-- Each edge with FROM = x stands after every edge with TO = x. -/
def edgesOrdered : List (Nat × Nat) → Bool
  | [] => true
  | e :: l => !l.any (fun f => f.2 = e.1) && edgesOrdered l

/-- The tree rules and the participant table (R358). -/
def treeBad (s : State) (k : BitVec 4) (r : CollReq) : Bool :=
  let froms := r.edge.map (·.1)
  r.edge.any (fun e => r.np ≤ e.1 || r.np ≤ e.2 || e.1 = e.2) || froms.eraseDups.length ≠ froms.length || !edgesOrdered r.edge ||
  r.part.any (fun e => 2 ^ 20 ≤ e) || r.part.eraseDups.length ≠ r.part.length ||
  r.part.getD r.me 0 ≠ s.pkg + 256 * s.core.phys.toNat + 65536 * k.toNat

/-- The request of a block (R357), its tables still empty. -/
def collReq (b : List Byte) : CollReq :=
  { op := fld b 0 1, rop := fld b 1 1, fmt := BitVec.ofNat 4 (fld b 2 1), af := BitVec.ofNat 4 (fld b 3 1), flg := fld b 4 1,
    src := BitVec.ofNat 64 (fld b 8 8), dst := BitVec.ofNat 64 (fld b 16 8), count := fld b 24 8, np := fld b 48 2, me := fld b 50 2,
    key := BitVec.ofNat 64 (fld b 56 8), part := [], edge := [] }

/-- The request of a COLL read and checked in the order of R358, against the PKEY its command has captured (R147). -/
def readColl (a : Word) (k : BitVec 4) (pkey : Word) : E CollReq := do
  if a.toNat % 64 ≠ 0 then efailAt cALIGN a
  else
    let b ← eUseG a 64
    let r := collReq b
    efailIf (collIllop b r) cILLOP
    let pa : Word := BitVec.ofNat 64 (fld b 32 8)
    let ea : Word := BitVec.ofNat 64 (fld b 40 8)
    if pa.toNat % 4 ≠ 0 then efailAt cALIGN pa
    else if ea.toNat % 4 ≠ 0 then efailAt cALIGN ea
    else
      let pb ← eUseG pa (4 * r.np)
      let eb ← eUseG ea (4 * (r.np - 1))
      let r := { r with part := words4 pb r.np, edge := (words4 eb (r.np - 1)).map fun w => (w % 65536, w / 65536) }
      let s ← enow
      efailIf (treeBad s k r) cILLOP
      efailIf (pkey = 0 && r.part.any fun e => e % 256 ≠ s.pkg) cPROT
      let n := collSize r.fmt
      if r.src.toNat % n ≠ 0 then efailAt cALIGN r.src
      else if r.dst.toNat % n ≠ 0 then efailAt cALIGN r.dst
      else
        let _ ← eRange .r r.src (r.srcCount * n)
        let _ ← eRange .w r.dst (r.dstCount * n)
        pure r

/-- The tree digest TD (R360): the fields, the participant table, every edge word. -/
def treeDigest (r : CollReq) : Word :=
  BitVec.ofNat 64 (digest 3 ([r.op, r.rop, r.fmt.toNat, r.af.toNat, r.flg, r.count, r.np, r.key.toNat] ++ r.part ++
    r.edge.map fun e => e.1 + 65536 * e.2))

/-- Pairs of a flat list. -/
def pairsOf : List Word → List (Word × Word)
  | a :: b :: l => (a, b) :: pairsOf l
  | _ => []

/-- The source elements with their poison; a lower-tier failure is told apart. -/
def readSource (r : CollReq) : E (List Nat × List Nat × Bool) := do
  let n := collSize r.fmt
  let cnt := if r.op = 2 && r.me ≠ collRoot r then 0 else r.srcCount
  let bs ← eReadG r.src (cnt * n)
  let el (i : Nat) : List GByte := (bs.drop (i * n)).take n
  pure ((List.range cnt).map fun i => leNat ((el i).map (·.b)), (List.range cnt).filter fun i => (el i).any (·.pois), bs.any (·.fail))

/-- COLL at the queue head (R356, R358, R363): earlier closure COLLs of the task complete first; a pending MISCLOSE is raised; the request is
checked, the sources are read, and the fabric holds the request. Where a lower tier fails to deliver the sources the participant is lost (R360); where it
fails to deliver the request itself, which ends the command with its status (R169), the channel number completes as of a lost one. DEDUCED (log 29). -/
def runColl (k : Cmd) (ch : BitVec 4) (s : State) : Prog :=
  let t := s.core.t
  let stop (s : State) (x : EStop) : Prog := { Prog.ok s 0 with stop := some x }
  if s.colls.any fun c => c.uid = t.id.uid && c.ph ≠ 4 && c.req.flg % 2 = 1 then stop s .wait
  else if t.pend.misclose then
    stop (s.modT fun t => { t with pend := { t.pend with misclose := false } }) (.fault cMISCLOSE none 0)
  else
    let m : E (CollReq × List Nat × List Nat × Bool) := do
      let r ← readColl (k.v 0) ch (k.sysr.getD 3 0)
      pure (r, ← readSource r)
    let enter (s : State) (r : CollReq) (src pois : List Nat) (failed : Bool) : State :=
      let c : Coll :=
        { uid := t.id.uid, ctx := t.id.ctx, phys := s.core.phys, prv := t.prv, lid := t.id.lid, slot := t.id.slot, k := ch, num := k.num2,
          n := t.collN, step := t.sys.dieset.extractLsb' 32 32, tok := k.tok, req := r, td := treeDigest r,
          closure := pairsOf (k.vals.drop 1), src := src, srcPois := pois, ph := 0, group := 0, res := [], resPois := [], flags := 0,
          code := if failed then 0x22 else 0, div := [], digest := none, remote := [] }
      let s1 : State := { (s.modT fun t => { t with collN := t.collN + 1 }) with colls := s.colls ++ [c] }
      if failed then s1.endColls fun d => d.uid = c.uid && d.n = c.n else s1
    match m s with
    | .error (.status code tier) => stop (enter s (collReq []) [] [] true) (.status code tier)
    | .error x => stop s x
    | .ok ((r, src, pois, failed), s) => .ok (enter s r src pois failed) 0

/-- COLL (R356). -/
def execColl (tk : Tok) (k : BitVec 4) (ra : Reg) (s : State) : Out := routed (.coll tk k ra) (pure ()) s

/-! ### Results (R359) -/

/-- A source element in the accumulation format, exactly (R359). -/
def collIn (r : CollReq) (x : Nat) : Nat :=
  match floatFmt? r.fmt, floatFmt? r.af with
  | some F, some A => (A.round .rne false (F.decode (x % 2 ^ F.width))).1
  | _, _ => x % 2 ^ elemBits r.fmt

/-- Node (R359). -/
def collNode (r : CollReq) (a b : Nat) : Nat × FFlags :=
  match floatFmt? r.af with
  | some A =>
    match r.rop with
    | 0 =>
      let (z, f) := Num.add .rne (A.decode a) (A.decode b)
      let (x, g) := A.round .rne false z
      (x, f ||| g)
    | 1 => (fminmax A true a b, 0)
    | _ => (fminmax A false a b, 0)
  | none =>
    let w := elemBits r.af
    let less := intOf w true a < intOf w true b
    match r.rop with
    | 3 => ((a + b) % 2 ^ w, 0)
    | 4 => (if less then b else a, 0)
    | _ => (if less then a else b, 0)

/-- The result at one position, with its flags: the nodes in list order, then one rounding to FMT. -/
def collElem (r : CollReq) (root : Nat) (vals : List Nat) : Nat × FFlags :=
  let (v, f) := r.edge.foldl (fun (a : List Nat × FFlags) e =>
    let (x, g) := collNode r (a.1.getD e.2 0) (a.1.getD e.1 0)
    (a.1.set e.2 x, a.2 ||| g)) (vals.map (collIn r), 0)
  let x := v.getD root 0
  match floatFmt? r.fmt, floatFmt? r.af with
  | some F, some A => let (y, g) := F.round .rne false (A.decode x); (y, f ||| g)
  | _, _ => (x, f)

/-- What participants bring: elements and the poisoned ones, by index. -/
abbrev Parts := List (List Nat × List Nat)

/-- The elements a participant's destination takes, the poisoned ones, and the flags (R359). -/
def collResult (r : CollReq) (p : Parts) (i : Nat) : List Nat × List Nat × FFlags :=
  let root := collRoot r
  let src (j : Nat) : List Nat × List Nat := p.getD j ([], [])
  let all := (List.range r.srcCount).map fun e => collElem r root ((List.range r.np).map fun j => (src j).1.getD e 0)
  let fl := all.foldl (fun f x => f ||| x.2) (0 : FFlags)
  let pois := (List.range r.srcCount).filter fun e => (List.range r.np).any fun j => (src j).2.contains e
  match r.op with
  | 0 => (all.map (·.1), pois, fl)
  | 1 => if i = root then (all.map (·.1), pois, fl) else ([], [], fl)
  | 2 => ((src root).1, (src root).2, 0)
  | 3 => ((List.range r.np).flatMap fun j => (List.range r.count).map fun e => (src j).1.getD e 0,
          (List.range r.np).flatMap fun j => (src j).2.map fun e => j * r.count + e, 0)
  | _ => (((all.map (·.1)).drop (i * r.count)).take r.count,
          (pois.filter fun e => i * r.count ≤ e && e < (i + 1) * r.count).map fun e => e - i * r.count, fl)

/-- What the fabric brings of remote participants that is accepted (R355): what a COLL that waits names and has the key of; what none does is counted. -/
def State.acceptParts (s : State) (l : List Coll) (parts : List PartIn) : State × List PartIn :=
  let ok (p : PartIn) : Bool := l.any fun c => c.names p.ep && s.keyOk p.key c.ctx
  ((parts.filter (!ok ·)).foldl (fun (s : State) _ => s.dropPacket) s, parts.filter ok)

/-- Whether a collective counts a participant that a revoked key or a port that is down has cut off (R25, R355, R394). -/
def Coll.isCut (c : Coll) (s : State) : Bool := c.req.part.any fun e => s.cutOff c.ctx (e % 256)

/-- COLL_MATCH (R360): the earliest request of channel k of the core in focus that is not matched yet, with those it is linked to and what the
fabric brings of the remote participants that any of them names; a lost participant ends the collective with 0x22, a disagreement with 0x21. DEDUCED (log 29). -/
def execCollMatch (k : BitVec 4) (parts : List PartIn) (s : State) : Out :=
  let l := s.colls.filter fun c => (c.ph = 0 || c.ph = 4) && c.code ≠ 0x21
  .next <|
  match l.find? fun c => c.phys = s.core.phys && c.k = k && c.ph = 0 && c.code = 0 with
  | none => s
  | some c =>
    if c.isCut s || (lostColls l l.length [c]).any (·.code = 0x22) then s.endColls (· = c)
    else
    let (s, parts) := s.acceptParts l (parts.filter fun p => p.ep % 256 ≠ s.pkg)
    match collLinked s l (parts.map (·.ep)) (256 * l.length + 2) [c] [] with
    | none => s
    | some g =>
      let agree := (g.all fun d => d.td = c.td) && parts.all fun p => p.treeDigest = c.td || !g.any (·.names p.ep)
      let mark (d : Coll) : Coll :=
        if !g.contains d || d.ph ≠ 0 then d
        else if !agree then { d with code := 0x21 }
        else
          let src : Parts := (List.range c.req.np).map fun i =>
            match g.find? fun x => x.req.me = i with
            | some x => (x.src, x.srcPois)
            | none => match parts.find? fun p => p.ep = c.req.part.getD i 0 with
              | some p => (p.vals.map (·.toNat), p.poisoned)
              | none => ([], [])
          let (res, pois, fl) := collResult d.req src d.req.me
          { d with ph := 1, group := s.nextColl, res := res, resPois := pois, flags := fl, remote := parts.map fun p => (c.req.part.idxOf p.ep, p.digest) }
      { s with colls := s.colls.map mark, nextColl := s.nextColl + 1 }

/-! ### Completion (R356, R361 to R365) -/

/-- Writes bytes of a collective's result for its task, page by page; bytes that are refused are left out. -/
def collWrite (c : Coll) : Nat → Word → List GByte → State → State
  | 0, _, _, s => s
  | f + 1, va, bs, s =>
    if bs.isEmpty then s
    else
      let m := min bs.length (4096 - va.toNat % 4096)
      let (s1, r) := translate s c.ctx va .w (!c.prv)
      let tl := (s.ctx c.ctx).tlnbase &&& 0x01FFFFFFFFFFE000#64
      let s2 := match r with
        | .error _ => s1
        | .ok x =>
          if tl != 0 && va &&& 0xFFFFFFFFFFFFE000#64 == tl then s1
          else match s1.store c.ctx x.pa ((bs.take m).map (·.b)) with
            | .error _ => s1
            | .ok s2 => (List.range m).foldl (fun (s : State) i => if (bs.getD i ⟨0, false, false⟩).pois then s.homeSetPois (x.pa + i) 1 else s) (s2.sealLines x x.pa m)
      collWrite c f (va + BitVec.ofNat 64 m) (bs.drop m) s2

/-- The result of a collective lands, its flags with it (R356, R359). -/
def collLand (c : Coll) (s : State) : State :=
  let n := collSize c.req.fmt
  let bs := (List.range c.res.length).flatMap fun i => (leBytes n (c.res.getD i 0)).map fun b => (⟨b, c.resPois.contains i, false⟩ : GByte)
  (collWrite c (bs.length / 4096 + 2) c.req.dst bs s).mapTask c.uid fun t => { t with sys := { t.sys with atfl := t.sys.atfl ||| c.flags } }

/-- The bytes as an engine of a task reads them, and whether one of them is poisoned (R133), wherever the task stands: its view and its packets over the
homes. -/
def View.overHome (v : View) (ps : List Packet) (s : State) (pa n : Nat) : List Byte :=
  (List.range n).map fun i => (ownByte v ps (pa + i)).getD (s.homeByte (pa + i))

def View.poisOver (v : View) (ps : List Packet) (s : State) (pa n : Nat) : Bool :=
  (List.range ((pa % 8 + n + 7) / 8)).any fun i => ownPois v ps (s.homePois (8 * (pa / 8 + i))) (pa / 8 + i)

/-- Bytes a participant's digest reads (R362): as engine reads of the issuing task; none where one of them is poisoned or cannot be read. -/
def collRead (s : State) (c : Coll) : Nat → Word → Nat → Option (List Byte)
  | 0, _, _ => some []
  | f + 1, va, n =>
    if n = 0 then some []
    else
      let m := min n (4096 - va.toNat % 4096)
      match translate s c.ctx va .r (!c.prv) with
      | (_, .error _) => none
      | (_, .ok x) =>
        let v := ((s.tasks.find? fun t => t.1.id.uid = c.uid).map (·.1.view)).getD ⟨[], [], [], []⟩
        let ps := s.packetsOf c.uid
        if s.homeFail x.pa m || v.poisOver ps s x.pa m then none
        else (collRead s c f (va + BitVec.ofNat 64 m) (n - m)).map fun l => v.overHome ps s x.pa m ++ l

/-- 64-bit words of bytes, padded with zeros. -/
def words8 (b : List Byte) : List Nat := (List.range ((b.length + 7) / 8)).map fun i => leNat ((b.drop (8 * i)).take 8)

/-- The closure digest of a participant whose result has landed (R362). -/
def collDigest (s : State) (c : Coll) : Option Word :=
  let n := c.req.dstCount * collSize c.req.fmt
  let regions := (c.req.dst, n) :: c.closure.map fun r => (r.1, r.2.toNat)
  let rs := regions.map fun r => collRead s c (r.2 / 4096 + 2) r.1 r.2
  if rs.any (·.isNone) then none
  else some (BitVec.ofNat 64 (digest c.req.key.toNat (rs.flatMap fun r => words8 (r.getD []))))

/-- The outcome of the closure check (R363): the divergent participants, and each one's code. -/
def collOutcome (ds : List (Option Word)) : List Nat × (Nat → BitVec 8) :=
  let n := ds.length
  let maj := ds.find? fun d => d.isSome && n < 2 * ds.countP (· = d)
  match maj with
  | none => (List.range n, fun _ => 0x12)
  | some m =>
    let div := (List.range n).filter fun i => ds.getD i none ≠ m
    (div, fun i => if div = [] then 0 else if div.contains i then 0x10 else 0x11)

/-- When every local participant has landed, the digests are compared (R363). -/
def collCompare (g : Nat) (s : State) : State :=
  let l := s.colls.filter fun c => c.group = g && c.ph = 2
  if s.colls.any fun c => c.group = g && c.ph = 1 && c.code = 0 then s
  else match l with
    | [] => s
    | c :: _ =>
      if c.req.flg % 2 = 0 then { s with colls := s.colls.map fun d => if d.group = g && d.ph = 2 then { d with ph := 3 } else d }
      else
        let ds := (List.range c.req.np).map fun i => match l.find? fun d => d.req.me = i with
          | some d => d.digest
          | none => (c.remote.find? fun p => p.1 = i).bind (·.2)
        let (div, code) := collOutcome ds
        let mark (d : Coll) : Coll :=
          if d.group = g && d.ph = 2 then { d with ph := 3, div := div, code := if d.code = 0 then code d.req.me else d.code } else d
        { s with colls := s.colls.map mark }

/-- Updates a collective by its task and ordinal. -/
def State.modColl (s : State) (c : Coll) (f : Coll → Coll) : State :=
  { s with colls := s.colls.map fun d => if d.uid = c.uid && d.n = c.n then f d else d }

/-- The log entry of a COLL (R365). -/
def collEntry (c : Coll) : List Byte :=
  let dg : Nat := if c.req.flg % 2 = 1 then (c.digest.getD 0).toNat else 0
  leBytes 4 c.step.toNat ++ leBytes 4 c.lid.toNat ++ leBytes 8 c.td.toNat ++ leBytes 8 dg ++ leBytes 1 c.code.toNat ++ leBytes 1 c.k.toNat ++
  leBytes 2 c.div.length ++ leBytes 4 c.num.toNat ++ leBytes 32 (c.div.foldl (fun x i => x + 2 ^ i) 0)

/-- Writes the log entry (R365); a write that would fault is dropped. -/
def collLog (c : Coll) (s : State) : State :=
  let base := (s.ctx c.ctx).clogb &&& 0x01FFFFFFFFFFF000#64
  if base = 0 then s
  else (s.deviceWrite c.ctx (base + BitVec.ofNat 64 (4096 * c.slot.toNat + 64 * (c.n % 64))) (collEntry c)).1

/-- The status word of a COLL (R364). -/
def collWord (c : Coll) : Word :=
  c.td.extractLsb' 0 32 ++ ((0 : BitVec 8) ++ (BitVec.ofNat 8 (c.div.headD 0) ++ (BitVec.ofNat 8 (min 255 c.div.length) ++ c.code)))

/-- The channel number completes (R356, R363 to R365): held while the push does not fit (R20). A lost participant that was not matched stands on for the
COLLs that are still to be matched with it (R360). -/
def collFinish (c : Coll) (s : State) : State :=
  let held := s.tasks.any fun t => t.1.id.uid = c.uid && !t.1.toks.canPush .store c.tok
  if held then s
  else
    let fin (t : Task) : Task :=
      { t with toks := t.toks.push .store c.tok,
               tls := { t.tls with coll := t.tls.coll.set c.k.toNat { t.tls.coll[c.k.toNat] with v := c.num } },
               collSt := Sparse.ins t.collSt (16 * c.k.toNat + c.num.toNat % 16) (collWord c),
               pend := { t.pend with misclose := t.pend.misclose || c.code = 0x10 || c.code = 0x12 } }
    let s := collLog c (s.mapTask c.uid fin)
    { s with colls := if c.ph = 0 && c.code = 0x22 && !c.req.part.isEmpty then s.colls.map fun d => if d.uid = c.uid && d.n = c.n then { d with ph := 4 } else d
                      else s.colls.filter fun d => !(d.uid = c.uid && d.n = c.n) }

/-- Whether the task of a COLL is stopped by a trap or halted: its timelines and tokens stand still (R370, R383). -/
def collHeld (s : State) (c : Coll) : Bool :=
  (s.cores.any fun k => k.running && k.t.id.uid = c.uid && (k.stopped || k.health.halted || k.health.haltReq)) ||
  s.sched.ready.any fun r => match r.work with | .resume t _ _ => t.id.uid = c.uid && t.away.stopped | _ => false

/-- COLL_COMPLETE (R356): of the oldest COLL of channel k that the core in focus has issued, the result lands, the closure is compared when
every participant here has landed, and the number completes. -/
def execCollComplete (k : BitVec 4) (s : State) : Out :=
  .next <|
  match s.colls.find? fun c => c.phys = s.core.phys && c.k = k && c.ph ≠ 4 with
  | none => s
  | some c =>
    if collHeld s c then s
    else
    let s1 :=
      if c.code = 0 && c.ph = 1 then
        let s1 := collLand c s
        collCompare c.group (s1.modColl c fun d => { d with ph := 2, digest := if d.req.flg % 2 = 1 then collDigest s1 d else none })
      else s
    match s1.colls.find? fun d => d.uid = c.uid && d.n = c.n with
    | some d => if d.ph = 3 || d.code = 0x21 || d.code = 0x22 then collFinish d s1 else s1
    | none => s1

/-! ### CDIG and CSTAT (R361, R364) -/

/-- CDIG (R361): a region joins the closure list; a seventeenth one, or a bad length, raises ILLOP, a misalignment ALIGN. -/
def execCdig (ra rb : Reg) (s : State) : Out :=
  ccNext s false do
    let a ← rdS ra
    let b ← rdS rb
    let s ← now
    failIf (b.toNat < 8 || 2 ^ 40 < b.toNat || 16 ≤ s.core.t.closure.length) (.cc cILLOP)
    failIf (a.toNat % 8 ≠ 0) (.at cALIGN a)
    failIf (b.toNat % 8 ≠ 0) (.cc cALIGN)
    upd fun s => s.modT fun t => { t with closure := t.closure ++ [(a, b)] }

/-- CDIG.clr (R361). -/
def execCdigClr (s : State) : Out := ccNext s false (upd fun s => s.modT fun t => { t with closure := [] })

/-- CSTAT (R364). -/
def execCstat (rd : Reg) (k : BitVec 4) (ra : Reg) (s : State) : Out :=
  ccNext s false do
    let n ← rdS ra
    let s ← now
    let tl := s.core.t.tls.coll[k.toNat]
    failIf (n = 0 || tl.i.toNat < n.toNat) (.cc cILLOP)
    let v : Word :=
      if n.toNat + 16 ≤ tl.i.toNat then 0x02
      else if tl.v.toNat < n.toNat then 0x01
      else Sparse.get 0 s.core.t.collSt (16 * k.toNat + n.toNat % 16)
    capture 0xD4 v (wrS rd)

/-- CSTAT.tl (R364). -/
def execCstatTl (rd : Reg) (k : BitVec 4) (s : State) : Out :=
  ccNext s false do
    let s ← now
    capture 0xD4 s.core.t.tls.coll[k.toNat].v (wrS rd)

end Sys2Proof.Machine
end

