-- ==== Sys2Proof/Machine/Platform.lean ====
section
/-! DEFINITION. The host interface, boot, power and monitors (16_platform.md R387 to R399), record and replay of host inputs (R385, R386):
one definition per event. -/

namespace Sys2Proof.Machine

/-- Records a ring holds; none when it is disabled (R388). -/
def ringSize (h : HostSt) (p : BitVec 2) : Nat :=
  let n := (h.hrsize[p.toNat].extractLsb' 0 5).toNat
  if n = 0 then 0 else 2 ^ n

/-- Bytes 4 to 7 of an event that names a ring and a record index: the ring in byte 4, the index in bytes 5 to 7 (R391). -/
def ringWord (p : BitVec 2) (i : BitVec 32) : Nat := p.toNat + 256 * (i.toNat % 2 ^ 24)

/-- DOORBELL (R389): a tail within the ring is accepted, any other one posts a doorbell event. -/
def State.doorbell (s : State) (p : BitVec 2) (tail : BitVec 32) : State :=
  let h := s.host
  let n := ringSize h p
  if n != 0 && (tail - h.head[p.toNat]).toNat ≤ n then
    { s with host := { h with tail := h.tail.set p.toNat tail, failed := h.failed.set p.toNat false } }
  else s.post 3 0 0 (ringWord p tail) []

/-- DOORBELL (R389). -/
def execDoorbell (p : BitVec 2) (tail : BitVec 32) (s : State) : Out := .next (s.doorbell p tail)

/-- Whether ring p holds an unread record the device may read (R389, R398). -/
def State.ringReady (s : State) (p : BitVec 2) : Bool :=
  let h := s.host
  let n := ringSize h p
  let d := (h.tail[p.toNat] - h.head[p.toNat]).toNat
  s.plat.fwOk && n != 0 && !h.failed[p.toNat] && 0 < d && d ≤ n

/-- The record at the head of a ring (R388). -/
def State.ringRecord (s : State) (p : BitVec 2) : List Byte :=
  let h := s.host
  readBytes h.mem (h.hrbase[p.toNat].toNat + 128 * (h.head[p.toNat].toNat % ringSize h p)) 128

/-- HOST_RING_RECORD_READ (R389): checks the record at HEAD; a faulty one posts a launch event, one without room stays, any other is handed to
the banksman at priority p. In replay mode launches come from the log (R386). -/
def execHostRingRecordRead (p : BitVec 2) (s : State) : Out :=
  .next <|
  if !s.ringReady p then s
  else
    let r := s.ringRecord p
    let i := s.host.head[p.toNat]
    let next (s : State) : State := { s with host := { s.host with head := s.host.head.set p.toNat (i + 1) } }
    if !launchOk r none then next (s.post 1 cLAUNCH (lrCtx r) (ringWord p i) [])
    else if (s.ctx (lrCtx r)).rrctl.extractLsb' 0 2 == 2 then s
    else if s.noRoom (lrCtx r) p then s
    else next (s.accept r true 0 0 p)

/-- RING_READ_FAILURE (R389): the record stays unread until the next accepted doorbell. -/
def execRingReadFailure (p : BitVec 2) (s : State) : Out :=
  .next (if s.ringReady p then
    { s.post 9 0 0 (ringWord p s.host.head[p.toNat]) [] with
      host := { (s.post 9 0 0 (ringWord p s.host.head[p.toNat]) []).host with failed := s.host.failed.set p.toNat true } }
  else s)

/-- Records a host write (R385 kind 2), 32 bytes an entry. -/
def State.logHostWrite (s : State) (ctx : BitVec 12) (va : Word) : Nat → List Byte → State
  | 0, _ => s
  | _ + 1, [] => s
  | n + 1, bs =>
    let h := bs.take 32
    let l := s.rrLaunch ctx
    (s.rrAppend ctx (rrEntry 2 h.length 0 (Launch.rrStep l) (Launch.rrTcyc l s.now) va h)).logHostWrite ctx (va + 32) n (bs.drop 32)

/-- What the device answers a host read with (R390, R392). -/
def State.setRdata (s : State) (d : Option (List Byte)) : State := { s with host := { s.host with rdata := d } }

/-- WINDOW_ACCESS (R390): a host access of BAR 2, 64 GiB (R387), at the home of virtual address `off` of context WINCTX, as a direct-class access; one
that cannot be translated, or whose bytes a compressed block refuses, posts a window event and changes nothing. The translation is a system-level
one (R134). Without firmware the device offers only BAR 0 (R398). DEDUCED (log 34). -/
def execWindowAccess (write : Bool) (off : Word) (len : Nat) (data : List Byte) (s : State) : Out :=
  .next <|
  if !s.plat.fwOk then s.setRdata none
  else if !s.host.winctx.getLsbD 12 || 2 ^ 36 < off.toNat + (if write then data.length else len) then s
  else
    let x := s.host.winctx.extractLsb' 0 12
    let refuse (s : State) (c : BitVec 8) : State := (s.post 4 c x 0 []).setRdata none
    match translate s x off (if write then .w else .r) false with
    | (s', .error (c, _)) => refuse s' c
    | (s', .ok t) =>
      if write then match s'.store x t.pa data with
        | .ok s2 => (s2.sealLines t t.pa data.length).logHostWrite x off (data.length + 1) data
        | .error c => refuse s' c
      else s'.setRdata (some (s'.homeBytes t.pa len))

/-! ### Attestation (R399) -/

/-- The little-endian bytes of a bit vector. -/
def bvBytes {w : Nat} (n : Nat) (x : BitVec w) : List Byte := leBytes n x.toNat

/-- Whether the firmware image of a part of the package has been verified (R398): 0 the compute die, 1 to 12 the base dies; and the image. -/
def State.verified (s : State) (n : Nat) : Bool := if n = 0 then s.plat.fwOk else s.plat.hbmOn.getLsbD (n - 1)
def State.firmware (s : State) (n : Nat) : List Byte := if n = 0 then s.plat.image else Config.baseImage (n - 1)

/-- Digests of the images: compute-die firmware, then base dies 0 to 11; of an image that is not verified, zeros. DESIGN CHOICE (log 39). -/
def imageDigests (s : State) : List Byte :=
  (List.range 13).flatMap fun n => if s.verified n then bvBytes 64 (Config.shake256 (s.firmware n)) else List.replicate 64 0

/-- The digests of the verified images only, from which the attestation key is derived (R399). -/
def verifiedDigests (s : State) : List Byte :=
  ((List.range 13).filter s.verified).flatMap fun n => bvBytes 64 (Config.shake256 (s.firmware n))

/-- Seeds of the identity key and of the attestation key. -/
def identitySeed : BitVec 256 := (Config.shake256 (bvBytes 32 Config.deviceSecret)).setWidth 256
def attestSeed (s : State) : BitVec 256 :=
  (Config.shake256 (bvBytes 32 Config.deviceSecret ++ verifiedDigests s)).setWidth 256

/-- The attestation report. -/
def attReport (s : State) (count : Word) : List Byte :=
  let fuse := leBytes 8 Config.serial.toNat ++ (bvBytes 64 (Config.shake256 Config.fusedKey)).take 32 ++ List.replicate 24 0
  let head := leBytes 4 1 ++ leBytes 4 11482 ++ leBytes 8 count.toNat ++ leBytes 8 Config.rollback.toNat ++ leBytes 8 13 ++
    s.host.attnon.toList.flatMap fun w => leBytes 8 w.toNat
  let apk := bvBytes 1952 (Config.mldsaPub (attestSeed s))
  let mid := fuse ++ imageDigests s
  let body := head ++ mid ++ bvBytes 1952 (Config.mldsaPub identitySeed) ++ apk ++
    bvBytes 3309 (Config.mldsaSign identitySeed (Config.shake256 (fuse.drop 64 ++ imageDigests s ++ apk)))
  body ++ bvBytes 3309 (Config.mldsaSign (attestSeed s) (Config.shake256 body))

/-- A request for a report (R399): ignored while BUSY is set; values other than 1 are ignored. -/
def State.attcmd (s : State) (v : Word) : State :=
  if v = 1 && !s.host.busy then { s with host := { s.host with busy := true, adone := false } } else s

/-- ATTCMD (R399). -/
def execAttcmd (v : Word) (s : State) : Out := .next (s.attcmd v)

/-- ATTESTATION_REPORT_WRITTEN (R399). -/
def execAttestationReportWritten (s : State) : Out :=
  .next <|
  if !s.host.busy then s
  else if s.host.attbuf = 0 || s.host.attbuf.toNat % 4096 != 0 then
    { s with host := { s.host with busy := false } }.post 7 0 0 0 (leBytes 8 s.host.attbuf.toNat)
  else
    let n := s.plat.reports + 1
    let r := attReport s n
    let s := { s with plat := { s.plat with reports := n },
                      host := { s.host with mem := writeBytes s.host.mem s.host.attbuf.toNat r, busy := false, adone := true,
                                            attlen := 11482 } }
    s.post 7 0 0 11482 (leBytes 8 s.host.attbuf.toNat)

/-- The value of a BAR 0 register (R388); write-only and unassigned ones read 0. -/
def HostSt.reg (h : HostSt) (o : Nat) : Word :=
  if o < 0x80 then
    let p : BitVec 2 := BitVec.ofNat 2 (o / 32)
    match o % 32 with
    | 0 => h.hrbase[p.toNat]
    | 8 => h.hrsize[p.toNat]
    | 16 => h.head[p.toNat].setWidth 64
    | _ => 0
  else match o with
    | 0x100 => h.evbase
    | 0x108 => h.evsize
    | 0x110 => h.evtail
    | 0x118 => h.evhead
    | 0x120 => h.winctx
    | 0x128 => h.evdrop
    | 0x130 => h.attbuf
    | 0x138 => h.attnon[0]
    | 0x140 => h.attnon[1]
    | 0x148 => h.attnon[2]
    | 0x150 => h.attnon[3]
    | 0x160 => BitVec.ofNat 64 ((if h.busy then 1 else 0) + (if h.adone then 2 else 0) + h.attlen.toNat * 65536)
    | _ => 0

/-- A host write of a BAR 0 register (R388); a doorbell and ATTCMD act as their own events do. -/
def State.setHostReg (s : State) (o : Nat) (v : Word) : State :=
  let h := s.host
  let upd (k : HostSt) : State := { s with host := k }
  if o < 0x80 then
    let p : BitVec 2 := BitVec.ofNat 2 (o / 32)
    if o % 32 = 0 then upd { h with hrbase := h.hrbase.set p.toNat (v &&& ~~~0xFFF#64) }
    else if o % 32 = 8 then upd { h with hrsize := h.hrsize.set p.toNat (v &&& 0x1F) }
    else if o % 32 = 24 then s.doorbell p (v.extractLsb' 0 32)
    else s
  else match o with
    | 0x100 => upd { h with evbase := v &&& ~~~0xFFF#64 }
    | 0x108 => upd { h with evsize := v &&& 0x1F }
    | 0x118 => upd (HostSt.flushEvents 65 { h with evhead := v &&& 0xFFFFFFFF#64 })
    | 0x120 => upd { h with winctx := v &&& 0x1FFF }
    | 0x130 => upd { h with attbuf := v }
    | 0x138 => upd { h with attnon := h.attnon.set 0 v }
    | 0x140 => upd { h with attnon := h.attnon.set 1 v }
    | 0x148 => upd { h with attnon := h.attnon.set 2 v }
    | 0x150 => upd { h with attnon := h.attnon.set 3 v }
    | 0x158 => s.attcmd v
    | _ => s

/-- HOST_REGISTER_WRITE (R388): a host access of a BAR 0 register, a write of a value or a read. -/
def execHostRegisterWrite (off : BitVec 16) (v : Option Word) (s : State) : Out :=
  .next (match v with
    | some v => s.setHostReg off.toNat v
    | none => s.setRdata (some (leBytes 8 (s.host.reg off.toNat).toNat)))

/-- HBMCAP_WRITE (R396). -/
def execHbmcapWrite (stack : BitVec 4) (map : BitVec 16) (s : State) : Out :=
  .next (if stack.toNat < 12 then s.setHbmMap stack.toNat map else s)

/-- TLNBASE_WRITE (R134): system software writes TLNBASE of the context in focus. -/
def execTlnbaseWrite (v : Word) (s : State) : Out := .next (s.setTlnbase s.cid v)

/-- Whether an image verifies (R398): its signature over its digest, and its version against the rollback counter. -/
def imageOk (image : List Byte) : Bool :=
  Config.verifyImage image (Config.shake256 image) && Config.rollback.toNat ≤ Config.imageVersion image

/-- POWER_ON_BOOT (R398, R155): everything at its reset value; host memory is outside the package and stays. The firmware runs when it verifies, and an
HBM4 stack is enabled when its base die's firmware does. -/
def execPowerOnBoot (image : List Byte) (s : State) : Out :=
  let on : BitVec 12 := BitVec.ofNat 12 ((List.range 12).foldl (fun m n => if imageOk (Config.baseImage n) then m + 2 ^ n else m) 0)
  .next { State.reset with
    plat := { Plat.reset with fwOk := imageOk image, hbmOn := on, image := image }, host := { HostSt.zero with mem := s.host.mem },
    fresh := s.fresh, now := s.now, agenda := s.agenda, flash := s.flash }

/-- POWER_OFF (R399): power-off clears all 256 key slots; nothing runs until power-on. -/
def execPowerOff (s : State) : Out := .next { s.modM (fun m => { m with keys := [] }) with powered := false }

/-- A free temperature from a value on, n of them. DESIGN CHOICE (log 40). -/
def State.freeTemp (s : State) (lo : Int) (n : Nat) : Word × State :=
  let (v, s) := s.free
  ((BitVec.ofInt 16 (lo + (v.toNat % n : Nat))).setWidth 64, s)

/-- THERMAL_LIMIT_REACHED (R397): the quad's temperature passes 105 °C; how far it rises is free. -/
def execThermalLimitReached (quad : BitVec 6) (s : State) : Out :=
  let (x, s) := s.freeTemp 1681 31087
  .next (s.setTemp quad.toNat x)

/-- THERMAL_LIMIT_CLEARED (R397): a temperature above 100 °C falls to some value at or below it; when it has stayed there for 2^20 cycles, dispatch to the
held quad resumes and an event is posted. -/
def execThermalLimitCleared (quad : BitVec 6) (s : State) : Out :=
  .next (if s.cooled quad.toNat then
      { s with plat := { s.plat with thermal := setDel s.plat.thermal quad.toNat } }.post 6 0 0 quad.toNat [0]
    else if 1600 < s.temp quad.toNat then
      let (x, s) := s.freeTemp (-32768) 34369
      s.setTemp quad.toNat x
    else s)

/-- DROOP_STRETCH (R397): an elastic quad stretches its next cycle and counts it; a plumb quad does not stretch. -/
def execDroopStretch (quad : BitVec 6) (s : State) : Out :=
  .next (if (s.tmode quad.toNat).getLsbD 0 then s
    else { s with plat := { s.plat with strcq := Sparse.put 0 s.plat.strcq quad.toNat (Sparse.get 0 s.plat.strcq quad.toNat + 1) } })

/-- REFRESH_DUE (R344): a refresh takes one unit of the channel's bank, or the channel's next slot, which CALDIST of its owner's quad
counts. -/
def execRefreshDue (chan : Nat) (s : State) : Out :=
  .next <|
  let s := s.rfCreditAll
  let n := Sparse.get 0 s.sched.rfbank chan
  if 0 < n then s.modS fun c => { c with rfbank := Sparse.put 0 c.rfbank chan (n - 1) }
  else
    let q := quadOf ((s.now / 4 + 1) % 256)
    s.modS fun c => { c with caldist := Sparse.put 0 c.caldist q (Sparse.get 0 c.caldist q + 1) }

/-- RFHINT_INTERVAL_END (R154, R344): the declared interval of the core in focus ends. -/
def execRfhintIntervalEnd (s : State) : Out := .next s.rfEnd

/-! ### Replay (R386) -/

/-- The first context in replay mode that has an entry of a kind left. -/
def State.replayCtx (s : State) (kind : Fin 6) : Option (BitVec 12) :=
  (s.ctxs.find? fun p => (s.rrTake (BitVec.ofNat 12 p.1) kind).isSome).map fun p => BitVec.ofNat 12 p.1

/-- Whether a context's next logged host write is due (R386): before a task of the launch goes on past the STEPB of the logged STEP, in plumb mode at the
logged TCYC. DEDUCED (log 54). -/
def State.writeDue (s : State) (x : BitVec 12) : Bool :=
  match s.rrTake x 2 with
  | none => false
  | some (_, e) =>
    let l := s.rrLaunch x
    if l.any fun l => lrPlumb l.image then fld e 8 8 ≤ Launch.rrTcyc l s.now else fld e 4 4 ≤ Launch.rrStep l

/-- The first context with a logged host write that is due. -/
def State.replayDue (s : State) : Option (BitVec 12) :=
  (s.ctxs.find? fun p => s.writeDue (BitVec.ofNat 12 p.1)).map fun p => BitVec.ofNat 12 p.1

/-- LOGGED_HOST_WRITE (R386): in replay mode the next logged host write that is due is applied, as its window access was (R390). -/
def execLoggedHostWrite (s : State) : Out :=
  .next <|
  match s.replayDue with
  | none => s
  | some c =>
    match s.rrTake c 2 with
    | none => s
    | some (i, e) =>
      let s := s.modX c fun x => { x with rpos := x.rpos.set 2 (i + 1) }
      match translate s c (BitVec.ofNat 64 (fld e 16 8)) .w false with
      | (s', .ok x) => match s'.store c x.pa ((e.drop 32).take (e.getD 1 0).toNat) with
        | .ok s2 => s2.sealLines x x.pa (e.getD 1 0).toNat
        | .error _ => s'
      | (s', .error _) => s'

/-- LOGGED_LAUNCH_RECORD (R386): in replay mode the context's next logged launch is accepted; its record stands in two entries of kind 5, the
first byte of each half being the low byte of CODE and a zero. One that a device launch has taken is passed over. DEDUCED (log 54). -/
def execLoggedLaunchRecord (s : State) : Out :=
  .next <|
  match s.replayCtx 1 with
  | none => s
  | some c =>
    match s.rrTake c 1 with
    | none => s
    | some (i, _) =>
      let s1 := s.modX c fun x => { x with rpos := x.rpos.set 1 (i + 3), rdev := x.rdev.filter (· ≠ i) }
      match s.rrRecord c i with
      | some r => if (s.ctx c).rdev.contains i then s1 else s1.accept r true 0 0 (lrPrio r)
      | none => s

end Sys2Proof.Machine
end

