-- ==== Sys2Proof/Machine/Context.lean ====
section
/-! DEFINITION. The context image (15_traps_reliability.md R375, R376): CTXSV, CTXRS, and the debug aperture that presents the image of a halted core
(R392). Sections whose layout the manual leaves to the device travel under a number that stands in the image at 0x2_0000; their bytes are free
values. -/

namespace Sys2Proof.Machine

/-! ### Reading the image -/

/-- Byte i of a number. -/
def byteOf (x i : Nat) : Byte := BitVec.ofNat 8 (x / 256 ^ i)

/-- Byte o of a list of words. -/
def wordsAt (l : List Word) (o : Nat) : Byte := byteOf (l.getD (o / 8) 0).toNat (o % 8)

/-- Byte o of a bitmap of numbers from `base`. -/
def marksAt (m : List Nat) (base o : Nat) : Byte :=
  (List.range 8).foldl (fun (b : Byte) i => if setHas m (base + 8 * o + i) then b ||| (1#8 <<< i) else b) 0

/-- The per-context system registers in ascending number (R148, R376). -/
def ctxRegs : List Nat :=
  [0x000, 0x001, 0x008, 0x010, 0x011, 0x012, 0x018, 0x019, 0x01A, 0x01B, 0x01C, 0x01D, 0x01E, 0x020, 0x022, 0x100] ++
  [0x101, 0x102, 0x103, 0x104, 0x105, 0x106, 0x108, 0x109, 0x10A, 0x10B, 0x118, 0x119, 0x11A, 0x200, 0x201, 0x202]

/-- Bytes 0x000 to 0x84F: the header, registers, counters and the fault record; `pc` is the PC the image holds. -/
def imageHead (s : State) (pc : Word) (buf valid : Bool) (o : Nat) : Byte :=
  let t := s.core.t
  let len := (0x680000 + 320 * t.view.lines.length + 4095) / 4096
  let flags := (if buf then 1 else 0) + (if valid then 2 else 0)
  let tl (x : TL) : List Word := [x.i, x.v]
  let v := t.vec
  let pair (a b : BitVec 32) : Word := b ++ a
  let blk : Word := match t.openBlock with | some b => 1 + ((b.id.setWidth 64 : Word) <<< (16 : Nat)) | none => 0
  let tok (a b : BitVec 6) : Word := BitVec.ofNat 64 (a.toNat + 2 ^ 32 * b.toNat)
  if o < 0x020 then wordsAt [BitVec.ofNat 64 (1 + len * 2 ^ 32), BitVec.ofNat 64 (s.cid.toNat + flags * 2 ^ 32), pc, s.core.tcs] o
  else if o < 0x120 then wordsAt (ctxRegs.map fun n => (srRead s n).1) (o - 0x020)
  else if o < 0x130 then wordsAt [tok t.toks.lc t.toks.cl, tok t.toks.cs t.toks.sc] (o - 0x120)
  else if o < 0x270 then wordsAt (tl t.tls.l ++ tl t.tls.c ++ tl t.tls.s ++ tl t.tls.x ++ t.tls.coll.toList.flatMap tl) (o - 0x130)
  else if o < 0x2A0 then wordsAt [t.rstk.t, t.rstk.h, t.rstk.c, t.rstk.rseq.setWidth 64, blk, t.walk.word] (o - 0x270)
  else if o < 0x320 then
    wordsAt ([v.rrb.setWidth 64, v.mrb.setWidth 64, v.sp.setWidth 64, v.bc, v.bidx.setWidth 64, pair t.regs.lc[0] t.regs.lc[1],
              pair t.regs.lc[2] t.regs.lc[3]] ++ v.a.toList) (o - 0x2A0)
  else if o < 0x420 then (travBytes t.tin ++ travBytes t.tout).getD (o - 0x320) 0
  else if o < 0x520 then wordsAt (t.closure.flatMap fun p => [p.1, p.2]) (o - 0x420)
  else if o < 0x740 then Config.imageByte s.nextImage o
  else if o < 0x840 then (faultRecord t).getD (o - 0x740) 0
  else if o < 0x850 then
    wordsAt [BitVec.ofNat 64 t.view.lines.length, BitVec.ofNat 64 ((if t.tile.opened then 1 else 0) + 2 * t.tile.replays.toNat)] (o - 0x840)
  else 0

/-- Bytes 0x1000 to 0xFFFF: the registers and spill memory. -/
def imageRegs (s : State) (o : Nat) : Byte :=
  let t := s.core.t
  let r := t.regs
  if o < 0x1200 then byteOf (r.rdS (BitVec.ofNat 6 ((o - 0x1000) / 8))).toNat (o % 8)
  else if o < 0x1400 then byteOf (r.d[(o - 0x1200) / 32 % 16]).toNat (o % 32)
  else if o < 0x1C00 then byteOf (r.rdK (BitVec.ofNat 4 ((o - 0x1400) / 128))).toNat (o % 128)
  else if o < 0x1C08 then byteOf r.spois.toNat (o - 0x1C00)
  else if o < 0x1C10 then byteOf r.dpois.toNat (o - 0x1C08)
  else if o < 0x1C30 then byteOf r.kpois.toNat (o - 0x1C10)
  else if o < 0x2000 then 0
  else if o < 0xA000 then byteOf (r.v[(o - 0x2000) / 512 % 64]).data.toNat (o % 512)
  else if o < 0xA080 then byteOf (r.v[(o - 0xA000) / 2 % 64]).tag.toNat (o % 2)
  else if o < 0xA280 then byteOf (r.v[(o - 0xA080) / 8 % 64]).pois.toNat (o % 8)
  else if o < 0xA480 then byteOf (r.v[(o - 0xA280) / 8 % 64]).tfail.toNat (o % 8)
  else if o < 0xB000 then 0
  else if o < 0xF000 then Sparse.get 0 t.spill (o - 0xB000)
  else if o < 0xF100 then marksAt t.spPois 0 (o - 0xF000)
  else 0

/-- Bytes of four banks of 16,384 containers: the working and the visible bank of each accumulator. -/
def imageBanks (s : State) (o : Nat) : Byte :=
  let e := o % 0x20000 / 8
  let x : FA56 := match o / 0x20000 with
    | 0 => s.core.t.acc0.w e
    | 1 => Sparse.get 0 s.core.buf.cb e
    | 2 => s.core.t.acc1.w e
    | _ => Sparse.get 0 s.core.buf.cb (16384 + e)
  byteOf x.toNat (o % 8)

/-- The poison and tier-failed bits of the buffers. -/
def imageMarks (b : Buffers) (o : Nat) : Byte :=
  if o < 0x8000 then marksAt b.wbPois 0 o
  else if o < 0x10000 then marksAt b.wbFail 0 (o - 0x8000)
  else if o < 0x18000 then marksAt b.abPois 0 (o - 0x10000)
  else if o < 0x20000 then marksAt b.abFail 0 (o - 0x18000)
  else if o < 0x21000 then marksAt b.cbPois 32768 (o - 0x20000)
  else marksAt b.cbFail 32768 (o - 0x21000)

/-- A byte of the view section: lines of 320 bytes: address, pinned flag, pin value, own value, dirty mask. -/
def imageView (s : State) (o : Nat) : Byte :=
  let v := s.core.t.view
  match v.lines[o / 320]? with
  | none => 0
  | some n =>
    let p := Sparse.find v.pin n
    let i := o % 320
    let own (j : Nat) : Option Byte := Sparse.find v.dirty (128 * n + j)
    if i < 8 then byteOf (128 * n) i
    else if i < 16 then byteOf (if p.isSome then 1 else 0) (i - 8)
    else if i < 144 then (match p with | some q => byteOf q.bits.toNat (i - 16) | none => 0)
    else if i < 272 then (own (i - 144)).getD 0
    else if i < 288 then (List.range 8).foldl (fun (b : Byte) j => if (own (8 * (i - 272) + j)).isSome then b ||| (1#8 <<< j) else b) 0
    else 0

/-- ASX, both tags, whether the check is armed, and LOC of an accumulator, as the bits of one word. DESIGN CHOICE (log 26). -/
def accWord (a : Accum) : Word :=
  let k := a.chk
  BitVec.ofNat 64 (a.asx.toNat + 2 ^ 7 * a.wtag.toNat + 2 ^ 23 * a.vtag.toNat + 2 ^ 39 * k.arm.toNat + 2 ^ 40 * k.loc.toNat + 2 ^ 41 * k.row.toNat +
    2 ^ 48 * k.col.toNat)

/-- A byte of the check states, LOC, ASX and the tags (R376): of acc0, then of acc1, the 128 values each of PR, PC, MR and MC, which fill the section; the sign
bits of the first 64 values of MR, which are never negative, carry `accWord`. The manual gives the section no layout. DESIGN CHOICE (log 26). -/
def imageChecks (a0 a1 : Accum) (o : Nat) : Byte :=
  let a := if o < 0x800 then a0 else a1
  let k := a.chk
  let i := o % 0x200 / 4
  let x : Nat := match o % 0x800 / 0x200 with
    | 0 => (Sparse.get 0 k.pr i).toNat
    | 1 => (Sparse.get 0 k.pc i).toNat
    | 2 => (Sparse.get 0 k.mr i).toNat % 2 ^ 31 + (if i < 64 && (accWord a).getLsbD i then 2 ^ 31 else 0)
    | _ => (Sparse.get 0 k.mc i).toNat
  byteOf x (o % 4)

/-- Byte o of the image of the context of the core in focus (R376). DESIGN CHOICE (log 26). -/
def imageByte (s : State) (pc : Word) (buf valid : Bool) (o : Nat) : Byte :=
  let b := s.core.buf
  if o < 0x1000 then imageHead s pc buf valid o
  else if o < 0x10000 then imageRegs s o
  else if o < 0x1F000 then Config.imageByte s.nextImage o
  else if o < 0x20000 then 0
  else if o < 0x20008 then byteOf s.nextImage (o - 0x20000)
  else if o < 0x34000 then Config.imageByte s.nextImage o
  else if o < 0x40000 then 0
  else if o < 0xC0000 then imageBanks s (o - 0x40000)
  else if o < 0x100000 then
    byteOf ((if o < 0xE0000 then s.core.t.tile.ck0 else s.core.t.tile.ck1).w ((o - 0xC0000) % 0x20000 / 8)).toNat (o % 8)
  else if o < 0x101000 then imageChecks s.core.t.acc0 s.core.t.acc1 (o - 0x100000)
  else if o < 0x102000 then imageChecks s.core.t.tile.ck0 s.core.t.tile.ck1 (o - 0x101000)
  else if o < 0x200000 then 0
  else if o < 0x662000 && !buf then 0
  else if o < 0x400000 then Sparse.get 0 b.wb (o - 0x200000)
  else if o < 0x600000 then Sparse.get 0 b.ab (o - 0x400000)
  else if o < 0x638000 then byteOf (Sparse.get 0 b.cb (32768 + (o - 0x600000) / 7)).toNat ((o - 0x600000) % 7)
  else if o < 0x640000 then 0
  else if o < 0x662000 then imageMarks b (o - 0x640000)
  else if o < 0x680000 then 0
  else imageView s (o - 0x680000)

/-! ### CTXSV -/

/-- Whether a page of the image holds a poisoned value for whose mark the image has no place: of the banks, their checkpoints and the view (R375, R376). DESIGN CHOICE (log 26). -/
def pagePois (s : State) (p : Nat) : Bool :=
  let t := s.core.t
  let bank (base : Nat) (l : List Nat) : Bool := l.any fun e => p = (base + 8 * e) / 4096
  let bad (n : Nat) : Bool := match Sparse.find t.view.pin n with | some q => q.pois != 0 | none => false
  bank 0x40000 t.acc0.wpois || bank 0x60000 (s.core.buf.cbPois.filter (· < 16384)) || bank 0x80000 t.acc1.wpois ||
  bank 0xA0000 ((s.core.buf.cbPois.filter fun e => 16384 ≤ e && e < 32768).map (· - 16384)) || bank 0xC0000 t.tile.ck0.wpois ||
  bank 0xE0000 t.tile.ck1.wpois ||
  (0x680 ≤ p && (List.range t.view.lines.length).any fun i =>
    let n := t.view.lines.getD i 0
    (bad n || t.view.bad.any fun w => w / 16 = n) && (0x680000 + 320 * i) / 4096 ≤ p && p ≤ (0x680000 + 320 * i + 319) / 4096)

/-- Writes pages of the image at their homes, in order, up to the first one that cannot be written or whose value is poisoned; the status of R375. The
context's timeline area stays as it is (R134). -/
def savePages (byte : Nat → Byte) (pois : Nat → Bool) (a : Word) : List Nat → State → State × Nat
  | [], s => (s, 0)
  | p :: l, s =>
    let va := a + BitVec.ofNat 64 (4096 * p)
    match translate s s.cid va .w (!s.core.t.prv) with
    | (s1, .error _) => (s1.modY fun y => { y with tscr := y.tscr.set 3 va }, 2)
    | (s1, .ok x) =>
      if pois p then (s1, 5)
      else if inTimelineArea s1 va then savePages byte pois a l s1
      else match s1.store s1.cid x.pa ((List.range 4096).map fun i => byte (4096 * p + i)) with
        | .error _ => (s1, 3)
        | .ok s2 => savePages byte pois a l (s2.sealLines x x.pa 4096)

/-- Whether an access to one of the pages of an image is held (R154). -/
def pagesHeld (a : Word) (acc : Acc) (l : List Nat) (s : State) : Bool :=
  s.core.t.id.plumb && s.rfOpen && l.any fun p => match translate s s.cid (a + BitVec.ofNat 64 (4096 * p)) acc (!s.core.t.prv) with
    | (_, .ok x) => s.rfHeld x.pa
    | _ => false

/-- The pages of an image of n units; without the buffer sections where they are omitted. -/
def imagePages (n : Nat) (buf : Bool) : List Nat := (List.range n).filter fun p => buf || p < 0x200 || 0x662 ≤ p

/-- CTXSV (R375): writes the image, the status to RD. -/
def execCtxsv (nb : Bool) (rd ra : Reg) (s : State) : Out :=
  ccNext s true do
    let s ← now
    failIf (!s.core.t.sys.inTrap) (.cc cILLOP)
    let a ← rdS ra
    if a.toNat % 4096 ≠ 0 then wrS rd 1
    else do
      let t := s.core.t
      let len := (0x680000 + 320 * t.view.lines.length + 4095) / 4096
      if pagesHeld a .w (imagePages len (!nb)) s then wait else pure ()
      let (s1, st) := savePages (imageByte s t.sys.tpc (!nb) s.core.t.valid) (pagePois s) a (imagePages len (!nb)) s
      let keep : Saved := ⟨t, s.core.buf.cbFail.filter (· < 32768)⟩
      upd fun _ => { s1 with images := Sparse.ins s1.images s1.nextImage keep, nextImage := s1.nextImage + 1 }
      wrS rd (BitVec.ofNat 64 st)

/-! ### CTXRS -/

/-- The homes of the pages of an image, or the status of the first page that cannot be read (R375). -/
def loadPages (a : Word) : List Nat → State → Sparse Nat → State × Except Nat (Sparse Nat)
  | [], s, m => (s, .ok m)
  | p :: l, s, m =>
    let va := a + BitVec.ofNat 64 (4096 * p)
    match translate s s.cid va .r (!s.core.t.prv) with
    | (s1, .error _) => (s1.modY fun y => { y with tscr := y.tscr.set 3 va }, .error 2)
    | (s1, .ok x) =>
      if s1.homePoisN x.pa 4096 || s1.homeFail x.pa 4096 then (s1, .error 5)
      else loadPages a l s1 (Sparse.ins m p x.pa)

/-- A byte of an image in memory; what lies past it reads as zero. -/
def loadByte (s : State) (m : Sparse Nat) (o : Nat) : Byte :=
  match Sparse.find m (o / 4096) with
  | some pa => s.homeByte (pa + o % 4096)
  | none => 0

/-- The number of n image bytes. -/
def imgLe (f : Nat → Byte) (o n : Nat) : Nat := leNat ((List.range n).map fun i => f (o + i))

/-- The numbers of a bitmap of n bytes. -/
def imgMarks (f : Nat → Byte) (o n base : Nat) : List Nat :=
  (List.range (8 * n)).filterMap fun i => if (f (o + i / 8)).getLsbD (i % 8) then some (base + i) else none

/-- A sparse map of n values of w bytes; `step` bytes apart. -/
def imgMap (w : Nat) (f : Nat → Byte) (o n step base : Nat) : Sparse (BitVec w) :=
  (List.range n).filterMap fun i =>
    let x := BitVec.ofNat w (imgLe f (o + step * i) step)
    if x = 0 then none else some (base + i, x)

/-- Sets a per-context system register of the image (R148); CTXID, TCS and TSTAT stay. -/
def setCtxReg (s : State) (n : Nat) (w : Word) : State :=
  match n with
  | 0x000 => s.modY fun y => { y with fpst := w &&& mFpst }
  | 0x008 | 0x106 | 0x200 => s
  | 0x202 => s.modY fun y => { y with dieset := w }
  | n => srWrite s n w

/-- The register files of an image. -/
def loadRegs (f : Nat → Byte) : Regs :=
  { s := Vector.ofFn fun i => if i.val = 0 then 0 else BitVec.ofNat 64 (imgLe f (0x1000 + 8 * i.val) 8), spois := BitVec.ofNat 64 (imgLe f 0x1C00 8),
    v := Vector.ofFn fun i => ⟨BitVec.ofNat 4096 (imgLe f (0x2000 + 512 * i.val) 512), BitVec.ofNat 16 (imgLe f (0xA000 + 2 * i.val) 2),
      BitVec.ofNat 64 (imgLe f (0xA080 + 8 * i.val) 8), BitVec.ofNat 64 (imgLe f (0xA280 + 8 * i.val) 8)⟩,
    k := Vector.ofFn fun i => if i.val = 0 then 0 else BitVec.ofNat 1024 (imgLe f (0x1400 + 128 * i.val) 128),
    kpois := BitVec.ofNat 256 (imgLe f 0x1C10 32), d := Vector.ofFn fun i => BitVec.ofNat 256 (imgLe f (0x1200 + 32 * i.val) 32),
    dpois := BitVec.ofNat 16 (imgLe f 0x1C08 2), lc := Vector.ofFn fun i => BitVec.ofNat 32 (imgLe f (0x2C8 + 4 * i.val) 4) }

/-- An accumulator of an image: its working bank, its check state, ASX and tags. -/
def loadAccum (old : Accum) (f : Nat → Byte) (bank o : Nat) : Accum :=
  let m (i : Nat) : Sparse (BitVec 32) := imgMap 32 f (o + 0x200 * i) 128 4 0
  let mr := (m 2).filterMap fun p => if p.2 &&& 0x7FFFFFFF#32 = 0 then none else some (p.1, p.2 &&& 0x7FFFFFFF#32)
  let w : Word := (List.range 64).foldl (fun w i => if (f (o + 0x400 + 4 * i + 3)).getLsbD 7 then w ||| (1#64 <<< i) else w) 0
  { old with work := imgMap 56 f bank 16384 8 0, asx := w.extractLsb' 0 7, wtag := w.extractLsb' 7 16, vtag := w.extractLsb' 23 16,
             chk := ⟨w.getLsbD 39, m 0, m 1, mr, m 3, w.getLsbD 40, w.extractLsb' 41 7, w.extractLsb' 48 7⟩ }

/-- The open block of an image (R376): the saved one under the identifier in the image, none where the image says that none is open. -/
def loadBlock (old : Option Block) (w : Word) : Option Block :=
  if !w.getLsbD 0 then none
  else
    let b := old.getD ⟨0, false, false, 0, 0, .replicate 64 0, .replicate 16 0, 0, 0, GMap.zero, 0, 0, 0⟩
    some { b with id := w.extractLsb' 16 16 }

/-- The walk of an image (R310, R376): the saved one at the micro-PC in the image. -/
def loadWalk (old : Walk) (w : Word) : Walk :=
  if old.word = w then old
  else { old with active := w != 0, ph := w.extractLsb' 30 2, ord := (w.extractLsb' 20 10).toNat, step := (w.extractLsb' 18 2).toNat }

/-- The view of an image of n lines (R376): every line with its pinned value, its own bytes and which of them are dirty; a word counts as replaced
whole where it did and all its bytes are dirty. -/
def loadView (old : View) (n : Nat) (f : Nat → Byte) : View :=
  let at_ (i : Nat) : Nat := 0x680000 + 320 * i
  let line (i : Nat) : Nat := imgLe f (at_ i) 8 / 128
  let ls := (List.range n).map fun i => (line i, i)
  let dirty : Sparse Byte := ls.foldl (fun m x => (List.range 128).foldl (fun m j =>
    if (f (at_ x.2 + 272 + j / 8)).getLsbD (j % 8) then Sparse.ins m (128 * x.1 + j) (f (at_ x.2 + 144 + j)) else m) m) []
  { pin := ls.foldl (fun m x => if (f (at_ x.2 + 8)).getLsbD 0 then Sparse.ins m x.1 ⟨BitVec.ofNat 1024 (imgLe f (at_ x.2 + 16) 128), 0⟩ else m) [],
    dirty := dirty, whole := old.whole.filter fun w => (List.range 8).all fun j => (Sparse.find dirty (8 * w + j)).isSome, bad := [] }

/-- The task of an image: what travels under its number, with every section of a fixed layout taken from its bytes. What the banksman holds of the
task, its privilege, its PC in the handler and its cycle count, for which the image has no place (R153), stay. DESIGN CHOICE (log 26). -/
def loadTask (cur old : Task) (f : Nat → Byte) : Task :=
  let w (o : Nat) : Word := BitVec.ofNat 64 (imgLe f o 8)
  let tok (i : Nat) : BitVec 6 := BitVec.ofNat 6 (imgLe f (0x120 + 4 * i) 4)
  let tl (i : Nat) : TL := ⟨w (0x130 + 16 * i), w (0x138 + 16 * i)⟩
  let tcs := imgLe f 0x18 8
  { old with
    id := cur.id, pc := cur.pc, prv := cur.prv, blk := cur.blk, rcfg := cur.rcfg, cycles := cur.cycles, regs := loadRegs f,
    spill := imgMap 8 f 0xB000 Config.spillBytes 1 0, spPois := imgMarks f 0xF000 0x100 0,
    toks := ⟨tok 0, tok 1, tok 2, tok 3⟩,
    tls := ⟨tl 0, tl 1, tl 2, tl 3, Vector.ofFn fun i => tl (4 + i.val)⟩,
    sys := { cur.sys with atfl := old.sys.atfl, inTrap := tcs.testBit 0, tprv := tcs.testBit 1, tblk := tcs.testBit 2 },
    tin := travOf ((List.range 128).map fun i => f (0x320 + i)), tout := travOf ((List.range 128).map fun i => f (0x3A0 + i)),
    vec := { old.vec with rrb := BitVec.ofNat 5 (imgLe f 0x2A0 8), mrb := BitVec.ofNat 3 (imgLe f 0x2A8 8), sp := BitVec.ofNat 7 (imgLe f 0x2B0 8),
                          bc := w 0x2B8, bidx := BitVec.ofNat 16 (imgLe f 0x2C0 8), a := Vector.ofFn fun i => w (0x2D8 + 8 * i.val) },
    rstk := ⟨w 0x270, w 0x278, w 0x280, BitVec.ofNat 32 (imgLe f 0x288 8), old.rstk.ents⟩,
    closure := (List.range 16).filterMap fun i => if w (0x428 + 16 * i) = 0 then none else some (w (0x420 + 16 * i), w (0x428 + 16 * i)),
    acc0 := loadAccum old.acc0 f 0x40000 0x100000, acc1 := loadAccum old.acc1 f 0x80000 0x100800,
    savedBlk := loadBlock old.savedBlk (w 0x290), walk := loadWalk old.walk (w 0x298),
    tile := { old.tile with opened := (w 0x848).getLsbD 0, replays := (w 0x848).extractLsb' 1 1,
                            ck0 := loadAccum old.tile.ck0 f 0xC0000 0x101000, ck1 := loadAccum old.tile.ck1 f 0xE0000 0x101800 },
    view := loadView old.view (imgLe f 0x840 8) f }

/-- The buffers of an image; zero without its buffer sections (R375). -/
def loadBuffers (visFail : List Nat) (buf : Bool) (f : Nat → Byte) : Buffers :=
  let cb := imgMap 56 f 0x60000 16384 8 0 ++ imgMap 56 f 0xA0000 16384 8 16384
  if buf then
    { wb := imgMap 8 f 0x200000 Config.wbBytes 1 0, wbPois := imgMarks f 0x640000 0x8000 0, wbFail := imgMarks f 0x648000 0x8000 0,
      ab := imgMap 8 f 0x400000 Config.abBytes 1 0, abPois := imgMarks f 0x650000 0x8000 0, abFail := imgMarks f 0x658000 0x8000 0,
      cb := cb ++ imgMap 56 f 0x600000 32768 7 32768, cbPois := imgMarks f 0x660000 0x1000 32768,
      cbFail := visFail ++ imgMarks f 0x661000 0x1000 32768 }
  else { Buffers.zero with cb := cb, cbFail := visFail }

/-- CTXRS (R375): every page is read and checked before the restore begins. -/
def execCtxrs (rd ra : Reg) (s : State) : Out :=
  ccNext s true do
    let s ← now
    failIf (!s.core.t.sys.inTrap) (.cc cILLOP)
    let a ← rdS ra
    if a.toNat % 4096 ≠ 0 then wrS rd 1
    else if pagesHeld a .r [0] s then wait
    else
      match loadPages a [0] s [] with
      | (s1, .error st) => do upd fun _ => s1; wrS rd (BitVec.ofNat 64 st)
      | (s1, .ok m0) =>
        let h := loadByte s1 m0
        let flags := imgLe h 0x00C 4
        if imgLe h 0 4 ≠ 1 || imgLe h 8 4 ≠ s.cid.toNat || !flags.testBit 1 then do upd fun _ => s1; wrS rd 4
        else
          let buf := flags.testBit 0
          if pagesHeld a .r (imagePages (imgLe h 4 4) buf) s1 then wait else pure ()
          match loadPages a (imagePages (imgLe h 4 4) buf) s1 [] with
          | (s2, .error st) => do upd fun _ => s2; wrS rd (BitVec.ofNat 64 st)
          | (s2, .ok m) => do
            let f := loadByte s2 m
            let sv := (Sparse.find s2.images (imgLe f 0x20000 8)).getD ⟨Task.zero, []⟩
            upd fun _ =>
              let s3 := (s2.modT fun t => loadTask t sv.t f).modB fun _ => loadBuffers sv.visFail buf f
              let s4 := (List.range 32).foldl (fun s i => setCtxReg s (ctxRegs.getD i 0) (BitVec.ofNat 64 (imgLe f (0x020 + 8 * i) 8))) s3
              s4.modY fun y => { y with tpc := BitVec.ofNat 64 (imgLe f 0x010 8) }
            wrS rd 0

/-! ### The debug aperture (R383, R392) -/

/-- Writes n bits of marks from `base` as the bits of a word. -/
def pokeMarks (m : List Nat) (base : Nat) (w : Word) : List Nat :=
  (List.range 64).foldl (fun m i => setPut m (base + i) (w.getLsbD i)) m

/-- Replaces word i of a bit vector. -/
def pokeWord {n : Nat} (x : BitVec n) (i : Nat) (w : Word) : BitVec n :=
  (x &&& ~~~((BitVec.allOnes 64).setWidth n <<< (64 * i))) ||| (w.setWidth n <<< (64 * i))

/-- A write of a word of the register sections; a reserved bit of a tag or a descriptor discards it. -/
def pokeRegs (r : Regs) (o : Nat) (w : Word) : Regs :=
  let vr (i : Nat) (g : VReg → VReg) : Regs := { r with v := r.v.set (i % 64) (g r.v[i % 64]) }
  if o < 0x1200 then r.wrS (BitVec.ofNat 6 ((o - 0x1000) / 8)) w
  else if o < 0x1400 then
    let i := (o - 0x1200) / 32 % 16
    let x := pokeWord r.d[i] (o % 32 / 8) w
    if x &&& descRsv != 0 then r else { r with d := r.d.set i x }
  else if o < 0x1480 then r
  else if o < 0x1C00 then
    let i := (o - 0x1400) / 128 % 16
    { r with k := r.k.set i (pokeWord r.k[i] (o % 128 / 8) w) }
  else if o < 0x1C08 then { r with spois := w }
  else if o < 0x1C10 then { r with dpois := w.setWidth 16 }
  else if o < 0x1C30 then { r with kpois := pokeWord r.kpois ((o - 0x1C10) / 8) w }
  else if o < 0x2000 then r
  else if o < 0xA000 then vr ((o - 0x2000) / 512) fun x => { x with data := pokeWord x.data (o % 512 / 8) w }
  else if o < 0xA080 then
    if (List.range 4).any fun i => w.getLsbD (16 * i + 7) then r
    else
      let n := (o - 0xA000) / 2
      { r with v := (List.range 4).foldl (fun (v : Vector VReg 64) i =>
          v.set ((n + i) % 64) { v[(n + i) % 64] with tag := w.extractLsb' (16 * i) 16 }) r.v }
  else if o < 0xA280 then vr ((o - 0xA080) / 8) fun x => { x with pois := w }
  else if o < 0xA480 then vr ((o - 0xA280) / 8) fun x => { x with tfail := w }
  else r

/-- A write of a word of the banks' sections. -/
def pokeBanks (s : State) (o : Nat) (w : Word) : State :=
  let e := o % 0x20000 / 8
  let x : FA56 := w.setWidth 56
  match o / 0x20000 with
  | 0 => s.modT fun t => { t with acc0 := t.acc0.setW e x }
  | 1 => s.modB fun b => { b with cb := Sparse.put 0 b.cb e x }
  | 2 => s.modT fun t => { t with acc1 := t.acc1.setW e x }
  | _ => s.modB fun b => { b with cb := Sparse.put 0 b.cb (16384 + e) x }

/-- A write of a word of the buffers' marks. -/
def pokeMarkWord (b : Buffers) (o : Nat) (w : Word) : Buffers :=
  if o < 0x8000 then { b with wbPois := pokeMarks b.wbPois (8 * o) w }
  else if o < 0x10000 then { b with wbFail := pokeMarks b.wbFail (8 * (o - 0x8000)) w }
  else if o < 0x18000 then { b with abPois := pokeMarks b.abPois (8 * (o - 0x10000)) w }
  else if o < 0x20000 then { b with abFail := pokeMarks b.abFail (8 * (o - 0x18000)) w }
  else if o < 0x21000 then { b with cbPois := pokeMarks b.cbPois (32768 + 8 * (o - 0x20000)) w }
  else { b with cbFail := pokeMarks b.cbFail (32768 + 8 * (o - 0x21000)) w }

/-- A byte of the general range of CB: entries of seven bytes. -/
def pokeCb (b : Buffers) (o : Nat) (x : Byte) : Buffers :=
  let e := 32768 + o / 7
  let old : FA56 := Sparse.get 0 b.cb e
  let at_ := 8 * (o % 7)
  { b with cb := Sparse.put 0 b.cb e ((old &&& ~~~(0xFF#56 <<< at_)) ||| ((x.setWidth 56 : FA56) <<< at_)) }

/-- A write of a word of the check states; the sign bits of MR, which carry what is no check state, stay (R392). -/
def pokeChecks (k : Check) (o : Nat) (w : Word) : Check :=
  let i := o % 0x200 / 4
  let put (m : Sparse (BitVec 32)) : Sparse (BitVec 32) := Sparse.put 0 (Sparse.put 0 m i (w.extractLsb' 0 32)) (i + 1) (w.extractLsb' 32 32)
  match o / 0x200 with
  | 0 => { k with pr := put k.pr }
  | 1 => { k with pc := put k.pc }
  | 2 => { k with mr := Sparse.put 0 (Sparse.put 0 k.mr i (w.extractLsb' 0 32 &&& 0x7FFFFFFF#32)) (i + 1) (w.extractLsb' 32 32 &&& 0x7FFFFFFF#32) }
  | _ => { k with mc := put k.mc }

/-- The PC of a halted core takes a value, which applies at release (R392). DEDUCED (log 27). -/
def State.pokePc (s : State) (w : Word) : State :=
  s.modC fun c => { c with entry := decide (granuleOf w = 1), hold := none, ckpt := [], t := { c.t with pc := w, barw := c.t.barw.filter (·.1 = w) } }

/-- A write of an aligned word of the image of the halted core in focus (R392); other sections ignore it. DEDUCED (log 27). -/
def pokeImage (s : State) (o : Nat) (w : Word) : State :=
  let bytes := leBytes 8 w.toNat
  if o = 0x010 then s.pokePc w
  else if 0x020 ≤ o && o < 0x120 then setCtxReg s (ctxRegs.getD ((o - 0x020) / 8) 0x008) w
  else if 0x1000 ≤ o && o < 0xB000 then s.modR fun r => pokeRegs r o w
  else if 0xB000 ≤ o && o < 0xF000 then s.modT fun t => { t with spill := writeBytes t.spill (o - 0xB000) bytes }
  else if 0xF000 ≤ o && o < 0xF100 then s.modT fun t => { t with spPois := pokeMarks t.spPois (8 * (o - 0xF000)) w }
  else if 0x40000 ≤ o && o < 0xC0000 then pokeBanks s (o - 0x40000) w
  else if 0x100000 ≤ o && o < 0x100800 then s.modT fun t => { t with acc0 := { t.acc0 with chk := pokeChecks t.acc0.chk (o - 0x100000) w } }
  else if 0x100800 ≤ o && o < 0x101000 then s.modT fun t => { t with acc1 := { t.acc1 with chk := pokeChecks t.acc1.chk (o - 0x100800) w } }
  else if 0x200000 ≤ o && o < 0x400000 then s.modB fun b => { b with wb := writeBytes b.wb (o - 0x200000) bytes }
  else if 0x400000 ≤ o && o < 0x600000 then s.modB fun b => { b with ab := writeBytes b.ab (o - 0x400000) bytes }
  else if 0x600000 ≤ o && o < 0x638000 then
    s.modB fun b => (List.range 8).foldl (fun b i => pokeCb b (o - 0x600000 + i) (bytes.getD i 0)) b
  else if 0x640000 ≤ o && o < 0x662000 then s.modB fun b => pokeMarkWord b (o - 0x640000) w
  else s

/-- Whether a host access to a slice of BAR 4 is one the device performs: 4 or 8 bytes, aligned to their size, inside it (R387, R392). -/
def apertureOk (off len : Nat) : Bool := (len = 4 || len = 8) && off % len = 0 && off + len ≤ 0x10000

/-- DWIDX of a core (R392). -/
def State.dwidx (s : State) (core : BitVec 8) : Nat := (Sparse.get 0 s.host.dwidx core.toNat).toNat

/-- The word at an aligned offset of the slice of a core (R391, R392): DWIDX, DWHLT, DBGCTL and DBGST stand in front of the aperture; of a core that is not
halted DWHLT, DBGCTL and DBGST alone are reachable, all else reads as all ones. `f` is the state with the core in focus. -/
def sliceWord (f : State) (o : Nat) : Word :=
  match o with
  | 0x08 => 0
  | 0x10 => if f.core.health.trp then 2 else 0
  | 0x18 => f.core.health.dbgst
  | _ =>
    if !f.core.health.halted then BitVec.allOnes 64
    else if o = 0 then BitVec.ofNat 64 (f.dwidx f.core.phys)
    else if o < 0x8000 then 0
    else BitVec.ofNat 64 (imgLe (imageByte f f.core.t.pc true true) (f.dwidx f.core.phys + (o - 0x8000)) 8)

/-- A write of the word at an aligned offset of the slice of the core in focus (R391, R392): what is read-only or reserved stays, and of a core that is
not halted DWHLT and DBGCTL alone take it. -/
def pokeSlice (f : State) (o : Nat) (w : Word) : State :=
  match o with
  | 0x08 => if w.getLsbD 0 then f.dwhlt else f
  | 0x10 => f.setDbgctl w
  | _ =>
    if !f.core.health.halted then f
    else if o = 0 then { f with host := { f.host with dwidx := Sparse.put 0 f.host.dwidx f.core.phys.toNat (w &&& 0x7FFFF8#64) } }
    else if o < 0x8000 then f else pokeImage f (f.dwidx f.core.phys + (o - 0x8000)) w

/-- DEBUG_APERTURE_READ (R392): a host read of the slice of a core, from slice offset `off`; without firmware the device offers only BAR 0 (R398). -/
def execDebugApertureRead (core : BitVec 8) (off len : Nat) (s : State) : Out :=
  .next (if !s.plat.fwOk || !apertureOk off len then s.setRdata none
    else s.setRdata (some (((leBytes 8 (sliceWord (s.focus core) (off / 8 * 8)).toNat).drop (off % 8)).take len)))

/-- The word that a write of a part of a word leaves: four bytes replace their half; of the write-only registers the other half is zero. -/
def mergeWord (old : Word) (at_ : Nat) (data : List Byte) : Word :=
  let l := leBytes 8 old.toNat
  BitVec.ofNat 64 (leNat (l.take at_ ++ data ++ l.drop (at_ + data.length)))

/-- DEBUG_APERTURE_WRITE (R392): a host write to the slice of a core, at slice offset `off`. -/
def execDebugApertureWrite (core : BitVec 8) (off : Nat) (data : List Byte) (s : State) : Out :=
  .next (if !s.plat.fwOk || !apertureOk off data.length then s.setRdata none
    else s.withCore core fun f => pokeSlice f (off / 8 * 8) (mergeWord (sliceWord f (off / 8 * 8)) (off % 8) data))

end Sys2Proof.Machine
end

