-- ==== Sys2Proof/Machine/Queues.lean ====
section
/-! DEFINITION. The queues at work (01_machine.md R15 to R22, 05_memory_ordering.md R130, 07_copy_engines.md R157, R169): a command issues at its queue
head, performs, pushes its residual and its tokens, and advances its timeline; tiles retire; lower tiers fail; lines are fetched and walked. -/

namespace Sys2Proof.Machine

/-! ### What a command does -/

/-- A forward command at its queue head. -/
def performFwd (k : Cmd) (s : State) : Prog :=
  match k.instr with
  | .trvlIn _ l _ ss ds => runTrvl false l.toNat (k.v 0) ss ds s
  | .trvlOut _ l _ ss ds => runTrvl true l.toNat (k.v 0) ss ds s
  | .trvsIn _ m _ _ _ b => runTrvs false m (k.v 0) (k.v 1) (k.v 2) b s
  | .trvsOut _ m _ _ _ b => runTrvs true m (k.v 0) (k.v 1) (k.v 2) b s
  | .copyIn _ sp _ _ _ off f => runCopyIn k sp off f s
  | .copyOut _ sp _ _ _ off f => runCopyOut k sp off f s
  | .fillIn _ sp _ _ e => runFillIn k sp e s
  | .fillOut _ _ _ _ off e => runFillOut k off e s
  | .gthr _ sp _ _ _ _ _ st => runGthr k sp st s
  | .sctr _ sp _ _ _ _ _ st => runSctr k sp st s
  | .cmpx _ c _ => runCmpx k c s
  | .chsendFw _ n _ => runChsend k n true s
  | .chsendRv _ n _ => runChsend k n false s
  | .coll _ c _ => runColl k c s
  | .cvt _ _ _ rm sat sf df => runCvt k rm sat sf df s
  | .cvts _ _ _ _ _ sat sf df => runCvts k sat sf df s
  | .qntw _ _ _ rm sf df => runQntw k rm sf df s
  | .dqw _ _ _ rm sf df => runDqw k rm sf df s
  | .retag _ v tag => runRetag v tag s
  | .tagget _ v off => runTagget v off s
  | .tagchk _ ne x tag => runTagchk k ne x tag s
  | .scalex _ rm _ _ n => runScalex k rm n s
  | .lnx _ _ _ _ f => runLnx k f s
  | .lnr _ _ _ _ f => runLnr k f s
  | .mma _ a ta tb _ _ r c => runMma k a ta tb r c s
  | .mzero _ a => runMzero a s
  | .mzeroCb _ a _ => runMzeroCb k a s
  | .mswap _ a => runMswap a s
  | .mst _ _ a add sat rm df r c => runMst k a add sat rm df r c s
  | .mcks _ a ta tb _ _ r c => runMcks k a ta tb r c s
  | .mckv _ a rpl off => runMckv a rpl off s
  | .mfix _ a => runMfix a s
  | .mtm _ => runMtm k s
  | .mte _ => runMte s
  | .wgrp _ a n => runWgrp a n s
  | .sxf .. => runSxf k s
  | .sxi .. => runSxi k s
  | .scmac _ a _ _ f => runScmac k a f s
  | .scmul _ cj _ _ _ => runScmul k cj s
  | .sconj .. => runSconj k s
  | .sdom .. => runSdom k s
  | .sexp _ _ _ e => runSexp k e s
  | .rpush .. | .rpushSpl .. => runRpush k s
  | .gzero .. => runGzero k s
  | _ => .ok s 0

/-- An adjoint at its queue head (R312 to R316). -/
def performAdj (k : Cmd) (s : State) : Prog :=
  match k.blk with
  | none => .ok s 0
  | some b =>
    let pair (d a : DCode) (f : Desc → Desc → Prog) : Prog :=
      match k.cp d, k.cp a with | some x, some y => f x y | _, _ => .ok s 0
    match k.instr with
    | .cvt _ d a _ _ _ _ => pair d a fun x y => adjClass4 k x y s
    | .cvts _ d a _ _ _ _ _ => pair d a fun x y => adjClass4 k x y s
    | .qntw _ d a _ _ _ => pair d a fun x y => adjClass4 k x y s
    | .dqw _ d a _ _ _ => pair d a fun x y => adjClass4 k x y s
    | .scalex _ _ d a _ => pair d a fun x y => adjClass4 k x y s
    | .copyIn _ sp _ _ _ off f => adjCopyIn k b.g sp off f s
    | .copyOut _ sp _ _ _ off f => adjCopyOut k b.g sp off f s
    | .gthr _ sp _ _ _ _ _ st => adjGthr k b.g sp st s
    | .sctr _ sp _ _ _ _ _ st => adjSctr k b.g sp st s
    | .lnx _ _ _ _ f => adjLnx k f s
    | .lnr _ _ _ _ f => adjLnr k f s
    | .mma _ a ta tb _ _ r c => adjMma k a ta tb r c s
    | .scmac _ a _ _ f => adjScmac k a f s
    | .scmul _ cj d a b => match k.cp d with | some x => adjScmul k cj x (k.cp a) (k.cp b) s | none => .ok s 0
    | .sxf _ d a | .sxi _ d a | .sconj _ d a | .sdom _ d a _ | .sexp _ d a _ => pair d a fun x y => adjS k x y s
    | .rpush .. | .rpushSpl .. => adjRpush k s
    | .chsendFw _ n a => adjChsend k n true (k.cp a) s
    | .chsendRv _ n a => adjChsend k n false (k.cp a) s
    | _ => .ok s 0

/-- A command at its queue head. -/
def perform (k : Cmd) (s : State) : Prog :=
  match k.kind with
  | .fwd => performFwd k s
  | .adj _ => performAdj k s
  | .stub => .ok s 0

/-! ### The pop stage of an adjoint (R302, R307) -/

/-- TL.X reaches a number (R134, R302). -/
def State.completeX (s : State) (num : Word) : State :=
  (s.modTl fun t => { t with x := { t.x with v := num } }).timelineWrite s.cid s.core.t.id.slot 3 num

/-- Whether an adjoint has its entry still to pop. -/
def needsPop (k : Cmd) (s : State) : Bool :=
  (match k.kind with | .adj _ => takesX k.instr k.kind k.blk | _ => false) && s.core.t.tls.x.v.toNat < k.num2.toNat

/-- The popped bytes of a VRUNA go to AB at p with their marks (R212, R301). -/
def placeVruna (k : Cmd) (bs : List GByte) : E Unit :=
  match k.vrunaRes with
  | none => pure ()
  | some (p, n) => do
    let s ← enow
    efailIf (meetsSlot s.core.t [(p, n)]) cILLOP
    efailIf (Config.abBytes < p + n) cOOB
    topBlkop k [(p, n)]
    eWriteB 1 p bs

/-- The pop: its entry's turn on TL.X, the header, the data. -/
def popStage (k : Cmd) (s : State) : State × Option EStop :=
  if s.core.t.tls.x.v + 1 ≠ k.num2 then (s, some .wait)
  else
    let m : E (List GByte) := do
      let bs ← popResidual k
      placeVruna k bs
      pure bs
    match m s with
    | .error e => (s, some e)
    | .ok (bs, s1) => ((s1.completeX k.num2).setRes k bs, none)

/-! ### Landing slots at the queue head (R309, R353) -/

/-- The AB bytes of a loop-nest operand. -/
def lnRanges (o : LnOpd) (exts : List Nat) : List (Nat × Nat) :=
  if dSpace o.d = 1 then (List.range (lnCount exts)).map fun j => ((o.at_ exts j).toNat, eSize o.d) else []

/-- The AB bytes a compute command reads. -/
def readsOf (k : Cmd) : List (Nat × Nat) :=
  let ab (l : List Nat) : List (Nat × Nat) := l.flatMap fun i => abRanges (k.d i)
  let cp (d : DCode) : List (Nat × Nat) := match k.cp d with | some g => abRanges g | none => []
  match k.kind with
  | .stub => []
  | .fwd =>
    match k.instr with
    | .cvt .. | .cvts .. | .qntw .. | .dqw .. | .scalex .. | .sxf .. | .sxi .. | .sconj .. | .sexp .. => ab [1]
    | .lnx _ _ _ _ f | .lnr _ _ _ _ f => lnRanges (lnA k f) (lnExts f) ++ (if f.unary then [] else lnRanges (lnB k f) (lnExts f))
    | .mma .. | .mcks .. | .scmac .. => ab [0, 1]
    | .scmul .. | .sdom .. => ab [1, 2]
    | _ => []
  | .adj _ =>
    match k.instr with
    | .cvt _ d .. | .cvts _ d .. | .qntw _ d .. | .dqw _ d .. | .sxf _ d _ | .sxi _ d _ | .sconj _ d _ | .sexp _ d _ _ | .scmul _ _ d _ _ => cp d
    | .scalex _ _ d _ _ => cp d
    | .sdom _ d _ _ => cp d ++ ab [2]
    | .lnx _ d _ _ f | .lnr _ d _ _ f => match k.cp d with | some g => lnRanges ((lnD k f).cp g) (lnExts f) | none => []
    | .mma _ _ _ _ a .. | .scmac _ _ a .. => (if (k.cp a).isSome then ab [1] else []) ++ ab [2]
    | _ => []

/-- Whether a stop is one of the command's checks, not of the data it reads. -/
def isCheck (k : Cmd) (p : Prog) : Option EStop :=
  match p.stop with
  | some (.fault c va l) => if p.upc = k.upc && c ≠ cPOISON && c ≠ cTIERERR then some (.fault c va l) else none
  | _ => none

/-- Performs a command while the words of slots that hold no tile for it are taken as not there, or, with `fail` false, as there whatever marks an
earlier use of the bytes has left. -/
def withoutSlots (k : Cmd) (fail : Bool) (miss : List (Nat × Nat)) (s : State) : Prog :=
  let inSlot (w : Nat) : Bool := miss.any fun r => r.1 ≤ 8 * w && 8 * w < r.1 + r.2
  let p := perform k (s.modB fun b =>
    if fail then miss.foldl (fun b r => b.markFail 1 r.1 r.2) b else { b with abFail := b.abFail.filter fun w => !inSlot w })
  { p with s := p.s.modB fun b => { b with
      abFail := (s.core.buf.abFail.filter inSlot).foldl setIns (b.abFail.filter fun w => !inSlot w) } }

/-- Performs a compute command that may read landing slots (R353): after its checks it binds them, and at the first read of a slot without its tile it
waits, or raises CHAN where the partner is lost; in the forward pass of a recompute block it raises BLKOP (R309). DEDUCED (log 15). -/
def performSlots (k : Cmd) (s : State) : Prog :=
  let l := readsOf k
  if !meetsSlot s.core.t l then perform k s
  else
    let stop (s : State) (e : EStop) : Prog := { Prog.ok s k.upc with stop := some e }
    match isCheck k (perform k s) with
    | some e => stop s e
    | none =>
      if k.kind = .fwd && (match k.blk with | some b => b.rc && !b.replay | none => false) then stop s (.fault cBLKOP none 0)
      else
        let miss := slotsMissing s k.num l
        let s1 := bindSlots s k.num l
        let stands (p : Prog) : Option Nat := match p.stop with
          | some (.fault c _ _) => if c = cTIERERR then some p.upc else none
          | _ => none
        let p := withoutSlots k true (miss.map (·.1)) s1
        match stands p with
        | none => p
        | some u =>
          if stands (withoutSlots k false (miss.map (·.1)) s1) = some u then p
          else if stands (withoutSlots k true ((miss.filter (·.2)).map (·.1)) s1) = some u then { p with stop := some (.fault cCHAN none 0) }
          else { p with stop := some .wait }

/-! ### A command that has issued -/

/-- What a run leaves: in an open tile a poisoned source or a second replay restores the working state (R258). -/
def finishCmd (q : QName) (k : Cmd) (p : Prog) : State :=
  match p.stop with
  | some (.fault c va l) =>
    if (c = cPOISON || c = cREPLAY) && isTileCmd k.instr && p.s.core.t.inTile k then
      p.s.modT fun t => t.tileStop k.num ⟨c, 2, BitVec.ofNat 64 p.upc, k.num, va, l, 0⟩
    else settleCmd q k p
  | _ => settleCmd q k p

/-- Performs a command of the load or the compute queue. -/
def runHead (q : QName) (k : Cmd) (s : State) : State :=
  let (s1, e) := if needsPop k s then popStage k s else (s, none)
  match e with
  | some e => settleCmd q k { Prog.ok s1 k.upc with stop := some e }
  | none =>
    let k := ((s1.core.t.q.get q).find? fun c => c.num = k.num).getD k
    match k.instr, k.kind with
    | .fard _ sp _ _ _ _ _, .fwd =>
      match fardStart k sp s1 with
      | .error e => settleCmd q k { Prog.ok s1 0 with stop := some e }
      | .ok (_, s2) => s2.modCmd q k.num fun c => { c with ph := 1 }
    | .vrun .., .fwd | .vruna .., .fwd | .vruna .., .adj _ =>
      match vrunStart k s1 with
      | .error e => settleCmd q k { Prog.ok s1 0 with stop := some e }
      | .ok (_, s2) => s2.modCmd q k.num fun c => { c with ph := 1, upc := 0 }
    | _, _ =>
      if q = .compute && tileFull k s1 then settleCmd q k { Prog.ok s1 0 with stop := some (.fault cILLOP none 0) }
      else finishCmd q k (if q = .compute then performSlots k s1 else perform k s1)

/-! ### The store queue (R157, R191, R197 to R200) -/

/-- Whether a command stands by while later ones may issue: a CHSEND without its credit, a relaxed atomic. DEDUCED (log 15). -/
def parked (k : Cmd) : Bool :=
  k.fault.isNone && 1 ≤ k.ph && ((chsendOf k.instr).isSome || isRelaxed k.instr)

/-- Whether a command is an ordered atomic (R197). -/
def isOrdered (k : Cmd) : Bool := k.kind = .fwd && (match atomF? k.instr with | some f => f.ord | none => false)

/-- The command at which a queue stands: the first that is not done, or an ordered atomic that has not completed (R197). -/
def headOf (t : Task) (q : QName) : Option Cmd :=
  (t.q.get q).find? fun k => (!k.done || isOrdered k && !k.pushed) && !(q = .store && parked k)

/-- The commands before one. -/
def before (l : List Cmd) (k : Cmd) : List Cmd := l.takeWhile fun c => c.num ≠ k.num

/-- An atomic leaves the queue (R191, R197, R200): its checks, then it is held in a quantum combination or sent. What is held on its bytes and does not
take it in is performed first. -/
def issueAtomic (k : Cmd) (f : AtomF) (s : State) : State :=
  let earlier := before s.core.t.q.store k
  if f.ord && earlier.any (fun c => !c.pushed && !isRelaxed c.instr) then s
  else
    let k := k.shaped s.core.t.tout
    match atomIssue k s with
    | .error e => settleCmd .store k { Prog.ok s k.upc with stop := some e, got := k.got }
    | .ok (got, s1) =>
      let k' := { k with got := got }
      let gs := heldGroups s1
      match gs.find? fun g => targetsMeet k' (g.headD k') && !(joins k' g && gs.getLast? = some g) with
      | some g => flushGroup g s
      | none =>
        if isQuantum k.instr then s1.modCmd .store k.num fun c => { c with ph := 1, got := got ++ [s.now] }
        else s1.modCmd .store k.num fun c => { c with ph := 2, got := got, vals := k.vals }

/-- Whether a command of the store queue reaches global memory otherwise than as an atomic. -/
def reachesGlobal (k : Cmd) : Bool :=
  k.kind ≠ .stub &&
  match k.instr with
  | .copyOut .. | .fillOut .. | .sctr .. | .cmpx .. | .coll .. | .copyIn .. | .gthr .. => true
  | _ => false

/-- Performs a command of the store queue. Atomics that were sent before are performed before another command reaches global memory (R158). DEDUCED (log 16). -/
def runStore (k : Cmd) (s : State) : State :=
  match atomF? k.instr, k.kind with
  | some f, .fwd => issueAtomic k f s
  | _, _ =>
    let earlier := before s.core.t.q.store k
    if reachesGlobal k && !(heldGroups s).isEmpty then flushGroup ((heldGroups s).headD []) s
    else if reachesGlobal k && earlier.any (fun c => isAtomic c.instr && !c.done && c.ph = 2 && !isNord c.instr) then s
    else
      let p := perform k s
      match chsendOf k.instr, k.kind, p.stop with
      | some _, .fwd, some .wait => (settleCmd .store k p).modCmd .store k.num fun c => { c with ph := 1 }
      | _, _, _ => settleCmd .store k p

/-! ### QUEUE_HEAD_ISSUE (R16, R19, R20) -/

/-- A restored traverse takes effect before the first command routed after REVB (R305). -/
def Task.restoreTrav (t : Task) (q : QName) (num : Word) : Task :=
  let due (e : Bool × Word × Traverse) : Bool :=
    (match q with | .load => !e.1 | .store => e.1 | .compute => false) && e.2.1.toNat < num.toNat
  match (t.trest.filter due).getLast? with
  | none => t
  | some e =>
    let t := { t with trest := t.trest.filter fun e => !due e }
    if e.1 then { t with tout := e.2.2 } else { t with tin := e.2.2 }

/-- Issue of a command: once the checker agrees and with room for it among the issued ones, both pops at once. -/
def takePops (q : QName) (k : Cmd) (s : State) : Option State :=
  if k.issued then some s
  else
    let l := s.core.t.q.get q
    if !k.compared || (before l k).any (!·.issued) || engineFull l then none
    else if !s.core.t.toks.canPop q k.tok then none
    else some ((s.modT fun t => { t with toks := t.toks.pop q k.tok }).modCmd q k.num fun c => { c with issued := true })

/-- A speculative atomic may be sent before its pops, among at most eight (R200), while the engine has room for it (R157). -/
def specEarly (q : QName) (k : Cmd) (s : State) : Bool :=
  let l := s.core.t.q.store
  q = .store && k.kind = .fwd && isSpec k.instr && k.compared && (before l k).all (fun c => c.issued || isSpec c.instr) && unconfirmed l < 8 &&
  !engineFull l

/-- Runs the command at which a queue stands, under the registers it has captured (R147). -/
def runQueue (q : QName) (k : Cmd) (s : State) : State :=
  (s.modT fun t => t.restoreTrav q k.num).underRegs k fun s => if q = .store then runStore k s else runHead q k s

/-- Whether RETAG of a vector register, TAGGET or RPUSH waits: for every earlier vector-engine command to complete (R86, R87, R303, R309). -/
def awaitsVector (t : Task) (k : Cmd) : Bool :=
  (match k.instr, k.kind with | .retag .., _ | .tagget .., _ | .rpush .., .fwd | .rpushSpl .., .fwd => true | _, _ => false) &&
  (before t.q.compute k).any fun c => unitCode c.instr = 3 && !c.pushed

/-- Whether a core that stops for a halt still runs the copy to its buffers at the head of its load queue (R383). -/
def State.runsOut (s : State) (q : QName) : Bool :=
  q = .load && s.core.running && s.core.health.haltReq && (headOf s.core.t q).any copyOn

/-- QUEUE_HEAD_ISSUE (R16, R20): the command at which the queue stands issues and performs, or resumes at its micro-PC (R371, R372). DESIGN CHOICE (log 14). -/
def execQueueHeadIssue (q : QName) (s : State) : Out :=
  .next <|
  if !enginesRun s && !s.runsOut q then s
  else match headOf s.core.t q with
    | none => s
    | some k =>
      if k.fault.isSome || 1 ≤ k.ph || (isArray k.instr && (s.core.t.tile.want || s.core.t.tileHeld)) || s.core.t.behindTile k || awaitsVector s.core.t k then s
      else match takePops q k s with
        | some s1 => runQueue q { k with issued := true } s1
        | none => if specEarly q k s then s.underRegs k (runStore k) else s

/-! ### COMMAND_COMPLETE, HELD_PUSH_RELEASE, MTE_RETIRE (R20, R257, R299) -/

/-- A residual is pushed under the quotas that its command has captured (R147, R175). -/
def pushAsRouted (k : Cmd) (s : State) : State × Option EStop :=
  let (s1, e) := pushResidual k (s.asRouted k)
  (s1.backFrom s, e)

/-- The push stage of a command: none where it has to wait for its turn on TL.X. -/
def pushStage (k : Cmd) (s : State) : Option (State × Option EStop) :=
  if !(k.kind = .fwd && takesX k.instr k.kind k.blk) || k.num2.toNat ≤ s.core.t.tls.x.v.toNat then some (s, none)
  else if s.core.t.tls.x.v + 1 ≠ k.num2 then none
  else if k.doesPush then
    match k.vrunaRes with
    | some (p, n) =>
      if Config.abBytes < p + n then some (s, some (.fault cOOB none 0))
      else some (match pushAsRouted k s with | (s1, none) => (settleFrame (s1.completeX k.num2), none) | r => r)
    | none => some (match pushAsRouted k s with | (s1, none) => (settleFrame (s1.completeX k.num2), none) | r => r)
  else some (settleFrame (s.completeX k.num2), none)

/-- A fault of the push stage stands at the command, one past its last element (R301). -/
def pushFault (q : QName) (k : Cmd) (e : EStop) (s : State) : State :=
  s.modCmd q k.num fun c => { c with fault := some { e.info with unit := cmdUnit q k.instr, upc := BitVec.ofNat 64 k.upc, tl := k.num } }

/-- The tokens a command pushes when it completes on its queue; a COLL's wait for its channel number (R356). -/
def pushTok (k : Cmd) : Tok :=
  match k.instr with
  | .coll .. => ⟨false, false, false, false⟩
  | _ => k.tok

/-- V of a queue passes the commands that have completed, oldest first, and their statuses are kept (R130, R176). -/
def retireOldest (q : QName) : Nat → Task → Task
  | 0, t => t
  | n + 1, t =>
    match t.q.get q with
    | [] => t
    | k :: l =>
      if !k.pushed then t
      else
        let keep (m : Sparse Word) : Sparse Word :=
          (Sparse.put 0 m k.num.toNat k.status).filter fun p => k.num.toNat < p.1 + 128
        let t := { t with q := t.q.set q l, tls := t.tls.mod q fun x => { x with v := k.num } }
        let t := match q with
          | .load => { t with statL := keep t.statL }
          | .store => { t with statS := keep t.statS }
          | .compute => t
        retireOldest q n t

/-- The index of a queue in the timeline area (R134). -/
def tlIndex : QName → Nat
  | .load => 0 | .compute => 1 | .store => 2

/-- V of a queue moves on and is written to the timeline area. -/
def retire (q : QName) (s : State) : State :=
  let v := (s.core.t.tls.get q).v
  let s1 := s.modT fun t => retireOldest q (t.q.get q).length t
  let v1 := (s1.core.t.tls.get q).v
  settleFrame (if v1 = v then s1 else s1.timelineWrite s.cid s.core.t.id.slot (tlIndex q) v1)

/-- Whether a command is retained by the open tile (R257). -/
def retained (t : Task) (q : QName) (k : Cmd) : Bool :=
  q = .compute && t.tile.opened && isArray k.instr && t.tile.num.toNat ≤ k.num.toNat

/-- Completes a command: its residual, its tokens, its slots; none where it has to wait. -/
def complete (q : QName) (k : Cmd) (s : State) : Option State :=
  match pushStage k s with
  | none => none
  | some (s1, some e) => some (pushFault q k e s1)
  | some (s1, none) =>
    if !s1.core.t.toks.canPush q (pushTok k) then (if s1 = s then none else some s1)
    else
      let s2 := (s1.modT fun t => { t with toks := t.toks.push q (pushTok k) }).modCmd q k.num fun c => { c with pushed := true }
      some (retire q (if q = .compute then freeSlots k.num s2 else s2))

/-- The first command of a queue that can complete does. -/
def completeFirst (q : QName) (s : State) : State :=
  let t := s.core.t
  (((t.q.get q).filter fun k => k.done && !k.pushed && k.fault.isNone && !retained t q k).findSome? fun k => complete q k s).getD s

/-- What a task that has ended had in flight leaves its queue when it has completed, or has stopped at a fault (R329). -/
def State.drained (s : State) (q : QName) : State := s.modQ q fun l => l.filter fun k => !k.done && k.fault.isNone

/-- COMMAND_COMPLETE (R20, R130). -/
def execCommandComplete (q : QName) (s : State) : Out :=
  .next (if !enginesRun s then s else if s.core.running then completeFirst q s else s.drained q)

/-- HELD_PUSH_RELEASE (R20): a push that was held is applied once it fits. -/
def execHeldPushRelease (q : QName) (s : State) : Out := .next (if enginesRun s && s.core.running then completeFirst q s else s)

/-- All pushes of a list of commands, where they all fit (R20, R257). -/
def pushAll : List Cmd → Tokens → Option Tokens
  | [], t => some t
  | k :: l, t => if t.canPush .compute k.tok then pushAll l (t.push .compute k.tok) else none

/-- MTE_RETIRE (R257): when every command of the tile has completed, their residuals are pushed in turn, then V passes them together and their
tokens are pushed at once; the checkpoint is released. DEDUCED (log 17). -/
def execMteRetire (s : State) : Out :=
  .next <|
  let t := s.core.t
  let l := t.q.compute.filter fun k => retained t .compute k && !k.pushed
  if !enginesRun s || !s.core.running || !t.tile.opened || t.tile.want || !(l.any fun k => match k.instr with | .mte _ => k.done | _ => false) then s
  else
    -- what is routed behind MTE is no part of the tile
    let mine := l.filter fun k => l.any fun e => (match e.instr with | .mte _ => e.done | _ => false) && k.num.toNat ≤ e.num.toNat
    if mine.any fun k => !k.done || k.fault.isSome then s
    else match mine.find? fun k => takesX k.instr k.kind k.blk && k.kind = .fwd && t.tls.x.v.toNat < k.num2.toNat with
      | some k => match pushStage k s with
        | none => s
        | some (s1, some e) => pushFault .compute k e s1
        | some (s1, none) => s1
      | none => match pushAll mine t.toks with
        | none => s
        | some tk =>
          let s1 := s.modT fun t => { t with
            toks := tk, tile := { t.tile with opened := false, replays := 0, ck0 := Accum.zero, ck1 := Accum.zero },
            q := { t.q with compute := t.q.compute.map fun k => if mine.any (·.num = k.num) then { k with pushed := true } else k } }
          retire .compute (mine.foldl (fun s k => freeSlots k.num s) s1)

/-! ### Lower tiers (R169, R173, R179) -/

/-- The FARD whose sectors arrive. -/
def State.fard (s : State) : Option Cmd := s.core.t.q.load.find? fun k => k.ph = 1 && !k.done && k.fault.isNone

/-- The buffer words of a sector of a FARD and of every later one are marked tier-failed (R169). -/
def markRest (k : Cmd) (j : Nat) (s : State) : State :=
  match k.instr with
  | .fard _ sp _ _ _ _ _ =>
    let n := (k.v 2).toNat / 512
    let mark (b : Nat) : State :=
      (List.range (n - j)).foldl (fun (s : State) i => s.modB fun x => x.markFail b ((k.v 0).toNat + 512 * (j + i)) 512) s
    match sp with
    | .wb => mark 0
    | .ab => mark 1
    | .g => s
  | _ => s

/-- A sector of the running FARD is written to its destination; a fault of its write is taken in sector order, when every lower sector has been
written (R167). -/
def fardArrive (sector : Nat) (s : State) : State :=
  match s.fard with
  | none => s
  | some k =>
    match k.instr with
    | .fard _ sp _ _ _ _ _ =>
      let n := (k.v 2).toNat / 512
      if n ≤ sector || k.got.contains sector then s
      else s.underRegs k fun s => match fardSector k sp sector s with
        | .error e =>
          let s1 := match e with | .status .. => markRest k sector s | _ => s
          if (List.range sector).all k.got.contains then settleCmd .load k { Prog.ok s1 sector with stop := some e, got := k.got } else s
        | .ok (_, s1) =>
          let got := setIns k.got sector
          s1.modCmd .load k.num fun c => { c with got := got, upc := ((List.range n).find? fun i => !got.contains i).getD n,
                                                  done := got.length = n, status := if got.length = n then 0 else c.status }
    | _ => s

/-- FLASH_SECTOR_ARRIVAL (R173): a sector of the running FARD is written to its destination, to a buffer also while the core stops for a halt (R383). -/
def execFlashSectorArrival (sector : Nat) (s : State) : Out :=
  .next (if !enginesRun s && !(s.core.running && s.core.health.haltReq && s.core.copying) then s else fardArrive sector s)

/-- The global address of element j of the adjoint of a copy (R184): that of the gradient. -/
def elemGrad (k : Cmd) (b : BlkRef) (j : Nat) : E (Option Word) :=
  let t := k.trav
  let at_ (g : Word) (st : Vector (BitVec 32) 6) : Option Word :=
    if j < t.count then (match t.global g st j with | .at_ a _ => some (gradVa b.g a) | .out => none) else none
  match k.instr with
  | .copyIn _ _ _ _ _ off _ => pure (at_ (k.v 1 + sx off) t.ss)
  | .copyOut _ _ _ _ _ off _ => pure (at_ (k.v 1 + sx off) t.ds)
  | .gthr .. | .sctr .. =>
    if j < (k.v 2).toNat then do
      let i ← readIndex (k.v 1) j
      pure ((tableRow (k.d 0) i).map fun i => gradVa b.g (rowAddr (k.d 0) i))
    else pure none
  | _ => pure none

/-- The global address of element j of a copy-engine command, as the command stands; of a scalar atomic the target is element 0, the place of its return
value any other. -/
def elemVa (k : Cmd) (j : Nat) : E (Option Word) := do
  let s ← enow
  let at_ (t : Traverse) (g : Word) (st : Vector (BitVec 32) 6) : Option Word :=
    if j < t.count then (match t.global g st j with | .at_ a _ => some a | .out => none) else none
  match k.kind, k.blk with
  | .adj _, some b => elemGrad k b j
  | _, _ =>
  match k.instr with
  | .copyIn _ _ _ _ _ off _ => pure (at_ s.core.t.tin (k.v 1 + sx off) s.core.t.tin.ss)
  | .copyOut _ _ _ _ _ off _ => pure (at_ s.core.t.tout (k.v 1 + sx off) s.core.t.tout.ds)
  | .fillOut _ _ _ _ off _ => pure (at_ s.core.t.tout (k.v 0 + sx off) s.core.t.tout.ds)
  | .gthr .. | .sctr .. =>
    if j < (k.v 2).toNat then do
      let i ← readIndex (k.v 1) j
      pure ((tableRow (k.d 0) i).map (rowAddr (k.d 0)))
    else pure none
  | .cmpx .. => pure (some (BitVec.ofNat 64 ((k.v 0).toNat / 4096 * 4096 + 512 * (j % 8))))
  | .awrT _ _ _ _ _ off => let t := (k.shaped s.core.t.tout).trav; pure (at_ t (k.v 0 + sx off) t.ds)
  | _ => pure ((scalarAtom k).bind fun a => if j = 0 then some a.2.1 else a.2.2.1)

/-- The home of that element. -/
def elemHome (k : Cmd) (j : Nat) (s : State) : Option Nat :=
  let m : E (Option Nat) := do
    match (← elemVa k j) with
    | none => pure none
    | some va => do
      let x ← exlate va .r
      pure (some x.pa)
  match m s with
  | .ok (r, _) => r
  | .error _ => none

/-- The command at which a copy engine stands: the oldest atomic that has been sent or is held, else the one at the queue head. -/
def standsAt (t : Task) (q : QName) : Option Cmd :=
  match q, t.q.store.find? fun k => isAtomic k.instr && (k.ph = 1 || k.ph = 2) && !k.done && k.fault.isNone with
  | .store, some k => some k
  | _, _ => headOf t q

/-- A lower tier fails a command of a copy engine at an element (R169, R176): the sectors of a FARD below it arrive first. Of another command the tier
fails to deliver the element's line, and the command runs up to it; a line whose port failed is not delivered until it is written back, one that
came late only fails this command. DEDUCED (log 18). -/
def tierEnd (q : QName) (elem : Nat) (code : BitVec 8) (s : State) : State :=
  if !enginesRun s then s
  else match standsAt s.core.t q with
    | none => s
    | some k =>
      if k.fault.isSome || k.kind = .stub then s
      else match k.instr with
        | .fard .. =>
          if k.ph ≠ 1 || (k.v 2).toNat / 512 ≤ elem then s
          else
            let s1 := (List.range elem).foldl (fun s i => fardArrive i s) s
            match s1.fard with
            | some k1 => if k1.num = k.num then
                settleCmd q k1 { Prog.ok (markRest k1 elem s1) elem with stop := some (.status (if code = 0x11 then 0x13 else code) 4), got := k1.got }
              else s1
            | none => s1
        | _ =>
          match (if 1 ≤ k.ph then some s else takePops q k s) with
          | none => s
          | some s1 => match elemHome k (if isTensor k.instr then k.upc else elem) s1 with
            | none => s
            | some pa =>
              if code = 0x10 && pa < Config.tier2Limit then s
              else
                let s2 := s1.modM fun m => { m with failed := setIns m.failed (pa / 128) }
                let s3 :=
                  if k.ph = 2 then s2.underRegs k fun s => settleAtom k (atomRun k s)
                  else if k.ph = 1 then (((heldGroups s2).find? fun g => g.any (·.num = k.num)).map fun g => flushGroup g s2).getD s2
                  else runQueue q { k with issued := true } s2
                if code = 0x10 then
                  (s3.modM fun m => { m with failed := s1.mem.failed }).modCmd q k.num fun c =>
                    if c.done && c.status.extractLsb' 0 8 = 0x11 then { c with status := c.status - 1 } else c
                else s3

/-- TIER_TIMEOUT (R169): the reply that an element of the command at which a copy engine stands waits for is late. -/
def execTierTimeout (x : TierAt) (s : State) : Out := .next (tierEnd x.q x.elem 0x10 s)

/-- TIER_PORT_FAILURE (R169): a port reports a failed transfer, or a tier-2 controller fails. -/
def execTierPortFailure (x : TierAt) (s : State) : Out := .next (tierEnd x.q x.elem 0x11 s)

/-- L2_WRITE_BACK (R179, R181): a line's block frees the slots it no longer needs, or returns from the reserve to the pool; the line is delivered
again, and transactions on the block are performed again. -/
def execL2WriteBack (line : Nat) (s : State) : Out :=
  .next <|
  let s := s.modM fun m => { m with failed := setDel m.failed line, rollb := setDel m.rollb (line / 4) }
  let blk := line / 4
  match Sparse.find s.mem.comp blk, s.aperture (512 * blk) with
  | some b, some p =>
    let need := blockNeed (s.blockBytes blk)
    let charge (d : Int) (s : State) : State := match s.charge b.ctx (512 * blk) d with | .ok s => s | .error _ => s
    if b.raw then
      if b.resv && s.poolHas p 8 then
        s.modM fun m => { m with comp := Sparse.del m.comp blk, pool := addUse m.pool p 8, resv := addResv m.resv p (-8) }
      else s
    else if b.resv then
      if s.poolHas p need then
        charge ((need : Int) - 8) (s.modM fun m => { m with
          comp := Sparse.ins m.comp blk ⟨need, false, b.ctx, false⟩, pool := addUse m.pool p need, resv := addResv m.resv p (-8) })
      else s
    else if need < b.slots then
      charge ((need : Int) - b.slots) (s.modM fun m => { m with
        comp := Sparse.ins m.comp blk ⟨need, false, b.ctx, false⟩, pool := addUse m.pool p ((need : Int) - b.slots) })
    else s
  | _, _ => s

/-! ### Fetch and walks (R29, R138, R143) -/

/-- What the fetch unit keeps of a line it reads. -/
def fetchAhead (va : Word) (s : State) : State :=
  if !s.core.running then s
  else match fetchLine va s with
    | .ok (_, s') => keepFills s s'
    | .error (_, s') => keepFills s s'

/-- FETCH_LINE (R29): a line is read and, where its checks pass, kept. -/
def execFetchLine (va : Word) (s : State) : Out := .next (fetchAhead va s)

/-- LINE_REFETCH (R29): a line that failed its check is not kept, so it is read once more from its home. -/
def execLineRefetch (va : Word) (s : State) : Out := .next (fetchAhead va s)

/-- PAGE_WALK (R138, R143): the walker installs the leaf of an address. -/
def execPageWalk (va : Word) (s : State) : Out :=
  .next <|
  if !s.core.running || va.extractLsb' 57 7 != 0 then s
  else match lookup s s.cid va.toNat with
    | (s1, .ok t) => keepFills s (installTlb s1 t)
    | (s1, .error _) => keepFills s s1

end Sys2Proof.Machine
end

