-- ==== Sys2Proof/Machine/Dispatch.lean ====
section
/-! DEFINITION. The dispatch of a step of the machine to its meaning: one arm per constructor of `Instr`. -/

namespace Sys2Proof.Machine

def exec (i : Instr) (s : State) : Host.Outcome State Fault Refusal :=
  match i with
  | .add x0 x1 x2 => Sys2Proof.Machine.execAdd x0 x1 x2 s
  | .sub x0 x1 x2 => Sys2Proof.Machine.execSub x0 x1 x2 s
  | .addi x0 x1 x2 => Sys2Proof.Machine.execAddi x0 x1 x2 s
  | .mul x0 x1 x2 => Sys2Proof.Machine.execMul x0 x1 x2 s
  | .mulh x0 x1 x2 x3 => Sys2Proof.Machine.execMulh x0 x1 x2 x3 s
  | .div x0 x1 x2 x3 => Sys2Proof.Machine.execDiv x0 x1 x2 x3 s
  | .rem x0 x1 x2 x3 => Sys2Proof.Machine.execRem x0 x1 x2 x3 s
  | .and x0 x1 x2 => Sys2Proof.Machine.execAnd x0 x1 x2 s
  | .or x0 x1 x2 => Sys2Proof.Machine.execOr x0 x1 x2 s
  | .xor x0 x1 x2 => Sys2Proof.Machine.execXor x0 x1 x2 s
  | .andn x0 x1 x2 => Sys2Proof.Machine.execAndn x0 x1 x2 s
  | .shl x0 x1 x2 => Sys2Proof.Machine.execShl x0 x1 x2 s
  | .shr x0 x1 x2 => Sys2Proof.Machine.execShr x0 x1 x2 s
  | .sar x0 x1 x2 => Sys2Proof.Machine.execSar x0 x1 x2 s
  | .rot x0 x1 x2 => Sys2Proof.Machine.execRot x0 x1 x2 s
  | .clz x0 x1 => Sys2Proof.Machine.execClz x0 x1 s
  | .popc x0 x1 => Sys2Proof.Machine.execPopc x0 x1 s
  | .min x0 x1 x2 x3 => Sys2Proof.Machine.execMin x0 x1 x2 x3 s
  | .max x0 x1 x2 x3 => Sys2Proof.Machine.execMax x0 x1 x2 x3 s
  | .sel x0 x1 x2 x3 => Sys2Proof.Machine.execSel x0 x1 x2 x3 s
  | .ceq x0 x1 x2 => Sys2Proof.Machine.execCeq x0 x1 x2 s
  | .clt x0 x1 x2 => Sys2Proof.Machine.execClt x0 x1 x2 s
  | .cltu x0 x1 x2 => Sys2Proof.Machine.execCltu x0 x1 x2 s
  | .lea x0 x1 x2 x3 x4 => Sys2Proof.Machine.execLea x0 x1 x2 x3 x4 s
  | .bfx x0 x1 x2 x3 x4 => Sys2Proof.Machine.execBfx x0 x1 x2 x3 x4 s
  | .bfi x0 x1 x2 x3 x4 => Sys2Proof.Machine.execBfi x0 x1 x2 x3 x4 s
  | .movi x0 x1 => Sys2Proof.Machine.execMovi x0 x1 s
  | .brEq x0 x1 x2 => Sys2Proof.Machine.execBrEq x0 x1 x2 s
  | .brNe x0 x1 x2 => Sys2Proof.Machine.execBrNe x0 x1 x2 s
  | .brLt x0 x1 x2 => Sys2Proof.Machine.execBrLt x0 x1 x2 s
  | .brGe x0 x1 x2 => Sys2Proof.Machine.execBrGe x0 x1 x2 s
  | .brLtu x0 x1 x2 => Sys2Proof.Machine.execBrLtu x0 x1 x2 s
  | .brGeu x0 x1 x2 => Sys2Proof.Machine.execBrGeu x0 x1 x2 s
  | .jmp x0 => Sys2Proof.Machine.execJmp x0 s
  | .jmpr x0 x1 => Sys2Proof.Machine.execJmpr x0 x1 s
  | .call x0 x1 => Sys2Proof.Machine.execCall x0 x1 s
  | .ret x0 => Sys2Proof.Machine.execRet x0 s
  | .loop x0 x1 => Sys2Proof.Machine.execLoop x0 x1 s
  | .nop => Sys2Proof.Machine.execNop s
  | .hint x0 => Sys2Proof.Machine.execHint x0 s
  | .ld x0 x1 x2 x3 x4 => Sys2Proof.Machine.execLd x0 x1 x2 x3 x4 s
  | .st x0 x1 x2 x3 x4 => Sys2Proof.Machine.execSt x0 x1 x2 x3 x4 s
  | .ldDsc x0 x1 x2 x3 => Sys2Proof.Machine.execLdDsc x0 x1 x2 x3 s
  | .stDsc x0 x1 x2 x3 => Sys2Proof.Machine.execStDsc x0 x1 x2 x3 s
  | .spl x0 x1 x2 x3 => Sys2Proof.Machine.execSpl x0 x1 x2 x3 s
  | .sps x0 x1 x2 x3 => Sys2Proof.Machine.execSps x0 x1 x2 x3 s
  | .pref x0 x1 x2 => Sys2Proof.Machine.execPref x0 x1 x2 s
  | .cln x0 x1 => Sys2Proof.Machine.execCln x0 x1 s
  | .inv x0 x1 => Sys2Proof.Machine.execInv x0 x1 s
  | .invI x0 x1 => Sys2Proof.Machine.execInvI x0 x1 s
  | .commit => Sys2Proof.Machine.execCommit s
  | .acq => Sys2Proof.Machine.execAcq s
  | .phase x0 => Sys2Proof.Machine.execPhase x0 s
  | .fence x0 => Sys2Proof.Machine.execFence x0 s
  | .twait x0 x1 x2 => Sys2Proof.Machine.execTwait x0 x1 x2 s
  | .tread x0 x1 x2 => Sys2Proof.Machine.execTread x0 x1 x2 s
  | .mfsr x0 x1 => Sys2Proof.Machine.execMfsr x0 x1 s
  | .mtsr x0 x1 => Sys2Proof.Machine.execMtsr x0 x1 s
  | .tlbiVa x0 => Sys2Proof.Machine.execTlbiVa x0 s
  | .tlbiCtx => Sys2Proof.Machine.execTlbiCtx s
  | .tlbiCid x0 => Sys2Proof.Machine.execTlbiCid x0 s
  | .tlbiAll => Sys2Proof.Machine.execTlbiAll s
  | .tlbfence x0 => Sys2Proof.Machine.execTlbfence x0 s
  | .probe x0 x1 x2 => Sys2Proof.Machine.execProbe x0 x1 x2 s
  | .rfhint x0 => Sys2Proof.Machine.execRfhint x0 s
  | .rdcyc x0 x1 => Sys2Proof.Machine.execRdcyc x0 x1 s
  | .keysel x0 x1 => Sys2Proof.Machine.execKeysel x0 x1 s
  | .keyselClr x0 => Sys2Proof.Machine.execKeyselClr x0 s
  | .mode x0 x1 => Sys2Proof.Machine.execMode x0 x1 s
  | .cvt x0 x1 x2 x3 x4 x5 x6 => Sys2Proof.Machine.execCvt x0 x1 x2 x3 x4 x5 x6 s
  | .cvts x0 x1 x2 x3 x4 x5 x6 x7 => Sys2Proof.Machine.execCvts x0 x1 x2 x3 x4 x5 x6 x7 s
  | .qntw x0 x1 x2 x3 x4 x5 => Sys2Proof.Machine.execQntw x0 x1 x2 x3 x4 x5 s
  | .dqw x0 x1 x2 x3 x4 x5 => Sys2Proof.Machine.execDqw x0 x1 x2 x3 x4 x5 s
  | .retag x0 x1 x2 => Sys2Proof.Machine.execRetag x0 x1 x2 s
  | .retagDsc x0 x1 x2 => Sys2Proof.Machine.execRetagDsc x0 x1 x2 s
  | .tagget x0 x1 x2 => Sys2Proof.Machine.execTagget x0 x1 x2 s
  | .tagchk x0 x1 x2 x3 => Sys2Proof.Machine.execTagchk x0 x1 x2 x3 s
  | .scalex x0 x1 x2 x3 x4 => Sys2Proof.Machine.execScalex x0 x1 x2 x3 x4 s
  | .trvlIn x0 x1 x2 x3 x4 => Sys2Proof.Machine.execTrvlIn x0 x1 x2 x3 x4 s
  | .trvlOut x0 x1 x2 x3 x4 => Sys2Proof.Machine.execTrvlOut x0 x1 x2 x3 x4 s
  | .trvsIn x0 x1 x2 x3 x4 x5 => Sys2Proof.Machine.execTrvsIn x0 x1 x2 x3 x4 x5 s
  | .trvsOut x0 x1 x2 x3 x4 x5 => Sys2Proof.Machine.execTrvsOut x0 x1 x2 x3 x4 x5 s
  | .copyIn x0 x1 x2 x3 x4 x5 x6 => Sys2Proof.Machine.execCopyIn x0 x1 x2 x3 x4 x5 x6 s
  | .copyOut x0 x1 x2 x3 x4 x5 x6 => Sys2Proof.Machine.execCopyOut x0 x1 x2 x3 x4 x5 x6 s
  | .fillIn x0 x1 x2 x3 x4 => Sys2Proof.Machine.execFillIn x0 x1 x2 x3 x4 s
  | .fillOut x0 x1 x2 x3 x4 x5 => Sys2Proof.Machine.execFillOut x0 x1 x2 x3 x4 x5 s
  | .gthr x0 x1 x2 x3 x4 x5 x6 x7 => Sys2Proof.Machine.execGthr x0 x1 x2 x3 x4 x5 x6 x7 s
  | .sctr x0 x1 x2 x3 x4 x5 x6 x7 => Sys2Proof.Machine.execSctr x0 x1 x2 x3 x4 x5 x6 x7 s
  | .fard x0 x1 x2 x3 x4 x5 x6 => Sys2Proof.Machine.execFard x0 x1 x2 x3 x4 x5 x6 s
  | .cmpx x0 x1 x2 => Sys2Proof.Machine.execCmpx x0 x1 x2 s
  | .tierq x0 x1 x2 => Sys2Proof.Machine.execTierq x0 x1 x2 s
  | .awr x0 x1 x2 x3 x4 x5 => Sys2Proof.Machine.execAwr x0 x1 x2 x3 x4 x5 s
  | .awrT x0 x1 x2 x3 x4 x5 => Sys2Proof.Machine.execAwrT x0 x1 x2 x3 x4 x5 s
  | .axch x0 x1 x2 x3 x4 x5 => Sys2Proof.Machine.execAxch x0 x1 x2 x3 x4 x5 s
  | .acas x0 x1 x2 x3 x4 x5 x6 => Sys2Proof.Machine.execAcas x0 x1 x2 x3 x4 x5 x6 s
  | .aflg x0 x1 => Sys2Proof.Machine.execAflg x0 x1 s
  | .vrun x0 x1 x2 x3 => Sys2Proof.Machine.execVrun x0 x1 x2 x3 s
  | .vruna x0 x1 x2 x3 x4 x5 x6 => Sys2Proof.Machine.execVruna x0 x1 x2 x3 x4 x5 x6 s
  | .lnx x0 x1 x2 x3 x4 => Sys2Proof.Machine.execLnx x0 x1 x2 x3 x4 s
  | .lnr x0 x1 x2 x3 x4 => Sys2Proof.Machine.execLnr x0 x1 x2 x3 x4 s
  | .mma x0 x1 x2 x3 x4 x5 x6 x7 => Sys2Proof.Machine.execMma x0 x1 x2 x3 x4 x5 x6 x7 s
  | .mzero x0 x1 => Sys2Proof.Machine.execMzero x0 x1 s
  | .mzeroCb x0 x1 x2 => Sys2Proof.Machine.execMzeroCb x0 x1 x2 s
  | .mswap x0 x1 => Sys2Proof.Machine.execMswap x0 x1 s
  | .mst x0 x1 x2 x3 x4 x5 x6 x7 x8 => Sys2Proof.Machine.execMst x0 x1 x2 x3 x4 x5 x6 x7 x8 s
  | .mcks x0 x1 x2 x3 x4 x5 x6 x7 => Sys2Proof.Machine.execMcks x0 x1 x2 x3 x4 x5 x6 x7 s
  | .mckv x0 x1 x2 x3 => Sys2Proof.Machine.execMckv x0 x1 x2 x3 s
  | .mfix x0 x1 => Sys2Proof.Machine.execMfix x0 x1 s
  | .mtm x0 => Sys2Proof.Machine.execMtm x0 s
  | .mte x0 => Sys2Proof.Machine.execMte x0 s
  | .wgrp x0 x1 x2 => Sys2Proof.Machine.execWgrp x0 x1 x2 s
  | .sxf x0 x1 x2 => Sys2Proof.Machine.execSxf x0 x1 x2 s
  | .sxi x0 x1 x2 => Sys2Proof.Machine.execSxi x0 x1 x2 s
  | .scmac x0 x1 x2 x3 x4 => Sys2Proof.Machine.execScmac x0 x1 x2 x3 x4 s
  | .scmul x0 x1 x2 x3 x4 => Sys2Proof.Machine.execScmul x0 x1 x2 x3 x4 s
  | .sconj x0 x1 x2 => Sys2Proof.Machine.execSconj x0 x1 x2 s
  | .sdom x0 x1 x2 x3 => Sys2Proof.Machine.execSdom x0 x1 x2 x3 s
  | .sexp x0 x1 x2 x3 => Sys2Proof.Machine.execSexp x0 x1 x2 x3 s
  | .blkb x0 x1 x2 x3 => Sys2Proof.Machine.execBlkb x0 x1 x2 x3 s
  | .blke x0 => Sys2Proof.Machine.execBlke x0 s
  | .revb x0 => Sys2Proof.Machine.execRevb x0 s
  | .rpush x0 x1 => Sys2Proof.Machine.execRpush x0 x1 s
  | .rpushSpl x0 x1 x2 => Sys2Proof.Machine.execRpushSpl x0 x1 x2 s
  | .rstkSet x0 => Sys2Proof.Machine.execRstkSet x0 s
  | .rstkGet x0 => Sys2Proof.Machine.execRstkGet x0 s
  | .gzero x0 x1 => Sys2Proof.Machine.execGzero x0 x1 s
  | .launch x0 x1 x2 => Sys2Proof.Machine.execLaunch x0 x1 x2 s
  | .launchRec x0 x1 x2 => Sys2Proof.Machine.execLaunchRec x0 x1 x2 s
  | .join x0 => Sys2Proof.Machine.execJoin x0 s
  | .tend => Sys2Proof.Machine.execTend s
  | .yield => Sys2Proof.Machine.execYield s
  | .stepb x0 => Sys2Proof.Machine.execStepb x0 s
  | .bari x0 x1 => Sys2Proof.Machine.execBari x0 x1 s
  | .bariLv x0 x1 => Sys2Proof.Machine.execBariLv x0 x1 s
  | .bara x0 x1 x2 => Sys2Proof.Machine.execBara x0 x1 x2 s
  | .barw x0 x1 x2 => Sys2Proof.Machine.execBarw x0 x1 x2 s
  | .baraw x0 x1 x2 => Sys2Proof.Machine.execBaraw x0 x1 x2 s
  | .barx x0 x1 x2 => Sys2Proof.Machine.execBarx x0 x1 x2 s
  | .prio x0 => Sys2Proof.Machine.execPrio x0 s
  | .chcfgUp x0 x1 x2 x3 => Sys2Proof.Machine.execChcfgUp x0 x1 x2 x3 s
  | .chcfgDn x0 x1 x2 x3 => Sys2Proof.Machine.execChcfgDn x0 x1 x2 x3 s
  | .chsendFw x0 x1 x2 => Sys2Proof.Machine.execChsendFw x0 x1 x2 s
  | .chsendRv x0 x1 x2 => Sys2Proof.Machine.execChsendRv x0 x1 x2 s
  | .coll x0 x1 x2 => Sys2Proof.Machine.execColl x0 x1 x2 s
  | .cdig x0 x1 => Sys2Proof.Machine.execCdig x0 x1 s
  | .cdigClr => Sys2Proof.Machine.execCdigClr s
  | .cstat x0 x1 x2 => Sys2Proof.Machine.execCstat x0 x1 x2 s
  | .cstatTl x0 x1 => Sys2Proof.Machine.execCstatTl x0 x1 s
  | .trap x0 => Sys2Proof.Machine.execTrap x0 s
  | .eret => Sys2Proof.Machine.execEret s
  | .eretKill => Sys2Proof.Machine.execEretKill s
  | .ctxsv x0 x1 x2 => Sys2Proof.Machine.execCtxsv x0 x1 x2 s
  | .ctxrs x0 x1 => Sys2Proof.Machine.execCtxrs x0 x1 s
  | .fltrec x0 => Sys2Proof.Machine.execFltrec x0 s
  | .brk x0 => Sys2Proof.Machine.execBrk x0 s
  | .halt x0 => Sys2Proof.Machine.execHalt x0 s
  | .crst x0 => Sys2Proof.Machine.execCrst x0 s
  | .mchkq x0 x1 x2 => Sys2Proof.Machine.execMchkq x0 x1 x2 s
  | .bundleIssue => Sys2Proof.Machine.execBundleIssue s
  | .resultLanding => Sys2Proof.Machine.execResultLanding s
  | .fetchLine x0 => Sys2Proof.Machine.execFetchLine x0 s
  | .lineRefetch x0 => Sys2Proof.Machine.execLineRefetch x0 s
  | .checkerCompare x0 => Sys2Proof.Machine.execCheckerCompare x0 s
  | .queueHeadIssue x0 => Sys2Proof.Machine.execQueueHeadIssue x0 s
  | .commandComplete x0 => Sys2Proof.Machine.execCommandComplete x0 s
  | .heldPushRelease x0 => Sys2Proof.Machine.execHeldPushRelease x0 s
  | .mteRetire => Sys2Proof.Machine.execMteRetire s
  | .tileReplay => Sys2Proof.Machine.execTileReplay s
  | .pageWalk x0 => Sys2Proof.Machine.execPageWalk x0 s
  | .trapEntry => Sys2Proof.Machine.execTrapEntry s
  | .taskDispatch => Sys2Proof.Machine.execTaskDispatch s
  | .nestLaunchDispatch => Sys2Proof.Machine.execNestLaunchDispatch s
  | .recordAging => Sys2Proof.Machine.execRecordAging s
  | .forcedPreemption => Sys2Proof.Machine.execForcedPreemption s
  | .quadClockSwitch x0 => Sys2Proof.Machine.execQuadClockSwitch x0 s
  | .barrierRelease => Sys2Proof.Machine.execBarrierRelease s
  | .phaseMerge => Sys2Proof.Machine.execPhaseMerge s
  | .stepBarrierComplete => Sys2Proof.Machine.execStepBarrierComplete s
  | .rstkRefill => Sys2Proof.Machine.execRstkRefill s
  | .tileLanding => Sys2Proof.Machine.execTileLanding s
  | .creditReturn x0 => Sys2Proof.Machine.execCreditReturn x0 s
  | .chsendPairTimeout => Sys2Proof.Machine.execChsendPairTimeout s
  | .partnerLoss x0 => Sys2Proof.Machine.execPartnerLoss x0 s
  | .collMatch x0 x1 => Sys2Proof.Machine.execCollMatch x0 x1 s
  | .collComplete x0 => Sys2Proof.Machine.execCollComplete x0 s
  | .portRd x0 x1 => Sys2Proof.Machine.execPortRd x0 x1 s
  | .portWr x0 x1 x2 x3 => Sys2Proof.Machine.execPortWr x0 x1 x2 x3 s
  | .portAop x0 x1 x2 x3 x4 x5 x6 => Sys2Proof.Machine.execPortAop x0 x1 x2 x3 x4 x5 x6 s
  | .portAxc x0 x1 x2 x3 x4 => Sys2Proof.Machine.execPortAxc x0 x1 x2 x3 x4 s
  | .portAcs x0 x1 x2 x3 x4 x5 => Sys2Proof.Machine.execPortAcs x0 x1 x2 x3 x4 x5 s
  | .portReply x0 x1 => Sys2Proof.Machine.execPortReply x0 x1 s
  | .atomicHomeEvent => Sys2Proof.Machine.execAtomicHomeEvent s
  | .quantumFlush => Sys2Proof.Machine.execQuantumFlush s
  | .speculativeConfirm => Sys2Proof.Machine.execSpeculativeConfirm s
  | .l2WriteBack x0 => Sys2Proof.Machine.execL2WriteBack x0 s
  | .tierTimeout x0 => Sys2Proof.Machine.execTierTimeout x0 s
  | .tierPortFailure x0 => Sys2Proof.Machine.execTierPortFailure x0 s
  | .flashSectorArrival x0 => Sys2Proof.Machine.execFlashSectorArrival x0 s
  | .uncorrectableError x0 => Sys2Proof.Machine.execUncorrectableError x0 s
  | .correctableError x0 => Sys2Proof.Machine.execCorrectableError x0 s
  | .coreHalted x0 => Sys2Proof.Machine.execCoreHalted x0 s
  | .dbgctlRun x0 => Sys2Proof.Machine.execDbgctlRun x0 s
  | .dbgctlStep x0 => Sys2Proof.Machine.execDbgctlStep x0 s
  | .dwhlt x0 => Sys2Proof.Machine.execDwhlt x0 s
  | .debugApertureRead x0 x1 x2 => Sys2Proof.Machine.execDebugApertureRead x0 x1 x2 s
  | .debugApertureWrite x0 x1 x2 => Sys2Proof.Machine.execDebugApertureWrite x0 x1 x2 s
  | .doorbell x0 x1 => Sys2Proof.Machine.execDoorbell x0 x1 s
  | .hostRingRecordRead x0 => Sys2Proof.Machine.execHostRingRecordRead x0 s
  | .ringReadFailure x0 => Sys2Proof.Machine.execRingReadFailure x0 s
  | .windowAccess x0 x1 x2 x3 => Sys2Proof.Machine.execWindowAccess x0 x1 x2 x3 s
  | .attcmd x0 => Sys2Proof.Machine.execAttcmd x0 s
  | .attestationReportWritten => Sys2Proof.Machine.execAttestationReportWritten s
  | .hostRegisterWrite x0 x1 => Sys2Proof.Machine.execHostRegisterWrite x0 x1 s
  | .hbmcapWrite x0 x1 => Sys2Proof.Machine.execHbmcapWrite x0 x1 s
  | .tlnbaseWrite x0 => Sys2Proof.Machine.execTlnbaseWrite x0 s
  | .powerOnBoot x0 => Sys2Proof.Machine.execPowerOnBoot x0 s
  | .thermalLimitReached x0 => Sys2Proof.Machine.execThermalLimitReached x0 s
  | .thermalLimitCleared x0 => Sys2Proof.Machine.execThermalLimitCleared x0 s
  | .droopStretch x0 => Sys2Proof.Machine.execDroopStretch x0 s
  | .refreshDue x0 => Sys2Proof.Machine.execRefreshDue x0 s
  | .rfhintIntervalEnd => Sys2Proof.Machine.execRfhintIntervalEnd s
  | .flitReceive x0 x1 x2 => Sys2Proof.Machine.execFlitReceive x0 x1 x2 s
  | .linkPortDown x0 => Sys2Proof.Machine.execLinkPortDown x0 s
  | .keyRevocation x0 => Sys2Proof.Machine.execKeyRevocation x0 s
  | .powerOff => Sys2Proof.Machine.execPowerOff s
  | .loggedHostWrite => Sys2Proof.Machine.execLoggedHostWrite s
  | .loggedLaunchRecord => Sys2Proof.Machine.execLoggedLaunchRecord s

end Sys2Proof.Machine
end

