-- ==== Sys2Proof/Machine/Fetch.lean ====
section
/-! DEFINITION. Fetch and decode of the instruction at the PC (02_encoding.md R26 to R37, 12_blocks.md R290): what stands there, or the fault
that the control core raises instead of issuing it. -/

namespace Sys2Proof.Machine

/-- Granules of a line from one on, to the line's end: an instruction never crosses it (R26). -/
def lineFrom (bits : BitVec 1024) (g : Nat) : List Word := (List.range (16 - g)).map fun i => lineGran bits (g + i)

/-- Whether an instruction stands where a block's instructions stand (R28, R290): with no block open a line of kind 01 is entered only at a BLKB in
granule 1; with one open, every line is of kind 01 and among the block's 64. -/
def placeOk (s : State) (kind : BitVec 2) (w : Word) : Bool :=
  let pc := s.core.t.pc
  match s.core.t.blk with
  | none => !(s.core.entry && kind == 1) || (granuleOf pc == 1 && isBlkb w)
  | some b => kind == 1 && (lineOf pc).toNat < (lineOf b.pcb).toNat + 64 * 128

/-- The instruction at the PC of the core in focus, with whether it stands where it may (R28, R290), or the fault raised instead of it: the PC's
own checks (R33, R372), the line's (R28 to R30), the encoding's (R37). Of a transfer to granule 0 the line's faults come first, and the BLKOP of a block's
line that is entered from outside (R28, R103). A line that is held is waited for (R154). The state keeps what fetching leaves in the caches. DEDUCED (log 11). -/
def fetchInstr (s : State) : State × Except Stop (Instr × Bool) :=
  let pc := s.core.t.pc
  let g := granuleOf pc
  if pc.extractLsb' 0 3 != 0 then (s, .error (.fault (.at cALIGN pc)))
  else if g = 0 && !s.core.entry then (s, .error (.fault (.cc cBRTGT)))
  else match fetchLine pc s with
    | .error (e, s1) => (keepFills s s1, .error e)
    | .ok (b, s1) =>
      let kind := hdrKind (lineGran b 0)
      let s2 := (keepFills s s1).modC fun c => { c with lineKind := kind }
      if lineBad b || kind == 2 then (s2, .error (.fault { FaultInfo.cc cILLOP with unit := 8 }))
      else if g = 0 then (s2, .error (.fault (.cc (if kind == 1 && s.core.t.blk.isNone then cBLKOP else cBRTGT))))
      else match decodeWords (lineFrom b g) with
        | .error _ => (s2, .error (.fault (.cc cILLOP)))
        | .ok (i, _) => (s2, .ok (i, placeOk s kind (lineGran b g)))

/-! ### A fetchable instruction for `withFetchWord` -/

/-- The words of an instruction numbered as the opcode table numbers its bits: four granules, the first one lowest. -/
def tableGranules (nbits w : Nat) : List Word :=
  (List.range 4).map fun k => BitVec.ofNat 64 ((w % 2 ^ nbits) >>> (64 * k))

/-- START and TGT of a line that holds one instruction of n granules at granule 1 and NOPs behind it (R27, R30). -/
def startBits (n : Nat) : Nat := (List.range 15).foldl (fun a i => if i = 0 || n ≤ i then a + 2 ^ i else a) 0

/-- A code line with a given instruction in granule 1, NOPs behind it, and its header with the right CHK (R26 to R30). -/
def codeLine (ws : List Word) : BitVec 1024 :=
  let n := granCount (ws.headD 0)
  let body := (ws.take n) ++ List.replicate (15 - n) (0x404 : Word)
  let st := startBits n
  let hdr := st + st * 2 ^ 15
  let bytes (x k : Nat) : List Byte := leBytes k x
  let chk := crc16 (bytes hdr 6 ++ body.flatMap fun w => bytes w.toNat 8)
  let line := (BitVec.ofNat 64 (hdr + chk * 2 ^ 48) :: body).foldr (fun w a => a * 2 ^ 64 + w.toNat) 0
  BitVec.ofNat 1024 line

/-- A TLB entry of context 0 for the page at 0x1000: present, readable, writable, executable, for tasks, phase-ordered (R139). -/
def codePage : TlbE := ⟨0, 1, 1, 0x103F, 0, 0⟩

end Sys2Proof.Machine
end

