-- ==== Sys2Proof/Machine/Schedule.lean ====
section
/-! DEFINITION. Which event the package lets happen on its own: a fixed round over the units of the core in focus and of the package. The manual fixes no order among units (R1, R159); every event checks itself whether it can happen. -/

namespace Sys2Proof.Machine

/-- Time passes and the other side takes its turn next (R1, R2). DESIGN CHOICE (log 6). -/
def State.tick (s : State) : State := { s with now := s.now + 1 + Config.elapsed s.now, turn := s.turn + 1 }

/-- The next core after the one in focus that holds a task or commands of one that has ended, by physical number (R14); the one in focus where no other does. -/
def State.nextCore (s : State) : BitVec 8 :=
  let run := (s.others.filter fun p => p.2.running || p.2.draining).map (·.1)
  let c := s.core.phys.toNat
  match run.find? (c < ·), run with
  | some n, _ => BitVec.ofNat 8 n
  | none, n :: _ => BitVec.ofNat 8 n
  | none, [] => s.core.phys

/-- The first sector of the running FARD that has not arrived (R173). -/
def nextSector (s : State) : Option Nat :=
  match s.core.t.q.load.find? fun k => k.ph = 1 && !k.done && k.fault.isNone with
  | none => none
  | some k => (List.range ((k.v 2).toNat / 512)).find? fun i => !k.got.contains i

/-- The events that the package lets happen in turn; `none`: nothing of that kind is due. DESIGN CHOICE (log 7). -/
def roundOf (s : State) : List (Option Instr) :=
  let k := s.turn / 2
  let p : BitVec 2 := BitVec.ofNat 2 (k / 64)
  let ch : BitVec 4 := BitVec.ofNat 4 (k / 64)
  [ some (.queueHeadIssue .load), some (.queueHeadIssue .compute), some (.queueHeadIssue .store),
    some .bundleIssue, some .resultLanding, some (.commandComplete .load), some (.commandComplete .compute),
    some (.commandComplete .store), some (.heldPushRelease .load), some (.heldPushRelease .compute), some (.heldPushRelease .store),
    some .mteRetire, some .tileReplay, (if (sendNext s false).isSome then some .tileLanding else none),
    some (.creditReturn (BitVec.ofNat 3 (k / 64))), some .chsendPairTimeout, some .atomicHomeEvent,
    (if flushDue s then some .quantumFlush else none), some .speculativeConfirm, some .phaseMerge,
    (if (s.replayDue).isSome then some .loggedHostWrite else some .stepBarrierComplete), some .barrierRelease, some .nestLaunchDispatch,
    some .taskDispatch, some .forcedPreemption, some .recordAging, some (.hostRingRecordRead p), some .loggedLaunchRecord,
    some (.collMatch ch []), some (.collComplete ch), (nextSector s).map .flashSectorArrival, some .rstkRefill,
    (((List.range 64).find? fun q => (s.tmode q).getLsbD 0 != (s.tmode q).getLsbD 1 && quadIdle s q).map fun q => .quadClockSwitch (BitVec.ofNat 6 q)),
    (s.cores.find? fun c => c.health.haltReq && !c.copying).map fun c => .coreHalted c.phys,
    (s.ports.find? fun q => !q.2.busy.isEmpty).bind fun q => (q.2.busy.head?).map fun b => .portReply q.1 b.1,
    (if s.host.busy then some .attestationReportWritten else none),
    (if s.core.rfUntil ≠ 0 && s.core.rfUntil ≤ s.now then some .rfhintIntervalEnd else none),
    (s.plat.thermal.find? s.cooled).map fun q => .thermalLimitCleared (BitVec.ofNat 6 q) ]

/-- Whether this turn is the checker's: while something waits for it, every fifth one. DESIGN CHOICE (log 7). -/
def State.checkerTurn (s : State) : Bool := (s.core.hold = some false || s.core.uncompared) && s.turn / 2 % 5 = 0

/-- The event of this turn. -/
def State.turnEvent (s : State) : Option Instr :=
  let l := roundOf s
  if s.checkerTurn then some (.checkerCompare true) else (l[s.turn / 2 % (l.length + 1)]?).join

/-- Whether this turn moves the focus to the next core. -/
def State.turnFocus (s : State) : Bool := !s.checkerTurn && s.turn / 2 % ((roundOf s).length + 1) = (roundOf s).length

end Sys2Proof.Machine
end

