-- ==== Sys2Proof/Machine/Issue.lean ====
section
/-! DEFINITION. The control core's step (R15, R37, R371, R384) and what stands around an instruction when it issues. -/

namespace Sys2Proof.Machine

/-- The control-core fault that an instruction would raise if it issued now, outside a handler; TRAP and BRK are no faults of an instruction. DEDUCED (log 12). -/
def trial (i : Instr) (s : State) : Option FaultInfo :=
  match exec i (s.modX s.cid fun x => { x with tvec := 8 }) with
  | .next s' =>
    let y := s'.core.t.sys
    let c := y.tcause.extractLsb' 0 8
    if !s.core.t.sys.inTrap && y.inTrap && y.tcause.extractLsb' 8 4 == 0 && c != cTRAPI && c != cBRK then
      some ⟨c, 0, y.tupc, y.ttl, if y.tcause.getLsbD 15 then some y.tva else none, y.tcause.extractLsb' 12 3, y.tcause.extractLsb' 32 32⟩
    else none
  | _ => none

/-- The engine fault that is delivered before the next instruction (R371); none while the engines are stopped. -/
def State.dueFault (s : State) : Option FaultInfo := if s.core.stopped then none else s.core.nextFault

/-- The instructions whose effects stay inside the control core until they are committed (R108, R110): engine commands, which wait at their queue
heads, and those that change registers only. Every other instruction is an action that is withheld until it has compared equal, transfers too; so
are captures while record or replay is on. DESIGN CHOICE (log 63). -/
def runsAhead (i : Instr) (s : State) : Bool :=
  (queueOf i).isSome ||
  match i with
  | .revb .. => s.core.t.walk.active
  | .add .. | .sub .. | .mul .. | .and .. | .or .. | .xor .. | .andn .. | .ceq .. | .clt .. | .cltu .. | .addi .. | .mulh .. | .div .. | .rem ..
  | .min .. | .max .. | .shl .. | .shr .. | .sar .. | .rot .. | .clz .. | .popc .. | .sel .. | .lea .. | .bfx .. | .bfi .. | .movi ..
  | .nop | .hint .. => true
  | .ld .. | .ldDsc .. | .spl .. | .tread .. | .mfsr .. | .rdcyc .. | .mchkq false .. | .twait false .. | .tierq .. | .cstat .. | .cstatTl .. =>
    s.cx.rrctl.extractLsb' 0 2 == 0
  | _ => false

/-- The state before an instruction that may route commands, noted until their comparison (R110). -/
def State.checkpoint (s : State) (i : Instr) : State :=
  let t := s.core.t
  if !((queueOf i).isSome || runsAhead i s && t.walk.active) then s
  else
    let k : Ckpt :=
      { pc := t.pc, entry := s.core.entry, s := t.regs.s, spois := t.regs.spois, d := t.regs.d, dpois := t.regs.dpois, blk := t.blk, walk := t.walk,
        tls := t.tls, collN := t.collN, n := 0 }
    s.modC fun c => { c with ckpt := c.ckpt ++ [k] }

/-- One more instruction issued from the last of the checkpoints on. -/
def countLast : List Ckpt → List Ckpt
  | [] => []
  | [k] => [{ k with n := k.n + 1 }]
  | k :: l => k :: countLast l

/-- An instruction that has been issued is committed at once, or with the commands before it that wait for the checker (R110). -/
def State.countIssue (s : State) : State :=
  if s.core.ckpt.isEmpty then s.modH fun h => { h with sinceRec := h.sinceRec.map (· + 1) }
  else s.modC fun c => { c with ckpt := countLast c.ckpt }

/-- The checkpoints after an instruction: that of one that has routed no command is dropped, and all where nothing waits for the checker (R110). -/
def Core.dropCkpt (c : Core) : Core :=
  let issued (t : Timelines) : List Word := [t.l.i, t.c.i, t.s.i]
  if !c.uncompared then { c with ckpt := [] }
  else if (c.ckpt.getLast?.map fun k => issued k.tls) = some (issued c.t.tls) then { c with ckpt := c.ckpt.dropLast }
  else c

/-- After an instruction has been issued: one more instruction since the last recovery (R110), the committed state forgotten where nothing waits
for the checker, and the halt after a single step (R384). DEDUCED (log 13). -/
def State.issued (s s' : State) : State :=
  let took := !s.core.t.sys.inTrap && s'.core.t.sys.inTrap && s'.core.t.sys.tcause.extractLsb' 0 8 != cTRAPI
  let s1 := s'.modC Core.dropCkpt
  let s1 := if s'.core.waiting || took then s1 else s1.countIssue
  if s1.core.health.stepping && !s1.core.waiting then (s1.modH fun h => { h with stepping := false }).askHalt false false else s1

/-- Issues a decoded instruction (R37, R12, R371): a lower code of its own comes before the BLKOP of its place, which leaves it without effect; its own
control-core fault comes before an engine's. DEDUCED (log 10). -/
def issueInstr (i : Instr) (ok : Bool) (s : State) : Out :=
  let pc := s.core.t.pc
  if !ok then
    match trial i s, exec i s with
    | some f, .next s' =>
      if f.code.toNat < cBLKOP.toNat then .next (takeTrap f pc (keepFills s s')) else .next (takeTrap (.cc cBLKOP) pc s)
    | _, _ => .next (takeTrap (.cc cBLKOP) pc s)
  else match s.dueFault with
    | none => exec i s
    | some f => if (trial i s).isSome then exec i s else .next (takeTrap f pc (s.clearFault f))

/-- An action waits in the control core until the checker's copy has compared equal (R108): what has compared goes on, and what waits keeps its
leave. -/
def withhold (act : Bool) (s : State) (k : State → Out) : Out :=
  if s.core.hold = some true then
    match k s with
    | .next t => .next (t.modC fun c => { c with hold := if c.waiting then some true else none })
    | o => o
  else if act then .next (s.modC fun c => { c with hold := some false })
  else k s

/-- An outcome's next state, updated. -/
def Out.map (f : State → State) : Out → Out
  | .next s => .next (f s)
  | .fault r => .fault r
  | .refused r => .refused r

/-- The control core of the core in focus takes its turn: it fetches and issues the instruction at the PC; a core without a task, or halted or about to halt,
passes the focus on where nothing is still under way there. -/
def controlStep (s : State) : Out :=
  if !s.core.running || s.core.health.halted || s.core.health.haltReq then
    .next (if s.core.draining || s.core.copying then s else s.focus s.nextCore)
  else match fetchInstr s with
    | (s1, .error (.fault f)) => withhold true s1 fun s1 => .next (s.issued (takeTrap f s.core.t.pc s1))
    | (s1, .error _) => .next (s1.modC fun c => { c with waiting := true })
    | (s1, .ok (i, ok)) =>
      withhold (!runsAhead i s1 || !ok || s1.dueFault.isSome || (trial i s1).isSome) s1 fun s1 =>
        (issueInstr i ok (s1.checkpoint i)).map (s1.issued ·)

/-- What the package does on its own in its turn. -/
def backgroundStep (s : State) : Out :=
  match s.turnEvent with
  | some i => exec i s
  | none => .next (if s.turnFocus then s.focus s.nextCore else s)

/-- The next move of the agenda: only events of the device are let happen there. DESIGN CHOICE (log 8). -/
def agendaStep (m : Move) (s : State) : Out :=
  match m with
  | .control => controlStep s.tick
  | .focus c => .next (s.focus c)
  | .event i => if i.isEvent then exec i s else .next s

end Sys2Proof.Machine
end

