-- ==== Sys2Proof/Machine/Step.lean ====
section
/-! DEFINITION. One step of the package: the next move of the agenda, else the control core of the core in focus and the package's own events in turn. -/

namespace Sys2Proof.Machine

/-- One step. A package without power does nothing (R399) but boot (R398). DESIGN CHOICE (log 7). -/
def step (s : State) : Host.Outcome State Fault Refusal :=
  match s.agenda with
  | .event (.powerOnBoot img) :: l => exec (.powerOnBoot img) { s with agenda := l }
  | m :: l => if s.powered then agendaStep m { s with agenda := l } else .fault .poweredOff
  | [] =>
    if !s.powered then .fault .poweredOff
    else if s.turn % 2 = 0 then controlStep s.tick
    else backgroundStep s.tick

/-- The state with an instruction, numbered as the opcode table numbers its bits, at the PC of the core in focus: a task holds the core, its PC is
0x1008, the page 0x1000 is in the L1 TLB and its line in the L1 instruction cache, and the checker has agreed to what stands there. It stands for the load of a program from outside. DEDUCED (log 1). -/
def State.withFetchWord (s : State) (nbits w : Nat) : State :=
  let page : TlbE := { codePage with ctx := s.core.t.id.ctx }
  let c := s.core
  { s with
    powered := true, agenda := [], turn := 0,
    core := { c with
      running := true, entry := true, epend := [], hold := some true, ckpt := [],
      t := { c.t with pc := 0x1008, blk := none },
      health := { c.health with halted := false, haltReq := false },
      l1tlb := page :: c.l1tlb.filter (fun e => !e.covers s.core.t.id.ctx 0x1008),
      icache := Sparse.ins c.icache 32 (codeLine (tableGranules nbits w)) } }

end Sys2Proof.Machine
end

