-- ==== Sys2Proof/Safety.lean ====
section
/-! DEFINITION. The terms in which claims about the machine are stated: what an instruction leaves unchanged, when its operands can be read, and what
holds of every state a run can reach. -/

namespace Sys2Proof.Machine

/-- No token bits (R19). -/
def noTok : Tok := ⟨false, false, false, false⟩

/-! ### Operands that can be read -/

/-- No block is open on the core in focus. -/
def State.noBlock (s : State) : Prop := s.core.t.blk = none

/-- None of the scalar registers holds an uncorrectable error (R94, R378). -/
def State.cleanS (s : State) (l : List Reg) : Prop := ∀ r ∈ l, s.core.t.regs.poisS r = false

/-- None of the descriptor registers holds one (R378). -/
def State.cleanD (s : State) (l : List DCode) : Prop := ∀ d ∈ l, s.core.t.regs.dpois.getLsbD d.toNat = false

/-! ### Frames -/

/-- What stands in t as in s when only the scalar registers, their poison, the PC, the marks of the issue stage and the ordinal of an open block may
differ: every other register, every flag, every system, exception and accumulator register, every buffer, all of memory, every other core. -/
def restEq (s t : State) : Prop :=
  t = { s with core := { s.core with
          waiting := t.core.waiting, entry := t.core.entry,
          t := { s.core.t with pc := t.core.t.pc, blk := s.core.t.blk.map Block.next,
                               regs := { s.core.t.regs with s := t.core.t.regs.s, spois := t.core.t.regs.spois } } } }

/-- As `restEq`, and the translation structures, the instruction cache and what the base dies record of accesses may hold more (R143, R29, R155, R177). -/
def restEqFills (s t : State) : Prop :=
  t = { s with
        core := { s.core with
          waiting := t.core.waiting, entry := t.core.entry, l1tlb := t.core.l1tlb, icache := t.core.icache,
          t := { s.core.t with pc := t.core.t.pc, blk := s.core.t.blk.map Block.next,
                               regs := { s.core.t.regs with s := t.core.t.regs.s, spois := t.core.t.regs.spois } } },
        mem := { s.mem with l2tlb := t.mem.l2tlb, wcache := t.mem.wcache, attlog := t.mem.attlog, sealed := t.mem.sealed } }

/-- Every byte of memory reads as before: at its home and through the view of the core in focus. -/
def sameBytes (s t : State) : Prop := ∀ a, t.homeByte a = s.homeByte a ∧ t.viewByte a = s.viewByte a

/-- The frame of an instruction that writes the scalar registers w and nothing else. -/
structure Frame (s t : State) (w : List Reg) : Prop where
  regs : ∀ r, r ∉ w → t.S r = s.S r ∧ t.core.t.regs.poisS r = s.core.t.regs.poisS r
  bytes : sameBytes s t
  rest : restEq s t

/-- The frame of an instruction that also translates or fetches. -/
structure FrameFills (s t : State) (w : List Reg) : Prop where
  regs : ∀ r, r ∉ w → t.S r = s.S r ∧ t.core.t.regs.poisS r = s.core.t.regs.poisS r
  bytes : sameBytes s t
  rest : restEqFills s t

/-- t is s after an instruction of n granules whose only result is v in register rd: a write to s0 is discarded. -/
structure Wrote (s t : State) (rd : Reg) (v : Word) (n : Nat) : Prop where
  value : t.S rd = if rd = 0 then 0 else v
  clean : t.core.t.regs.poisS rd = false
  pc : t.core.t.pc = nextPc s.core.t.pc n
  frame : Frame s t [rd]

/-- The translation structures, the base dies' records of accesses (R155, R177) and the instruction cache are all in which t differs from s. -/
def onlyFills (s t : State) : Prop :=
  t = { s with core := { s.core with l1tlb := t.core.l1tlb, icache := t.core.icache },
               mem := { s.mem with l2tlb := t.mem.l2tlb, wcache := t.mem.wcache, attlog := t.mem.attlog, sealed := t.mem.sealed } }

/-! ### Results -/

/-- The instruction completes: its only result is v in register rd, and the PC moves one granule on. -/
def writesReg (i : Instr) (s : State) (rd : Reg) (v : Word) : Prop := ∃ t, exec i s = .next t ∧ Wrote s t rd v 1

/-- t is s with the PC at an address and, of the registers, only those listed written. -/
structure MovesTo (s t : State) (pc : Word) (w : List Reg) : Prop where
  pc : t.core.t.pc = pc
  frame : FrameFills s t w

/-- A transfer's target in a state (R28, R33, R103): its line can be fetched and passes its checks, is not of kind 10, of kind 01 only for a BLKB in
granule 1, and the target granule is not 0 and has its TGT bit set; `s1` holds what fetching leaves. -/
def targetGood (t : Word) (s s1 : State) : Prop :=
  ∃ b, fetchLine t s = .ok (b, s1) ∧ lineBad b = false ∧ hdrKind (lineGran b 0) ≠ 2 ∧
    (hdrKind (lineGran b 0) = 1 → granuleOf t = 1 ∧ isBlkb (lineGran b 1) = true) ∧
    granuleOf t ≠ 0 ∧ tgtAt (lineGran b 0) (granuleOf t) = true

/-- A target that the transfer refuses (R28, R33): its line can be fetched and passes its checks, and it is of kind 10, or, where the kind allows the
transfer (kind 01 at a BLKB in granule 1 alone), the granule is 0 or its TGT bit is clear. -/
def targetRefused (t : Word) (s : State) : Prop :=
  ∃ b s1, fetchLine t s = .ok (b, s1) ∧ lineBad b = false ∧
    (hdrKind (lineGran b 0) = 2 ∨
      hdrKind (lineGran b 0) = 0 ∧ (granuleOf t = 0 ∨ tgtAt (lineGran b 0) (granuleOf t) = false) ∨
      hdrKind (lineGran b 0) = 1 ∧ granuleOf t = 1 ∧ isBlkb (lineGran b 1) = true ∧ tgtAt (lineGran b 0) 1 = false)

/-- A trap that the control core of u takes at its PC instead of an instruction, v being u with what fetching leaves: it is an action, and as such
withheld until the checker has compared it equal (R108). -/
def faultTurn (u v : State) (f : FaultInfo) : State :=
  if v.core.hold = some true then
    (u.issued (takeTrap f u.core.t.pc v)).modC fun c => { c with hold := if c.waiting then some true else none }
  else v.modC fun c => { c with hold := some false }

/-- A conditional transfer: not taken, the PC moves on; taken to a good target, the PC is the target. -/
def branches (i : Instr) (s : State) (taken : Bool) (target : Word) : Prop :=
  (taken = false → ∃ t, exec i s = .next t ∧ t.core.t.pc = nextPc s.core.t.pc 1 ∧ Frame s t []) ∧
  (taken = true → ∀ s1, targetGood target s s1 → ∃ t, exec i s = .next t ∧ MovesTo s t target [])

/-- The class 0 and class 1 instructions but NOP, with SPL and SPS: what a block forbids by R104. -/
def scalarOrSpill : Instr → Bool
  | .add .. | .sub .. | .addi .. | .mul .. | .mulh .. | .div .. | .rem .. | .and .. | .or .. | .xor .. | .andn .. | .shl .. | .shr ..
  | .sar .. | .rot .. | .clz .. | .popc .. | .min .. | .max .. | .sel .. | .ceq .. | .clt .. | .cltu .. | .lea .. | .bfx .. | .bfi ..
  | .movi .. | .brEq .. | .brNe .. | .brLt .. | .brGe .. | .brLtu .. | .brGeu .. | .jmp .. | .jmpr .. | .call .. | .ret .. | .loop ..
  | .hint .. | .spl .. | .sps .. => true
  | _ => false

/-- Those of them with a fault of their own whose code is lower than BLKOP's: the transfers, SPL and SPS. -/
def transferOrSpill : Instr → Bool
  | .brEq .. | .brNe .. | .brLt .. | .brGe .. | .brLtu .. | .brGeu .. | .jmp .. | .jmpr .. | .call .. | .ret .. | .loop .. | .spl .. | .sps .. => true
  | _ => false

/-- The scalar registers a class 0 or class 1 instruction reads (R95, R99 to R101). -/
def scalarSources : Instr → List Reg
  | .add _ a b | .sub _ a b | .mul _ a b | .mulh _ _ a b | .div _ _ a b | .rem _ _ a b | .and _ a b | .or _ a b | .xor _ a b | .andn _ a b
  | .min _ _ a b | .max _ _ a b | .ceq _ a b | .clt _ a b | .cltu _ a b | .lea _ a b _ _ | .bfi _ a b _ _ => [a, b]
  | .addi _ a _ | .clz _ a | .popc _ a | .bfx _ _ a _ _ => [a]
  | .shl _ a (.reg b) | .shr _ a (.reg b) | .sar _ a (.reg b) | .rot _ a (.reg b) => [a, b]
  | .shl _ a (.imm _) | .shr _ a (.imm _) | .sar _ a (.imm _) | .rot _ a (.imm _) => [a]
  | .sel _ a b c => [a, b, c]
  | .brEq a b _ | .brNe a b _ | .brLt a b _ | .brGe a b _ | .brLtu a b _ | .brGeu a b _ => [a, b]
  | .jmpr _ a | .ret a | .loop a _ => [a]
  | _ => []

/-! ### Memory accesses (R117) -/

/-- What R117 asks of an access before it reads or writes: a clean base and a clean policy without reserved bits, an aligned address, a translation
that answers x, for a device page a size it admits, and no interval of RFHINT that holds the request (R154); `s1` holds what translating leaves. -/
structure Access (s s1 : State) (ra rb : Reg) (off : BitVec 20) (n : Nat) (a : Acc) (va : Word) (x : Xl) : Prop where
  clean : s.cleanS [ra, rb]
  addr : va = s.S ra + off.signExtend 64
  aligned : va.toNat % n = 0
  xl : translate s s.cid va a (!s.core.t.prv) = (s1, .ok x)
  device : x.cls = 2 → 4 ≤ n ∧ n ≠ 32
  noHold : s.rfHeld x.pa = false
  policy : (s.S rb).extractLsb' 26 6 = 0

/-- Whether the view holds a line or has room for it (R123). -/
def roomFor (s : State) (line : Nat) : Prop :=
  line ∈ s.core.t.view.lines ∨ shadowOk s (setIns s.core.t.view.lines line).length = true

/-- Whether a line is pinned or can be (R118, R122, R123). -/
def canPin (s : State) (line : Nat) : Prop :=
  (Sparse.find s.core.t.view.pin line).isSome = true ∨ (s.homeFail (128 * line) 128 = false ∧ roomFor s line)

/-- As `restEqFills`, and the set of pinned lines may differ, with the marks of words poisoned in lines the view no longer holds (R378). -/
def restEqPins (s t : State) : Prop :=
  t = { s with
        core := { s.core with
          waiting := t.core.waiting, entry := t.core.entry, l1tlb := t.core.l1tlb, icache := t.core.icache,
          t := { s.core.t with pc := t.core.t.pc, blk := s.core.t.blk.map Block.next,
                               regs := { s.core.t.regs with s := t.core.t.regs.s, spois := t.core.t.regs.spois },
                               view := { s.core.t.view with pin := t.core.t.view.pin, bad := t.core.t.view.bad } } },
        mem := { s.mem with l2tlb := t.mem.l2tlb, wcache := t.mem.wcache, attlog := t.mem.attlog, sealed := t.mem.sealed } }

/-- The frame of an instruction that reads phase-ordered memory. -/
structure FramePins (s t : State) (w : List Reg) : Prop where
  regs : ∀ r, r ∉ w → t.S r = s.S r ∧ t.core.t.regs.poisS r = s.core.t.regs.poisS r
  bytes : sameBytes s t
  rest : restEqPins s t

/-- The frame of a store at the homes: only bytes, poison, what the compressed frames hold and the quotas charged for it, and the translation
structures may differ; no register of the core but the PC. -/
def restEqStore (s t : State) : Prop :=
  t = { s with
        core := { s.core with
          waiting := t.core.waiting, entry := t.core.entry, l1tlb := t.core.l1tlb, icache := t.core.icache,
          t := { s.core.t with pc := t.core.t.pc, blk := s.core.t.blk.map Block.next } },
        ctxs := t.ctxs,
        mem := { s.mem with bytes := t.mem.bytes, pois := t.mem.pois, comp := t.mem.comp, pool := t.mem.pool, resv := t.mem.resv,
                            l2tlb := t.mem.l2tlb, wcache := t.mem.wcache, attlog := t.mem.attlog, sealed := t.mem.sealed } }

/-- The frame of a store into the view: only the view's dirty bytes and the marks of its words differ, and the translation structures. -/
def restEqView (s t : State) : Prop :=
  t = { s with
        core := { s.core with
          waiting := t.core.waiting, entry := t.core.entry, l1tlb := t.core.l1tlb, icache := t.core.icache,
          t := { s.core.t with pc := t.core.t.pc, blk := s.core.t.blk.map Block.next,
                               view := { s.core.t.view with dirty := t.core.t.view.dirty, whole := t.core.t.view.whole, bad := t.core.t.view.bad } } },
        mem := { s.mem with l2tlb := t.mem.l2tlb, wcache := t.mem.wcache, attlog := t.mem.attlog, sealed := t.mem.sealed } }

/-- The frame of an instruction that changes the task's own control state only: the parts that `f` overwrites, the PC and the issue stage. -/
def restEqTask (s t : State) (f : Task → Task → Task) : Prop :=
  t = { s with core := { s.core with waiting := t.core.waiting, entry := t.core.entry,
                                     t := { f s.core.t t.core.t with pc := t.core.t.pc, blk := s.core.t.blk.map Block.next } } }

/-! ### System registers (R147, R148) -/

/-- Neither record nor replay mode: captured values are the machine's own (R385, R386). -/
def State.noLog (s : State) : Prop := s.cx.rrctl.extractLsb' 0 2 ≠ 1 ∧ s.cx.rrctl.extractLsb' 0 2 ≠ 2

/-- System registers that MTSR writes whole, with the mask of their writable bits; EXPMODE0 to 3 stand apart, since R393 lets them switch only on
a condition. -/
def writableRegs : List (Nat × Word) :=
  [(0x001, 0x1F1F1F), (0x010, 0x000FFFFFFFFFF000), (0x011, 0xFFFFF), (0x012, 0x01FFFFFFFFFFE000), (0x018, BitVec.allOnes 64),
   (0x019, BitVec.allOnes 64), (0x01A, BitVec.allOnes 64), (0x01B, BitVec.allOnes 64), (0x01C, BitVec.allOnes 64), (0x01D, BitVec.allOnes 64),
   (0x01E, BitVec.allOnes 64), (0x020, 0xFFFF), (0x022, 0x01FFFFFFFFFFF000), (0x100, 0x01FFFFFFFFFFFFF8), (0x101, BitVec.allOnes 64),
   (0x102, 0xFFFFFFFF0000FFFF), (0x103, BitVec.allOnes 64), (0x104, BitVec.allOnes 64), (0x105, BitVec.allOnes 64), (0x108, BitVec.allOnes 64),
   (0x109, BitVec.allOnes 64), (0x10A, BitVec.allOnes 64), (0x10B, BitVec.allOnes 64), (0x10C, 1), (0x110, 2), (0x119, 0x01FFFFFFFFFFF03F),
   (0x11A, 0xFFFFFFFF00000003), (0x201, 0x01FFFFFFFFFFF00F), (0x203, 0xFFFFFFFF), (0x324, 0x000FFFFFFFFFFFFF), (0x325, 0x000FFFFFFFFFFFFF), (0x326, 0x000FFFFFFFFFFFFF), (0x327, 0x000FFFFFFFFFFFFF)]

/-- The instructions that only the control core executes and that a block forbids, beside those of `scalarOrSpill` (R120, R146, R291). -/
def controlOnly : Instr → Bool
  | .ld .. | .st .. | .ldDsc .. | .stDsc .. | .pref .. | .cln .. | .inv .. | .invI .. | .commit | .acq | .phase .. | .fence .. | .twait ..
  | .tread .. | .mfsr .. | .mtsr .. | .tlbiVa .. | .tlbiCtx | .tlbiCid .. | .tlbiAll | .tlbfence .. | .probe .. | .rfhint .. | .rdcyc ..
  | .keysel .. | .keyselClr .. | .mode .. | .tierq .. | .aflg .. | .launch .. | .launchRec .. | .join .. | .tend | .yield | .stepb .. | .bari ..
  | .bariLv .. | .bara .. | .barw .. | .baraw .. | .barx .. | .prio .. | .chcfgUp .. | .chcfgDn .. | .cdig .. | .cdigClr | .cstat ..
  | .cstatTl .. | .trap .. | .eret | .eretKill | .ctxsv .. | .ctxrs .. | .fltrec .. | .brk .. | .halt .. | .crst .. | .mchkq .. => true
  | _ => false

/-- The privileged instructions (R146, R367, R380). -/
def privilegedOnly : Instr → Bool
  | .tlbiCid .. | .tlbiAll | .keysel .. | .keyselClr .. | .mode .. | .eret | .eretKill | .ctxsv .. | .ctxrs .. | .halt .. | .crst ..
  | .mchkq true .. => true
  | _ => false

/-! ### Sizes (R46 to R50) -/

/-- The granules that the opcode map gives an opcode by its class and OP. -/
def mapGranules (cl op : Nat) : Nat :=
  match cl with
  | 0 => if op = 0x1A then 2 else 1
  | 4 => if op ≤ 3 then 2 else 1
  | 5 => if op = 1 then 4 else if op ≤ 6 then 2 else 1
  | 6 => if op ≤ 2 then 2 else 1
  | 7 => 2
  | 8 => 4
  | 9 => if op ∈ [0, 3, 4, 5] then 2 else 1
  | 10 => if op = 2 then 2 else 1
  | 13 => if op = 0 then 2 else 1
  | _ => 1

/-! ### Routing (R75, R130) -/

/-- The descriptor register that RETAG.dsc rewrites, with its new tag (R86). -/
def retagged : Instr → Option (DCode × FTag)
  | .retagDsc _ d tag => some (d, tag)
  | _ => none

/-- The channel of a COLL. -/
def collOf : Instr → Option (BitVec 4)
  | .coll _ k _ => some k
  | _ => none

/-- The descriptor registers that routing reads. -/
def routeDescs (i : Instr) : List DCode := descsOf i ++ (match retagged i with | some (d, _) => [d] | none => [])

/-- Whether the open block, or its absence, lets an instruction be routed (R291, R303). -/
def State.admits (s : State) (i : Instr) : Bool :=
  match s.core.t.blk with
  | none => !isRpush i
  | some b => blockAdmits b i

/-- The policy register of an instruction can be read and sets a reserved bit (R114). -/
def badPolicy (s : State) (i : Instr) : Prop :=
  ∃ p, policyOf i = some p ∧ s.core.t.regs.poisS p = false ∧ (s.S p).extractLsb' 26 6 ≠ 0

/-- The command that an instruction becomes when it is routed: its number and TL.X's or the channel's, the registers it captures as they stand, not
yet compared or issued. -/
def newCmd (s : State) (i : Instr) (q : QName) : Cmd :=
  { instr := i, kind := .fwd, tok := tokOf i, num := (s.core.t.tls.get q).i + 1,
    num2 := if takesX i .fwd s.blkRef then s.core.t.tls.x.i + 1 else match collOf i with
      | some k => s.core.t.tls.coll[k.toNat].i + 1
      | none => 0,
    descs := (descsOf i).map s.D,
    vals := (regsOf i).map s.S ++ (if (collOf i).isSome then s.core.t.closure.flatMap fun p => [p.1, p.2] else []), sysr := s.capSys i, blk := s.blkRef,
    upc := 0, compared := false, issued := false, done := false, pushed := false, status := 1, fault := none, res := [], resPois := [], resFail := [],
    got := [], ph := 0 }

/-- t is s after instruction i has been routed to queue q: the command stands last in its queue, the number is taken, the PC moves on; no scalar,
vector, mask or system register, no flag, no buffer and no memory changes, and of the descriptors only the one that RETAG.dsc names, in its tag. -/
structure Routed (s t : State) (i : Instr) (q : QName) : Prop where
  queue : t.core.t.q.get q = s.core.t.q.get q ++ [newCmd s i q]
  queues : ∀ p, p ≠ q → t.core.t.q.get p = s.core.t.q.get p
  number : ∀ p, t.core.t.tls.get p = ⟨(s.core.t.tls.get p).i + (if p = q then 1 else 0), (s.core.t.tls.get p).v⟩
  numberX : t.core.t.tls.x = ⟨s.core.t.tls.x.i + (if takesX i .fwd s.blkRef then 1 else 0), s.core.t.tls.x.v⟩
  channel : ∀ k : BitVec 4, t.core.t.tls.coll[k.toNat] =
    ⟨s.core.t.tls.coll[k.toNat].i + (if collOf i = some k then 1 else 0), s.core.t.tls.coll[k.toNat].v⟩
  pc : t.core.t.pc = nextPc s.core.t.pc (granulesOf i)
  block : t.core.t.blk = s.core.t.blk.map fun b =>
    { b with ord := b.ord + 1, seen := match seenBit i with | some (n, _) => b.seen ||| (1#16 <<< n) | none => b.seen }
  descs : ∀ d, (∀ e tag, retagged i = some (e, tag) → d ≠ e) → t.D d = s.D d
  tag : ∀ d tag, retagged i = some (d, tag) → dTag (t.D d) = tag ∧ ∀ n, (n < 16 ∨ 32 ≤ n) → (t.D d).getLsbD n = (s.D d).getLsbD n
  bytes : sameBytes s t
  rest : t = { s with core := { s.core with
          waiting := t.core.waiting, entry := t.core.entry,
          t := { s.core.t with pc := t.core.t.pc, blk := t.core.t.blk, q := t.core.t.q, tls := t.core.t.tls,
                               regs := { s.core.t.regs with d := t.core.t.regs.d, dpois := t.core.t.regs.dpois } } } }

/-! ### Queue heads (R16, R20) -/

/-- Command k stands at the head of queue q, a forward command outside any block, and everything lets it issue: the checker agrees, earlier commands
have issued, there is room, its pops are satisfied, and no tile is open. -/
structure HeadReady (s : State) (q : QName) (k : Cmd) : Prop where
  runs : enginesRun s = true
  head : headOf s.core.t q = some k
  alone : ∀ c ∈ s.core.t.q.get q, c.num = k.num → c = k
  fwd : k.kind = .fwd ∧ k.blk = none
  fresh : k.issued = false ∧ k.fault = none ∧ k.ph = 0 ∧ k.upc = 0
  agreed : k.compared = true
  turn : ∀ c ∈ before (s.core.t.q.get q) k, c.issued = true
  room : engineFull (s.core.t.q.get q) = false
  tokens : s.core.t.toks.canPop q k.tok = true
  noTile : s.core.t.tile.opened = false ∧ s.core.t.tile.want = false
  vector : awaitsVector s.core.t k = false
  settled : s.core.t.trest = []

/-- The command as it has issued and performed. -/
def doneCmd (c : Cmd) : Cmd := { c with issued := true, upc := 0, got := [], done := true, status := 0 }

/-- The command as it has issued and stands at a fault of its first micro-PC (R77, R371). -/
def stoppedCmd (q : QName) (code : BitVec 8) (c : Cmd) : Cmd :=
  { c with issued := true, upc := 0, got := [], fault := some ⟨code, cmdUnit q c.instr, 0, c.num, none, 0, 0⟩ }

/-- t is s after a command has run: in everything but the queues, and FPEN and the limits of the quotas, which stand as in s0, before the command
ran (R147). -/
def ranUnder (s0 s t : State) : Prop := t = (s.backFrom s0).modT fun x => { x with q := t.core.t.q }

/-- s after the command of a number has issued: its pops, its effect f on the task, and what becomes of it. -/
def headEnd (s : State) (q : QName) (k : Cmd) (f : Task → Task) (g : Cmd → Cmd) : State :=
  s.modT fun t => { f t with toks := t.toks.pop q k.tok, q := t.q.set q ((t.q.get q).map fun c => if c.num = k.num then g c else c) }

/-! ### Vector programs (R205, R206, R211, R214, R216) -/

/-- Bundle b is the next one of the running program k and may issue: it has been fetched, `s1` holding what that leaves, it is well formed, and no
result is due. -/
structure BundleReady (s s1 : State) (k : Cmd) (b : BitVec 256) : Prop where
  runs : enginesRun s = true
  cmd : s.running = some k
  alone : ∀ c ∈ s.core.t.q.compute, c.num = k.num → c = k
  live : k.ph = 1 ∧ k.upc < 65536 ∧ s.vec.fpx = false
  due : ∀ p ∈ s.vec.pend, p.left ≠ 0
  fetched : fetchBundle (k.entryVa + BitVec.ofNat 64 (32 * k.upc)) s = .ok (b, s1)
  form : bundleIllop b = false

/-- Whether the stage of a bundle performs its slots (R214). -/
abbrev stageOn (s : State) (b : BitVec 256) : Prop := bStg b = 0 ∨ s.vec.sp.getLsbD (bStg b - 1) = true

/-- Slot n, of M, A, B and C, is the only one present. -/
abbrev onlySlot (b : BitVec 256) (n : Nat) : Prop := ∀ i, i < 4 → (bPres b i = true ↔ i = n)

/-- t is s after bundle b of program k has issued, u being s with what its slots write at once: the results q are pending, every one is one bundle
nearer, the bundle counts, and without LAST, or where VLOOP loops, the program stands at bundle n. -/
structure Issued (s u t : State) (k : Cmd) (b : BitVec 256) (q : List PendW) (n : Nat) (loops : Bool) : Prop where
  vec : t.vec = { u.vec with bc := s.vec.bc + 1, bidx := t.vec.bidx, pend := (s.vec.pend ++ q).map fun p => { p with left := p.left - 1 } }
  regs : t.core.t.regs = u.core.t.regs
  buf : t.core.buf = u.core.buf
  spill : t.core.t.spill = u.core.t.spill
  pc : t.core.t.pc = s.core.t.pc
  next : (bLast b = false ∨ loops = true) → ∀ c ∈ t.core.t.q.compute, c.num = k.num → c.upc = n ∧ c.done = false

/-- A pending write of a vector register in elements of some bits: the active ones get a value and their flags, the kept ones stay, the others become zero
(R206). -/
structure Lands (p : PendW) (reg : BitVec 6) (tag : FTag) (left bits : Nat) (act kept : Nat → Prop) (val : Nat → Nat) (fl : Nat → FFlags) : Prop where
  place : p.isMask = false ∧ p.reg = reg ∧ p.tag = some tag ∧ p.left = left ∧ p.pois = 0 ∧ p.tfail = 0
  hit : ∀ e, e < 4096 / bits → act e → vElem p.data bits e = val e % 2 ^ bits
  miss : ∀ e, e < 4096 / bits → ¬ act e → vElem p.data bits e = 0
  keep : ∀ e, e < 4096 / bits → (kept e → vElem p.keep bits e = 2 ^ bits - 1) ∧ (¬ kept e → vElem p.keep bits e = 0)
  flags : ∀ i, i < 5 → (p.flags.getLsbD i = true ↔ ∃ e, e < 4096 / bits ∧ act e ∧ (fl e).getLsbD i = true)

/-! ### What engine commands compute -/

/-- The value of an element of a tile and the flags of its read, a weight with its scale (R58, R61). -/
def Buffers.val (b : Buffers) (d : Desc) (r c : Nat) : Num × FFlags :=
  if isWeight (dFmt d) then weightVal (dFmt d) (b.elem d r c) (leNat (b.read (dSpace d) (dScaleAt d (r / 32) c) 2)) else (elemVal (dFmt d) (b.elem d r c), 0)

/-- Buffers after each element of a tile in turn, row by row, has been written a pattern formed from the buffers as they then stand (R77). -/
def Buffers.eachElem (b : Buffers) (d : Desc) (f : Nat → Nat → Buffers → Nat) : Buffers :=
  (List.range (dRows d * dCols d)).foldl (fun b i => b.putElem d (i / dCols d) (i % dCols d) (f (i / dCols d) (i % dCols d) b)) b

/-- Buffers after each block of n elements of a tile in turn has been written the patterns formed for it (R267). -/
def Buffers.eachBlock (b : Buffers) (d : Desc) (n : Nat) (f : Nat → Nat → Buffers → List Nat) : Buffers :=
  (List.range (blocksOf d n)).foldl (fun b u =>
    let x := blockAt d n u
    (f x.1 x.2 b).zipIdx.foldl (fun b y => b.putElem d x.1 (x.2 + y.2) y.1) b) b

/-- t is s with other buffers and further flags, and nothing else. -/
def onlyBuf (s t : State) (b : Buffers) : Prop := t = (s.modB fun _ => b).modY fun y => { y with fpst := t.core.t.sys.fpst }

/-- t is s with another accumulator and further flags, and nothing else. -/
def onlyAcc (s t : State) (a : Bool) (x : Accum) : Prop := t = (s.modAcc a fun _ => x).modY fun y => { y with fpst := t.core.t.sys.fpst }

/-- t comes from s in n steps, step j by the relation f j. -/
def chain (n : Nat) (f : Nat → State → State → Prop) (s t : State) : Prop :=
  ∃ u : Nat → State, u 0 = s ∧ u n = t ∧ ∀ j, j < n → f j (u j) (u (j + 1))

/-- The bytes of an address range written by a piece of an engine command: translated, then stored at their home (R134, R169). -/
def storesAt (va : Word) (bs : List Byte) (u v : State) : Prop :=
  ∃ l w g, eRange .w va bs.length u = .ok (l, w) ∧ piecesFail w l = false ∧ g.map (·.b) = bs ∧ writePieces w l g = .ok v

/-- The bytes of an address range as a piece of an engine command reads them, in a memory that reads as that of s (R133). -/
def readsFrom (s : State) (va : Word) (bs : List Byte) : Prop :=
  ∃ u l v, sameBytes s u ∧ eRange .r va bs.length u = .ok (l, v) ∧ (readPieces v l).map (·.b) = bs

/-! ### Barriers (R335 to R338) -/

/-- The barrier instance that the task in focus names by a scope and a number. -/
def State.myBar (s : State) (sc : Scope) (b : BitVec 3) : Bar := s.bar s.core.t.id s.core.phys sc b false

/-- The frame of a barrier instruction: only barrier instances, the scalar registers and the control state of the task's own issue differ. -/
def restEqBars (s t : State) : Prop :=
  t = { s with
        core := { s.core with
          waiting := t.core.waiting, entry := t.core.entry,
          t := { s.core.t with pc := t.core.t.pc, blk := s.core.t.blk.map Block.next, barw := t.core.t.barw,
                               regs := { s.core.t.regs with s := t.core.t.regs.s, spois := t.core.t.regs.spois } } },
        sched := { s.sched with bars := t.sched.bars } }

/-- Whether a scope around core `p` spans core `c` (R151). -/
def scopeSpans (sc : Scope) (p c : Nat) : Bool :=
  match sc with
  | .lane | .core => c = p
  | .quad => quadOf c = quadOf p
  | .die => dieOf c = dieOf p
  | .pkg | .pod => true

/-- Whether a TLBFENCE of a scope issued on core p covers the L2 TLB of a quad (R151). -/
def quadSpans (sc : Scope) (p q : Nat) : Bool :=
  match sc with
  | .lane | .core => false
  | .quad => q = quadOf p
  | .die => q / 16 = dieOf p
  | .pkg | .pod => true

/-- Whether it covers the walk cache of a die (R151). -/
def dieSpans (sc : Scope) (p d : Nat) : Bool :=
  match sc with
  | .pkg | .pod => true
  | _ => d = dieOf p

/-! ### Traps (R369, R370) -/

/-- The health counters after a trap (R380): POISON traps and MCHK traps are counted. -/
def Health.counted (h : Health) (code : BitVec 8) : Health :=
  if code = cPOISON then h.count 3 else if code = cMCHK then h.count 1 else h

/-- The address of the handler of the running context; 0: there is none (R368, R377). -/
def State.handler (s : State) : Word := s.cx.tvec &&& 0x01FFFFFFFFFFFFF8#64

/-- s after a fault has been recorded: the trap registers written, system level, an open block saved and closed, the engines stopped. -/
def State.entered (s : State) (f : FaultInfo) (pc : Word) : State :=
  { s with core := { s.core with
      stopped := true, waiting := false, hold := none, health := s.core.health.counted f.code,
      t := { s.core.t with
        trapEnt := if s.core.entry then some pc else none, valid := s.core.t.valid && !(f.code == cMCHK && f.info == 2),
        prv := true, savedBlk := s.core.t.blk.map fun b => { b with pct := pc }, blk := none,
        sys := { s.core.t.sys with tprv := s.core.t.prv, tblk := s.core.t.blk.isSome, tpc := pc, tcause := f.tcause, tupc := f.upc, ttl := f.tl,
                                   tva := f.va.getD 0, inTrap := true } } } }

/-- t is s after a trap with a fault and the PC to save: the trap registers written, and the PC at the handler; where the handler's line is no target,
the core stopped for a halt instead, and halted where no copy to its buffers is under way (R383). Nothing else but the translation structures, the base
dies' records of accesses and the instruction cache differs. -/
structure TrapsTo (s t : State) (f : FaultInfo) (pc : Word) : Prop where
  handler : (targetCheck s.handler (s.entered f pc)).2 = none → t.core.t.pc = s.handler ∧ t.core.health = s.core.health.counted f.code
  halts : (targetCheck s.handler (s.entered f pc)).2 ≠ none →
    t.core.health.dblf = true ∧ t.core.t.pc = s.core.t.pc ∧
    (s.core.copying = false → t.core.health.halted = true ∧ t.core.health.cause = 0x32) ∧
    (s.core.copying = true → t.core.health.haltReq = true ∧ t.core.health.halted = s.core.health.halted)
  bytes : sameBytes s t
  rest : t = { s.entered f pc with
    core := { (s.entered f pc).core with entry := t.core.entry, health := t.core.health, l1tlb := t.core.l1tlb, icache := t.core.icache,
                                         t := { (s.entered f pc).core.t with pc := t.core.t.pc } },
    mem := { s.mem with l2tlb := t.mem.l2tlb, wcache := t.mem.wcache, attlog := t.mem.attlog, sealed := t.mem.sealed } }

/-! ### One core among the others -/

/-- The core of a number becomes f of it, and nothing else changes. -/
structure TouchesCore (s t : State) (c : BitVec 8) (f : Core → Core) : Prop where
  phys : t.core.phys = s.core.phys
  hit : t.coreAt c.toNat = f (s.coreAt c.toNat)
  others : ∀ d : BitVec 8, d ≠ c → t.coreAt d.toNat = s.coreAt d.toNat
  rest : t = { s with core := t.core, others := t.others }

/-! ### Outcomes -/

/-- The instruction traps with a control-core fault of a code at its own address, and has no other effect than what translation and fetching leave
(R7, R12, R369). -/
def trapsAt (i : Instr) (s : State) (code : BitVec 8) : Prop :=
  ∃ f : FaultInfo, ∃ s1 : State, f.code = code ∧ f.unit = 0 ∧ onlyFills s s1 ∧ exec i s = .next (takeTrap f s.core.t.pc s1)

/-- The instruction is forbidden where it stands, under a code: it traps with that code and has no effect at all, or with a fault of its own that has a
lower code and then has no other effect than what translation and fetching leave (R12, R37). -/
def forbiddenAs (i : Instr) (s : State) (c : BitVec 8) : Prop :=
  exec i s = .next (takeTrap (.cc c) s.core.t.pc s) ∨
  ∃ f : FaultInfo, ∃ s' : State, f.code.toNat < c.toNat ∧ exec i s = .next (takeTrap f s.core.t.pc (keepFills s s'))

/-- The instruction waits: its PC stays, and nothing changes but that it waits. -/
def waitsAt (i : Instr) (s : State) : Prop := exec i s = .next (s.modC fun c => { c with waiting := true })

/-! ### Invariants -/

/-- Home memory, the host's memory and the registers of the contexts in canonical form. -/
def State.MemOk (s : State) : Prop :=
  Memory.wf s.mem.bytes = true ∧ Memory.wf s.host.mem = true ∧ Sparse.wf Ctx.zero s.ctxs = true

/-- The lists a task carries in rising order: dirty bytes of its view, and spill memory in canonical form. -/
def Task.ListsOk (t : Task) : Prop := Sparse.rising t.view.dirty = true ∧ Sparse.wf 0 t.spill = true

/-- The lists of the machine in order: cores under their own numbers, none of them the one in focus; keys, modes and expansion registers in rising
order; the instruction caches; what every task carries, on a core, waiting or saved. -/
def State.ListsOk (s : State) : Prop :=
  Sparse.rising s.others = true ∧ (∀ p ∈ s.others, p.2.phys.toNat = p.1 ∧ p.1 ≠ s.core.phys.toNat) ∧
  Sparse.rising s.mem.keys = true ∧ Sparse.wf 0 s.mem.tmode = true ∧ Sparse.rising s.plat.expmode = true ∧ Sparse.rising s.plat.expap = true ∧
  (∀ c ∈ s.cores, Sparse.rising c.icache = true ∧ c.t.ListsOk) ∧
  (∀ r ∈ s.sched.ready, ∀ t b c, r.work = .resume t b c → t.ListsOk) ∧ (∀ p ∈ s.images, p.2.t.ListsOk)

end Sys2Proof.Machine
end

