-- ==== Sys2Proof/Certificates/Slice0/Obligations.lean ====
section
/-! DEFINITION. The statements for the provers: one definition each, with the rules of the manual it formalises. -/

open Sys2Proof Sys2Proof.Machine

/-- Each of these words, taken from the examples and encoding tables of the manual, decodes to the instruction the manual gives it: MOVI, ADDI, ADD, LD.d, BR.NE, RET, NOP, ST.w, COMMIT, CVT, RETAG, TRVL.in, COPY.in, AWR, VRUN, MMA, MZERO, SXF, BLKB, CHCFG.up, CHSEND, COLL, CDIG, CSTAT, TRAP and CTXSV. -/
def Obligations.DecodeSpecWords : Prop :=
  (decodeWords [0x0000000000400681#64, 0x0000000000400000#64]).toOption = some (.movi 4 0x00400000, []) ∧
  (decodeWords [0x0000800000500080#64]).toOption = some (.addi 5 0 8, []) ∧
  (decodeWords [0x0000000000800000#64]).toOption = some (.add 8 0 0, []) ∧
  (decodeWords [0x00000009107C0008#64]).toOption = some (.ld .d 7 4 9 0, []) ∧
  (decodeWords [0xFFFFC00014000044#64]).toOption = some (.brNe 5 0 0xFFFFC, []) ∧
  (decodeWords [0x00000000FC0002C4#64]).toOption = some (.ret 63, []) ∧
  (decodeWords [0x0000000000000404#64]).toOption = some (.nop, []) ∧
  (decodeWords [0x0001000910780048#64]).toOption = some (.st .w 7 4 9 16, []) ∧
  (decodeWords [0x0000000000000208#64]).toOption = some (.commit, []) ∧
  (decodeWords [0x0000000008300011#64, 0x0000000000000884#64]).toOption = some (.cvt noTok 3 2 .rne true 8 4, []) ∧
  (decodeWords [0x0201700002800110#64]).toOption = some (.retag noTok 40 0x2017, []) ∧
  (decodeWords [0x0000000018000015#64, 0x0000000200000002#64]).toOption = some (.trvlIn noTok 0 6 2 2, []) ∧
  (decodeWords [0x0000000010500095#64, 5]).toOption = some (.copyIn noTok .ab 5 4 0 0 ⟨0, false, false, 1⟩, []) ∧
  (decodeWords [0x0000000510000019#64, 0x2081]).toOption = some (.awr noTok ⟨false, 1, 0, false, 8, 1⟩ 0 4 5 0, []) ∧
  (decodeWords [0x000000081000001D#64, 2]).toOption = some (.vrun noTok 4 8 2, []) ∧
  (decodeWords [0x0000000510180025#64, 0]).toOption = some (.mma noTok true false true 4 5 0 0, []) ∧
  (decodeWords [0x0000000000024064#64]).toOption = some (.mzero ⟨true, false, false, true⟩ false, []) ∧
  (decodeWords [0x0000000008300028#64]).toOption = some (.sxf noTok 3 2, []) ∧
  (decodeWords [0x000120005400002C#64]).toOption = some (.blkb false false 21 0x0012, []) ∧
  (decodeWords [0x0000000B28100035#64, 0x108]).toOption = some (.chcfgUp 1 10 11 ⟨0, 0, false, 1, 8⟩, []) ∧
  (decodeWords [0x0000000014104074#64]).toOption = some (.chsendFw ⟨false, false, false, true⟩ 1 5, []) ∧
  (decodeWords [0x00003000500000B4#64]).toOption = some (.coll noTok 3 20, []) ∧
  (decodeWords [0x0000000D300000F4#64]).toOption = some (.cdig 12 13, []) ∧
  (decodeWords [0x0000300014900134#64]).toOption = some (.cstat 9 3 5, []) ∧
  (decodeWords [0x0000500000000038#64]).toOption = some (.trap 5, []) ∧
  (decodeWords [0x00000000105000B8#64]).toOption = some (.ctxsv false 5 4, [])

/-- For every well-formed instruction of the control stream, with every operand at every value its encoding admits, and whatever words follow it: decoding its encoding answers that instruction and leaves the words that follow. -/
def Obligations.DecodeInvertsEncode : Prop :=
  ∀ (i : Instr) (rest : List Word), i.wf = true → i.isEvent = false → decodeWords (encode i ++ rest) = .ok (i, rest)

/-- Whatever the decoder accepts is a well-formed instruction of the control stream, and the words it has read are exactly that instruction's encoding: no two sequences stand for one instruction, and no bit of a word is left unread. -/
def Obligations.EncodingIsUnique : Prop :=
  ∀ (ws : List Word) (i : Instr) (rest : List Word), decodeWords ws = .ok (i, rest) →
    i.wf = true ∧ i.isEvent = false ∧ ws = encode i ++ rest

/-- No word with SZ 11, or with class 15, starts an instruction; what is accepted has as many granules as its SZ says, 1, 2 or 4, and these are as many as the opcode map gives its class and OP: a word whose SZ is another is refused. -/
def Obligations.ReservedEncodingsRefused : Prop :=
  ∀ (w : Word) (ws : List Word),
    (w.extractLsb' 0 2 = 3 → ∀ p, decodeWords (w :: ws) ≠ .ok p) ∧
    (w.extractLsb' 2 4 = 15 → ∀ p, decodeWords (w :: ws) ≠ .ok p) ∧
    (∀ i rest, decodeWords (w :: ws) = .ok (i, rest) → (w :: ws).length = rest.length + granCount w) ∧
    (granCount w ≠ mapGranules (w.extractLsb' 2 4).toNat (w.extractLsb' 6 8).toNat → ∀ p, decodeWords (w :: ws) ≠ .ok p)

/-- With nothing on the agenda, in the control core's turn: when the core in focus runs a task and is neither halted nor asked to halt, the line at its PC can be fetched and passes its checks, and the granules from the PC on decode to an instruction that may stand there while no engine fault is due, the step is exec of that instruction at that state (time having passed, the fetched line kept and the committed state noted), followed by what issuing an instruction counts: at once where its effects stay inside the control core and it raises no fault there, else once the checker has compared it equal; until then it is withheld and nothing happens but that it is with the checker. When the agenda names an event of the device, or it is the package's turn and an event is due, the step is exec of that event. The moment of an engine fault against an instruction's own, and the turns, are the model's, and so is which instructions wait for the checker before they act (log entries 7, 12 and 63). -/
def Obligations.StepRunsDecoded : Prop :=
  (∀ (s s1 : State) (b : BitVec 1024) (i : Instr) (rest : List Word),
    let u := s.tick
    let g := granuleOf u.core.t.pc
    let v := (keepFills u s1).modC fun c => { c with lineKind := hdrKind (lineGran b 0) }
    s.agenda = [] → s.powered = true → s.turn % 2 = 0 →
    u.core.running = true → u.core.health.halted = false → u.core.health.haltReq = false →
    u.core.t.pc.extractLsb' 0 3 = 0 → g ≠ 0 → fetchLine u.core.t.pc u = .ok (b, s1) →
    lineBad b = false → hdrKind (lineGran b 0) ≠ 2 → decodeWords (lineFrom b g) = .ok (i, rest) →
    placeOk v (hdrKind (lineGran b 0)) (lineGran b g) = true → v.dueFault = none →
    let act := !runsAhead i v || (trial i v).isSome
    let run := Out.map v.issued (exec i (v.checkpoint i))
    (v.core.hold = some true → step s = Out.map (fun t => t.modC fun c => { c with hold := if c.waiting then some true else none }) run) ∧
    (v.core.hold ≠ some true → act = false → step s = run) ∧
    (v.core.hold ≠ some true → act = true → step s = .next (v.modC fun c => { c with hold := some false }))) ∧
  (∀ (s : State) (i : Instr) (l : List Move), s.powered = true → i.isEvent = true → s.agenda = .event i :: l →
    step s = exec i { s with agenda := l }) ∧
  (∀ (s : State) (i : Instr), s.agenda = [] → s.powered = true → s.turn % 2 = 1 → s.tick.turnEvent = some i → step s = exec i s.tick)

/-- In the control core's turn of a running core that is not asked to halt: a PC that is no multiple of 8 takes ALIGN, a line that cannot be fetched takes the fault of the fetch, a line that fails its checks or is of kind 10 takes ILLOP reported by the fetch unit, a PC in granule 0 takes BRTGT (after the faults of the line where a transfer has led there, and BLKOP there in a line of kind 01 with no block open), and words that do not decode take ILLOP of the control core; each at the PC, once the checker has compared it equal, with no other effect than what fetching keeps. A line whose fetch is held is waited for. The units these faults are reported with are the model's reading (log entry 11). -/
def Obligations.StepTakesFetchFaults : Prop :=
  ∀ (s : State), s.agenda = [] → s.powered = true → s.turn % 2 = 0 → s.core.running = true → s.core.health.halted = false →
    s.core.health.haltReq = false →
    let u := s.tick
    let p := s.core.t.pc
    (p.toNat % 8 ≠ 0 → step s = .next (faultTurn u u (.at cALIGN p))) ∧
    (p.toNat % 8 = 0 → granuleOf p = 0 → s.core.entry = false → step s = .next (faultTurn u u (.cc cBRTGT))) ∧
    (p.toNat % 8 = 0 → (granuleOf p ≠ 0 ∨ s.core.entry = true) →
      (∀ f s1, fetchLine p u = .error (.fault f, s1) → step s = .next (faultTurn u (keepFills u s1) f)) ∧
      (∀ s1, fetchLine p u = .error (.wait, s1) → step s = .next ((keepFills u s1).modC fun c => { c with waiting := true })) ∧
      (∀ b s1, fetchLine p u = .ok (b, s1) →
        let v := (keepFills u s1).modC fun c => { c with lineKind := hdrKind (lineGran b 0) }
        ((lineBad b = true ∨ hdrKind (lineGran b 0) = 2) → step s = .next (faultTurn u v { FaultInfo.cc cILLOP with unit := 8 })) ∧
        (lineBad b = false → hdrKind (lineGran b 0) ≠ 2 → granuleOf p = 0 →
          step s = .next (faultTurn u v (.cc (if hdrKind (lineGran b 0) = 1 ∧ s.core.t.blk = none then cBLKOP else cBRTGT)))) ∧
        (lineBad b = false → hdrKind (lineGran b 0) ≠ 2 → granuleOf p ≠ 0 → (∀ q, decodeWords (lineFrom b (granuleOf p)) ≠ .ok q) →
          step s = .next (faultTurn u v (.cc cILLOP)))))

/-- At reset every scalar, vector, mask and descriptor register reads zero except k0, which reads all ones, no key is installed, every quad is elastic, every system register of a context reads zero, no core holds a task, and memory lists nothing. (That unlisted memory reads as zero, and the PC of an idle core, are the model's choices: log entries 2 and 3.) -/
def Obligations.ResetValues : Prop :=
  (∀ r : Reg, State.reset.S r = 0) ∧
  (∀ n : BitVec 6, State.reset.V n = ⟨0, 0, 0, 0⟩) ∧
  (∀ n : BitVec 4, State.reset.core.t.regs.rdK n = if n = 0 then BitVec.allOnes 1024 else 0) ∧
  (∀ n : DCode, State.reset.D n = 0) ∧
  State.reset.mem.keys = [] ∧ (∀ q, State.reset.tmode q = 0) ∧
  (∀ n ∈ [0x000, 0x001, 0x010, 0x011, 0x012, 0x018, 0x019, 0x01A, 0x01B, 0x01C, 0x01D, 0x01E, 0x020, 0x022, 0x100, 0x101, 0x102, 0x103, 0x104,
      0x105, 0x106, 0x118, 0x119, 0x11A, 0x300, 0x301, 0x330], (srRead State.reset n).1 = 0) ∧
  (∀ c ∈ State.reset.cores, c.running = false) ∧ State.reset.mem.bytes = []

/-- In every state s0 reads zero and is never poisoned, and k0 reads all ones; a write to a scalar register is read back, clears its poison and leaves every other register as it was, a write to s0 or to k0 changes nothing; the sequential advance of n granules moves the PC by 8·n, or to granule 1 of the next line where the instruction ends its line. -/
def Obligations.HardwiredRegisters : Prop :=
  ∀ (s : State) (r m : Reg) (x : Word) (n : Nat),
    s.S 0 = 0 ∧ s.core.t.regs.poisS 0 = false ∧ s.core.t.regs.rdK 0 = BitVec.allOnes 1024 ∧
    s.setS 0 x = s ∧ (∀ y, s.core.t.regs.wrK 0 y = s.core.t.regs) ∧
    (r ≠ 0 → (s.setS r x).S r = x) ∧ (s.setS r x).core.t.regs.poisS r = false ∧
    (m ≠ r → (s.setS r x).S m = s.S m ∧ (s.setS r x).core.t.regs.poisS m = s.core.t.regs.poisS m) ∧
    (n ≤ 16 → s.core.t.pc.toNat % 8 = 0 → s.core.t.pc.toNat + 272 < 2 ^ 64 →
      (s.advance n).core.t.pc.toNat =
        if s.core.t.pc.toNat / 8 % 16 + n < 16 then s.core.t.pc.toNat + 8 * n else s.core.t.pc.toNat / 128 * 128 + 136)

/-- The home memory, the host memory and the context registers of the reset state are in canonical form, and every list of the reset state is in order: nothing is listed. -/
def Obligations.MemoryFormAtReset : Prop :=
  State.reset.MemOk ∧ State.reset.ListsOk

/-- From every state whose home memory and host memory are in canonical form (addresses strictly rising, no byte listed that equals what an unlisted address reads as), every step that answers a next state leaves them so: whichever instruction issues, whatever event happens, whatever fault is taken. A byte written is therefore a byte read back, and equal memories are equal lists. -/
def Obligations.MemoryFormKept : Prop :=
  ∀ (s t : State), s.MemOk → step s = .next t → t.MemOk

/-- From every state whose lists are in order (each core listed once, under its own number and not the one in focus; key slots, quad modes and expansion registers, instruction caches and the dirty bytes of every task's view in rising order, spill memory in canonical form; the same of every task that waits or is saved), every step that answers a next state leaves them so. -/
def Obligations.ListFormKept : Prop :=
  ∀ (s t : State), s.ListsOk → step s = .next t → t.ListsOk

/-- Outside a block and with clean sources, ADD, SUB, ADDI, MUL, AND, OR, XOR, ANDN, SEL, CEQ, CLT, CLTU and LEA complete: RD holds the result that R95 gives (nothing where RD is s0), the PC moves one granule on, and no other register, flag, special register or byte of memory changes. -/
def Obligations.ScalarArithmetic : Prop :=
  ∀ (s : State) (rd ra rb : Reg), s.noBlock → s.cleanS [ra] →
    (∀ imm, writesReg (.addi rd ra imm) s rd (s.S ra + imm.signExtend 64)) ∧
    (s.cleanS [rb] →
      writesReg (.add rd ra rb) s rd (s.S ra + s.S rb) ∧
      writesReg (.sub rd ra rb) s rd (s.S ra - s.S rb) ∧
      writesReg (.mul rd ra rb) s rd (BitVec.ofNat 64 ((s.S ra).toNat * (s.S rb).toNat)) ∧
      writesReg (.and rd ra rb) s rd (s.S ra &&& s.S rb) ∧
      writesReg (.or rd ra rb) s rd (s.S ra ||| s.S rb) ∧
      writesReg (.xor rd ra rb) s rd (s.S ra ^^^ s.S rb) ∧
      writesReg (.andn rd ra rb) s rd (s.S ra &&& ~~~s.S rb) ∧
      writesReg (.ceq rd ra rb) s rd (if s.S ra = s.S rb then 1 else 0) ∧
      writesReg (.clt rd ra rb) s rd (if (s.S ra).toInt < (s.S rb).toInt then 1 else 0) ∧
      writesReg (.cltu rd ra rb) s rd (if (s.S ra).toNat < (s.S rb).toNat then 1 else 0) ∧
      (∀ m imm, writesReg (.lea rd ra rb m imm) s rd (s.S ra + (s.S rb <<< m.toNat) + imm.signExtend 64)) ∧
      (∀ rc, s.cleanS [rc] → writesReg (.sel rd ra rb rc) s rd (if s.S rc ≠ 0 then s.S ra else s.S rb)))

/-- Outside a block and with clean sources, MULH writes bits 127 to 64 of the exact product in its three sign modes, MIN and MAX the smaller and larger operand, signed and unsigned; nothing else changes. -/
def Obligations.ScalarMultiplyHighMinMax : Prop :=
  ∀ (s : State) (rd ra rb : Reg), s.noBlock → s.cleanS [ra, rb] →
    let a := s.S ra
    let b := s.S rb
    writesReg (.mulh .ss rd ra rb) s rd ((a.signExtend 128 * b.signExtend 128).extractLsb' 64 64) ∧
    writesReg (.mulh .uu rd ra rb) s rd ((a.setWidth 128 * b.setWidth 128).extractLsb' 64 64) ∧
    writesReg (.mulh .su rd ra rb) s rd ((a.signExtend 128 * b.setWidth 128).extractLsb' 64 64) ∧
    writesReg (.min false rd ra rb) s rd (BitVec.ofInt 64 (min a.toInt b.toInt)) ∧
    writesReg (.min true rd ra rb) s rd (BitVec.ofNat 64 (min a.toNat b.toNat)) ∧
    writesReg (.max false rd ra rb) s rd (BitVec.ofInt 64 (max a.toInt b.toInt)) ∧
    writesReg (.max true rd ra rb) s rd (BitVec.ofNat 64 (max a.toNat b.toNat))

/-- Outside a block and with clean sources: B = 0 gives the word of all ones and A; signed, the quotient is truncated toward zero and the remainder takes the sign of the dividend, so that A = q·B + rem, with A = -2^63 and B = -1 giving -2^63 and 0; with .u the unsigned quotient and remainder; -7 and 2 give -3 and -1, and 0xFFFF_FFFF_FFFF_FFF9 divided by 2 with .u 0x7FFF_FFFF_FFFF_FFFC and 1. Nothing else changes. -/
def Obligations.DivideAndRemainder : Prop :=
  ∀ (s : State) (rd ra rb : Reg), s.noBlock → s.cleanS [ra, rb] →
    let a := s.S ra
    let b := s.S rb
    (b = 0 → ∀ u, writesReg (.div u rd ra rb) s rd 0xFFFFFFFFFFFFFFFF#64 ∧ writesReg (.rem u rd ra rb) s rd a) ∧
    (b ≠ 0 →
      (∃ q r : Word, a = q * b + r ∧ q = BitVec.ofInt 64 (a.toInt.tdiv b.toInt) ∧ r = BitVec.ofInt 64 (a.toInt.tmod b.toInt) ∧
        (r = 0 ∨ r.msb = a.msb) ∧ writesReg (.div false rd ra rb) s rd q ∧ writesReg (.rem false rd ra rb) s rd r) ∧
      (∃ q r : Word, a = q * b + r ∧ q.toNat = a.toNat / b.toNat ∧ r.toNat = a.toNat % b.toNat ∧
        writesReg (.div true rd ra rb) s rd q ∧ writesReg (.rem true rd ra rb) s rd r)) ∧
    (a = BitVec.ofInt 64 (-2 ^ 63) → b = BitVec.ofInt 64 (-1) →
      writesReg (.div false rd ra rb) s rd (BitVec.ofInt 64 (-2 ^ 63)) ∧ writesReg (.rem false rd ra rb) s rd 0) ∧
    (a = BitVec.ofInt 64 (-7) → b = 2 →
      writesReg (.div false rd ra rb) s rd (BitVec.ofInt 64 (-3)) ∧ writesReg (.rem false rd ra rb) s rd (BitVec.ofInt 64 (-1)) ∧
      writesReg (.div true rd ra rb) s rd 0x7FFFFFFFFFFFFFFC#64 ∧ writesReg (.rem true rd ra rb) s rd 1)

/-- Outside a block and with clean sources, SHL, SHR, SAR and ROT act by B[5:0] or by the immediate count, CLZ counts the leading zero bits (64 for 0) and POPC the one bits; nothing else changes. -/
def Obligations.ScalarShiftsAndCounts : Prop :=
  ∀ (s : State) (rd ra : Reg), s.noBlock → s.cleanS [ra] →
    let a := s.S ra
    (∀ n : BitVec 6,
      writesReg (.shl rd ra (.imm n)) s rd (a <<< n.toNat) ∧ writesReg (.shr rd ra (.imm n)) s rd (a >>> n.toNat) ∧
      writesReg (.sar rd ra (.imm n)) s rd (a.sshiftRight n.toNat) ∧ writesReg (.rot rd ra (.imm n)) s rd (a.rotateLeft n.toNat)) ∧
    (∀ rb, s.cleanS [rb] →
      let k := (s.S rb).toNat % 64
      writesReg (.shl rd ra (.reg rb)) s rd (a <<< k) ∧ writesReg (.shr rd ra (.reg rb)) s rd (a >>> k) ∧
      writesReg (.sar rd ra (.reg rb)) s rd (a.sshiftRight k) ∧ writesReg (.rot rd ra (.reg rb)) s rd (a.rotateLeft k)) ∧
    (∀ n, n ≤ 64 → (∀ j, j < n → a.getLsbD (63 - j) = false) → (n < 64 → a.getLsbD (63 - n) = true) →
      writesReg (.clz rd ra) s rd (BitVec.ofNat 64 n)) ∧
    writesReg (.popc rd ra) s rd (BitVec.ofNat 64 ((List.range 64).filter fun j => a.getLsbD j).length)

/-- Outside a block and with clean sources, for every field that lies within 64 bits: BFX writes bits pos to pos+len-1 of A, zero- or sign-extended, BFI writes A with those bits replaced by the low bits of B; nothing else changes. A field that leaves the word is no well-formed instruction. -/
def Obligations.BitFields : Prop :=
  ∀ (s : State) (rd ra : Reg) (pos lenM1 : BitVec 6),
    (∀ rb g, (64 < pos.toNat + lenM1.toNat + 1) →
      Instr.wf (.bfx g rd ra pos lenM1) = false ∧ Instr.wf (.bfi rd ra rb pos lenM1) = false) ∧
    (s.noBlock → s.cleanS [ra] → pos.toNat + lenM1.toNat + 1 ≤ 64 →
      let a := s.S ra
      let len := lenM1.toNat + 1
      (∀ g : Bool, ∃ v : Word, (∀ i, i < 64 → v.getLsbD i = if i < len then a.getLsbD (pos.toNat + i) else g && a.getLsbD (pos.toNat + len - 1)) ∧
        writesReg (.bfx g rd ra pos lenM1) s rd v) ∧
      (∀ rb, s.cleanS [rb] → ∃ v : Word,
        (∀ i, i < 64 → v.getLsbD i = if pos.toNat ≤ i ∧ i < pos.toNat + len then (s.S rb).getLsbD (i - pos.toNat) else a.getLsbD i) ∧
        writesReg (.bfi rd ra rb pos lenM1) s rd v))

/-- MOVI writes the extension word to RD and moves two granules on; an encoding of MOVI has RA, RB, RC, M and IMM20 zero and its immediate is the extension word; 0x0000_0000_0040_0681 with 0x0000_0000_0040_0000 is MOVI s4, 0x0040_0000. -/
def Obligations.MoveImmediate : Prop :=
  (∀ (s : State) (rd : Reg) (x : Word), s.noBlock → ∃ t, exec (.movi rd x) s = .next t ∧ Wrote s t rd x 2) ∧
  (∀ (w x : Word) (rd : Reg) (imm : Word) (r l : List Word), decodeWords (w :: x :: r) = .ok (.movi rd imm, l) →
    imm = x ∧ l = r ∧ w.extractLsb' 26 38 = 0 ∧ w.extractLsb' 18 2 = 0 ∧ w.extractLsb' 20 6 = rd) ∧
  decodeWords [0x0000000000400681#64, 0x0000000000400000#64] = .ok (.movi 4 0x00400000, [])

/-- Outside a block, a class 0 or class 1 instruction that reads a scalar register holding an uncorrectable error takes a POISON trap at its own address, with every part of the state as it was before. -/
def Obligations.PoisonedScalarSource : Prop :=
  ∀ (s : State) (i : Instr), s.noBlock → (∃ r ∈ scalarSources i, s.core.t.regs.poisS r = true) →
    exec i s = .next (takeTrap (.cc cPOISON) s.core.t.pc s)

/-- With a block open, each class 0 and class 1 instruction but NOP, and SPL and SPS, traps at its own address with no other effect than what translation and fetching leave: with BLKOP, or with a lower code of its own, which only a transfer (ALIGN, BRTGT) and a spill access (ALIGN, OOB) can meet; a transfer to a target that is not refused and a spill access at an aligned offset in range trap with BLKOP and with no effect at all. NOP completes, its only effect the PC and the ordinal of the block moving on. Outside a block NOP, and HINT with each of its codes, complete: the PC moves one granule on and nothing else changes; a HINT code above 2 is not well formed. -/
def Obligations.BlockForbidsScalar : Prop :=
  (∀ (s : State) (b : Block), s.core.t.blk = some b →
    let blkop (i : Instr) : Prop := exec i s = .next (takeTrap (.cc cBLKOP) s.core.t.pc s)
    let ok (t : Word) : Prop := (targetCheck t s).2 = none
    (∀ i, scalarOrSpill i = true → transferOrSpill i = false → blkop i) ∧
    (∀ i, transferOrSpill i = true → ∃ c ∈ [cBLKOP, cALIGN, cBRTGT, cOOB], trapsAt i s c) ∧
    (∀ (rd ra rb : Reg) (off : BitVec 20) (o38 : BitVec 38) (sz : MSize),
      (ok (s.core.t.pc + 8 * off.signExtend 64) → blkop (.brEq ra rb off) ∧ blkop (.brNe ra rb off) ∧ blkop (.brLt ra rb off) ∧
        blkop (.brGe ra rb off) ∧ blkop (.brLtu ra rb off) ∧ blkop (.brGeu ra rb off) ∧ blkop (.loop ra off)) ∧
      (ok (s.core.t.pc + 8 * o38.signExtend 64) → blkop (.jmp o38) ∧ blkop (.call rd o38)) ∧
      ((s.S ra).toNat % 8 = 0 → ok (s.S ra) → blkop (.jmpr rd ra) ∧ blkop (.ret ra)) ∧
      ((s.S ra + off.signExtend 64).toNat % szBytes sz = 0 → (s.S ra + off.signExtend 64).toNat + szBytes sz ≤ 16384 →
        blkop (.spl sz rd ra off) ∧ blkop (.sps sz rd ra off))) ∧
    (∃ t, exec .nop s = .next t ∧ t.core.t.pc = nextPc s.core.t.pc 1 ∧ t.core.t.blk = some { b with ord := b.ord + 1 } ∧ Frame s t [])) ∧
  ∀ (s : State) (c : BitVec 8), (s.noBlock →
      (∃ t, exec .nop s = .next t ∧ t.core.t.pc = nextPc s.core.t.pc 1 ∧ Frame s t []) ∧
      (∃ t, exec (.hint c) s = .next t ∧ t.core.t.pc = nextPc s.core.t.pc 1 ∧ Frame s t [])) ∧
    (Instr.wf (.hint c) = true ↔ c.toNat ≤ 2)

/-- Outside a block and with clean sources, each BR.cc to a good target goes to PC + 8·offset when its comparison holds (LT, GE signed, LTU, GEU unsigned) and to the next instruction otherwise; no register, flag or byte of memory changes. -/
def Obligations.ConditionalBranches : Prop :=
  ∀ (s : State) (ra rb : Reg) (off : BitVec 20), s.noBlock → s.cleanS [ra, rb] →
    let a := s.S ra
    let b := s.S rb
    let t := s.core.t.pc + 8 * off.signExtend 64
    branches (.brEq ra rb off) s (decide (a = b)) t ∧ branches (.brNe ra rb off) s (decide (a ≠ b)) t ∧
    branches (.brLt ra rb off) s (decide (a.toInt < b.toInt)) t ∧ branches (.brGe ra rb off) s (decide (b.toInt ≤ a.toInt)) t ∧
    branches (.brLtu ra rb off) s (decide (a.toNat < b.toNat)) t ∧ branches (.brGeu ra rb off) s (decide (b.toNat ≤ a.toNat)) t

/-- Outside a block and to a good target: JMP and CALL go to PC + 8·offset, JMPR and RET to the old value of RA (a multiple of 8); CALL and JMPR write the address of the next instruction to RD (nothing where RD is s0); nothing else changes but the PC. -/
def Obligations.UnconditionalTransfers : Prop :=
  ∀ (s s1 : State) (rd ra : Reg) (off : BitVec 38), s.noBlock →
    let p := s.core.t.pc
    (targetGood (p + 8 * off.signExtend 64) s s1 →
      (∃ t, exec (.jmp off) s = .next t ∧ MovesTo s t (p + 8 * off.signExtend 64) []) ∧
      (∃ t, exec (.call rd off) s = .next t ∧ MovesTo s t (p + 8 * off.signExtend 64) [rd] ∧ t.S rd = if rd = 0 then 0 else nextPc p 1)) ∧
    (s.cleanS [ra] → (s.S ra).toNat % 8 = 0 → targetGood (s.S ra) s s1 →
      (∃ t, exec (.ret ra) s = .next t ∧ MovesTo s t (s.S ra) []) ∧
      (∃ t, exec (.jmpr rd ra) s = .next t ∧ MovesTo s t (s.S ra) [rd] ∧ t.S rd = if rd = 0 then 0 else nextPc p 1))

/-- Outside a block, with RA other than s0 and clean: a count of 0 goes on with the counter unchanged, a count of 1 goes on with the counter 0, any other count transfers to a good target PC + 8·offset with the counter one lower; nothing else changes. -/
def Obligations.CountedLoop : Prop :=
  ∀ (s : State) (ra : Reg) (off : BitVec 20), s.noBlock → ra ≠ 0 → s.cleanS [ra] →
    (s.S ra = 0 → ∃ t, exec (.loop ra off) s = .next t ∧ t.core.t.pc = nextPc s.core.t.pc 1 ∧ Frame s t []) ∧
    (s.S ra = 1 → ∃ t, exec (.loop ra off) s = .next t ∧ Wrote s t ra 0 1) ∧
    (2 ≤ (s.S ra).toNat → ∀ s1, targetGood (s.core.t.pc + 8 * off.signExtend 64) s s1 →
      ∃ t, exec (.loop ra off) s = .next t ∧ MovesTo s t (s.core.t.pc + 8 * off.signExtend 64) [ra] ∧ t.S ra = s.S ra - 1)

/-- Outside a block: a taken branch, JMP, CALL or LOOP whose target is refused, and a JMPR or RET through an aligned register, traps with BRTGT at the transfer: no link is written and no counter moves. JMPR and RET through a register that is no multiple of 8 trap with ALIGN. -/
def Obligations.RefusedTransfers : Prop :=
  ∀ (s : State) (rd ra rb : Reg) (off : BitVec 20) (off38 : BitVec 38), s.noBlock → s.cleanS [ra, rb] →
    let p := s.core.t.pc
    (targetRefused (p + 8 * off.signExtend 64) s →
      (s.S ra = s.S rb → trapsAt (.brEq ra rb off) s cBRTGT) ∧ (s.S ra ≠ s.S rb → trapsAt (.brNe ra rb off) s cBRTGT) ∧
      ((s.S ra).slt (s.S rb) = true → trapsAt (.brLt ra rb off) s cBRTGT) ∧ ((s.S ra).slt (s.S rb) = false → trapsAt (.brGe ra rb off) s cBRTGT) ∧
      ((s.S ra).ult (s.S rb) = true → trapsAt (.brLtu ra rb off) s cBRTGT) ∧ ((s.S ra).ult (s.S rb) = false → trapsAt (.brGeu ra rb off) s cBRTGT) ∧
      (2 ≤ (s.S ra).toNat → trapsAt (.loop ra off) s cBRTGT)) ∧
    (targetRefused (p + 8 * off38.signExtend 64) s → trapsAt (.jmp off38) s cBRTGT ∧ trapsAt (.call rd off38) s cBRTGT) ∧
    ((s.S ra).toNat % 8 = 0 → targetRefused (s.S ra) s → trapsAt (.jmpr rd ra) s cBRTGT ∧ trapsAt (.ret ra) s cBRTGT) ∧
    ((s.S ra).toNat % 8 ≠ 0 → trapsAt (.jmpr rd ra) s cALIGN ∧ trapsAt (.ret ra) s cALIGN)

/-- Outside a block, an LD of each size whose access R117 admits, on a page that is not phase-ordered and from words that no error strikes, completes: RD holds the little-endian bytes at the translated address, zero-extended (nothing where RD is s0), and no other register, no flag and no byte of memory changes. -/
def Obligations.LoadFromHomes : Prop :=
  ∀ (s s1 : State) (sz : MSize) (rd ra rb : Reg) (off : BitVec 20) (va : Word) (x : Xl),
    s.noBlock → Access s s1 ra rb off (szBytes sz) .r va x → x.cls ≠ 0 →
    s.homeFail x.pa (szBytes sz) = false → s.homePoisN x.pa (szBytes sz) = false →
    ∃ t, exec (.ld sz rd ra rb off) s = .next t ∧ MovesTo s t (nextPc s.core.t.pc 1) [rd] ∧
      t.S rd = if rd = 0 then 0 else BitVec.ofNat 64 (leNat ((List.range (szBytes sz)).map fun i => s.homeByte (x.pa + i)))

/-- Outside a block, an LD whose access R117 admits, on a phase-ordered page, with its line pinned or pinnable and no poisoned word read, completes: RD holds the bytes of the view (the core's own value, else the pinned one, else the home's), which the read leaves as they were; at most the line is pinned, and every byte of memory reads as before. -/
def Obligations.LoadFromView : Prop :=
  ∀ (s s1 : State) (sz : MSize) (rd ra rb : Reg) (off : BitVec 20) (va : Word) (x : Xl),
    s.noBlock → Access s s1 ra rb off (szBytes sz) .r va x → x.cls = 0 →
    canPin s (x.pa / 128) → (∀ i, i < szBytes sz → s.viewPois (x.pa + i) = false) → x.pa % szBytes sz = 0 →
    ∃ t, exec (.ld sz rd ra rb off) s = .next t ∧ t.core.t.pc = nextPc s.core.t.pc 1 ∧ FramePins s t [rd] ∧
      t.S rd = if rd = 0 then 0 else BitVec.ofNat 64 (leNat ((List.range (szBytes sz)).map fun i => s.viewByte (x.pa + i)))

/-- Outside a block, an ST of each size whose access R117 admits, outside the timeline area, on a page that is not phase-ordered and holds no compressed block there, completes: the bytes from the translated address hold the low bytes of RD, little-endian, where the DRAM die is not removed; every byte outside them reads as before, at its home and through the view, and no register but the PC changes. A store that a compressed block has no room for traps with QUOTA or COMPCAP and writes nothing; one into the context's timeline area writes nothing and completes. -/
def Obligations.StoreToHomes : Prop :=
  ∀ (s s1 : State) (sz : MSize) (rd ra rb : Reg) (off : BitVec 20) (va : Word) (x : Xl),
    s.noBlock → s.cleanS [rd] → Access s s1 ra rb off (szBytes sz) .w va x → s.MemOk →
    let n := szBytes sz
    let bs := leBytes n (s.S rd).toNat
    (x.cls ≠ 0 → inTimelineArea s va = false → (∀ a, x.pa ≤ a → a < x.pa + n → Sparse.find s.mem.comp (a / 512) = none) → x.pa % n = 0 →
      ∃ t, exec (.st sz rd ra rb off) s = .next t ∧ t.core.t.pc = nextPc s.core.t.pc 1 ∧ restEqStore s t ∧
        (s.mappedOut x.pa = false → ∀ i, i < n → t.homeByte (x.pa + i) = bs.getD i 0) ∧
        (∀ a, (a < x.pa ∨ x.pa + n ≤ a) → t.homeByte a = s.homeByte a ∧ t.viewByte a = s.viewByte a)) ∧
    (x.cls ≠ 0 → inTimelineArea s va = false → ∀ c, s1.store s.cid x.pa bs = .error c → trapsAt (.st sz rd ra rb off) s c) ∧
    (inTimelineArea s va = true → ∃ t, exec (.st sz rd ra rb off) s = .next t ∧ MovesTo s t (nextPc s.core.t.pc 1) [])

/-- Outside a block, an ST whose access R117 admits, on a phase-ordered page outside the timeline area, with its line in the view or room for it there, completes: the view reads the stored bytes, every other byte of the view reads as before, every home keeps its value, and no register but the PC changes; without room it traps with QUOTA. -/
def Obligations.StoreToView : Prop :=
  ∀ (s s1 : State) (sz : MSize) (rd ra rb : Reg) (off : BitVec 20) (va : Word) (x : Xl),
    s.noBlock → s.cleanS [rd] → Access s s1 ra rb off (szBytes sz) .w va x → x.cls = 0 → inTimelineArea s va = false →
    let n := szBytes sz
    (roomFor s (x.pa / 128) →
      ∃ t, exec (.st sz rd ra rb off) s = .next t ∧ t.core.t.pc = nextPc s.core.t.pc 1 ∧ restEqView s t ∧
        (∀ i, i < n → t.viewByte (x.pa + i) = (leBytes n (s.S rd).toNat).getD i 0) ∧
        (∀ a, (a < x.pa ∨ x.pa + n ≤ a) → t.viewByte a = s.viewByte a) ∧ (∀ a, t.homeByte a = s.homeByte a)) ∧
    (¬ roomFor s (x.pa / 128) → trapsAt (.st sz rd ra rb off) s cQUOTA)

/-- Outside a block, on a direct page without errors (and on a phase-ordered one through the view): LD.dsc of an image without a reserved bit writes the 32 bytes to the descriptor register and changes no other register and no memory; an image with a reserved bit set traps with ILLOP and leaves the register; ST.dsc writes the register's 32 bytes with the reserved bits zero, and no other byte. On a device page both trap with ALIGN. -/
def Obligations.DescriptorLoadAndStore : Prop :=
  ∀ (s s1 : State) (dd : DCode) (ra rb : Reg) (off : BitVec 20) (va : Word) (x : Xl), s.noBlock →
    (Access s s1 ra rb off 32 .r va x → x.cls = 1 → s.homeFail x.pa 32 = false → s.homePoisN x.pa 32 = false →
      let img : Desc := BitVec.ofNat 256 (leNat ((List.range 32).map fun i => s.homeByte (x.pa + i)))
      (img &&& descRsv = 0 → ∃ t, exec (.ldDsc dd ra rb off) s = .next t ∧ t.D dd = img ∧ (∀ e, e ≠ dd → t.D e = s.D e) ∧
        t.core.t.pc = nextPc s.core.t.pc 1 ∧ (∀ r, t.S r = s.S r) ∧ sameBytes s t ∧ t.core.t.sys = s.core.t.sys ∧ t.core.buf = s.core.buf) ∧
      (img &&& descRsv ≠ 0 → trapsAt (.ldDsc dd ra rb off) s cILLOP)) ∧
    (Access s s1 ra rb off 32 .w va x → x.cls = 1 → s.cleanD [dd] → s.MemOk → inTimelineArea s va = false →
      (∀ a, x.pa ≤ a → a < x.pa + 32 → Sparse.find s.mem.comp (a / 512) = none) →
      ∃ t, exec (.stDsc dd ra rb off) s = .next t ∧ t.core.t.pc = nextPc s.core.t.pc 1 ∧ restEqStore s t ∧
        (s.mappedOut x.pa = false → ∀ i, i < 32 → t.homeByte (x.pa + i) = (leBytes 32 (s.D dd &&& ~~~descRsv).toNat).getD i 0) ∧
        (∀ a, (a < x.pa ∨ x.pa + 32 ≤ a) → t.homeByte a = s.homeByte a ∧ t.viewByte a = s.viewByte a)) ∧
    (Access s s1 ra rb off 32 .r va x → x.cls = 0 → canPin s (x.pa / 128) → (∀ i, i < 32 → s.viewPois (x.pa + i) = false) → x.pa % 32 = 0 →
      let img : Desc := BitVec.ofNat 256 (leNat ((List.range 32).map fun i => s.viewByte (x.pa + i)))
      (img &&& descRsv = 0 → ∃ t, exec (.ldDsc dd ra rb off) s = .next t ∧ t.D dd = img ∧ (∀ e, e ≠ dd → t.D e = s.D e) ∧
        t.core.t.pc = nextPc s.core.t.pc 1 ∧ (∀ r, t.S r = s.S r) ∧ sameBytes s t ∧ t.core.t.sys = s.core.t.sys ∧ t.core.buf = s.core.buf) ∧
      (img &&& descRsv ≠ 0 → trapsAt (.ldDsc dd ra rb off) s cILLOP)) ∧
    (Access s s1 ra rb off 32 .w va x → x.cls = 0 → s.cleanD [dd] → inTimelineArea s va = false → roomFor s (x.pa / 128) →
      ∃ t, exec (.stDsc dd ra rb off) s = .next t ∧ t.core.t.pc = nextPc s.core.t.pc 1 ∧ restEqView s t ∧
        (∀ i, i < 32 → t.viewByte (x.pa + i) = (leBytes 32 (s.D dd &&& ~~~descRsv).toNat).getD i 0) ∧
        (∀ a, (a < x.pa ∨ x.pa + 32 ≤ a) → t.viewByte a = s.viewByte a) ∧ (∀ a, t.homeByte a = s.homeByte a)) ∧
    (s.cleanS [ra] → va = s.S ra + off.signExtend 64 → va.toNat % 32 = 0 → ∀ a, translate s s.cid va a (!s.core.t.prv) = (s1, .ok x) →
      s.rfHeld x.pa = false → x.cls = 2 →
      (a = .r → trapsAt (.ldDsc dd ra rb off) s cALIGN) ∧ (a = .w → trapsAt (.stDsc dd ra rb off) s cALIGN))

/-- Outside a block and with clean operands: LD, ST, LD.dsc and ST.dsc at an address that is no multiple of the access size trap with ALIGN before anything is translated; at an address whose translation fails they trap with its code; with a policy that sets a reserved bit they trap with ILLOP. SPL and SPS trap with ALIGN at a misaligned offset and with OOB past the end of spill memory. A spill access of fewer than 8 bytes into a poisoned word, and every SPL of one, traps with POISON. -/
def Obligations.AccessFaults : Prop :=
  ∀ (s : State) (sz : MSize) (dd : DCode) (rd ra rb : Reg) (off : BitVec 20), s.noBlock → s.cleanS [ra, rb] →
    let va := s.S ra + off.signExtend 64
    let n := szBytes sz
    (va.toNat % n ≠ 0 → trapsAt (.ld sz rd ra rb off) s cALIGN ∧ trapsAt (.st sz rd ra rb off) s cALIGN ∧
      trapsAt (.spl sz rd ra off) s cALIGN ∧ trapsAt (.sps sz rd ra off) s cALIGN) ∧
    (va.toNat % 32 ≠ 0 → trapsAt (.ldDsc dd ra rb off) s cALIGN ∧ trapsAt (.stDsc dd ra rb off) s cALIGN) ∧
    (∀ s1 c l, translate s s.cid va .r (!s.core.t.prv) = (s1, .error (c, l)) →
      (va.toNat % n = 0 → trapsAt (.ld sz rd ra rb off) s c) ∧ (va.toNat % 32 = 0 → trapsAt (.ldDsc dd ra rb off) s c)) ∧
    (∀ s1 c l, translate s s.cid va .w (!s.core.t.prv) = (s1, .error (c, l)) →
      (va.toNat % n = 0 → trapsAt (.st sz rd ra rb off) s c) ∧ (va.toNat % 32 = 0 → trapsAt (.stDsc dd ra rb off) s c)) ∧
    ((s.S rb).extractLsb' 26 6 ≠ 0 → ∀ s1 x, x.cls ≠ 2 → s.rfHeld x.pa = false →
      (translate s s.cid va .r (!s.core.t.prv) = (s1, .ok x) →
        (va.toNat % n = 0 → trapsAt (.ld sz rd ra rb off) s cILLOP) ∧ (va.toNat % 32 = 0 → trapsAt (.ldDsc dd ra rb off) s cILLOP)) ∧
      (translate s s.cid va .w (!s.core.t.prv) = (s1, .ok x) →
        (va.toNat % n = 0 → trapsAt (.st sz rd ra rb off) s cILLOP) ∧ (va.toNat % 32 = 0 → trapsAt (.stDsc dd ra rb off) s cILLOP))) ∧
    (va.toNat % n = 0 → 16384 - n < va.toNat → trapsAt (.spl sz rd ra off) s cOOB ∧ trapsAt (.sps sz rd ra off) s cOOB) ∧
    (va.toNat % n = 0 → va.toNat + n ≤ 16384 → va.toNat / 8 ∈ s.core.t.spPois →
      trapsAt (.spl sz rd ra off) s cPOISON ∧ (n < 8 → s.cleanS [rd] → trapsAt (.sps sz rd ra off) s cPOISON))

/-- Outside a block, at an aligned offset within 16,384 bytes and with clean operands: SPL writes the bytes of spill memory at the offset, zero-extended, to RD; SPS writes the low bytes of RD there, an SPS of 8 bytes clears the word's poison, and every other byte of spill memory keeps its value (spill memory in canonical form). No other register and no byte of global memory changes. -/
def Obligations.SpillLoadAndStore : Prop :=
  ∀ (s : State) (sz : MSize) (rd ra : Reg) (off : BitVec 20), s.noBlock → s.cleanS [ra] →
    let o := (s.S ra + off.signExtend 64).toNat
    let n := szBytes sz
    o % n = 0 → o + n ≤ 16384 →
    (o / 8 ∉ s.core.t.spPois →
      writesReg (.spl sz rd ra off) s rd (BitVec.ofNat 64 (leNat ((List.range n).map fun i => Sparse.get 0 s.core.t.spill (o + i))))) ∧
    (s.cleanS [rd] → (o / 8 ∉ s.core.t.spPois ∨ n = 8) → Sparse.wf 0 s.core.t.spill = true →
      ∃ t, exec (.sps sz rd ra off) s = .next t ∧ t.core.t.pc = nextPc s.core.t.pc 1 ∧ sameBytes s t ∧
        restEqTask s t (fun a b => { a with spill := b.spill, spPois := b.spPois }) ∧
        (∀ i, i < n → Sparse.get 0 t.core.t.spill (o + i) = (leBytes n (s.S rd).toNat).getD i 0) ∧
        (∀ a, (a < o ∨ o + n ≤ a) → Sparse.get 0 t.core.t.spill a = Sparse.get 0 s.core.t.spill a) ∧
        (∀ w, w ∈ t.core.t.spPois ↔ w ∈ s.core.t.spPois ∧ w ≠ o / 8))

/-- Outside a block: PREF completes whatever its operands where no request is held, and every byte of memory reads as before; one that translates and is held waits; INV of a line that translates unpins it, its dirty bytes stay dirty and every other line stays pinned as it was; CLN of a line whose block is not compressed publishes its dirty bytes at their homes, leaves them clean and every other byte alone; after INV.i no instruction cache of the package holds the line (caches whose lines stand in rising order). -/
def Obligations.LineInstructions : Prop :=
  ∀ (s : State) (ra rb : Reg) (off : BitVec 20), s.noBlock →
    ((∀ pa, s.rfHeld pa = false) → ∃ t, exec (.pref ra rb off) s = .next t ∧ t.core.t.pc = nextPc s.core.t.pc 1 ∧ FramePins s t []) ∧
    (s.cleanS [ra] → ∀ s1 x,
      (translate s s.cid (s.S ra + off.signExtend 64) .r (!s.core.t.prv) = (s1, .ok x) → s.rfHeld x.pa = true →
        exec (.pref ra rb off) s = .next ((keepFills s s1).modC fun c => { c with waiting := true })) ∧
      (translate s s.cid (s.S ra + off.signExtend 64) .r (!s.core.t.prv) = (s1, .ok x) → s.rfHeld x.pa = false →
        (∃ t, exec (.inv ra off) s = .next t ∧ t.core.t.pc = nextPc s.core.t.pc 1 ∧ restEqPins s t ∧
          t.core.t.view.pin = Sparse.del s.core.t.view.pin (x.pa / 128) ∧ (∀ r, t.S r = s.S r)) ∧
        (Sparse.find s.mem.comp (x.pa / 512) = none → s.MemOk → Sparse.rising s.core.t.view.dirty = true →
          ∃ t, exec (.cln ra off) s = .next t ∧ t.core.t.pc = nextPc s.core.t.pc 1 ∧ (∀ r, t.S r = s.S r) ∧ t.core.t.sys = s.core.t.sys ∧
            (∀ a, a / 128 = x.pa / 128 → Sparse.find t.core.t.view.dirty a = none ∧
              (s.mappedOut a = false → ∀ b, Sparse.find s.core.t.view.dirty a = some b → t.homeByte a = b)) ∧
            (∀ a, a / 128 ≠ x.pa / 128 → Sparse.find t.core.t.view.dirty a = Sparse.find s.core.t.view.dirty a) ∧
            (∀ a, (a / 128 ≠ x.pa / 128 ∨ Sparse.find s.core.t.view.dirty a = none) → t.homeByte a = s.homeByte a))) ∧
      (translate s s.cid (s.S ra + off.signExtend 64) .x (!s.core.t.prv) = (s1, .ok x) → s.rfHeld x.pa = false →
        (∀ c ∈ s.cores, Sparse.rising c.icache = true) → Sparse.rising s1.core.icache = true →
        ∃ t, exec (.invI ra off) s = .next t ∧ t.core.t.pc = nextPc s.core.t.pc 1 ∧ (∀ r, t.S r = s.S r) ∧ sameBytes s t ∧
          ∀ c ∈ t.cores, Sparse.find c.icache (x.pa / 128) = none))

/-- Outside a block, with no compressed frame, no removed die, no dirty byte that is held, and dirty bytes in rising order: COMMIT writes each dirty byte at its home, leaves every other home alone, no byte dirty, and every byte of the view reading as before; ACQ leaves no line pinned, every dirty byte dirty and every home alone; PHASE.core does the first and then the second. No register but the PC changes. COMMIT and PHASE.core wait while a dirty byte is held. -/
def Obligations.CommitAndAcquire : Prop :=
  ∀ (s : State), s.noBlock →
    (∃ t, exec .acq s = .next t ∧ t.core.t.pc = nextPc s.core.t.pc 1 ∧ restEqPins s t ∧ t.core.t.view.pin = [] ∧
      t.core.t.view.dirty = s.core.t.view.dirty ∧ (∀ r, t.S r = s.S r) ∧ (∀ a, t.homeByte a = s.homeByte a)) ∧
    (s.heldDirty (fun _ => true) = true → waitsAt .commit s ∧ waitsAt (.phase .core) s) ∧
    (s.mem.comp = [] → s.plat.hbmMap = [] → s.heldDirty (fun _ => true) = false → s.MemOk → Sparse.rising s.core.t.view.dirty = true →
      let published (t : State) : Prop := t.core.t.view.dirty = [] ∧ t.core.t.view.whole = [] ∧
        (∀ a, t.homeByte a = (Sparse.find s.core.t.view.dirty a).getD (s.homeByte a)) ∧
        (∀ r, t.S r = s.S r) ∧ t.core.t.sys = s.core.t.sys ∧ t.core.buf = s.core.buf ∧ t.others = s.others ∧ t.ctxs = s.ctxs
      (∃ t, exec .commit s = .next t ∧ t.core.t.pc = nextPc s.core.t.pc 1 ∧ published t ∧ (∀ a, t.viewByte a = s.viewByte a)) ∧
      (∃ t, exec (.phase .core) s = .next t ∧ t.core.t.pc = nextPc s.core.t.pc 1 ∧ published t ∧ t.core.t.view.pin = [] ∧
        (∀ a, t.viewByte a = t.homeByte a)))

/-- Outside a block: FENCE completes when every queue of the core is empty and every collective routed has its number completed, and waits otherwise; TWAIT on a clean register completes when the timeline's completed value has reached it (and with .acq unpins every line), waits while it has not, and traps with ILLOP when the number was never issued; TREAD writes the completed value, or with .iss the issued count; a PHASE wider than the core, no dirty byte of it held, arrives and waits, and completes once it is merged, the lines unpinned; where bytes it published were refused it then traps with the code of the refusal. -/
def Obligations.WaitingInstructions : Prop :=
  ∀ (s : State) (sc : Scope) (ra rd : Reg) (tl : BitVec 8), s.noBlock →
    let q := s.core.t.q
    let T := s.core.t.tls.sel tl
    let landed : Prop := ∀ k : Fin 16, s.core.t.tls.coll[k].i = s.core.t.tls.coll[k].v
    (q.load = [] ∧ q.compute = [] ∧ q.store = [] ∧ landed →
      ∃ t, exec (.fence sc) s = .next t ∧ t.core.t.pc = nextPc s.core.t.pc 1 ∧ Frame s t []) ∧
    ((q.load ≠ [] ∨ q.compute ≠ [] ∨ q.store ≠ [] ∨ ¬ landed) → waitsAt (.fence sc) s) ∧
    (∀ i, writesReg (.tread i rd tl) s rd (if i then T.i else T.v)) ∧
    (s.cleanS [ra] →
      ((s.S ra).toNat ≤ T.v.toNat → (s.S ra).toNat ≤ T.i.toNat →
        (∃ t, exec (.twait false tl ra) s = .next t ∧ t.core.t.pc = nextPc s.core.t.pc 1 ∧ Frame s t []) ∧
        (∃ t, exec (.twait true tl ra) s = .next t ∧ t.core.t.pc = nextPc s.core.t.pc 1 ∧ restEqPins s t ∧ t.core.t.view.pin = [] ∧
          (∀ r, t.S r = s.S r) ∧ ∀ a, t.homeByte a = s.homeByte a)) ∧
      (∀ a, T.v.toNat < (s.S ra).toNat → (s.S ra).toNat ≤ T.i.toNat → waitsAt (.twait a tl ra) s) ∧
      (∀ a, T.i.toNat < (s.S ra).toNat → trapsAt (.twait a tl ra) s cILLOP)) ∧
    (sc ≠ .core → s.core.t.phase = .idle → phaseMember s sc = true → s.heldDirty (fun _ => true) = false →
      ∃ t, exec (.phase sc) s = .next t ∧ t.core.t.pc = s.core.t.pc ∧ t.core.waiting = true ∧ t.core.t.phase = .held sc false 0 ∧
        t.core.t.view.dirty = [] ∧ (∀ a, t.homeByte a = s.homeByte a) ∧ (∀ r, t.S r = s.S r)) ∧
    (sc ≠ .core → s.core.t.phase = .idle → phaseMember s sc = false → trapsAt (.phase sc) s cILLOP) ∧
    (sc ≠ .core → (∃ st r, s.core.t.phase = .merged sc st r) → s.core.t.pend.refused = none → s.core.t.pend.barbrk = false →
      ∃ t, exec (.phase sc) s = .next t ∧ t.core.t.pc = nextPc s.core.t.pc 1 ∧ t.core.t.phase = .idle ∧ t.core.t.view.pin = [] ∧
        (∀ a, t.homeByte a = s.homeByte a) ∧ (∀ r, t.S r = s.S r)) ∧
    (sc ≠ .core → (∃ st r, s.core.t.phase = .merged sc st r) → ∀ c, s.core.t.pend.refused = some c →
      exec (.phase sc) s = .next (takeTrap (.cc c) s.core.t.pc (s.modT fun t => { t with phase := .idle })))

/-- Whatever a translation answers, the registers, the memory, the caches of code and every other part of the state are as before; only the core's TLB, the quads' L2 TLBs, the walk caches and what the base dies record of the access may hold more: a frame whose leaf's compression hint disagrees with its metadata is in the attribute-mismatch log, and only a write changes under which key its line was written. An address beyond 57 bits answers PAGE at level 4. When a frame enters the attribute log is the model's reading (log entry 37, from R177). -/
def Obligations.TranslationLeavesTheMachine : Prop :=
  ∀ (s : State) (ctx : BitVec 12) (va : Word) (a : Acc) (task : Bool),
    let s1 := (translate s ctx va a task).1
    s1 = { s with
      core := { s.core with l1tlb := s1.core.l1tlb },
      mem := { s.mem with l2tlb := s1.mem.l2tlb, wcache := s1.mem.wcache, attlog := s1.mem.attlog, sealed := s1.mem.sealed } } ∧
    (∀ x, (translate s ctx va a task).2 = .ok x →
      (∀ f, f ∈ s1.mem.attlog ↔ f ∈ s.mem.attlog ∨ (f = x.pa / 4096 ∧ decide (pteCmp x.leaf = 1) ≠ s.isCompressed (x.pa / 512))) ∧
      (a ≠ .w → s1.mem.sealed = s.mem.sealed)) ∧
    (2 ^ 57 ≤ va.toNat → translate s ctx va a task = (s, .error (cPAGE, 4)))

/-- Outside a block and with neither record nor replay on: MFSR writes FPST, FPEN, CTXID, CORENO, PTROOT, SHDSZ, TLNBASE, the flash windows, the quotas, PKEY, PODID, CLOGB, TSTAT, RNGBASE, DIESET and LNKDROP at every level, and at system level the trap and context registers TVEC, TPC, TCAUSE, TUPC, TTL, TVA, the scratch registers, DBGST and the log registers, which at task level raise PRIV; nothing but RD and the PC changes; TEMPQ and VOLTQ of the core's quad answer what the monitors show. A number no chapter assigns raises ILLOP. -/
def Obligations.SystemRegisterReads : Prop :=
  ∀ (s : State) (rd : Reg), s.noBlock → s.noLog →
    let y := s.core.t.sys
    let x := s.cx
    (∀ p ∈ [(0x000, y.fpst), (0x001, y.fpen), (0x008, s.cid.setWidth 64), (0x009, s.core.phys.setWidth 64 * 256 + s.core.t.id.logi.setWidth 64),
        (0x010, x.ptroot), (0x011, x.shdsz), (0x012, x.tlnbase), (0x018, x.flw[0]), (0x019, x.flw[1]), (0x01A, x.flw[2]), (0x01B, x.flw[3]),
        (0x01C, x.qhbm), (0x01D, x.qcxl), (0x01E, x.qflash), (0x020, x.pkey), (0x021, s.plat.podid), (0x022, x.clogb),
        (0x200, s.core.t.id.tstat), (0x201, x.rngbase), (0x202, y.dieset), (0x203, s.sched.prethr), (0x330, s.plat.lnkdrop)],
      writesReg (.mfsr rd (BitVec.ofNat 12 p.1)) s rd p.2) ∧
    (∀ p ∈ [(0x100, x.tvec), (0x101, y.tpc), (0x102, y.tcause), (0x103, y.tupc), (0x104, y.ttl), (0x105, y.tva), (0x106, s.core.tcs),
        (0x108, y.tscr[0]), (0x109, y.tscr[1]), (0x10A, y.tscr[2]), (0x10B, y.tscr[3]), (0x111, s.core.health.dbgst), (0x118, x.rrctl),
        (0x119, x.rrbase), (0x11A, x.rrst)],
      (s.core.t.prv = true → writesReg (.mfsr rd (BitVec.ofNat 12 p.1)) s rd p.2) ∧
      (s.core.t.prv = false → trapsAt (.mfsr rd (BitVec.ofNat 12 p.1)) s cPRIV)) ∧
    (∀ p ∈ [(0x300, s.plat.tempq), (0x301, s.plat.voltq)], ∃ t, exec (.mfsr rd p.1) s = .next t ∧ t.core.t.pc = nextPc s.core.t.pc 1 ∧
      t.S rd = (if rd = 0 then 0 else Sparse.get 0 p.2 (quadOf s.core.phys.toNat)) ∧ (∀ r, r ≠ rd → t.S r = s.S r) ∧ sameBytes s t ∧
      t.core.t.sys = s.core.t.sys ∧ t.core.buf = s.core.buf ∧ t.ctxs = s.ctxs ∧ t.mem = s.mem ∧ t.others = s.others) ∧
    (∀ n : BitVec 12, srAccess n.toNat = none → trapsAt (.mfsr rd n) s cILLOP) ∧
    (∀ n ∈ [0x002, 0x007, 0x00A, 0x015, 0x01F, 0x023, 0x0FF, 0x107, 0x10D, 0x112, 0x11B, 0x1FF, 0x205, 0x304, 0x31C, 0x328, 0x331, 0xFFF],
      srAccess n = none)

/-- At system level, outside a block and with a clean source: MTSR of each writable register makes it read RA's value in its writable bits and zero elsewhere, every other listed register reads as before, and so do all scalar registers and all bytes of memory; RRCTL takes its mode and keeps it where 11 is written, HBMCAP only gains map-out bits, and its capacity falls by 4 for each; EXPMODE takes its bit where the port may switch and keeps it elsewhere; an MTSR to FPST clears the flags whose bits are set, at every level; FPEN may be written at every level, and at task level every other register raises PRIV; CTXID, CORENO and TMODE keep their value. That EXPMODE keeps its bit where the port may not switch is the model's choice (log entry 73). -/
def Obligations.SystemRegisterWrites : Prop :=
  ∀ (s : State) (ra : Reg), s.noBlock → s.cleanS [ra] → s.MemOk → Sparse.rising s.plat.expmode = true → Sparse.rising s.plat.expap = true →
    Sparse.rising s.plat.hbmMap = true →
    (s.core.t.prv = true → ∀ p ∈ writableRegs, ∃ t, exec (.mtsr (BitVec.ofNat 12 p.1) ra) s = .next t ∧
      t.core.t.pc = nextPc s.core.t.pc 1 ∧ (srRead t p.1).1 = s.S ra &&& p.2 ∧ (∀ q ∈ writableRegs, q.1 ≠ p.1 → (srRead t q.1).1 = (srRead s q.1).1) ∧
      (∀ r, t.S r = s.S r) ∧ sameBytes s t) ∧
    (s.core.t.prv = true → ∀ k : Fin 4, ∃ t, exec (.mtsr (BitVec.ofNat 12 (0x320 + k)) ra) s = .next t ∧ t.core.t.pc = nextPc s.core.t.pc 1 ∧
      (srRead t (0x320 + k)).1.getLsbD 0 = (if s.portFree k then (s.S ra).getLsbD 0 else (srRead s (0x320 + k)).1.getLsbD 0) ∧
      (∀ j : Fin 4, j ≠ k → (srRead t (0x320 + j)).1 = (srRead s (0x320 + j)).1) ∧
      (∀ q ∈ writableRegs, (srRead t q.1).1 = (srRead s q.1).1) ∧ (∀ r, t.S r = s.S r) ∧ sameBytes s t) ∧
    (s.core.t.prv = true → ∃ t, exec (.mtsr 0x118 ra) s = .next t ∧ t.core.t.pc = nextPc s.core.t.pc 1 ∧
      (srRead t 0x118).1 = (if (s.S ra).extractLsb' 0 2 = 3 then (srRead s 0x118).1 else s.S ra &&& 3) ∧
      (∀ q ∈ writableRegs, (srRead t q.1).1 = (srRead s q.1).1) ∧ (∀ r, t.S r = s.S r) ∧ sameBytes s t) ∧
    (s.core.t.prv = true → ∀ k : Fin 12, ∃ t, exec (.mtsr (BitVec.ofNat 12 (0x310 + k)) ra) s = .next t ∧ t.core.t.pc = nextPc s.core.t.pc 1 ∧
      (let m : BitVec 16 := (srRead s (0x310 + k)).1.extractLsb' 16 16 ||| (s.S ra).extractLsb' 16 16
       (srRead t (0x310 + k)).1 = BitVec.ofNat 64 (m.toNat * 65536 + (64 - 4 * (List.range 16).countP fun d => m.getLsbD d))) ∧
      (∀ j : Fin 12, j ≠ k → (srRead t (0x310 + j)).1 = (srRead s (0x310 + j)).1) ∧
      (∀ q ∈ writableRegs, (srRead t q.1).1 = (srRead s q.1).1) ∧ (∀ r, t.S r = s.S r) ∧ sameBytes s t) ∧
    (∃ t, exec (.mtsr 0x000 ra) s = .next t ∧ t.core.t.sys.fpst = s.core.t.sys.fpst &&& ~~~s.S ra ∧ t.core.t.pc = nextPc s.core.t.pc 1 ∧
      restEqTask s t (fun a b => { a with sys := { a.sys with fpst := b.sys.fpst } })) ∧
    (∃ t, exec (.mtsr 0x001 ra) s = .next t ∧ t.core.t.sys.fpen = s.S ra &&& 0x1F1F1F#64 ∧ t.core.t.pc = nextPc s.core.t.pc 1 ∧
      restEqTask s t (fun a b => { a with sys := { a.sys with fpen := b.sys.fpen } })) ∧
    (s.core.t.prv = true → ∀ n ∈ [0x008, 0x009, 0x013], ∃ t, exec (.mtsr n ra) s = .next t ∧ t.core.t.pc = nextPc s.core.t.pc 1 ∧ Frame s t []) ∧
    (s.core.t.prv = false → ∀ p ∈ writableRegs, p.1 ≠ 0x001 → trapsAt (.mtsr (BitVec.ofNat 12 p.1) ra) s cPRIV) ∧
    (s.core.t.prv = false → (∀ k : Fin 4, trapsAt (.mtsr (BitVec.ofNat 12 (0x320 + k)) ra) s cPRIV) ∧ trapsAt (.mtsr 0x118 ra) s cPRIV ∧
      ∀ k : Fin 12, trapsAt (.mtsr (BitVec.ofNat 12 (0x310 + k)) ra) s cPRIV)

/-- Outside a block and with a clean source, each TLBI form (.cid and .all at system level) completes: it is noted and changes nothing else. A TLBFENCE of each scope completes with no entry that a noted TLBI names in any structure of R151's table for its scope (the L1 TLBs of the cores in scope; the L2 TLBs of the quad, of each quad of the die, or of each quad of the package; the die's walk cache, or each die's), no walk-cache entry of the issuing context there, and every TLB entry that no noted TLBI names kept, in every L1 and L2 TLB; after TLBFENCE.pkg nothing is noted; registers and memory are as before. TLBI.cid of a number above 12 bits raises ILLOP. That a fence of any scope applies every noted invalidation is the model's choice (log entry 32). -/
def Obligations.InvalidationAndFence : Prop :=
  ∀ (s : State) (ra : Reg) (sc : Scope), s.noBlock →
    let noted (i : Instr) (l : Tlbi) : Prop := ∃ t, exec i s = .next t ∧ t.core.t.pc = nextPc s.core.t.pc 1 ∧ t.core.tlbi = s.core.tlbi ++ [l] ∧
      t = { s with core := { s.core with tlbi := t.core.tlbi, waiting := t.core.waiting, entry := t.core.entry, t := { s.core.t with pc := t.core.t.pc } } }
    (s.cleanS [ra] → noted (.tlbiVa ra) ⟨some s.cid, some (s.S ra)⟩) ∧ noted .tlbiCtx ⟨some s.cid, none⟩ ∧
    (s.core.t.prv = true → noted .tlbiAll ⟨none, none⟩ ∧
      (s.cleanS [ra] → (s.S ra).toNat < 4096 → noted (.tlbiCid ra) ⟨some ((s.S ra).setWidth 12), none⟩) ∧
      (s.cleanS [ra] → 4096 ≤ (s.S ra).toNat → trapsAt (.tlbiCid ra) s cILLOP)) ∧
    (∃ t, exec (.tlbfence sc) s = .next t ∧ t.core.t.pc = nextPc s.core.t.pc 1 ∧ (∀ r, t.S r = s.S r) ∧ sameBytes s t ∧
      (∀ c ∈ t.cores, scopeSpans sc s.core.phys.toNat c.phys.toNat = true → ∀ e ∈ c.l1tlb, ∀ i ∈ s.core.tlbi, i.hits e = false) ∧
      (∀ e ∈ s.core.l1tlb, (∀ i ∈ s.core.tlbi, i.hits e = false) → e ∈ t.core.l1tlb) ∧ (∀ e ∈ t.core.l1tlb, e ∈ s.core.l1tlb) ∧
      (∀ c ∈ s.others, ∀ e ∈ c.2.l1tlb, (∀ i ∈ s.core.tlbi, i.hits e = false) → ∃ d ∈ t.others, d.1 = c.1 ∧ e ∈ d.2.l1tlb) ∧
      (∀ q ∈ t.mem.l2tlb, quadSpans sc s.core.phys.toNat q.1 = true → ∀ e ∈ q.2, ∀ i ∈ s.core.tlbi, i.hits e = false) ∧
      (∀ q ∈ s.mem.l2tlb, ∀ e ∈ q.2, (∀ i ∈ s.core.tlbi, i.hits e = false) → ∃ p ∈ t.mem.l2tlb, p.1 = q.1 ∧ e ∈ p.2) ∧
      (∀ d ∈ t.mem.wcache, dieSpans sc s.core.phys.toNat d.1 = true →
        ∀ w ∈ d.2, w.ctx ≠ s.cid ∧ ∀ i ∈ s.core.tlbi, i.hitsWc w = false) ∧
      (sc = .pkg → t.core.tlbi = []) ∧
      t.core.t.sys = s.core.t.sys ∧ t.core.buf = s.core.buf ∧ t.ctxs = s.ctxs ∧ t.sched = s.sched ∧ t.host = s.host)

/-- Outside a block and with a clean source, PROBE of each kind completes: where the translation succeeds, bit 63 of RD is clear and RD holds the key slot, the page's address, the entry's size, class, compression attribute and permission bits in their places; where it fails, RD holds bit 63, the code in bits 15 to 8 and the level, and no fault is raised; only POISON of a page-table entry traps. Nothing but RD, the PC and the translation structures changes. -/
def Obligations.ProbeAnswersTheTranslation : Prop :=
  ∀ (s s1 : State) (a : Acc) (rd ra : Reg), s.noBlock → s.cleanS [ra] →
    (∀ x, translate s s.cid (s.S ra) a (!s.core.t.prv) = (s1, .ok x) → x.pa < 2 ^ 52 →
      ∃ t v, exec (.probe a rd ra) s = .next t ∧ MovesTo s t (nextPc s.core.t.pc 1) [rd] ∧ t.mem.attlog = s.mem.attlog ∧ t.mem.sealed = s.mem.sealed ∧ t.S rd = (if rd = 0 then 0 else v) ∧
        v.getLsbD 63 = false ∧ (v.extractLsb' 52 8).toNat = pteKey x.leaf ∧ (v.extractLsb' 12 40).toNat = x.pa / 4096 ∧
        v.extractLsb' 10 2 = x.size ∧ (v.extractLsb' 8 2).toNat = pteCls x.leaf ∧ (v.extractLsb' 6 2).toNat = pteCmp x.leaf ∧
        v.getLsbD 5 = pteT x.leaf ∧ v.getLsbD 4 = pteX x.leaf ∧ v.getLsbD 3 = pteW x.leaf ∧ v.getLsbD 2 = pteR x.leaf ∧ v.extractLsb' 0 2 = 0) ∧
    (∀ c l, translate s s.cid (s.S ra) a (!s.core.t.prv) = (s1, .error (c, l)) →
      (c ≠ cPOISON → ∃ t, exec (.probe a rd ra) s = .next t ∧ MovesTo s t (nextPc s.core.t.pc 1) [rd] ∧ t.mem.attlog = s.mem.attlog ∧ t.mem.sealed = s.mem.sealed ∧
        t.S rd = if rd = 0 then 0 else BitVec.ofNat 64 (2 ^ 63 + 256 * c.toNat + l)) ∧
      (c = cPOISON → trapsAt (.probe a rd ra) s cPOISON))

/-- Outside a block and with clean sources: RDCYC writes the cycles since core reset, or with .task those the task has held a core (with neither record nor replay on); RFHINT declares the interval of A cycles from now, or raises ILLOP above 32 bits; at system level KEYSEL installs the 64 bytes at an aligned address of a direct page without errors as the key record of slot A, KEYSEL.clr empties the slot, both leaving every other slot alone and raising ILLOP for slot 0 or beyond 255; MODE writes the quad's mode in force to RD and assigns the quad to A[0], or raises ILLOP above one bit. No other register and no memory changes, but that KEYSEL may change the bytes of lines written under another key of its slot. Which bytes a new key changes is the model's choice (log entry 36). -/
def Obligations.CyclesHintsKeysAndModes : Prop :=
  ∀ (s : State) (rd ra rb : Reg), s.noBlock → s.cleanS [ra, rb] →
    let a := s.S ra
    let b := s.S rb
    (s.noLog → writesReg (.rdcyc false rd) s rd (BitVec.ofNat 64 (s.now - s.core.resetAt)) ∧
      writesReg (.rdcyc true rd) s rd (BitVec.ofNat 64 (s.core.t.cycles + (s.now - s.core.csince)))) ∧
    (a.toNat < 2 ^ 32 → ∃ t, exec (.rfhint ra) s = .next t ∧ t.core.t.pc = nextPc s.core.t.pc 1 ∧ t.core.rfFrom = s.now ∧
      t.core.rfUntil = s.now + a.toNat ∧ (∀ r, t.S r = s.S r) ∧ sameBytes s t ∧ t.mem = s.mem) ∧
    (2 ^ 32 ≤ a.toNat → trapsAt (.rfhint ra) s cILLOP) ∧
    (s.core.t.prv = true →
      (a = 0 ∨ 256 ≤ a.toNat → trapsAt (.keysel ra rb) s cILLOP ∧ trapsAt (.keyselClr ra) s cILLOP) ∧
      (1 ≤ a.toNat → a.toNat < 256 →
        (Sparse.rising s.mem.keys = true → ∃ t, exec (.keyselClr ra) s = .next t ∧ t.core.t.pc = nextPc s.core.t.pc 1 ∧ (∀ r, t.S r = s.S r) ∧ sameBytes s t ∧
          Sparse.find t.mem.keys a.toNat = none ∧ ∀ n, n ≠ a.toNat → Sparse.find t.mem.keys n = Sparse.find s.mem.keys n) ∧
        (b.toNat % 64 ≠ 0 → trapsAt (.keysel ra rb) s cALIGN) ∧
        (∀ s1 x, b.toNat % 64 = 0 → translate s s.cid b .r false = (s1, .ok x) → s.rfHeld x.pa = false →
          (x.cls ≠ 1 → trapsAt (.keysel ra rb) s cPROT) ∧
          (x.cls = 1 → s.homeFail x.pa 64 = false → s.homePoisN x.pa 64 = false →
            let key : BitVec 512 := BitVec.ofNat 512 (leNat ((List.range 64).map fun i => s.homeByte (x.pa + i)))
            s.MemOk → ∃ t, exec (.keysel ra rb) s = .next t ∧ t.core.t.pc = nextPc s.core.t.pc 1 ∧ (∀ r, t.S r = s.S r) ∧
              (∀ m, (∀ p ∈ s.mem.sealed, p.1 = m / 128 → p.2.1 = a.toNat → p.2.2 = key) → t.homeByte m = s.homeByte m ∧ t.viewByte m = s.viewByte m) ∧
              Sparse.find t.mem.keys a.toNat = some key ∧
              ∀ n, n ≠ a.toNat → Sparse.find t.mem.keys n = Sparse.find s.mem.keys n))) ∧
      (2 ≤ a.toNat → trapsAt (.mode rd ra) s cILLOP) ∧
      (a.toNat < 2 → Sparse.wf 0 s.mem.tmode = true → ∃ t, exec (.mode rd ra) s = .next t ∧ t.core.t.pc = nextPc s.core.t.pc 1 ∧ sameBytes s t ∧
        (∀ r, r ≠ rd → t.S r = s.S r) ∧
        t.S rd = (if rd = 0 then 0 else if (s.tmode (quadOf s.core.phys.toNat)).getLsbD 0 then 1 else 0) ∧
        (t.tmode (quadOf s.core.phys.toNat)).getLsbD 1 = a.getLsbD 0 ∧
        (t.tmode (quadOf s.core.phys.toNat)).getLsbD 0 = (s.tmode (quadOf s.core.phys.toNat)).getLsbD 0 ∧
        ∀ q, q ≠ quadOf s.core.phys.toNat → t.tmode q = s.tmode q))

/-- At task level each privileged instruction (TLBI.cid, TLBI.all, KEYSEL, MODE, ERET, CTXSV, CTXRS, HALT, CRST, MCHKQ.clr) traps with PRIV, whether or not a block is open, or with ILLOP, the one lower code; with PRIV and no effect where its operands meet no ILLOP. At system level each instruction of classes 2, 3, 12, 13 and 14 that no queue executes, TIERQ and AFLG traps while a block is open, and outside system level those of them that are not privileged: with BLKOP and no effect, or with a fault of its own that has a lower code; those that can raise none (PREF, ACQ, FENCE, TREAD, TLBI.va, TLBI.ctx, TLBFENCE, RDCYC, AFLG, CDIG.clr, CSTAT.tl, YIELD, TRAP, BRK, MCHKQ of a counter; COMMIT and PHASE.core where no byte would be refused) with BLKOP. That PRIV comes before BLKOP is the model's reading (log entry 10). -/
def Obligations.PrivilegeAndBlockChecks : Prop :=
  ∀ (s : State) (i : Instr),
    (s.core.t.prv = false → privilegedOnly i = true → forbiddenAs i s cPRIV) ∧
    (s.core.t.prv = false → ∀ (rd ra rb : Reg) (sel : BitVec 4) (nb : Bool),
      let priv (i : Instr) : Prop := exec i s = .next (takeTrap (.cc cPRIV) s.core.t.pc s)
      priv .tlbiAll ∧ ((s.S ra).toNat < 4096 → priv (.tlbiCid ra)) ∧
      (s.S ra ≠ 0 → (s.S ra).toNat < 256 → priv (.keysel ra rb) ∧ priv (.keyselClr ra)) ∧
      ((s.S ra).toNat < 2 → priv (.mode rd ra)) ∧ ((s.S ra).toNat < 256 → priv (.halt ra)) ∧
      ((s.S ra).toNat < 256 → (s.S ra).toNat ≠ s.core.phys.toNat → priv (.crst ra)) ∧ (sel.toNat < 6 → priv (.mchkq true rd sel)) ∧
      (s.core.t.sys.inTrap = true → priv .eret ∧ priv .eretKill ∧ priv (.ctxsv nb ra rb) ∧ priv (.ctxrs ra rb))) ∧
    (s.core.t.blk.isSome = true → controlOnly i = true → (s.core.t.prv = true ∨ privilegedOnly i = false) → forbiddenAs i s cBLKOP) ∧
    (s.core.t.blk.isSome = true → ∀ (rd ra rb : Reg) (off : BitVec 20) (sc : Scope) (b c : Bool) (tl : BitVec 8) (k sel : BitVec 4) (n : BitVec 16),
      let blkop (i : Instr) : Prop := exec i s = .next (takeTrap (.cc cBLKOP) s.core.t.pc s)
      blkop (.pref ra rb off) ∧ (s.commit.2 = none → blkop .commit ∧ blkop (.phase .core)) ∧ blkop .acq ∧ blkop (.fence sc) ∧ blkop (.tread b rd tl) ∧
      blkop (.tlbiVa ra) ∧ blkop .tlbiCtx ∧ blkop (.tlbfence sc) ∧ blkop (.rdcyc b rd) ∧ blkop (.aflg c rd) ∧ blkop .cdigClr ∧
      blkop (.cstatTl rd k) ∧ blkop .yield ∧ blkop (.trap n) ∧ blkop (.brk n) ∧ (sel.toNat < 6 → blkop (.mchkq false rd sel)))

/-- Every instruction that R15 gives a queue (load queue: trvlIn, trvsIn, copyIn, fillIn, gthr, fard; store queue: trvlOut, trvsOut, copyOut, fillOut, sctr, cmpx, awr, awrT, axch, acas, chsendFw, chsendRv, coll; compute queue: cvt, cvts, qntw, dqw, retag, retagDsc, tagget, tagchk, scalex, vrun, vruna, lnx, lnr, mma, mzero, mzeroCb, mswap, mst, mcks, mckv, mfix, mtm, mte, wgrp, sxf, sxi, scmac, scmul, sconj, sdom, sexp, rpush, rpushSpl, gzero), where the open block or its absence admits it and its scalar and descriptor operands and its policy are clean: with an entry free in its queue it completes at once: the command stands last in the queue with the captured registers, its number is one more than its timeline's issued count, which counts it (TL.X too for a residual it will push, and the channel of a COLL), V and the other queues stay, the PC moves past its granules, a block marks it, and no other register, flag, buffer or byte of memory changes, but that RETAG.dsc replaces the tag of its descriptor; with the queue full it waits. With a reserved bit in its policy it traps with ILLOP; else, not admitted, with BLKOP; else, with an operand that holds an uncorrectable error, with POISON. The BLKOP of an MST.df at routing and what FARD captures there are the model's readings (log entries 51 and 67). -/
def Obligations.QueueRouting : Prop :=
  ∀ (s : State) (i : Instr) (q : QName), queueOf i = some q →
    let clean : Prop := s.cleanS (regsOf i) ∧ s.cleanD (routeDescs i)
    (badPolicy s i → trapsAt i s cILLOP) ∧
    (¬ badPolicy s i →
      (s.admits i = false → trapsAt i s cBLKOP) ∧
      (s.admits i = true → ¬ clean → trapsAt i s cPOISON) ∧
      (s.admits i = true → clean →
        (s.queueRoom q = true → ∃ t, exec i s = .next t ∧ Routed s t i q) ∧ (s.queueRoom q = false → waitsAt i s)))

/-- Where everything lets the command at a queue's head issue (engines running, the checker agreed, earlier commands issued, room, pops satisfied, no tile open), QUEUE_HEAD_ISSUE takes both pops at once, marks it issued and performs it, and nothing else changes: TRVL.in sets the level's extent and strides and leaves the other levels, an extent of 0 or above 2^24 stopping it with ILLOP; TRVS.in sets the origins, bounds and mode; RETAG replaces the vector register's tag only; TAGGET writes the tag as two bytes of spill memory, or stops with ALIGN at an odd offset; TAGCHK passes where the compared bits are equal and stops with TAGMIS where not; MZERO clears the working accumulator and arms its checks; WGRP sets ASX; MTM opens the tile with the checkpoint when every earlier array command has completed; MTE outside a tile stops with ILLOP. Where the checker has not agreed or a pop has to wait, and the command is no speculative atomic, nothing happens; nor while the engines are stopped (but for a copy that a halt lets run out) or the queue is empty. That a command performs in the step in which it issues, and that TAGGET raises ALIGN at the queue head, are the model's choices (log entries 14 and 74). -/
def Obligations.QueueHeadIssue : Prop :=
  ∀ (s : State) (q : QName) (k : Cmd),
    let issued (f : Task → Task) (g : Cmd → Cmd) : Prop := exec (.queueHeadIssue q) s = .next (headEnd s q k f g)
    (enginesRun s = false → s.runsOut q = false → exec (.queueHeadIssue q) s = .next s) ∧ (headOf s.core.t q = none → exec (.queueHeadIssue q) s = .next s) ∧
    (headOf s.core.t q = some k → k.issued = false → (k.compared = false ∨ s.core.t.toks.canPop q k.tok = false) → isSpec k.instr = false →
      exec (.queueHeadIssue q) s = .next s) ∧
    (HeadReady s q k → s.MemOk →
      (∀ tk (l : Fin 6) ra ss ds a, q = .load → k.instr = .trvlIn tk (BitVec.ofNat 3 l.val) ra ss ds → k.vals = [a] →
        (1 ≤ a.toNat → a.toNat ≤ 2 ^ 24 → ∃ T : Traverse, issued (fun t => { t with tin := T }) doneCmd ∧
          T.n[l] = a.setWidth 32 ∧ T.ss[l] = ss ∧ T.ds[l] = ds ∧ T.o = s.core.t.tin.o ∧ T.b = s.core.t.tin.b ∧ T.mode = s.core.t.tin.mode ∧
          ∀ m : Fin 6, m ≠ l → T.n[m] = s.core.t.tin.n[m] ∧ T.ss[m] = s.core.t.tin.ss[m] ∧ T.ds[m] = s.core.t.tin.ds[m]) ∧
        ((a = 0 ∨ 2 ^ 24 < a.toNat) → issued id (stoppedCmd q cILLOP))) ∧
      (∀ tk m ra rb rc (b : Bounds) x y z, q = .load → k.instr = .trvsIn tk m ra rb rc b → k.vals = [x, y, z] →
        issued (fun t => { t with tin := { t.tin with
          mode := m, b := #v[b.b0, b.b1, b.b2, b.b3, b.b4, b.b5],
          o := #v[x.setWidth 32, x.extractLsb' 32 32, y.setWidth 32, y.extractLsb' 32 32, z.setWidth 32, z.extractLsb' 32 32] } }) doneCmd) ∧
      (∀ tk v tag, q = .compute → k.instr = .retag tk v tag →
        issued (fun t => { t with regs := { t.regs with v := t.regs.v.set v.toNat { t.regs.v[v.toNat] with tag := tag } } }) doneCmd) ∧
      (∀ tk v off, q = .compute → k.instr = .tagget tk v off →
        (off.toNat % 2 = 0 →
          issued (fun t => { t with spill := writeBytes t.spill off.toNat (leBytes 2 t.regs.v[v.toNat].tag.toNat) }) doneCmd) ∧
        (off.toNat % 2 = 1 → issued id (stoppedCmd q cALIGN))) ∧
      (∀ tk noexp v tag, q = .compute → k.instr = .tagchk tk noexp (.v v) tag →
        let bits : Nat := if noexp then 11 else 16
        ((s.V v).tag.toNat % 2 ^ bits = tag.toNat % 2 ^ bits → issued id doneCmd) ∧
        ((s.V v).tag.toNat % 2 ^ bits ≠ tag.toNat % 2 ^ bits → issued id (stoppedCmd q cTAGMIS))) ∧
      (∀ tk a, q = .compute → k.instr = .mzero tk a →
        let zero (x : Accum) : Accum := { x with work := [], wpois := [], wtag := 0x000B, chk := ⟨true, [], [], [], [], false, 0, 0⟩ }
        issued (fun t => if a then { t with acc1 := zero t.acc1 } else { t with acc0 := zero t.acc0 }) doneCmd) ∧
      (∀ tk a n, q = .compute → k.instr = .wgrp tk a n →
        issued (fun t => if a then { t with acc1 := { t.acc1 with asx := n } } else { t with acc0 := { t.acc0 with asx := n } }) doneCmd) ∧
      (∀ tk, q = .compute → k.instr = .mtm tk →
        (∀ c ∈ s.core.t.q.compute, isArray c.instr = true → c.num.toNat < k.num.toNat → c.pushed = true) →
        issued (fun t => { t with tile := ⟨true, k.num, false, 0, t.acc0, t.acc1⟩ }) doneCmd) ∧
      (∀ tk, q = .compute → k.instr = .mte tk → issued id (stoppedCmd q cILLOP)))

/-- Where the engines of a running task run and the oldest command of a queue is done outside any block, no frame waits and no tile is open: with room for its pushes COMMAND_COMPLETE, and HELD_PUSH_RELEASE, push all of them, V of its timeline becomes its number, its status is kept, it leaves the queue, and the other queues and every register stay (no memory changes where the task has no timeline area); a COLL pushes none then, its tokens waiting for its channel number; without room its pushes are held: nothing changes where no later command that is done has room either, and the next one that is done and has room pushes its own, V and the queue's order staying. MTE_RETIRE with every command of the open tile done pushes all their tokens together, V passes them all, and the tile is closed. TILE_REPLAY restores the working state from the checkpoint, counts the replay and leaves a core with no replay due alone. The order of a tile's pushes is the model's reading (log entry 17). -/
def Obligations.CommandsComplete : Prop :=
  ∀ (s : State),
    (∀ (q : QName) (k : Cmd) (l : List Cmd), enginesRun s = true → s.core.running = true → s.core.t.q.get q = k :: l → k.done = true → k.pushed = false → k.fault = none →
      k.blk = none → s.core.t.frames = [] → s.core.t.tile.opened = false → (∀ c ∈ l, c.pushed = false ∧ c.num ≠ k.num) →
      (s.core.t.toks.canPush q (pushTok k) = true → ∀ i ∈ [Instr.commandComplete q, Instr.heldPushRelease q], ∃ t, exec i s = .next t ∧
        t.core.t.toks = s.core.t.toks.push q (pushTok k) ∧ (∀ n, collOf k.instr = some n → t.core.t.toks = s.core.t.toks) ∧ t.core.t.tls.get q = ⟨(s.core.t.tls.get q).i, k.num⟩ ∧ t.core.t.q.get q = l ∧
        (∀ p, p ≠ q → t.core.t.q.get p = s.core.t.q.get p ∧ t.core.t.tls.get p = s.core.t.tls.get p) ∧ t.core.t.regs = s.core.t.regs ∧
        t.core.t.pc = s.core.t.pc ∧ t.core.buf = s.core.buf ∧ t.core.t.sys = s.core.t.sys ∧
        (q = .load → Sparse.wf 0 s.core.t.statL = true → Sparse.get 0 t.core.t.statL k.num.toNat = k.status) ∧
        (q = .store → Sparse.wf 0 s.core.t.statS = true → Sparse.get 0 t.core.t.statS k.num.toNat = k.status) ∧
        (s.cx.tlnbase &&& 0x01FFFFFFFFFFE000#64 = 0 → sameBytes s t)) ∧
      (s.core.t.toks.canPush q (pushTok k) = false →
        ((∀ c ∈ l, c.done = true → c.fault = none → c.blk = none ∧ s.core.t.toks.canPush q (pushTok c) = false) →
          exec (.commandComplete q) s = .next s ∧ exec (.heldPushRelease q) s = .next s) ∧
        (∀ l1 c l2, l = l1 ++ c :: l2 → (∀ b ∈ l1, b.done = false) → c.done = true → c.fault = none → c.blk = none →
          (∀ b ∈ l1 ++ l2, b.num ≠ c.num) → s.core.t.toks.canPush q (pushTok c) = true →
          ∃ t, exec (.commandComplete q) s = .next t ∧ t.core.t.toks = s.core.t.toks.push q (pushTok c) ∧ t.core.t.tls = s.core.t.tls ∧
            t.core.t.q.get q = k :: l1 ++ { c with pushed := true } :: l2 ∧ t.core.t.regs = s.core.t.regs ∧ t.mem = s.mem))) ∧
    (∀ (tk : Tokens) (e z : Cmd), enginesRun s = true → s.core.running = true → s.core.t.tile.opened = true → s.core.t.tile.want = false → s.core.t.frames = [] →
      (∀ k ∈ s.core.t.q.compute, isArray k.instr = true ∧ k.done = true ∧ k.pushed = false ∧ k.fault = none ∧ k.blk = none ∧
        s.core.t.tile.num.toNat ≤ k.num.toNat ∧ k.num.toNat ≤ e.num.toNat) →
      e ∈ s.core.t.q.compute → (∃ b, e.instr = .mte b) → s.core.t.q.compute.getLast? = some z → pushAll s.core.t.q.compute s.core.t.toks = some tk →
      ∃ t, exec .mteRetire s = .next t ∧ t.core.t.toks = tk ∧ t.core.t.q.compute = [] ∧ t.core.t.tls.c = ⟨s.core.t.tls.c.i, z.num⟩ ∧
        t.core.t.tile.opened = false ∧ t.core.t.tile.replays = 0 ∧ t.core.t.acc0 = s.core.t.acc0 ∧ t.core.t.acc1 = s.core.t.acc1 ∧
        t.core.t.regs = s.core.t.regs ∧ t.core.t.pc = s.core.t.pc) ∧
    (s.core.running = true → s.core.t.tile.opened = true → s.core.t.tile.want = true → ∃ t, exec .tileReplay s = .next t ∧
      t.core.t.acc0 = { s.core.t.tile.ck0 with vtag := s.core.t.acc0.vtag } ∧ t.core.t.acc1 = { s.core.t.tile.ck1 with vtag := s.core.t.acc1.vtag } ∧
      t.core.t.tile.replays = 1 ∧ t.core.t.tile.want = false ∧ t.core.t.regs = s.core.t.regs ∧ t.mem = s.mem ∧ t.core.buf = s.core.buf ∧
      (s.core.health.cnt[2].toNat + 1 < 2 ^ 64 → t.core.health.cnt[2] = s.core.health.cnt[2] + 1)) ∧
    (s.core.t.tile.want = false → exec .tileReplay s = .next s) ∧ (s.core.t.tile.opened = false → exec .mteRetire s = .next s)

/-- FETCH_LINE, LINE_REFETCH and PAGE_WALK change nothing but the translation structures, the attribute-mismatch log and the instruction cache; a line whose translation succeeds, whose home delivers it clean and whose checks pass is then cached, a walk that ends at a leaf installs it. Without a running program, or while a result is due, BUNDLE_ISSUE does nothing. A fetched, well-formed bundle without slots, or whose stage is off, only counts in BC and moves the micro-PC on. Of one with one slot and no fault: an A or B slot leaves a pending write of every element that its mask makes active, the result of its operation (R222), of VSEL, VRED, VWMUL and VDOT4 as their rules say, VCMP one of mask bits, with the tag, the latency and the flags; where its operands fault, no register changes. VLD, VLDS and VGTH leave the bytes of AB, WB or spill memory at their elements' addresses, VST writes them, and a global access does what the shared read and write give. VPERM, VBCAST, KOP, VMOVS and VLOOP do what R231 and R232 say. The integer operations are exact, then wrapped or clamped; the float ones are rounded once. RESULT_LANDING merges a vector register's due result with the bits it keeps, sets the tag and its flags, and leaves every other register. -/
def Obligations.FetchAndVectorEvents : Prop :=
  (∀ (s : State) (va : Word),
    (∀ i ∈ [Instr.fetchLine va, Instr.lineRefetch va, Instr.pageWalk va], ∃ t, exec i s = .next t ∧ onlyFills s t) ∧
    (∀ s1 x, s.core.running = true → translate s s.cid va .x (!s.core.t.prv) = (s1, .ok x) → s.rfHeld x.pa = false → Sparse.find s1.core.icache (x.pa / 128) = none →
      s1.homePoisN (128 * (x.pa / 128)) 128 = false → s1.homeFail (128 * (x.pa / 128)) 128 = false → lineBad (s.homeLine (x.pa / 128)) = false →
      s.core.icache.length < Config.icacheLines →
      ∀ i ∈ [Instr.fetchLine va, Instr.lineRefetch va], ∃ t, exec i s = .next t ∧
        Sparse.find t.core.icache (x.pa / 128) = some (s.homeLine (x.pa / 128))) ∧
    (∀ s1 e, s.core.running = true → va.toNat < 2 ^ 57 → lookup s s.cid va.toNat = (s1, .ok e) →
      ∃ t, exec (.pageWalk va) s = .next t ∧ e ∈ t.core.l1tlb ∧ e ∈ Sparse.get [] t.mem.l2tlb (quadOf s.core.phys.toNat)) ∧
    ((s.running = none ∨ (∃ p ∈ s.vec.pend, p.left = 0)) → exec .bundleIssue s = .next s) ∧
    (∀ k p rest, enginesRun s = true → s.running = some k → k.ph = 1 → s.vec.pend = p :: rest → p.left = 0 → p.isMask = false →
      ∃ t, exec .resultLanding s = .next t ∧ (t.V p.reg).data = ((s.V p.reg).data &&& p.keep) ||| p.data ∧ (t.V p.reg).tag = p.tag.getD (s.V p.reg).tag ∧
        (∀ r, r ≠ p.reg → t.V r = s.V r) ∧ t.core.t.vec.pend = rest ∧ t.core.t.sys.fpst = s.core.t.sys.fpst ||| p.flags.setWidth 64 ∧
        (∀ r, t.S r = s.S r) ∧ sameBytes s t)) ∧
  (∀ (s s1 : State) (k : Cmd) (b : BitVec 256), BundleReady s s1 k b →
    -- no slot performs
    (((∀ n, n < 4 → bPres b n = false) ∨ ¬ stageOn s b ∧ ¬ (bPres b 3 = true ∧ (csOf (slotC b)).opc = 4)) →
      ∃ t, exec .bundleIssue s = .next t ∧ Issued s s t k b [] (k.upc + 1) false ∧ sameBytes s t ∧
        (s.vec.pend = [] → ∀ c ∈ t.core.t.q.compute, c.num = k.num → c.done = bLast b)) ∧
    -- the A or the B slot
    (∀ n w, stageOn s b → (n, w) ∈ [(1, slotA b), (2, slotB b)] → onlySlot b n →
      (abFaults s w ≠ [] → ∃ t, exec .bundleIssue s = .next t ∧ t.core.t.regs = s.core.t.regs ∧ t.vec.pend = s.vec.pend ∧ t.vec.bc = s.vec.bc ∧
        t.vec.fslot.toNat = n ∧ ∀ c ∈ t.core.t.q.compute, c.num = k.num → ∃ f, c.fault = some f ∧ f.code ∈ abFaults s w) ∧
      (abFaults s w = [] →
        let a := abOf w
        let A := s.vreg a.va
        let B := s.vreg a.vb
        let C := s.vreg a.vc
        let d := s.vec.physV a.vd
        let z := vBits a.et
        let on (z e : Nat) : Bool := vActive (s.mask a.km) z e
        let left (z : Nat) (e : Nat) : Prop := a.kz = false ∧ on z e = false
        let arg (e : Nat) : Nat := if a.imm = true then (immPattern a.et a.opc a.imm16).getD 0 else vElem B.data z e
        let G : FTag := (A.tag ||| B.tag) &&& 0x40
        ∃ t q, exec .bundleIssue s = .next t ∧ Issued s s t k b q (k.upc + 1) false ∧ sameBytes s t ∧
          (a.opc ∉ [0xC, 0xD, 0xE, 0xF, 0x10] → ∃ p, q = [p] ∧
            let r (e : Nat) := vopElem a.opc a.fn a.rm a.sat a.et (vElem A.data z e) (arg e) (vElem C.data z e)
            Lands p d (A.tag ||| (if abReadsB a.opc = true ∧ a.imm = false then B.tag &&& 0x40 else 0))
              (if a.opc ∈ [3, 4, 0x11] then 4 else if 0x20 ≤ a.opc then 12 else 2) z (on z · = true) (left z) (fun e => (r e).1) (fun e => (r e).2)) ∧
          (a.opc = 0xC → ∃ p, q = [p] ∧ p.isMask = true ∧ p.reg = (s.vec.physK (a.vd.toNat % 16)).setWidth 6 ∧ p.tag = none ∧ p.left = 2 ∧ p.pois = 0 ∧
            let r (e : Nat) := vcmpElem a.fn a.et (vElem A.data z e) (arg e)
            (∀ i, i < 1024 → (p.data.getLsbD i = true ↔ ∃ e, e < vCount a.et ∧ i = e * z / 4 ∧ on z e = true ∧ (r e).1 = true)) ∧
            (∀ i, i < 1024 → (p.keep.getLsbD i = false ↔ ∃ e, e < vCount a.et ∧ i = e * z / 4 ∧ ¬ left z e)) ∧
            ∀ i, i < 5 → (p.flags.getLsbD i = true ↔ ∃ e, e < vCount a.et ∧ on z e = true ∧ (r e).2.getLsbD i = true)) ∧
          (a.opc = 0xD → ∃ p, q = [p] ∧
            Lands p d (A.tag ||| (B.tag &&& 0x40)) 2 z (fun _ => True) (fun _ => False) (fun e => vElem (if on z e = true then A.data else B.data) z e) (fun _ => 0)) ∧
          (a.opc = 0xE → ∃ p, q = [p] ∧
            let g := 2 ^ (a.imm16.toNat % 16)
            let x (e : Nat) : TVal := if on z e = true then treeIn a.et (vElem A.data z e) else treeId a.fn a.et
            let y (e : Nat) := tree a.fn g ((List.range g).map fun i => x (e * g + i))
            let r (e : Nat) := treeOut a.rm a.sat a.et (y e).1
            Lands p d A.tag 6 z (· < vCount a.et / g) (fun _ => False) (fun e => (r e).1) (fun e => (y e).2 ||| (r e).2)) ∧
          (a.opc = 0xF → let m := if a.fn = 1 then 4 else 2
            q.length = m ∧ ∀ i p, q[i]? = some p →
              let r (e : Nat) := wideElem a.rm a.et (wideFmt a.fn a.et) (vElem A.data z (m * e + i)) (vElem B.data z (m * e + i))
              Lands p (s.vec.physV (a.vd + BitVec.ofNat 6 i)) ((wideFmt a.fn a.et).setWidth 16 ||| G) 4 (m * z) (fun e => on z (m * e + i) = true)
                (fun e => left z (m * e + i)) (fun e => (r e).1) (fun e => (r e).2)) ∧
          (a.opc = 0x10 → ∃ p, q = [p] ∧
            let lo := if z = 16 then 64 * a.fn else 0
            let within (e : Nat) : Prop := lo ≤ e ∧ e < lo + 1024 / z
            let x (e : Nat) : List (Nat × Nat) := (List.range 4).map fun i => (vElem A.data z (4 * (e - lo) + i), vElem B.data z (4 * (e - lo) + i))
            let c (e : Nat) : Nat := vElem C.data 32 e
            let r (e : Nat) : Nat × FFlags := match intFmt? a.et, floatFmt? a.et with
              | some (n, sg), _ => (wrapInt 32 true a.sat ((x e).foldl (fun i y => i + intOf n sg y.1 * intOf n sg y.2) (intOf 32 true (c e))), 0)
              | _, some F =>
                let u := dotNum a.rm (fp32.decode (c e)) ((x e).map fun y => (F.decode y.1, F.decode y.2))
                let v := fp32.round a.rm false u.1
                (v.1, u.2 ||| v.2)
              | _, _ => (0, 0)
            Lands p d ((dotFmt a.et).setWidth 16 ||| G) 4 32 (fun e => within e ∧ on 32 e = true) (fun e => ¬ within e ∨ left 32 e)
              (fun e => (r e).1) (fun e => (r e).2)))) ∧
    -- the M slot
    (stageOn s b → onlySlot b 0 → mFaults s (msOf (slotM b)) = [] →
      let m := msOf (slotM b)
      let f := mFmt s m
      let z := vBits f
      let R := s.vreg m.vr
      let on (e : Nat) : Bool := vActive (s.mask m.km) z e
      let n := if m.opc = 4 then gthCount s m else vCount f
      let top (i : Nat) : Bool := f = 0xB ∧ 56 ≤ i % 64
      let x := s.vec.a[m.ar] + (if m.pi = true then 0 else m.off)
      let inc := s.modVec fun v => if m.pi = true then { v with a := v.a.set m.ar (s.vec.a[m.ar] + m.off) } else v
      let byte (u : State) (a : Nat) : Byte := Sparse.get 0 (match m.spc with | 0 => u.core.buf.ab | 1 => u.core.buf.wb | _ => u.core.t.spill) a
      let at_ (e : Nat) : Int := x.toNat + (match m.opc with
        | 3 => (e : Int) * (s.vec.a[(m.xv.extractLsb' 0 3).toFin]).toInt
        | 4 => ((z / 8 : Nat) : Int) * intOf (vBits (tFmt (s.vreg m.xv).tag)) true (vElem (s.vreg m.xv).data (vBits (tFmt (s.vreg m.xv).tag)) e)
        | _ => ((e * z / 8 : Nat) : Int))
      (m.spc ≠ 2 → slotsOf s.core.t = [] → m.opc ≠ 2 → ∃ t p, exec .bundleIssue s = .next t ∧ Issued s inc t k b [p] (k.upc + 1) false ∧ sameBytes s t ∧
        p.isMask = false ∧ p.reg = s.vec.physV m.vr ∧ p.tag = some m.tag ∧ p.flags = 0 ∧
        p.left = (if m.spc = 3 then 3 else if m.opc = 1 then 6 else if m.opc = 3 then 8 else 10) ∧
        ∀ i, i < 4096 →
          p.data.getLsbD i = (decide (i / z < n) && on (i / z) && !top i && (byte s (at_ (i / z) + (i % z / 8 : Nat)).toNat).getLsbD (i % 8)) ∧
          p.keep.getLsbD i = (!m.kz && decide (i / z < n) && !on (i / z))) ∧
      (m.spc ≠ 2 → slotsOf s.core.t = [] → m.opc = 2 → Sparse.rising s.core.buf.ab = true → Sparse.rising s.core.t.spill = true →
        ∃ t u, exec .bundleIssue s = .next t ∧ Issued s u t k b [] (k.upc + 1) false ∧ u.vec = inc.vec ∧ u.core.t.regs = s.core.t.regs ∧ sameBytes s t ∧
          ∀ a j, j < 8 → let i := 8 * (a - x.toNat) + j
            (byte t a).getLsbD j = if x.toNat ≤ a ∧ a < x.toNat + 512 ∧ on (i / z) = true then (R.data.getLsbD i && !top i) else (byte s a).getLsbD j) ∧
      (m.spc = 2 → ∀ ps u, mRun (s1.asRouted k) m (s1.asRouted k) = .ok (ps, u) →
        ∃ t, exec .bundleIssue s = .next t ∧ Issued s u t k b ps (k.upc + 1) false ∧ sameBytes u t)) ∧
    -- the C slot
    (stageOn s b → onlySlot b 3 → cFaults s (slotC b) = [] →
      let c := csOf (slotC b)
      let A := s.vreg c.a
      let B := s.vreg c.b
      (c.opc = 1 → let z := vBits (tFmt A.tag); let n := vCount (tFmt A.tag)
        ∃ t p, exec .bundleIssue s = .next t ∧ Issued s s t k b [p] (k.upc + 1) false ∧ sameBytes s t ∧
          Lands p (s.vec.physV c.d) A.tag 3 z (fun _ => True) (fun _ => False) (fun e => match c.fn with
            | 0 => vElem A.data z (vElem B.data 16 e % n)
            | 1 => vElem A.data z (n - 1 - e)
            | 2 => vElem A.data z ((e + c.imm.toNat) % n)
            | 3 => vElem (if e % 2 = 0 then A.data else B.data) z (e / 2)
            | 4 => vElem (if e % 2 = 0 then A.data else B.data) z (e / 2 + n / 2)
            | 5 => vElem (if e < n / 2 then A.data else B.data) z (2 * (e % (n / 2)))
            | _ => vElem (if e < n / 2 then A.data else B.data) z (2 * (e % (n / 2)) + 1)) (fun _ => 0)) ∧
      (c.opc = 2 → let f := if c.fn = 0 then tFmt A.tag else c.f4
        ∃ t p, exec .bundleIssue s = .next t ∧ Issued s s t k b [p] (k.upc + 1) false ∧ sameBytes s t ∧
          Lands p (s.vec.physV c.d) (if c.fn = 0 then A.tag else f.setWidth 16) 2 (vBits f) (fun _ => True) (fun _ => False) (fun _ => match c.fn with
            | 0 => vElem A.data (vBits f) (c.imm.toNat % vCount f)
            | 1 => (immPattern f 1 c.imm).getD 0
            | _ => (s.vec.a[(c.a.extractLsb' 0 3).toFin]).toNat) (fun _ => 0)) ∧
      (c.opc = 3 →
        let x := (if 2 ≤ c.fn then selGet s c.d.toNat else 0) + (if c.fn % 2 = 1 then c.imm.signExtend 64 else selGet s c.a.toNat)
        ∃ t, exec .bundleIssue s = .next t ∧ Issued s (selSet s c.d.toNat x) t k b [] (k.upc + 1) false ∧ sameBytes s t ∧
          (selGet t c.d.toNat).toNat = x.toNat % 2 ^ (match c.d.toNat with | 0 | 1 | 2 | 3 => 32 | 0x10 => 7 | 0x11 => 5 | 0x12 => 3 | _ => 64)) ∧
      (c.opc = 5 → let K := s.mask c.a.toNat; let L := s.mask c.b.toNat
        ∃ t p, exec .bundleIssue s = .next t ∧ Issued s s t k b [p] (k.upc + 1) false ∧ sameBytes s t ∧ p.isMask = true ∧
          p.reg = (s.vec.physK c.d.toNat).setWidth 6 ∧ p.keep = 0 ∧ p.tag = none ∧ p.left = 1 ∧ p.flags = 0 ∧
          ∀ i, i < 1024 → (p.data.getLsbD i = true ↔ match c.fn with
            | 0 => K.getLsbD i = true ∧ L.getLsbD i = true
            | 1 => K.getLsbD i = true ∨ L.getLsbD i = true
            | 2 => K.getLsbD i ≠ L.getLsbD i
            | 3 => K.getLsbD i = true ∧ L.getLsbD i = false
            | 4 => K.getLsbD i = false
            | 5 => K.getLsbD i = true
            | _ => ∃ e, e < c.imm.toNat ∧ i = e * vBits c.f4 / 4))) ∧
    (onlySlot b 3 → (csOf (slotC b)).opc = 4 →
      let c := csOf (slotC b)
      let n : Fin 4 := (c.d.extractLsb' 0 2).toFin
      let v := s.core.t.regs.lc[n]
      let sp := (s.vec.sp <<< 1) ||| (if v = 0 then 0 else 1)
      let loops : Bool := sp.toNat % 2 ^ c.f4.toNat ≠ 0
      let target : Int := k.upc + c.imm.toInt
      let u := (s.modR fun r => { r with lc := r.lc.set n (if v = 0 then 0 else v - 1) }).modVec fun x =>
        { x with sp := sp, rrb := x.rrb - 1, mrb := x.mrb - 1 }
      (loops = false → ∃ t, exec .bundleIssue s = .next t ∧ Issued s u t k b [] (k.upc + 1) false ∧ sameBytes s t) ∧
      (loops = true → 0 ≤ target ∧ target < 65536 →
        ∃ t, exec .bundleIssue s = .next t ∧ Issued s u t k b [] target.toNat true ∧ sameBytes s t) ∧
      (loops = true → ¬ (0 ≤ target ∧ target < 65536) → ∃ t, exec .bundleIssue s = .next t ∧ t.core.t.regs = s.core.t.regs ∧ t.vec.bc = s.vec.bc ∧
        ∀ c ∈ t.core.t.q.compute, c.num = k.num → ∃ f, c.fault = some f ∧ f.code = cILLOP))) ∧
  -- the arithmetic
  (∀ (f : BitVec 4) (w : Nat) (sg sat : Bool) (rm : RM) (a b c : Nat), isI f = true → intFmt? f = some (w, sg) →
    let x := intOf w sg a
    let y := intOf w sg b
    let z := intOf w sg c
    let fit (i : Int) : Nat := intBits w (if sat = true then max (intMin w sg) (min (intMax w sg) i) else i)
    (∀ e ∈ [(1, 0, x + y), (2, 0, x - y), (3, 0, x * y), (4, 0, x * y + z), (4, 1, x * y - z), (4, 2, -(x * y) + z), (4, 3, -(x * y) - z), (5, 0, max x y),
      (6, 0, min x y), (7, 0, (x.natAbs : Int)), (8, 0, -x), (0x13, 0, x * (2 ^ (b % 256) : Nat))], vopElem e.1 e.2.1 rm sat f a b c = (fit e.2.2, 0)) ∧
    (a < 2 ^ w → b < 2 ^ w → ∀ e ∈ [(9, 0, a &&& b), (0xA, 0, a ||| b), (0x12, 0, a ^^^ b), (0x11, 0, intBits w (x * y / (2 ^ w : Nat))),
      (0x11, 1, intBits w ((x * y + (2 ^ (w - 1) : Nat)) / (2 ^ w : Nat)))], vopElem e.1 e.2.1 rm false f a b c = (e.2.2, 0)) ∧
    (a < 2 ^ w → ∀ e ∈ [(0, a / 2 ^ (b % 256)), (1, intBits w (x / (2 ^ (b % 256) : Nat)))], vopElem 0xB e.1 rm false f a b c = (e.2, 0)) ∧
    (∀ e ∈ [(0, decide (x = y)), (1, decide (x ≠ y)), (2, decide (x < y)), (3, decide (x ≤ y)), (4, decide (y < x)), (5, decide (y ≤ x))],
      vcmpElem e.1 f a b = (e.2, 0)) ∧
    (∀ g v h, intFmt? g = some (v, h) → wideElem rm f g a b = (intBits v (x * y), 0)) ∧
    ∀ red n i (l : List Int), l.length < n → tree red n (.i i :: l.map .i) =
      (.i (l.foldl (fun p q => if red = 0 then p + q else if red = 1 then max p q else min p q) i), 0)) ∧
  ∀ (f : BitVec 4) (F : FloatFmt) (sat : Bool) (rm : RM) (fn a b c : Nat), isF f = true → floatFmt? f = some F →
    let x := F.decode a
    let y := F.decode b
    let once (G : FloatFmt) (p : Machine.Num × FFlags) : Nat × FFlags := ((G.round rm false p.1).1, p.2 ||| (G.round rm false p.1).2)
    (∀ e ∈ [(1, Machine.Num.add rm x y), (2, Machine.Num.add rm x y.neg), (3, Machine.Num.mul x y), (4, fmaNum rm fn x y (F.decode c)), (5, (numMaxMin true x y, 0)),
      (6, (numMaxMin false x y, 0))], vopElem e.1 fn rm sat f a b c = once F e.2) ∧
    (∀ e, 0x20 ≤ e → e ≤ 0x26 → vopElem e fn rm sat f a b c = once F (specialNum e x)) ∧
    (∀ e ∈ [(7, a % 2 ^ (F.width - 1)), (8, a ^^^ 2 ^ (F.width - 1)), (9, a &&& b), (0xA, a ||| b), (0x12, a ^^^ b)], vopElem e.1 fn rm sat f a b c = (e.2, 0)) ∧
    (∀ g G, floatFmt? g = some G → wideElem rm f g a b = once G (Machine.Num.mul x (F.decode b)))

/-- TIER_TIMEOUT and TIER_PORT_FAILURE leave alone a core whose engines are stopped, or whose copy engine has nothing to do. Of a FARD whose lower sectors have all arrived they end the command at the sector they name, with status code 0x10 or 0x13 and tier 4, the buffer words of that sector and of every later one tier-failed and no home changed. Of another command whose pops it has or takes a failed port makes the tier fail to deliver the line of the element named, and the command runs up to it; a late reply does so for a tier-3 line only, delivers the line again and shows in the status as 0x10; a line of tier 2 is never late. A flash sector that has not arrived, of a port in NVMe mode, is written whole to its place in WB or AB and counted as arrived; the FARD is done when every sector has; of a port in CXL mode the FARD ends with 0x13. L2_WRITE_BACK makes the line delivered again and its block's transactions no longer rolled back, and keeps every byte; a compressed block in the pool frees the slots it no longer needs. That a line once failed stays so until it is written back, that L2_WRITE_BACK ends a rollback and what a FARD of a port in CXL mode ends with are the model's readings (log entries 18, 70 and 73). -/
def Obligations.LowerTierEvents : Prop :=
  ∀ (s : State) (q : QName),
    (∀ elem, enginesRun s = false ∨ standsAt s.core.t q = none →
      exec (.tierTimeout ⟨q, elem⟩) s = .next s ∧ exec (.tierPortFailure ⟨q, elem⟩) s = .next s) ∧
    (∀ tk sp w rd ra rb rc k elem, enginesRun s = true → headOf s.core.t .load = some k → s.fard = some k → k.kind = .fwd →
      k.instr = .fard tk sp w rd ra rb rc → elem < (k.v 2).toNat / 512 → (∀ i, i < elem → i ∈ k.got) →
      ∀ e ∈ [(Instr.tierTimeout ⟨.load, elem⟩, (0x10 : BitVec 8)), (Instr.tierPortFailure ⟨.load, elem⟩, 0x13)], ∃ t, exec e.1 s = .next t ∧
        t.core.t.q.load = (s.core.t.q.load.map fun c =>
          if c.num = k.num then { c with upc := elem, got := k.got, done := true, status := statusWord elem e.2 4 } else c) ∧
        t.mem = s.mem ∧ t.core.t.regs = s.core.t.regs ∧ t.core.buf = (markRest k elem s).core.buf) ∧
    (∀ k s1 elem pa, enginesRun s = true → standsAt s.core.t q = some k → k.fault = none → k.kind ≠ .stub → k.ph = 0 →
      isAtomic k.instr = false → (∀ tk sp w rd ra rb rc, k.instr ≠ .fard tk sp w rd ra rb rc) → takePops q k s = some s1 → elemHome k elem s1 = some pa →
      let r := runQueue q { k with issued := true } (s1.modM fun m => { m with failed := setIns m.failed (pa / 128) })
      exec (.tierPortFailure ⟨q, elem⟩) s = .next r ∧
      (pa < Config.tier2Limit → exec (.tierTimeout ⟨q, elem⟩) s = .next s) ∧
      (Config.tier2Limit ≤ pa → exec (.tierTimeout ⟨q, elem⟩) s = .next ((r.modM fun m => { m with failed := s.mem.failed }).modCmd q k.num fun c =>
        if c.done = true ∧ c.status.extractLsb' 0 8 = 0x11 then { c with status := c.status - 1 } else c))) ∧
    (∀ tk sp w rd ra rb rc k n sector, enginesRun s = true → s.fard = some k → k.instr = .fard tk sp w rd ra rb rc →
      (sp, n) ∈ [(FSpace.wb, 0), (FSpace.ab, 1)] → sector < (k.v 2).toNat / 512 → sector ∉ k.got →
      (s.nvme (flwPort k.flw) = true → ∃ t, exec (.flashSectorArrival sector) s = .next t ∧
        t.core.buf = s.core.buf.write n ((k.v 0).toNat + 512 * sector) (s.drive k.flw ((k.v 1).toNat + 512 * sector) 512) ∧
        t.core.t.regs = s.core.t.regs ∧ t.mem = s.mem ∧
        ∀ c ∈ t.core.t.q.load, c.num = k.num → c.got = setIns k.got sector ∧ c.done = decide ((setIns k.got sector).length = (k.v 2).toNat / 512)) ∧
      (s.nvme (flwPort k.flw) = false → (∀ i, i < sector → i ∈ k.got) → ∃ t, exec (.flashSectorArrival sector) s = .next t ∧
        t.core.t.regs = s.core.t.regs ∧ t.mem = s.mem ∧
        ∀ c ∈ t.core.t.q.load, c.num = k.num → c.done = true ∧ c.status = statusWord sector 0x13 4)) ∧
    (∀ line, ∃ t, exec (.l2WriteBack line) s = .next t ∧ line ∉ t.mem.failed ∧ (∀ l, l ≠ line → (l ∈ t.mem.failed ↔ l ∈ s.mem.failed)) ∧
      line / 4 ∉ t.mem.rollb ∧ sameBytes s t ∧ t.core = s.core ∧
      (∀ b p, Sparse.find s.mem.comp (line / 4) = some b → s.aperture (512 * (line / 4)) = some p → b.raw = false → b.resv = false →
        blockNeed (s.blockBytes (line / 4)) < b.slots →
        Sparse.find t.mem.comp (line / 4) = some ⟨blockNeed (s.blockBytes (line / 4)), false, b.ctx, false⟩) ∧
      (Sparse.find s.mem.comp (line / 4) = none → t = { s with mem := { s.mem with failed := t.mem.failed, rollb := t.mem.rollb } }))

/-- A forward command outside any block that everything lets issue, of any instruction of a queue but FARD, the vector programs, the atomics, CHSEND and COLL, which go through events of their own (trvlIn, trvsIn, copyIn, fillIn, gthr, trvlOut, trvsOut, copyOut, fillOut, sctr, cmpx, cvt, cvts, qntw, dqw, retag, retagDsc, tagget, tagchk, scalex, lnx, lnr, mma, mzero, mzeroCb, mswap, mst, mcks, mckv, mfix, mtm, mte, wgrp, sxf, sxi, scmac, scmul, sconj, sdom, sexp, rpush, rpushSpl, gzero), that reads no landing slot: once its pops are taken, the state becomes what the command's own function leaves, run under the FPEN captured at routing, in everything but the queue entry, which is done with its status, done with micro-PC, code and tier where a lower tier ends it, and stands at its fault and micro-PC where it stops at one, the elements before having been performed. MSWAP with no tile open exchanges both banks of its accumulator and their tags, and changes nothing else. That function, run without a stop from its first element: CVT, CVTS, QNTW, DQW, SCALEX, LNX, LNR, SXF, SXI, SCMUL, SCONJ, SDOM, SEXP, MST and GZERO write element by element the patterns their rules form, and nothing else but flags; COPY, FILL, GTHR and SCTR move the bytes of each element or row; CMPX changes how blocks are held and no byte; MMA and SCMAC add each chunk into the entries of their window alone; MZERO.cb, MCKS, MCKV and MFIX treat the bank and its check as R250 and R259 to R262 say; RPUSH keeps the bytes of its tile or spill range. That a command performs in the step in which it issues, and which elements a fault leaves performed, are the model's choices (log entries 14 and 9). -/
def Obligations.EngineCommandsPerform : Prop :=
  (∀ (s : State) (q : QName) (k : Cmd), HeadReady s q k → meetsSlot s.core.t (readsOf k) = false → atomF? k.instr = none → chsendOf k.instr = none →
    collOf k.instr = none → (∀ c ∈ s.core.t.q.store, isAtomic c.instr = false) →
    (match k.instr with | .fard .. | .vrun .. | .vruna .. => False | _ => True) →
    let k1 : Cmd := { k with issued := true }
    let s1 := headEnd s q k id fun c => { c with issued := true }
    let p := performFwd k1 (s1.asRouted k)
    (p.stop = none → ∃ t, exec (.queueHeadIssue q) s = .next t ∧ ranUnder s1 p.s t ∧
      t.core.t.q.get q = (p.s.core.t.q.get q).map fun c =>
        if c.num = k.num then { c with upc := p.upc, res := (if p.res = [] then c.res else p.res), got := p.got, done := true, status := p.status } else c) ∧
    (∀ code va lvl, p.stop = some (.fault code va lvl) → s.core.t.tile.opened = false → p.s.core.t.tile.opened = false →
      ∃ t, exec (.queueHeadIssue q) s = .next t ∧ ranUnder s1 (p.s.walkFills (.fault code va lvl)) t ∧
        t.core.t.q.get q = (p.s.core.t.q.get q).map fun c =>
          if c.num = k.num then { c with
            upc := p.upc, res := (if p.res = [] then c.res else p.res), got := p.got,
            fault := some ⟨code, cmdUnit q k.instr, BitVec.ofNat 64 p.upc, k.num, va, lvl, 0⟩ } else c) ∧
    (∀ code tier, p.stop = some (.status code tier) → ∃ t, exec (.queueHeadIssue q) s = .next t ∧ ranUnder s1 p.s t ∧
      t.core.t.q.get q = (p.s.core.t.q.get q).map fun c =>
        if c.num = k.num then { c with
          upc := p.upc, res := (if p.res = [] then c.res else p.res), got := p.got, done := true, status := statusWord p.upc code tier } else c)) ∧
  (∀ (s : State) (k : Cmd) (tk : Tok) (a : Bool), HeadReady s .compute k → k.instr = .mswap tk a →
    Sparse.rising s.core.buf.cb = true → Sparse.rising (s.acc a).work = true → (∀ e ∈ (s.acc a).work, e.1 < 16384) →
    let base := if a then 16384 else 0
    ∃ t, exec (.queueHeadIssue .compute) s = .next t ∧
      (∀ e, e < 16384 → (t.acc a).w e = Sparse.get 0 s.core.buf.cb (base + e) ∧ Sparse.get 0 t.core.buf.cb (base + e) = (s.acc a).w e) ∧
      (∀ e, (e < base ∨ base + 16384 ≤ e) → Sparse.get 0 t.core.buf.cb e = Sparse.get 0 s.core.buf.cb e) ∧
      (t.acc a).wtag = (s.acc a).vtag ∧ (t.acc a).vtag = (s.acc a).wtag ∧ (t.acc a).chk.arm = false ∧ t.acc (!a) = s.acc (!a) ∧
      t.core.t.regs = s.core.t.regs ∧ t.mem = s.mem ∧ t.core.t.toks = s.core.t.toks.pop .compute k.tok ∧
      ∀ c ∈ t.core.t.q.compute, c.num = k.num → c.done = true ∧ c.status = 0) ∧
  -- what the functions compute: class 4 and class 8
  (∀ (s : State) (k : Cmd), k.kind = .fwd → k.blk = none → k.upc = 0 → (performFwd k s).stop = none →
    let t := (performFwd k s).s
    let b := s.core.buf
    let d := k.d 0
    let a := k.d 1
    let x (r c : Nat) (b : Buffers) : Machine.Num := (b.val a r c).1
    (∀ tk p q rm sat sf df, k.instr = .cvt tk p q rm sat sf df → tFmt (dTag a) = sf ∧ tFmt (dTag d) = df ∧
      onlyBuf s t (b.eachElem d fun r c b => (convert df rm sat (x r c b)).1)) ∧
    (∀ tk p q rb rc sat sf df, k.instr = .cvts tk p q rb rc sat sf df →
      onlyBuf s t (b.eachElem d fun r c b => (convertSR df sat (k.v 0) (k.v 1 + BitVec.ofNat 64 (r * dCols d + c)) (x r c b)).1)) ∧
    (∀ tk p q rm sf df, k.instr = .dqw tk p q rm sf df → onlyBuf s t (b.eachElem d fun r c b => (convert df rm false (x r c b)).1)) ∧
    (∀ tk rm p q n, k.instr = .scalex tk rm p q n →
      onlyBuf s t (b.eachElem d fun r c b => (convert (tFmt (dTag d)) rm false ((x r c b).scale n.toInt)).1)) ∧
    (∀ tk p q rm sf df, k.instr = .qntw tk p q rm sf df →
      onlyBuf s t ((List.range (dRows d / 32 * dCols d)).foldl (fun b i =>
        let g := i / dCols d
        let c := i % dCols d
        let y := quantGroup (if df = 9 then 7 else 3) rm ((List.range 32).map fun j => x (32 * g + j) c b)
        ((List.range 32).foldl (fun b j => b.putElem d (32 * g + j) c (intBits (dBits d) (y.1.getD j 0))) b).write
          (dSpace d) (dScaleAt d g c) (leBytes 2 y.2.1)) b)) ∧
    (∀ tk p q r f, k.instr = .lnx tk p q r f →
      onlyBuf s t ((List.range (lnCount (lnExts f))).foldl (fun b j =>
        let u (o : LnOpd) : Nat := leNat (b.read (dSpace o.d) (o.at_ (lnExts f) j).toNat (eSize o.d))
        b.write (dSpace d) ((lnD k f).at_ (lnExts f) j).toNat (leBytes (eSize d)
          (vopElem f.vop.toNat f.fn.toNat f.rm f.sat (dFmt a) (u (lnA k f)) (if f.unary = true then 0 else u (lnB k f))
            (if f.vop.toNat = 4 then u (lnD k f) else 0)).1)) b)) ∧
    (∀ tk p q r f, k.instr = .lnr tk p q r f →
      let n := lnCount ((lnExts f).take f.nr.toNat)
      onlyBuf s t ((List.range (lnCount ((lnExts f).drop f.nr.toNat))).foldl (fun b o =>
        let u (p : LnOpd) (j : Nat) : Nat := leNat (b.read (dSpace p.d) (p.at_ (lnExts f) j).toNat (eSize p.d))
        let y := (tree (f.fn.toNat % 4) n ((List.range n).map fun i =>
          (lnrVal f.vop.toNat (dFmt a) (u (lnA k f) (o * n + i)) (if f.unary = true then 0 else u (lnB k f) (o * n + i))).1)).1
        let z := if f.fn.getLsbD 2 = true then (treeNode (f.fn.toNat % 4) (treeIn (dFmt d) (u (lnD k f) (o * n))) y).1 else y
        b.write (dSpace d) ((lnD k f).at_ (lnExts f) (o * n)).toNat (leBytes (eSize d) (treeOut f.rm f.sat (dFmt d) z).1)) b))) ∧
  -- class 5
  (∀ (s : State) (k : Cmd), k.kind = .fwd → k.blk = none → k.upc = 0 → (performFwd k s).stop = none →
    let t := (performFwd k s).s
    let d := k.d 0
    let r := rowBytes d
    let filled (sp : BSpace) (n : Nat) (at_ : Nat → Nat) (bs : Nat → List Byte) : Prop :=
      t.core.buf.mem (spNum sp) = (List.range n).foldl (fun m j => writeBytes m (at_ j) (bs j)) (s.core.buf.mem (spNum sp)) ∧
      t.core.t.regs = s.core.t.regs ∧ sameBytes s t
    (∀ tk sp p q pol off f, k.instr = .copyIn tk sp p q pol off f →
      let w := s.core.t.tin
      ∃ bs : Nat → List Byte, filled sp w.count (fun j => (w.buffer (k.v 0).toNat w.ds j).toNat) bs ∧
        ∀ j, j < w.count → (bs j).length = 2 ^ f.esz.toNat ∧ match w.global (k.v 1 + off.signExtend 64) w.ss j with
          | .out => bs j = List.replicate (2 ^ f.esz.toNat) 0
          | .at_ va _ => readsFrom s va (bs j)) ∧
    (∀ tk sp p q e, k.instr = .fillIn tk sp p q e → let w := s.core.t.tin
      filled sp w.count (fun j => (w.buffer (k.v 0).toNat w.ds j).toNat) fun _ => leBytes (2 ^ e.toNat) (k.v 1).toNat) ∧
    (∀ tk sp p q pol off f, k.instr = .copyOut tk sp p q pol off f → let w := s.core.t.tout
      chain w.count (fun j u v => match w.global (k.v 1 + off.signExtend 64) w.ds j with
        | .at_ va false => storesAt va (u.core.buf.read (spNum sp) (w.buffer (k.v 0).toNat w.ss j).toNat (2 ^ f.esz.toNat)) u v
        | _ => v = u) s t) ∧
    (∀ tk p q pol off e, k.instr = .fillOut tk p q pol off e → let w := s.core.t.tout
      chain w.count (fun j u v => match w.global (k.v 0 + off.signExtend 64) w.ds j with
        | .at_ va false => storesAt va (leBytes (2 ^ e.toNat) (k.v 1).toNat) u v
        | _ => v = u) s t) ∧
    (∀ tk sp p q l c pol st, k.instr = .gthr tk sp p q l c pol st →
      ∃ bs : Nat → List Byte, filled sp (k.v 2).toNat (fun j => (k.v 0).toNat + j * st.toNat) bs ∧
        ∀ j, j < (k.v 2).toNat → (bs j).length = r ∧ ∃ x, x.length = 4 ∧ readsFrom s (k.v 1 + BitVec.ofNat 64 (4 * j)) x ∧
          match tableRow d (intOf 32 true (leNat x)) with
          | none => bs j = List.replicate r 0
          | some i => readsFrom s (rowAddr d i) (bs j)) ∧
    (∀ tk sp p l q c pol st, k.instr = .sctr tk sp p l q c pol st →
      chain (k.v 2).toNat (fun j u v => ∃ x w, x.length = 4 ∧ readsFrom u (k.v 1 + BitVec.ofNat 64 (4 * j)) x ∧ sameBytes u w ∧ w.core.buf = u.core.buf ∧
        let i := intOf 32 true (leNat x)
        if 0 ≤ i ∧ i < dRows d then storesAt (rowAddr d i) (u.core.buf.read (spNum sp) ((k.v 0).toNat + j * st.toNat) r) w v else v = w) s t) ∧
    (∀ tk c p, k.instr = .cmpx tk c p → Sparse.rising s.mem.comp = true → ∃ x s1, exlate (k.v 0) .w s = .ok (x, s1) ∧ sameBytes s t ∧
      t.core.buf = s.core.buf ∧ ∀ i, i < 8 → (s1.aperture (512 * (x.pa / 4096 * 8 + i))).isSome = true → t.isCompressed (x.pa / 4096 * 8 + i) = c)) ∧
  -- class 9
  (∀ (s : State) (k : Cmd) (acc : Bool), k.kind = .fwd → k.blk = none → k.upc = 0 → (performFwd k s).stop = none → Sparse.rising (s.acc acc).work = true →
    let t := (performFwd k s).s
    let o := s.acc acc
    let n := t.acc acc
    let b := s.core.buf
    let d := k.d 0
    let e := k.d 1
    let val (d : Desc) (tr : Bool) (i j : Nat) : Machine.Num × FFlags := b.val d (opAt tr i j).1 (opAt tr i j).2
    let sum := numSum
    (∀ tk ta tb p q (r0 c0 : BitVec 7), k.instr = .mma tk acc ta tb p q r0 c0 →
      let K := opCols d ta
      let bare : Bool := isWeight (dFmt e) && !tb
      let sc (r c : Nat) : Nat := leNat (b.read (dSpace e) (dScaleAt e (r / 32) c) 2)
      let A (i x : Nat) := if x < K then val d ta i x else noNum
      let B (x j : Nat) := if x < K then (if bare = true then codeVal (dFmt e) (b.elem e x j) (sc x j) else val e tb x j) else noNum
      let chunk (c i j : Nat) : Machine.Num :=
        let y := (chunkSum ((List.range 32).map fun x => arrMul (A i (32 * c + x)) (B (32 * c + x) j))).1
        if bare = true then (Machine.Num.mul y (scaleVal (sc (32 * c) j)).1).1 else y
      onlyAcc s t acc n ∧ n.wtag = o.wtag ∧ n.vtag = o.vtag ∧ n.asx = o.asx ∧ n.chk = { o.chk with loc := false } ∧
      (∀ i j, i < opRows d ta → j < opCols e tb → n.w (bankAt (r0.toNat + i) (c0.toNat + j)) =
        (List.range ((K + 31) / 32)).foldl (fun w c => (roundFA (Machine.Num.add .rne (faVal w) ((chunk c i j).scale (k.asx acc s))).1).1)
          (o.w (bankAt (r0.toNat + i) (c0.toNat + j)))) ∧
      ∀ x, (∀ i j, i < opRows d ta → j < opCols e tb → x ≠ bankAt (r0.toNat + i) (c0.toNat + j)) → n.w x = o.w x) ∧
    (∀ tk p, k.instr = .mzeroCb tk acc p → onlyAcc s t acc n ∧ n.wtag = accTag ∧ n.vtag = o.vtag ∧ n.asx = o.asx ∧ n.chk.arm = true ∧ n.chk.loc = false ∧
      ∀ i j, i < 128 → j < 128 →
        let v (i j : Nat) : FA56 := if i < dRows d ∧ j < dCols d then BitVec.ofNat 56 (b.elem d i j) else 0
        let row (f : Machine.Num → Machine.Num) : BitVec 32 := if i < dRows d then sum32 ((List.range (dCols d)).map fun j => f (faVal (v i j))) else 0
        let col (f : Machine.Num → Machine.Num) : BitVec 32 := if j < dCols d then sum32 ((List.range (dRows d)).map fun i => f (faVal (v i j))) else 0
        n.w (bankAt i j) = v i j ∧ Sparse.get 0 n.chk.pr i = row id ∧ Sparse.get 0 n.chk.mr i = row Machine.Num.abs ∧
        Sparse.get 0 n.chk.pc j = col id ∧ Sparse.get 0 n.chk.mc j = col Machine.Num.abs) ∧
    (∀ tk p add sat rm df (r0 c0 : BitVec 7), k.instr = .mst tk p acc add sat rm df r0 c0 → b.cbPois = [] →
      onlyBuf s t ((List.range (dRows d * dCols d)).foldl (fun b i =>
        let r := i / dCols d
        let c := i % dCols d
        let v := Sparse.get 0 b.cb (visBase acc + bankAt (r0.toNat + r) (c0.toNat + c))
        let y := if df = 0xB then v.toNat
          else if add = true then (convert df rm sat (Machine.Num.add rm (elemVal df (b.elem d r c)) (faVal v)).1).1 else (convert df rm sat (faVal v)).1
        if dSpace d = 2 then b.putCb (dBase d / 7 + dBitOff d r c / 56) (BitVec.ofNat 56 y) else b.putElem d r c y) b)) ∧
    (∀ tk ta tb p q (r0 c0 : BitVec 7), k.instr = .mcks tk acc ta tb p q r0 c0 → Sparse.rising o.chk.pr = true → Sparse.rising o.chk.pc = true →
      Sparse.rising o.chk.mr = true → Sparse.rising o.chk.mc = true →
      let M := opRows d ta
      let K := List.range (opCols d ta)
      let N := opCols e tb
      let A (i x : Nat) : Machine.Num := (val d ta i x).1
      let B (x j : Nat) : Machine.Num := (val e tb x j).1
      let al (f : Machine.Num → Machine.Num) (x : Nat) : Machine.Num := to32 (sum ((List.range M).map fun i => f (A i x)))
      let be (f : Machine.Num → Machine.Num) (x : Nat) : Machine.Num := to32 (sum ((List.range N).map fun j => f (B x j)))
      let upd (old : BitVec 32) (l : List Machine.Num) : BitVec 32 :=
        BitVec.ofNat 32 (fp32.round .rne false (Machine.Num.add .rne (fp32.decode old.toNat) (to32 ((sum l).scale (k.asx acc s)))).1).1
      onlyAcc s t acc { o with chk := { o.chk with pr := n.chk.pr, pc := n.chk.pc, mr := n.chk.mr, mc := n.chk.mc } } ∧
      (∀ i, i < M → Sparse.get 0 n.chk.pr (r0.toNat + i) = upd (Sparse.get 0 o.chk.pr (r0.toNat + i)) (K.map fun x => (Machine.Num.mul (A i x) (be id x)).1) ∧
        Sparse.get 0 n.chk.mr (r0.toNat + i) =
          upd (Sparse.get 0 o.chk.mr (r0.toNat + i)) (K.map fun x => (Machine.Num.mul (A i x).abs (be Machine.Num.abs x)).1)) ∧
      (∀ j, j < N → Sparse.get 0 n.chk.pc (c0.toNat + j) = upd (Sparse.get 0 o.chk.pc (c0.toNat + j)) (K.map fun x => (Machine.Num.mul (al id x) (B x j)).1) ∧
        Sparse.get 0 n.chk.mc (c0.toNat + j) =
          upd (Sparse.get 0 o.chk.mc (c0.toNat + j)) (K.map fun x => (Machine.Num.mul (al Machine.Num.abs x) (B x j).abs).1)) ∧
      (∀ i, (i < r0.toNat ∨ r0.toNat + M ≤ i) → Sparse.get 0 n.chk.pr i = Sparse.get 0 o.chk.pr i ∧ Sparse.get 0 n.chk.mr i = Sparse.get 0 o.chk.mr i) ∧
      ∀ j, (j < c0.toNat ∨ c0.toNat + N ≤ j) → Sparse.get 0 n.chk.pc j = Sparse.get 0 o.chk.pc j ∧ Sparse.get 0 n.chk.mc j = Sparse.get 0 o.chk.mc j) ∧
    (∀ tk rpl (off : BitVec 14), k.instr = .mckv tk acc rpl off → Sparse.rising s.core.t.spill = true →
      let v (i j : Nat) : Machine.Num := faVal (o.w (bankAt i j))
      let row (i : Nat) : Line1 := checkLine (Sparse.get 0 o.chk.pr i) (Sparse.get 0 o.chk.mr i) ((List.range 128).map (v i))
      let col (j : Nat) : Line1 := checkLine (Sparse.get 0 o.chk.pc j) (Sparse.get 0 o.chk.mc j) ((List.range 128).map fun i => v i j)
      let byte (x : Nat) : Byte := Sparse.get 0 t.core.t.spill (off.toNat + x)
      t.core.buf = s.core.buf ∧ t.core.t.regs = s.core.t.regs ∧ (∀ x, n.w x = o.w x) ∧
      (∀ x, (x < off.toNat ∨ off.toNat + 64 ≤ x) → Sparse.get 0 t.core.t.spill x = Sparse.get 0 s.core.t.spill x) ∧
      (o.chk.arm = false → byte 0 = 3 ∧ n = o ∧ ∀ x, 0 < x → x < 64 → byte x = 0) ∧
      (o.chk.arm = true → (∀ i, i < 128 → (row i).bad = false ∧ (col i).bad = false) → byte 0 = 0 ∧ n = o) ∧
      (∀ i j, o.chk.arm = true → i < 128 → j < 128 → (row i).bad = true → (col j).bad = true →
        (∀ x, x < 128 → ((row x).bad = true → x = i) ∧ ((col x).bad = true → x = j)) →
        byte 0 = 1 ∧ byte 1 = 1 ∧ byte 2 = 1 ∧ byte 3 = BitVec.ofNat 8 i ∧ byte 4 = BitVec.ofNat 8 j ∧
        n = { o with chk := { o.chk with loc := true, row := BitVec.ofNat 7 i, col := BitVec.ofNat 7 j } } ∧
        leNat ((List.range 4).map fun x => byte (8 + x)) = (fp32.round .rne false (col j).diff).1 ∧
        leNat ((List.range 4).map fun x => byte (12 + x)) = (fp32.round .rne false (row i).diff).1)) ∧
    (∀ tk, k.instr = .mfix tk acc → (o.chk.loc = false → t = s) ∧
      (o.chk.loc = true → onlyAcc s t acc n ∧ n.chk = { o.chk with loc := false } ∧
        (∀ x, x ≠ bankAt o.chk.row.toNat o.chk.col.toNat → n.w x = o.w x) ∧
        n.w (bankAt o.chk.row.toNat o.chk.col.toNat) = (roundFA (Machine.Num.add .rne (fp32.decode (Sparse.get 0 o.chk.pc o.chk.col.toNat).toNat)
          (sum (((List.range 128).filter (· ≠ o.chk.row.toNat)).map fun r => faVal (o.w (bankAt r o.chk.col.toNat)))).neg).1).1))) ∧
  -- class 10
  (∀ (s : State) (k : Cmd), k.kind = .fwd → k.blk = none → k.upc = 0 → (performFwd k s).stop = none →
    let t := (performFwd k s).s
    let b := s.core.buf
    let d := k.d 0
    let a := k.d 1
    let x (d : Desc) (b : Buffers) (r c : Nat) : Machine.Num := elemVal (dFmt d) (b.elem d r c)
    let out (l : List Machine.Num) : List Nat := l.map fun y => (convert (dFmt d) .rne false y).1
    let n := sB (dTag a)
    let mul (x y : Machine.Num) : Machine.Num := (Machine.Num.mul x y).1
    let add (x y : Machine.Num) : Machine.Num := (Machine.Num.add .rne x y).1
    (∀ tk p q, k.instr = .sxf tk p q → let L := sL (dTag d)
      onlyBuf s t (b.eachBlock d (sB (dTag d)) fun r c b =>
        out ((sFwd L ((List.range (sB (dTag d))).map fun i => x a b r (c + i)) 0).1.map (·.scale (-(L : Int)))))) ∧
    (∀ tk p q, k.instr = .sxi tk p q → let L := sL (dTag a)
      onlyBuf s t (b.eachBlock d n fun r c b =>
        out ((sInv L ((List.range n).map fun i => x a b r (c + i)) 0).1.map (·.scale ((tExp (dTag a) : Int) - L))))) ∧
    (∀ tk cj p q r, k.instr = .scmul tk cj p q r →
      onlyBuf s t (b.eachBlock d n fun r c b => out ((List.range n).map fun i =>
        let A (i : Nat) := x a b r (c + i)
        let B (i : Nat) := x (k.d 2) b r (c + i)
        let I (i : Nat) := if cj = true then (B i).neg else B i
        if i < 2 then mul (A i) (B i) else if i % 2 = 0 then add (mul (A i) (B i)) (mul (A (i + 1)) (I (i + 1))).neg
        else add (mul (A (i - 1)) (I i)) (mul (A i) (B (i - 1)))))) ∧
    (∀ tk p q, k.instr = .sconj tk p q → onlyBuf s t (b.eachBlock d n fun r c b => (List.range n).map fun i =>
      b.elem a r (c + i) ^^^ (if isImag i = true then 2 ^ (dBits a - 1) else 0))) ∧
    (∀ tk p q r, k.instr = .sdom tk p q r → onlyBuf s t (b.eachBlock d n fun r c b => out ((List.range n).map fun i =>
      mul (x a b r (c + i)) (x (k.d 2) b 0 (if i = 0 then 0 else if i = 1 then n / 2 else i / 2))))) ∧
    (∀ tk p q (e : BitVec 5), k.instr = .sexp tk p q e → onlyBuf s t (b.eachBlock d n fun r c b => out ((List.range n).map fun i =>
      (x a b r (c + i)).scale ((tExp (dTag a) : Int) - e.toNat)))) ∧
    (∀ tk p, k.instr = .gzero tk p → onlyBuf s t (b.eachElem d fun _ _ _ => 0)) ∧
    (∀ tk acc p q f, k.instr = .scmac tk acc p q f → Sparse.rising (s.acc acc).work = true →
      let ww := 2 ^ (f.wcode.toNat + 1)
      let nb := sB (dTag d)
      let M := gridRows d nb f.ta
      let K := gridCols d nb f.ta
      let N := gridCols a nb f.tb * ww
      let V (e : Desc) (tr cj : Bool) (i j w : Nat) : Machine.Num × FFlags :=
        let v := x e b (opAt tr i j).1 ((opAt tr i j).2 * nb + (f.p0.toNat + w))
        (if (cj && isImag (f.p0.toNat + w)) = true then v.neg else v, 0)
      let chunk (c i y : Nat) : Machine.Num := (scSum f.p0.toNat (y % ww) (fun j w => V d f.ta f.cja i (16 * c + j) w)
        (fun j w => V a f.tb f.cjb (16 * c + j) (y / ww) w) (min 16 (K - 16 * c))).1
      let old (e : Nat) : FA56 := if f.z = true then 0 else (s.acc acc).w e
      let u := t.acc acc
      onlyAcc s t acc u ∧ u.vtag = (s.acc acc).vtag ∧ u.asx = (s.acc acc).asx ∧
      u.wtag = (if f.z = true then scTag (tBcode (dTag d)) (tExp (dTag d) + tExp (dTag a)) else (s.acc acc).wtag) ∧
      (∀ i y, i < M → y < N → u.w (bankAt (f.row0.toNat + i) (f.col0.toNat + y)) =
        (List.range ((K + 15) / 16)).foldl (fun w c => (roundFA (add (faVal w) (chunk c i y))).1) (old (bankAt (f.row0.toNat + i) (f.col0.toNat + y)))) ∧
      ∀ e, (∀ i y, i < M → y < N → e ≠ bankAt (f.row0.toNat + i) (f.col0.toNat + y)) → u.w e = old e)) ∧
  -- RPUSH
  ∀ (s : State) (k : Cmd) (g : BlkRef), k.blk = some g → (g.rc = false ∨ g.replay = true) → k.kind = .fwd → (performFwd k s).stop = none →
    (∀ tk p, k.instr = .rpush tk p → ∃ bs, (performFwd k s).s = s.setRes k bs ∧
      bs.map (·.b) = (List.range (dRows (k.d 0))).flatMap fun r => (s.core.buf.tileRow (k.d 0) r).map (·.b)) ∧
    (∀ tk o n, k.instr = .rpushSpl tk o n → ∃ bs, (performFwd k s).s = s.setRes k bs ∧
      bs.map (·.b) = readBytes s.core.t.spill (8 * o.toNat) (8 * (n.toNat + 1)))

/-- Where the engines run, the oldest atomic that has been sent, and that no earlier one on its bytes holds back, updates its target as one event: an AWR of a 64-bit integer without a return value, on a clean target outside the timeline area with no block compressed, leaves there the old value plus, minimum (unsigned), maximum (unsigned), AND, OR or XOR of its operand, is done with status 0, and changes no other byte and no register. A held quantum command whose core waits is performed the same way; with none due QUANTUM_FLUSH does nothing. SPECULATIVE_CONFIRM lets an unconfirmed speculative atomic that stands first in its queue issue with its pops, done where it has been performed, and does nothing where its pops are not satisfied. At a base-die port with a free tag a read answers 64 bytes, a full write stores them, one that its tier fails or that is rolled back stores nothing and says so in its status, and the three atomic requests update an 8-byte integer and answer its old value; a reply frees its tag and leaves its word, TAG and STATUS, and its data; with no tag free the request waits. The place of the bytes at a port is the model's reading (log entry 45). -/
def Obligations.AtomicAndPortEvents : Prop :=
  ∀ (s : State),
    (∀ k tk (f : AtomF) ra rb off pa, enginesRun s = true →
      s.core.t.q.store.find? (fun k => isAtomic k.instr && k.ph = 2 && !k.done && k.fault.isNone && !sentBefore s k) = some k →
      k.instr = .awr tk f 0 ra rb off → (∀ c ∈ s.core.t.q.store, c.num = k.num → c = k) → f.ty = 3 → k.got = [pa] → k.res = [] → k.issued = true → s.mem.comp = [] → s.MemOk →
      s.homeFail pa 8 = false → s.txBack pa = false → s.homePoisN pa 8 = false → s.mappedOut pa = false →
      inTimelineArea s (k.v 0 + off.signExtend 64) = false →
      let old := s.homeLe pa 8
      let v := (k.v 1).toNat
      ∀ z, ((f.opc = 0 ∧ z = (old + v) % 2 ^ 64) ∨ (f.opc = 2 ∧ f.u = true ∧ z = min old v) ∨ (f.opc = 3 ∧ f.u = true ∧ z = max old v) ∨
          (f.opc = 6 ∧ z = old &&& v) ∨ (f.opc = 7 ∧ z = old ||| v) ∨ (f.opc = 8 ∧ z = old ^^^ v)) →
        ∃ t, exec .atomicHomeEvent s = .next t ∧ t.homeLe pa 8 = z ∧ (∀ a, (a < pa ∨ pa + 8 ≤ a) → t.homeByte a = s.homeByte a) ∧
          t.core.t.regs = s.core.t.regs ∧ t.core.t.pc = s.core.t.pc ∧ ∀ c ∈ t.core.t.q.store, c.num = k.num → c.done = true ∧ c.status = 0) ∧
    (∀ k tk (f : AtomF) rd ra rb off pa l, enginesRun s = true → heldGroups s = [[k]] → sentBefore s k = false → s.core.waiting = true → k.instr = .awr tk f rd ra rb off → f.ty = 3 →
      f.opc = 0 → k.got = pa :: l → s.mem.comp = [] → s.MemOk → s.homeFail pa 8 = false → s.txBack pa = false → s.homePoisN pa 8 = false → s.mappedOut pa = false →
      inTimelineArea s (k.v 0 + off.signExtend 64) = false →
      ∃ t, exec .quantumFlush s = .next t ∧ t.homeLe pa 8 = (s.homeLe pa 8 + (k.v 1).toNat) % 2 ^ 64 ∧
        (∀ a, (a < pa ∨ pa + 8 ≤ a) → t.homeByte a = s.homeByte a) ∧ t.core.t.regs = s.core.t.regs ∧
        ∀ c ∈ t.core.t.q.store, c.num = k.num → c.done = true) ∧
    (heldGroups s = [] → exec .quantumFlush s = .next s) ∧
    (∀ k, enginesRun s = true → s.core.t.q.store.find? (fun k => !k.issued) = some k → isSpec k.instr = true → 2 ≤ k.ph →
      s.core.t.toks.canPop .store k.tok = true →
      exec .speculativeConfirm s = .next (s.modT fun t => { t with
        toks := t.toks.pop .store k.tok,
        q := { t.q with store := t.q.store.map fun c => if c.num = k.num then { c with issued := true, done := decide (3 ≤ c.ph) } else c } })) ∧
    (∀ k, s.core.t.q.store.find? (fun k => !k.issued) = some k → (isSpec k.instr = false ∨ k.ph < 2 ∨ s.core.t.toks.canPop .store k.tok = false) →
      exec .speculativeConfirm s = .next s) ∧
    (∀ (c a : Nat) (g : BitVec 3), c < 384 → a < 2 ^ 52 → (s.port c).waiting = [] →
      let pa := a / 64 * 64
      let w := a / 8 * 8
      let answers (t : State) (st : PortStatus) (d : List Byte) : Prop :=
        (t.port c).busy = (s.port c).busy ++ [(g, st, d)] ∧ (t.port c).waiting = [] ∧ t.core = s.core
      let old := s.homeLe w 8
      ((s.port c).freeTag = some g →
        (s.homeFail pa 64 = false → s.homePoisN pa 64 = false → ∃ t, exec (.portRd c a) s = .next t ∧ answers t .ok (s.homeBytes pa 64) ∧ t.mem = s.mem) ∧
        (s.homeFail pa 64 = true → ∃ t, exec (.portRd c a) s = .next t ∧ answers t .failed (s.homeBytes pa 64) ∧ t.mem = s.mem) ∧
        (s.homeFail pa 64 = true → ∀ m d, ∃ t, exec (.portWr c a m d) s = .next t ∧ answers t .failed [] ∧ t.mem = s.mem) ∧
        (s.homeFail pa 64 = false → s.txBack pa = true → ∀ m d, ∃ t, exec (.portWr c a m d) s = .next t ∧ answers t .rolledBack [] ∧ t.mem = s.mem) ∧
        (s.MemOk → s.mappedOut pa = false → s.homeFail pa 64 = false → s.txBack pa = false → ∀ d : List Byte, d.length = 64 → ∃ t, exec (.portWr c a (BitVec.allOnes 64) d) s = .next t ∧
          answers t .ok [] ∧ t.homeBytes pa 64 = d ∧ ∀ b, (b < pa ∨ pa + 64 ≤ b) → t.homeByte b = s.homeByte b) ∧
        (s.MemOk → s.mem.comp = [] → s.mappedOut w = false → s.homeFail w 8 = false → s.homePoisN w 8 = false → s.txBack w = false →
          let sets (i : Instr) (z : Nat) : Prop := ∃ t, exec i s = .next t ∧ answers t .ok (leBytes 8 old) ∧ t.homeLe w 8 = z ∧
            ∀ b, (b < w ∨ w + 8 ≤ b) → t.homeByte b = s.homeByte b
          ∀ (x : BitVec 12) (u : Bool) (v n : Word), sets (.portAop c a x u 3 0 v) ((old + v.toNat) % 2 ^ 64) ∧ sets (.portAxc c a x 3 v) v.toNat ∧
            sets (.portAcs c a x 3 v n) (if old = v.toNat then n.toNat else old))) ∧
      ((s.port c).freeTag = none → ∃ t, exec (.portRd c a) s = .next t ∧ (t.port c).waiting = [⟨portHeader 0 a 0 0, []⟩] ∧ (t.port c).busy = (s.port c).busy ∧
        t.mem = s.mem ∧ t.core = s.core) ∧
      (∀ b, (s.port c).busy.find? (fun b => b.1 = g) = some b → ∃ t, exec (.portReply c g) s = .next t ∧ (t.port c).last = some (replyWord b.1 b.2.1, b.2.2) ∧
        (t.port c).busy = (s.port c).busy.filter (·.1 ≠ g) ∧ t.mem = s.mem ∧ t.core = s.core))

/-- At system level and outside a block: RSTK.set of an aligned record on a direct page without errors that keeps the rules of R296, while no task of the context holds an entry, becomes the context's configuration, which the running task does not yet use, and changes no register and no memory; a record that breaks a rule, or a task with an entry, traps with ILLOP, one that its tier fails to deliver with TIERERR, a poisoned one with POISON. RSTK.get on a direct page without compressed blocks writes the configuration, T, H, C, the sequence counter and the open block's word at their places in 128 bytes and no byte outside them. A misaligned address traps with ALIGN, task level with PRIV (RSTK.set with ILLOP instead where its record breaks a rule). RSTK_REFILL, during a walk in elastic mode, moves the highest HBM4 entry into AB where it fits there, its bytes standing in the AB region then and H at its start, else the highest CXL entry into the HBM4 region where it fits there, and C to its start, with the slots charged and freed; it is abandoned where the move would fault, moves no pointer but H and C, and does nothing outside a walk or in plumb mode. Which block RSTK.get shows is the model's reading (log entry 25). -/
def Obligations.ResidualStackRegisters : Prop :=
  ∀ (s s1 : State) (ra : Reg) (x : Xl), s.noBlock → s.cleanS [ra] →
    let a := s.S ra
    (s.core.t.prv = false → forbiddenAs (.rstkSet ra) s cPRIV ∧ exec (.rstkGet ra) s = .next (takeTrap (.cc cPRIV) s.core.t.pc s)) ∧
    (s.core.t.prv = true →
      (a.toNat % 64 ≠ 0 → trapsAt (.rstkSet ra) s cALIGN) ∧ (a.toNat % 128 ≠ 0 → trapsAt (.rstkGet ra) s cALIGN) ∧
      (a.toNat % 64 = 0 → translate s s.cid a .r false = (s1, .ok x) → x.cls = 1 → s.rfHeld x.pa = false →
        (s.homeFail x.pa 64 = true → trapsAt (.rstkSet ra) s cTIERERR) ∧
        (s.homeFail x.pa 64 = false → s.homePoisN x.pa 64 = true → trapsAt (.rstkSet ra) s cPOISON) ∧
        (s.homeFail x.pa 64 = false → s.homePoisN x.pa 64 = false →
        let b := s.homeBytes x.pa 64
        let busy := s.tasks.any fun t => t.1.id.ctx = s.cid && t.1.rstk.t != 0
        (rcfgBad b = false → busy = false → s.MemOk → ∃ t, exec (.rstkSet ra) s = .next t ∧ t.core.t.pc = nextPc s.core.t.pc 1 ∧
          t.cx.rcfg = rcfgOf b ∧ t.core.t.rcfg = s.core.t.rcfg ∧ t.core.t.regs = s.core.t.regs ∧ sameBytes s t ∧ t.core.t.sys = s.core.t.sys) ∧
        ((rcfgBad b = true ∨ busy = true) → trapsAt (.rstkSet ra) s cILLOP))) ∧
      (a.toNat % 128 = 0 → translate s s.cid a .w false = (s1, .ok x) → x.cls = 1 → s.rfHeld x.pa = false → inTimelineArea s a = false → s.mem.comp = [] → s.MemOk →
        ∃ t, exec (.rstkGet ra) s = .next t ∧ t.core.t.pc = nextPc s.core.t.pc 1 ∧ restEqStore s t ∧
          (∀ b, (b < x.pa ∨ x.pa + 128 ≤ b) → t.homeByte b = s.homeByte b ∧ t.viewByte b = s.viewByte b) ∧
          (s.mappedOut x.pa = false →
            let g := s.cx.rcfg
            let r := s.core.t.rstk
            t.homeLe x.pa 8 = g.ab.toNat ∧ t.homeLe (x.pa + 8) 8 = g.absz.toNat ∧ t.homeLe (x.pa + 16) 8 = g.hbm.toNat ∧
            t.homeLe (x.pa + 24) 8 = g.hbmsz.toNat ∧ t.homeLe (x.pa + 32) 8 = g.cxl.toNat ∧ t.homeLe (x.pa + 40) 8 = g.cxlsz.toNat ∧
            t.homeLe (x.pa + 48) 8 = r.t.toNat ∧ t.homeLe (x.pa + 56) 8 = r.h.toNat ∧ t.homeLe (x.pa + 64) 8 = r.c.toNat ∧
            t.homeLe (x.pa + 72) 8 = r.rseq.toNat ∧
            t.homeLe (x.pa + 80) 8 = (match s.core.t.blk with | some b => 65536 + b.id.toNat | none => 0)))) ∧
    ((s.core.t.walk.active = false ∨ s.core.t.id.plumb = true) → exec .rstkRefill s = .next s) ∧
    (enginesRun s = true → s.core.t.walk.active = true → s.core.t.id.plumb = false →
      let r := s.core.t.rstk
      let g := s.core.t.rcfg
      (∀ x ∈ r.ents, 0 < x) → r.ents.sum = r.t.toNat →
      -- the entry of n bytes that ends at an offset
      let ends (p n : Nat) : Prop := ∃ pre post, r.ents = pre ++ n :: post ∧ p = r.t.toNat - pre.sum
      (∀ m, ends r.h.toNat m → r.c ≠ r.h →
        let h := r.h.toNat - m
        r.t.toNat - h ≤ g.absz.toNat →
        (∀ bs s1 s2, segsRead false (stackSegs s.core.t 1 h m) s = .ok (bs, s1) → bs.length = m → bs.any (·.fail) = false →
          echarge (-(m / 64 : Nat)) 0 s1 = .ok ((), s2) → Sparse.rising s2.core.buf.ab = true →
          ∃ t, exec .rstkRefill s = .next t ∧ t.core.t.rstk = { s2.core.t.rstk with h := BitVec.ofNat 64 h } ∧ t.mem = s2.mem ∧
            (∀ i, i < m → Sparse.get 0 t.core.buf.ab (g.ab.toNat + (h + i) % g.absz.toNat) = (bs.getD i ⟨0, false, false⟩).b) ∧
            (∀ a, (a < g.ab.toNat ∨ g.ab.toNat + g.absz.toNat ≤ a) → Sparse.get 0 t.core.buf.ab a = Sparse.get 0 s2.core.buf.ab a)) ∧
        (∀ e, moveEntry h m 1 0 s = .error e → exec .rstkRefill s = .next (s.walkFills e))) ∧
      (∀ n, ends r.c.toNat n → (r.c = r.h ∨ ∃ m, ends r.h.toNat m ∧ g.absz.toNat < r.t.toNat - (r.h.toNat - m)) →
        let c := r.c.toNat - n
        r.h.toNat - c ≤ g.hbmsz.toNat → ∀ bs s1 s2 u,
        segsRead false (stackSegs s.core.t 2 c n) s = .ok (bs, s1) → bs.any (·.fail) = false →
        echarge (n / 64 : Nat) (-(n / 64 : Nat)) s1 = .ok ((), s2) → segsWrite false (stackSegs s.core.t 1 c n) bs s2 = .ok ((), u) →
        exec .rstkRefill s = .next (u.modT fun t => { t with rstk := { t.rstk with c := BitVec.ofNat 64 c } }))) ∧
    (∃ t, exec .rstkRefill s = .next t ∧ t.core.t.rstk.t = s.core.t.rstk.t ∧ t.core.t.rstk.ents = s.core.t.rstk.ents ∧
      t.core.t.rstk.rseq = s.core.t.rstk.rseq ∧ t.core.t.regs = s.core.t.regs ∧ t.core.t.pc = s.core.t.pc)

/-- BLKB at granule 1 of a line of kind 01, with no block open (and, for the .hbm form, nothing of the stack in AB) and no faulted frame pop held: without a map record, or with one that passes the checks, it opens a block with the given identifier, the next sequence number, the PC, every s and d register, both ASX and the map, and changes no register and no memory; anywhere else it traps with BLKOP, or with a fault of its own of a lower code, and has no effect; with a misaligned map record it traps with ALIGN, with one that breaks a rule with that rule's code, with a poisoned scalar register other than s0 or a poisoned descriptor register with POISON. BLKE of the open block's identifier closes it and takes the next number on TL.X for its frame; with every earlier entry complete and room in AB for it the frame's 1,984 bytes stand on the stack, and with earlier entries pending the frame waits; any other BLKE traps with BLKOP. REVB waits while an entry is pending, traps with RSTK on an empty stack as a fault of the residual-stack unit under the TL.X number that its frame pop takes, keeps that number when it is repeated, pops a frame that it accepts and starts the walk with its PC in place, at the instruction before the BLKE it finds or, of a recompute block, at the one after BLKB, routes the carriers of the walk one by one in descending order, and completes when none is left. The moment of BLKE's push, that a misplaced BLKB reports its lowest code and a held frame pop are the model's readings (log entries 46, 10, 51 and 52). -/
def Obligations.BlocksAndReverseWalk : Prop :=
  ∀ (s : State) (rc hbm : Bool) (ra : Reg) (id : BitVec 16),
    let placed : Prop := s.core.t.blk = none ∧ granuleOf s.core.t.pc = 1 ∧ s.core.lineKind = 1
    let opens (t : State) (g : GMap) : Prop := ∃ b, t.core.t.blk = some b ∧ b.id = id ∧ b.rc = rc ∧ b.hbm = hbm ∧ b.seq = s.core.t.rstk.rseq + 1 ∧
      b.pcb = s.core.t.pc ∧ (∀ r : Reg, b.s[r.toNat] = s.S r) ∧ b.d = s.core.t.regs.d ∧ b.asx0 = s.core.t.asxNow false ∧
      b.asx1 = s.core.t.asxNow true ∧ b.g = g ∧ b.seen = 0 ∧ t.core.t.rstk = { s.core.t.rstk with rseq := s.core.t.rstk.rseq + 1 } ∧
      t.core.t.pc = nextPc s.core.t.pc 1 ∧ t.core.t.regs = s.core.t.regs ∧ t.core.t.sys = s.core.t.sys ∧ t.core.buf = s.core.buf ∧ sameBytes s t
    (¬placed → forbiddenAs (.blkb rc hbm ra id) s cBLKOP ∧ (ra = 0 → hbm = false → s.core.t.regs.dpois = 0 → (∀ r : Reg, s.core.t.regs.poisS r = false) →
      trapsAt (.blkb rc hbm ra id) s cBLKOP)) ∧
    (placed → (hbm = true → s.core.t.rstk.h = s.core.t.rstk.t) → s.core.t.popHeld = false →
      let clean : Prop := (∀ r : Reg, s.core.t.regs.poisS r = false) ∧ s.core.t.regs.dpois = 0
      (ra = 0 → (clean → ∃ t, exec (.blkb rc hbm ra id) s = .next t ∧ opens t ⟨.replicate 16 0, 0, 0, 0, 0⟩) ∧
        (¬clean → trapsAt (.blkb rc hbm ra id) s cPOISON)) ∧
      (ra ≠ 0 → s.cleanS [ra] →
        ((s.S ra).toNat % 64 ≠ 0 → trapsAt (.blkb rc hbm ra id) s cALIGN) ∧
        (∀ s1 bs, (s.S ra).toNat % 64 = 0 → readMap (s.S ra) 9 s = .ok (bs, s1) →
          (∀ c, checkMap s bs = some c → trapsAt (.blkb rc hbm ra id) s c) ∧
          (checkMap s bs = none → (clean → ∃ t, exec (.blkb rc hbm ra id) s = .next t ∧ opens t (gmapOf bs)) ∧
            (¬clean → trapsAt (.blkb rc hbm ra id) s cPOISON))))) ∧
    (∀ b, s.core.t.blk = some b → b.id = id → s.core.t.frames = [] →
      (∃ t, exec (.blke id) s = .next t ∧ t.core.t.blk = none ∧ t.core.t.pc = nextPc s.core.t.pc 1 ∧ t.core.t.tls.x.i = s.core.t.tls.x.i + 1 ∧
        t.core.t.regs = s.core.t.regs ∧ t.core.t.sys = s.core.t.sys) ∧
      (s.core.t.tls.x.v ≠ s.core.t.tls.x.i → ∃ t k, exec (.blke id) s = .next t ∧ t.core.t.frames = [k] ∧ k.num = s.core.t.tls.x.i + 1 ∧
        t.core.t.rstk = s.core.t.rstk ∧ sameBytes s t ∧ t.core.buf = s.core.buf) ∧
      (s.core.t.tls.x.v = s.core.t.tls.x.i → b.hbm = false →
        (s.core.t.rstk.t - s.core.t.rstk.h).toNat + 1984 ≤ s.core.t.rcfg.absz.toNat →
        ∃ t, exec (.blke id) s = .next t ∧ t.core.t.frames = [] ∧ t.core.t.rstk.t = s.core.t.rstk.t + 1984 ∧
          t.core.t.rstk.ents = 1984 :: s.core.t.rstk.ents ∧ t.core.t.rstk.h = s.core.t.rstk.h ∧ t.core.t.tls.x.v = s.core.t.tls.x.i + 1)) ∧
    ((∀ b, s.core.t.blk = some b → b.id ≠ id) → trapsAt (.blke id) s cBLKOP) ∧
    (s.noBlock → s.core.t.frames = [] →
      let w := s.core.t.walk
      let p := s.takePop
      (w.f = none → w.active = true → w.pc = s.core.t.pc → s.core.t.rstk.t.toNat < 64 →
        exec (.revb id) s = .next (takeTrap ((FaultInfo.cc cRSTK).ofPop s.core.t.tls.x.i) s.core.t.pc s)) ∧
      (w.f = none → w.active = false →
        (s.core.t.tls.x.i ≠ s.core.t.tls.x.v → waitsAt (.revb id) s) ∧
        (s.core.t.tls.x.i = s.core.t.tls.x.v → p.core.t.tls.x.i = s.core.t.tls.x.i + 1 ∧ p.core.t.rstk = s.core.t.rstk ∧
          (s.core.t.rstk.t.toNat < 64 →
            exec (.revb id) s = .next (takeTrap ((FaultInfo.cc cRSTK).ofPop (s.core.t.tls.x.i + 1)) s.core.t.pc p))) ∧
        (∀ h hd l f s0 s1 s2 s3, s.core.t.tls.x.i = s.core.t.tls.x.v → topHdr p = .ok (h, s0) → 1984 ≤ s.core.t.rstk.t.toNat → h.len = 1920 → h.kind = 1 →
          h.bid = id.toNat → h.flags = 0 → stackRead (s.core.t.rstk.t.toNat - 1984) 16 s0 = .ok (hd, s1) → hd.any (fun b => b.fail || b.pois) = false →
          blockCode id (BitVec.ofNat 64 (fld (hd.map (·.b)) 0 8)) (BitVec.ofNat 64 (fld (hd.map (·.b)) 8 8)) s1 = .ok (l, s2) →
          popEntry (fun _ => true) s2 = .ok (f, s3) → f.any (fun b => b.fail || b.pois) = false →
          let fr := frameOf h (f.map (·.b))
          ∃ t, exec (.revb id) s = .next t ∧ t.core.t.pc = s.core.t.pc ∧ t.core.t.walk.active = true ∧ t.core.t.walk.pc = s3.core.t.pc ∧
            t.core.t.walk.f = some fr.1 ∧ t.core.t.walk.blke = fr.2.1 ∧
            t.core.t.walk.ph = (if fr.1.rc then 1 else 2) ∧ t.core.t.walk.ord = (if fr.1.rc then 1 else l.length - 2) ∧ t.core.t.rstk = s3.core.t.rstk ∧ t.core.t.regs = s3.core.t.regs)) ∧
      (∀ b code s1, w.f = some b → w.active = true → w.pc = s.core.t.pc → b.id = id → w.ph = 2 → blockCode b.id b.pcb w.blke s = .ok (code, s1) →
        (w.ord = 0 → ∃ t, exec (.revb id) s = .next t ∧ t.core.t.pc = nextPc s.core.t.pc 1 ∧ t.core.t.walk.active = false ∧
          t.core.t.regs = s.core.t.regs ∧ t.core.t.q = s.core.t.q ∧ sameBytes s t) ∧
        (∀ i, w.ord ≠ 0 → code.getD w.ord none = some i →
          ((carriers b.g i)[w.step]? = none → ∃ t, exec (.revb id) s = .next t ∧ t.core.t.pc = s.core.t.pc ∧ t.core.t.walk.ord = w.ord - 1 ∧
            t.core.t.walk.step = 0 ∧ t.core.t.q = s.core.t.q ∧ t.core.t.regs = s.core.t.regs) ∧
          (∀ c, (carriers b.g i)[w.step]? = some c → s.queueRoom c.q = true → ∃ t k, exec (.revb id) s = .next t ∧ t.core.t.pc = s.core.t.pc ∧
            t.core.t.q.get c.q = s.core.t.q.get c.q ++ [k] ∧ k.instr = c.i ∧ k.kind = c.kind ∧ k.tok = c.tok ∧
            k.num = (s.core.t.tls.get c.q).i + 1 ∧ t.core.t.walk.step = w.step + 1 ∧ t.core.t.walk.ord = w.ord ∧ t.core.t.regs = s.core.t.regs))))

/-- Outside a block, where the COMMIT that comes first publishes everything and is not held (leaving state c), with no die removed, nothing compressed in the package, neither record nor replay on and, for the answer 0, room in the pool: LAUNCH of an admissible record on a direct page writes its count, launch identifier, parent, depth and context, queues it at its priority, counts it in its launch and answers 0, and with a parent record raises that record's count by one; at depth 31 it answers 1, with no room in the pool and the ring 2, with the count of the parent record at its limit 3, and queues nothing; LAUNCH.rec of a record that passes R318 enters a launch with its root record queued and answers 0, with a join record raises that record's count by one, and answers 1, 2 and 3 as LAUNCH does; a misaligned record traps with ALIGN. With no closure collective pending, no tile open and no fault pending: TEND without a parent frees the core, where the commands in flight alone stay with what they work on, a CHSEND with its channel end, and counts the task out of its launch; with a parent it lowers the parent's count by one; JOIN parks the continuation while children are unfinished and queues it when none is, and the core is free. That launch identifiers are counted up, and what a core keeps for commands in flight, are the model's readings (log entries 57 and 72). -/
def Obligations.LaunchJoinAndEnd : Prop :=
  ∀ (s : State) (rd ra rb : Reg), s.noBlock → s.cleanS [ra, rb] → s.noLog → s.commit.2 = none → s.heldDirty (fun _ => true) = false → s.plat.hbmMap = [] → s.MemOk → s.mem.comp = [] →
    let c := s.commit.1.modT fun t => { t with pend := { t.pend with refused := none } }
    let id := s.core.t.id
    let a := s.S ra
    let b := s.S rb
    -- answers other than 0: nothing is queued, no byte changes
    let answers (i : Instr) (st : Nat) : Prop := ∃ t, exec i s = .next t ∧ t.S rd = (if rd = 0 then 0 else BitVec.ofNat 64 st) ∧
      (∀ q, q ≠ rd → t.S q = s.S q) ∧ t.sched = s.sched ∧ (∀ d, t.homeByte d = c.homeByte d) ∧ t.core.t.pc = nextPc s.core.t.pc 1
    let turnedAway (i : Instr) (p : BitVec 2) (j : Option Nat) : Prop :=
      (id.depth.toNat = 31 → answers i 1) ∧
      (id.depth.toNat < 31 → s.noRoom s.cid p = true → answers i 2) ∧
      (∀ pa, id.depth.toNat < 31 → s.noRoom s.cid p = false → j = some pa → c.homeLe (pa + 24) 4 % 2 ^ 31 = 2 ^ 31 - 1 → answers i 3)
    ((a.toNat % 64 ≠ 0 ∨ b.toNat % 64 ≠ 0) → exec (.launch rd ra rb) s = .next (takeTrap (.cc cALIGN) s.core.t.pc c)) ∧
    ((a.toNat % 128 ≠ 0 ∨ b.toNat % 64 ≠ 0) → exec (.launchRec rd ra rb) s = .next (takeTrap (.cc cALIGN) s.core.t.pc c)) ∧
    (∀ s1 x, a.toNat % 64 = 0 → b.toNat % 64 = 0 → translate c c.cid a .w (!s.core.t.prv) = (s1, .ok x) → x.cls = 1 → s.rfHeld x.pa = false → s1.homePoisN x.pa 64 = false →
      let r := s1.homeBytes x.pa 64
      contBad r = false → fld r 40 1 ≤ id.prio.toNat →
      (b = 0 → id.depth.toNat < 31 → s.poolUsed < Config.poolRecords → ∃ t, exec (.launch rd ra rb) s = .next t ∧ t.S rd = 0 ∧
        (∀ q, q ≠ rd → t.S q = s.S q) ∧ t.core.t.pc = nextPc s.core.t.pc 1 ∧
        t.homeLe (x.pa + 24) 4 = 0 ∧ t.homeLe (x.pa + 28) 4 = id.lid.toNat ∧ t.homeLe (x.pa + 32) 8 = b.toNat ∧
        t.homeLe (x.pa + 41) 1 = id.depth.toNat + 1 ∧ t.homeLe (x.pa + 42) 2 = id.ctx.toNat ∧
        (∀ d, (d < x.pa + 24 ∨ (x.pa + 40 ≤ d ∧ d < x.pa + 41) ∨ x.pa + 44 ≤ d) → t.homeByte d = c.homeByte d) ∧
        t.sched.ready = s.sched.ready ++ [⟨BitVec.ofNat 2 (fld r 40 1), id.ctx, id.launch, s.now, s.now, none, .record a⟩] ∧
        (∀ l, s.launch id.launch = some l → t.launch id.launch = some { l with live := l.live + 1 })) ∧
      (∀ s2 y, b ≠ 0 → id.depth.toNat < 31 → s.poolUsed < Config.poolRecords → translate s1 c.cid b .w (!s.core.t.prv) = (s2, .ok y) → y.cls = 1 → s.rfHeld y.pa = false →
        s2.homePois (y.pa + 24) = false → s2.homePoisN x.pa 64 = false → s2.homeLe (y.pa + 24) 4 % 2 ^ 31 ≠ 2 ^ 31 - 1 →
        (y.pa + 28 ≤ x.pa ∨ x.pa + 64 ≤ y.pa + 24) →
        ∃ t, exec (.launch rd ra rb) s = .next t ∧ t.S rd = 0 ∧ t.core.t.pc = nextPc s.core.t.pc 1 ∧ t.homeLe (x.pa + 32) 8 = b.toNat ∧
          t.homeLe (y.pa + 24) 4 = s2.homeLe (y.pa + 24) 4 + 1 ∧ t.sched.ready.length = s.sched.ready.length + 1) ∧
      (∀ j s2, joinTarget b s1 = .ok (j, s2) → s2.homePoisN x.pa 64 = false →
        turnedAway (.launch rd ra rb) (BitVec.ofNat 2 (fld r 40 1)) j)) ∧
    (∀ s1 x j s2, a.toNat % 128 = 0 → b.toNat % 64 = 0 → translate c c.cid a .r (!s.core.t.prv) = (s1, .ok x) → x.cls = 1 → s.rfHeld x.pa = false →
      joinTarget b s1 = .ok (j, s2) → s2.homePoisN x.pa 128 = false →
      let r := s2.homeBytes x.pa 128
      launchOk r (some (id.prio, id.ctx)) = true →
      turnedAway (.launchRec rd ra rb) (lrPrio r) j ∧
      (id.depth.toNat < 31 → s.poolUsed < Config.poolRecords → (∀ pa, j = some pa → s2.homeLe (pa + 24) 4 % 2 ^ 31 ≠ 2 ^ 31 - 1) →
      ∃ t l, exec (.launchRec rd ra rb) s = .next t ∧ t.S rd = 0 ∧ (∀ q, q ≠ rd → t.S q = s.S q) ∧ t.core.t.pc = nextPc s.core.t.pc 1 ∧
        t.sched.launches = s.sched.launches ++ [l] ∧ l.id = s.sched.nextLaunch ∧ l.lid = s.sched.nextLid ∧ l.image = r ∧ l.pooled = true ∧ l.prio = lrPrio r ∧
        l.depth = id.depth + 1 ∧ l.join = b ∧
        t.sched.nextLid = s.sched.nextLid + 1 ∧ t.sched.ready = s.sched.ready ++ [⟨lrPrio r, lrCtx r, l.id, s.now, s.now, none, .root⟩] ∧
        (j = none → ∀ d, t.homeByte d = c.homeByte d) ∧
        (∀ pa, j = some pa → t.homeLe (pa + 24) 4 = s2.homeLe (pa + 24) 4 + 1 ∧ ∀ d, (d < pa + 24 ∨ pa + 28 ≤ d) → t.homeByte d = c.homeByte d))) ∧
    (closurePending s = false → s.core.t.tile.opened = false → s.core.t.pend.misclose = false → s.core.t.pend.barovr = false →
      (id.parent = 0 →
        (∃ t, exec .tend s = .next t ∧ t.core.running = false ∧ t.core.phys = s.core.phys ∧
          (∀ q, t.core.t.q.get q = (s.core.t.q.get q).filter inFlight) ∧
          (∀ n : Fin 8, t.core.t.chans[n] = endInFlight (s.core.t.q.store.filter inFlight) n s.core.t.chans[n]) ∧
          ((∀ q, (s.core.t.q.get q).filter inFlight = []) → t.core.t = Task.zero)) ∧
        (∀ l, s.launch id.launch = some l → (2 ≤ l.live ∨ l.join = 0) → ∃ t, exec .tend s = .next t ∧
          t.launch id.launch = (if 2 ≤ l.live then some { l with live := l.live - 1 } else none) ∧ t.sched.ready = s.sched.ready ∧
          ∀ d, t.homeByte d = c.homeByte d)) ∧
      (∀ s1 pa l, id.parent ≠ 0 → joinAddr s id.ctx id.parent = (s1, .ok pa) → s.launch id.launch = some l → 2 ≤ l.live →
        2 ≤ c.homeLe (pa + 24) 4 % 2 ^ 31 → s1.commit.2 = none → ∃ t, exec .tend s = .next t ∧ t.core.running = false ∧
          t.homeLe (pa + 24) 4 = c.homeLe (pa + 24) 4 - 1 ∧ ∀ d, (d < pa + 24 ∨ pa + 28 ≤ d) → t.homeByte d = c.homeByte d) ∧
      (∀ s1 x, a.toNat % 64 = 0 → translate s s.cid a .w true = (s1, .ok x) → x.cls = 1 → s.rfHeld x.pa = false → contBad (s.homeBytes x.pa 64) = false →
        s.homePois (x.pa + 24) = false → s1.commit.2 = none →
        let j := c.homeLe (x.pa + 24) 4 % 2 ^ 31
        (j ≠ 0 → ∃ t, exec (.join ra) s = .next t ∧ t.core.running = false ∧ t.homeLe (x.pa + 24) 4 = j + 2 ^ 31 ∧ t.sched.ready = s.sched.ready ∧
          ∀ d, (d < x.pa + 24 ∨ x.pa + 28 ≤ d) → t.homeByte d = c.homeByte d) ∧
        (j = 0 → s.poolUsed < Config.poolRecords → ∃ t, exec (.join ra) s = .next t ∧ t.core.running = false ∧
          t.sched.ready = s.sched.ready ++ [⟨BitVec.ofNat 2 (c.homeLe (x.pa + 40) 1), id.ctx, id.launch, s.now, s.now, none, .record a⟩] ∧
          ∀ d, t.homeByte d = c.homeByte d)))

/-- Outside a block: YIELD frees the core and queues the task, resuming after the YIELD, at the tail of its priority, pinned to its core for a nest task, with all that the core holds for it and the core's number, of the buffers of a launch that discards them only the visible banks and the landing slots; PRIO of a level up to the task's maximum makes it its current one and changes nothing else, above it traps with ILLOP. STEPB, with no closure collective and no fault pending: of a pool task, with no record waiting for a core and neither record nor replay on, publishes and acquires, answers 0 and has DIESET name the dies its launch admits; of either waits, with none of its effect, while one of its dirty bytes would be requested in a declared interval; of a nest task else sends its dirty bytes to be held and waits, and once the step is complete, with no record waiting for a core, acquires and answers twice the launch's step count, or traps with the code under which its bytes were refused. The entry mark kept across YIELD and the task numbers and marks of a saved task are the model's readings (log entries 11 and 57). -/
def Obligations.YieldPriorityAndStep : Prop :=
  ∀ (s : State) (rd ra : Reg), s.noBlock →
    let id := s.core.t.id
    (∃ t e u b, exec .yield s = .next t ∧ t.core.running = false ∧ t.core.t = Task.zero ∧ t.sched.ready = s.sched.ready ++ [e] ∧ e.prio = id.prio ∧
      e.ctx = id.ctx ∧ e.launch = id.launch ∧ e.since = s.now ∧ e.born = s.now ∧ e.work = .resume u b (if id.nest then some s.core.phys else none) ∧
      u.pc = nextPc s.core.t.pc 1 ∧ u.regs = s.core.t.regs ∧ u.id = id ∧ u.q = s.core.t.q ∧ u.view = s.core.t.view ∧ u.sys = s.core.t.sys ∧
      u.away = ⟨decide (16 ≤ granuleOf s.core.t.pc + 1), s.core.stopped, s.core.epend, s.core.phys⟩ ∧ u.acc0 = s.core.t.acc0 ∧ u.acc1 = s.core.t.acc1 ∧
      b = (if id.bufd then keptBuffers s.core else s.core.buf) ∧ (s.poolUsed < Config.poolRecords → e.ring = none ∧ t.mem = s.mem)) ∧
    (s.cleanS [ra] →
      ((s.S ra).toNat ≤ id.maxPrio.toNat → ∃ t, exec (.prio ra) s = .next t ∧ t.core.t.id.prio.toNat = (s.S ra).toNat ∧
        t.core.t.pc = nextPc s.core.t.pc 1 ∧ restEqTask s t (fun a b => { a with id := { a.id with prio := b.id.prio } })) ∧
      (id.maxPrio.toNat < (s.S ra).toNat → trapsAt (.prio ra) s cILLOP)) ∧
    (s.core.t.phase = .idle → closurePending s = false → s.core.t.pend.misclose = false →
      (s.heldDirty (fun _ => true) = true → waitsAt (.stepb rd) s) ∧
      (id.nest = false → s.heldDirty (fun _ => true) = false → s.noLog → (∀ l, s.launch id.launch = some l → l.ctx = s.cid) → s.commit.2 = none → s.sched.ready = [] → ∃ t, exec (.stepb rd) s = .next t ∧ t.core.t.pc = nextPc s.core.t.pc 1 ∧
        t.S rd = 0 ∧ (∀ r, r ≠ rd → t.S r = s.S r) ∧
        (∀ l, s.launch id.launch = some l → admitDies s l ≠ [] → t.core.t.sys.dieset = diesetWord l.steps (admitDies s l)) ∧ t.core.t.view.pin = [] ∧ t.core.t.view.dirty = [] ∧ (∀ a, t.homeByte a = s.commit.1.homeByte a)) ∧
      (id.nest = true → s.heldDirty (fun _ => true) = false → ∃ t p, exec (.stepb rd) s = .next t ∧ t.core.t.pc = s.core.t.pc ∧ t.core.waiting = true ∧
        t.core.t.phase = .held .lane true rd ∧ t.sched.packets = s.sched.packets ++ [p] ∧ p.uid = id.uid ∧ p.bytes = s.core.t.view.dirty ∧ p.step = true ∧
        t.core.t.view.dirty = [] ∧ t.core.t.regs = s.core.t.regs ∧ ∀ a, t.homeByte a = s.homeByte a)) ∧
    (∀ sc st r code, s.core.t.phase = .merged sc st r → s.core.t.pend.refused = some code →
      exec (.stepb rd) s = .next (takeTrap (.cc code) s.core.t.pc (s.modT fun t => { t with phase := .idle }))) ∧
    (∀ l sc st r, s.core.t.phase = .merged sc st r → s.core.t.pend.refused = none → s.core.t.pend.barbrk = false → s.launch id.launch = some l →
      s.sched.ready = [] → ∃ t, exec (.stepb rd) s = .next t ∧ t.core.t.pc = nextPc s.core.t.pc 1 ∧
        t.S rd = (if rd = 0 then 0 else BitVec.ofNat 64 (2 * l.steps)) ∧
        (∀ q, q ≠ rd → t.S q = s.S q) ∧ t.core.t.phase = .idle ∧ t.core.t.view.pin = [] ∧ sameBytes { s with core := { s.core with t := { s.core.t with view := t.core.t.view } } } t)

/-- Outside a block, of an instance of a scope that the task may name: BARI makes a pool task a member, at once or when the started phase completes, lets a member that has asked to leave stay, and changes nothing for a nest task; BARI.lv undoes this; BARA of a member that has not arrived arrives, answers the phase number and completes the phase when it can; BARW goes on when the phase is past and waits for the open one; BARAW does both, the arrival standing while it waits, also where a wait at another place was given up, and its wait is forgotten when it ends or faults; a member that has arrived already waits; BARX adds to the byte count and arms the task. A non-member, a phase to come and a byte count of zero or 2^32 and more trap with ILLOP, as every one of them does for a POD instance without a group; a broken instance traps with BARBRK. No memory, no other instance and no other register changes. BARRIER_RELEASE completes every open phase whose members have all arrived, whose byte count is zero and that is neither broken nor waits for another package. That a POD instance waits for another package by one mark is the model's choice (log entry 35). -/
def Obligations.BarrierInstructions : Prop :=
  ∀ (s : State) (sc : Scope) (rd ra : Reg) (b : BitVec 3), s.noBlock →
    let pc' := nextPc s.core.t.pc 1
    let u := s.core.t.id.uid
    let r := s.myBar sc b
    let acts (i : Instr) (q : Bar) (pc : Word) (wt : Bool) (w : List Reg) (n : Nat) (bw : Option (Word × Nat)) : Prop :=
      ∃ t, exec i s = .next t ∧ t.core.t.pc = pc ∧ t.myBar sc b = q ∧ (∀ x, x ∉ w → t.S x = s.S x) ∧
        (∀ x, x ∈ w → t.S x = if x = 0 then 0 else BitVec.ofNat 64 n) ∧ t.core.t.barw = bw ∧
        t.core.waiting = wt ∧ restEqBars s t ∧ sameBytes s t ∧
        ∀ o, o ∈ s.sched.bars → o.is s.core.t.id s.core.phys sc b false = false → o ∈ t.sched.bars
    let same (i : Instr) : Prop := ∃ t, exec i s = .next t ∧ t.core.t.pc = pc' ∧ Frame s t []
    let named : Prop := ¬(sc = .pod ∧ s.core.t.id.podg = 0)
    let anew : Prop := ∀ n, s.core.t.barw ≠ some (s.core.t.pc, n)
    let givenUp (c : BitVec 8) : Prop := exec (.baraw sc rd b) s = .next (takeTrap (.cc c) s.core.t.pc (s.modT fun t => { t with barw := none }))
    (¬named → trapsAt (.bari sc b) s cILLOP ∧ trapsAt (.bariLv sc b) s cILLOP ∧ trapsAt (.bara sc rd b) s cILLOP ∧
      (s.cleanS [ra] → trapsAt (.barw sc b ra) s cILLOP ∧ trapsAt (.barx sc b ra) s cILLOP) ∧
      (anew → trapsAt (.baraw sc rd b) s cILLOP) ∧ (¬anew → givenUp cILLOP)) ∧
    (named → s.core.t.id.nest = true → same (.bari sc b) ∧ same (.bariLv sc b)) ∧
    (named → s.core.t.id.nest = false →
      (u ∈ r.joining → same (.bari sc b)) ∧
      (u ∉ r.joining → u ∈ r.members → acts (.bari sc b) { r with leaving := r.leaving.filter (· ≠ u) } pc' false [] 0 s.core.t.barw) ∧
      (u ∉ r.joining → u ∉ r.members →
        (r.started = true → acts (.bari sc b) { r with joining := r.joining ++ [u] } pc' false [] 0 s.core.t.barw) ∧
        (r.started = false → acts (.bari sc b) { r with members := r.members ++ [u] } pc' false [] 0 s.core.t.barw)) ∧
      (u ∈ r.joining → acts (.bariLv sc b) { r with joining := r.joining.filter (· ≠ u) } pc' false [] 0 s.core.t.barw) ∧
      (u ∉ r.joining → u ∉ r.members → same (.bariLv sc b)) ∧
      (u ∉ r.joining → u ∈ r.members →
        (r.started = true → acts (.bariLv sc b) { r with leaving := r.leaving.filter (· ≠ u) ++ [u] } pc' false [] 0 s.core.t.barw) ∧
        (r.started = false → acts (.bariLv sc b) { r with members := r.members.filter (· ≠ u) } pc' false [] 0 s.core.t.barw))) ∧
    (named → s.core.t.pend.barovr = false →
      let here := ({ r with arrived := r.arrived ++ [u], started := true } : Bar).settle
      (u ∉ r.members → trapsAt (.bara sc rd b) s cILLOP ∧ (anew → trapsAt (.baraw sc rd b) s cILLOP)) ∧
      (u ∈ r.members → r.broken = true → trapsAt (.bara sc rd b) s cBARBRK ∧ (anew → trapsAt (.baraw sc rd b) s cBARBRK)) ∧
      (u ∈ r.members → r.broken = false → u ∈ r.arrived → waitsAt (.bara sc rd b) s ∧ (anew → waitsAt (.baraw sc rd b) s)) ∧
      (u ∈ r.members → r.broken = false → u ∉ r.arrived →
        acts (.bara sc rd b) here pc' false [rd] r.ph s.core.t.barw ∧
        (anew → r.ph < here.ph → acts (.baraw sc rd b) here pc' false [rd] r.ph none) ∧
        (anew → here.ph = r.ph → acts (.baraw sc rd b) here s.core.t.pc true [rd] r.ph (some (s.core.t.pc, r.ph)))) ∧
      (∀ n, s.core.t.barw = some (s.core.t.pc, n) → (r.ph < n → givenUp cILLOP) ∧ (n ≤ r.ph → r.broken = true → givenUp cBARBRK)) ∧
      (∀ n, s.core.t.barw = some (s.core.t.pc, n) → r.broken = false →
        (n < r.ph → ∃ t, exec (.baraw sc rd b) s = .next t ∧ t.core.t.pc = pc' ∧ t.core.t.barw = none ∧ t.core.t.regs = s.core.t.regs ∧
          t.sched = s.sched ∧ sameBytes s t) ∧
        (n = r.ph → waitsAt (.baraw sc rd b) s)) ∧
      (s.cleanS [ra] →
        let n := (s.S ra).toNat
        (r.ph < n → trapsAt (.barw sc b ra) s cILLOP) ∧ (n ≤ r.ph → r.broken = true → trapsAt (.barw sc b ra) s cBARBRK) ∧
        (n < r.ph → r.broken = false → same (.barw sc b ra)) ∧ (n = r.ph → r.broken = false → waitsAt (.barw sc b ra) s) ∧
        ((n = 0 ∨ 2 ^ 32 ≤ n ∨ u ∉ r.members) → trapsAt (.barx sc b ra) s cILLOP) ∧
        (n ≠ 0 → n < 2 ^ 32 → u ∈ r.members → r.broken = true → trapsAt (.barx sc b ra) s cBARBRK) ∧
        (n ≠ 0 → n < 2 ^ 32 → u ∈ r.members → r.broken = false →
          acts (.barx sc b ra) { r with bc := r.bc + n, armed := some u, started := true } pc' false [] 0 s.core.t.barw))) ∧
    (∃ t, exec .barrierRelease s = .next t ∧ t = { s with sched := { s.sched with bars := t.sched.bars } } ∧
      t.sched.bars.length = s.sched.bars.length ∧
      ∀ (i : Nat) (o : Bar), s.sched.bars[i]? = some o →
        (o.phaseBar = true → t.sched.bars[i]? = some o) ∧
        (o.phaseBar = false →
          let due : Prop := o.started = true ∧ o.broken = false ∧ o.remote = false ∧ o.bc = 0 ∧ o.members ≠ [] ∧ ∀ m, m ∈ o.members → m ∈ o.arrived
          (¬due → t.sched.bars[i]? = some o) ∧
          (due → ∃ q : Bar, t.sched.bars[i]? = some q ∧ q.ph = o.ph + 1 ∧ q.arrived = [] ∧ q.started = false ∧ q.armed = none ∧
            ∀ m, m ∈ q.members ↔ (m ∈ o.members ∧ m ∉ o.leaving) ∨ m ∈ o.joining)))

/-- Outside a block: CHCFG of a slot size of zero releases a channel that holds no tile and has no CHSEND in flight; of any other size it configures the end with its operands, with nothing landed, every credit given and its partner lost already where its package is cut off, when the checks of R349 pass, and changes no other channel, no register and no memory; where they fail it traps with their code, as for a task that is not of a nest launch (ILLOP) or a busy channel (CHAN). CDIG adds an aligned region of 8 to 2^40 bytes as one of at most 16; CDIG.clr empties the list. With neither record nor replay on, CSTAT answers 2 for a number 16 or more before the last, 1 for one that has not completed, else its status word; CSTAT.tl the last number completed; TIERQ 2 for a number 128 or more before the last, 1 for one that has not retired, else its status; a number not yet given traps with ILLOP. AFLG answers the atomics' flags and, as .clr, clears them. That a CHSEND not yet issued counts as in flight, and that the own-die check holds within the package, are the model's readings (log entries 28 and 48). -/
def Obligations.ChannelEndsAndStatus : Prop :=
  ∀ (s : State) (up : Bool) (n : BitVec 3) (rd ra rb : Reg) (x : ChX) (k : BitVec 4), s.noBlock →
    let i : Instr := if up then .chcfgUp n ra rb x else .chcfgDn n ra rb x
    let sets (e : ChEnd) : Prop := ∃ t, exec i s = .next t ∧ t.core.t.pc = nextPc s.core.t.pc 2 ∧ t.ch n = e ∧ (∀ m, m ≠ n → t.ch m = s.ch m) ∧
      restEqTask s t (fun a b => { a with chans := b.chans }) ∧ sameBytes s t
    (x.slotu = 0 → (chanBusy s.core.t n = true → trapsAt i s cCHAN) ∧ (chanBusy s.core.t n = false → sets ChEnd.zero)) ∧
    (x.slotu ≠ 0 → s.cleanS [ra, rb] →
      let e : ChEnd := { conf := true, up := up, a := s.S ra, b := s.S rb, x := x, ss := 0, rs := 0, slots := .replicate 4 ⟨false, 0, 0, 0, 0, none⟩,
                         cred := 0xF, dead := s.cutOff s.cid ((s.S ra).toNat % 256), peer := none }
      (chcfgCheck s n e = none → sets e) ∧
      (∀ f, chcfgCheck s n e = some f → trapsAt i s f.code) ∧
      (s.core.t.id.nest = false → trapsAt i s cILLOP) ∧
      (chcfgCheck s n e = none → chanBusy s.core.t n = false ∧ (s.S rb).toNat % 512 = 0 ∧ s.core.t.id.nest = true ∧
        (s.S rb).toNat + 2048 * x.slotu.toNat ≤ Config.abBytes)) ∧
    (s.cleanS [ra, rb] →
      let a := s.S ra
      let b := (s.S rb).toNat
      let full := s.core.t.closure.length
      ((b < 8 ∨ 2 ^ 40 < b ∨ 16 ≤ full) → trapsAt (.cdig ra rb) s cILLOP) ∧
      (8 ≤ b → b ≤ 2 ^ 40 → full < 16 →
        ((a.toNat % 8 ≠ 0 ∨ b % 8 ≠ 0) → trapsAt (.cdig ra rb) s cALIGN) ∧
        (a.toNat % 8 = 0 → b % 8 = 0 → ∃ t, exec (.cdig ra rb) s = .next t ∧ t.core.t.pc = nextPc s.core.t.pc 1 ∧
          t.core.t.closure = s.core.t.closure ++ [(a, s.S rb)] ∧ restEqTask s t (fun a b => { a with closure := b.closure })))) ∧
    (∃ t, exec .cdigClr s = .next t ∧ t.core.t.pc = nextPc s.core.t.pc 1 ∧ t.core.t.closure = [] ∧
      restEqTask s t (fun a b => { a with closure := b.closure })) ∧
    (s.cleanS [ra] → s.noLog →
      let m := (s.S ra).toNat
      let c := s.core.t.tls.coll[k.toNat]
      ((m = 0 ∨ c.i.toNat < m) → trapsAt (.cstat rd k ra) s cILLOP) ∧
      (m ≠ 0 → m ≤ c.i.toNat → (m + 16 ≤ c.i.toNat → writesReg (.cstat rd k ra) s rd 2) ∧
        (c.i.toNat < m + 16 → c.v.toNat < m → writesReg (.cstat rd k ra) s rd 1) ∧
        (c.i.toNat < m + 16 → m ≤ c.v.toNat → writesReg (.cstat rd k ra) s rd (Sparse.get 0 s.core.t.collSt (16 * k.toNat + m % 16)))) ∧
      writesReg (.cstatTl rd k) s rd c.v ∧
      ∀ store : Bool,
        let tl := if store then s.core.t.tls.s else s.core.t.tls.l
        let held := (if store then s.core.t.q.store else s.core.t.q.load).find? fun c => c.num = s.S ra
        ((m = 0 ∨ tl.i.toNat < m) → trapsAt (.tierq rd store ra) s cILLOP) ∧
        (m ≠ 0 → m ≤ tl.i.toNat → (m + 128 ≤ tl.i.toNat → writesReg (.tierq rd store ra) s rd 2) ∧
          (tl.i.toNat < m + 128 → ∀ c, held = some c → writesReg (.tierq rd store ra) s rd (if c.pushed then c.status else 1)) ∧
          (tl.i.toNat < m + 128 → held = none →
            writesReg (.tierq rd store ra) s rd (Sparse.get 0 (if store then s.core.t.statS else s.core.t.statL) m)))) ∧
    (s.noLog → writesReg (.aflg false rd) s rd (s.core.t.sys.atfl.setWidth 64) ∧
      ∃ t, exec (.aflg true rd) s = .next t ∧ t.S rd = (if rd = 0 then 0 else s.core.t.sys.atfl.setWidth 64) ∧ (∀ q, q ≠ rd → t.S q = s.S q) ∧
        t.core.t.pc = nextPc s.core.t.pc 1 ∧ t.core.t.sys = { s.core.t.sys with atfl := 0 } ∧ sameBytes s t ∧
        restEqTask s t (fun a b => { a with sys := b.sys, regs := { a.regs with s := b.regs.s, spois := b.regs.spois } }))

/-- A fault of a task that is not in its handler, of a context with a handler: TPC, TCAUSE with code, unit, level, address mark and information at their places, TUPC, TTL and TVA are written, the task runs at system level with no block open, the engines stop and the PC is TVEC; nothing else changes but the counts of POISON and MCHK traps; where TVEC is no target the core halts. In the handler a fault halts the core with the double-fault mark, or asks for that halt while a copy to its own buffers is under way. Without a handler the task is killed and the fault goes to system software as a context fault event. TRAP saves the next PC and its number, BRK its own PC. With no command before the checker TRAP_ENTRY delivers the pending engine fault of the lowest unit and code once the checker has agreed to it, asks for that agreement before, and does nothing without a fault. ERET in a handler, at system level, restores privilege, block and PC, forgets a BARAW that waits at another place and lets the engines run, or, with a fault pending, traps again at once; a task that can not resume is killed by it, as by ERET.kill; outside a handler both trap with ILLOP. Which faults carry an address, the ordinal of a resumed block, the entry mark and which copies a halt waits for (R383) are the model's readings (log entries 25, 55, 11 and 53). -/
def Obligations.TrapsAndReturns : Prop :=
  (∀ f : FaultInfo, f.tcause.extractLsb' 0 8 = f.code ∧ f.tcause.extractLsb' 8 4 = f.unit ∧ f.tcause.extractLsb' 12 3 = f.lvl ∧
    f.tcause.getLsbD 15 = f.va.isSome ∧ f.tcause.extractLsb' 16 16 = 0 ∧ f.tcause.extractLsb' 32 32 = f.info) ∧
  ∀ (s : State),
    let y := s.core.t.sys
    (∀ f pc,
      (y.inTrap = false → s.handler ≠ 0 → TrapsTo s (takeTrap f pc s) f pc) ∧
      (y.inTrap = true → s.core.copying = false → takeTrap f pc s = { s with core := { s.core with
        waiting := false, health := { s.core.health with halted := true, haltReq := false, cause := 0x32, dblf := true, div := false } } }) ∧
      (y.inTrap = true → s.core.copying = true → takeTrap f pc s = { s with core := { s.core with
        waiting := false, health := { s.core.health with haltReq := true, dblf := true, div := false } } }) ∧
      (y.inTrap = false → s.handler = 0 → s.core.running = true →
        (takeTrap f pc s).core.running = false ∧ (takeTrap f pc s).core.t = Task.zero ∧ (takeTrap f pc s).core.phys = s.core.phys ∧
        ∃ h : HostSt, (takeTrap f pc s).host = h.post (eventBytes 2 f.code s.cid 0
          (leBytes 8 f.tcause.toNat ++ leBytes 8 pc.toNat ++ leBytes 8 f.upc.toNat ++ leBytes 8 (f.va.getD 0).toNat ++ leBytes 8 f.tl.toNat ++
           leBytes 4 s.core.t.id.lid.toNat)))) ∧
    (∀ n, s.noBlock → y.inTrap = false → s.handler ≠ 0 →
      (∃ t, exec (.trap n) s = .next t ∧ TrapsTo s t ⟨0x30, 0, 0, 0, none, 0, n.setWidth 32⟩ (nextPc s.core.t.pc 1)) ∧
      ∃ t, exec (.brk n) s = .next t ∧ TrapsTo s t ⟨0x31, 0, 0, 0, none, 0, n.setWidth 32⟩ s.core.t.pc) ∧
    (s.core.running = true → s.core.stopped = false → s.core.health.halted = false → s.core.health.haltReq = false → s.core.ckpt = [] → y.inTrap = false → s.handler ≠ 0 →
      ∀ f, s.core.nextFault = some f → f ∈ s.core.pendingFaults ∧ (∀ g, g ∈ s.core.pendingFaults → faultLt g f = false) ∧
        (s.core.hold = some true → ∃ t, exec .trapEntry s = .next t ∧ TrapsTo (s.clearFault f) t f s.core.t.pc) ∧
        (s.core.hold ≠ some true → exec .trapEntry s = .next (s.modC fun c => { c with hold := some false }))) ∧
    (s.core.pendingFaults = [] → exec .trapEntry s = .next s) ∧
    (s.noBlock → s.core.t.prv = true →
      (y.inTrap = false → trapsAt .eret s cILLOP ∧ trapsAt .eretKill s cILLOP) ∧
      (y.inTrap = true → s.core.t.valid = true → (y.tcause.extractLsb' 0 8 ≠ cMCHK ∨ y.tcause.extractLsb' 32 32 ≠ 2) →
        (s.core.pendingFaults = [] → exec .eret s = .next { s with core := { s.core with
          stopped := false, waiting := false, entry := decide (granuleOf y.tpc = 1) || decide (s.core.t.trapEnt = some y.tpc),
          t := { s.core.t with prv := y.tprv, blk := if y.tblk then s.core.t.savedBlk.map (·.resumed (s.modT fun t => { t with prv := y.tprv }) y.tpc) else none, savedBlk := none, pc := y.tpc, barw := s.core.t.barw.filter (·.1 = y.tpc),
                               sys := { y with inTrap := false } } } }) ∧
        (∀ f, s.core.nextFault = some f → s.handler ≠ 0 → ∃ t, exec .eret s = .next t ∧ t.core.t.sys.inTrap = true ∧ t.core.t.sys.tpc = y.tpc ∧
          t.core.t.sys.tcause = f.tcause ∧ t.core.t.sys.tprv = y.tprv ∧ t.core.t.prv = true ∧ t.core.t.regs = s.core.t.regs)) ∧
      (y.inTrap = true → s.core.running = true →
        let gone (i : Instr) : Prop := ∃ t, exec i s = .next t ∧ t.core.running = false ∧ t.core.t = Task.zero ∧ t.core.phys = s.core.phys
        gone .eretKill ∧ ((s.core.t.valid = false ∨ (y.tcause.extractLsb' 0 8 = cMCHK ∧ y.tcause.extractLsb' 32 32 = 2)) → gone .eret)))

/-- The image holds format 1, the context, the saved PC, every scalar and descriptor register, the queue timelines, the fault record and the buffers at the places of R376. In a handler, at system level: CTXSV and CTXRS answer 1 for a misaligned address; CTXSV writes the image's pages in order and answers 0, 2 at a page that cannot be translated, 3 at one whose write is refused, 5 at a poisoned value; CTXRS answers the status of a page it cannot read, 4 for a header of another format, context or not valid, then with no register but RD changed; else it restores registers, timelines and TPC, keeps PC and privilege, and answers 0. Both wait while a page of the image is held by a declared interval, else complete at every address, and with 0 where one L1 TLB entry maps the whole clean image. Outside a handler both trap with ILLOP. FLTREC of a misaligned address traps with ALIGN; it writes the 256 bytes of the fault record and no other byte on a direct page, and completes on a phase-ordered one with room and in the timeline area too. With the firmware running a host access of 4 or 8 aligned bytes inside a core's slice is performed, any other is answered with Completer Abort. A read of the aperture of a halted core answers its image's bytes at DWIDX, DWIDX its word, a reserved offset zero; of another core all of these answer all ones, and of either DBGCTL and DBGST answer their words. A write asks for a halt by DWHLT or sets TRP; of a halted core it sets DWIDX in its writable bits, or through the aperture the PC or the scalar register the offset names; of another core these are discarded, as is a write at a read-only or reserved offset. Which sections CTXRS takes from bytes whose layout the manual leaves open is the model's choice (log entry 26). What an aperture write of the PC discards is the model's reading (log entry 27). -/
def Obligations.ContextImagesAndAperture : Prop :=
  (∀ (s : State) (pc : Word) (buf valid : Bool),
    let w (o n : Nat) : Nat := imgLe (imageByte s pc buf valid) o n
    w 0 4 = 1 ∧ w 8 4 = s.cid.toNat ∧ w 16 8 = pc.toNat ∧ (∀ r : Reg, w (0x1000 + 8 * r.toNat) 8 = (s.S r).toNat) ∧
    (∀ d : DCode, w (0x1200 + 32 * d.toNat) 32 = (s.D d).toNat) ∧
    w 0x130 8 = s.core.t.tls.l.i.toNat ∧ w 0x138 8 = s.core.t.tls.l.v.toNat ∧ w 0x140 8 = s.core.t.tls.c.i.toNat ∧ w 0x150 8 = s.core.t.tls.s.i.toNat ∧
    (∀ i, i < 256 → imageByte s pc buf valid (0x740 + i) = (faultRecord s.core.t).getD i 0) ∧
    (∀ i, i < 0x200000 → imageByte s pc buf valid (0x200000 + i) = if buf then Sparse.get 0 s.core.buf.wb i else 0)) ∧
  (∀ (s : State) (nb : Bool) (rd ra : Reg), s.noBlock → s.core.t.prv = true → s.cleanS [ra] →
    let a := s.S ra
    let answers (i : Instr) (s1 : State) (st : Nat) : Prop := ∃ t, exec i s = .next t ∧ t.S rd = (if rd = 0 then 0 else BitVec.ofNat 64 st) ∧
      (∀ q, q ≠ rd → t.S q = s.S q) ∧ t.core.t.pc = nextPc s.core.t.pc 1 ∧ t.mem = s1.mem ∧ t.core.buf = s.core.buf
    (s.core.t.sys.inTrap = false → trapsAt (.ctxsv nb rd ra) s cILLOP ∧ trapsAt (.ctxrs rd ra) s cILLOP) ∧
    (s.core.t.sys.inTrap = true →
      (a.toNat % 4096 ≠ 0 → writesReg (.ctxsv nb rd ra) s rd 1 ∧ writesReg (.ctxrs rd ra) s rd 1) ∧
      (a.toNat % 4096 = 0 →
        let len := (0x680000 + 320 * s.core.t.view.lines.length + 4095) / 4096
        (pagesHeld a .w (imagePages len (!nb)) s = true → waitsAt (.ctxsv nb rd ra) s) ∧ (pagesHeld a .r [0] s = true → waitsAt (.ctxrs rd ra) s) ∧
        (∀ s1 st, pagesHeld a .w (imagePages len (!nb)) s = false → savePages (imageByte s s.core.t.sys.tpc (!nb) s.core.t.valid) (pagePois s) a
            (imagePages len (!nb)) s = (s1, st) →
          answers (.ctxsv nb rd ra) s1 st ∧ (st = 0 ∨ st = 2 ∨ st = 3 ∨ st = 5) ∧ (s.mem.comp = [] → st ≠ 3) ∧
            ((∀ p, pagePois s p = false) → st ≠ 5)) ∧
        (∀ s1 st, pagesHeld a .r [0] s = false → loadPages a [0] s [] = (s1, .error st) → answers (.ctxrs rd ra) s1 st) ∧
        (∀ s1 m, pagesHeld a .r [0] s = false → loadPages a [0] s [] = (s1, .ok m) →
          let h := loadByte s1 m
          let fits := imgLe h 0 4 = 1 ∧ imgLe h 8 4 = s.cid.toNat ∧ (imgLe h 12 4).testBit 1 = true
          (¬fits → answers (.ctxrs rd ra) s1 4) ∧
          (∀ s2 st, fits → pagesHeld a .r (imagePages (imgLe h 4 4) ((imgLe h 12 4).testBit 0)) s1 = false → loadPages a (imagePages (imgLe h 4 4) ((imgLe h 12 4).testBit 0)) s1 [] = (s2, .error st) → answers (.ctxrs rd ra) s2 st) ∧
          (∀ s2 m2, fits → pagesHeld a .r (imagePages (imgLe h 4 4) ((imgLe h 12 4).testBit 0)) s1 = false → loadPages a (imagePages (imgLe h 4 4) ((imgLe h 12 4).testBit 0)) s1 [] = (s2, .ok m2) →
            let f := loadByte s2 m2
            ∃ t, exec (.ctxrs rd ra) s = .next t ∧ t.S rd = 0 ∧
              (∀ q : Reg, q ≠ rd → q ≠ 0 → (t.S q).toNat = imgLe f (0x1000 + 8 * q.toNat) 8) ∧
              (∀ d : DCode, (t.D d).toNat = imgLe f (0x1200 + 32 * d.toNat) 32) ∧
              t.core.t.tls.l.i.toNat = imgLe f 0x130 8 ∧ t.core.t.tls.c.i.toNat = imgLe f 0x140 8 ∧ t.core.t.tls.s.i.toNat = imgLe f 0x150 8 ∧
              t.core.t.sys.tpc.toNat = imgLe f 16 8 ∧ t.core.t.pc = nextPc s.core.t.pc 1 ∧ t.core.t.prv = true ∧ t.core.t.id = s.core.t.id ∧
              ∀ b, t.homeByte b = s.homeByte b))))) ∧
  (∀ (s s1 : State) (ra : Reg) (x : Xl), s.noBlock → s.cleanS [ra] →
    let a := s.S ra
    (a.toNat % 256 ≠ 0 → trapsAt (.fltrec ra) s cALIGN) ∧
    (a.toNat % 256 = 0 → translate s s.cid a .w (!s.core.t.prv) = (s1, .ok x) → x.cls = 1 → s.rfHeld x.pa = false → inTimelineArea s a = false →
      s.mem.comp = [] → s.MemOk →
      ∃ t, exec (.fltrec ra) s = .next t ∧ t.core.t.pc = nextPc s.core.t.pc 1 ∧ restEqStore s t ∧
        (∀ b, (b < x.pa ∨ x.pa + 256 ≤ b) → t.homeByte b = s.homeByte b ∧ t.viewByte b = s.viewByte b) ∧
        (s.plat.hbmMap = [] → t.homeBytes x.pa 256 = faultRecord s.core.t))) ∧
  (∀ (s : State) (nb : Bool) (rd ra : Reg), s.noBlock → s.cleanS [ra] →
    let a := s.S ra
    let pc' := nextPc s.core.t.pc 1
    (s.core.t.prv = true → s.core.t.sys.inTrap = true → (s.core.t.id.plumb && s.rfOpen) = false →
      (∃ t st, exec (.ctxsv nb rd ra) s = .next t ∧ t.core.t.pc = pc' ∧ t.S rd = (if rd = 0 then 0 else BitVec.ofNat 64 st) ∧
        (∀ q, q ≠ rd → t.S q = s.S q) ∧ (st = 0 ∨ st = 1 ∨ st = 2 ∨ st = 3 ∨ st = 5) ∧ (st = 1 ↔ a.toNat % 4096 ≠ 0)) ∧
      (∃ t st, exec (.ctxrs rd ra) s = .next t ∧ t.core.t.pc = pc' ∧ t.S rd = (if rd = 0 then 0 else BitVec.ofNat 64 st) ∧
        (st ≠ 0 → ∀ q, q ≠ rd → t.S q = s.S q) ∧ (st = 0 ∨ st = 1 ∨ st = 2 ∨ st = 4 ∨ st = 5) ∧ (st = 1 ↔ a.toNat % 4096 ≠ 0)) ∧
      (∀ e : TlbE, s.core.l1tlb = [e] → e.ctx = s.cid → a.toNat % 4096 = 0 → pteKey e.leaf.toNat = 0 →
        let maps (n : Nat) : Prop := e.vpn * 4096 ≤ a.toNat ∧ a.toNat + 4096 * n ≤ (e.vpn + e.pages) * 4096 ∧ a.toNat + 4096 * n ≤ 2 ^ 57
        let n := (0x680000 + 320 * s.core.t.view.lines.length + 4095) / 4096
        (maps n → pteW e.leaf.toNat = true → s.mem.comp = [] → (∀ p, pagePois s p = false) →
          ∃ t, exec (.ctxsv nb rd ra) s = .next t ∧ t.core.t.pc = pc' ∧ t.S rd = 0 ∧ (∀ q, q ≠ rd → t.S q = s.S q) ∧ t.core.t.sys = s.core.t.sys) ∧
        (let home := e.pa a.toNat
         let n := s.homeLe (home + 4) 4
         s.homeLe home 4 = 1 → s.homeLe (home + 8) 4 = s.cid.toNat → (s.homeLe (home + 12) 4).testBit 1 = true → 2 ≤ n → maps n →
          pteR e.leaf.toNat = true → (∀ p, p < n → s.homePoisN (home + 4096 * p) 4096 = false ∧ s.homeFail (home + 4096 * p) 4096 = false) →
          ∃ t, exec (.ctxrs rd ra) s = .next t ∧ t.core.t.pc = pc' ∧ t.S rd = 0 ∧
            (∀ q : Reg, q ≠ rd → q ≠ 0 → (t.S q).toNat = s.homeLe (home + 0x1000 + 8 * q.toNat) 8) ∧ ∀ b, t.homeByte b = s.homeByte b))) ∧
    (∀ s1 x, a.toNat % 256 = 0 → translate s s.cid a .w (!s.core.t.prv) = (s1, .ok x) → s.rfHeld x.pa = false →
      (inTimelineArea s a = true ∨ (x.cls ≠ 0 ∧ s.mem.comp = []) ∨ (x.cls = 0 ∧ shadowOk s (s.core.t.view.lines.length + 2) = true)) →
      ∃ t, exec (.fltrec ra) s = .next t ∧ t.core.t.pc = pc' ∧ t.core.t.regs = s.core.t.regs ∧ t.core.t.sys = s.core.t.sys)) ∧
  (∀ (s : State) (core : BitVec 8) (off len : Nat), s.ListsOk →
    let f := s.focus core
    let c := s.coreAt core.toNat
    let read (b : List Byte) : Prop := exec (.debugApertureRead core off len) s = .next { s with host := { s.host with rdata := some b } }
    let words (w : Word) : List Byte := ((leBytes 8 w.toNat).drop (off % 8)).take len
    ((apertureOk off len = false ∨ s.plat.fwOk = false) → exec (.debugApertureRead core off len) s = .next { s with host := { s.host with rdata := none } } ∧
      ∀ data : List Byte, data.length = len → exec (.debugApertureWrite core off data) s = .next { s with host := { s.host with rdata := none } }) ∧
    (apertureOk off len = true → s.plat.fwOk = true →
      (0x8000 ≤ off → c.health.halted = true →
        read ((List.range len).map fun i => imageByte f f.core.t.pc true true (s.dwidx core + (off - 0x8000) + i))) ∧
      (0x8000 ≤ off → c.health.halted = false → read (List.replicate len 0xFF)) ∧
      (off / 8 = 0 → read (if c.health.halted then words (BitVec.ofNat 64 (s.dwidx core)) else List.replicate len 0xFF)) ∧ (off / 8 = 2 → read (words (if c.health.trp then 2 else 0))) ∧
      (off / 8 = 3 → read (words c.health.dbgst)) ∧ (off / 8 = 1 → read (List.replicate len 0)) ∧
      (32 ≤ off → off < 0x8000 → read (List.replicate len (if c.health.halted then 0 else 0xFF))) ∧
      ∀ data : List Byte, data.length = len →
        let v : Word := BitVec.ofNat 64 (leNat data)
        let touches (g : Core → Core) : Prop := ∃ t, exec (.debugApertureWrite core off data) s = .next t ∧ TouchesCore s t core g
        (0x8000 ≤ off → c.health.halted = false → touches id) ∧ ((off / 8 = 3 ∨ (32 ≤ off ∧ off < 0x8000)) → touches id) ∧ (off / 8 = 0 → c.health.halted = false → touches id) ∧
        (len = 8 →
          (off = 0 → c.health.halted = true → Sparse.rising s.host.dwidx = true → ∃ t, exec (.debugApertureWrite core off data) s = .next t ∧ t.dwidx core = (v &&& 0x7FFFF8#64).toNat ∧
            (∀ d : BitVec 8, t.coreAt d.toNat = s.coreAt d.toNat) ∧ t.mem = s.mem) ∧
          (off = 8 → touches fun k => if v.getLsbD 0 && !k.health.halted then { k with health := { k.health with haltReq := true } } else k) ∧
          (off = 16 → v.getLsbD 0 = false → v.getLsbD 2 = false → touches fun k => { k with health := { k.health with trp := v.getLsbD 1 } }) ∧
          (0x8000 ≤ off → c.health.halted = true →
            (s.dwidx core + (off - 0x8000) = 16 → touches fun k =>
              { k with entry := decide (granuleOf v = 1), hold := none, ckpt := [], t := { k.t with pc := v, barw := k.t.barw.filter (·.1 = v) } }) ∧
            ∀ r : Reg, s.dwidx core + (off - 0x8000) = 0x1000 + 8 * r.toNat →
              touches fun k => { k with t := { k.t with regs := k.t.regs.wrS r v } }))))

/-- At system level and outside a block: HALT of a core number halts that core with cause HALT, or leaves it as it is where it is halted, with its own PC at the next instruction; while a copy to that core's own buffers is under way it only asks for the halt, and waits where the core is another; CRST of another core resets that core but for its reservation and its counters, of which it counts one reset; MCHKQ answers one of six counters and, as .clr, zeroes it; any other operand traps with ILLOP. A checker that agrees compares, in program order, the commands of the oldest instruction that waits for it and commits the instructions before the next such one, and where none is left the action that the control core withholds. A mismatch goes back to the committed state, in its registers, its PC, its block and its numbers, drops the commands that have not compared and the action withheld, and counts as one; a second one within 256 committed instructions raises MCHK with information 1 on a core that becomes suspect. An uncorrectable error in a register or in memory poisons it and changes no value (s0 holds none); one in control state is pending as MCHK, or in a handler halts the core, and the core is suspect; a silent one flips one bit of the working bank it names and nothing else; a corrected one counts on the core, or, where it is silent, in memory, a walk cache or a base die, changes nothing. A halt that was asked for is acknowledged, when no such copy is under way; with the firmware running DWHLT asks for a halt, and RUN and STEP release a halted core, through the trap where TRP asks for it, and change no other core. What is counted between two mismatches, which copies a halt waits for, what a corrected error counts on and the places of errors are the model's readings (log entries 13, 53, 58 and 70). -/
def Obligations.DebugAndHealth : Prop :=
  ∀ (s : State), s.ListsOk →
    let next := nextPc s.core.t.pc 1
    let halt (h : Health) : Health := { h with halted := true, haltReq := false, cause := 0x32, dblf := false, div := false }
    (∀ ra : Reg, s.noBlock → s.core.t.prv = true → s.cleanS [ra] →
      let c : BitVec 8 := (s.S ra).extractLsb' 0 8
      ((s.S ra).extractLsb' 8 56 ≠ 0 → trapsAt (.halt ra) s cILLOP ∧ trapsAt (.crst ra) s cILLOP) ∧
      (c = s.core.phys → trapsAt (.crst ra) s cILLOP) ∧
      ((s.S ra).extractLsb' 8 56 = 0 →
        (((s.coreAt c.toNat).health.halted = true ∨ (s.coreAt c.toNat).copying = false) →
          ∃ t, exec (.halt ra) s = .next t ∧ t.core.phys = s.core.phys ∧ t.core.t.pc = next ∧ t.core.t.regs = s.core.t.regs ∧
          (t.coreAt c.toNat).health = (if (s.coreAt c.toNat).health.halted = true then (s.coreAt c.toNat).health else halt (s.coreAt c.toNat).health) ∧
          (c ≠ s.core.phys → (t.coreAt c.toNat).t = (s.coreAt c.toNat).t) ∧
          (∀ d : BitVec 8, d ≠ c → (t.coreAt d.toNat).health = (s.coreAt d.toNat).health ∧ (d ≠ s.core.phys → t.coreAt d.toNat = s.coreAt d.toNat)) ∧
          t = { s with core := t.core, others := t.others }) ∧
        ((s.coreAt c.toNat).health.halted = false → (s.coreAt c.toNat).copying = true →
          ∃ t, exec (.halt ra) s = .next t ∧ (t.coreAt c.toNat).health.halted = false ∧ (t.coreAt c.toNat).health.haltReq = true ∧
            t.core.t.pc = (if c = s.core.phys then next else s.core.t.pc) ∧ t.core.t.regs = s.core.t.regs ∧
            (t.coreAt c.toNat).t.q = (s.coreAt c.toNat).t.q ∧ t = { s with core := t.core, others := t.others }) ∧
        (c ≠ s.core.phys → ∃ t, exec (.crst ra) s = .next t ∧ t.core.phys = s.core.phys ∧ t.core.t.pc = next ∧ t.core.t.regs = s.core.t.regs ∧
          t.coreAt c.toNat = { Core.fresh c with
            reserved := (t.coreAt c.toNat).reserved, resetAt := s.now,
            health := { (Core.fresh c).health with cnt := ((s.coreAt c.toNat).health.count 5).cnt } } ∧
          ∀ n : BitVec 3, (t.ch n).dead = ((s.ch n).dead || ((s.ch n).conf && (s.ch n).phys == c && (s.ch n).pkg == s.pkg))))) ∧
    (∀ (rd : Reg) (k : BitVec 4), s.noBlock → s.noLog →
      (6 ≤ k.toNat → trapsAt (.mchkq false rd k) s cILLOP) ∧
      ∀ v, s.core.health.cnt[k.toNat]? = some v →
        writesReg (.mchkq false rd k) s rd v ∧
        (s.core.t.prv = true → ∃ t, exec (.mchkq true rd k) s = .next t ∧ t.S rd = (if rd = 0 then 0 else v) ∧ (∀ q, q ≠ rd → t.S q = s.S q) ∧
          t.core.t.pc = next ∧ t.core.health = { s.core.health with cnt := t.core.health.cnt } ∧ t.core.health.cnt[k.toNat]? = some 0 ∧
          (∀ j, j ≠ k.toNat → t.core.health.cnt[j]? = s.core.health.cnt[j]?) ∧ sameBytes s t)) ∧
    (let back := s.core.uncommit;
      (∀ k l, s.core.ckpt = k :: l → ∃ t, exec (.checkerCompare true) s = .next t ∧
        t = { s with core := { s.core with ckpt := l, health := { s.core.health with sinceRec := s.core.health.sinceRec.map (· + k.n) },
                                           t := { s.core.t with q := t.core.t.q } } } ∧
        ∀ q, t.core.t.q.get q = (s.core.t.q.get q).map fun c =>
          if c.num.toNat ≤ (((l.head?.map (·.tls)).getD s.core.t.tls).get q).i.toNat then { c with compared := true } else c) ∧
      (s.core.ckpt = [] → exec (.checkerCompare true) s =
        .next { s with core := { s.core with hold := if s.core.hold = some false then some true else s.core.hold } }) ∧
      (s.core.ckpt = [] → back = { s.core with hold := none }) ∧
      (∀ k l, s.core.ckpt = k :: l → back.t.pc = k.pc ∧ back.t.blk = k.blk ∧ back.t.walk = k.walk ∧ back.hold = none ∧ back.ckpt = [] ∧
        back.t.regs = { s.core.t.regs with s := k.s, spois := k.spois, d := k.d, dpois := k.dpois } ∧ back.t.view = s.core.t.view ∧
        ∀ q, back.t.q.get q = (s.core.t.q.get q).filter (·.compared) ∧ back.t.tls.get q = ⟨(k.tls.get q).i, (s.core.t.tls.get q).v⟩) ∧
      ((∀ n, s.core.health.sinceRec = some n → s.core.running = true → 256 ≤ n) → exec (.checkerCompare false) s =
        .next { s with core := { back with health := { s.core.health.count 0 with sinceRec := some 0 } } }) ∧
      (∀ n, s.core.health.sinceRec = some n → n < 256 → s.core.running = true → s.core.t.sys.inTrap = false → s.handler ≠ 0 →
        let s2 : State := { s with core := { back with health := { s.core.health.count 0 with suspect := true, sinceRec := none } } }
        ∃ t, exec (.checkerCompare false) s = .next t ∧ TrapsTo s2 t ⟨0x29, 0, 0, 0, none, 0, 1⟩ back.t.pc)) ∧
    ((∀ loc, ∃ t, exec (.uncorrectableError loc) s = .next t ∧ t.core.t.pc = s.core.t.pc ∧ (∀ q, t.S q = s.S q) ∧ ∀ a, t.homeByte a = s.homeByte a) ∧
      (∀ r : Reg, ∃ t, exec (.uncorrectableError (.scalar r)) s = .next t ∧
        ∀ q, t.core.t.regs.poisS q = (s.core.t.regs.poisS q || (q == r && r != 0))) ∧
      (∀ pa, ∃ t, exec (.uncorrectableError (.mem pa)) s = .next t ∧ ∀ a, t.homePois a = (s.homePois a || a / 8 == pa / 8)) ∧
      ((s.core.running = false ∨ s.core.t.sys.inTrap = false ∨ s.core.health.halted = true) → exec (.uncorrectableError .control) s = .next { s with core := { s.core with
        epend := s.core.epend ++ [⟨0x29, 0, 0, 0, none, 0, 2⟩], health := { s.core.health with suspect := true } } }) ∧
      (s.core.running = true → s.core.t.sys.inTrap = true → s.core.health.halted = false → s.core.copying = false →
        exec (.uncorrectableError .control) s = .next { s with core := { s.core with
          waiting := false, t := { s.core.t with valid := false },
          health := { s.core.health with suspect := true, halted := true, haltReq := false, cause := 0x32, dblf := true, div := false } } }) ∧
      (∀ a e b, Sparse.rising (if a then s.core.t.acc1 else s.core.t.acc0).work = true → ∃ t, exec (.uncorrectableError (.silent a e b)) s = .next t ∧
        (let f (u : State) := (if a then u.core.t.acc1 else u.core.t.acc0)
         t = { s with core := { s.core with t := if a then { s.core.t with acc1 := { s.core.t.acc1 with work := (f t).work } }
                                                    else { s.core.t with acc0 := { s.core.t.acc0 with work := (f t).work } } } } ∧
         ∀ j, Sparse.get 0 (f t).work j = if j = e % 16384 then Sparse.get 0 (f s).work j ^^^ (1#56 <<< b.toNat) else Sparse.get 0 (f s).work j)) ∧
      (∀ n, exec (.correctableError (.mem n)) s = .next s ∧ exec (.correctableError (.walkCache n)) s = .next s ∧
        exec (.correctableError (.journal n)) s = .next s) ∧
      (∀ a e b, exec (.correctableError (.silent a e b)) s = .next s) ∧
      ∀ loc, (∀ n, loc ≠ .mem n ∧ loc ≠ .walkCache n ∧ loc ≠ .journal n) → (∀ a e b, loc ≠ .silent a e b) →
        exec (.correctableError loc) s = .next { s with core := { s.core with health := s.core.health.count 4 } }) ∧
    ∀ c : BitVec 8,
      let k := s.coreAt c.toNat
      ((k.health.haltReq = false ∨ k.copying = true) → exec (.coreHalted c) s = .next s) ∧
      (k.health.haltReq = true → k.copying = false → ∃ t, exec (.coreHalted c) s = .next t ∧
        TouchesCore s t c fun k => { k with waiting := false,
                                            health := { k.health with halted := true, haltReq := false, cause := 0x32 } }) ∧
      (s.plat.fwOk = false → exec (.dwhlt c) s = .next s ∧ exec (.dbgctlRun c) s = .next s ∧ exec (.dbgctlStep c) s = .next s) ∧
      (s.plat.fwOk = true → ∃ t, exec (.dwhlt c) s = .next t ∧
        TouchesCore s t c fun k => if k.health.halted = true then k else { k with health := { k.health with haltReq := true } }) ∧
      ∀ step : Bool, s.plat.fwOk = true →
        let i : Instr := if step then .dbgctlStep c else .dbgctlRun c
        let free (k : Core) : Core := { k with
          waiting := false,
          health := { k.health with halted := false, cause := 0, dblf := false, div := false, stepping := step } }
        (k.health.halted = false → ∃ t, exec i s = .next t ∧ TouchesCore s t c id) ∧
        (k.health.halted = true → (k.health.trp = false ∨ k.running = false) → ∃ t, exec i s = .next t ∧ TouchesCore s t c free) ∧
        (k.health.halted = true → k.health.trp = true → k.running = true → k.t.sys.inTrap = false → (s.focus c).handler ≠ 0 →
          ∃ t, exec i s = .next t ∧ (t.coreAt c.toNat).t.sys.inTrap = true ∧ (t.coreAt c.toNat).t.sys.tcause = 0x32 ∧
            (t.coreAt c.toNat).t.sys.tpc = k.t.pc ∧ (t.coreAt c.toNat).t.regs = k.t.regs ∧ ∀ d : BitVec 8, d ≠ c → t.coreAt d.toNat = s.coreAt d.toNat)

/-- With its firmware running: the entry that the banksman serves first goes to the core chosen for it: a saved task continues there with its context and buffers, with what its core held for it, in a quad whose clock runs in its mode; a root task or a record starts, at task level, at CODE with its arguments, launch identifier and frame in s60 to s62 and zero in every other register, unless its start traps, and takes the next task number. A nest launch that waits alone and whose cores are not all free and reserved for it reserves those that are free, gives up those of other dies, and starts nothing; with all of them free it starts a task on each in one event, with slice bounds, index and count in s1 to s4. A record that has waited 2^20 cycles moves up one level, others stay. A forced pre-emption, for a record that no idle core can take, takes a task of the lowest priority among those the record may replace, and queues it with its committed PC and registers. A quad switches its clock to NEXT only while nothing runs there. A phase barrier whose members have all arrived merges their packets, which then are gone, and marks them, and one that a killed member broke does so for the members that have arrived; a step barrier does so for its launch, counting the step, while the dies stay as they are. Each does nothing when nothing is due. The core an entry goes to, which of several tasks gives way and the merge of a broken barrier are the model's choices (log entries 41, 62 and 31). -/
def Obligations.SchedulerEvents : Prop :=
  ∀ (s : State), s.ListsOk →
    ((s.plat.fwOk = false ∨ pickDispatch s = none) → exec .taskDispatch s = .next s) ∧
    (∀ i r c l, s.plat.fwOk = true → pickDispatch s = some (i, r, c) → s.launch r.launch = some l →
      (∀ u b k, r.work = .resume u b k → ∃ t, exec .taskDispatch s = .next t ∧ t.core.phys.toNat = c ∧ t.core.running = true ∧
        t.core.t = { u with id := { u.id with logi := t.core.t.id.logi } } ∧ t.core.buf = b ∧ t.core.stopped = u.away.stopped ∧
        t.core.entry = u.away.entry ∧ t.core.epend = u.away.epend ∧ t.sched.ready = s.sched.ready.eraseIdx i ∧
        t.mem = { s.mem with tmode := t.mem.tmode } ∧ (u.id.plumb = lrPlumb l.image → (t.tmode (quadOf c)).getLsbD 0 = u.id.plumb)) ∧
      (r.work = .root → r.ring = none → l.image.length = 128 →
        ∃ t, exec .taskDispatch s = .next t ∧ t.core.phys.toNat = c ∧ t.sched.nextUid = s.sched.nextUid + 1 ∧
        (t.core.running = true → t.core.t.sys.inTrap = false →
          t.core.t.pc = lrCode l.image ∧ t.S 60 = lrArgs l.image ∧ t.S 61 = l.lid.setWidth 64 ∧ t.S 62 = lrFrame l.image ∧
          (∀ q : Reg, q ≠ 60 → q ≠ 61 → q ≠ 62 → t.S q = 0) ∧ t.core.t.prv = false ∧ t.core.t.id.uid = s.sched.nextUid ∧
          t.core.t.id.ctx = l.ctx ∧ t.core.t.id.prio = l.prio ∧ t.core.t.q = ⟨[], [], []⟩ ∧ t.core.t.view = ⟨[], [], [], []⟩)) ∧
      (∀ a s1 x, r.work = .record a → r.ring = none → translate s r.ctx a .r false = (s1, .ok x) →
        let img := s.homeBytes x.pa 64
        ∃ t, exec .taskDispatch s = .next t ∧ t.core.phys.toNat = c ∧ t.sched.nextUid = s.sched.nextUid + 1 ∧
          (t.core.running = true → t.core.t.sys.inTrap = false →
            t.core.t.pc.toNat = fld img 0 8 ∧ (t.S 60).toNat = fld img 16 8 ∧ (t.S 62).toNat = fld img 8 8 ∧ t.core.t.id.record = a ∧
            t.core.t.id.parent.toNat = fld img 32 8 ∧ t.core.t.id.lid.toNat = fld img 28 4))) ∧
    (let waits := (serveOrder s).filterMap fun x =>
        if nestRoot s x.2 && (x.2.ring.all fun y => (s.ringRead x.2 y).isSome) then (s.launch x.2.launch).map fun l => (x.1, x.2, l) else none;
      ((s.plat.fwOk = false ∨ waits = []) → exec .nestLaunchDispatch s = .next s) ∧
      ∀ i r l, s.plat.fwOk = true → waits = [(i, r, l)] →
        let dies := nestDies s l
        let want := nestCores dies
        let kept (c : Nat) : Option Nat :=
          let k := (s.coreAt c).reserved
          if want.contains c then if coreFree s c && k = none then some l.id else k else if k = some l.id then none else k
        let all : Bool := !want.isEmpty && want.all fun c => coreFree s c && (kept c = some l.id) && quadReady s (quadOf c) (lrPlumb l.image) false
        (all = false → ∃ t, exec .nestLaunchDispatch s = .next t ∧ t.core.phys = s.core.phys ∧ t.sched = s.sched ∧ t.mem = s.mem ∧
          ∀ c, c < 256 → t.coreAt c = { s.coreAt c with reserved := kept c }) ∧
        (all = true → ∃ t, exec .nestLaunchDispatch s = .next t ∧ t.core.phys = s.core.phys ∧ t.sched.nextUid = s.sched.nextUid + 64 * dies.length ∧
          ∀ j, j < 64 * dies.length → l.redis = none →
            let k := t.coreAt (physical dies j)
            k.running = true → k.t.sys.inTrap = false → k.t.pc = lrCode l.image ∧ k.t.id.nest = true ∧ k.t.id.logi.toNat = j ∧
              k.t.regs.rdS 3 = BitVec.ofNat 64 j ∧ k.t.regs.rdS 4 = BitVec.ofNat 64 (64 * dies.length) ∧
              (let n := lrN l.image 0 * lrN l.image 1 * lrN l.image 2 * lrN l.image 3
               k.t.regs.rdS 1 = BitVec.ofNat 64 (j * n / (64 * dies.length)) ∧ k.t.regs.rdS 2 = BitVec.ofNat 64 ((j + 1) * n / (64 * dies.length))))) ∧
    (∃ t, exec .recordAging s = .next t ∧ t = { s with sched := { s.sched with ready := t.sched.ready } } ∧ t.sched.ready.length = s.sched.ready.length ∧
      ∀ e : Ready, e ∈ s.sched.ready →
        (e.prio = 3 ∨ s.now < e.since + 2 ^ 20 → e ∈ t.sched.ready) ∧
        (e.prio ≠ 3 → e.since + 2 ^ 20 ≤ s.now → ({ e with prio := e.prio + 1, since := s.now } : Ready) ∈ t.sched.ready)) ∧
    (s.sched.prethr.toNat = 0 → exec .forcedPreemption s = .next s) ∧
    (let cand (r : Ready) (c : Core) : Bool :=
        preemptible c true && couldReplace s r c
      ∀ r : Ready, s.sched.prethr.toNat ≠ 0 → s.poolUsed < Config.poolRecords → s.sched.ready.find? (fun r => r.born + s.sched.prethr.toNat ≤ s.now && stillWaits s r && s.cores.any (cand r)) = some r →
        ∃ t c u b p e, exec .forcedPreemption s = .next t ∧ c ∈ s.cores ∧ cand r c = true ∧
          (∀ d, d ∈ s.cores → cand r d = true → c.t.id.prio.toNat ≤ d.t.id.prio.toNat) ∧ t.core.phys = s.core.phys ∧
          (t.coreAt c.phys.toNat).running = false ∧ t.sched.ready = s.sched.ready ++ [e] ∧ e.work = .resume u b p ∧ e.prio = c.t.id.prio ∧
          u.pc = c.uncommit.t.pc ∧ u.regs = c.uncommit.t.regs ∧ u.view = c.t.view ∧ t.mem = s.mem) ∧
    (∀ q : BitVec 6,
      let busy : Bool := (s.cores.any fun c => quadOf c.phys.toNat = q.toNat && c.running) ||
        s.sched.ready.any (fun r => match r.work with | .resume _ _ (some c) => quadOf c.toNat = q.toNat | _ => false);
      (busy = true → exec (.quadClockSwitch q) s = .next s) ∧
      (busy = false → ∃ t, exec (.quadClockSwitch q) s = .next t ∧ t = { s with mem := { s.mem with tmode := t.mem.tmode } } ∧
        (t.tmode q.toNat).getLsbD 0 = (s.tmode q.toNat).getLsbD 1 ∧ (t.tmode q.toNat).getLsbD 1 = (s.tmode q.toNat).getLsbD 1 ∧
        ∀ p, p ≠ q.toNat → t.tmode p = s.tmode p)) ∧
    (let due := s.sched.bars.find? (fun r => r.phaseBar && r.sc ≠ .lane && !r.arrived.isEmpty && (r.broken || (phaseMembers s r).all r.arrived.contains));
      (due = none → exec .phaseMerge s = .next s) ∧
      ∀ r : Bar, due = some r →
        let mine (p : Packet) : Bool := p.launch = r.launch && p.sc = r.sc && p.unit = r.unit && !p.step
        ∃ t, exec .phaseMerge s = .next t ∧ t.sched.packets = s.sched.packets.filter (fun p => !mine p) ∧
          (∀ a, t.homeByte a = (s.applyPackets mine).homeByte a) ∧ ((∀ p, p ∈ s.sched.packets → mine p = false) → ∀ a, t.homeByte a = s.homeByte a) ∧
          t.core.t.regs = s.core.t.regs ∧ t.core.t.pc = s.core.t.pc ∧
          (∀ sc st rd, s.core.running = true → s.core.t.id.uid ∈ r.arrived → s.core.t.phase = .held sc st rd → t.core.t.phase = .merged sc st rd) ∧
          ({ r with arrived := [], started := false, broken := false } : Bar) ∈ t.sched.bars) ∧
    (let due := s.sched.bars.find? (fun r => r.phaseBar && r.sc = .lane && !r.arrived.isEmpty &&
        (r.broken || (launchTasks s r.launch).all fun t => r.arrived.contains t.1.uid));
      (due = none → exec .stepBarrierComplete s = .next s) ∧
      ∀ (r : Bar) (l : Launch), due = some r → s.launch r.launch = some l →
        (s.sched.bars.find? fun q => q.phaseBar && q.sc = .lane && q.launch = r.launch) = some r →
        (s.ctx l.ctx).rrctl.extractLsb' 0 2 = 0 → (r.broken = true ∨ admitDies s l ≠ [] ∧ maskOf (admitDies s l) = l.mask) →
        ∃ t, exec .stepBarrierComplete s = .next t ∧ t.launch l.id = some { l with steps := l.steps + 1 } ∧
          t.sched.packets = s.sched.packets.filter (fun p => !(p.launch = l.id && p.step)) ∧ t.core.t.regs = s.core.t.regs ∧ t.core.t.pc = s.core.t.pc ∧
          (∀ sc st rd, s.core.running = true → s.core.t.id.uid ∈ r.arrived → s.core.t.phase = .held sc st rd → t.core.t.phase = .merged sc st rd ∧
            t.core.t.sys.dieset = diesetWord (l.steps + 1) (diesOf l.mask)) ∧
          ({ r with arrived := [], started := false, broken := false } : Bar) ∈ t.sched.bars)

/-- A CHSEND that stands by with a partner on this package, its credit, a free slot that holds its tile and sources that can be read: its tile lands there with bytes, tag, shape and sequence, the slot becomes valid, and it is done, one sequence number and one credit less; on a lost channel, or where the tile is larger than the slot, it stops with CHAN, as it does when it has waited 2^26 cycles unpaired; toward another package it leaves, once paired, with its credit, and is done when it is acknowledged. CREDIT_RETURN gives the sender a credit for every free slot of its partner. PARTNER_LOSS of a core without a task marks the ends that name it, LINK_PORT_DOWN the port with the ends and the POD barriers that use it, KEY_REVOCATION the key and what its contexts have with other packages. A port that is down brings nothing; a flit that fails its check is counted on its port, which goes down at the 32nd in a row, and brings nothing; a good one ends the row, and one with another key than its destination's is dropped and counted, a credit sets the slot it names, word of a lost core marks the ends that face it, a tile for a halted core waits. COLL_MATCH takes a request with all those it is linked to: with equal trees each gets its result, else all end with 0x21; with a lost one among those it reaches, or cut off by a dead link or a revoked key, all that it reaches end with 0x22. COLL_COMPLETE of an outcome that is known pushes the tokens, passes the number on the channel's timeline, and keeps the status word; divergence pends MISCLOSE; while a trap or a halt holds its core it waits. The packing of a tile, the exchange with another package, the port a packet takes and what a lost participant leaves are the model's readings (log entries 28, 30 and 29). -/
def Obligations.ChannelAndCollectiveEvents : Prop :=
  ∀ (s : State), s.ListsOk →
    (enginesRun s = false → (s.plat.held = [] → exec .tileLanding s = .next s) ∧ exec .chsendPairTimeout s = .next s) ∧
    (∀ k n, enginesRun s = true → s.plat.held = [] → standing s.core.t.q.store = [(k, n)] →
      let e := s.ch n
      let d := k.d 0
      let q := e.ss.toNat % 4
      let gone : List Cmd := s.core.t.q.store.map fun c =>
        if c.num = k.num then { c with ph := 0, got := [], fault := some ⟨0x23, 5, 0, k.num, none, 0, 0⟩ } else c
      let lost (t : State) : Prop := t = { s with core := { s.core with t := { s.core.t with q := { s.core.t.q with store := gone } } } }
      (e.dead = true → ∃ t, exec .tileLanding s = .next t ∧ lost t) ∧
      (∀ c m, e.dead = false → k.ph = 1 → e.pkg = s.pkg → s.partner n = some (c, m) →
        let p := c.t.chans[m.toNat]
        (p.x.slotu.toNat * 512 < sendBytes d → ∃ t, exec .tileLanding s = .next t ∧ lost t) ∧
        (sendBytes d ≤ p.x.slotu.toNat * 512 → (p.slots[q % 4].valid = true ∨ e.cred.getLsbD q = false ∨ c.health.halted = true) →
          exec .tileLanding s = .next s) ∧
        (sendBytes d ≤ p.x.slotu.toNat * 512 → p.slots[q % 4].valid = false → e.cred.getLsbD q = true → c.health.halted = false →
          c.phys ≠ s.core.phys →
          ∃ t, exec .tileLanding s = .next t ∧ (t.ch n).ss = e.ss + 1 ∧ (t.ch n).cred = e.cred &&& ~~~(1#4 <<< q) ∧
            (∀ x, x ∈ t.core.t.q.store → x.num = k.num → x.done = true ∧ x.status = 0) ∧ t.core.t.regs = s.core.t.regs ∧
            (t.coreAt c.phys.toNat).t.chans[m.toNat].slots[q % 4] =
              { p.slots[q % 4] with valid := true, seq := e.ss, tag := dTag d, rows := BitVec.ofNat 16 (dRows d), cols := BitVec.ofNat 16 (dCols d) } ∧
            (t.coreAt c.phys.toNat).buf.ab = (c.buf.write 1 (slotRange p q).1 ((sendData s.core.buf d).map (·.b))).ab)) ∧
      (e.dead = false → k.ph = 1 → e.pkg ≠ s.pkg →
        ((e.peer = none ∨ ∃ u, e.peer = some u ∧ sendBytes d ≤ u.toNat * 512 ∧ e.cred.getLsbD q = false) → exec .tileLanding s = .next s) ∧
        ∀ u, e.peer = some u →
          (u.toNat * 512 < sendBytes d → ∃ t, exec .tileLanding s = .next t ∧ lost t) ∧
          (sendBytes d ≤ u.toNat * 512 → e.cred.getLsbD q = true → ∃ t, exec .tileLanding s = .next t ∧ (t.ch n).ss = e.ss + 1 ∧
            (t.ch n).cred = e.cred &&& ~~~(1#4 <<< q) ∧ (∀ x, x ∈ t.core.t.q.store → x.num = k.num → x.ph = 2) ∧ t.core.t.regs = s.core.t.regs ∧
            t.core.buf = s.core.buf)) ∧
      (k.ph = 1 → s.isPaired n = false → k.got.headD 0 + 2 ^ 26 ≤ s.now → ∃ t, exec .chsendPairTimeout s = .next t ∧ lost t) ∧
      ((k.ph ≠ 1 ∨ s.isPaired n = true ∨ s.now < k.got.headD 0 + 2 ^ 26) → exec .chsendPairTimeout s = .next s)) ∧
    (∀ n, (s.partner n = none → exec (.creditReturn n) s = .next s) ∧
      ∀ c m, s.partner n = some (c, m) → ∃ t, exec (.creditReturn n) s = .next t ∧
        t = { s with core := { s.core with t := { s.core.t with chans := t.core.t.chans } } } ∧ (∀ j, j ≠ n → t.ch j = s.ch j) ∧
        ∀ q, q < 4 → (t.ch n).cred.getLsbD q = ((s.ch n).cred.getLsbD q || !c.t.chans[m.toNat].slots[q % 4].valid)) ∧
    (∀ c : BitVec 8, ((s.coreAt c.toNat).running = true → exec (.partnerLoss c) s = .next s) ∧
      ((s.coreAt c.toNat).running = false → ∃ t, exec (.partnerLoss c) s = .next t ∧ t.core.t.regs = s.core.t.regs ∧ t.mem = s.mem ∧
        ∀ n : BitVec 3, (t.ch n).dead = ((s.ch n).dead || ((s.ch n).conf && (s.ch n).phys == c && (s.ch n).pkg == s.pkg)))) ∧
    (∀ p, ∃ t, exec (.linkPortDown p) s = .next t ∧ t.plat = { s.plat with
        linkDown := setIns s.plat.linkDown p.toNat, badFlits := Sparse.put 0 s.plat.badFlits p.toNat 0,
        held := s.plat.held.filter fun x => match x.2 with | .tile n c .. => (s.coreAt c.toNat).t.chans[n.toNat].port != p | _ => true } ∧ t.mem = s.mem ∧
      t.core.t.regs = s.core.t.regs ∧
      (∀ n : BitVec 3, (t.ch n).dead = ((s.ch n).dead ||
        ((s.ch n).conf && (s.ch n).pkg != s.pkg && Config.linkPort (BitVec.ofNat 8 (s.ch n).pkg) == p))) ∧
      ∀ r : Bar, r ∈ s.sched.bars → r.sc = .pod → r.podg ≠ 0 → s.core.running = true → s.core.t.id.podg = r.podg →
        { r with broken := r.broken || (Config.podRemote r.podg && Config.podLink r.podg p) } ∈ t.sched.bars) ∧
    (∀ key, ∃ t, exec (.keyRevocation key) s = .next t ∧ setHas t.plat.revoked key.toNat = true ∧ t.mem = s.mem ∧ t.core.t.regs = s.core.t.regs ∧
      (∀ n : BitVec 3, (t.ch n).dead = ((s.ch n).dead || ((s.ch n).conf && s.cx.pkey == key.setWidth 64 && (s.ch n).pkg != s.pkg)))) ∧
    (∀ (port : BitVec 4) key body,
      let n := Sparse.get 0 s.plat.badFlits port.toNat + 1
      let s0 : State := { s with plat := { s.plat with badFlits := Sparse.put 0 s.plat.badFlits port.toNat 0 } }
      let brings (t : State) : Prop := exec (.flitReceive true ⟨port, key⟩ body) s = .next t
      let ends (t : State) : Prop := t = { s0 with core := { s.core with t := { s.core.t with chans := t.core.t.chans } } }
      (setHas s.plat.linkDown port.toNat = true → ∀ ok, exec (.flitReceive ok ⟨port, key⟩ body) s = .next s) ∧
      (setHas s.plat.linkDown port.toNat = false →
        (n ≠ 32 → exec (.flitReceive false ⟨port, key⟩ body) s = .next { s with plat := { s.plat with badFlits := Sparse.put 0 s.plat.badFlits port.toNat n } }) ∧
        (n = 32 → exec (.flitReceive false ⟨port, key⟩ body) s = exec (.linkPortDown port) s) ∧
        ((∀ p c, body ≠ .coreLost p c) → (flitOwner s body = none ∨ ∃ x, flitOwner s body = some x ∧ s.keyOk key x = false) →
          brings { s0 with plat := { s0.plat with
            lnkdrop := if s.plat.lnkdrop = BitVec.allOnes 64 then s.plat.lnkdrop else s.plat.lnkdrop + 1 } }) ∧
        (∀ p c : BitVec 8, body = .coreLost p c → p.toNat ≠ s.pkg → ∃ t, brings t ∧ t.mem = s.mem ∧ t.core.t.regs = s.core.t.regs ∧
          ∀ m : BitVec 3, (t.ch m).dead = ((s.ch m).dead || ((s.ch m).conf && (s.ch m).pkg == p.toNat && (s.ch m).phys == c))) ∧
        (∀ x, flitOwner s body = some x → s.keyOk key x = true →
          (∀ n c tag rows cols bs ps, body = .tile n c tag rows cols bs ps → (s.coreAt c.toNat).health.halted = true →
            brings { s0 with plat := { s0.plat with held := s.plat.held ++ [(key, body)] } }) ∧
          (∀ m u, body = .paired m s.core.phys u → ∃ t, brings t ∧ ends t ∧ (t.ch m).peer = some u) ∧
          (∀ m, body = .released m s.core.phys → ∃ t, brings t ∧ ends t ∧ (t.ch m).peer = none) ∧
          (∀ m q, body = .credit m s.core.phys q → ∃ t, brings t ∧ ends t ∧ (t.ch m).cred = (s.ch m).cred ||| (1#4 <<< q.toNat))))) ∧
    (∀ k : BitVec 4,
      let l := s.colls.filter fun c => (c.ph = 0 || c.ph = 4) && c.code ≠ 0x21
      let first := l.find? fun c => c.phys = s.core.phys && c.k = k && c.ph = 0 && c.code = 0
      (first = none → exec (.collMatch k []) s = .next s) ∧
      let reach (c : Coll) := lostColls (s.colls.filter fun c => c.ph = 0 || c.ph = 4) s.colls.length [c]
      let lost (c : Coll) : Bool := (lostColls l l.length [c]).any (·.code = 0x22)
      (∀ c, first = some c → (c.isCut s = true ∨ lost c = true) → c.group = 0 → s.colls.filter (· = c) = [c] →
        ∃ t, exec (.collMatch k []) s = .next t ∧ t = { s with colls := t.colls } ∧
        ∀ (i : Nat) (d : Coll), s.colls[i]? = some d → t.colls[i]? = some
          (if d.ph ≠ 3 ∧ d.ph ≠ 4 ∧ d.code ≠ 0x21 ∧ d ∈ reach c then { d with code := 0x22 } else d)) ∧
      ∀ c g, first = some c → c.isCut s = false → lost c = false → collLinked s l [] (256 * l.length + 2) [c] [] = some g →
        ∃ t, exec (.collMatch k []) s = .next t ∧ t = { s with colls := t.colls, nextColl := s.nextColl + 1 } ∧
          (∀ (i : Nat) (d : Coll), s.colls[i]? = some d →
            ((d ∉ g ∨ d.ph ≠ 0) → t.colls[i]? = some d) ∧
            (d ∈ g → d.ph = 0 →
              ((∃ a, a ∈ g ∧ a.td ≠ c.td) → t.colls[i]? = some { d with code := 0x21 }) ∧
              ((∀ a, a ∈ g → a.td = c.td) → ∃ x : Coll, t.colls[i]? = some x ∧ x.ph = 1 ∧ x.group = s.nextColl ∧ x.code = d.code ∧ x.req = d.req ∧
                (let src : Parts := (List.range c.req.np).map fun j => match g.find? (fun y => y.req.me = j) with | some y => (y.src, y.srcPois) | none => ([], []);
                 x.res = (collResult d.req src d.req.me).1))))) ∧
    (∀ (k : BitVec 4) (c : Coll), s.colls.find? (fun c => c.phys = s.core.phys && c.k = k && c.ph ≠ 4) = some c →
      (collHeld s c = true → exec (.collComplete k) s = .next s) ∧
      (collHeld s c = false → (c.ph = 3 ∨ c.code = 0x21 ∨ c.code = 0x22) →
      (c.code ≠ 0 ∨ c.ph ≠ 1) → (s.ctx c.ctx).clogb = 0 → s.core.running = true → s.core.t.id.uid = c.uid →
      (∀ d, d ∈ s.colls → d.uid = c.uid → d.n = c.n → d = c) →
      (∀ x, x ∈ s.tasks → x.1.id.uid = c.uid → x.1.toks.canPush .store c.tok = true) →
      ∃ t, exec (.collComplete k) s = .next t ∧ t.core.t.toks = s.core.t.toks.push .store c.tok ∧
        t.core.t.tls.coll[c.k.toNat] = ⟨s.core.t.tls.coll[c.k.toNat].i, c.num⟩ ∧ c ∉ t.colls ∧
        Sparse.find t.core.t.collSt (16 * c.k.toNat + c.num.toNat % 16) = some (collWord c) ∧ (collWord c).extractLsb' 0 8 = c.code ∧
        t.core.t.pend.misclose = (s.core.t.pend.misclose || c.code == 0x10 || c.code == 0x12) ∧ t.mem = s.mem ∧ t.core.t.regs = s.core.t.regs))

/-- A doorbell within its enabled ring moves the tail and clears the failure mark, any other posts event 3. The record at a ring's head, where the firmware runs and there is an unread one: with a faulty record event 1 is posted and the head moves on; an admissible one with room enters a launch at its ring's priority and the head moves on; a read that fails posts event 9 and stops the ring. A window access is refused without firmware, and does nothing while WINCTX is off or beyond the 64 GiB of the window; a translation that fails, or a write that a compressed block refuses, posts event 4; a read answers the bytes at their home, a write stores them and no other byte. Host registers take the writable bits written and read as they stand, write-only ones as zero; TAIL and ATTCMD act as their events; other offsets are ignored. ATTCMD of 1 starts a report unless one is under way; the report is written to its buffer, counted and announced by event 7; with a misaligned or zero buffer none is written, and the event has length 0. HBMCAP only sets removal bits and posts event 5 when one is new; TLNBASE takes the context's address. The level of a window access and the bytes of an event are the model's readings (log entries 33 and 34). -/
def Obligations.HostInterface : Prop :=
  ∀ (s : State),
    let h := s.host
    let posted (k : HostSt) (ty : Nat) (code : BitVec 8) (ctx : BitVec 12) (w : Nat) (rest : List Byte) : State :=
      { s with host := k.post (eventBytes ty code ctx w rest) }
    (∀ (p : BitVec 2) (tail : BitVec 32),
      let ok := ringSize h p ≠ 0 ∧ (tail - h.head[p.toNat]).toNat ≤ ringSize h p
      (ok → exec (.doorbell p tail) s = .next { s with host := { h with tail := h.tail.set p.toNat tail, failed := h.failed.set p.toNat false } }) ∧
      (¬ok → exec (.doorbell p tail) s = .next (posted h 3 0 0 (ringWord p tail) []))) ∧
    (∀ p : BitVec 2,
      let r := s.ringRecord p
      let i := h.head[p.toNat]
      (s.ringReady p = false → exec (.hostRingRecordRead p) s = .next s ∧ exec (.ringReadFailure p) s = .next s) ∧
      (s.ringReady p = true →
        (launchOk r none = false → ∃ k : HostSt, exec (.hostRingRecordRead p) s = .next { s with host := { k with head := k.head.set p.toNat (i + 1) } } ∧
          k = h.post (eventBytes 1 0x22 (lrCtx r) (ringWord p i) [])) ∧
        (launchOk r none = true → (s.ctx (lrCtx r)).rrctl.extractLsb' 0 2 = 0 → s.poolUsed < Config.poolRecords →
          ∃ t l, exec (.hostRingRecordRead p) s = .next t ∧ t.sched.launches = s.sched.launches ++ [l] ∧ l.id = s.sched.nextLaunch ∧
            l.lid = s.sched.nextLid ∧ l.image = r ∧ l.prio = p ∧ l.host = true ∧ t.sched.nextLid = s.sched.nextLid + 1 ∧
            t.sched.ready = s.sched.ready ++ [⟨p, lrCtx r, l.id, s.now, s.now, none, .root⟩] ∧ l.pooled = true ∧
            t.host = { h with head := h.head.set p.toNat (i + 1) } ∧ t.mem = s.mem ∧ t.core = s.core) ∧
        (launchOk r none = true → ((s.ctx (lrCtx r)).rrctl.extractLsb' 0 2 = 2 ∨ s.noRoom (lrCtx r) p = true) → exec (.hostRingRecordRead p) s = .next s) ∧
        ∃ k : HostSt, exec (.ringReadFailure p) s = .next { s with host := { k with failed := h.failed.set p.toNat true } } ∧
          k = h.post (eventBytes 9 0 0 (ringWord p i) []))) ∧
    (∀ (off : Word) (len : Nat) (data : List Byte),
      let x : BitVec 12 := h.winctx.extractLsb' 0 12
      (s.plat.fwOk = false → ∀ w, exec (.windowAccess w off len data) s = .next { s with host := { h with rdata := none } }) ∧
      (s.plat.fwOk = true → h.winctx.getLsbD 12 = false → ∀ w, exec (.windowAccess w off len data) s = .next s) ∧
      (∀ w : Bool, s.plat.fwOk = true → 2 ^ 36 < off.toNat + (if w then data.length else len) → exec (.windowAccess w off len data) s = .next s) ∧
      (s.plat.fwOk = true → h.winctx.getLsbD 12 = true →
        let refused (w : Bool) (c : BitVec 8) : Prop := ∃ t, exec (.windowAccess w off len data) s = .next t ∧
          t.host = { h.post (eventBytes 4 c x 0 []) with rdata := none } ∧ t.core.t = s.core.t ∧ ∀ a, t.homeByte a = s.homeByte a
        (∀ (w : Bool) s1 c l, off.toNat + (if w then data.length else len) ≤ 2 ^ 36 →
          translate s x off (if w then .w else .r) false = (s1, .error (c, l)) → refused w c) ∧
        (∀ s1 y, off.toNat + len ≤ 2 ^ 36 → translate s x off .r false = (s1, .ok y) → ∃ t, exec (.windowAccess false off len data) s = .next t ∧
          t.host = { h with rdata := some (s.homeBytes y.pa len) } ∧ t.core.t = s.core.t ∧ ∀ a, t.homeByte a = s.homeByte a) ∧
        (∀ s1 y, off.toNat + data.length ≤ 2 ^ 36 → translate s x off .w false = (s1, .ok y) →
          (∀ c, s1.store x y.pa data = .error c → refused true c) ∧
          ((s.ctx x).rrctl.extractLsb' 0 2 ≠ 1 → s.mem.comp = [] → s.MemOk →
            ∃ t, exec (.windowAccess true off len data) s = .next t ∧ (s.plat.hbmMap = [] → t.homeBytes y.pa data.length = data) ∧
              (∀ a, (a < y.pa ∨ y.pa + data.length ≤ a) → t.homeByte a = s.homeByte a) ∧ t.core.t = s.core.t ∧ t.host = h)))) ∧
    (∀ (off : BitVec 16) (v : Word),
      let w (k : HostSt) : Prop := exec (.hostRegisterWrite off (some v)) s = .next { s with host := k }
      let r (x : Word) : Prop := exec (.hostRegisterWrite off none) s = .next { s with host := { h with rdata := some (leBytes 8 x.toNat) } }
      (∀ p : BitVec 2, (off.toNat = 32 * p.toNat → w { h with hrbase := h.hrbase.set p.toNat (v &&& ~~~0xFFF#64) }) ∧
        (off.toNat = 32 * p.toNat + 8 → w { h with hrsize := h.hrsize.set p.toNat (v &&& 0x1F) }) ∧
        (off.toNat = 32 * p.toNat + 24 → exec (.hostRegisterWrite off (some v)) s = exec (.doorbell p (v.extractLsb' 0 32)) s) ∧
        (off.toNat = 32 * p.toNat → r h.hrbase[p.toNat]) ∧ (off.toNat = 32 * p.toNat + 8 → r h.hrsize[p.toNat]) ∧
        (off.toNat = 32 * p.toNat + 16 → r (h.head[p.toNat].setWidth 64)) ∧ (off.toNat = 32 * p.toNat + 24 → r 0) ∧
        (off.toNat = 0x138 + 8 * p.toNat → r h.attnon[p.toNat]) ∧
        (off.toNat = 0x138 + 8 * p.toNat → w { h with attnon := h.attnon.set p.toNat v })) ∧
      (off = 0x100 → w { h with evbase := v &&& ~~~0xFFF#64 }) ∧ (off = 0x108 → w { h with evsize := v &&& 0x1F }) ∧
      (off = 0x118 → h.evheld = [] → w { h with evhead := v &&& 0xFFFFFFFF#64 }) ∧ (off = 0x120 → w { h with winctx := v &&& 0x1FFF }) ∧
      (off = 0x130 → w { h with attbuf := v }) ∧ (off = 0x158 → exec (.hostRegisterWrite off (some v)) s = exec (.attcmd v) s) ∧
      (off = 0x100 → r h.evbase) ∧ (off = 0x108 → r h.evsize) ∧ (off = 0x110 → r h.evtail) ∧ (off = 0x118 → r h.evhead) ∧ (off = 0x120 → r h.winctx) ∧
      (off = 0x128 → r h.evdrop) ∧ (off = 0x130 → r h.attbuf) ∧ (off = 0x158 → r 0) ∧
      (off = 0x160 → r (BitVec.ofNat 64 ((if h.busy then 1 else 0) + (if h.adone then 2 else 0) + h.attlen.toNat * 65536))) ∧
      ((off.toNat % 8 ≠ 0 ∨ 0x160 ≤ off.toNat) → w h)) ∧
    (∀ v : Word, (v = 1 → h.busy = false → exec (.attcmd v) s = .next { s with host := { h with busy := true, adone := false } }) ∧
      ((v ≠ 1 ∨ h.busy = true) → exec (.attcmd v) s = .next s)) ∧
    (h.busy = false → exec .attestationReportWritten s = .next s) ∧
    (h.busy = true → (h.attbuf = 0 ∨ h.attbuf.toNat % 4096 ≠ 0) →
      exec .attestationReportWritten s = .next { s with host := HostSt.post { h with busy := false } (eventBytes 7 0 0 0 (leBytes 8 h.attbuf.toNat)) }) ∧
    (h.busy = true → h.attbuf ≠ 0 → h.attbuf.toNat % 4096 = 0 → ∃ t, exec .attestationReportWritten s = .next t ∧
      t.plat = { s.plat with reports := s.plat.reports + 1 } ∧ t.core = s.core ∧ t.mem = s.mem ∧
      t.host = HostSt.post { h with mem := writeBytes h.mem h.attbuf.toNat (attReport s (s.plat.reports + 1)), busy := false, adone := true, attlen := 11482 }
        (eventBytes 7 0 0 11482 (leBytes 8 h.attbuf.toNat))) ∧
    (∀ (n : BitVec 4) (m : BitVec 16),
      let old := Sparse.get 0 s.plat.hbmMap n.toNat
      (12 ≤ n.toNat → exec (.hbmcapWrite n m) s = .next s) ∧
      (n.toNat < 12 → old ||| m = old → exec (.hbmcapWrite n m) s = .next s) ∧
      (n.toNat < 12 → old ||| m ≠ old → ∃ t, exec (.hbmcapWrite n m) s = .next t ∧
        t.plat = { s.plat with hbmMap := Sparse.put 0 s.plat.hbmMap n.toNat (old ||| m) } ∧ t.core = s.core ∧ t.mem = s.mem ∧
        t.host = h.post (eventBytes 5 0 0 n.toNat (leBytes 8 (t.hbmcap n.toNat).toNat)))) ∧
    ∀ v, s.MemOk → ∃ t, exec (.tlnbaseWrite v) s = .next t ∧ t.cx = { s.cx with tlnbase := v &&& 0x01FFFFFFFFFFE000#64, type8 := false } ∧
      t = { s with ctxs := t.ctxs } ∧ ∀ x, x ≠ s.cid → t.ctx x = s.ctx x

/-- Power-on puts everything at its reset value but what lies outside the package and in flash, and lets the firmware run, and each HBM4 stack work, when its image verifies at an admissible version; power-off clears the keys, and a step of a package without power, with nothing to boot it, stops. A quad whose temperature passes 105 °C is held once, with event 6; it is released, with event 6, when it has stayed at or below 100 °C for 2^20 cycles, counted from the last time it was above; droop stretches and is counted in an elastic quad only. A refresh uses a unit of its channel's bank or else a slot that CALDIST counts; the slots of the declared intervals of plumb tasks that have passed, on whichever core, add to every bank, up to 8, and at its end the interval is over. Without an entry left in the log of a context in replay, the logged events do nothing; else a logged host write that is due is applied at its address's home and a logged launch is accepted with its own record, or passed over where a device launch has taken it, each taking its entry. When a logged entry is due is the model's reading (log entry 54); digests and signatures are opaque (log entry 39). -/
def Obligations.PowerMonitorsAndReplay : Prop :=
  ∀ (s : State),
    (∀ img, ∃ t, exec (.powerOnBoot img) s = .next t ∧ t.powered = true ∧ t.core = Core.fresh 0 ∧ t.others = [] ∧ t.ctxs = [] ∧ t.mem = State.reset.mem ∧
      t.sched = State.reset.sched ∧ t.flash = s.flash ∧ t.host = { HostSt.zero with mem := s.host.mem } ∧
      (t.plat.fwOk = true ↔ Config.verifyImage img (Config.shake256 img) = true ∧ Config.rollback.toNat ≤ Config.imageVersion img) ∧
      (∀ n, n < 12 → (t.plat.hbmOn.getLsbD n = true ↔ Config.verifyImage (Config.baseImage n) (Config.shake256 (Config.baseImage n)) = true ∧
        Config.rollback.toNat ≤ Config.imageVersion (Config.baseImage n)))) ∧
    exec .powerOff s = .next { s with mem := { s.mem with keys := [] }, powered := false } ∧
    (s.powered = false → s.agenda = [] → step s = .fault .poweredOff) ∧
    (∀ m l, s.powered = false → s.agenda = m :: l → (∀ img, m ≠ .event (.powerOnBoot img)) → step s = .fault .poweredOff) ∧
    (∀ q : BitVec 6,
      let held := q.toNat ∈ s.plat.thermal
      let n := Sparse.get 0 s.plat.strcq q.toNat
      let shows (t : State) (th : List Nat) (h : HostSt) : Prop := t = { s with
        plat := { s.plat with tempq := t.plat.tempq, hot := t.plat.hot, thermal := th }, host := h, fresh := s.fresh + 1 } ∧
        Sparse.find t.plat.hot q.toNat = some s.now
      let cooled : Prop := held ∧ s.temp q.toNat ≤ 1600 ∧ ∀ n, Sparse.find s.plat.hot q.toNat = some n → n + 2 ^ 20 ≤ s.now
      (∃ t, exec (.thermalLimitReached q) s = .next t ∧ 1680 < t.temp q.toNat ∧
        (held → shows t s.plat.thermal s.host) ∧
        (¬held → shows t (setIns s.plat.thermal q.toNat) (s.host.post (eventBytes 6 0 0 q.toNat [1])))) ∧
      (cooled → exec (.thermalLimitCleared q) s = .next { s with
        plat := { s.plat with thermal := setDel s.plat.thermal q.toNat }, host := s.host.post (eventBytes 6 0 0 q.toNat [0]) }) ∧
      (1600 < s.temp q.toNat → Sparse.rising s.plat.tempq = true → ∃ t, exec (.thermalLimitCleared q) s = .next t ∧ t.temp q.toNat ≤ 1600 ∧
        shows t s.plat.thermal s.host) ∧
      (¬cooled → s.temp q.toNat ≤ 1600 → exec (.thermalLimitCleared q) s = .next s) ∧
      ((s.tmode q.toNat).getLsbD 0 = true → exec (.droopStretch q) s = .next s) ∧
      ((s.tmode q.toNat).getLsbD 0 = false → exec (.droopStretch q) s = .next { s with
        plat := { s.plat with strcq := Sparse.put 0 s.plat.strcq q.toNat (n + 1) } })) ∧
    (let n (c : Core) : Nat := if c.t.id.plumb then slotsBefore c.phys.toNat (min s.now c.rfUntil) - slotsBefore c.phys.toNat c.rfFrom else 0
      let banks (u : State) (k : Nat) : Prop := (k = 0 → u.sched.rfbank = s.sched.rfbank) ∧
        (k ≠ 0 → Sparse.wf 0 s.sched.rfbank = true → ∀ c, c < 384 → Sparse.get 0 u.sched.rfbank c = min 8 (Sparse.get 0 s.sched.rfbank c + k))
      let seen (c : Core) : Core := if c.rfUntil = 0 then c else { c with rfFrom := s.now }
      let u := s.rfCreditAll;
      (u = { s with core := seen s.core, others := s.others.map (fun p => (p.1, seen p.2)), sched := { s.sched with rfbank := u.sched.rfbank } } ∧
        banks u (s.cores.map n).sum) ∧
      (∀ c : Nat,
        let m := Sparse.get 0 u.sched.rfbank c
        let q := (s.now / 4 + 1) % 256 / 4
        (0 < m → exec (.refreshDue c) s = .next { u with sched := { u.sched with rfbank := Sparse.put 0 u.sched.rfbank c (m - 1) } }) ∧
        (m = 0 → exec (.refreshDue c) s = .next { u with sched := { u.sched with
          caldist := Sparse.put 0 s.sched.caldist q (Sparse.get 0 s.sched.caldist q + 1) } })) ∧
      ∃ t, exec .rfhintIntervalEnd s = .next t ∧ banks t (n s.core) ∧
        t = { s with core := { s.core with rfFrom := 0, rfUntil := 0 }, sched := { s.sched with rfbank := t.sched.rfbank } }) ∧
    (s.replayDue = none → exec .loggedHostWrite s = .next s) ∧
    (∀ c i e s1 x, s.replayDue = some c → s.rrTake c 2 = some (i, e) → s.MemOk → s.mem.comp = [] → translate s c (BitVec.ofNat 64 (fld e 16 8)) .w false = (s1, .ok x) →
      let d := (e.drop 32).take (e.getD 1 0).toNat
      ∃ t, exec .loggedHostWrite s = .next t ∧ (s.plat.hbmMap = [] → t.homeBytes x.pa d.length = d) ∧
        (∀ a, (a < x.pa ∨ x.pa + d.length ≤ a) → t.homeByte a = s.homeByte a) ∧ t.core.t = s.core.t ∧ (t.ctx c).rpos[2] = i + 1) ∧
    (s.replayCtx 1 = none → exec .loggedLaunchRecord s = .next s) ∧
    (∀ c i e a b, s.replayCtx 1 = some c → s.rrTake c 1 = some (i, e) → s.rrRead c i = some e → s.rrRead c (i + 1) = some a → s.rrRead c (i + 2) = some b → s.MemOk →
      let r := (e.getD 16 0 :: a.drop 1) ++ (0 :: b.drop 1)
      (i ∈ (s.ctx c).rdev → exec .loggedLaunchRecord s = .next (s.modX c fun x => { x with rpos := x.rpos.set 1 (i + 3), rdev := x.rdev.filter (· ≠ i) })) ∧
      (i ∉ (s.ctx c).rdev → s.poolUsed < Config.poolRecords → (lrCtx r = c ∨ (s.ctx (lrCtx r)).rrctl.extractLsb' 0 2 = 0) →
      ∃ t l, exec .loggedLaunchRecord s = .next t ∧ t.sched.launches = s.sched.launches ++ [l] ∧ l.image = r ∧ l.id = s.sched.nextLaunch ∧ l.host = true ∧
        t.sched.ready = s.sched.ready ++ [⟨lrPrio r, lrCtx r, l.id, s.now, s.now, none, .root⟩] ∧ (t.ctx c).rpos[1] = i + 3 ∧ t.mem = s.mem ∧ t.core = s.core))
end

