-- ==== Sys2Proof/Laws/Decode.lean ====
section
/-! SUPPORT. Lemmas about the word layout of instructions: unpacking a packed word gives its fields back. -/

namespace Sys2Proof.Laws

/-- A bit below the low part's width is the low part's. -/
theorem append_bit_low {a b i : Nat} (x : BitVec a) (y : BitVec b) (h : i < b) : (x ++ y).getLsbD i = y.getLsbD i := by
  rw [BitVec.getLsbD_append, if_pos h]

/-- A bit above the low part's width is the high part's. -/
theorem append_bit_high {a b i : Nat} (x : BitVec a) (y : BitVec b) (h : b ≤ i) : (x ++ y).getLsbD i = x.getLsbD (i - b) := by
  rw [BitVec.getLsbD_append, if_neg (by omega)]

/-- The common form (R35): every field of a packed word is read back. -/
theorem w8_unpack_pack (f : W8) : W8.unpack f.pack = f := by
  obtain ⟨imm, rc, rb, ra, rd, m, tk, op, cl, sz⟩ := f
  simp only [W8.unpack, W8.pack, W8.mk.injEq]
  refine ⟨?_, ?_, ?_, ?_, ?_, ?_, ?_, ?_, ?_, ?_⟩ <;>
   (ext i hi; rw [BitVec.getElem_extractLsb'];
    iterate 9 (first | rw [append_bit_low _ _ (by omega)] | rw [append_bit_high _ _ (by omega)] | skip)
    rw [← BitVec.getLsbD_eq_getElem]; congr 1; try omega)

end Sys2Proof.Laws
end

