-- ==== Sys2Proof/Laws/State.lean ====
section
/-! SUPPORT. What each named update of the state leaves in each field: one lemma a field and an update, so that no proof unfolds a record update. -/

namespace Sys2Proof.Machine

@[simp] theorem modC_core (s : State) (f : Core → Core) : (s.modC f).core = f s.core := rfl
@[simp] theorem modC_others (s : State) (f : Core → Core) : (s.modC f).others = s.others := rfl
@[simp] theorem modC_ctxs (s : State) (f : Core → Core) : (s.modC f).ctxs = s.ctxs := rfl
@[simp] theorem modC_mem (s : State) (f : Core → Core) : (s.modC f).mem = s.mem := rfl
@[simp] theorem modC_sched (s : State) (f : Core → Core) : (s.modC f).sched = s.sched := rfl
@[simp] theorem modC_host (s : State) (f : Core → Core) : (s.modC f).host = s.host := rfl
@[simp] theorem modC_plat (s : State) (f : Core → Core) : (s.modC f).plat = s.plat := rfl
@[simp] theorem modC_flash (s : State) (f : Core → Core) : (s.modC f).flash = s.flash := rfl
@[simp] theorem modC_ports (s : State) (f : Core → Core) : (s.modC f).ports = s.ports := rfl
@[simp] theorem modC_colls (s : State) (f : Core → Core) : (s.modC f).colls = s.colls := rfl
@[simp] theorem modC_nextColl (s : State) (f : Core → Core) : (s.modC f).nextColl = s.nextColl := rfl
@[simp] theorem modC_images (s : State) (f : Core → Core) : (s.modC f).images = s.images := rfl
@[simp] theorem modC_nextImage (s : State) (f : Core → Core) : (s.modC f).nextImage = s.nextImage := rfl
@[simp] theorem modC_now (s : State) (f : Core → Core) : (s.modC f).now = s.now := rfl
@[simp] theorem modC_fresh (s : State) (f : Core → Core) : (s.modC f).fresh = s.fresh := rfl
@[simp] theorem modC_turn (s : State) (f : Core → Core) : (s.modC f).turn = s.turn := rfl
@[simp] theorem modC_agenda (s : State) (f : Core → Core) : (s.modC f).agenda = s.agenda := rfl
@[simp] theorem modC_powered (s : State) (f : Core → Core) : (s.modC f).powered = s.powered := rfl

@[simp] theorem modT_core_phys (s : State) (f : Task → Task) : (s.modT f).core.phys = s.core.phys := rfl
@[simp] theorem modT_core_running (s : State) (f : Task → Task) : (s.modT f).core.running = s.core.running := rfl
@[simp] theorem modT_core_waiting (s : State) (f : Task → Task) : (s.modT f).core.waiting = s.core.waiting := rfl
@[simp] theorem modT_core_stopped (s : State) (f : Task → Task) : (s.modT f).core.stopped = s.core.stopped := rfl
@[simp] theorem modT_core_entry (s : State) (f : Task → Task) : (s.modT f).core.entry = s.core.entry := rfl
@[simp] theorem modT_core_lineKind (s : State) (f : Task → Task) : (s.modT f).core.lineKind = s.core.lineKind := rfl
@[simp] theorem modT_task (s : State) (f : Task → Task) : (s.modT f).core.t = f s.core.t := rfl
@[simp] theorem modT_core_buf (s : State) (f : Task → Task) : (s.modT f).core.buf = s.core.buf := rfl
@[simp] theorem modT_core_icache (s : State) (f : Task → Task) : (s.modT f).core.icache = s.core.icache := rfl
@[simp] theorem modT_core_vcache (s : State) (f : Task → Task) : (s.modT f).core.vcache = s.core.vcache := rfl
@[simp] theorem modT_core_l1tlb (s : State) (f : Task → Task) : (s.modT f).core.l1tlb = s.core.l1tlb := rfl
@[simp] theorem modT_core_tlbi (s : State) (f : Task → Task) : (s.modT f).core.tlbi = s.core.tlbi := rfl
@[simp] theorem modT_core_rfFrom (s : State) (f : Task → Task) : (s.modT f).core.rfFrom = s.core.rfFrom := rfl
@[simp] theorem modT_core_rfUntil (s : State) (f : Task → Task) : (s.modT f).core.rfUntil = s.core.rfUntil := rfl
@[simp] theorem modT_core_health (s : State) (f : Task → Task) : (s.modT f).core.health = s.core.health := rfl
@[simp] theorem modT_core_epend (s : State) (f : Task → Task) : (s.modT f).core.epend = s.core.epend := rfl
@[simp] theorem modT_core_reserved (s : State) (f : Task → Task) : (s.modT f).core.reserved = s.core.reserved := rfl
@[simp] theorem modT_core_resetAt (s : State) (f : Task → Task) : (s.modT f).core.resetAt = s.core.resetAt := rfl
@[simp] theorem modT_core_csince (s : State) (f : Task → Task) : (s.modT f).core.csince = s.core.csince := rfl
@[simp] theorem modT_core_hold (s : State) (f : Task → Task) : (s.modT f).core.hold = s.core.hold := rfl
@[simp] theorem modT_core_ckpt (s : State) (f : Task → Task) : (s.modT f).core.ckpt = s.core.ckpt := rfl
@[simp] theorem modT_others (s : State) (f : Task → Task) : (s.modT f).others = s.others := rfl
@[simp] theorem modT_ctxs (s : State) (f : Task → Task) : (s.modT f).ctxs = s.ctxs := rfl
@[simp] theorem modT_mem (s : State) (f : Task → Task) : (s.modT f).mem = s.mem := rfl
@[simp] theorem modT_sched (s : State) (f : Task → Task) : (s.modT f).sched = s.sched := rfl
@[simp] theorem modT_host (s : State) (f : Task → Task) : (s.modT f).host = s.host := rfl
@[simp] theorem modT_plat (s : State) (f : Task → Task) : (s.modT f).plat = s.plat := rfl
@[simp] theorem modT_flash (s : State) (f : Task → Task) : (s.modT f).flash = s.flash := rfl
@[simp] theorem modT_ports (s : State) (f : Task → Task) : (s.modT f).ports = s.ports := rfl
@[simp] theorem modT_colls (s : State) (f : Task → Task) : (s.modT f).colls = s.colls := rfl
@[simp] theorem modT_nextColl (s : State) (f : Task → Task) : (s.modT f).nextColl = s.nextColl := rfl
@[simp] theorem modT_images (s : State) (f : Task → Task) : (s.modT f).images = s.images := rfl
@[simp] theorem modT_nextImage (s : State) (f : Task → Task) : (s.modT f).nextImage = s.nextImage := rfl
@[simp] theorem modT_now (s : State) (f : Task → Task) : (s.modT f).now = s.now := rfl
@[simp] theorem modT_fresh (s : State) (f : Task → Task) : (s.modT f).fresh = s.fresh := rfl
@[simp] theorem modT_turn (s : State) (f : Task → Task) : (s.modT f).turn = s.turn := rfl
@[simp] theorem modT_agenda (s : State) (f : Task → Task) : (s.modT f).agenda = s.agenda := rfl
@[simp] theorem modT_powered (s : State) (f : Task → Task) : (s.modT f).powered = s.powered := rfl

@[simp] theorem modR_core_phys (s : State) (f : Regs → Regs) : (s.modR f).core.phys = s.core.phys := rfl
@[simp] theorem modR_core_running (s : State) (f : Regs → Regs) : (s.modR f).core.running = s.core.running := rfl
@[simp] theorem modR_core_waiting (s : State) (f : Regs → Regs) : (s.modR f).core.waiting = s.core.waiting := rfl
@[simp] theorem modR_core_stopped (s : State) (f : Regs → Regs) : (s.modR f).core.stopped = s.core.stopped := rfl
@[simp] theorem modR_core_entry (s : State) (f : Regs → Regs) : (s.modR f).core.entry = s.core.entry := rfl
@[simp] theorem modR_core_lineKind (s : State) (f : Regs → Regs) : (s.modR f).core.lineKind = s.core.lineKind := rfl
@[simp] theorem modR_task (s : State) (f : Regs → Regs) : (s.modR f).core.t = { s.core.t with regs := f s.core.t.regs } := rfl
@[simp] theorem modR_core_buf (s : State) (f : Regs → Regs) : (s.modR f).core.buf = s.core.buf := rfl
@[simp] theorem modR_core_icache (s : State) (f : Regs → Regs) : (s.modR f).core.icache = s.core.icache := rfl
@[simp] theorem modR_core_vcache (s : State) (f : Regs → Regs) : (s.modR f).core.vcache = s.core.vcache := rfl
@[simp] theorem modR_core_l1tlb (s : State) (f : Regs → Regs) : (s.modR f).core.l1tlb = s.core.l1tlb := rfl
@[simp] theorem modR_core_tlbi (s : State) (f : Regs → Regs) : (s.modR f).core.tlbi = s.core.tlbi := rfl
@[simp] theorem modR_core_rfFrom (s : State) (f : Regs → Regs) : (s.modR f).core.rfFrom = s.core.rfFrom := rfl
@[simp] theorem modR_core_rfUntil (s : State) (f : Regs → Regs) : (s.modR f).core.rfUntil = s.core.rfUntil := rfl
@[simp] theorem modR_core_health (s : State) (f : Regs → Regs) : (s.modR f).core.health = s.core.health := rfl
@[simp] theorem modR_core_epend (s : State) (f : Regs → Regs) : (s.modR f).core.epend = s.core.epend := rfl
@[simp] theorem modR_core_reserved (s : State) (f : Regs → Regs) : (s.modR f).core.reserved = s.core.reserved := rfl
@[simp] theorem modR_core_resetAt (s : State) (f : Regs → Regs) : (s.modR f).core.resetAt = s.core.resetAt := rfl
@[simp] theorem modR_core_csince (s : State) (f : Regs → Regs) : (s.modR f).core.csince = s.core.csince := rfl
@[simp] theorem modR_core_hold (s : State) (f : Regs → Regs) : (s.modR f).core.hold = s.core.hold := rfl
@[simp] theorem modR_core_ckpt (s : State) (f : Regs → Regs) : (s.modR f).core.ckpt = s.core.ckpt := rfl
@[simp] theorem modR_others (s : State) (f : Regs → Regs) : (s.modR f).others = s.others := rfl
@[simp] theorem modR_ctxs (s : State) (f : Regs → Regs) : (s.modR f).ctxs = s.ctxs := rfl
@[simp] theorem modR_mem (s : State) (f : Regs → Regs) : (s.modR f).mem = s.mem := rfl
@[simp] theorem modR_sched (s : State) (f : Regs → Regs) : (s.modR f).sched = s.sched := rfl
@[simp] theorem modR_host (s : State) (f : Regs → Regs) : (s.modR f).host = s.host := rfl
@[simp] theorem modR_plat (s : State) (f : Regs → Regs) : (s.modR f).plat = s.plat := rfl
@[simp] theorem modR_flash (s : State) (f : Regs → Regs) : (s.modR f).flash = s.flash := rfl
@[simp] theorem modR_ports (s : State) (f : Regs → Regs) : (s.modR f).ports = s.ports := rfl
@[simp] theorem modR_colls (s : State) (f : Regs → Regs) : (s.modR f).colls = s.colls := rfl
@[simp] theorem modR_nextColl (s : State) (f : Regs → Regs) : (s.modR f).nextColl = s.nextColl := rfl
@[simp] theorem modR_images (s : State) (f : Regs → Regs) : (s.modR f).images = s.images := rfl
@[simp] theorem modR_nextImage (s : State) (f : Regs → Regs) : (s.modR f).nextImage = s.nextImage := rfl
@[simp] theorem modR_now (s : State) (f : Regs → Regs) : (s.modR f).now = s.now := rfl
@[simp] theorem modR_fresh (s : State) (f : Regs → Regs) : (s.modR f).fresh = s.fresh := rfl
@[simp] theorem modR_turn (s : State) (f : Regs → Regs) : (s.modR f).turn = s.turn := rfl
@[simp] theorem modR_agenda (s : State) (f : Regs → Regs) : (s.modR f).agenda = s.agenda := rfl
@[simp] theorem modR_powered (s : State) (f : Regs → Regs) : (s.modR f).powered = s.powered := rfl

@[simp] theorem modY_core_phys (s : State) (f : TaskSys → TaskSys) : (s.modY f).core.phys = s.core.phys := rfl
@[simp] theorem modY_core_running (s : State) (f : TaskSys → TaskSys) : (s.modY f).core.running = s.core.running := rfl
@[simp] theorem modY_core_waiting (s : State) (f : TaskSys → TaskSys) : (s.modY f).core.waiting = s.core.waiting := rfl
@[simp] theorem modY_core_stopped (s : State) (f : TaskSys → TaskSys) : (s.modY f).core.stopped = s.core.stopped := rfl
@[simp] theorem modY_core_entry (s : State) (f : TaskSys → TaskSys) : (s.modY f).core.entry = s.core.entry := rfl
@[simp] theorem modY_core_lineKind (s : State) (f : TaskSys → TaskSys) : (s.modY f).core.lineKind = s.core.lineKind := rfl
@[simp] theorem modY_task (s : State) (f : TaskSys → TaskSys) : (s.modY f).core.t = { s.core.t with sys := f s.core.t.sys } := rfl
@[simp] theorem modY_core_buf (s : State) (f : TaskSys → TaskSys) : (s.modY f).core.buf = s.core.buf := rfl
@[simp] theorem modY_core_icache (s : State) (f : TaskSys → TaskSys) : (s.modY f).core.icache = s.core.icache := rfl
@[simp] theorem modY_core_vcache (s : State) (f : TaskSys → TaskSys) : (s.modY f).core.vcache = s.core.vcache := rfl
@[simp] theorem modY_core_l1tlb (s : State) (f : TaskSys → TaskSys) : (s.modY f).core.l1tlb = s.core.l1tlb := rfl
@[simp] theorem modY_core_tlbi (s : State) (f : TaskSys → TaskSys) : (s.modY f).core.tlbi = s.core.tlbi := rfl
@[simp] theorem modY_core_rfFrom (s : State) (f : TaskSys → TaskSys) : (s.modY f).core.rfFrom = s.core.rfFrom := rfl
@[simp] theorem modY_core_rfUntil (s : State) (f : TaskSys → TaskSys) : (s.modY f).core.rfUntil = s.core.rfUntil := rfl
@[simp] theorem modY_core_health (s : State) (f : TaskSys → TaskSys) : (s.modY f).core.health = s.core.health := rfl
@[simp] theorem modY_core_epend (s : State) (f : TaskSys → TaskSys) : (s.modY f).core.epend = s.core.epend := rfl
@[simp] theorem modY_core_reserved (s : State) (f : TaskSys → TaskSys) : (s.modY f).core.reserved = s.core.reserved := rfl
@[simp] theorem modY_core_resetAt (s : State) (f : TaskSys → TaskSys) : (s.modY f).core.resetAt = s.core.resetAt := rfl
@[simp] theorem modY_core_csince (s : State) (f : TaskSys → TaskSys) : (s.modY f).core.csince = s.core.csince := rfl
@[simp] theorem modY_core_hold (s : State) (f : TaskSys → TaskSys) : (s.modY f).core.hold = s.core.hold := rfl
@[simp] theorem modY_core_ckpt (s : State) (f : TaskSys → TaskSys) : (s.modY f).core.ckpt = s.core.ckpt := rfl
@[simp] theorem modY_others (s : State) (f : TaskSys → TaskSys) : (s.modY f).others = s.others := rfl
@[simp] theorem modY_ctxs (s : State) (f : TaskSys → TaskSys) : (s.modY f).ctxs = s.ctxs := rfl
@[simp] theorem modY_mem (s : State) (f : TaskSys → TaskSys) : (s.modY f).mem = s.mem := rfl
@[simp] theorem modY_sched (s : State) (f : TaskSys → TaskSys) : (s.modY f).sched = s.sched := rfl
@[simp] theorem modY_host (s : State) (f : TaskSys → TaskSys) : (s.modY f).host = s.host := rfl
@[simp] theorem modY_plat (s : State) (f : TaskSys → TaskSys) : (s.modY f).plat = s.plat := rfl
@[simp] theorem modY_flash (s : State) (f : TaskSys → TaskSys) : (s.modY f).flash = s.flash := rfl
@[simp] theorem modY_ports (s : State) (f : TaskSys → TaskSys) : (s.modY f).ports = s.ports := rfl
@[simp] theorem modY_colls (s : State) (f : TaskSys → TaskSys) : (s.modY f).colls = s.colls := rfl
@[simp] theorem modY_nextColl (s : State) (f : TaskSys → TaskSys) : (s.modY f).nextColl = s.nextColl := rfl
@[simp] theorem modY_images (s : State) (f : TaskSys → TaskSys) : (s.modY f).images = s.images := rfl
@[simp] theorem modY_nextImage (s : State) (f : TaskSys → TaskSys) : (s.modY f).nextImage = s.nextImage := rfl
@[simp] theorem modY_now (s : State) (f : TaskSys → TaskSys) : (s.modY f).now = s.now := rfl
@[simp] theorem modY_fresh (s : State) (f : TaskSys → TaskSys) : (s.modY f).fresh = s.fresh := rfl
@[simp] theorem modY_turn (s : State) (f : TaskSys → TaskSys) : (s.modY f).turn = s.turn := rfl
@[simp] theorem modY_agenda (s : State) (f : TaskSys → TaskSys) : (s.modY f).agenda = s.agenda := rfl
@[simp] theorem modY_powered (s : State) (f : TaskSys → TaskSys) : (s.modY f).powered = s.powered := rfl

@[simp] theorem modTl_core_phys (s : State) (f : Timelines → Timelines) : (s.modTl f).core.phys = s.core.phys := rfl
@[simp] theorem modTl_core_running (s : State) (f : Timelines → Timelines) : (s.modTl f).core.running = s.core.running := rfl
@[simp] theorem modTl_core_waiting (s : State) (f : Timelines → Timelines) : (s.modTl f).core.waiting = s.core.waiting := rfl
@[simp] theorem modTl_core_stopped (s : State) (f : Timelines → Timelines) : (s.modTl f).core.stopped = s.core.stopped := rfl
@[simp] theorem modTl_core_entry (s : State) (f : Timelines → Timelines) : (s.modTl f).core.entry = s.core.entry := rfl
@[simp] theorem modTl_core_lineKind (s : State) (f : Timelines → Timelines) : (s.modTl f).core.lineKind = s.core.lineKind := rfl
@[simp] theorem modTl_task (s : State) (f : Timelines → Timelines) : (s.modTl f).core.t = { s.core.t with tls := f s.core.t.tls } := rfl
@[simp] theorem modTl_core_buf (s : State) (f : Timelines → Timelines) : (s.modTl f).core.buf = s.core.buf := rfl
@[simp] theorem modTl_core_icache (s : State) (f : Timelines → Timelines) : (s.modTl f).core.icache = s.core.icache := rfl
@[simp] theorem modTl_core_vcache (s : State) (f : Timelines → Timelines) : (s.modTl f).core.vcache = s.core.vcache := rfl
@[simp] theorem modTl_core_l1tlb (s : State) (f : Timelines → Timelines) : (s.modTl f).core.l1tlb = s.core.l1tlb := rfl
@[simp] theorem modTl_core_tlbi (s : State) (f : Timelines → Timelines) : (s.modTl f).core.tlbi = s.core.tlbi := rfl
@[simp] theorem modTl_core_rfFrom (s : State) (f : Timelines → Timelines) : (s.modTl f).core.rfFrom = s.core.rfFrom := rfl
@[simp] theorem modTl_core_rfUntil (s : State) (f : Timelines → Timelines) : (s.modTl f).core.rfUntil = s.core.rfUntil := rfl
@[simp] theorem modTl_core_health (s : State) (f : Timelines → Timelines) : (s.modTl f).core.health = s.core.health := rfl
@[simp] theorem modTl_core_epend (s : State) (f : Timelines → Timelines) : (s.modTl f).core.epend = s.core.epend := rfl
@[simp] theorem modTl_core_reserved (s : State) (f : Timelines → Timelines) : (s.modTl f).core.reserved = s.core.reserved := rfl
@[simp] theorem modTl_core_resetAt (s : State) (f : Timelines → Timelines) : (s.modTl f).core.resetAt = s.core.resetAt := rfl
@[simp] theorem modTl_core_csince (s : State) (f : Timelines → Timelines) : (s.modTl f).core.csince = s.core.csince := rfl
@[simp] theorem modTl_core_hold (s : State) (f : Timelines → Timelines) : (s.modTl f).core.hold = s.core.hold := rfl
@[simp] theorem modTl_core_ckpt (s : State) (f : Timelines → Timelines) : (s.modTl f).core.ckpt = s.core.ckpt := rfl
@[simp] theorem modTl_others (s : State) (f : Timelines → Timelines) : (s.modTl f).others = s.others := rfl
@[simp] theorem modTl_ctxs (s : State) (f : Timelines → Timelines) : (s.modTl f).ctxs = s.ctxs := rfl
@[simp] theorem modTl_mem (s : State) (f : Timelines → Timelines) : (s.modTl f).mem = s.mem := rfl
@[simp] theorem modTl_sched (s : State) (f : Timelines → Timelines) : (s.modTl f).sched = s.sched := rfl
@[simp] theorem modTl_host (s : State) (f : Timelines → Timelines) : (s.modTl f).host = s.host := rfl
@[simp] theorem modTl_plat (s : State) (f : Timelines → Timelines) : (s.modTl f).plat = s.plat := rfl
@[simp] theorem modTl_flash (s : State) (f : Timelines → Timelines) : (s.modTl f).flash = s.flash := rfl
@[simp] theorem modTl_ports (s : State) (f : Timelines → Timelines) : (s.modTl f).ports = s.ports := rfl
@[simp] theorem modTl_colls (s : State) (f : Timelines → Timelines) : (s.modTl f).colls = s.colls := rfl
@[simp] theorem modTl_nextColl (s : State) (f : Timelines → Timelines) : (s.modTl f).nextColl = s.nextColl := rfl
@[simp] theorem modTl_images (s : State) (f : Timelines → Timelines) : (s.modTl f).images = s.images := rfl
@[simp] theorem modTl_nextImage (s : State) (f : Timelines → Timelines) : (s.modTl f).nextImage = s.nextImage := rfl
@[simp] theorem modTl_now (s : State) (f : Timelines → Timelines) : (s.modTl f).now = s.now := rfl
@[simp] theorem modTl_fresh (s : State) (f : Timelines → Timelines) : (s.modTl f).fresh = s.fresh := rfl
@[simp] theorem modTl_turn (s : State) (f : Timelines → Timelines) : (s.modTl f).turn = s.turn := rfl
@[simp] theorem modTl_agenda (s : State) (f : Timelines → Timelines) : (s.modTl f).agenda = s.agenda := rfl
@[simp] theorem modTl_powered (s : State) (f : Timelines → Timelines) : (s.modTl f).powered = s.powered := rfl

@[simp] theorem modV_core_phys (s : State) (f : View → View) : (s.modV f).core.phys = s.core.phys := rfl
@[simp] theorem modV_core_running (s : State) (f : View → View) : (s.modV f).core.running = s.core.running := rfl
@[simp] theorem modV_core_waiting (s : State) (f : View → View) : (s.modV f).core.waiting = s.core.waiting := rfl
@[simp] theorem modV_core_stopped (s : State) (f : View → View) : (s.modV f).core.stopped = s.core.stopped := rfl
@[simp] theorem modV_core_entry (s : State) (f : View → View) : (s.modV f).core.entry = s.core.entry := rfl
@[simp] theorem modV_core_lineKind (s : State) (f : View → View) : (s.modV f).core.lineKind = s.core.lineKind := rfl
@[simp] theorem modV_task (s : State) (f : View → View) : (s.modV f).core.t = { s.core.t with view := f s.core.t.view } := rfl
@[simp] theorem modV_core_buf (s : State) (f : View → View) : (s.modV f).core.buf = s.core.buf := rfl
@[simp] theorem modV_core_icache (s : State) (f : View → View) : (s.modV f).core.icache = s.core.icache := rfl
@[simp] theorem modV_core_vcache (s : State) (f : View → View) : (s.modV f).core.vcache = s.core.vcache := rfl
@[simp] theorem modV_core_l1tlb (s : State) (f : View → View) : (s.modV f).core.l1tlb = s.core.l1tlb := rfl
@[simp] theorem modV_core_tlbi (s : State) (f : View → View) : (s.modV f).core.tlbi = s.core.tlbi := rfl
@[simp] theorem modV_core_rfFrom (s : State) (f : View → View) : (s.modV f).core.rfFrom = s.core.rfFrom := rfl
@[simp] theorem modV_core_rfUntil (s : State) (f : View → View) : (s.modV f).core.rfUntil = s.core.rfUntil := rfl
@[simp] theorem modV_core_health (s : State) (f : View → View) : (s.modV f).core.health = s.core.health := rfl
@[simp] theorem modV_core_epend (s : State) (f : View → View) : (s.modV f).core.epend = s.core.epend := rfl
@[simp] theorem modV_core_reserved (s : State) (f : View → View) : (s.modV f).core.reserved = s.core.reserved := rfl
@[simp] theorem modV_core_resetAt (s : State) (f : View → View) : (s.modV f).core.resetAt = s.core.resetAt := rfl
@[simp] theorem modV_core_csince (s : State) (f : View → View) : (s.modV f).core.csince = s.core.csince := rfl
@[simp] theorem modV_core_hold (s : State) (f : View → View) : (s.modV f).core.hold = s.core.hold := rfl
@[simp] theorem modV_core_ckpt (s : State) (f : View → View) : (s.modV f).core.ckpt = s.core.ckpt := rfl
@[simp] theorem modV_others (s : State) (f : View → View) : (s.modV f).others = s.others := rfl
@[simp] theorem modV_ctxs (s : State) (f : View → View) : (s.modV f).ctxs = s.ctxs := rfl
@[simp] theorem modV_mem (s : State) (f : View → View) : (s.modV f).mem = s.mem := rfl
@[simp] theorem modV_sched (s : State) (f : View → View) : (s.modV f).sched = s.sched := rfl
@[simp] theorem modV_host (s : State) (f : View → View) : (s.modV f).host = s.host := rfl
@[simp] theorem modV_plat (s : State) (f : View → View) : (s.modV f).plat = s.plat := rfl
@[simp] theorem modV_flash (s : State) (f : View → View) : (s.modV f).flash = s.flash := rfl
@[simp] theorem modV_ports (s : State) (f : View → View) : (s.modV f).ports = s.ports := rfl
@[simp] theorem modV_colls (s : State) (f : View → View) : (s.modV f).colls = s.colls := rfl
@[simp] theorem modV_nextColl (s : State) (f : View → View) : (s.modV f).nextColl = s.nextColl := rfl
@[simp] theorem modV_images (s : State) (f : View → View) : (s.modV f).images = s.images := rfl
@[simp] theorem modV_nextImage (s : State) (f : View → View) : (s.modV f).nextImage = s.nextImage := rfl
@[simp] theorem modV_now (s : State) (f : View → View) : (s.modV f).now = s.now := rfl
@[simp] theorem modV_fresh (s : State) (f : View → View) : (s.modV f).fresh = s.fresh := rfl
@[simp] theorem modV_turn (s : State) (f : View → View) : (s.modV f).turn = s.turn := rfl
@[simp] theorem modV_agenda (s : State) (f : View → View) : (s.modV f).agenda = s.agenda := rfl
@[simp] theorem modV_powered (s : State) (f : View → View) : (s.modV f).powered = s.powered := rfl

@[simp] theorem modB_core_phys (s : State) (f : Buffers → Buffers) : (s.modB f).core.phys = s.core.phys := rfl
@[simp] theorem modB_core_running (s : State) (f : Buffers → Buffers) : (s.modB f).core.running = s.core.running := rfl
@[simp] theorem modB_core_waiting (s : State) (f : Buffers → Buffers) : (s.modB f).core.waiting = s.core.waiting := rfl
@[simp] theorem modB_core_stopped (s : State) (f : Buffers → Buffers) : (s.modB f).core.stopped = s.core.stopped := rfl
@[simp] theorem modB_core_entry (s : State) (f : Buffers → Buffers) : (s.modB f).core.entry = s.core.entry := rfl
@[simp] theorem modB_core_lineKind (s : State) (f : Buffers → Buffers) : (s.modB f).core.lineKind = s.core.lineKind := rfl
@[simp] theorem modB_task (s : State) (f : Buffers → Buffers) : (s.modB f).core.t = s.core.t := rfl
@[simp] theorem modB_core_buf (s : State) (f : Buffers → Buffers) : (s.modB f).core.buf = f s.core.buf := rfl
@[simp] theorem modB_core_icache (s : State) (f : Buffers → Buffers) : (s.modB f).core.icache = s.core.icache := rfl
@[simp] theorem modB_core_vcache (s : State) (f : Buffers → Buffers) : (s.modB f).core.vcache = s.core.vcache := rfl
@[simp] theorem modB_core_l1tlb (s : State) (f : Buffers → Buffers) : (s.modB f).core.l1tlb = s.core.l1tlb := rfl
@[simp] theorem modB_core_tlbi (s : State) (f : Buffers → Buffers) : (s.modB f).core.tlbi = s.core.tlbi := rfl
@[simp] theorem modB_core_rfFrom (s : State) (f : Buffers → Buffers) : (s.modB f).core.rfFrom = s.core.rfFrom := rfl
@[simp] theorem modB_core_rfUntil (s : State) (f : Buffers → Buffers) : (s.modB f).core.rfUntil = s.core.rfUntil := rfl
@[simp] theorem modB_core_health (s : State) (f : Buffers → Buffers) : (s.modB f).core.health = s.core.health := rfl
@[simp] theorem modB_core_epend (s : State) (f : Buffers → Buffers) : (s.modB f).core.epend = s.core.epend := rfl
@[simp] theorem modB_core_reserved (s : State) (f : Buffers → Buffers) : (s.modB f).core.reserved = s.core.reserved := rfl
@[simp] theorem modB_core_resetAt (s : State) (f : Buffers → Buffers) : (s.modB f).core.resetAt = s.core.resetAt := rfl
@[simp] theorem modB_core_csince (s : State) (f : Buffers → Buffers) : (s.modB f).core.csince = s.core.csince := rfl
@[simp] theorem modB_core_hold (s : State) (f : Buffers → Buffers) : (s.modB f).core.hold = s.core.hold := rfl
@[simp] theorem modB_core_ckpt (s : State) (f : Buffers → Buffers) : (s.modB f).core.ckpt = s.core.ckpt := rfl
@[simp] theorem modB_others (s : State) (f : Buffers → Buffers) : (s.modB f).others = s.others := rfl
@[simp] theorem modB_ctxs (s : State) (f : Buffers → Buffers) : (s.modB f).ctxs = s.ctxs := rfl
@[simp] theorem modB_mem (s : State) (f : Buffers → Buffers) : (s.modB f).mem = s.mem := rfl
@[simp] theorem modB_sched (s : State) (f : Buffers → Buffers) : (s.modB f).sched = s.sched := rfl
@[simp] theorem modB_host (s : State) (f : Buffers → Buffers) : (s.modB f).host = s.host := rfl
@[simp] theorem modB_plat (s : State) (f : Buffers → Buffers) : (s.modB f).plat = s.plat := rfl
@[simp] theorem modB_flash (s : State) (f : Buffers → Buffers) : (s.modB f).flash = s.flash := rfl
@[simp] theorem modB_ports (s : State) (f : Buffers → Buffers) : (s.modB f).ports = s.ports := rfl
@[simp] theorem modB_colls (s : State) (f : Buffers → Buffers) : (s.modB f).colls = s.colls := rfl
@[simp] theorem modB_nextColl (s : State) (f : Buffers → Buffers) : (s.modB f).nextColl = s.nextColl := rfl
@[simp] theorem modB_images (s : State) (f : Buffers → Buffers) : (s.modB f).images = s.images := rfl
@[simp] theorem modB_nextImage (s : State) (f : Buffers → Buffers) : (s.modB f).nextImage = s.nextImage := rfl
@[simp] theorem modB_now (s : State) (f : Buffers → Buffers) : (s.modB f).now = s.now := rfl
@[simp] theorem modB_fresh (s : State) (f : Buffers → Buffers) : (s.modB f).fresh = s.fresh := rfl
@[simp] theorem modB_turn (s : State) (f : Buffers → Buffers) : (s.modB f).turn = s.turn := rfl
@[simp] theorem modB_agenda (s : State) (f : Buffers → Buffers) : (s.modB f).agenda = s.agenda := rfl
@[simp] theorem modB_powered (s : State) (f : Buffers → Buffers) : (s.modB f).powered = s.powered := rfl

@[simp] theorem modH_core_phys (s : State) (f : Health → Health) : (s.modH f).core.phys = s.core.phys := rfl
@[simp] theorem modH_core_running (s : State) (f : Health → Health) : (s.modH f).core.running = s.core.running := rfl
@[simp] theorem modH_core_waiting (s : State) (f : Health → Health) : (s.modH f).core.waiting = s.core.waiting := rfl
@[simp] theorem modH_core_stopped (s : State) (f : Health → Health) : (s.modH f).core.stopped = s.core.stopped := rfl
@[simp] theorem modH_core_entry (s : State) (f : Health → Health) : (s.modH f).core.entry = s.core.entry := rfl
@[simp] theorem modH_core_lineKind (s : State) (f : Health → Health) : (s.modH f).core.lineKind = s.core.lineKind := rfl
@[simp] theorem modH_task (s : State) (f : Health → Health) : (s.modH f).core.t = s.core.t := rfl
@[simp] theorem modH_core_buf (s : State) (f : Health → Health) : (s.modH f).core.buf = s.core.buf := rfl
@[simp] theorem modH_core_icache (s : State) (f : Health → Health) : (s.modH f).core.icache = s.core.icache := rfl
@[simp] theorem modH_core_vcache (s : State) (f : Health → Health) : (s.modH f).core.vcache = s.core.vcache := rfl
@[simp] theorem modH_core_l1tlb (s : State) (f : Health → Health) : (s.modH f).core.l1tlb = s.core.l1tlb := rfl
@[simp] theorem modH_core_tlbi (s : State) (f : Health → Health) : (s.modH f).core.tlbi = s.core.tlbi := rfl
@[simp] theorem modH_core_rfFrom (s : State) (f : Health → Health) : (s.modH f).core.rfFrom = s.core.rfFrom := rfl
@[simp] theorem modH_core_rfUntil (s : State) (f : Health → Health) : (s.modH f).core.rfUntil = s.core.rfUntil := rfl
@[simp] theorem modH_core_health (s : State) (f : Health → Health) : (s.modH f).core.health = f s.core.health := rfl
@[simp] theorem modH_core_epend (s : State) (f : Health → Health) : (s.modH f).core.epend = s.core.epend := rfl
@[simp] theorem modH_core_reserved (s : State) (f : Health → Health) : (s.modH f).core.reserved = s.core.reserved := rfl
@[simp] theorem modH_core_resetAt (s : State) (f : Health → Health) : (s.modH f).core.resetAt = s.core.resetAt := rfl
@[simp] theorem modH_core_csince (s : State) (f : Health → Health) : (s.modH f).core.csince = s.core.csince := rfl
@[simp] theorem modH_core_hold (s : State) (f : Health → Health) : (s.modH f).core.hold = s.core.hold := rfl
@[simp] theorem modH_core_ckpt (s : State) (f : Health → Health) : (s.modH f).core.ckpt = s.core.ckpt := rfl
@[simp] theorem modH_others (s : State) (f : Health → Health) : (s.modH f).others = s.others := rfl
@[simp] theorem modH_ctxs (s : State) (f : Health → Health) : (s.modH f).ctxs = s.ctxs := rfl
@[simp] theorem modH_mem (s : State) (f : Health → Health) : (s.modH f).mem = s.mem := rfl
@[simp] theorem modH_sched (s : State) (f : Health → Health) : (s.modH f).sched = s.sched := rfl
@[simp] theorem modH_host (s : State) (f : Health → Health) : (s.modH f).host = s.host := rfl
@[simp] theorem modH_plat (s : State) (f : Health → Health) : (s.modH f).plat = s.plat := rfl
@[simp] theorem modH_flash (s : State) (f : Health → Health) : (s.modH f).flash = s.flash := rfl
@[simp] theorem modH_ports (s : State) (f : Health → Health) : (s.modH f).ports = s.ports := rfl
@[simp] theorem modH_colls (s : State) (f : Health → Health) : (s.modH f).colls = s.colls := rfl
@[simp] theorem modH_nextColl (s : State) (f : Health → Health) : (s.modH f).nextColl = s.nextColl := rfl
@[simp] theorem modH_images (s : State) (f : Health → Health) : (s.modH f).images = s.images := rfl
@[simp] theorem modH_nextImage (s : State) (f : Health → Health) : (s.modH f).nextImage = s.nextImage := rfl
@[simp] theorem modH_now (s : State) (f : Health → Health) : (s.modH f).now = s.now := rfl
@[simp] theorem modH_fresh (s : State) (f : Health → Health) : (s.modH f).fresh = s.fresh := rfl
@[simp] theorem modH_turn (s : State) (f : Health → Health) : (s.modH f).turn = s.turn := rfl
@[simp] theorem modH_agenda (s : State) (f : Health → Health) : (s.modH f).agenda = s.agenda := rfl
@[simp] theorem modH_powered (s : State) (f : Health → Health) : (s.modH f).powered = s.powered := rfl

@[simp] theorem modM_core (s : State) (f : Mem → Mem) : (s.modM f).core = s.core := rfl
@[simp] theorem modM_others (s : State) (f : Mem → Mem) : (s.modM f).others = s.others := rfl
@[simp] theorem modM_ctxs (s : State) (f : Mem → Mem) : (s.modM f).ctxs = s.ctxs := rfl
@[simp] theorem modM_mem (s : State) (f : Mem → Mem) : (s.modM f).mem = f s.mem := rfl
@[simp] theorem modM_sched (s : State) (f : Mem → Mem) : (s.modM f).sched = s.sched := rfl
@[simp] theorem modM_host (s : State) (f : Mem → Mem) : (s.modM f).host = s.host := rfl
@[simp] theorem modM_plat (s : State) (f : Mem → Mem) : (s.modM f).plat = s.plat := rfl
@[simp] theorem modM_flash (s : State) (f : Mem → Mem) : (s.modM f).flash = s.flash := rfl
@[simp] theorem modM_ports (s : State) (f : Mem → Mem) : (s.modM f).ports = s.ports := rfl
@[simp] theorem modM_colls (s : State) (f : Mem → Mem) : (s.modM f).colls = s.colls := rfl
@[simp] theorem modM_nextColl (s : State) (f : Mem → Mem) : (s.modM f).nextColl = s.nextColl := rfl
@[simp] theorem modM_images (s : State) (f : Mem → Mem) : (s.modM f).images = s.images := rfl
@[simp] theorem modM_nextImage (s : State) (f : Mem → Mem) : (s.modM f).nextImage = s.nextImage := rfl
@[simp] theorem modM_now (s : State) (f : Mem → Mem) : (s.modM f).now = s.now := rfl
@[simp] theorem modM_fresh (s : State) (f : Mem → Mem) : (s.modM f).fresh = s.fresh := rfl
@[simp] theorem modM_turn (s : State) (f : Mem → Mem) : (s.modM f).turn = s.turn := rfl
@[simp] theorem modM_agenda (s : State) (f : Mem → Mem) : (s.modM f).agenda = s.agenda := rfl
@[simp] theorem modM_powered (s : State) (f : Mem → Mem) : (s.modM f).powered = s.powered := rfl

@[simp] theorem modS_core (s : State) (f : Sched → Sched) : (s.modS f).core = s.core := rfl
@[simp] theorem modS_others (s : State) (f : Sched → Sched) : (s.modS f).others = s.others := rfl
@[simp] theorem modS_ctxs (s : State) (f : Sched → Sched) : (s.modS f).ctxs = s.ctxs := rfl
@[simp] theorem modS_mem (s : State) (f : Sched → Sched) : (s.modS f).mem = s.mem := rfl
@[simp] theorem modS_sched (s : State) (f : Sched → Sched) : (s.modS f).sched = f s.sched := rfl
@[simp] theorem modS_host (s : State) (f : Sched → Sched) : (s.modS f).host = s.host := rfl
@[simp] theorem modS_plat (s : State) (f : Sched → Sched) : (s.modS f).plat = s.plat := rfl
@[simp] theorem modS_flash (s : State) (f : Sched → Sched) : (s.modS f).flash = s.flash := rfl
@[simp] theorem modS_ports (s : State) (f : Sched → Sched) : (s.modS f).ports = s.ports := rfl
@[simp] theorem modS_colls (s : State) (f : Sched → Sched) : (s.modS f).colls = s.colls := rfl
@[simp] theorem modS_nextColl (s : State) (f : Sched → Sched) : (s.modS f).nextColl = s.nextColl := rfl
@[simp] theorem modS_images (s : State) (f : Sched → Sched) : (s.modS f).images = s.images := rfl
@[simp] theorem modS_nextImage (s : State) (f : Sched → Sched) : (s.modS f).nextImage = s.nextImage := rfl
@[simp] theorem modS_now (s : State) (f : Sched → Sched) : (s.modS f).now = s.now := rfl
@[simp] theorem modS_fresh (s : State) (f : Sched → Sched) : (s.modS f).fresh = s.fresh := rfl
@[simp] theorem modS_turn (s : State) (f : Sched → Sched) : (s.modS f).turn = s.turn := rfl
@[simp] theorem modS_agenda (s : State) (f : Sched → Sched) : (s.modS f).agenda = s.agenda := rfl
@[simp] theorem modS_powered (s : State) (f : Sched → Sched) : (s.modS f).powered = s.powered := rfl

@[simp] theorem modX_core (s : State) (x : BitVec 12) (f : Ctx → Ctx) : (s.modX x f).core = s.core := rfl
@[simp] theorem modX_others (s : State) (x : BitVec 12) (f : Ctx → Ctx) : (s.modX x f).others = s.others := rfl
@[simp] theorem modX_ctxs (s : State) (x : BitVec 12) (f : Ctx → Ctx) : (s.modX x f).ctxs = Sparse.put Ctx.zero s.ctxs x.toNat (f (s.ctx x)) := rfl
@[simp] theorem modX_mem (s : State) (x : BitVec 12) (f : Ctx → Ctx) : (s.modX x f).mem = s.mem := rfl
@[simp] theorem modX_sched (s : State) (x : BitVec 12) (f : Ctx → Ctx) : (s.modX x f).sched = s.sched := rfl
@[simp] theorem modX_host (s : State) (x : BitVec 12) (f : Ctx → Ctx) : (s.modX x f).host = s.host := rfl
@[simp] theorem modX_plat (s : State) (x : BitVec 12) (f : Ctx → Ctx) : (s.modX x f).plat = s.plat := rfl
@[simp] theorem modX_flash (s : State) (x : BitVec 12) (f : Ctx → Ctx) : (s.modX x f).flash = s.flash := rfl
@[simp] theorem modX_ports (s : State) (x : BitVec 12) (f : Ctx → Ctx) : (s.modX x f).ports = s.ports := rfl
@[simp] theorem modX_colls (s : State) (x : BitVec 12) (f : Ctx → Ctx) : (s.modX x f).colls = s.colls := rfl
@[simp] theorem modX_nextColl (s : State) (x : BitVec 12) (f : Ctx → Ctx) : (s.modX x f).nextColl = s.nextColl := rfl
@[simp] theorem modX_images (s : State) (x : BitVec 12) (f : Ctx → Ctx) : (s.modX x f).images = s.images := rfl
@[simp] theorem modX_nextImage (s : State) (x : BitVec 12) (f : Ctx → Ctx) : (s.modX x f).nextImage = s.nextImage := rfl
@[simp] theorem modX_now (s : State) (x : BitVec 12) (f : Ctx → Ctx) : (s.modX x f).now = s.now := rfl
@[simp] theorem modX_fresh (s : State) (x : BitVec 12) (f : Ctx → Ctx) : (s.modX x f).fresh = s.fresh := rfl
@[simp] theorem modX_turn (s : State) (x : BitVec 12) (f : Ctx → Ctx) : (s.modX x f).turn = s.turn := rfl
@[simp] theorem modX_agenda (s : State) (x : BitVec 12) (f : Ctx → Ctx) : (s.modX x f).agenda = s.agenda := rfl
@[simp] theorem modX_powered (s : State) (x : BitVec 12) (f : Ctx → Ctx) : (s.modX x f).powered = s.powered := rfl

@[simp] theorem setS_core_phys (s : State) (n : Reg) (x : Word) : (s.setS n x).core.phys = s.core.phys := rfl
@[simp] theorem setS_core_running (s : State) (n : Reg) (x : Word) : (s.setS n x).core.running = s.core.running := rfl
@[simp] theorem setS_core_waiting (s : State) (n : Reg) (x : Word) : (s.setS n x).core.waiting = s.core.waiting := rfl
@[simp] theorem setS_core_stopped (s : State) (n : Reg) (x : Word) : (s.setS n x).core.stopped = s.core.stopped := rfl
@[simp] theorem setS_core_entry (s : State) (n : Reg) (x : Word) : (s.setS n x).core.entry = s.core.entry := rfl
@[simp] theorem setS_core_lineKind (s : State) (n : Reg) (x : Word) : (s.setS n x).core.lineKind = s.core.lineKind := rfl
@[simp] theorem setS_task (s : State) (n : Reg) (x : Word) : (s.setS n x).core.t = { s.core.t with regs := s.core.t.regs.wrS n x } := rfl
@[simp] theorem setS_core_buf (s : State) (n : Reg) (x : Word) : (s.setS n x).core.buf = s.core.buf := rfl
@[simp] theorem setS_core_icache (s : State) (n : Reg) (x : Word) : (s.setS n x).core.icache = s.core.icache := rfl
@[simp] theorem setS_core_vcache (s : State) (n : Reg) (x : Word) : (s.setS n x).core.vcache = s.core.vcache := rfl
@[simp] theorem setS_core_l1tlb (s : State) (n : Reg) (x : Word) : (s.setS n x).core.l1tlb = s.core.l1tlb := rfl
@[simp] theorem setS_core_tlbi (s : State) (n : Reg) (x : Word) : (s.setS n x).core.tlbi = s.core.tlbi := rfl
@[simp] theorem setS_core_rfFrom (s : State) (n : Reg) (x : Word) : (s.setS n x).core.rfFrom = s.core.rfFrom := rfl
@[simp] theorem setS_core_rfUntil (s : State) (n : Reg) (x : Word) : (s.setS n x).core.rfUntil = s.core.rfUntil := rfl
@[simp] theorem setS_core_health (s : State) (n : Reg) (x : Word) : (s.setS n x).core.health = s.core.health := rfl
@[simp] theorem setS_core_epend (s : State) (n : Reg) (x : Word) : (s.setS n x).core.epend = s.core.epend := rfl
@[simp] theorem setS_core_reserved (s : State) (n : Reg) (x : Word) : (s.setS n x).core.reserved = s.core.reserved := rfl
@[simp] theorem setS_core_resetAt (s : State) (n : Reg) (x : Word) : (s.setS n x).core.resetAt = s.core.resetAt := rfl
@[simp] theorem setS_core_csince (s : State) (n : Reg) (x : Word) : (s.setS n x).core.csince = s.core.csince := rfl
@[simp] theorem setS_core_hold (s : State) (n : Reg) (x : Word) : (s.setS n x).core.hold = s.core.hold := rfl
@[simp] theorem setS_core_ckpt (s : State) (n : Reg) (x : Word) : (s.setS n x).core.ckpt = s.core.ckpt := rfl
@[simp] theorem setS_others (s : State) (n : Reg) (x : Word) : (s.setS n x).others = s.others := rfl
@[simp] theorem setS_ctxs (s : State) (n : Reg) (x : Word) : (s.setS n x).ctxs = s.ctxs := rfl
@[simp] theorem setS_mem (s : State) (n : Reg) (x : Word) : (s.setS n x).mem = s.mem := rfl
@[simp] theorem setS_sched (s : State) (n : Reg) (x : Word) : (s.setS n x).sched = s.sched := rfl
@[simp] theorem setS_host (s : State) (n : Reg) (x : Word) : (s.setS n x).host = s.host := rfl
@[simp] theorem setS_plat (s : State) (n : Reg) (x : Word) : (s.setS n x).plat = s.plat := rfl
@[simp] theorem setS_flash (s : State) (n : Reg) (x : Word) : (s.setS n x).flash = s.flash := rfl
@[simp] theorem setS_ports (s : State) (n : Reg) (x : Word) : (s.setS n x).ports = s.ports := rfl
@[simp] theorem setS_colls (s : State) (n : Reg) (x : Word) : (s.setS n x).colls = s.colls := rfl
@[simp] theorem setS_nextColl (s : State) (n : Reg) (x : Word) : (s.setS n x).nextColl = s.nextColl := rfl
@[simp] theorem setS_images (s : State) (n : Reg) (x : Word) : (s.setS n x).images = s.images := rfl
@[simp] theorem setS_nextImage (s : State) (n : Reg) (x : Word) : (s.setS n x).nextImage = s.nextImage := rfl
@[simp] theorem setS_now (s : State) (n : Reg) (x : Word) : (s.setS n x).now = s.now := rfl
@[simp] theorem setS_fresh (s : State) (n : Reg) (x : Word) : (s.setS n x).fresh = s.fresh := rfl
@[simp] theorem setS_turn (s : State) (n : Reg) (x : Word) : (s.setS n x).turn = s.turn := rfl
@[simp] theorem setS_agenda (s : State) (n : Reg) (x : Word) : (s.setS n x).agenda = s.agenda := rfl
@[simp] theorem setS_powered (s : State) (n : Reg) (x : Word) : (s.setS n x).powered = s.powered := rfl

@[simp] theorem setD_core_phys (s : State) (n : DCode) (x : Desc) : (s.setD n x).core.phys = s.core.phys := rfl
@[simp] theorem setD_core_running (s : State) (n : DCode) (x : Desc) : (s.setD n x).core.running = s.core.running := rfl
@[simp] theorem setD_core_waiting (s : State) (n : DCode) (x : Desc) : (s.setD n x).core.waiting = s.core.waiting := rfl
@[simp] theorem setD_core_stopped (s : State) (n : DCode) (x : Desc) : (s.setD n x).core.stopped = s.core.stopped := rfl
@[simp] theorem setD_core_entry (s : State) (n : DCode) (x : Desc) : (s.setD n x).core.entry = s.core.entry := rfl
@[simp] theorem setD_core_lineKind (s : State) (n : DCode) (x : Desc) : (s.setD n x).core.lineKind = s.core.lineKind := rfl
@[simp] theorem setD_task (s : State) (n : DCode) (x : Desc) : (s.setD n x).core.t = { s.core.t with regs := { s.core.t.regs with d := s.core.t.regs.d.set n.toNat x, dpois := s.core.t.regs.dpois &&& ~~~(1#16 <<< n.toNat) } } := rfl
@[simp] theorem setD_core_buf (s : State) (n : DCode) (x : Desc) : (s.setD n x).core.buf = s.core.buf := rfl
@[simp] theorem setD_core_icache (s : State) (n : DCode) (x : Desc) : (s.setD n x).core.icache = s.core.icache := rfl
@[simp] theorem setD_core_vcache (s : State) (n : DCode) (x : Desc) : (s.setD n x).core.vcache = s.core.vcache := rfl
@[simp] theorem setD_core_l1tlb (s : State) (n : DCode) (x : Desc) : (s.setD n x).core.l1tlb = s.core.l1tlb := rfl
@[simp] theorem setD_core_tlbi (s : State) (n : DCode) (x : Desc) : (s.setD n x).core.tlbi = s.core.tlbi := rfl
@[simp] theorem setD_core_rfFrom (s : State) (n : DCode) (x : Desc) : (s.setD n x).core.rfFrom = s.core.rfFrom := rfl
@[simp] theorem setD_core_rfUntil (s : State) (n : DCode) (x : Desc) : (s.setD n x).core.rfUntil = s.core.rfUntil := rfl
@[simp] theorem setD_core_health (s : State) (n : DCode) (x : Desc) : (s.setD n x).core.health = s.core.health := rfl
@[simp] theorem setD_core_epend (s : State) (n : DCode) (x : Desc) : (s.setD n x).core.epend = s.core.epend := rfl
@[simp] theorem setD_core_reserved (s : State) (n : DCode) (x : Desc) : (s.setD n x).core.reserved = s.core.reserved := rfl
@[simp] theorem setD_core_resetAt (s : State) (n : DCode) (x : Desc) : (s.setD n x).core.resetAt = s.core.resetAt := rfl
@[simp] theorem setD_core_csince (s : State) (n : DCode) (x : Desc) : (s.setD n x).core.csince = s.core.csince := rfl
@[simp] theorem setD_core_hold (s : State) (n : DCode) (x : Desc) : (s.setD n x).core.hold = s.core.hold := rfl
@[simp] theorem setD_core_ckpt (s : State) (n : DCode) (x : Desc) : (s.setD n x).core.ckpt = s.core.ckpt := rfl
@[simp] theorem setD_others (s : State) (n : DCode) (x : Desc) : (s.setD n x).others = s.others := rfl
@[simp] theorem setD_ctxs (s : State) (n : DCode) (x : Desc) : (s.setD n x).ctxs = s.ctxs := rfl
@[simp] theorem setD_mem (s : State) (n : DCode) (x : Desc) : (s.setD n x).mem = s.mem := rfl
@[simp] theorem setD_sched (s : State) (n : DCode) (x : Desc) : (s.setD n x).sched = s.sched := rfl
@[simp] theorem setD_host (s : State) (n : DCode) (x : Desc) : (s.setD n x).host = s.host := rfl
@[simp] theorem setD_plat (s : State) (n : DCode) (x : Desc) : (s.setD n x).plat = s.plat := rfl
@[simp] theorem setD_flash (s : State) (n : DCode) (x : Desc) : (s.setD n x).flash = s.flash := rfl
@[simp] theorem setD_ports (s : State) (n : DCode) (x : Desc) : (s.setD n x).ports = s.ports := rfl
@[simp] theorem setD_colls (s : State) (n : DCode) (x : Desc) : (s.setD n x).colls = s.colls := rfl
@[simp] theorem setD_nextColl (s : State) (n : DCode) (x : Desc) : (s.setD n x).nextColl = s.nextColl := rfl
@[simp] theorem setD_images (s : State) (n : DCode) (x : Desc) : (s.setD n x).images = s.images := rfl
@[simp] theorem setD_nextImage (s : State) (n : DCode) (x : Desc) : (s.setD n x).nextImage = s.nextImage := rfl
@[simp] theorem setD_now (s : State) (n : DCode) (x : Desc) : (s.setD n x).now = s.now := rfl
@[simp] theorem setD_fresh (s : State) (n : DCode) (x : Desc) : (s.setD n x).fresh = s.fresh := rfl
@[simp] theorem setD_turn (s : State) (n : DCode) (x : Desc) : (s.setD n x).turn = s.turn := rfl
@[simp] theorem setD_agenda (s : State) (n : DCode) (x : Desc) : (s.setD n x).agenda = s.agenda := rfl
@[simp] theorem setD_powered (s : State) (n : DCode) (x : Desc) : (s.setD n x).powered = s.powered := rfl

@[simp] theorem setV_core_phys (s : State) (n : BitVec 6) (x : VReg) : (s.setV n x).core.phys = s.core.phys := rfl
@[simp] theorem setV_core_running (s : State) (n : BitVec 6) (x : VReg) : (s.setV n x).core.running = s.core.running := rfl
@[simp] theorem setV_core_waiting (s : State) (n : BitVec 6) (x : VReg) : (s.setV n x).core.waiting = s.core.waiting := rfl
@[simp] theorem setV_core_stopped (s : State) (n : BitVec 6) (x : VReg) : (s.setV n x).core.stopped = s.core.stopped := rfl
@[simp] theorem setV_core_entry (s : State) (n : BitVec 6) (x : VReg) : (s.setV n x).core.entry = s.core.entry := rfl
@[simp] theorem setV_core_lineKind (s : State) (n : BitVec 6) (x : VReg) : (s.setV n x).core.lineKind = s.core.lineKind := rfl
@[simp] theorem setV_task (s : State) (n : BitVec 6) (x : VReg) : (s.setV n x).core.t = { s.core.t with regs := { s.core.t.regs with v := s.core.t.regs.v.set n.toNat x } } := rfl
@[simp] theorem setV_core_buf (s : State) (n : BitVec 6) (x : VReg) : (s.setV n x).core.buf = s.core.buf := rfl
@[simp] theorem setV_core_icache (s : State) (n : BitVec 6) (x : VReg) : (s.setV n x).core.icache = s.core.icache := rfl
@[simp] theorem setV_core_vcache (s : State) (n : BitVec 6) (x : VReg) : (s.setV n x).core.vcache = s.core.vcache := rfl
@[simp] theorem setV_core_l1tlb (s : State) (n : BitVec 6) (x : VReg) : (s.setV n x).core.l1tlb = s.core.l1tlb := rfl
@[simp] theorem setV_core_tlbi (s : State) (n : BitVec 6) (x : VReg) : (s.setV n x).core.tlbi = s.core.tlbi := rfl
@[simp] theorem setV_core_rfFrom (s : State) (n : BitVec 6) (x : VReg) : (s.setV n x).core.rfFrom = s.core.rfFrom := rfl
@[simp] theorem setV_core_rfUntil (s : State) (n : BitVec 6) (x : VReg) : (s.setV n x).core.rfUntil = s.core.rfUntil := rfl
@[simp] theorem setV_core_health (s : State) (n : BitVec 6) (x : VReg) : (s.setV n x).core.health = s.core.health := rfl
@[simp] theorem setV_core_epend (s : State) (n : BitVec 6) (x : VReg) : (s.setV n x).core.epend = s.core.epend := rfl
@[simp] theorem setV_core_reserved (s : State) (n : BitVec 6) (x : VReg) : (s.setV n x).core.reserved = s.core.reserved := rfl
@[simp] theorem setV_core_resetAt (s : State) (n : BitVec 6) (x : VReg) : (s.setV n x).core.resetAt = s.core.resetAt := rfl
@[simp] theorem setV_core_csince (s : State) (n : BitVec 6) (x : VReg) : (s.setV n x).core.csince = s.core.csince := rfl
@[simp] theorem setV_core_hold (s : State) (n : BitVec 6) (x : VReg) : (s.setV n x).core.hold = s.core.hold := rfl
@[simp] theorem setV_core_ckpt (s : State) (n : BitVec 6) (x : VReg) : (s.setV n x).core.ckpt = s.core.ckpt := rfl
@[simp] theorem setV_others (s : State) (n : BitVec 6) (x : VReg) : (s.setV n x).others = s.others := rfl
@[simp] theorem setV_ctxs (s : State) (n : BitVec 6) (x : VReg) : (s.setV n x).ctxs = s.ctxs := rfl
@[simp] theorem setV_mem (s : State) (n : BitVec 6) (x : VReg) : (s.setV n x).mem = s.mem := rfl
@[simp] theorem setV_sched (s : State) (n : BitVec 6) (x : VReg) : (s.setV n x).sched = s.sched := rfl
@[simp] theorem setV_host (s : State) (n : BitVec 6) (x : VReg) : (s.setV n x).host = s.host := rfl
@[simp] theorem setV_plat (s : State) (n : BitVec 6) (x : VReg) : (s.setV n x).plat = s.plat := rfl
@[simp] theorem setV_flash (s : State) (n : BitVec 6) (x : VReg) : (s.setV n x).flash = s.flash := rfl
@[simp] theorem setV_ports (s : State) (n : BitVec 6) (x : VReg) : (s.setV n x).ports = s.ports := rfl
@[simp] theorem setV_colls (s : State) (n : BitVec 6) (x : VReg) : (s.setV n x).colls = s.colls := rfl
@[simp] theorem setV_nextColl (s : State) (n : BitVec 6) (x : VReg) : (s.setV n x).nextColl = s.nextColl := rfl
@[simp] theorem setV_images (s : State) (n : BitVec 6) (x : VReg) : (s.setV n x).images = s.images := rfl
@[simp] theorem setV_nextImage (s : State) (n : BitVec 6) (x : VReg) : (s.setV n x).nextImage = s.nextImage := rfl
@[simp] theorem setV_now (s : State) (n : BitVec 6) (x : VReg) : (s.setV n x).now = s.now := rfl
@[simp] theorem setV_fresh (s : State) (n : BitVec 6) (x : VReg) : (s.setV n x).fresh = s.fresh := rfl
@[simp] theorem setV_turn (s : State) (n : BitVec 6) (x : VReg) : (s.setV n x).turn = s.turn := rfl
@[simp] theorem setV_agenda (s : State) (n : BitVec 6) (x : VReg) : (s.setV n x).agenda = s.agenda := rfl
@[simp] theorem setV_powered (s : State) (n : BitVec 6) (x : VReg) : (s.setV n x).powered = s.powered := rfl

@[simp] theorem orFlags_core_phys (s : State) (g : FGroup) (f : FFlags) : (s.orFlags g f).core.phys = s.core.phys := rfl
@[simp] theorem orFlags_core_running (s : State) (g : FGroup) (f : FFlags) : (s.orFlags g f).core.running = s.core.running := rfl
@[simp] theorem orFlags_core_waiting (s : State) (g : FGroup) (f : FFlags) : (s.orFlags g f).core.waiting = s.core.waiting := rfl
@[simp] theorem orFlags_core_stopped (s : State) (g : FGroup) (f : FFlags) : (s.orFlags g f).core.stopped = s.core.stopped := rfl
@[simp] theorem orFlags_core_entry (s : State) (g : FGroup) (f : FFlags) : (s.orFlags g f).core.entry = s.core.entry := rfl
@[simp] theorem orFlags_core_lineKind (s : State) (g : FGroup) (f : FFlags) : (s.orFlags g f).core.lineKind = s.core.lineKind := rfl
@[simp] theorem orFlags_task (s : State) (g : FGroup) (f : FFlags) : (s.orFlags g f).core.t = { s.core.t with sys := { s.core.t.sys with fpst := s.core.t.sys.fpst ||| ((f.setWidth 64) <<< g.pos) } } := rfl
@[simp] theorem orFlags_core_buf (s : State) (g : FGroup) (f : FFlags) : (s.orFlags g f).core.buf = s.core.buf := rfl
@[simp] theorem orFlags_core_icache (s : State) (g : FGroup) (f : FFlags) : (s.orFlags g f).core.icache = s.core.icache := rfl
@[simp] theorem orFlags_core_vcache (s : State) (g : FGroup) (f : FFlags) : (s.orFlags g f).core.vcache = s.core.vcache := rfl
@[simp] theorem orFlags_core_l1tlb (s : State) (g : FGroup) (f : FFlags) : (s.orFlags g f).core.l1tlb = s.core.l1tlb := rfl
@[simp] theorem orFlags_core_tlbi (s : State) (g : FGroup) (f : FFlags) : (s.orFlags g f).core.tlbi = s.core.tlbi := rfl
@[simp] theorem orFlags_core_rfFrom (s : State) (g : FGroup) (f : FFlags) : (s.orFlags g f).core.rfFrom = s.core.rfFrom := rfl
@[simp] theorem orFlags_core_rfUntil (s : State) (g : FGroup) (f : FFlags) : (s.orFlags g f).core.rfUntil = s.core.rfUntil := rfl
@[simp] theorem orFlags_core_health (s : State) (g : FGroup) (f : FFlags) : (s.orFlags g f).core.health = s.core.health := rfl
@[simp] theorem orFlags_core_epend (s : State) (g : FGroup) (f : FFlags) : (s.orFlags g f).core.epend = s.core.epend := rfl
@[simp] theorem orFlags_core_reserved (s : State) (g : FGroup) (f : FFlags) : (s.orFlags g f).core.reserved = s.core.reserved := rfl
@[simp] theorem orFlags_core_resetAt (s : State) (g : FGroup) (f : FFlags) : (s.orFlags g f).core.resetAt = s.core.resetAt := rfl
@[simp] theorem orFlags_core_csince (s : State) (g : FGroup) (f : FFlags) : (s.orFlags g f).core.csince = s.core.csince := rfl
@[simp] theorem orFlags_core_hold (s : State) (g : FGroup) (f : FFlags) : (s.orFlags g f).core.hold = s.core.hold := rfl
@[simp] theorem orFlags_core_ckpt (s : State) (g : FGroup) (f : FFlags) : (s.orFlags g f).core.ckpt = s.core.ckpt := rfl
@[simp] theorem orFlags_others (s : State) (g : FGroup) (f : FFlags) : (s.orFlags g f).others = s.others := rfl
@[simp] theorem orFlags_ctxs (s : State) (g : FGroup) (f : FFlags) : (s.orFlags g f).ctxs = s.ctxs := rfl
@[simp] theorem orFlags_mem (s : State) (g : FGroup) (f : FFlags) : (s.orFlags g f).mem = s.mem := rfl
@[simp] theorem orFlags_sched (s : State) (g : FGroup) (f : FFlags) : (s.orFlags g f).sched = s.sched := rfl
@[simp] theorem orFlags_host (s : State) (g : FGroup) (f : FFlags) : (s.orFlags g f).host = s.host := rfl
@[simp] theorem orFlags_plat (s : State) (g : FGroup) (f : FFlags) : (s.orFlags g f).plat = s.plat := rfl
@[simp] theorem orFlags_flash (s : State) (g : FGroup) (f : FFlags) : (s.orFlags g f).flash = s.flash := rfl
@[simp] theorem orFlags_ports (s : State) (g : FGroup) (f : FFlags) : (s.orFlags g f).ports = s.ports := rfl
@[simp] theorem orFlags_colls (s : State) (g : FGroup) (f : FFlags) : (s.orFlags g f).colls = s.colls := rfl
@[simp] theorem orFlags_nextColl (s : State) (g : FGroup) (f : FFlags) : (s.orFlags g f).nextColl = s.nextColl := rfl
@[simp] theorem orFlags_images (s : State) (g : FGroup) (f : FFlags) : (s.orFlags g f).images = s.images := rfl
@[simp] theorem orFlags_nextImage (s : State) (g : FGroup) (f : FFlags) : (s.orFlags g f).nextImage = s.nextImage := rfl
@[simp] theorem orFlags_now (s : State) (g : FGroup) (f : FFlags) : (s.orFlags g f).now = s.now := rfl
@[simp] theorem orFlags_fresh (s : State) (g : FGroup) (f : FFlags) : (s.orFlags g f).fresh = s.fresh := rfl
@[simp] theorem orFlags_turn (s : State) (g : FGroup) (f : FFlags) : (s.orFlags g f).turn = s.turn := rfl
@[simp] theorem orFlags_agenda (s : State) (g : FGroup) (f : FFlags) : (s.orFlags g f).agenda = s.agenda := rfl
@[simp] theorem orFlags_powered (s : State) (g : FGroup) (f : FFlags) : (s.orFlags g f).powered = s.powered := rfl

@[simp] theorem advance_core_phys (s : State) (n : Nat) : (s.advance n).core.phys = s.core.phys := rfl
@[simp] theorem advance_core_running (s : State) (n : Nat) : (s.advance n).core.running = s.core.running := rfl
@[simp] theorem advance_core_waiting (s : State) (n : Nat) : (s.advance n).core.waiting = false := rfl
@[simp] theorem advance_core_stopped (s : State) (n : Nat) : (s.advance n).core.stopped = s.core.stopped := rfl
@[simp] theorem advance_core_entry (s : State) (n : Nat) : (s.advance n).core.entry = decide (16 ≤ granuleOf s.core.t.pc + n) := rfl
@[simp] theorem advance_core_lineKind (s : State) (n : Nat) : (s.advance n).core.lineKind = s.core.lineKind := rfl
@[simp] theorem advance_task (s : State) (n : Nat) : (s.advance n).core.t = { s.core.t with pc := nextPc s.core.t.pc n, blk := s.core.t.blk.map Block.next } := rfl
@[simp] theorem advance_core_buf (s : State) (n : Nat) : (s.advance n).core.buf = s.core.buf := rfl
@[simp] theorem advance_core_icache (s : State) (n : Nat) : (s.advance n).core.icache = s.core.icache := rfl
@[simp] theorem advance_core_vcache (s : State) (n : Nat) : (s.advance n).core.vcache = s.core.vcache := rfl
@[simp] theorem advance_core_l1tlb (s : State) (n : Nat) : (s.advance n).core.l1tlb = s.core.l1tlb := rfl
@[simp] theorem advance_core_tlbi (s : State) (n : Nat) : (s.advance n).core.tlbi = s.core.tlbi := rfl
@[simp] theorem advance_core_rfFrom (s : State) (n : Nat) : (s.advance n).core.rfFrom = s.core.rfFrom := rfl
@[simp] theorem advance_core_rfUntil (s : State) (n : Nat) : (s.advance n).core.rfUntil = s.core.rfUntil := rfl
@[simp] theorem advance_core_health (s : State) (n : Nat) : (s.advance n).core.health = s.core.health := rfl
@[simp] theorem advance_core_epend (s : State) (n : Nat) : (s.advance n).core.epend = s.core.epend := rfl
@[simp] theorem advance_core_reserved (s : State) (n : Nat) : (s.advance n).core.reserved = s.core.reserved := rfl
@[simp] theorem advance_core_resetAt (s : State) (n : Nat) : (s.advance n).core.resetAt = s.core.resetAt := rfl
@[simp] theorem advance_core_csince (s : State) (n : Nat) : (s.advance n).core.csince = s.core.csince := rfl
@[simp] theorem advance_core_hold (s : State) (n : Nat) : (s.advance n).core.hold = s.core.hold := rfl
@[simp] theorem advance_core_ckpt (s : State) (n : Nat) : (s.advance n).core.ckpt = s.core.ckpt := rfl
@[simp] theorem advance_others (s : State) (n : Nat) : (s.advance n).others = s.others := rfl
@[simp] theorem advance_ctxs (s : State) (n : Nat) : (s.advance n).ctxs = s.ctxs := rfl
@[simp] theorem advance_mem (s : State) (n : Nat) : (s.advance n).mem = s.mem := rfl
@[simp] theorem advance_sched (s : State) (n : Nat) : (s.advance n).sched = s.sched := rfl
@[simp] theorem advance_host (s : State) (n : Nat) : (s.advance n).host = s.host := rfl
@[simp] theorem advance_plat (s : State) (n : Nat) : (s.advance n).plat = s.plat := rfl
@[simp] theorem advance_flash (s : State) (n : Nat) : (s.advance n).flash = s.flash := rfl
@[simp] theorem advance_ports (s : State) (n : Nat) : (s.advance n).ports = s.ports := rfl
@[simp] theorem advance_colls (s : State) (n : Nat) : (s.advance n).colls = s.colls := rfl
@[simp] theorem advance_nextColl (s : State) (n : Nat) : (s.advance n).nextColl = s.nextColl := rfl
@[simp] theorem advance_images (s : State) (n : Nat) : (s.advance n).images = s.images := rfl
@[simp] theorem advance_nextImage (s : State) (n : Nat) : (s.advance n).nextImage = s.nextImage := rfl
@[simp] theorem advance_now (s : State) (n : Nat) : (s.advance n).now = s.now := rfl
@[simp] theorem advance_fresh (s : State) (n : Nat) : (s.advance n).fresh = s.fresh := rfl
@[simp] theorem advance_turn (s : State) (n : Nat) : (s.advance n).turn = s.turn := rfl
@[simp] theorem advance_agenda (s : State) (n : Nat) : (s.advance n).agenda = s.agenda := rfl
@[simp] theorem advance_powered (s : State) (n : Nat) : (s.advance n).powered = s.powered := rfl

@[simp] theorem jump_core_phys (s : State) (t : Word) : (s.jump t).core.phys = s.core.phys := rfl
@[simp] theorem jump_core_running (s : State) (t : Word) : (s.jump t).core.running = s.core.running := rfl
@[simp] theorem jump_core_waiting (s : State) (t : Word) : (s.jump t).core.waiting = false := rfl
@[simp] theorem jump_core_stopped (s : State) (t : Word) : (s.jump t).core.stopped = s.core.stopped := rfl
@[simp] theorem jump_core_entry (s : State) (t : Word) : (s.jump t).core.entry = true := rfl
@[simp] theorem jump_core_lineKind (s : State) (t : Word) : (s.jump t).core.lineKind = s.core.lineKind := rfl
@[simp] theorem jump_task (s : State) (t : Word) : (s.jump t).core.t = { s.core.t with pc := t } := rfl
@[simp] theorem jump_core_buf (s : State) (t : Word) : (s.jump t).core.buf = s.core.buf := rfl
@[simp] theorem jump_core_icache (s : State) (t : Word) : (s.jump t).core.icache = s.core.icache := rfl
@[simp] theorem jump_core_vcache (s : State) (t : Word) : (s.jump t).core.vcache = s.core.vcache := rfl
@[simp] theorem jump_core_l1tlb (s : State) (t : Word) : (s.jump t).core.l1tlb = s.core.l1tlb := rfl
@[simp] theorem jump_core_tlbi (s : State) (t : Word) : (s.jump t).core.tlbi = s.core.tlbi := rfl
@[simp] theorem jump_core_rfFrom (s : State) (t : Word) : (s.jump t).core.rfFrom = s.core.rfFrom := rfl
@[simp] theorem jump_core_rfUntil (s : State) (t : Word) : (s.jump t).core.rfUntil = s.core.rfUntil := rfl
@[simp] theorem jump_core_health (s : State) (t : Word) : (s.jump t).core.health = s.core.health := rfl
@[simp] theorem jump_core_epend (s : State) (t : Word) : (s.jump t).core.epend = s.core.epend := rfl
@[simp] theorem jump_core_reserved (s : State) (t : Word) : (s.jump t).core.reserved = s.core.reserved := rfl
@[simp] theorem jump_core_resetAt (s : State) (t : Word) : (s.jump t).core.resetAt = s.core.resetAt := rfl
@[simp] theorem jump_core_csince (s : State) (t : Word) : (s.jump t).core.csince = s.core.csince := rfl
@[simp] theorem jump_core_hold (s : State) (t : Word) : (s.jump t).core.hold = s.core.hold := rfl
@[simp] theorem jump_core_ckpt (s : State) (t : Word) : (s.jump t).core.ckpt = s.core.ckpt := rfl
@[simp] theorem jump_others (s : State) (t : Word) : (s.jump t).others = s.others := rfl
@[simp] theorem jump_ctxs (s : State) (t : Word) : (s.jump t).ctxs = s.ctxs := rfl
@[simp] theorem jump_mem (s : State) (t : Word) : (s.jump t).mem = s.mem := rfl
@[simp] theorem jump_sched (s : State) (t : Word) : (s.jump t).sched = s.sched := rfl
@[simp] theorem jump_host (s : State) (t : Word) : (s.jump t).host = s.host := rfl
@[simp] theorem jump_plat (s : State) (t : Word) : (s.jump t).plat = s.plat := rfl
@[simp] theorem jump_flash (s : State) (t : Word) : (s.jump t).flash = s.flash := rfl
@[simp] theorem jump_ports (s : State) (t : Word) : (s.jump t).ports = s.ports := rfl
@[simp] theorem jump_colls (s : State) (t : Word) : (s.jump t).colls = s.colls := rfl
@[simp] theorem jump_nextColl (s : State) (t : Word) : (s.jump t).nextColl = s.nextColl := rfl
@[simp] theorem jump_images (s : State) (t : Word) : (s.jump t).images = s.images := rfl
@[simp] theorem jump_nextImage (s : State) (t : Word) : (s.jump t).nextImage = s.nextImage := rfl
@[simp] theorem jump_now (s : State) (t : Word) : (s.jump t).now = s.now := rfl
@[simp] theorem jump_fresh (s : State) (t : Word) : (s.jump t).fresh = s.fresh := rfl
@[simp] theorem jump_turn (s : State) (t : Word) : (s.jump t).turn = s.turn := rfl
@[simp] theorem jump_agenda (s : State) (t : Word) : (s.jump t).agenda = s.agenda := rfl
@[simp] theorem jump_powered (s : State) (t : Word) : (s.jump t).powered = s.powered := rfl

/-! ### Scalar registers (R39, R94) -/

/-- s0 reads zero. -/
@[simp] theorem S_zero (s : State) : s.S 0 = 0 := rfl

/-- A register reads what was written to it; s0 discards the write. -/
theorem S_setS_same (s : State) (n : Reg) (x : Word) : (s.setS n x).S n = if n = 0 then 0 else x := by
  by_cases h : n = 0
  · simp [State.S, Regs.rdS, h]
  · simp only [State.S, setS_task, Regs.rdS, Regs.wrS, if_neg h]
    exact Vector.getElem_set_self _

/-- A write leaves every other register as it was. -/
theorem S_setS_other (s : State) {n m : Reg} (x : Word) (h : m ≠ n) : (s.setS n x).S m = s.S m := by
  by_cases h0 : n = 0
  · simp [State.S, Regs.rdS, Regs.wrS, h0]
  · have : n.toNat ≠ m.toNat := fun e => h (BitVec.eq_of_toNat_eq e.symm)
    by_cases hm : m = 0
    · simp [State.S, Regs.rdS, hm]
    · simp only [State.S, setS_task, Regs.rdS, Regs.wrS, if_neg h0, if_neg hm]
      exact Vector.getElem_set_ne _ _ this

/-- The PC's advance changes no register. -/
@[simp] theorem S_advance (s : State) (n : Nat) (r : Reg) : (s.advance n).S r = s.S r := rfl
@[simp] theorem S_jump (s : State) (t : Word) (r : Reg) : (s.jump t).S r = s.S r := rfl

/-- A descriptor register reads what was written to it. -/
theorem D_setD_same (s : State) (n : DCode) (x : Desc) : (s.setD n x).D n = x := by simp [State.D]

/-- A write leaves every other descriptor register as it was. -/
theorem D_setD_other (s : State) {n m : DCode} (x : Desc) (h : m ≠ n) : (s.setD n x).D m = s.D m := by
  have : n.toNat ≠ m.toNat := fun e => h (BitVec.eq_of_toNat_eq e.symm)
  simp [State.D, this]

end Sys2Proof.Machine
end

