-- ==== Sys2Proof/Laws/Ops.lean ====
section
/-! SUPPORT. What each shared operation can do, said once: the language of meanings, how a meaning becomes an outcome, the trap entry, and the frame
of the scalar updates. -/

namespace Sys2Proof.Machine

/-! ### The language -/

/-- A computation that goes on after another. -/
theorem bind_ok {α β : Type} {m : M α} {f : α → M β} {s s' : State} {a : α} (h : m s = .ok (a, s')) : (m >>= f) s = f a s' := by
  simp [bind, StateT.bind, Except.bind, h]

/-- A computation that stops, stops what follows it. -/
theorem bind_error {α β : Type} {m : M α} {f : α → M β} {s : State} {e : Stop × State} (h : m s = .error e) : (m >>= f) s = .error e := by
  simp [bind, StateT.bind, Except.bind, h]

@[simp] theorem pure_run {α : Type} (a : α) (s : State) : (pure a : M α) s = .ok (a, s) := rfl
@[simp] theorem upd_run (f : State → State) (s : State) : upd f s = .ok ((), f s) := rfl
@[simp] theorem now_run (s : State) : now s = .ok (s, s) := rfl
@[simp] theorem raise_run {α : Type} (f : FaultInfo) (s : State) : (raise f : M α) s = .error (.fault f, s) := rfl
@[simp] theorem raiseLate_run {α : Type} (f : FaultInfo) (g : State → State) (s : State) :
    (raiseLate f g : M α) s = .error (.late f, g s) := rfl
@[simp] theorem wait_run {α : Type} (s : State) : (wait : M α) s = .error (.wait, s) := rfl
@[simp] theorem stay_run {α : Type} (f : State → State) (s : State) : (stay f : M α) s = .error (.stay, f s) := rfl
@[simp] theorem failIf_false (f : FaultInfo) (s : State) : failIf false f s = .ok ((), s) := rfl
@[simp] theorem failIf_true (f : FaultInfo) (s : State) : failIf true f s = .error (.fault f, s) := rfl
@[simp] theorem wrS_run (n : Reg) (x : Word) (s : State) : wrS n x s = .ok ((), s.setS n x) := rfl

/-- Reading a clean register answers its value. -/
theorem rdS_ok {s : State} {n : Reg} (h : s.core.t.regs.poisS n = false) : rdS n s = .ok (s.S n, s) := by simp [rdS, h]

/-- Reading a poisoned register raises POISON (R94). -/
theorem rdS_poison {s : State} {n : Reg} (h : s.core.t.regs.poisS n = true) : rdS n s = .error (.fault (.cc cPOISON), s) := by
  simp [rdS, h]

/-- Reading a clean descriptor register answers its value. -/
theorem rdD_ok {s : State} {n : DCode} (h : s.core.t.regs.dpois.getLsbD n.toNat = false) : rdD n s = .ok (s.D n, s) := by simp [rdD, h]

/-- A list of registers that are clean is captured as their values. -/
theorem captureRegs_ok {s : State} (l : List Reg) (h : s.cleanS l) : captureRegs l s = .ok (l.map s.S, s) := by
  induction l with
  | nil => rfl
  | cons r l ih =>
    rw [captureRegs, bind_ok (rdS_ok (h r (by simp)))]
    rw [bind_ok (ih fun x hx => h x (List.mem_cons_of_mem _ hx))]
    rfl

/-- A list of descriptor registers that are clean is captured as their values. -/
theorem captureDescs_ok {s : State} (l : List DCode) (h : s.cleanD l) : captureDescs l s = .ok (l.map s.D, s) := by
  induction l with
  | nil => rfl
  | cons r l ih =>
    rw [captureDescs, bind_ok (rdD_ok (h r (by simp)))]
    rw [bind_ok (ih fun x hx => h x (List.mem_cons_of_mem _ hx))]
    rfl

/-! ### Outcomes -/

/-- Five outcomes of a meaning. -/
theorem runM_ok {s s' : State} {m : M Unit} (h : m s = .ok ((), s')) : runM s m = .next s' := by simp [runM, h]
theorem runM_fault {s s' : State} {m : M Unit} {f : FaultInfo} (h : m s = .error (.fault f, s')) :
    runM s m = .next (takeTrap f s.core.t.pc (keepFills s s')) := by simp [runM, h]
theorem runM_late {s s' : State} {m : M Unit} {f : FaultInfo} (h : m s = .error (.late f, s')) :
    runM s m = .next (takeTrap f s'.core.t.pc s') := by simp [runM, h]
theorem runM_wait {s s' : State} {m : M Unit} (h : m s = .error (.wait, s')) :
    runM s m = .next ((keepFills s s').modC fun c => { c with waiting := true }) := by simp [runM, h]
theorem runM_stay {s s' : State} {m : M Unit} (h : m s = .error (.stay, s')) : runM s m = .next s' := by simp [runM, h]

/-- A control-core instruction outside a block, at the privilege it needs, is not forbidden. -/
theorem forbidden_none {s : State} {priv : Bool} (hb : s.noBlock) (hp : priv = true → s.core.t.prv = true) : forbidden s priv = none := by
  have h1 : (priv && !s.core.t.prv) = false := by cases priv <;> simp_all
  have h2 : s.core.t.blk.isSome = false := by simp [show s.core.t.blk = none from hb]
  simp [forbidden, h1, h2]

/-- It is its body. -/
theorem cc_body {s : State} {priv : Bool} (m : M Unit) (hb : s.noBlock) (hp : priv = true → s.core.t.prv = true) :
    cc s priv m = runM s m := by
  have : unlessLower none m = m := rfl
  rw [cc, forbidden_none hb hp, this]

/-- One that completes. -/
theorem cc_ok {s s' : State} {priv : Bool} {m : M Unit} (hb : s.noBlock) (hp : priv = true → s.core.t.prv = true)
    (h : m s = .ok ((), s')) : cc s priv m = .next s' := by rw [cc_body m hb hp, runM_ok h]

/-- One that completes and moves on. -/
theorem ccNext_ok {s s' : State} {priv : Bool} {m : M Unit} (hb : s.noBlock) (hp : priv = true → s.core.t.prv = true)
    (h : m s = .ok ((), s')) : ccNext s priv m = .next (s'.advance 1) := by
  rw [ccNext, cc_body _ hb hp]
  exact runM_ok (by rw [bind_ok h]; rfl)

/-- Keeping nothing keeps the state. -/
@[simp] theorem keepFills_self (s : State) : keepFills s s = s := rfl

/-- A forbidden one reports the code that forbids it and has no other effect, where its body meets no fault of a lower code (R12, R37, R146, R291). -/
theorem cc_forbidden {s : State} {priv : Bool} {m : M Unit} {c : BitVec 8} (hf : forbidden s priv = some c)
    (hm : ∀ f s', m s = .error (.fault f, s') ∨ m s = .error (.late f, s') → c.toNat ≤ f.code.toNat) :
    cc s priv m = .next (takeTrap (.cc c) s.core.t.pc s) := by
  rw [cc, hf, runM_fault (f := .cc c) (s' := s), keepFills_self]
  unfold unlessLower
  simp only
  split
  · rename_i f s' h
    exact if_neg (by have := hm f s' (.inl h); omega)
  · rename_i f s' h
    exact if_neg (by have := hm f s' (.inr h); omega)
  · rfl

/-- At task level a privileged instruction is forbidden with PRIV; else, inside a block, with BLKOP. -/
theorem forbidden_priv {s : State} (h : s.core.t.prv = false) : forbidden s true = some cPRIV := by simp [forbidden, h]
theorem forbidden_block {s : State} {priv : Bool} (hp : priv = true → s.core.t.prv = true) (h : s.core.t.blk.isSome = true) :
    forbidden s priv = some cBLKOP := by
  have h1 : (priv && !s.core.t.prv) = false := by cases priv <;> simp_all
  simp [forbidden, h1, h]

/-! ### The trap entry (R369) -/

/-- In a handler, a fault stops the core for a halt. -/
theorem takeTrap_double {f : FaultInfo} {pc : Word} {s : State} (h : s.core.t.sys.inTrap = true) : takeTrap f pc s = s.askHalt true false := by
  simp [takeTrap, h]

/-- With no copy under way the halt is immediate. -/
theorem askHalt_now {s : State} {a b : Bool} (h : s.core.copying = false) : s.askHalt a b = s.halt a b := by
  simp [State.askHalt, h]

/-! ### Frames -/

/-- A write to s0 is discarded (R39). -/
theorem wrS_zero (r : Regs) (x : Word) : r.wrS 0 x = r := rfl

/-- A write to another register sets it and clears its poison (R39, R94). -/
theorem wrS_ne (r : Regs) {n : Reg} (x : Word) (h : n ≠ 0) :
    r.wrS n x = { r with s := r.s.set n.toNat x, spois := r.spois &&& ~~~(1#64 <<< n.toNat) } := if_neg h

/-- A register that has been written is clean. -/
theorem poisS_wrS_same (r : Regs) (n : Reg) (x : Word) : (r.wrS n x).poisS n = false := by
  by_cases h : n = 0
  · subst h; rfl
  · rw [wrS_ne r x h, Regs.poisS]
    simp

/-- A write leaves the poison of every other register. -/
theorem poisS_wrS_other (r : Regs) {n m : Reg} (x : Word) (hm : m ≠ n) : (r.wrS n x).poisS m = r.poisS m := by
  by_cases h : n = 0
  · subst h; rfl
  · have hn : ¬ m.toNat = n.toNat := fun e => hm (BitVec.eq_of_toNat_eq e)
    have hlt : m.toNat < 64 := m.isLt
    rw [wrS_ne r x h, Regs.poisS, Regs.poisS]
    simp only [BitVec.getLsbD_and, BitVec.getLsbD_not, BitVec.getLsbD_shiftLeft]
    by_cases hl : m.toNat < n.toNat
    · simp [hl, hlt]
    · have h1 : ¬ m.toNat - n.toNat = 0 := by omega
      simp [hl, hlt, h1]

/-- What an instruction that writes one register and moves on leaves. -/
theorem wrote_setS (s : State) (rd : Reg) (v : Word) (n : Nat) : Wrote s ((s.setS rd v).advance n) rd v n := by
  refine ⟨by rw [S_advance, S_setS_same], poisS_wrS_same _ _ _, rfl, ?_, ?_, ?_⟩
  · intro r hr
    have hne : r ≠ rd := by simpa using hr
    exact ⟨by rw [S_advance, S_setS_other s v hne], poisS_wrS_other _ v hne⟩
  · exact fun a => ⟨rfl, rfl⟩
  · by_cases h : rd = 0
    · subst h; rfl
    · show _ = _
      simp only [State.advance, State.setS, State.modR, State.modT, State.modC, wrS_ne _ v h]

end Sys2Proof.Machine
end

