-- ==== Sys2Proof/Laws/Sparse.lean ====
section
/-! SUPPORT. The maps of Machine/Sparse.lean: every write keeps the canonical form, a read after a write answers what was written, and a
write leaves every other key alone; the same of bytes at their homes. -/

namespace Sys2Proof.Machine

/-- Keys strictly rising, as a relation between any two entries. -/
theorem Sparse.rising_iff {α : Type} (m : Sparse α) : Sparse.rising m = true ↔ m.Pairwise (fun p q => p.1 < q.1) := by
  induction m with
  | nil => simp [Sparse.rising]
  | cons p m ih =>
    obtain ⟨k, v⟩ := p
    cases m with
    | nil => simp [Sparse.rising]
    | cons q r =>
      obtain ⟨l, w⟩ := q
      rw [Sparse.rising, Bool.and_eq_true, ih, decide_eq_true_iff, List.pairwise_cons (l := (l, w) :: r)]
      constructor
      · rintro ⟨h, hp⟩
        refine ⟨?_, hp⟩
        intro x hx
        rcases List.mem_cons.mp hx with rfl | hx
        · exact h
        · exact Nat.lt_trans h ((List.pairwise_cons.mp hp).1 x hx)
      · rintro ⟨h, hp⟩
        exact ⟨h (l, w) (by simp), hp⟩

/-- The canonical form, spelled out. -/
theorem Sparse.wf_iff {α : Type} [DecidableEq α] (d : α) (m : Sparse α) :
    Sparse.wf d m = true ↔ m.Pairwise (fun p q => p.1 < q.1) ∧ ∀ p ∈ m, p.2 ≠ d := by
  rw [Sparse.wf, Bool.and_eq_true, Sparse.rising_iff, List.all_eq_true]
  simp

/-- The entries after an insertion are the new one and old ones. -/
theorem Sparse.mem_ins {α : Type} {m : Sparse α} {a : Nat} {v : α} {p : Nat × α} (h : p ∈ Sparse.ins m a v) : p = (a, v) ∨ p ∈ m := by
  induction m with
  | nil => simpa [Sparse.ins] using h
  | cons q m ih =>
    obtain ⟨k, w⟩ := q
    rw [Sparse.ins] at h
    split at h
    · rcases List.mem_cons.mp h with h | h
      · exact .inl h
      · exact .inr (List.mem_cons_of_mem _ h)
    · split at h
      · rcases List.mem_cons.mp h with h | h
        · exact .inl h
        · exact .inr h
      · rcases List.mem_cons.mp h with h | h
        · exact .inr (h ▸ List.mem_cons_self ..)
        · rcases ih h with h | h
          · exact .inl h
          · exact .inr (List.mem_cons_of_mem _ h)

/-- The entries after a removal are old ones. -/
theorem Sparse.mem_del {α : Type} {m : Sparse α} {a : Nat} {p : Nat × α} (h : p ∈ Sparse.del m a) : p ∈ m := by
  induction m with
  | nil => simp [Sparse.del] at h
  | cons q m ih =>
    obtain ⟨k, w⟩ := q
    rw [Sparse.del] at h
    split at h
    · exact List.mem_cons_of_mem _ h
    · split at h
      · exact h
      · rcases List.mem_cons.mp h with h | h
        · exact h ▸ List.mem_cons_self ..
        · exact List.mem_cons_of_mem _ (ih h)

/-- An insertion keeps the keys rising. -/
theorem Sparse.ins_pairwise {α : Type} {m : Sparse α} (a : Nat) (v : α) (h : m.Pairwise (fun p q => p.1 < q.1)) :
    (Sparse.ins m a v).Pairwise (fun p q => p.1 < q.1) := by
  induction m with
  | nil => simp [Sparse.ins]
  | cons q m ih =>
    obtain ⟨k, w⟩ := q
    obtain ⟨h1, h2⟩ := List.pairwise_cons.mp h
    rw [Sparse.ins]
    split
    · next e => subst e; exact List.pairwise_cons.mpr ⟨h1, h2⟩
    · next e =>
      split
      · next l =>
        refine List.pairwise_cons.mpr ⟨?_, h⟩
        intro x hx
        rcases List.mem_cons.mp hx with rfl | hx
        · exact l
        · exact Nat.lt_trans l (h1 x hx)
      · next l =>
        refine List.pairwise_cons.mpr ⟨?_, ih h2⟩
        intro x hx
        rcases Sparse.mem_ins hx with rfl | hx
        · show k < a
          omega
        · exact h1 x hx

/-- A removal keeps the keys rising. -/
theorem Sparse.del_pairwise {α : Type} {m : Sparse α} (a : Nat) (h : m.Pairwise (fun p q => p.1 < q.1)) :
    (Sparse.del m a).Pairwise (fun p q => p.1 < q.1) := by
  induction m with
  | nil => simp [Sparse.del]
  | cons q m ih =>
    obtain ⟨k, w⟩ := q
    obtain ⟨h1, h2⟩ := List.pairwise_cons.mp h
    rw [Sparse.del]
    split
    · exact h2
    · split
      · exact h
      · exact List.pairwise_cons.mpr ⟨fun x hx => h1 x (Sparse.mem_del hx), ih h2⟩

/-- A write keeps the canonical form. -/
theorem Sparse.put_wf {α : Type} [DecidableEq α] (d : α) {m : Sparse α} (a : Nat) (v : α) (h : Sparse.wf d m = true) :
    Sparse.wf d (Sparse.put d m a v) = true := by
  rw [Sparse.wf_iff] at h ⊢
  rw [Sparse.put]
  split
  · exact ⟨Sparse.del_pairwise a h.1, fun p hp => h.2 p (Sparse.mem_del hp)⟩
  · next e =>
    refine ⟨Sparse.ins_pairwise a v h.1, fun p hp => ?_⟩
    rcases Sparse.mem_ins hp with rfl | hp
    · exact e
    · exact h.2 p hp

/-- Clearing a range keeps the canonical form. -/
theorem Sparse.clearRange_wf {α : Type} [DecidableEq α] (d : α) {m : Sparse α} (lo hi : Nat) (h : Sparse.wf d m = true) :
    Sparse.wf d (Sparse.clearRange m lo hi) = true := by
  rw [Sparse.wf_iff] at h ⊢
  exact ⟨h.1.filter _, fun p hp => h.2 p (List.mem_filter.mp hp).1⟩

/-- Writing bytes keeps the canonical form. -/
theorem writeBytes_wf {m : Sparse Byte} (a : Nat) (bs : List Byte) (h : Sparse.wf 0 m = true) :
    Sparse.wf 0 (writeBytes m a bs) = true := by
  induction bs generalizing m a with
  | nil => exact h
  | cons b bs ih => exact ih (a + 1) (Sparse.put_wf 0 a b h)

/-- An inserted value is found. -/
theorem Sparse.find_ins_same {α : Type} (m : Sparse α) (a : Nat) (v : α) : Sparse.find (Sparse.ins m a v) a = some v := by
  induction m with
  | nil => simp [Sparse.ins, Sparse.find]
  | cons q m ih =>
    obtain ⟨k, w⟩ := q
    rw [Sparse.ins]
    split
    · simp [Sparse.find]
    · next e =>
      split
      · simp [Sparse.find]
      · next l => simp [Sparse.find, e, l, ih]

/-- An insertion changes no other key. -/
theorem Sparse.find_ins_other {α : Type} (m : Sparse α) {a b : Nat} (v : α) (h : b ≠ a) :
    Sparse.find (Sparse.ins m a v) b = Sparse.find m b := by
  induction m with
  | nil =>
    simp only [Sparse.ins, Sparse.find, if_neg (Ne.symm h)]
    split <;> rfl
  | cons q m ih =>
    obtain ⟨k, w⟩ := q
    rw [Sparse.ins]
    split
    · next e =>
      subst e
      simp [Sparse.find, Ne.symm h]
    · next e =>
      split
      · next l =>
        simp only [Sparse.find, if_neg (Ne.symm h)]
        by_cases hb : b < a
        · simp [hb, Nat.ne_of_gt (Nat.lt_trans hb l), Nat.lt_trans hb l]
        · simp [hb]
      · simp only [Sparse.find, ih]

/-- In rising keys nothing is found below the first. -/
theorem Sparse.find_below {α : Type} {m : Sparse α} {a : Nat} (h : ∀ p ∈ m, a < p.1) : Sparse.find m a = none := by
  cases m with
  | nil => rfl
  | cons q m =>
    obtain ⟨k, w⟩ := q
    have : a < k := h (k, w) (by simp)
    simp [Sparse.find, Nat.ne_of_gt this, this]

/-- A removed key is not found. -/
theorem Sparse.find_del_same {α : Type} {m : Sparse α} (a : Nat) (h : m.Pairwise (fun p q => p.1 < q.1)) :
    Sparse.find (Sparse.del m a) a = none := by
  induction m with
  | nil => rfl
  | cons q m ih =>
    obtain ⟨k, w⟩ := q
    obtain ⟨h1, h2⟩ := List.pairwise_cons.mp h
    rw [Sparse.del]
    split
    · next e => subst e; exact Sparse.find_below h1
    · next e =>
      split
      · next l => simp [Sparse.find, e, l]
      · next l => simp [Sparse.find, e, l, ih h2]

/-- A removal changes no other key. -/
theorem Sparse.find_del_other {α : Type} {m : Sparse α} {a b : Nat} (h : m.Pairwise (fun p q => p.1 < q.1)) (n : b ≠ a) :
    Sparse.find (Sparse.del m a) b = Sparse.find m b := by
  induction m with
  | nil => rfl
  | cons q m ih =>
    obtain ⟨k, w⟩ := q
    obtain ⟨h1, h2⟩ := List.pairwise_cons.mp h
    rw [Sparse.del]
    split
    · next e =>
      subst e
      simp only [Sparse.find, if_neg (Ne.symm n)]
      split
      · next l => exact Sparse.find_below fun p hp => Nat.lt_trans l (h1 p hp)
      · rfl
    · split
      · rfl
      · simp only [Sparse.find, ih h2]

/-- Reading what was written. -/
theorem Sparse.get_put_same {α : Type} [DecidableEq α] (d : α) {m : Sparse α} (a : Nat) (v : α) (h : Sparse.wf d m = true) :
    Sparse.get d (Sparse.put d m a v) a = v := by
  rw [Sparse.put]
  split
  · next e => rw [Sparse.get, Sparse.find_del_same a ((Sparse.wf_iff d m).mp h).1, e]; rfl
  · rw [Sparse.get, Sparse.find_ins_same]; rfl

/-- A write changes no other key. -/
theorem Sparse.get_put_other {α : Type} [DecidableEq α] (d : α) {m : Sparse α} {a b : Nat} (v : α) (h : Sparse.wf d m = true) (n : b ≠ a) :
    Sparse.get d (Sparse.put d m a v) b = Sparse.get d m b := by
  rw [Sparse.put, Sparse.get, Sparse.get]
  split
  · rw [Sparse.find_del_other ((Sparse.wf_iff d m).mp h).1 n]
  · rw [Sparse.find_ins_other m v n]

/-- Bytes outside a written range read as before. -/
theorem get_writeBytes_other {m : Sparse Byte} (a : Nat) (bs : List Byte) (b : Nat) (h : Sparse.wf 0 m = true)
    (n : b < a ∨ a + bs.length ≤ b) : Sparse.get 0 (writeBytes m a bs) b = Sparse.get 0 m b := by
  induction bs generalizing m a with
  | nil => rfl
  | cons x bs ih =>
    rw [writeBytes, ih (a + 1) (Sparse.put_wf 0 a x h) (by simp only [List.length_cons] at n; omega)]
    exact Sparse.get_put_other 0 x h (by simp only [List.length_cons] at n; omega)

/-- A written byte reads as what was written. -/
theorem get_writeBytes_same {m : Sparse Byte} (a : Nat) (bs : List Byte) (i : Nat) (h : Sparse.wf 0 m = true) (n : i < bs.length) :
    Sparse.get 0 (writeBytes m a bs) (a + i) = bs[i] := by
  induction bs generalizing m a i with
  | nil => simp at n
  | cons x bs ih =>
    cases i with
    | zero =>
      rw [writeBytes, get_writeBytes_other (a + 1) bs (a + 0) (Sparse.put_wf 0 a x h) (by omega)]
      exact Sparse.get_put_same 0 a x h
    | succ i =>
      rw [writeBytes, show a + (i + 1) = a + 1 + i by omega, ih (a + 1) i (Sparse.put_wf 0 a x h) (by simpa using n)]
      rfl

/-- A write inside one block keeps the memory's canonical form. -/
theorem homePart_wf {s : State} (pa : Nat) (bs : List Byte) (h : Memory.wf s.mem.bytes = true) :
    Memory.wf (s.homePart pa bs).mem.bytes = true := by
  rw [State.homePart]
  split
  · exact h
  · exact writeBytes_wf pa bs h

/-- It changes no byte outside it. -/
theorem homePart_other {s : State} (pa : Nat) (bs : List Byte) (b : Nat) (h : Memory.wf s.mem.bytes = true)
    (n : b < pa ∨ pa + bs.length ≤ b) : (s.homePart pa bs).homeByte b = s.homeByte b := by
  rw [State.homePart]
  split
  · rfl
  · exact get_writeBytes_other pa bs b h n

/-- The parts of a write keep the canonical form and change no byte outside it. -/
theorem homeParts (pa : Nat) (bs : List Byte) (b : Nat) (n : b < pa ∨ pa + bs.length ≤ b) (l : List Nat) {s : State}
    (h : Memory.wf s.mem.bytes = true) :
    let r := l.foldl (fun s i =>
      let lo := max pa (512 * (pa / 512 + i))
      s.homePart lo ((bs.drop (lo - pa)).take (512 * (pa / 512 + i + 1) - lo))) s
    Memory.wf r.mem.bytes = true ∧ r.homeByte b = s.homeByte b := by
  induction l generalizing s with
  | nil => exact ⟨h, rfl⟩
  | cons i l ih =>
    have k := ih (homePart_wf (max pa (512 * (pa / 512 + i))) ((bs.drop (max pa (512 * (pa / 512 + i)) - pa)).take
      (512 * (pa / 512 + i + 1) - max pa (512 * (pa / 512 + i)))) h)
    refine ⟨k.1, k.2.trans (homePart_other _ _ b h ?_)⟩
    simp only [List.length_take, List.length_drop]
    omega

/-- A write at the homes keeps the memory's canonical form. -/
theorem homeWrite_wf {s : State} (pa : Nat) (bs : List Byte) (h : Memory.wf s.mem.bytes = true) :
    Memory.wf (s.homeWrite pa bs).mem.bytes = true := by
  rw [State.homeWrite]
  split
  · exact homePart_wf pa bs h
  · exact (homeParts pa bs (pa + bs.length) (.inr (Nat.le_refl _)) _ h).1

/-- A write at the homes changes no byte outside it. -/
theorem homeWrite_other {s : State} (pa : Nat) (bs : List Byte) (b : Nat) (h : Memory.wf s.mem.bytes = true)
    (n : b < pa ∨ pa + bs.length ≤ b) : (s.homeWrite pa bs).homeByte b = s.homeByte b := by
  rw [State.homeWrite]
  split
  · exact homePart_other pa bs b h n
  · exact (homeParts pa bs b n _ h).2

/-- Memory at reset lists nothing, which is its canonical form. -/
theorem reset_memory_wf : Memory.wf State.reset.mem.bytes = true := rfl

end Sys2Proof.Machine
end

