-- ==== Sys2Proof/Tests/Slice0.lean ====
section
/-! SUPPORT. Tests. Words written out from the spec's encodings decode to their instructions; ill-formed terms are refused; the spec's worked examples
come out as it states them; and one witness for each obligation with hypotheses: a state and operands that meet them. -/

namespace Sys2Proof.Tests

open Sys2Proof Sys2Proof.Machine

set_option Elab.async false

/-- Every word sequence of the list decodes to the instruction beside it, with nothing left over. -/
def decodesAll (l : List (List Word × Instr)) : Bool :=
  l.all fun p => (decodeWords p.1).toOption == some (p.2, [])

/-- Class 0: the words of the examples and of the field tables (R46, R95 to R98). -/
theorem test_decode_class0 : decodesAll [
    ([0x720800000], .add 8 8 7),
    ([0x510300040], .sub 3 4 5),
    ([0xFFFFF00014500080], .addi 5 5 0xFFFFF),
    ([0x7186000C0], .mul 6 6 7),
    ([0x308100100], .mulh .ss 1 2 3),
    ([0x308140100], .mulh .uu 1 2 3),
    ([0x308180100], .mulh .su 1 2 3),
    ([0x308100140], .div false 1 2 3),
    ([0x308140180], .rem true 1 2 3),
    ([0x3DFBF001C0], .and 63 62 61),
    ([0x3DFBF00200], .or 63 62 61),
    ([0x3DFBF00240], .xor 63 62 61),
    ([0x3DFBF00280], .andn 63 62 61),
    ([0x3081002C0], .shl 1 2 (.reg 3)),
    ([0x3F00008140300], .shr 1 2 (.imm 63)),
    ([0x308100340], .sar 1 2 (.reg 3)),
    ([0x500008140380], .rot 1 2 (.imm 5)),
    ([0x209003C0], .clz 9 8),
    ([0x20900400], .popc 9 8),
    ([0x720940440], .min true 9 8 7),
    ([0x720900480], .max false 9 8 7),
    ([0x103081004C0], .sel 1 2 3 4),
    ([0x308100500], .ceq 1 2 3),
    ([0x308100540], .clt 1 2 3),
    ([0x308100580], .cltu 1 2 3),
    ([0xFFFF8003081C05C0], .lea 1 2 3 3 0xFFFF8),
    ([0x1C800008140600], .bfx true 1 2 8 7),
    ([0x7E000308100640], .bfi 1 2 3 32 31),
    ([0x400681, 0x400000], .movi 4 0x400000)] = true := by decide +kernel

/-- Class 1: the words of the examples and of the field tables (R46, R99 to R102). -/
theorem test_decode_class1 : decodesAll [
    ([0x700614000004], .brEq 5 6 7),
    ([0xFFFFC00614000044], .brNe 5 6 0xFFFFC),
    ([0xFFFFC00614000084], .brLt 5 6 0xFFFFC),
    ([0xFFFFC006140000C4], .brGe 5 6 0xFFFFC),
    ([0xFFFFC00614000104], .brLtu 5 6 0xFFFFC),
    ([0xFFFFC00614000144], .brGeu 5 6 0xFFFFC),
    ([0xFFFFFFFFF4000204], .jmp 0x3FFFFFFFFD),
    ([0x8100244], .jmpr 1 2),
    ([0x8000000007F00284], .call 63 0x2000000001),
    ([0xFC0002C4], .ret 63),
    ([0xFFFFE00014000304], .loop 5 0xFFFFE),
    ([0x404], .nop),
    ([0x200000000444], .hint 2)] = true := by decide +kernel

/-- Class 2: the words of the examples and of the field tables (R47, R116 to R131). -/
theorem test_decode_class2 : decodesAll [
    ([0x9107C0008], .ld .d 7 4 9 0),
    ([0x1000910780048], .st .w 7 4 9 16),
    ([0x2000910F00388], .ldDsc 15 4 9 32),
    ([0xFFFE0009103003C8], .stDsc 3 4 9 0xFFFE0),
    ([0x600010740088], .spl .h 7 4 6),
    ([0x1000107000C8], .sps .b 7 4 1),
    ([0x500910000108], .pref 4 9 5),
    ([0x500010000148], .cln 4 5),
    ([0x500010000188], .inv 4 5),
    ([0x500010040188], .invI 4 5),
    ([0x208], .commit),
    ([0x248], .acq),
    ([0x400000000288], .phase .pkg),
    ([0x4000000002C8], .fence .pkg),
    ([0x100014040308], .twait true 1 5),
    ([0x200000600348], .tread false 6 2)] = true := by decide +kernel

/-- Class 3: the words of the examples and of the field tables (R47, R146). -/
theorem test_decode_class3 : decodesAll [
    ([0x50000C], .mfsr 5 0),
    ([0x100001C00004C], .mtsr 0x010 7),
    ([0x1000008C], .tlbiVa 4),
    ([0x4008C], .tlbiCtx),
    ([0x1008008C], .tlbiCid 4),
    ([0xC008C], .tlbiAll),
    ([0x4000000000CC], .tlbfence .pkg),
    ([0x810010C], .probe .r 1 2),
    ([0x814010C], .probe .w 1 2),
    ([0x818010C], .probe .x 1 2),
    ([0x800014C], .rfhint 2),
    ([0x90018C], .rdcyc false 9),
    ([0x2040001CC], .keysel 1 2),
    ([0x40401CC], .keyselClr 1),
    ([0x810020C], .mode 1 2)] = true := by decide +kernel

/-- Class 4: the words of the examples and of the field tables (R48, R79 to R88). -/
theorem test_decode_class4 : decodesAll [
    ([0x8300011, 0x884], .cvt noTok 3 2 .rne true 8 4),
    ([0x18508300051, 0x86], .cvts noTok 3 2 5 6 false 8 6),
    ([0x8300091, 0x369], .qntw noTok 3 2 .rdn 6 9),
    ([0x83000D1, 0x1A7], .dqw noTok 3 2 .rtz 10 7),
    ([0x201700002800110], .retag noTok 40 0x2017),
    ([0x201700000340110], .retagDsc noTok 3 0x2017),
    ([0x40000A0020150], .tagget ⟨true, false, false, false⟩ 40 64),
    ([0x80000C0C0190], .tagchk noTok true (.d 3) 8),
    ([0x8000A0000190], .tagchk noTok false (.v 40) 8),
    ([0xFFFFE000083801D0], .scalex noTok .rup 3 2 1022)] = true := by decide +kernel

/-- Class 5: the words of the examples and of the field tables (R48, R161 to R182). -/
theorem test_decode_class5 : decodesAll [
    ([0x1C100015, 0xC00000008], .trvlIn noTok 1 7 8 12),
    ([0x1C540015, 0xFFFFFFFF00000008], .trvlOut noTok 5 7 8 0xFFFFFFFF),
    ([0x200020000056, 0x300000004, 0x0, 0x0], .trvsIn noTok .mirrorE 8 0 0 ⟨4, 3, 0, 0, 0, 0⟩),
    ([0x10C204040056, 0x200000001, 0x400000003, 0x600000005], .trvsOut noTok .zero 1 2 3 ⟨1, 2, 3, 4, 5, 6⟩),
    ([0x10020095, 0x25], .copyIn ⟨true, false, false, false⟩ .ab 0 4 0 0 ⟨0, false, false, 9⟩),
    ([0x14044095, 0x25], .copyOut ⟨false, false, false, true⟩ .ab 0 5 0 0 ⟨0, false, false, 9⟩),
    ([0x81000D5, 0xD], .fillIn noTok .ab 1 2 3),
    ([0x10003081400D5, 0xB], .fillOut noTok 1 2 3 16 2),
    ([0x10308100115, 0x20000000141], .gthr noTok .ab 1 2 3 4 5 512),
    ([0x10304240155, 0x20000000142], .sctr noTok .cb 2 1 3 4 5 512),
    ([0x10308100195, 0xB], .fard noTok .g 2 1 2 3 4),
    ([0x1000100401D4], .cmpx noTok true 4),
    ([0x200014900214], .tierq 9 true 5)] = true := by decide +kernel

/-- Class 6: the words of the examples and of the field tables (R48, R187 to R202). -/
theorem test_decode_class6 : decodesAll [
    ([0x510000019, 0x2081], .awr noTok ⟨false, 1, 0, false, 8, 1⟩ 0 4 5 0),
    ([0x5100C0019, 0x10071], .awrT noTok ⟨true, 0, 0, false, 7, 1⟩ .ab 4 5 0),
    ([0x800510700059, 0x4020], .axch noTok ⟨false, 2, 0, false, 2, 0⟩ 7 4 5 8),
    ([0x818510740099, 0x30], .acas noTok ⟨true, 0, 0, false, 3, 0⟩ 7 4 5 6 8),
    ([0x9000D8], .aflg false 9)] = true := by decide +kernel

/-- Class 7: the words of the examples and of the field tables (R48, R210). -/
theorem test_decode_class7 : decodesAll [
    ([0x184802001D, 0x4], .vrun ⟨true, false, false, false⟩ 18 24 4),
    ([0x1584800005D, 0x20030004], .vruna noTok 18 24 4 5 3 2)] = true := by decide +kernel

/-- Class 8: the words of the examples and of the field tables (R48, R233). -/
theorem test_decode_class8 : decodesAll [
    ([0x400500718800022, 0xF, 0x1, 0x1], .lnx noTok 8 6 7 ⟨false, 0, 0, 0, 0, 1, false, .rne, 0, 5, ⟨15, 0, 0, 0, 0⟩, ⟨1, 0, 0, 0, 0⟩, ⟨1, 0, 0, 0, 0⟩, ⟨0, 0, 0, 0, 0⟩⟩),
    ([0x400300204300022, 0x3F, 0x200000000001, 0x1], .lnx noTok 3 1 2 ⟨false, 0, 0, 0, 0, 1, false, .rne, 0, 3, ⟨63, 0, 0, 0, 0⟩, ⟨1, 0, 0, 0, 0⟩, ⟨1, 0, 0, 0, 0⟩, ⟨1, 0, 0, 0, 0⟩⟩),
    ([0x2808000018840062, 0xC07, 0x0, 0x801], .lnr noTok 8 6 0 ⟨true, 0, 0, 0, 1, 2, false, .rne, 1, 0, ⟨7, 3, 0, 0, 0⟩, ⟨0, 0, 0, 0, 0⟩, ⟨1, 4, 0, 0, 0⟩, ⟨0, 0, 0, 0, 0⟩⟩)] = true := by decide +kernel

/-- Class 9: the words of the examples and of the field tables (R49, R247 to R262). -/
theorem test_decode_class9 : decodesAll [
    ([0x510180025, 0x0], .mma noTok true false true 4 5 0 0),
    ([0x64], .mzero noTok false),
    ([0x18040064], .mzeroCb noTok false 6),
    ([0x1000A4], .mswap noTok true),
    ([0x3200E5, 0x80000], .mst ⟨true, false, false, false⟩ 3 false false false .rne 8 0 0),
    ([0x204000125, 0x0], .mcks noTok false false false 1 2 0 0),
    ([0x165, 0x100], .mckv noTok false false 256),
    ([0x1001A4], .mfix noTok true),
    ([0x1E4], .mtm noTok),
    ([0x224], .mte noTok),
    ([0xFFFFD00000100264], .wgrp noTok true 125)] = true := by decide +kernel

/-- Class 10: the words of the examples and of the field tables (R49, R270, R281). -/
theorem test_decode_class10 : decodesAll [
    ([0x4204028], .sxf ⟨false, false, false, true⟩ 2 1),
    ([0x14600068], .sxi noTok 6 5),
    ([0x2040400A9, 0x6000000], .scmac noTok false 1 2 ⟨true, false, false, false, false, 3, 0, 0, 0⟩),
    ([0x40C5000E8], .scmul noTok false 5 3 4),
    ([0xC500128], .sconj noTok 5 3),
    ([0x20C500168], .sdom noTok 5 3 2),
    ([0x4000187001A8], .sexp noTok 7 6 4)] = true := by decide +kernel

/-- Class 11: the words of the examples and of the field tables (R49, R289, R303). -/
theorem test_decode_class11 : decodesAll [
    ([0x120005404002C], .blkb true false 21 0x12),
    ([0x100120005400002C], .blkb false true 21 0x12),
    ([0x120000000006C], .blke 0x12),
    ([0x12000000000AC], .revb 0x12),
    ([0x140200EC], .rpush ⟨true, false, false, false⟩ 5),
    ([0x808000000400EC], .rpushSpl noTok 8 1),
    ([0x1C00012C], .rstkSet 7),
    ([0x1C04012C], .rstkGet 7),
    ([0x90016C], .gzero noTok 9)] = true := by decide +kernel

/-- Class 12: the words of the examples and of the field tables (R50, R327). -/
theorem test_decode_class12 : decodesAll [
    ([0x1550500030], .launch 5 20 21),
    ([0x1C940030], .launchRec 9 7 0),
    ([0x54000070], .join 21),
    ([0xB0], .tend),
    ([0xF0], .yield),
    ([0x500130], .stepb 5),
    ([0x1300000000170], .bari .die 2),
    ([0xA00000040170], .bariLv .quad 1),
    ([0x3D000006001B0], .bara .pod 6 7),
    ([0x20001C0001F0], .barw .quad 0 7),
    ([0xA00000600230], .baraw .quad 6 1),
    ([0x40001C000270], .barx .pkg 0 7),
    ([0xC0002B0], .prio 3)] = true := by decide +kernel

/-- Class 13: the words of the examples and of the field tables (R50, R346). -/
theorem test_decode_class13 : decodesAll [
    ([0xB28100035, 0x108], .chcfgUp 1 10 11 ⟨0, 0, false, 1, 8⟩),
    ([0xB28040035, 0x1], .chcfgDn 0 10 11 ⟨0, 0, false, 0, 1⟩),
    ([0x14104074], .chsendFw ⟨false, false, false, true⟩ 1 5),
    ([0x24040074], .chsendRv noTok 0 9),
    ([0x3000500000B4], .coll noTok 3 20),
    ([0xD300000F4], .cdig 12 13),
    ([0x400F4], .cdigClr),
    ([0x300014900134], .cstat 9 3 5),
    ([0xF00000940134], .cstatTl 9 15)] = true := by decide +kernel

/-- Class 14: the words of the examples and of the field tables (R50, R367). -/
theorem test_decode_class14 : decodesAll [
    ([0x500000000038], .trap 5),
    ([0x78], .eret),
    ([0x40078], .eretKill),
    ([0x105000B8], .ctxsv false 5 4),
    ([0x105000F8], .ctxrs 5 4),
    ([0x14000138], .fltrec 5),
    ([0x178], .brk 0),
    ([0x180001B8], .halt 6),
    ([0x180001F8], .crst 6),
    ([0x200000900238], .mchkq false 9 2)] = true := by decide +kernel

/-- An LNX of VADD over one level. -/
def testLn : LnFields :=
  ⟨false, 0, 0, 0, 0, 1, false, .rne, 0, 1, ⟨3, 0, 0, 0, 0⟩, ⟨1, 0, 0, 0, 0⟩, ⟨1, 0, 0, 0, 0⟩, ⟨1, 0, 0, 0, 0⟩⟩

/-- A relaxed integer add of doublewords. -/
def testAt : AtomF := ⟨false, 0, 0, false, 3, 0⟩
def tn : Tok := ⟨true, false, false, false⟩
def tp : Tok := ⟨false, true, false, false⟩
def t0 : Tok := ⟨false, false, false, false⟩

/-- Instructions that the checks at decode refuse, at least one for each check. -/
def illFormed : List Instr := [
  .bfx true 1 2 63 1, .bfi 1 2 3 32 32, .loop 0 8, .hint 3, .phase .lane, .phase .pod, .fence .lane, .twait false 4 1, .tread true 1 0x20,
  .tlbfence .lane, .tlbfence .pod,
  .cvt t0 1 2 .rne false 0 6, .cvt t0 1 2 .rne false 6 9, .cvts t0 1 2 3 4 false 4 6, .cvts t0 1 2 3 4 false 6 0xB, .qntw t0 1 2 .rne 4 9,
  .qntw t0 1 2 .rne 6 8, .dqw t0 1 2 .rne 8 6, .dqw t0 1 2 .rne 9 4,
  .retag t0 1 0x0E, .retag t0 1 0x0F, .retag t0 1 0x86, .retagDsc t0 1 0x26, .retagDsc t0 1 0x606, .retag t0 1 0x1006, .retag t0 1 0x14,
  .tagchk t0 false (.v 1) 0x100, .tagget t0 1 16383]
def illFormed2 : List Instr := [
  .trvlIn tp 0 1 0 0, .trvlIn t0 6 1 0 0, .trvlOut tn 0 1 0 0, .trvlOut t0 7 1 0 0, .trvsIn tp .zero 1 2 3 ⟨0, 0, 0, 0, 0, 0⟩,
  .trvsOut tn .trap 1 2 3 ⟨0, 0, 0, 0, 0, 0⟩, .copyIn tp .ab 1 2 3 0 ⟨0, false, false, 2⟩, .copyIn t0 .ab 1 2 3 0 ⟨1, false, false, 2⟩,
  .copyIn t0 .ab 1 2 3 0 ⟨0, false, false, 10⟩, .copyOut tn .ab 1 2 3 0 ⟨0, false, false, 2⟩, .copyOut t0 .ab 1 2 3 0 ⟨9, false, false, 2⟩,
  .copyOut t0 .ab 1 2 3 0 ⟨0, false, false, 15⟩, .fillIn tp .wb 1 2 0, .fillIn t0 .cb 1 2 0, .fillOut tn 1 2 3 0 0, .gthr tp .wb 1 2 3 4 5 0,
  .sctr tn .ab 1 2 3 4 5 0, .fard tp .ab 0 1 2 3 0, .fard t0 .ab 0 1 2 3 4, .cmpx tn true 1]
def illFormed3 : List Instr := [
  .awr tn testAt 0 1 2 0, .awr t0 { testAt with opc := 9 } 0 1 2 0, .awr t0 { testAt with opc := 1 } 0 1 2 0, .awr t0 { testAt with ty := 6 } 0 1 2 0,
  .awr t0 { testAt with u := true } 0 1 2 0, .awr t0 { testAt with use := 5 } 0 1 2 0, .awr t0 { testAt with use := 3, opc := 2 } 0 1 2 0,
  .awr t0 { testAt with use := 4, opc := 2 } 0 1 2 0, .awr t0 { testAt with ord := true, use := 2 } 0 1 2 0, .awr t0 { testAt with qnt := 1 } 0 1 2 0,
  .awr t0 { testAt with use := 1 } 3 1 2 0, .awrT t0 testAt .wb 1 2 0, .awrT t0 testAt .cb 1 2 0, .axch t0 { testAt with opc := 1 } 3 1 2 0,
  .axch t0 { testAt with use := 1 } 0 1 2 0, .acas t0 { testAt with ty := 8 } 3 1 2 4 0, .acas tn testAt 3 1 2 4 0,
  .vrun t0 1 2 9, .vrun t0 1 2 0, .vrun t0 1 60 5, .vruna t0 1 62 3 4 0 0]
def illFormed4 : List Instr := [
  .lnx t0 1 2 3 { testLn with nl := 0 }, .lnx t0 1 2 3 { testLn with nl := 6 }, .lnx t0 1 2 3 { testLn with unary := true },
  .lnx t0 1 2 3 { testLn with vop := 7 }, .lnx t0 1 2 3 { testLn with vop := 7, unary := true }, .lnx t0 1 2 3 { testLn with ext := ⟨3, 1, 0, 0, 0⟩ },
  .lnx t0 1 2 3 { testLn with dst := ⟨1, 0, 0, 0, 1⟩ }, .lnx t0 1 2 3 { testLn with vop := 0x0C }, .lnx t0 1 2 3 { testLn with nr := 1 },
  .lnx t0 1 2 3 { testLn with fn := 1 }, .lnx t0 1 2 3 { testLn with vop := 5, rm := .rtz }, .lnx t0 1 2 3 { testLn with vop := 5, sat := true },
  .lnx t0 1 0 0 { testLn with vop := 0x20, unary := true, bst := ⟨0, 0, 0, 0, 0⟩, rm := .rup }, .lnr t0 1 2 3 testLn,
  .lnr t0 1 2 3 { testLn with nr := 2 }, .lnr t0 1 2 3 { testLn with nr := 1, vop := 4 }, .lnr t0 1 2 3 { testLn with nr := 1, fn := 3 },
  .lnr t0 1 2 3 { testLn with nr := 1, fn := 8 },
  .mst t0 1 false false false .rne 0 0 0, .mst t0 1 false true false .rne 1 0 0, .mst t0 1 false false true .rne 0xB 0 0, .mckv t0 false false 32,
  .scmac t0 false 1 2 ⟨false, false, false, false, false, 7, 0, 0, 0⟩, .rpushSpl t0 2047 1,
  .bari .lane 0, .bariLv .core 0, .bara .core 1 0, .barw .lane 0 1, .baraw .core 1 0, .barx .lane 0 1,
  .chcfgUp 0 1 2 ⟨0, 0, false, 0, 129⟩, .chcfgDn 0 1 2 ⟨0, 1, true, 0, 1⟩, .chcfgDn 0 1 2 ⟨1, 0, false, 0, 1⟩, .chsendFw tn 0 1, .chsendRv tn 0 1,
  .coll tn 0 1, .mchkq false 1 6]

/-- None of a list is well formed, and the decoder refuses the words of each. -/
def refusesAll (l : List Instr) : Bool := l.all fun i => !i.wf && (decodeWords (encode i)).toOption.isNone

theorem test_wf_refuses_control_and_conversion : refusesAll illFormed = true := by decide +kernel
theorem test_wf_refuses_copies : refusesAll illFormed2 = true := by decide +kernel
theorem test_wf_refuses_atomics_and_programs : refusesAll illFormed3 = true := by decide +kernel
theorem test_wf_refuses_engines_and_system : refusesAll illFormed4 = true := by decide +kernel

/-! ### The test machine

A task of context 0x025 on core 0, at the first instruction of the worked example of 02_encoding.md, behind the page tables of the worked example of
06_translation_system.md with three more pages: code at 0x80_8060_0000, a direct page at 0x80_8060_5000 and a device page at 0x80_8060_6000. -/

def cells0 : List Host.Cell :=
  [(0x100000, 0x01), (0x100001, 0x10), (0x100002, 0x10), (0x101008, 0x01), (0x101009, 0x20), (0x10100A, 0x10), (0x101038, 0x01), (0x101039, 0x70),
   (0x10103A, 0x10), (0x10103F, 0x10), (0x102010, 0x01), (0x102011, 0x30), (0x102012, 0x10), (0x102018, 0x01), (0x102019, 0x50), (0x10201A, 0x10),
   (0x103018, 0x01), (0x103019, 0x40), (0x10301A, 0x10), (0x103028, 0x2F), (0x10302C, 0x04), (0x104000, 0x37), (0x104004, 0x02), (0x104020, 0x2F),
   (0x104021, 0x10), (0x104024, 0x02), (0x104028, 0xAF), (0x104029, 0x20), (0x10402C, 0x02), (0x104030, 0x2F), (0x104031, 0x31), (0x104034, 0x02),
   (0x104040, 0xAF), (0x104044, 0xC0), (0x104048, 0xAF), (0x104080, 0x6F), (0x104082, 0x01), (0x104084, 0x03), (0x104088, 0x6F), (0x104089, 0x10),
   (0x10408A, 0x01), (0x10408C, 0x03), (0x104090, 0x6F), (0x104091, 0x20), (0x104092, 0x01), (0x104094, 0x03), (0x104098, 0x6F), (0x104099, 0x30)]

def cells1 : List Host.Cell :=
  [(0x10409A, 0x01), (0x10409C, 0x03), (0x1040A0, 0x6F), (0x1040A1, 0x40), (0x1040A2, 0x01), (0x1040A4, 0x03), (0x1040A8, 0x6F), (0x1040A9, 0x50),
   (0x1040AA, 0x01), (0x1040AC, 0x03), (0x1040B0, 0x6F), (0x1040B1, 0x60), (0x1040B2, 0x01), (0x1040B4, 0x03), (0x1040B8, 0x6F), (0x1040B9, 0x70),
   (0x1040BA, 0x01), (0x1040BC, 0x03), (0x1040C0, 0x6F), (0x1040C1, 0x80), (0x1040C2, 0x01), (0x1040C4, 0x03), (0x1040C8, 0x6F), (0x1040C9, 0x90),
   (0x1040CA, 0x01), (0x1040CC, 0x03), (0x1040D0, 0x6F), (0x1040D1, 0xA0), (0x1040D2, 0x01), (0x1040D4, 0x03), (0x1040D8, 0x6F), (0x1040D9, 0xB0),
   (0x1040DA, 0x01), (0x1040DC, 0x03), (0x1040E0, 0x6F), (0x1040E1, 0xC0), (0x1040E2, 0x01), (0x1040E4, 0x03), (0x1040E8, 0x6F), (0x1040E9, 0xD0),
   (0x1040EA, 0x01), (0x1040EC, 0x03), (0x1040F0, 0x6F), (0x1040F1, 0xE0), (0x1040F2, 0x01), (0x1040F4, 0x03), (0x1040F8, 0x6F), (0x1040F9, 0xF0)]

def cells2 : List Host.Cell :=
  [(0x1040FA, 0x01), (0x1040FC, 0x03), (0x105000, 0x01), (0x105001, 0x60), (0x105002, 0x10), (0x106000, 0x27), (0x106001, 0x80), (0x106004, 0x02),
   (0x200000000, 0xFD), (0x200000001, 0xFF), (0x200000002, 0x08), (0x200000006, 0x03), (0x200000007, 0xD2), (0x200000008, 0x81), (0x200000009, 0x06), (0x20000000A, 0x40),
   (0x200000012, 0x40), (0x200000018, 0x80), (0x20000001A, 0x50), (0x20000001D, 0x80), (0x200000022, 0x80), (0x200000028, 0x08), (0x20000002A, 0x7C), (0x20000002B, 0x10),
   (0x20000002C, 0x09), (0x200000032, 0x80), (0x200000033, 0x20), (0x200000034, 0x07), (0x200000038, 0x80), (0x20000003A, 0x40), (0x20000003B, 0x10), (0x20000003D, 0x80),
   (0x200000040, 0x80), (0x200000042, 0x50), (0x200000043, 0x14), (0x200000045, 0xF0), (0x200000046, 0xFF), (0x200000047, 0xFF), (0x200000048, 0x44), (0x20000004B, 0x14),
   (0x20000004D, 0xC0), (0x20000004E, 0xFF), (0x20000004F, 0xFF), (0x200000050, 0xC4), (0x200000051, 0x02), (0x200000053, 0xFC), (0x200000058, 0x04), (0x200000059, 0x04)]

def cells3 : List Host.Cell :=
  [(0x200000060, 0x04), (0x200000061, 0x04), (0x200000068, 0x04), (0x200000069, 0x04), (0x200000070, 0x04), (0x200000071, 0x04), (0x200000078, 0x04), (0x200000079, 0x04),
   (0x200000080, 0xFF), (0x200000081, 0xFF), (0x200000083, 0x40), (0x200000086, 0x24), (0x200000087, 0x22), (0x200000088, 0x2C), (0x20000008B, 0x54), (0x20000008D, 0x20),
   (0x20000008E, 0x01), (0x200000090, 0x64), (0x200000098, 0x6C), (0x20000009D, 0x20), (0x20000009E, 0x01), (0x2000000A0, 0x04), (0x2000000A1, 0x04), (0x2000000A8, 0x04),
   (0x2000000A9, 0x04), (0x2000000B0, 0x04), (0x2000000B1, 0x04), (0x2000000B8, 0x04), (0x2000000B9, 0x04), (0x2000000C0, 0x04), (0x2000000C1, 0x04), (0x2000000C8, 0x04),
   (0x2000000C9, 0x04), (0x2000000D0, 0x04), (0x2000000D1, 0x04), (0x2000000D8, 0x04), (0x2000000D9, 0x04), (0x2000000E0, 0x04), (0x2000000E1, 0x04), (0x2000000E8, 0x04),
   (0x2000000E9, 0x04), (0x2000000F0, 0x04), (0x2000000F1, 0x04), (0x2000000F8, 0x04), (0x2000000F9, 0x04), (0x200000100, 0xFF), (0x200000101, 0xFF), (0x200000102, 0xFF)]

def cells4 : List Host.Cell :=
  [(0x200000103, 0xBF), (0x200000106, 0x5B), (0x200000107, 0xAF), (0x200000180, 0xFF), (0x200000181, 0xFF), (0x200000186, 0x53), (0x200000187, 0xA3), (0x200000188, 0x3C),
   (0x200000190, 0x04), (0x200000191, 0x04), (0x200000198, 0x04), (0x200000199, 0x04), (0x2000001A0, 0x04), (0x2000001A1, 0x04), (0x2000001A8, 0x04), (0x2000001A9, 0x04),
   (0x2000001B0, 0x04), (0x2000001B1, 0x04), (0x2000001B8, 0x04), (0x2000001B9, 0x04), (0x2000001C0, 0x04), (0x2000001C1, 0x04), (0x2000001C8, 0x04), (0x2000001C9, 0x04),
   (0x2000001D0, 0x04), (0x2000001D1, 0x04), (0x2000001D8, 0x04), (0x2000001D9, 0x04), (0x2000001E0, 0x04), (0x2000001E1, 0x04), (0x2000001E8, 0x04), (0x2000001E9, 0x04),
   (0x2000001F0, 0x04), (0x2000001F1, 0x04), (0x2000001F8, 0x04), (0x2000001F9, 0x04), (0x200001010, 0xA1), (0x200002000, 0x88), (0x200002001, 0x77), (0x200002002, 0x66),
   (0x200002003, 0x55), (0x200002004, 0x44), (0x200002005, 0x33), (0x200002006, 0x22), (0x200002007, 0x11), (0x200002080, 0x08), (0x200002082, 0x60), (0x200002083, 0x80)]

def cells5 : List Host.Cell :=
  [(0x200002084, 0x80), (0x200002088, 0x07), (0x200002090, 0x09), (0x200002098, 0x25), (0x20000209A, 0x01), (0x20000209B, 0x01), (0x20000209C, 0x01), (0x200002100, 0x08),
   (0x200002102, 0x60), (0x200002103, 0x80), (0x200002104, 0x80), (0x200002108, 0x09), (0x200002110, 0x07), (0x20000211C, 0x01), (0x200002128, 0x01), (0x20000212A, 0x25),
   (0x200002140, 0x08), (0x200002142, 0x60), (0x200002143, 0x80), (0x200002144, 0x80), (0x200002158, 0x02), (0x20000215C, 0x01), (0x200002168, 0x01), (0x20000216A, 0x25),
   (0x200008018, 0xA5), (0x300015008, 0xA2), (0x30001F100, 0xA3), (0x400012340, 0xA4)]

/-- The bytes of the test memory. -/
def testBytes : List Host.Cell :=
  cells0 ++ cells1 ++ cells2 ++ cells3 ++ cells4 ++ cells5

/-- The task of the test machine. -/
def testTask : Task :=
  { Task.zero with pc := 0x8080600008, id := { TaskId.none with uid := 1, launch := 1, lid := 1, prio := 1, maxPrio := 2, ctx := 0x025 } }

/-- The launch it belongs to. -/
def testLaunch : Launch := ⟨1, 0x025, 1, [], 1, true, 0, 0, 1, 0, 2, true, none, true, 0⟩

/-- The test machine. -/
def st : State :=
  { State.reset with
    core := { Core.fresh 0 with running := true, t := testTask },
    ctxs := [(0x025, { Ctx.zero with ptroot := 0x100000, tvec := 0x8080600008 })],
    mem := { State.reset.mem with bytes := testBytes },
    sched := { State.reset.sched with launches := [testLaunch], nextUid := 2, nextLid := 2, nextLaunch := 2 } }

/-- The test machine with scalar registers written. -/
def stS (l : List (Reg × Word)) : State := l.foldl (fun s p => s.setS p.1 p.2) st

/-- The test machine at system level. -/
def sys (s : State) : State := s.modT fun t => { t with prv := true }

/-- The block of the code line of kind 01, open at its second granule. -/
def testBlock : Block := ⟨0x12, false, false, 1, 0x8080600088, .replicate 64 0, .replicate 16 0, 0, 0, ⟨.replicate 16 0, 0, 0, 0, 0⟩, 1, 0, 0⟩

/-- The test machine with that block open. -/
def stBlk (s : State) : State := s.modT fun t => { t with blk := some testBlock, pc := 0x8080600090 }

theorem translated {r : State × Except (BitVec 8 × Nat) Xl} {x : Xl} (h : r.2.toOption = some x) : r = (r.1, .ok x) := by
  obtain ⟨s, e⟩ := r
  cases e with
  | error e => simp [Except.toOption] at h
  | ok y => simp [Except.toOption] at h; rw [h]

/-- The error of an answer. -/
def errOf {ε α : Type} : Except ε α → Option ε
  | .error e => some e
  | .ok _ => none

theorem refused {r : State × Except (BitVec 8 × Nat) Xl} {c : BitVec 8} {l : Nat} (h : errOf r.2 = some (c, l)) : r = (r.1, .error (c, l)) := by
  obtain ⟨s, e⟩ := r
  cases e with
  | error e => simp [errOf] at h; rw [h]
  | ok y => simp [errOf] at h

theorem answered {ε α : Type} {r : Except ε (α × State)} (p : α → Bool) (h : (r.toOption.map fun q => p q.1) = some true) :
    ∃ b s1, r = .ok (b, s1) ∧ p b = true := by
  cases r with
  | error e => simp [Except.toOption] at h
  | ok q => exact ⟨q.1, q.2, rfl, by simpa [Except.toOption] using h⟩

/-- Whether an answer is a fault. -/
def faultsB {α : Type} : Except (Stop × State) α → Bool
  | .error (.fault _, _) => true
  | _ => false

theorem refusedFetch {α : Type} {r : Except (Stop × State) α} (h : faultsB r = true) : ∃ f s1, r = .error (.fault f, s1) := by
  unfold faultsB at h
  split at h
  · exact ⟨_, _, rfl⟩
  · cases h

/-- Every part of `Access`, as a check. -/
def accessB (s : State) (ra rb : Reg) (off : BitVec 20) (n : Nat) (a : Acc) (x : Xl) : Bool :=
  !s.core.t.regs.poisS ra && !s.core.t.regs.poisS rb && (s.S ra + off.signExtend 64).toNat % n == 0 &&
  (translate s s.cid (s.S ra + off.signExtend 64) a (!s.core.t.prv)).2.toOption == some x &&
  (x.cls != 2 || (4 ≤ n && n != 32)) && !s.rfHeld x.pa && (s.S rb).extractLsb' 26 6 == 0

theorem access_of {s : State} {ra rb : Reg} {off : BitVec 20} {n : Nat} {a : Acc} {x : Xl} (h : accessB s ra rb off n a x = true) :
    Access s (translate s s.cid (s.S ra + off.signExtend 64) a (!s.core.t.prv)).1 ra rb off n a (s.S ra + off.signExtend 64) x := by
  simp only [accessB, Bool.and_eq_true, beq_iff_eq, Bool.not_eq_true'] at h
  obtain ⟨⟨⟨⟨⟨⟨h1, h2⟩, h3⟩, h4⟩, h5⟩, h6⟩, h7⟩ := h
  refine ⟨?_, rfl, h3, translated h4, ?_, h6, h7⟩
  · intro r hr
    simp only [List.mem_cons, List.not_mem_nil, or_false] at hr
    rcases hr with rfl | rfl <;> assumption
  · intro hc
    simpa [hc] using h5

theorem clean {s : State} {l : List Reg} (h : (l.all fun r => !s.core.t.regs.poisS r) = true) : s.cleanS l := by
  intro r hr
  simpa using List.all_eq_true.mp h r hr

theorem cleanDsc {s : State} {l : List DCode} (h : (l.all fun d => !s.core.t.regs.dpois.getLsbD d.toNat) = true) : s.cleanD l := by
  intro d hd
  simpa using List.all_eq_true.mp h d hd

/-! ### The worked examples -/

/-- CRC-16 with polynomial 0x1021 and initial value 0xFFFF over "123456789", as R29 defines the line check code. -/
theorem test_crc16 : crc16 [0x31, 0x32, 0x33, 0x34, 0x35, 0x36, 0x37, 0x38, 0x39] = 0x29B1 := by decide +kernel

/-- The worked example of translation (06_translation_system.md): the addresses of its loads. -/
theorem test_translate_example :
    [0x8080604010#64, 0x808061F100#64, 0x8080A12340#64, 0x80C0000018#64].map (fun va => (translate st 0x025 va .r true).2.toOption.map (·.pa)) =
      [some 0x200001010, some 0x30001F100, some 0x400012340, some 0x200008018] := by decide +kernel

/-- Its last load: L3[7] has bit 60 set, RSVPTE at level 3. -/
theorem test_translate_reserved : errOf (translate st 0x025 0x38000000100 .r true).2 = some (cRSVPTE, 3) := by decide +kernel

/-- The line of the worked example of 02_encoding.md passes its checks, and its header is START 0x7FFD, TGT 0x0011, KIND 00. -/
theorem test_line_example :
    lineBad (st.homeLine (0x200000000 / 128)) = false ∧ (lineGran (st.homeLine (0x200000000 / 128)) 0).extractLsb' 0 32 = 0x0008FFFD#32 := by
  decide +kernel

/-! ### Witnesses: states and operands that meet the hypotheses of each obligation -/

theorem witness_DecodeInvertsEncode : Instr.wf (.bfx true 1 2 32 31) = true ∧ Instr.isEvent (.bfx true 1 2 32 31) = false := by decide

theorem witness_EncodingIsUnique : ∃ ws i rest, decodeWords ws = .ok (i, rest) := ⟨[0x404], .nop, [], rfl⟩

theorem witness_ReservedEncodingsRefused :
    (0x3#64).extractLsb' 0 2 = 3 ∧ (0x3C#64).extractLsb' 2 4 = 15 ∧ ∃ i rest, decodeWords [0x404, 1] = .ok (i, rest) :=
  ⟨rfl, rfl, .nop, [1], rfl⟩

/-- Whether the line at the PC is fetched and passes, and its instruction may stand there and meets `p` with the state in which it runs. -/
def stepB (s : State) (p : Instr → State → Bool) : Bool :=
  let u := s.tick
  match fetchLine u.core.t.pc u with
  | .ok (b, s1) =>
    let v := (keepFills u s1).modC fun c => { c with lineKind := hdrKind (lineGran b 0) }
    match decodeWords (lineFrom b (granuleOf u.core.t.pc)) with
    | .ok (i, _) =>
      !lineBad b && hdrKind (lineGran b 0) != 2 && placeOk v (hdrKind (lineGran b 0)) (lineGran b (granuleOf u.core.t.pc)) && v.dueFault.isNone && p i v
    | .error _ => false
  | .error _ => false

/-- The line at the PC is fetched and passes, and its instruction may stand there and meets `p`. -/
def Fetches (s : State) (p : Instr → State → Bool) : Prop :=
    ∃ b s1 i rest, fetchLine s.tick.core.t.pc s.tick = .ok (b, s1) ∧ lineBad b = false ∧ hdrKind (lineGran b 0) ≠ 2 ∧
      decodeWords (lineFrom b (granuleOf s.tick.core.t.pc)) = .ok (i, rest) ∧
      (let v := (keepFills s.tick s1).modC fun c => { c with lineKind := hdrKind (lineGran b 0) }
       placeOk v (hdrKind (lineGran b 0)) (lineGran b (granuleOf s.tick.core.t.pc)) = true ∧ v.dueFault = none ∧ p i v = true)

theorem fetched {s : State} {p : Instr → State → Bool} (h : stepB s p = true) : Fetches s p := by
  simp only [stepB] at h
  cases hf : fetchLine s.tick.core.t.pc s.tick with
  | error e => rw [hf] at h; cases h
  | ok q =>
    cases hd : decodeWords (lineFrom q.1 (granuleOf s.tick.core.t.pc)) with
    | error e => simp [hf, hd] at h
    | ok r =>
      simp only [hf, hd, Bool.and_eq_true, Bool.not_eq_true', bne_iff_ne, ne_eq, Option.isNone_iff_eq_none] at h
      exact ⟨q.1, q.2, r.1, r.2, hf, h.1.1.1.1, h.1.1.1.2, hd, h.1.1.2, h.1.2, h.2⟩

/-- The test machine with its PC at a granule of the example. -/
def stAt (pc : Word) : State := st.modT fun t => { t with pc := pc }

/-- The first clause at the first instruction of the example, which runs ahead; with an action that the checker has agreed to; and at its LD, which faults in this
machine and is therefore withheld. Then an event on the agenda; the package's own turn with a queue to compare. -/
theorem witness_StepRunsDecoded :
    (∀ s ∈ [st, stAt 0x8080600028, st.modC fun c => { c with hold := some true }],
      s.agenda = [] ∧ s.powered = true ∧ s.turn % 2 = 0 ∧ s.tick.core.running = true ∧ s.tick.core.health.halted = false ∧
      s.tick.core.health.haltReq = false ∧ s.tick.core.t.pc.extractLsb' 0 3 = 0 ∧ granuleOf s.tick.core.t.pc ≠ 0) ∧
    Fetches st (fun i v => !(!runsAhead i v || (trial i v).isSome) && v.core.hold == none) ∧
    Fetches (stAt 0x8080600028) (fun i v => (!runsAhead i v || (trial i v).isSome) && v.core.hold == none) ∧
    Fetches (st.modC fun c => { c with hold := some true }) (fun _ v => v.core.hold == some true) ∧
    Instr.isEvent .recordAging = true ∧ ({ st with turn := 1 } : State).tick.turnEvent.isSome = true :=
  ⟨by decide +kernel, fetched (by decide +kernel), fetched (by decide +kernel), fetched (by decide +kernel), by decide +kernel⟩

/-- A line of kind 10, and one whose first instruction has class 15; a PC that is no multiple of 8, one in granule 0, and one there that a transfer has
led to; a page that is not mapped. -/
theorem witness_StepTakesFetchFaults :
    (st.agenda = [] ∧ st.powered = true ∧ st.turn % 2 = 0 ∧ st.core.running = true ∧ st.core.health.halted = false ∧ st.core.health.haltReq = false) ∧
    (0x808060000C#64).toNat % 8 ≠ 0 ∧ ((0x8080600000#64).toNat % 8 = 0 ∧ granuleOf 0x8080600000 = 0 ∧ (st.modC fun c => { c with entry := false }).core.entry = false) ∧
    (∃ f s1, fetchLine 0x8080607008 st.tick = .error (.fault f, s1)) ∧
    ((0x8080600108#64).toNat % 8 = 0 ∧ granuleOf 0x8080600108 ≠ 0 ∧
      ∃ b s1, fetchLine 0x8080600108 st.tick = .ok (b, s1) ∧ (!lineBad b && hdrKind (lineGran b 0) == 2) = true) ∧
    (st.core.entry = true ∧ ∃ b s1, fetchLine 0x8080600000 st.tick = .ok (b, s1) ∧ (!lineBad b && hdrKind (lineGran b 0) != 2) = true) ∧
    ∃ b s1, fetchLine 0x8080600188 st.tick = .ok (b, s1) ∧
      (!lineBad b && hdrKind (lineGran b 0) != 2 && (decodeWords (lineFrom b (granuleOf 0x8080600188))).toOption.isNone) = true :=
  ⟨⟨rfl, rfl, rfl, rfl, rfl, rfl⟩, by decide, by decide, refusedFetch (by decide +kernel),
   ⟨by decide, by decide, answered (fun b => !lineBad b && hdrKind (lineGran b 0) == 2) (by decide +kernel)⟩,
   ⟨rfl, answered (fun b => !lineBad b && hdrKind (lineGran b 0) != 2) (by decide +kernel)⟩,
   answered (fun b => !lineBad b && hdrKind (lineGran b 0) != 2 && (decodeWords (lineFrom b (granuleOf 0x8080600188))).toOption.isNone)
    (by decide +kernel)⟩

/-- The last granule of a line but one, and the last. -/
theorem witness_HardwiredRegisters :
    (1 : Reg) ≠ 0 ∧ (2 : Reg) ≠ 1 ∧ (1 ≤ 16 ∧ (0x8080600070#64).toNat % 8 = 0 ∧ (0x8080600070#64).toNat + 272 < 2 ^ 64 ∧
      (0x8080600070#64).toNat / 8 % 16 + 1 < 16) ∧ ¬(0x8080600078#64).toNat / 8 % 16 + 1 < 16 := by decide

theorem witness_MemoryFormKept : ∃ s t, State.MemOk s ∧ step s = .next t :=
  ⟨{ State.reset with agenda := [.event .recordAging] }, _, ⟨rfl, rfl, rfl⟩, rfl⟩

theorem witness_ListFormKept : ∃ s t, State.ListsOk s ∧ step s = .next t :=
  ⟨{ State.reset with agenda := [.event .recordAging] }, _,
    ⟨rfl, by decide, rfl, rfl, rfl, rfl, by simp [State.cores, State.reset, Core.fresh, Task.ListsOk, Task.zero, Sparse.rising, Sparse.wf], by
      intro r hr; simp [State.reset] at hr, by intro p hp; simp [State.reset] at hp⟩, rfl⟩

theorem witness_ScalarArithmetic : (stS [(1, 5)]).noBlock ∧ (stS [(1, 5)]).cleanS [1] ∧ (stS [(1, 5)]).cleanS [2] ∧ (stS [(1, 5)]).cleanS [3] :=
  ⟨rfl, clean (by decide +kernel), clean (by decide +kernel), clean (by decide +kernel)⟩

theorem witness_ScalarMultiplyHighMinMax : st.noBlock ∧ st.cleanS [1, 2] := ⟨rfl, clean (by decide +kernel)⟩

/-- A divisor of zero, one that is not, the overflowing pair and the example's operands. -/
theorem witness_DivideAndRemainder :
    st.noBlock ∧ st.cleanS [1, 2] ∧ st.S 2 = 0 ∧ (stS [(2, 3)]).S 2 ≠ 0 ∧
    ((stS [(1, 0x8000000000000000), (2, 0xFFFFFFFFFFFFFFFF)]).S 1 = BitVec.ofInt 64 (-2 ^ 63) ∧
     (stS [(1, 0x8000000000000000), (2, 0xFFFFFFFFFFFFFFFF)]).S 2 = BitVec.ofInt 64 (-1)) ∧
    (stS [(1, 0xFFFFFFFFFFFFFFF9), (2, 2)]).S 1 = BitVec.ofInt 64 (-7) ∧ (stS [(1, 0xFFFFFFFFFFFFFFF9), (2, 2)]).S 2 = 2 := by
  refine ⟨rfl, clean (by decide +kernel), ?_⟩; decide +kernel

/-- No leading zero bit, and 64 of them. -/
theorem witness_ScalarShiftsAndCounts :
    st.noBlock ∧ st.cleanS [1] ∧ st.cleanS [2] ∧ (stS [(1, 0x8000000000000000)]).cleanS [1] ∧
    ((stS [(1, 0x8000000000000000)]).S 1).getLsbD (63 - 0) = true ∧ ∀ j, j < 64 → (st.S 1).getLsbD (63 - j) = false :=
  ⟨rfl, clean (by decide +kernel), clean (by decide +kernel), clean (by decide +kernel), by decide +kernel, by decide +kernel⟩

/-- A field that ends with the word, and one that is a bit too long. -/
theorem witness_BitFields :
    st.noBlock ∧ st.cleanS [1] ∧ st.cleanS [2] ∧ (32#6).toNat + (31#6).toNat + 1 ≤ 64 ∧ 64 < (32#6).toNat + (32#6).toNat + 1 :=
  ⟨rfl, clean (by decide +kernel), clean (by decide +kernel), by decide, by decide⟩

theorem witness_MoveImmediate : st.noBlock ∧ ∃ w x rd imm r l, decodeWords (w :: x :: r) = .ok (.movi rd imm, l) :=
  ⟨rfl, 0x400681, 0x400000, 4, 0x400000, [], [], rfl⟩

theorem witness_PoisonedScalarSource :
    ∃ (s : State) (i : Instr), s.noBlock ∧ ∃ r ∈ scalarSources i, s.core.t.regs.poisS r = true :=
  ⟨st.modR fun r => { r with spois := 4 }, .add 1 2 3, rfl, 2, by decide, by decide +kernel⟩

/-- An instruction that can raise no fault of its own, a transfer to a good target from the open block, and the last byte of spill memory. -/
theorem witness_BlockForbidsScalar :
    (stBlk st).core.t.blk = some testBlock ∧ (scalarOrSpill (.hint 2) = true ∧ transferOrSpill (.hint 2) = false) ∧
    transferOrSpill (.jmp 0) = true ∧
    (let s := stBlk (stS [(63, 0x8080600028), (8, 16383)])
     (targetCheck (s.core.t.pc + 8 * (-13 : BitVec 20).signExtend 64) s).2 = none ∧ (targetCheck (s.core.t.pc + 8 * (-13 : BitVec 38).signExtend 64) s).2 = none ∧
     (s.S 63).toNat % 8 = 0 ∧ (targetCheck (s.S 63) s).2 = none ∧ (s.S 8 + (0 : BitVec 20).signExtend 64).toNat + szBytes .b ≤ 16384) ∧
    st.noBlock := ⟨rfl, ⟨rfl, rfl⟩, rfl, by decide +kernel, rfl⟩

theorem good_target : ∃ s1, targetGood 0x8080600028 (stS [(63, 0x8080600028)]) s1 := by
  obtain ⟨b, s1, h, p⟩ := answered (r := fetchLine 0x8080600028 (stS [(63, 0x8080600028)]))
    (fun b => !lineBad b && hdrKind (lineGran b 0) == 0 && tgtAt (lineGran b 0) (granuleOf 0x8080600028)) (by decide +kernel)
  simp only [Bool.and_eq_true, Bool.not_eq_true', beq_iff_eq] at p
  exact ⟨s1, b, h, p.1.1, by rw [p.1.2]; decide, fun h1 => absurd (p.1.2.symm.trans h1) (by decide), by decide, p.2⟩

theorem refused_target : targetRefused 0x8080600030 (stS [(63, 0x8080600030)]) ∧ targetRefused 0x8080600108 (stS [(63, 0x8080600108)]) := by
  constructor
  · obtain ⟨b, s1, h, p⟩ := answered (r := fetchLine 0x8080600030 (stS [(63, 0x8080600030)]))
      (fun b => !lineBad b && hdrKind (lineGran b 0) == 0 && !tgtAt (lineGran b 0) (granuleOf 0x8080600030)) (by decide +kernel)
    simp only [Bool.and_eq_true, Bool.not_eq_true', beq_iff_eq] at p
    exact ⟨b, s1, h, p.1.1, .inr (.inl ⟨p.1.2, .inr p.2⟩)⟩
  · obtain ⟨b, s1, h, p⟩ := answered (r := fetchLine 0x8080600108 (stS [(63, 0x8080600108)]))
      (fun b => !lineBad b && hdrKind (lineGran b 0) == 2) (by decide +kernel)
    simp only [Bool.and_eq_true, Bool.not_eq_true', beq_iff_eq] at p
    exact ⟨b, s1, h, p.1, .inl p.2⟩

theorem witness_ConditionalBranches :
    (stS [(63, 0x8080600028)]).noBlock ∧ (stS [(63, 0x8080600028)]).cleanS [1, 2] ∧
    (stS [(63, 0x8080600028)]).core.t.pc + 8 * (4 : BitVec 20).signExtend 64 = 0x8080600028 ∧
    ∃ s1, targetGood 0x8080600028 (stS [(63, 0x8080600028)]) s1 := ⟨rfl, clean (by decide +kernel), by decide +kernel, good_target⟩

theorem witness_UnconditionalTransfers :
    (stS [(63, 0x8080600028)]).noBlock ∧ (stS [(63, 0x8080600028)]).core.t.pc + 8 * (4 : BitVec 38).signExtend 64 = 0x8080600028 ∧
    (stS [(63, 0x8080600028)]).cleanS [63] ∧ ((stS [(63, 0x8080600028)]).S 63).toNat % 8 = 0 ∧ (stS [(63, 0x8080600028)]).S 63 = 0x8080600028 ∧
    ∃ s1, targetGood 0x8080600028 (stS [(63, 0x8080600028)]) s1 :=
  ⟨rfl, by decide +kernel, clean (by decide +kernel), by decide +kernel, by decide +kernel, good_target⟩

theorem witness_CountedLoop :
    st.noBlock ∧ (5 : Reg) ≠ 0 ∧ st.cleanS [5] ∧ st.S 5 = 0 ∧ (stS [(5, 1)]).S 5 = 1 ∧
    2 ≤ ((stS [(63, 0x8080600028)]).S 63).toNat ∧ ∃ s1, targetGood 0x8080600028 (stS [(63, 0x8080600028)]) s1 :=
  ⟨rfl, by decide, clean (by decide +kernel), by decide +kernel, by decide +kernel, by decide +kernel, good_target⟩

/-- Equal, unequal and ordered operands; a granule without TGT and a line of kind 10; a register that is no multiple of 8. -/
theorem witness_RefusedTransfers :
    st.noBlock ∧ st.cleanS [1, 2] ∧ st.S 1 = st.S 2 ∧ (stS [(1, 1)]).S 1 ≠ (stS [(1, 1)]).S 2 ∧
    ((stS [(2, 1)]).S 1).slt ((stS [(2, 1)]).S 2) = true ∧ ((stS [(1, 1)]).S 1).ult ((stS [(1, 1)]).S 2) = false ∧
    2 ≤ ((stS [(1, 2)]).S 1).toNat ∧ (stS [(63, 0x8080600030)]).core.t.pc + 8 * (5 : BitVec 20).signExtend 64 = 0x8080600030 ∧
    targetRefused 0x8080600030 (stS [(63, 0x8080600030)]) ∧ targetRefused 0x8080600108 (stS [(63, 0x8080600108)]) ∧
    ((stS [(1, 4)]).S 1).toNat % 8 ≠ 0 :=
  ⟨rfl, clean (by decide +kernel), by decide +kernel, by decide +kernel, by decide +kernel, by decide +kernel, by decide +kernel, by decide +kernel,
   refused_target.1, refused_target.2, by decide +kernel⟩

/-- A translation of the direct, the phase-ordered and the device page. -/
def xDir (o : Nat) : Xl := ⟨0x200002000 + o, 0x2000020AF, 0⟩
def xPh (o : Nat) : Xl := ⟨0x200001000 + o, 0x20000102F, 0⟩
def xDev (o : Nat) : Xl := ⟨0x200003000 + o, 0x20000312F, 0⟩

/-- Base registers: s4 the direct page, s5 the phase-ordered one, s6 the device page, s7 a page that is not mapped. -/
def stM : State := stS [(4, 0x8080605000), (5, 0x8080604010), (6, 0x8080606000), (7, 0x8080607000)]

theorem stM_noHold (pa : Nat) : stM.rfHeld pa = false := rfl

theorem stM_mem : stM.MemOk := ⟨by decide +kernel, by decide +kernel, by decide +kernel⟩

/-- The narrowest size at an odd address and the widest on its own. -/
theorem witness_LoadFromHomes :
    stM.noBlock ∧ (∃ s1 va, Access stM s1 4 0 0 (szBytes .d) .r va (xDir 0)) ∧ (∃ s1 va, Access stM s1 4 0 7 (szBytes .b) .r va (xDir 7)) ∧
    (∃ s1 va, Access stM s1 6 0 4 (szBytes .w) .r va (xDev 4)) ∧ (xDir 0).cls ≠ 0 ∧ (xDev 4).cls ≠ 0 ∧
    stM.homeFail (xDir 0).pa 8 = false ∧ stM.homePoisN (xDir 0).pa 8 = false :=
  ⟨rfl, ⟨_, _, access_of (by decide +kernel)⟩, ⟨_, _, access_of (by decide +kernel)⟩, ⟨_, _, access_of (by decide +kernel)⟩, by decide +kernel,
   by decide +kernel, by decide +kernel, by decide +kernel⟩

theorem witness_LoadFromView :
    stM.noBlock ∧ (∃ s1 va, Access stM s1 5 0 0 (szBytes .d) .r va (xPh 0x10)) ∧ (xPh 0x10).cls = 0 ∧ canPin stM ((xPh 0x10).pa / 128) ∧
    (∀ i, i < 8 → stM.viewPois ((xPh 0x10).pa + i) = false) ∧ (xPh 0x10).pa % 8 = 0 :=
  ⟨rfl, ⟨_, _, access_of (by decide +kernel)⟩, by decide +kernel, .inr ⟨by decide +kernel, .inr (by decide +kernel)⟩, by decide +kernel⟩

/-- The test machine with its timeline area at the direct page. -/
def stTl : State := { stM with ctxs := [(0x025, { stM.ctx 0x025 with tlnbase := 0x8080604000 })] }

/-- The test machine with the direct page's first block compressed, its pool and its reserve used up. -/
def stComp : State :=
  { stM with
    mem := { stM.mem with comp := [(0x200002000 / 512, ⟨0, false, 0x025, false⟩)], pool := [(0, (Config.poolSlots 0 : Int))], resv := [(0, Config.reserveSlots 0)] },
    plat := { stM.plat with expap := [(0, 16)] } }

/-- A block of such a frame refuses a write. -/
theorem claimBlock_full {s : State} {blk : Nat} {ctx : BitVec 12} {bs : List Byte} (h1 : Sparse.find s.mem.comp blk = some ⟨0, false, ctx, false⟩)
    (h2 : s.aperture (512 * blk) = some 0) (h3 : s.mem.pool = [(0, (Config.poolSlots 0 : Int))]) (h4 : s.mem.resv = [(0, Config.reserveSlots 0)])
    (h5 : 0 < blockNeed bs) (x : BitVec 12) : s.claimBlock x blk bs = .error 0x0C := by
  have p : Sparse.get 0 s.mem.pool 0 = (Config.poolSlots 0 : Int) := by rw [h3]; rfl
  have r : Sparse.get 0 s.mem.resv 0 = Config.reserveSlots 0 := by rw [h4]; rfl
  have hp : s.poolHas 0 (blockNeed bs - 0) = false := by simp only [State.poolHas, p]; exact decide_eq_false (by omega)
  have hr : s.resvHas 0 8 = false := by simp only [State.resvHas, r]; exact decide_eq_false (by omega)
  simp only [State.claimBlock, h1, h2, hp, hr]
  rw [if_neg (by omega)]
  rfl

/-- A store of eight bytes into that block is refused with COMPCAP. -/
theorem store_full (u : State) {s : State} {a : Nat} {ctx : BitVec 12} {bs : List Byte} (h1 : Sparse.find s.mem.comp (a / 512) = some ⟨0, false, ctx, false⟩)
    (h2 : s.aperture (512 * (a / 512)) = some 0) (h3 : s.mem.pool = [(0, (Config.poolSlots 0 : Int))]) (h4 : s.mem.resv = [(0, Config.reserveSlots 0)])
    (h5 : (a + bs.length + 511) / 512 - a / 512 = 1) (hb : s.mem.bytes = u.mem.bytes)
    (h6 : 0 < blockNeed ((List.range 512).map fun j =>
      if a ≤ 512 * (a / 512) + j && 512 * (a / 512) + j < a + bs.length then bs.getD (512 * (a / 512) + j - a) 0 else u.homeByte (512 * (a / 512) + j)))
    (x : BitVec 12) : s.store x a bs = .error 0x0C := by
  have hu : u.homeByte = s.homeByte := by funext b; simp only [State.homeByte, hb]
  rw [hu] at h6
  have h : s.claim x a bs = .error 0x0C := by
    have hr : List.range 1 = [0] := rfl
    simp only [State.claim, h5, hr, List.foldlM_cons, List.foldlM_nil, Nat.add_zero, h1, Option.isNone_some]
    rw [if_neg (by simp), claimBlock_full h1 h2 h3 h4 h6 x]
    rfl
  rw [State.store, h]
  rfl

theorem refused_store : ∃ s1 va, Access stComp s1 4 0 0 (szBytes .d) .w va (xDir 0) ∧ s1.store s1.cid (xDir 0).pa (leBytes 8 (stComp.S 7).toNat) = .error 0x0C :=
  ⟨_, _, access_of (by decide +kernel), store_full stComp (ctx := 0x025) (by decide +kernel) (by decide +kernel) rfl rfl (by decide +kernel) (by decide +kernel) (by decide +kernel) _⟩

/-- Another page outside the timeline area, the area itself, and a store that a removed die would take. -/
theorem witness_StoreToHomes :
    stM.noBlock ∧ stM.cleanS [7] ∧ (∃ s1 va, Access stM s1 4 0 8 (szBytes .d) .w va (xDir 8)) ∧ stM.MemOk ∧ (xDir 8).cls ≠ 0 ∧
    inTimelineArea stM (stM.S 4 + 8) = false ∧ (∀ a, (xDir 8).pa ≤ a → a < (xDir 8).pa + 8 → Sparse.find stM.mem.comp (a / 512) = none) ∧
    (xDir 8).pa % 8 = 0 ∧ stM.mappedOut (xDir 8).pa = false ∧
    ((∃ s1 va, Access stTl s1 4 0 8 (szBytes .d) .w va (xDir 8)) ∧ inTimelineArea stTl (stTl.S 4 + 8) = true) ∧
    stComp.MemOk ∧ inTimelineArea stComp (stComp.S 4) = false ∧
    ∃ s1 va, Access stComp s1 4 0 0 (szBytes .d) .w va (xDir 0) ∧ s1.store s1.cid (xDir 0).pa (leBytes 8 (stComp.S 7).toNat) = .error 0x0C :=
  ⟨rfl, clean (by decide +kernel), ⟨_, _, access_of (by decide +kernel)⟩, stM_mem, by decide +kernel, by decide +kernel,
   fun _ _ _ => rfl, by decide +kernel, by decide +kernel, ⟨⟨_, _, access_of (by decide +kernel)⟩, by decide +kernel⟩, stM_mem,
   by decide +kernel, refused_store⟩

/-- The test machine with as many lines pinned as L1 holds. -/
def stFull : State := stM.modV fun v => { v with pin := (List.range 3072).map fun n => (n, ⟨0, 0⟩) }

/-- A view that has room; the view of a task with as many lines as L1 holds, and without a shadow area, has none for another line. -/
theorem witness_StoreToView :
    stM.noBlock ∧ stM.cleanS [7] ∧ (∃ s1 va, Access stM s1 5 0 0 (szBytes .d) .w va (xPh 0x10)) ∧ (xPh 0x10).cls = 0 ∧
    inTimelineArea stM (stM.S 5) = false ∧ roomFor stM ((xPh 0x10).pa / 128) ∧
    (shadowOk stM 3072 = true ∧ shadowOk stM 3073 = false ∧ (stFull.core.t.view.lines).length = 3072 ∧ ¬ roomFor stFull ((xPh 0x10).pa / 128) ∧
     ∃ s1 va, Access stFull s1 5 0 0 (szBytes .d) .w va (xPh 0x10)) :=
  ⟨rfl, clean (by decide +kernel), ⟨_, _, access_of (by decide +kernel)⟩, by decide +kernel, by decide +kernel, .inr (by decide +kernel),
   by decide +kernel, by decide +kernel, by decide +kernel, not_or.mpr ⟨by decide +kernel, by decide +kernel⟩, ⟨_, _, access_of (by decide +kernel)⟩⟩

/-- An image without reserved bits, one with bit 95 set, and each page class. -/
theorem witness_DescriptorLoadAndStore :
    stM.noBlock ∧ (∃ s1 va, Access stM s1 4 0 32 32 .r va (xDir 32)) ∧ (xDir 32).cls = 1 ∧ stM.homeFail (xDir 32).pa 32 = false ∧
    stM.homePoisN (xDir 32).pa 32 = false ∧
    (BitVec.ofNat 256 (leNat ((List.range 32).map fun i => stM.homeByte ((xDir 32).pa + i))) : Desc) &&& descRsv = 0 ∧
    (BitVec.ofNat 256 (leNat ((List.range 32).map fun i => stM.homeByte ((xDir 0x80).pa + i))) : Desc) &&& descRsv ≠ 0 ∧
    (∃ s1 va, Access stM s1 4 0 32 32 .w va (xDir 32)) ∧ stM.cleanD [3] ∧ (∃ s1 va, Access stM s1 5 0 16 32 .r va (xPh 0x20)) ∧
    (∃ s1 va, Access stM s1 5 0 16 32 .w va (xPh 0x20)) ∧ canPin stM ((xPh 0x20).pa / 128) ∧
    roomFor stM ((xPh 0x20).pa / 128) ∧ stM.rfHeld (xDev 0).pa = false ∧
    stM.cleanS [6] ∧ (translate stM 0x025 0x8080606000 .r true).2.toOption = some (xDev 0) ∧ (xDev 0).cls = 2 :=
  ⟨rfl, ⟨_, _, access_of (by decide +kernel)⟩, by decide +kernel, by decide +kernel, by decide +kernel, by decide +kernel, by decide +kernel,
   ⟨_, _, access_of (by decide +kernel)⟩, cleanDsc (by decide +kernel), ⟨_, _, access_of (by decide +kernel)⟩,
   ⟨_, _, access_of (by decide +kernel)⟩, .inr ⟨by decide +kernel, .inr (by decide +kernel)⟩, .inr (by decide +kernel), rfl, clean (by decide +kernel),
   by decide +kernel⟩

/-- One byte off, an unmapped page, a policy with bit 26, the last bytes of spill memory and one access beyond, a poisoned word of it. -/
theorem witness_AccessFaults :
    stM.noBlock ∧ stM.cleanS [4, 8] ∧ (stM.S 4 + (1 : BitVec 20).signExtend 64).toNat % szBytes .h ≠ 0 ∧
    (stM.S 4 + (16 : BitVec 20).signExtend 64).toNat % 32 ≠ 0 ∧ errOf (translate stM 0x025 (stM.S 7) .r true).2 = some (cPAGE, 0) ∧
    errOf (translate stM 0x025 0x8080600000 .w true).2 = some (cPROT, 0) ∧
    (stM.S 7).toNat % 8 = 0 ∧ (((stS [(8, 0x4000000)]).S 8).extractLsb' 26 6 ≠ 0 ∧
      (translate (stS [(8, 0x4000000)]) 0x025 0x8080605000 .r true).2.toOption = some (xDir 0) ∧ (xDir 0).cls ≠ 2 ∧
      (stS [(8, 0x4000000)]).rfHeld (xDir 0).pa = false) ∧
    (((stS [(8, 16384)]).S 8).toNat % 8 = 0 ∧ 16384 - 8 < ((stS [(8, 16384)]).S 8).toNat) ∧
    (let s := (stS [(8, 16376)]).modT fun t => { t with spPois := [2047] };
     (s.S 8).toNat % 8 = 0 ∧ (s.S 8).toNat + 8 ≤ 16384 ∧ (s.S 8).toNat / 8 ∈ s.core.t.spPois) :=
  ⟨rfl, clean (by decide +kernel), by decide +kernel⟩

/-- The last word of spill memory. -/
theorem witness_SpillLoadAndStore :
    let s := stS [(8, 16376)]
    s.noBlock ∧ s.cleanS [8] ∧ (s.S 8 + (0 : BitVec 20).signExtend 64).toNat % 8 = 0 ∧ (s.S 8 + (0 : BitVec 20).signExtend 64).toNat + 8 ≤ 16384 ∧
    (s.S 8 + (0 : BitVec 20).signExtend 64).toNat / 8 ∉ s.core.t.spPois ∧ s.cleanS [9] ∧ Sparse.wf 0 s.core.t.spill = true :=
  ⟨rfl, clean (by decide +kernel), by decide +kernel, by decide +kernel, by decide +kernel, clean (by decide +kernel), by decide +kernel⟩

theorem witness_LineInstructions :
    stM.noBlock ∧ stM.cleanS [5] ∧ (translate stM 0x025 (stM.S 5) .r true).2.toOption = some (xPh 0x10) ∧ stM.mem.comp = [] ∧ stM.MemOk ∧
    Sparse.rising stM.core.t.view.dirty = true ∧ (∀ pa, stM.rfHeld pa = false) ∧
    (translate stM 0x025 0x8080600000 .x true).2.toOption = some ⟨0x200000000, 0x200000037, 0⟩ ∧ (∀ c ∈ stM.cores, Sparse.rising c.icache = true) ∧
    Sparse.rising (translate stM 0x025 0x8080600000 .x true).1.core.icache = true :=
  ⟨rfl, clean (by decide +kernel), by decide +kernel, by decide +kernel, stM_mem, by decide +kernel, stM_noHold, by decide +kernel⟩

theorem witness_CommitAndAcquire :
    let s := stM.modT fun t => { t with view := { t.view with dirty := [(0x200001010, 5)] } }
    s.noBlock ∧ s.mem.comp = [] ∧ s.plat.hbmMap = [] ∧ s.MemOk ∧ Sparse.rising s.core.t.view.dirty = true :=
  ⟨rfl, rfl, rfl, stM_mem, rfl⟩

/-- The test machine's task with command numbers given out: five, three completed. -/
def stTL : State := (stS [(3, 3), (4, 4), (5, 5), (6, 6)]).modT fun t => { t with tls := { t.tls with c := ⟨5, 3⟩ } }

/-- A command that waits in a queue. -/
def testCmd (i : Instr) (vals : List Word) : Cmd :=
  ⟨i, .fwd, tokOf i, 1, 0, [], vals, [], none, 0, true, false, false, false, 1, none, [], [], [], [], 0⟩

/-- The test machine with one command in a queue. -/
def stQ (q : QName) (i : Instr) (vals : List Word) : State := st.modT fun t => { t with q := t.q.set q [testCmd i vals] }

/-- The number completed, the one after it, the last given out and the next one; each state of a collective point. -/
theorem witness_WaitingInstructions :
    stTL.noBlock ∧ (stTL.core.t.q.load = [] ∧ stTL.core.t.q.compute = [] ∧ stTL.core.t.q.store = []) ∧
    (∀ k : Fin 16, stTL.core.t.tls.coll[k].i = stTL.core.t.tls.coll[k].v) ∧
    (¬ ∀ k : Fin 16, (st.modT fun t => { t with tls := { t.tls with coll := t.tls.coll.set 3 ⟨1, 0⟩ } }).core.t.tls.coll[k].i =
      (st.modT fun t => { t with tls := { t.tls with coll := t.tls.coll.set 3 ⟨1, 0⟩ } }).core.t.tls.coll[k].v) ∧
    (stQ .load (.cmpx noTok true 1) [0]).core.t.q.load ≠ [] ∧ stTL.cleanS [3, 4, 5, 6] ∧
    ((stTL.S 3).toNat ≤ (stTL.core.t.tls.sel 1).v.toNat ∧ (stTL.S 3).toNat ≤ (stTL.core.t.tls.sel 1).i.toNat) ∧
    ((stTL.core.t.tls.sel 1).v.toNat < (stTL.S 4).toNat ∧ (stTL.S 5).toNat ≤ (stTL.core.t.tls.sel 1).i.toNat) ∧
    (stTL.core.t.tls.sel 1).i.toNat < (stTL.S 6).toNat ∧
    (let s := st.modT fun t => { t with id := { t.id with nest := true } };
     Scope.pkg ≠ .core ∧ s.core.t.phase = .idle ∧ phaseMember s .pkg = true ∧ phaseMember st .pkg = false) ∧
    (let s := st.modT fun t => { t with phase := .merged .pkg false 0 };
     s.core.t.phase = .merged .pkg false 0 ∧ s.core.t.pend.refused = none ∧ s.core.t.pend.barbrk = false) ∧
    (let s := st.modT fun t => { t with phase := .merged .pkg false 0, pend := { t.pend with refused := some cQUOTA } };
     s.core.t.phase = .merged .pkg false 0 ∧ s.core.t.pend.refused = some cQUOTA) :=
  ⟨rfl, by decide +kernel, by decide +kernel, by decide +kernel, by decide +kernel, clean (by decide +kernel), by decide +kernel⟩

/-- The first address beyond 57 bits, and an access that is no write. -/
theorem witness_TranslationLeavesTheMachine :
    2 ^ 57 ≤ (0x0200000000000000#64).toNat ∧ (translate stM 0x025 (stM.S 4) .r true).2.toOption = some (xDir 0) ∧ Acc.r ≠ .w := by decide +kernel

theorem witness_SystemRegisterReads :
    st.noBlock ∧ st.noLog ∧ (sys st).core.t.prv = true ∧ st.core.t.prv = false ∧ srAccess 0x002 = none :=
  ⟨rfl, by constructor <;> decide +kernel, rfl, rfl, by decide +kernel⟩

theorem witness_SystemRegisterWrites :
    (sys st).noBlock ∧ (sys st).cleanS [5] ∧ (sys st).MemOk ∧ Sparse.rising (sys st).plat.expmode = true ∧ Sparse.rising (sys st).plat.expap = true ∧
    (sys st).core.t.prv = true ∧ st.core.t.prv = false :=
  ⟨rfl, clean (by decide +kernel), stM_mem, rfl, rfl, rfl, rfl⟩

/-- The largest context number and the first one that is none. -/
theorem witness_InvalidationAndFence :
    (sys st).noBlock ∧ (sys (stS [(4, 4095)])).cleanS [4] ∧ (sys (stS [(4, 4095)])).core.t.prv = true ∧ ((sys (stS [(4, 4095)])).S 4).toNat < 4096 ∧
    4096 ≤ ((sys (stS [(4, 4096)])).S 4).toNat :=
  ⟨rfl, clean (by decide +kernel), rfl, by decide +kernel, by decide +kernel⟩

theorem witness_ProbeAnswersTheTranslation :
    stM.noBlock ∧ stM.cleanS [4, 7] ∧ (translate stM 0x025 (stM.S 4) .r true).2.toOption = some (xDir 0) ∧ (xDir 0).pa < 2 ^ 52 ∧
    errOf (translate stM 0x025 (stM.S 7) .r true).2 = some (cPAGE, 0) ∧ cPAGE ≠ cPOISON ∧
    (let s := { stM with mem := { stM.mem with pois := [0x104038 / 8] } };
     errOf (translate s 0x025 (s.S 7) .r true).2 = some (cPOISON, 0)) :=
  ⟨rfl, clean (by decide +kernel), by decide +kernel, by decide +kernel, by decide +kernel, by decide, by decide +kernel⟩

/-- Both ends of the interval, of the slot numbers and of the mode; an aligned and a misaligned record, on a direct page and on another. -/
theorem witness_CyclesHintsKeysAndModes :
    st.noBlock ∧ (stS [(1, 0xFFFFFFFF)]).cleanS [1, 2] ∧ st.noLog ∧ ((stS [(1, 0xFFFFFFFF)]).S 1).toNat < 2 ^ 32 ∧
    2 ^ 32 ≤ ((stS [(1, 0x100000000)]).S 1).toNat ∧ (sys st).core.t.prv = true ∧ ((sys st).S 1 = 0 ∧
    (1 ≤ ((stS [(1, 1)]).S 1).toNat ∧ ((stS [(1, 255)]).S 1).toNat < 256) ∧ 256 ≤ ((stS [(1, 256)]).S 1).toNat ∧
    Sparse.rising st.mem.keys = true ∧ ((stS [(2, 32)]).S 2).toNat % 64 ≠ 0 ∧
    (translate (sys st) 0x025 0x8080605040 .r false).2.toOption = some (xDir 0x40) ∧ (xDir 0x40).cls = 1 ∧
    (translate (sys st) 0x025 0x8080604040 .r false).2.toOption = some (xPh 0x40) ∧ (xPh 0x40).cls ≠ 1 ∧
    st.homeFail (xDir 0x40).pa 64 = false ∧ st.homePoisN (xDir 0x40).pa 64 = false ∧ (sys st).rfHeld (xDir 0x40).pa = false ∧ 2 ≤ ((stS [(1, 2)]).S 1).toNat ∧
    Sparse.wf 0 st.mem.tmode = true) ∧ stM.MemOk :=
  ⟨rfl, clean (by decide +kernel), by constructor <;> decide +kernel, by decide +kernel, by decide +kernel, rfl, by decide +kernel, stM_mem⟩

/-- The first and the last slot, mode, core and counter that meet no ILLOP, another core's number, and a task in its handler at task level. -/
theorem witness_PrivilegeAndBlockChecks :
    st.core.t.prv = false ∧ privilegedOnly (.mchkq true 1 0) = true ∧
    (((stS [(1, 4095)]).S 1).toNat < 4096 ∧ ((stS [(1, 1)]).S 1 ≠ 0 ∧ ((stS [(1, 1)]).S 1).toNat < 2) ∧
      (((stS [(1, 255)]).S 1).toNat < 256 ∧ ((stS [(1, 255)]).S 1).toNat ≠ st.core.phys.toNat) ∧ (5 : BitVec 4).toNat < 6 ∧
      (st.modY fun y => { y with inTrap := true }).core.t.sys.inTrap = true ∧ (st.modY fun y => { y with inTrap := true }).core.t.prv = false) ∧
    (stBlk st).core.t.blk.isSome = true ∧ controlOnly .tend = true ∧ privilegedOnly .tend = false ∧ (sys (stBlk st)).core.t.prv = true := by
  decide +kernel

/-- Inside a block and outside; an empty queue and a full one; a clean and a reserved policy; a poisoned operand. -/
theorem witness_QueueRouting :
    (¬ badPolicy st (.copyIn noTok .ab 1 2 3 0 ⟨0, false, false, 2⟩) ∧ badPolicy (stS [(3, 0x80000000)]) (.copyIn noTok .ab 1 2 3 0 ⟨0, false, false, 2⟩)) ∧
    queueOf (.copyIn noTok .ab 1 2 3 0 ⟨0, false, false, 2⟩) = some .load ∧ st.admits (.copyIn noTok .ab 1 2 3 0 ⟨0, false, false, 2⟩) = true ∧
    st.cleanS (regsOf (.copyIn noTok .ab 1 2 3 0 ⟨0, false, false, 2⟩)) ∧ st.cleanD (routeDescs (.retagDsc noTok 3 0)) ∧
    policyOf (.copyIn noTok .ab 1 2 3 0 ⟨0, false, false, 2⟩) = some 3 ∧ (st.S 3).extractLsb' 26 6 = 0 ∧ st.queueRoom .load = true ∧
    ((stS [(3, 0x80000000)]).S 3).extractLsb' 26 6 ≠ 0 ∧
    (st.modT fun t => { t with q := { t.q with load := .replicate 64 (testCmd (.trvlIn noTok 0 1 0 0) [1]) } }).queueRoom .load = false ∧
    queueOf (.mzero noTok false) = some .compute ∧ (stBlk st).admits (.mzero noTok false) = true ∧
    st.admits (.rpush noTok 1) = false ∧ queueOf (.rpush noTok 1) = some .compute ∧
    ¬((st.modR fun r => { r with spois := 4 }).cleanS (regsOf (.copyIn noTok .ab 1 2 3 0 ⟨0, false, false, 2⟩))) := by
  refine ⟨⟨?_, 3, rfl, by decide +kernel, by decide +kernel⟩, rfl, by decide +kernel, clean (by decide +kernel), cleanDsc (by decide +kernel), rfl, by decide +kernel, by decide +kernel, by decide +kernel,
    by decide +kernel, rfl, by decide +kernel, by decide +kernel, rfl, ?_⟩
  · rintro ⟨p, hp, -, h⟩
    cases hp
    revert h
    decide +kernel
  intro h
  have := h 2 (by decide)
  revert this
  decide +kernel

theorem ready (q : QName) (i : Instr) (vals : List Word) (h : st.core.t.toks.canPop q (tokOf i) = true) :
    HeadReady (stQ q i vals) q (testCmd i vals) := by
  have hq : (stQ q i vals).core.t.q.get q = [testCmd i vals] := by cases q <;> rfl
  refine ⟨by cases q <;> rfl, by cases q <;> rfl, ?_, ⟨rfl, rfl⟩, ⟨rfl, rfl, rfl, rfl⟩, rfl, ?_, ?_, ?_, ⟨by cases q <;> rfl, by cases q <;> rfl⟩, ?_,
    by cases q <;> rfl⟩
  · intro c hc _
    rw [hq] at hc; simpa using hc
  · intro c hc
    rw [hq] at hc; simp [before] at hc
  · rw [hq]; simp [engineFull, testCmd, Cmd.entered, Config.queueDepth]
  · have : (stQ q i vals).core.t.toks = st.core.t.toks := by cases q <;> rfl
    rw [this]; exact h
  · have : before (stQ q i vals).core.t.q.compute (testCmd i vals) = [] := by
      cases q
      · rfl
      · simp [stQ, Queues.set, State.modT, before, testCmd]
      · rfl
    simp [awaitsVector, this]

/-- Stopped engines and an empty queue; a command the checker has not agreed to; each command at its queue's head, TRVL.in with the least extent, the
greatest and the ones beside them, TAGGET at the last even offset and an odd one. -/
theorem witness_QueueHeadIssue :
    enginesRun (st.modC fun c => { c with stopped := true }) = false ∧ headOf st.core.t .load = none ∧
    (let s := st.modT fun t => { t with q := { t.q with load := [{ testCmd (.trvlIn noTok 5 1 0 0) [1] with compared := false }] } };
     headOf s.core.t .load = some { testCmd (.trvlIn noTok 5 1 0 0) [1] with compared := false } ∧ isSpec (.trvlIn noTok 5 1 0 0) = false) ∧
    (∀ v ∈ [0x0#64, 0x1#64, 0x1000000#64, 0x1000001#64], HeadReady (stQ .load (.trvlIn noTok 5 1 2 3) [v]) .load (testCmd (.trvlIn noTok 5 1 2 3) [v])) ∧
    (1 ≤ (0x1#64).toNat ∧ (0x1000000#64).toNat ≤ 2 ^ 24 ∧ 2 ^ 24 < (0x1000001#64).toNat) ∧
    HeadReady (stQ .load (.trvsIn noTok .zero 1 2 3 ⟨1, 2, 3, 4, 5, 6⟩) [1, 2, 3]) .load (testCmd (.trvsIn noTok .zero 1 2 3 ⟨1, 2, 3, 4, 5, 6⟩) [1, 2, 3]) ∧
    (∀ i ∈ [Instr.retag noTok 40 8, .tagget noTok 40 16382, .tagget noTok 40 1, .tagchk noTok true (.v 40) 0, .tagchk noTok false (.v 40) 8,
      .mzero noTok true, .wgrp noTok false 125, .mtm noTok, .mte noTok], HeadReady (stQ .compute i []) .compute (testCmd i [])) ∧
    ((st.V 40).tag.toNat % 2 ^ 11 = (0 : FTag).toNat % 2 ^ 11 ∧ (st.V 40).tag.toNat % 2 ^ 16 ≠ (8 : FTag).toNat % 2 ^ 16) ∧
    ∀ c ∈ (stQ .compute (.mtm noTok) []).core.t.q.compute, isArray c.instr = true → c.num.toNat < (1 : Word).toNat → c.pushed = true := by
  refine ⟨rfl, rfl, ⟨rfl, rfl⟩, fun v _ => ready _ _ _ (by decide), by decide, ready _ _ _ (by decide), ?_, by decide +kernel, ?_⟩
  · intro i hi
    apply ready
    revert i
    decide
  · intro c hc _ h
    simp [stQ, Queues.set, State.modT, testCmd] at hc
    subst hc
    revert h; decide

/-- A done command at the head of its queue. -/
def doneHead (i : Instr) : Cmd := { testCmd i [1] with issued := true, done := true, status := 0 }

/-- One done command with room for its push and one without; a tile of MTM and MTE whose commands are done; a tile that is to be replayed. -/
theorem witness_CommandsComplete :
    (let s := st.modT fun t => { t with q := { t.q with load := [doneHead (.trvlIn ⟨true, false, false, false⟩ 0 1 0 0)] } };
     enginesRun s = true ∧ s.core.running = true ∧ s.core.t.q.get .load = [doneHead (.trvlIn ⟨true, false, false, false⟩ 0 1 0 0)] ∧ s.core.t.frames = [] ∧
     s.core.t.tile.opened = false ∧ collOf (.trvlIn ⟨true, false, false, false⟩ 0 1 0 0) = none ∧
     s.core.t.toks.canPush .load ⟨true, false, false, false⟩ = true ∧ s.cx.tlnbase &&& 0x01FFFFFFFFFFE000#64 = 0 ∧
     Sparse.wf 0 s.core.t.statL = true ∧
     ({ s.core.t.toks with lc := 63 } : Tokens).canPush .load ⟨true, false, false, false⟩ = false) ∧
    (let e : Cmd := { doneHead (.mte noTok) with num := 2 };
     let s := st.modT fun t => { t with q := { t.q with compute := [doneHead (.mtm noTok), e] }, tile := { t.tile with opened := true, num := 1 } };
     enginesRun s = true ∧ s.core.running = true ∧ (∃ b, e.instr = .mte b) ∧ s.core.t.tile.opened = true ∧ s.core.t.tile.want = false ∧ s.core.t.frames = [] ∧
     (∀ k ∈ s.core.t.q.compute, isArray k.instr = true ∧ k.done = true ∧ k.pushed = false ∧ k.fault = none ∧ k.blk = none ∧
        s.core.t.tile.num.toNat ≤ k.num.toNat ∧ k.num.toNat ≤ e.num.toNat) ∧ e ∈ s.core.t.q.compute ∧ s.core.t.q.compute.getLast? = some e ∧
     pushAll s.core.t.q.compute s.core.t.toks = some s.core.t.toks) ∧
    (let s := st.modT fun t => { t with tile := { t.tile with opened := true, want := true } };
     s.core.running = true ∧ s.core.t.tile.opened = true ∧ s.core.t.tile.want = true ∧ s.core.health.cnt[2].toNat + 1 < 2 ^ 64) ∧
    st.core.t.tile.want = false ∧ st.core.t.tile.opened = false :=
  ⟨by decide +kernel, ⟨by decide +kernel, by decide +kernel, ⟨noTok, rfl⟩, by decide +kernel⟩, by decide +kernel⟩

/-- A vector program in progress, whose next bundle is empty (the first granules of the direct page's zeros). -/
def runCmd : Cmd := { testCmd (.vrun noTok 4 8 0) [0x8080605200] with issued := true, ph := 1 }
def stRun (p : List PendW) : State := st.modT fun t => { t with q := { t.q with compute := [runCmd] }, vec := { t.vec with pend := p } }

/-- A pending write of v40 that lands after `left` bundles. -/
def testPend (left : Nat) : PendW := ⟨false, 40, 1, BitVec.allOnes 4096, some 8, 0, 0, 1, left⟩

theorem witness_FetchAndVectorEvents :
    (st.core.running = true ∧ (translate st 0x025 0x8080600000 .x true).2.toOption = some ⟨0x200000000, 0x200000037, 0⟩ ∧
      (let s1 := (translate st 0x025 0x8080600000 .x true).1;
       Sparse.find s1.core.icache (0x200000000 / 128) = none ∧ s1.homePoisN 0x200000000 128 = false ∧ s1.homeFail 0x200000000 128 = false) ∧
      lineBad (st.homeLine (0x200000000 / 128)) = false ∧ st.core.icache.length < Config.icacheLines) ∧
    ((0x8080605000#64).toNat < 2 ^ 57 ∧ (lookup st 0x025 0x8080605000).2.toOption.isSome = true) ∧
    st.running = none ∧ (∃ p ∈ (stRun [testPend 0]).vec.pend, p.left = 0) ∧
    (let s := stRun [testPend 1];
     enginesRun s = true ∧ s.running = some runCmd ∧ runCmd.ph = 1 ∧ runCmd.upc < 65536 ∧ (∀ p ∈ s.vec.pend, p.left ≠ 0) ∧ s.vec.fpx = false ∧
     ∃ b s1, fetchBundle (runCmd.entryVa + BitVec.ofNat 64 (32 * runCmd.upc)) s = .ok (b, s1) ∧
       (!bundleIllop b && (List.range 4).all fun n => !bPres b n) = true) ∧
    (let s := stRun [testPend 0];
     enginesRun s = true ∧ s.running = some runCmd ∧ s.vec.pend = [testPend 0] ∧ (testPend 0).left = 0 ∧ (testPend 0).isMask = false) :=
  ⟨by decide +kernel, by decide +kernel, by decide +kernel, ⟨testPend 0, by decide +kernel, rfl⟩,
   ⟨by decide +kernel, by decide +kernel, rfl, by decide, by decide +kernel, by decide +kernel,
    answered (fun b => !bundleIllop b && (List.range 4).all fun n => !bPres b n) (by decide +kernel)⟩, by decide +kernel⟩

/-- A copy that stands at its first element in tier 3. -/
def cpCmd : Cmd := { testCmd (.copyIn noTok .ab 1 2 3 0 ⟨0, false, false, 2⟩) [0, 0x8080608000, 0] with issued := true }

/-- The test machine with a command at the head of the load queue. -/
def stLoad (k : Cmd) : State := st.modT fun t => { t with q := { t.q with load := [k] } }

/-- A FARD of two sectors of window 0 to AB, under way; its first sector has arrived. -/
def fardCmd : Cmd := { testCmd (.fard noTok .ab 0 1 2 3 0) [0, 0, 1024, 0] with issued := true, ph := 1, got := [0] }

/-- A command that stands at an element in tier 3, and one in tier 2; a FARD's last sector, of a port in NVMe mode and of one in CXL mode. -/
theorem witness_LowerTierEvents :
    enginesRun (st.modC fun c => { c with stopped := true }) = false ∧ standsAt st.core.t .load = none ∧
    (let s := stLoad fardCmd
     enginesRun s = true ∧ headOf s.core.t .load = some fardCmd ∧ s.fard = some fardCmd ∧ fardCmd.kind = .fwd ∧ 1 < (fardCmd.v 2).toNat / 512 ∧
     (∀ i, i < 1 → i ∈ fardCmd.got) ∧ (FSpace.ab, 1) ∈ [(FSpace.wb, 0), (FSpace.ab, 1)] ∧ 1 ∉ fardCmd.got ∧ s.nvme (flwPort fardCmd.flw) = false ∧
     ({ s with plat := { s.plat with expmode := [(0, 1)] } } : State).nvme (flwPort fardCmd.flw) = true) ∧
    (∀ p ∈ [(cpCmd, 824633720832), ({ cpCmd with vals := [0, 0x8080605000, 0] }, 0x200002000)],
      let s := stLoad p.1
      enginesRun s = true ∧ standsAt s.core.t .load = some p.1 ∧ p.1.fault = none ∧ p.1.kind = .fwd ∧ p.1.ph ≠ 2 ∧ isAtomic p.1.instr = false ∧
      (takePops .load p.1 s).bind (elemHome p.1 0) = some p.2) ∧
    (∀ tk sp w rd ra rb rc, cpCmd.instr ≠ .fard tk sp w rd ra rb rc) ∧ (0x200002000 < Config.tier2Limit ∧ Config.tier2Limit ≤ 824633720832) ∧
    (let s : State := { st with mem := { st.mem with comp := [(3, ⟨8, false, 0x025, false⟩)] }, plat := { st.plat with expap := [(0, 16)] } };
     Sparse.find s.mem.comp 3 = some ⟨8, false, 0x025, false⟩ ∧ s.aperture (512 * 3) = some 0 ∧ blockNeed (s.blockBytes 3) < 8) ∧
    Sparse.find st.mem.comp 3 = none :=
  ⟨rfl, rfl, by decide +kernel, by decide +kernel, by intros; simp [cpCmd, testCmd], by decide +kernel⟩

/-- A command at its queue's head with what performing it leaves. -/
def runs (q : QName) (i : Instr) (vals : List Word) (s : State) : Prog :=
  performFwd { testCmd i vals with issued := true }
    ((headEnd s q (testCmd i vals) id fun c => { c with issued := true }).asRouted (testCmd i vals))

/-- The test machine whose direct page's first line the lower tier fails to deliver, with a COPY.in from it. -/
def stFail : State := (stQ .load (.copyIn noTok .ab 1 2 3 0 ⟨0, false, false, 2⟩) [0, 0x8080605000, 0]).modM fun m => { m with failed := [0x200002000 / 128] }

/-- A command that ends, one that stops at a fault, one that a lower tier ends, and MSWAP. -/
theorem witness_EngineCommandsPerform :
    HeadReady (stQ .compute (.mzero noTok true) []) .compute (testCmd (.mzero noTok true) []) ∧
    meetsSlot (stQ .compute (.mzero noTok true) []).core.t (readsOf (testCmd (.mzero noTok true) [])) = false ∧
    atomF? (.mzero noTok true) = none ∧ chsendOf (.mzero noTok true) = none ∧ collOf (.mzero noTok true) = none ∧
    (∀ c ∈ (stQ .compute (.mzero noTok true) []).core.t.q.store, isAtomic c.instr = false) ∧
    (runs .compute (.mzero noTok true) [] (stQ .compute (.mzero noTok true) [])).stop = none ∧
    ((∃ va lvl, (runs .compute (.tagget noTok 40 1) [] (stQ .compute (.tagget noTok 40 1) [])).stop = some (.fault cALIGN va lvl)) ∧
      (runs .compute (.tagget noTok 40 1) [] (stQ .compute (.tagget noTok 40 1) [])).s.core.t.tile.opened = false) ∧
    (HeadReady stFail .load (testCmd (.copyIn noTok .ab 1 2 3 0 ⟨0, false, false, 2⟩) [0, 0x8080605000, 0]) ∧
      (runs .load (.copyIn noTok .ab 1 2 3 0 ⟨0, false, false, 2⟩) [0, 0x8080605000, 0] stFail).stop = some (.status 0x11 2)) ∧
    HeadReady (stQ .compute (.mswap noTok false) []) .compute (testCmd (.mswap noTok false) []) ∧
    Sparse.rising (stQ .compute (.mswap noTok false) []).core.buf.cb = true ∧
    Sparse.rising ((stQ .compute (.mswap noTok false) []).acc false).work = true ∧
    ∀ e ∈ ((stQ .compute (.mswap noTok false) []).acc false).work, e.1 < 16384 := by
  have h := ready .load (.copyIn noTok .ab 1 2 3 0 ⟨0, false, false, 2⟩) [0, 0x8080605000, 0] (by decide)
  exact ⟨ready _ _ _ (by decide), by decide +kernel, rfl, rfl, rfl, by decide +kernel, by rfl, ⟨⟨_, _, by rfl⟩, by decide +kernel⟩,
    ⟨⟨h.runs, h.head, h.alone, h.fwd, h.fresh, h.agreed, h.turn, h.room, h.tokens, h.noTile, h.vector, h.settled⟩, by decide +kernel⟩,
    ready _ _ _ (by decide), rfl, rfl, by decide +kernel⟩

/-- An atomic that has been sent to the direct page, and one that is held. -/
def atomCmd (ph : Nat) : Cmd :=
  { testCmd (.awr noTok ⟨false, 3, 4, false, 3, 0⟩ 0 4 5 0) [0x8080605000, 7] with issued := true, ph := ph, got := [0x200002000] }
def stAtom (ph : Nat) : State := st.modT fun t => { t with q := { t.q with store := [atomCmd ph] } }

/-- A speculative atomic that is due. -/
def specCmd : Cmd := { testCmd (.awr noTok ⟨false, 4, 0, false, 3, 0⟩ 0 4 5 0) [0x8080605000, 7] with ph := 2 }

/-- A line that its tier fails to deliver, and a block whose transaction is rolled back. -/
def stBack : State := st.modM fun m => { m with failed := [0x200002000 / 128], rollb := [0x200002200 / 512] }

/-- The first and the last channel; a port without and with a reply under way, and one with all eight tags taken. -/
theorem witness_AtomicAndPortEvents :
    (enginesRun (stAtom 2) = true ∧
      (stAtom 2).core.t.q.store.find? (fun k => isAtomic k.instr && k.ph = 2 && !k.done && k.fault.isNone) = some (atomCmd 2) ∧
      (∀ c ∈ (stAtom 2).core.t.q.store, c.num = (atomCmd 2).num → c = atomCmd 2) ∧ (stAtom 2).mem.comp = [] ∧ (stAtom 2).txBack 0x200002000 = false ∧ (stAtom 2).homeFail 0x200002000 8 = false ∧ (stAtom 2).homePoisN 0x200002000 8 = false ∧
      (stAtom 2).mappedOut 0x200002000 = false ∧ inTimelineArea (stAtom 2) 0x8080605000 = false) ∧ (stAtom 2).MemOk ∧
    (heldGroups (stAtom 1) = [[atomCmd 1]] ∧ sentBefore (stAtom 1) (atomCmd 1) = false ∧ ((stAtom 1).modC fun c => { c with waiting := true }).core.waiting = true) ∧ heldGroups st = [] ∧
    (let s := st.modT fun t => { t with q := { t.q with store := [specCmd] } };
     enginesRun s = true ∧ s.core.t.q.store.find? (fun k => !k.issued) = some specCmd ∧ isSpec specCmd.instr = true ∧ 2 ≤ specCmd.ph ∧
     s.core.t.toks.canPop .store specCmd.tok = true) ∧
    (0 < 384 ∧ 383 < 384 ∧ (st.port 383).waiting = [] ∧ (st.port 383).freeTag = some 0 ∧ st.homeFail 0x200002000 64 = false ∧
      st.homePoisN 0x200002000 64 = false ∧ st.txBack 0x200002000 = false ∧ stBack.homeFail 0x200002000 64 = true ∧
      (stBack.homeFail 0x200002200 64 = false ∧ stBack.txBack 0x200002200 = true ∧ (stBack.port 383).freeTag = some 0) ∧ (List.replicate 64 (0 : Byte)).length = 64) ∧
    (let s : State := { st with ports := [(383, ⟨(List.range 8).map fun i => (BitVec.ofNat 3 i, .ok, []), [], none⟩)] };
     (s.port 383).freeTag = none ∧ (s.port 383).busy.find? (fun b => b.1 = 7) = some (7, .ok, [])) :=
  ⟨by decide +kernel, stM_mem, by decide +kernel, by decide +kernel, by decide +kernel, by decide +kernel, by decide +kernel⟩

/-- A record with an AB region of 0x8_0000 bytes at 0x18_0000, as in the worked example of 12_blocks.md, in place of the direct page's first words. -/
def stRcfg : State := (sys stM).homeWrite 0x200002000 (leBytes 8 0x180000 ++ leBytes 8 0x80000 ++ List.replicate 48 0)

theorem witness_ResidualStackRegisters :
    stM.noBlock ∧ stM.cleanS [4] ∧ stM.core.t.prv = false ∧ stRcfg.core.t.prv = true ∧ stRcfg.noBlock ∧ stRcfg.cleanS [4] ∧
    (((stS [(4, 32)]).S 4).toNat % 64 ≠ 0 ∧ ((stS [(4, 64)]).S 4).toNat % 128 ≠ 0 ∧ (stRcfg.S 4).toNat % 128 = 0 ∧
    (translate stRcfg 0x025 (stRcfg.S 4) .r false).2.toOption = some (xDir 0) ∧ (translate stRcfg 0x025 (stRcfg.S 4) .w false).2.toOption = some (xDir 0) ∧
    (xDir 0).cls = 1) ∧ stRcfg.rfHeld (xDir 0).pa = false ∧ (stRcfg.homeFail (xDir 0).pa 64 = false ∧
    (stBack.homeFail (xDir 0).pa 64 = true ∧ (stRcfg.modM fun m => { m with pois := [0x200002000 / 8] }).homePoisN (xDir 0).pa 64 = true) ∧
    stRcfg.homePoisN (xDir 0).pa 64 = false ∧ rcfgBad (stRcfg.homeBytes (xDir 0).pa 64) = false ∧
    rcfgBad (stM.homeBytes (xDir 0).pa 64) = true ∧ (stRcfg.tasks.any fun t => t.1.id.ctx = stRcfg.cid && t.1.rstk.t != 0) = false ∧
    ((stRcfg.modT fun t => { t with rstk := { t.rstk with t := 1984 } }).tasks.any fun t => t.1.id.ctx = 0x025 && t.1.rstk.t != 0) = true) ∧
    stRcfg.MemOk ∧ inTimelineArea stRcfg (stRcfg.S 4) = false ∧ stRcfg.mem.comp = [] ∧ stRcfg.mappedOut (xDir 0).pa = false ∧
    st.core.t.walk.active = false :=
  ⟨rfl, clean (by decide +kernel), rfl, rfl, rfl, clean (by decide +kernel), by decide +kernel, rfl, by decide +kernel, ⟨by decide +kernel, by decide +kernel, by decide +kernel⟩, by decide +kernel⟩

/-- At the BLKB of the line of kind 01, with a stack configuration; the block open and at its BLKE. -/
def stB0 : State := (sys stM).modC fun c =>
  { c with lineKind := 1, t := { c.t with pc := 0x8080600088, prv := false, rcfg := ⟨0x180000, 0x80000, 0, 0, 0, 0⟩ } }
def stB2 : State := stB0.modT fun t => { t with pc := 0x8080600098, blk := some { testBlock with ord := 2 } }

/-- After that block: its frame on the stack, of zeros but the addresses of BLKB and BLKE and its header (R295, R297). -/
def stB3 : State := stB0.modC fun c =>
  { c with
    t := { c.t with pc := 0x80806000A0, rstk := ⟨1984, 0, 0, 1, [1984]⟩ },
    buf := { c.buf with ab := [(0x180000, 0x88), (0x180002, 0x60), (0x180003, 0x80), (0x180004, 0x80), (0x180008, 0x98), (0x18000A, 0x60),
      (0x18000B, 0x80), (0x18000C, 0x80), (0x180780, 0x12), (0x180784, 1), (0x180788, 0x80), (0x180789, 7), (0x180790, 2), (0x180792, 1)] } }

/-- The walk of that block at the carrier of its MZERO, behind it, and at the end. -/
def stB4 (ord step : Nat) : State := stB0.modT fun t => { t with
  pc := 0x80806000A0, walk := { t.walk with active := true, pc := 0x80806000A0, ph := 2, ord := ord, step := step, f := some testBlock, blke := 0x8080600098 } }

/-- A stack with a frame on it, and every step of the walk: a carrier to be routed, the next ordinal, and the end; a map record of zeros, one that breaks
a rule and one at a misaligned address; clean and poisoned registers; an entry pending; an empty stack. -/
theorem witness_BlocksAndReverseWalk :
    (stB0.core.t.blk = none ∧ granuleOf stB0.core.t.pc = 1 ∧ stB0.core.lineKind = 1 ∧ granuleOf st.core.t.pc = 1 ∧ st.core.lineKind ≠ 1 ∧
    (stB0.core.t.regs.spois = 0 ∧ stB0.core.t.regs.dpois = 0 ∧ (stB0.modR fun r => { r with spois := 4 }).core.t.regs.spois ≠ 0) ∧
    stB0.core.t.rstk.h = stB0.core.t.rstk.t ∧ stB0.core.t.popHeld = false ∧ stB0.takePop.core.t.popHeld = true ∧ stB0.takePop.core.t.walk.f = none) ∧
    (let s := stB0.setS 21 0x8080609000;
     s.cleanS [21] ∧ (s.S 21).toNat % 64 = 0 ∧ ∃ bs s1, readMap (s.S 21) 9 s = .ok (bs, s1) ∧ (checkMap s bs == none) = true) ∧
    (let s := stB0.setS 21 0x8080605000;
     (s.S 21).toNat % 64 = 0 ∧ ∃ bs s1, readMap (s.S 21) 9 s = .ok (bs, s1) ∧ (checkMap s bs).isSome = true) ∧
    ((stB0.setS 21 8).S 21).toNat % 64 ≠ 0 ∧
    (stB2.core.t.blk = some { testBlock with ord := 2 } ∧ testBlock.id = 0x12 ∧ testBlock.hbm = false ∧ stB2.core.t.frames = [] ∧
      stB2.core.t.tls.x.v = stB2.core.t.tls.x.i ∧ (stB2.core.t.rstk.t - stB2.core.t.rstk.h).toNat + 1984 ≤ stB2.core.t.rcfg.absz.toNat) ∧
    (let s := stB2.modT fun t => { t with tls := { t.tls with x := ⟨1, 0⟩ } }; s.core.t.tls.x.v ≠ s.core.t.tls.x.i) ∧
    stB3.noBlock ∧
    (stB3.core.t.frames = [] ∧ stB3.core.t.walk.f = none ∧ stB3.core.t.walk.active = false ∧ stB3.core.t.tls.x.i = stB3.core.t.tls.x.v ∧
      1984 ≤ stB3.core.t.rstk.t.toNat ∧ ((topHdr stB3.takePop).toOption.map fun q => (q.1.len, q.1.kind, q.1.bid, q.1.flags)) = some (1920, 1, 0x12, 0) ∧
      ((stackRead 0 16 stB3.takePop).toOption.map fun q => q.1.any fun b => b.fail || b.pois) = some false ∧
      ((blockCode 0x12 0x8080600088 0x8080600098 stB3.takePop).toOption.isSome = true) ∧
      ((popEntry (fun _ => true) stB3.takePop).toOption.map fun q => q.1.any fun b => b.fail || b.pois) = some false) ∧
    (stB0.core.t.rstk.t.toNat < 64 ∧ (let s := stB0.modT fun t => { t with walk := { t.walk with active := true, pc := t.pc } };
      s.core.t.walk.f = none ∧ s.core.t.walk.active = true ∧ s.core.t.walk.pc = s.core.t.pc)) ∧
    (∀ os ∈ [(1, 0), (1, 1), (0, 0)], (stB4 os.1 os.2).core.t.walk.f = some testBlock ∧ (stB4 os.1 os.2).core.t.walk.active = true ∧
      (stB4 os.1 os.2).core.t.walk.pc = (stB4 os.1 os.2).core.t.pc ∧ (stB4 os.1 os.2).core.t.walk.ph = 2) ∧
    ((blockCode 0x12 0x8080600088 0x8080600098 (stB4 1 0)).toOption.map fun q => q.1.getD 1 none) = some (some (.mzero noTok false)) ∧
    (carriers testBlock.g (.mzero noTok false)).length = 1 ∧ (stB4 1 0).queueRoom .compute = true :=
  ⟨by decide +kernel,
   ⟨clean (by decide +kernel), by decide +kernel, answered (fun bs => checkMap (stB0.setS 21 0x8080609000) bs == none) (by decide +kernel)⟩,
   ⟨by decide +kernel, answered (fun bs => (checkMap (stB0.setS 21 0x8080605000) bs).isSome) (by decide +kernel)⟩,
   by decide +kernel, by decide +kernel, by decide +kernel, by show stB3.core.t.blk = none; decide +kernel, by decide +kernel⟩

/-- The test machine without a park record, its launch with two tasks; s4 a launch record of a pool launch, s8 a continuation, s9 one with two
children left. -/
def stL : State := (stS [(4, 0x8080605080), (8, 0x8080605100), (9, 0x8080605140)])

/-- What LAUNCH, TEND and JOIN see after their COMMIT. -/
def stLC : State := stL.commit.1.modT fun t => { t with pend := { t.pend with refused := none } }

/-- The greatest depth that may launch and the one that may not, a child's task and a root's. -/
theorem witness_LaunchJoinAndEnd :
    stL.noBlock ∧ stL.cleanS [4, 8, 9, 0] ∧ stL.noLog ∧ stL.commit.2 = none ∧ stL.plat.hbmMap = [] ∧ stL.MemOk ∧ stL.mem.comp = [] ∧
    ((stS [(4, 32)]).S 4).toNat % 64 ≠ 0 ∧ (stL.S 8).toNat % 64 = 0 ∧ (stL.S 4).toNat % 128 = 0 ∧
    (translate stLC 0x025 (stL.S 8) .w true).2.toOption = some (xDir 0x100) ∧ (xDir 0x100).cls = 1 ∧
    (∀ pa, stL.rfHeld pa = false) ∧
    (let s1 := (translate stLC 0x025 (stL.S 8) .w true).1;
     s1.homePoisN 0x200002100 64 = false ∧ contBad (s1.homeBytes 0x200002100 64) = false ∧
     fld (s1.homeBytes 0x200002100 64) 40 1 ≤ stL.core.t.id.prio.toNat ∧
     (translate s1 0x025 (stL.S 9) .w true).2.toOption = some (xDir 0x140) ∧
     (let s2 := (translate s1 0x025 (stL.S 9) .w true).1;
      s2.homePois (0x200002140 + 24) = false ∧ s2.homePoisN 0x200002100 64 = false ∧ s2.homeLe (0x200002140 + 24) 4 % 2 ^ 31 ≠ 2 ^ 31 - 1) ∧
     0x200002100 + 64 ≤ 0x200002140 + 24) ∧
    stL.S 9 ≠ 0 ∧ stL.S 0 = 0 ∧ stL.core.t.id.depth.toNat < 31 ∧
    ((stL.modT fun t => { t with id := { t.id with depth := 31 } }).core.t.id.depth.toNat = 31) ∧ stL.poolUsed < Config.poolRecords ∧
    (translate stLC 0x025 (stL.S 4) .r true).2.toOption = some (xDir 0x80) ∧
    (let s1 := (translate stLC 0x025 (stL.S 4) .r true).1;
     s1.homePoisN 0x200002080 128 = false ∧ launchOk (s1.homeBytes 0x200002080 128) (some (stL.core.t.id.prio, stL.core.t.id.ctx)) = true) ∧
    (closurePending stL = false ∧ stL.core.t.tile.opened = false ∧ stL.core.t.pend.misclose = false ∧ stL.core.t.pend.barovr = false) ∧
    (stL.core.t.id.parent = 0 ∧ stL.launch 1 = some testLaunch ∧ 2 ≤ testLaunch.live) ∧
    (let s := stL.modT fun t => { t with id := { t.id with parent := 0x8080605140 } };
     s.core.t.id.parent ≠ 0 ∧ (joinAddr s 0x025 0x8080605140).2.toOption = some 0x200002140 ∧
     2 ≤ s.commit.1.homeLe (0x200002140 + 24) 4 % 2 ^ 31 ∧ (joinAddr s 0x025 0x8080605140).1.commit.2 = none) ∧
    ((translate stL 0x025 (stL.S 9) .w true).2.toOption = some (xDir 0x140) ∧ contBad (stL.homeBytes 0x200002140 64) = false ∧
     stL.homePois (0x200002140 + 24) = false ∧ (translate stL 0x025 (stL.S 9) .w true).1.commit.2 = none ∧
     stLC.homeLe (0x200002140 + 24) 4 % 2 ^ 31 ≠ 0 ∧ stLC.homeLe (0x200002100 + 24) 4 % 2 ^ 31 = 0) :=
  ⟨rfl, clean (by decide +kernel), by constructor <;> decide +kernel, by decide +kernel, rfl, stM_mem, rfl, by decide +kernel, by decide +kernel,
   by decide +kernel, by decide +kernel, by decide +kernel, fun _ => rfl, by decide +kernel⟩

/-- A launch record, of the pool and of a nest of 64 iterations. -/
def testRecord (nest : Bool) : List Byte :=
  leBytes 8 0x8080600008 ++ leBytes 8 7 ++ leBytes 8 9 ++ [0x25, 0, 1, 1, 1, 0, if nest then 1 else 0, 0] ++
  (if nest then leBytes 4 64 ++ leBytes 4 1 ++ leBytes 4 1 ++ leBytes 4 1 ++ [0xE4] else List.replicate 17 0) ++ List.replicate 79 0

/-- The highest level the task may take and the one above it; each state of a step. -/
theorem witness_YieldPriorityAndStep :
    st.noBlock ∧ (stS [(1, 2)]).cleanS [1] ∧ ((stS [(1, 2)]).S 1).toNat ≤ st.core.t.id.maxPrio.toNat ∧
    st.core.t.id.maxPrio.toNat < ((stS [(1, 3)]).S 1).toNat ∧ st.core.t.phase = .idle ∧ closurePending st = false ∧
    st.core.t.pend.misclose = false ∧ st.core.t.id.nest = false ∧ st.commit.2 = none ∧ st.sched.ready = [] ∧
    (st.modT fun t => { t with id := { t.id with nest := true } }).core.t.id.nest = true ∧
    (let s := st.modT fun t => { t with phase := .merged .lane true 5 };
     s.core.t.phase = .merged .lane true 5 ∧ s.core.t.pend.refused = none ∧ s.core.t.pend.barbrk = false ∧ s.launch 1 = some testLaunch) ∧
    (let s := st.modT fun t => { t with phase := .merged .lane true 5, pend := { t.pend with refused := some cCOMPCAP } };
     s.core.t.phase = .merged .lane true 5 ∧ s.core.t.pend.refused = some cCOMPCAP) ∧
    (let s : State := { st with sched := { st.sched with launches := [{ testLaunch with image := testRecord true }] } };
     (s.launch 1).map (fun l => decide (admitDies s l ≠ [])) = some true) ∧ st.poolUsed < Config.poolRecords :=
  ⟨rfl, clean (by decide +kernel), by decide +kernel, by decide +kernel, rfl, by decide +kernel⟩

/-- The test machine with an instance of the package's barrier 1. -/
def stBar (f : Bar → Bar) : State :=
  { st with sched := { st.sched with bars := [f { st.myBar .pkg 1 with ph := 3, members := [1, 7], started := true }] } }

/-- A member that has not arrived, one that has, one that leaves, a task that joins; the phase before, the open one and the next; the least and the
greatest byte count and the first beyond it; an instance that is broken, one that is due, a POD instance without a group and with one. -/
theorem witness_BarrierInstructions :
    st.noBlock ∧ st.core.t.id.podg = 0 ∧ Scope.pkg ≠ .pod ∧ st.core.t.barw = none ∧ st.cleanS [1] ∧ st.core.t.id.nest = false ∧
    (st.modT fun t => { t with id := { t.id with nest := true } }).core.t.id.nest = true ∧ st.core.t.pend.barovr = false ∧
    ((let r := (stBar id).myBar .pkg 1; 1 ∈ r.members ∧ 1 ∉ r.arrived ∧ 1 ∉ r.joining ∧ 1 ∉ r.leaving ∧ r.started = true ∧ r.broken = false ∧ r.ph = 3) ∧
    (let r := st.myBar .pkg 1; 1 ∉ r.members ∧ 1 ∉ r.joining ∧ r.started = false) ∧
    1 ∈ ((stBar fun r => { r with arrived := [1] }).myBar .pkg 1).arrived ∧ ((stBar fun r => { r with broken := true }).myBar .pkg 1).broken = true ∧
    1 ∈ ((stBar fun r => { r with members := [7], joining := [1] }).myBar .pkg 1).joining ∧
    (let r := (stBar fun r => { r with arrived := [7] }).myBar .pkg 1;
     r.ph < ({ r with arrived := r.arrived ++ [1], started := true } : Bar).settle.ph) ∧
    (let r := (stBar id).myBar .pkg 1; ({ r with arrived := r.arrived ++ [1], started := true } : Bar).settle.ph = r.ph) ∧
    (((stS [(1, 2)]).S 1).toNat < 3 ∧ ((stS [(1, 3)]).S 1).toNat = 3 ∧ 3 < ((stS [(1, 4)]).S 1).toNat) ∧
    (((stS [(1, 1)]).S 1).toNat ≠ 0 ∧ ((stS [(1, 0xFFFFFFFF)]).S 1).toNat < 2 ^ 32 ∧ 2 ^ 32 ≤ ((stS [(1, 0x100000000)]).S 1).toNat)) ∧
    ((stBar id).modT fun t => { t with barw := some (t.pc, 2) }).core.t.barw = some (0x8080600008, 2) ∧
    (∀ n, ((stBar id).modT fun t => { t with barw := some (0x8080600010, 3) }).core.t.barw ≠ some (st.core.t.pc, n)) ∧
    (let o := (stBar fun r => { r with arrived := [1, 7] }).myBar .pkg 1;
     o.phaseBar = false ∧ o.remote = false ∧ o.bc = 0 ∧ o.members ≠ [] ∧ ∀ m, m ∈ o.members → m ∈ o.arrived) ∧
    (st.modT fun t => { t with id := { t.id with podg := 1 } }).core.t.id.podg ≠ 0 :=
  ⟨rfl, rfl, by decide, rfl, clean (by decide +kernel), rfl, rfl, rfl, by decide +kernel, rfl,
   fun n h => absurd (show some (0x8080600010 : Word) = some 0x8080600008 from congrArg (Option.map Prod.fst) h) (by decide), by decide +kernel⟩

/-- A nest task on the first die; an end on core 0x40 of the second die of this package with slots of 512 bytes, which ends AB. -/
def stCh : State :=
  let s := (stS [(1, 0x4001), (2, 0x1FF800), (3, 7), (4, 8)]).modT fun t => { t with id := { t.id with nest := true } }
  { s with plat := { s.plat with podid := 1 } }

/-- That end, with slots of `n` times 512 bytes. -/
def testEnd (n : BitVec 8) : ChEnd :=
  { ChEnd.zero with conf := true, up := true, a := stCh.S 1, b := stCh.S 2, x := ⟨0, 0, false, 0, n⟩ }

/-- A busy channel and a free one; a region of 8 bytes and of 2^40, the list at 15 and at 16; numbers given out: 20 on the channel, 18 completed, 200
on the load queue. -/
theorem witness_ChannelEndsAndStatus :
    st.noBlock ∧ chanBusy st.core.t 0 = false ∧ stCh.cleanS [1, 2] ∧ st.core.t.id.nest = false ∧
    chcfgCheck stCh 0 (testEnd 1) = none ∧ chcfgCheck stCh 0 (testEnd 2) = some (.cc cOOB) ∧
    (let s := st.modT fun t => { t with q := { t.q with store := [testCmd (.chsendFw noTok 0 1) []] } }; chanBusy s.core.t 0 = true) ∧
    (stCh.cleanS [3] ∧ (stCh.S 3).toNat < 8 ∧ 8 ≤ (stCh.S 4).toNat ∧ ((stS [(5, 0x10000000000)]).S 5).toNat ≤ 2 ^ 40 ∧ stCh.core.t.closure.length < 16 ∧
      (stCh.S 3).toNat % 8 ≠ 0 ∧ (stCh.S 4).toNat % 8 = 0) ∧
    st.noLog ∧
    (let s := (stS [(1, 20), (2, 18), (3, 4), (5, 21), (6, 72), (7, 73)]).modT fun t =>
       { t with tls := { t.tls with coll := t.tls.coll.set 3 ⟨20, 18⟩, l := ⟨200, 72⟩ } };
     let c := s.core.t.tls.coll[(3 : BitVec 4).toNat];
     c.i.toNat < (s.S 5).toNat ∧ (s.S 3).toNat + 16 ≤ c.i.toNat ∧ (c.i.toNat < (s.S 1).toNat + 16 ∧ c.v.toNat < (s.S 1).toNat) ∧
     (s.core.t.q.load.find? fun c => c.num = s.S 7) = none ∧
     ((s.modT fun t => { t with q := { t.q with load := [{ testCmd .nop [] with num := 73 }] } }).core.t.q.load.find? fun c => c.num = s.S 7) =
       some { testCmd .nop [] with num := 73 } ∧
     ((s.S 2).toNat ≤ c.v.toNat ∧ (s.S 2).toNat ≠ 0) ∧ (s.S 6).toNat + 128 ≤ s.core.t.tls.l.i.toNat ∧ s.core.t.tls.l.i.toNat < (s.S 7).toNat + 128) :=
  ⟨rfl, by decide +kernel, clean (by decide +kernel), rfl, by decide +kernel, by decide +kernel, by decide +kernel, ⟨clean (by decide +kernel), by decide +kernel⟩,
   by constructor <;> decide +kernel, by decide +kernel⟩

/-- A fault that an engine has pending. -/
def testFault : FaultInfo := ⟨cMCHK, 0, 0, 0, none, 0, 1⟩

/-- In a handler at system level. -/
def stTrap : State := sys (st.modY fun y => { y with inTrap := true })

/-- A FARD of two sectors to AB that is under way. -/
def copyCmd : Cmd := { testCmd (.fard noTok .ab 0 1 2 3 0) [0, 0, 1024, 0] with issued := true, ph := 1 }

/-- A task that is not in its handler, and one of a context without a handler; a handler, also while a copy goes on, with a fault pending, for a task that can
not resume and for the MCHK of control state. -/
theorem witness_TrapsAndReturns :
    (st.core.t.sys.inTrap = false ∧ st.handler ≠ 0 ∧ st.core.running = true ∧ st.noBlock) ∧ ({ st with ctxs := [] } : State).handler = 0 ∧
    (stTrap.noBlock ∧ stTrap.core.t.sys.inTrap = true ∧ stTrap.core.t.prv = true ∧ stTrap.core.t.valid = true ∧ stTrap.core.running = true ∧
     stTrap.core.t.sys.tcause.extractLsb' 0 8 ≠ cMCHK ∧ stTrap.core.pendingFaults = [] ∧ stTrap.core.copying = false) ∧
    (stTrap.modT fun t => { t with q := { t.q with load := [copyCmd] } }).core.copying = true ∧
    ((stTrap.modC fun c => { c with epend := [testFault] }).core.nextFault = some testFault ∧ stTrap.handler ≠ 0) ∧
    (sys st).core.t.prv = true ∧
    (let s := st.modC fun c => { c with epend := [testFault] };
     s.core.stopped = false ∧ s.core.health.halted = false ∧ s.core.health.haltReq = false ∧ s.core.ckpt = [] ∧ s.core.nextFault = some testFault ∧
     s.core.t.sys.inTrap = false ∧ s.handler ≠ 0) ∧
    (stTrap.modT fun t => { t with valid := false }).core.t.valid = false ∧
    (let y := (stTrap.modY fun y => { y with tcause := 0x200000029 }).core.t.sys;
     y.tcause.extractLsb' 0 8 = cMCHK ∧ y.tcause.extractLsb' 32 32 = 2) :=
  ⟨⟨rfl, by decide +kernel, rfl, rfl⟩, by decide +kernel, ⟨rfl, by decide +kernel⟩, by decide +kernel⟩

/-- Every part of `ListsOk`, as a check; no record of a saved task waits in the queues. -/
def listsB (s : State) : Bool :=
  let task (t : Task) : Bool := Sparse.rising t.view.dirty && Sparse.wf 0 t.spill
  Sparse.rising s.others && (s.others.all fun p => p.2.phys.toNat == p.1 && p.1 != s.core.phys.toNat) && Sparse.rising s.mem.keys &&
  Sparse.wf 0 s.mem.tmode && Sparse.rising s.plat.expmode && Sparse.rising s.plat.expap &&
  (s.cores.all fun c => Sparse.rising c.icache && task c.t) &&
  (s.sched.ready.all fun r => match r.work with | .resume t _ _ => task t | _ => true) && s.images.all fun p => task p.2.t

theorem lists {s : State} (h : listsB s = true) : s.ListsOk := by
  simp only [listsB, Bool.and_eq_true, List.all_eq_true, beq_iff_eq, bne_iff_ne, ne_eq] at h
  obtain ⟨⟨⟨⟨⟨⟨⟨⟨h1, h2⟩, h3⟩, h4⟩, h5⟩, h6⟩, h7⟩, h8⟩, h9⟩ := h
  refine ⟨h1, h2, h3, h4, h5, h6, h7, ?_, h9⟩
  intro r hr t b c hw
  have := h8 r hr
  rw [hw] at this
  simpa [Task.ListsOk] using this

/-- In a handler at system level, with the direct page as the place of the image: a header of another format; and no page there. -/
def stX : State := sys (stM.modY fun y => { y with inTrap := true })

/-- There, with the header of a good image of n pages on the direct page. -/
def stHdr (n : Nat) : State := stX.homeWrite 0x200002000 (leBytes 4 1 ++ leBytes 4 n ++ leBytes 4 0x25 ++ leBytes 4 2)

/-- An L1 TLB entry that maps a GiB for reading and writing, the direct page among it; the state with that entry alone and s10 that page's address in it. -/
def bigE : TlbE := ⟨0x025, 0x40000, 0x40000, 0x2000000AF, 2, 2⟩
def stBig (s : State) : State := (s.setS 10 0x40002000).modC fun c => { c with l1tlb := [bigE] }

theorem pagePois_big (s : State) (h : s.core.t.acc0.wpois = [] ∧ s.core.t.acc1.wpois = [] ∧ s.core.buf.cbPois = [] ∧ s.core.t.tile.ck0.wpois = [] ∧
    s.core.t.tile.ck1.wpois = [] ∧ s.core.t.view.lines = []) (p : Nat) : pagePois s p = false := by
  obtain ⟨h1, h2, h3, h4, h5, h6⟩ := h
  simp [pagePois, h1, h2, h3, h4, h5, h6]

/-- A package whose firmware was refused. -/
def stNoFw : State := { st with plat := { st.plat with fwOk := false } }

/-- The pages of the image without its buffers stand from a page on: the second one is not mapped, the first one is. One TLB entry maps all pages of an
image. FLTREC to a direct page, to a phase-ordered one, and to the timeline area. A core that is halted, and one that is not. -/
theorem witness_ContextImagesAndAperture :
    stX.noBlock ∧ stX.core.t.prv = true ∧ stX.cleanS [4] ∧ st.core.t.sys.inTrap = false ∧ stX.core.t.sys.inTrap = true ∧
    (((stS [(4, 8)]).S 4).toNat % 4096 ≠ 0 ∧ (stX.S 4).toNat % 4096 = 0 ∧ stX.mem.comp = [] ∧
      errOf (loadPages (stX.S 7) [0] stX []).2 = some 2 ∧ (loadPages (stX.S 4) [0] stX []).2.toOption = some [(0, 0x200002000)] ∧
      ¬imgLe (loadByte stX [(0, 0x200002000)]) 0 4 = 1) ∧
    (let s := stHdr 2;
     let h := loadByte s [(0, 0x200002000)];
     imgLe h 0 4 = 1 ∧ imgLe h 8 4 = s.cid.toNat ∧ (imgLe h 12 4).testBit 1 = true ∧
     (loadPages (s.S 4) (imagePages (imgLe h 4 4) ((imgLe h 12 4).testBit 0)) s []).2.toOption = some [(0, 0x200002000), (1, 0x200003000)] ∧
     errOf (loadPages (s.S 4) (imagePages 3 false) s []).2 = some 2) ∧
    (let s := stBig (stHdr 2);
     s.core.l1tlb = [bigE] ∧ bigE.ctx = s.cid ∧ (s.S 10).toNat % 4096 = 0 ∧ pteKey bigE.leaf.toNat = 0 ∧
     (∀ n ∈ [(0x680000 + 320 * s.core.t.view.lines.length + 4095) / 4096, 2],
       bigE.vpn * 4096 ≤ (s.S 10).toNat ∧ (s.S 10).toNat + 4096 * n ≤ (bigE.vpn + bigE.pages) * 4096 ∧ (s.S 10).toNat + 4096 * n ≤ 2 ^ 57) ∧
     pteW bigE.leaf.toNat = true ∧ pteR bigE.leaf.toNat = true ∧ bigE.pa (s.S 10).toNat = 0x200002000 ∧ s.homeLe 0x200002000 4 = 1 ∧
     s.homeLe 0x200002004 4 = 2 ∧ s.homeLe 0x200002008 4 = s.cid.toNat ∧ (s.homeLe 0x20000200C 4).testBit 1 = true ∧
     (∀ p, p < 2 → s.homePoisN (0x200002000 + 4096 * p) 4096 = false ∧ s.homeFail (0x200002000 + 4096 * p) 4096 = false)) ∧
    ((stBig (stHdr 2)).mem.comp = [] ∧ ∀ p, pagePois (stBig (stHdr 2)) p = false) ∧
    (stM.cleanS [4, 6] ∧ (stM.S 4).toNat % 256 = 0 ∧ ((stS [(4, 128)]).S 4).toNat % 256 ≠ 0 ∧
      (translate stM 0x025 (stM.S 4) .w true).2.toOption = some (xDir 0) ∧ (xDir 0).cls = 1 ∧ inTimelineArea stM (stM.S 4) = false ∧
      stM.rfHeld (xDir 0).pa = false ∧ stM.plat.hbmMap = [] ∧ stM.mem.comp = [] ∧ inTimelineArea stTl (stTl.S 4) = true ∧
      (translate stM 0x025 0x8080604000 .w true).2.toOption = some (xPh 0) ∧ (xPh 0).cls = 0 ∧ shadowOk stM (stM.core.t.view.lines.length + 2) = true) ∧
    stM.MemOk ∧ (apertureOk 0xFFF8 8 = true ∧ apertureOk 0xFFFC 4 = true ∧ apertureOk 0xFFFC 8 = false ∧ apertureOk 16 8 = true) ∧
    st.ListsOk ∧ (st.halt false false).ListsOk ∧ stNoFw.ListsOk ∧
    ((st.coreAt 0).health.halted = false ∧ ((st.halt false false).coreAt 0).health.halted = true ∧ Sparse.rising st.host.dwidx = true ∧
      st.dwidx 0 + (0x8010 - 0x8000) = 16 ∧ st.dwidx 0 + (0x9028 - 0x8000) = 0x1000 + 8 * (5 : Reg).toNat ∧ (0x9028 : Nat) ≤ 0xFFF8 ∧
      st.plat.fwOk = true ∧ (st.halt false false).plat.fwOk = true ∧ stNoFw.plat.fwOk = false) :=
  ⟨rfl, rfl, clean (by decide +kernel), rfl, rfl, by decide +kernel, by decide +kernel, by decide +kernel,
   ⟨rfl, pagePois_big _ (by decide +kernel)⟩, ⟨clean (by decide +kernel), by decide +kernel⟩, stM_mem, by decide, lists (by decide +kernel),
   lists (by decide +kernel), lists (by decide +kernel), by decide +kernel⟩

/-- A committed state, as the checkpoint of the test machine. -/
def testCkpt : Ckpt :=
  ⟨0x8080600008, true, testTask.regs.s, 0, testTask.regs.d, 0, none, testTask.walk, testTask.tls, 0, 3⟩

/-- A command that has not been compared. -/
def freshCmd : Cmd := { testCmd (.trvlIn noTok 0 1 0 0) [1] with compared := false }

/-- The test machine with a copy to AB under way on the core itself and on core 1. -/
def stCopy : State :=
  let s := sys (stS [(1, 1)]) |>.modT fun t => { t with q := { t.q with load := [copyCmd] } }
  { s with others := [(1, { s.core with phys := 1 })] }

/-- A core halted, one that is not, the core itself and another, with a copy under way and without; a handler; each state of the checker and of the
debugger. -/
theorem witness_DebugAndHealth :
    (sys st).ListsOk ∧ (sys st).noBlock ∧ (sys st).core.t.prv = true ∧ (sys (stS [(1, 0x100), (2, 0xFF)])).cleanS [1, 2] ∧ st.noLog ∧ stCopy.ListsOk ∧
    (((stS [(1, 0x100)]).S 1).extractLsb' 8 56 ≠ 0 ∧ ((stS [(2, 0xFF)]).S 2).extractLsb' 8 56 = 0 ∧
      ((stS [(2, 0xFF)]).S 2).extractLsb' 0 8 ≠ st.core.phys ∧ (st.S 0).extractLsb' 0 8 = st.core.phys ∧ (st.coreAt 0xFF).copying = false ∧
      (∀ c ∈ [0, 1], (stCopy.coreAt c).copying = true ∧ (stCopy.coreAt c).health.halted = false) ∧
      (stCopy.S 1).extractLsb' 0 8 = (1 : BitVec 8) ∧ ((st.halt false false).coreAt 0).health.halted = true) ∧
    (6 ≤ (6#4).toNat ∧ st.core.health.cnt[(5#4).toNat]? = some 0 ∧ st.core.health.sinceRec = none) ∧
    (let s := st.modC fun c => { c with health := { c.health with sinceRec := some 255 } };
     s.core.health.sinceRec = some 255 ∧ s.core.running = true ∧ s.core.t.sys.inTrap = false ∧ s.handler ≠ 0 ∧ s.core.uncompared = false) ∧
    (st.modC fun c => { c with health := { c.health with sinceRec := some 255 } }).ListsOk ∧
    (let s := (st.modT fun t => { t with q := { t.q with load := [freshCmd] } }).modC fun c => { c with ckpt := [testCkpt], hold := some false };
     s.core.uncompared = true ∧ s.core.t.q.get .load = [] ++ freshCmd :: [] ∧ (∀ c ∈ ([] : List Cmd), c.compared = true) ∧
     freshCmd.compared = false ∧ s.core.ckpt = [testCkpt]) ∧
    st.core.ckpt = [] ∧
    (let s := st.modC fun c => { c with health := { c.health with haltReq := true, trp := true } };
     (s.coreAt 0).health.haltReq = true ∧ (s.coreAt 0).copying = false ∧ (s.coreAt 1).health.haltReq = false ∧
     s.plat.fwOk = true ∧ stNoFw.plat.fwOk = false) ∧ stNoFw.ListsOk ∧
    (let s := (st.halt false false).modC fun c => { c with health := { c.health with trp := true } };
     (s.coreAt 0).health.halted = true ∧ (s.coreAt 0).health.trp = true ∧ (s.coreAt 0).running = true ∧ (s.coreAt 0).t.sys.inTrap = false ∧
     (s.focus 0).handler ≠ 0 ∧ (s.coreAt 1).health.halted = false ∧ s.plat.fwOk = true) ∧
    ((st.halt false false).modC fun c => { c with health := { c.health with trp := true } }).ListsOk :=
  ⟨lists (by decide +kernel), rfl, rfl, clean (by decide +kernel), by constructor <;> decide +kernel, lists (by decide +kernel), by decide +kernel,
   by decide +kernel, by decide +kernel, lists (by decide +kernel), by decide +kernel, rfl, by decide +kernel, lists (by decide +kernel),
   by decide +kernel, lists (by decide +kernel)⟩

/-- The package with every core idle and one entry in its queues. -/
def stIdle (nest : Bool) (w : Work) : State :=
  { st with
    core := Core.fresh 0,
    sched := { st.sched with launches := [{ testLaunch with image := testRecord nest }], ready := [⟨1, 0x025, 1, 0, 0, none, w⟩] } }

/-- The nest launches that wait, as the event finds them. -/
def nestWaits (s : State) : List (Nat × Ready × Launch) :=
  (serveOrder s).filterMap fun x =>
    if nestRoot s x.2 && (x.2.ring.all fun y => (s.ringRead x.2 y).isSome) then (s.launch x.2.launch).map fun l => (x.1, x.2, l) else none

/-- Whether the cores of the first nest launch that waits are all free and reserved. -/
def nestAll (s : State) : Option Bool :=
  (nestWaits s).head?.map fun x =>
    let want := nestCores (nestDies s x.2.2)
    let kept (c : Nat) : Option Nat :=
      let k := (s.coreAt c).reserved
      if want.contains c then if coreFree s c && k = none then some x.2.2.id else k else if k = some x.2.2.id then none else k
    !want.isEmpty && want.all fun c => coreFree s c && (kept c = some x.2.2.id) && quadReady s (quadOf c) (lrPlumb x.2.2.image) false

/-- The test machine as a nest task with a barrier at which it stands alone. -/
def stNest (sc : Scope) : State :=
  let s := st.modT fun t => { t with id := { t.id with nest := true }, phase := .held sc (sc == .lane) 5 }
  { s with sched := { s.sched with
      launches := [{ testLaunch with image := testRecord true }],
      bars := [⟨1, 0, sc, 0, 0, true, 0, [], [1], [], [], 0, none, true, false, false⟩] } }

/-- A root, a record and a saved task that a core can take, and none; a nest launch whose cores are free and one with a busy core; a record that has
waited one cycle short of 2^20 and one that has waited so long; a quad with a task and one without; a barrier that is due and none. -/
theorem witness_SchedulerEvents :
    st.ListsOk ∧ pickDispatch st = none ∧ st.plat.fwOk = true ∧
    (∀ w ∈ [Work.root, .record 0x8080605100, .resume testTask Buffers.zero none],
      (stIdle false w).ListsOk ∧ pickDispatch (stIdle false w) = some (0, ⟨1, 0x025, 1, 0, 0, none, w⟩, 0) ∧
      (stIdle false w).launch 1 = some { testLaunch with image := testRecord false }) ∧
    ((testRecord false).length = 128 ∧ testTask.id.plumb = lrPlumb (testRecord false) ∧
      (translate (stIdle false .root) 0x025 0x8080605100 .r false).2.toOption = some (xDir 0x100) ∧ nestWaits st = [] ∧
      nestWaits (stIdle true .root) = [(0, ⟨1, 0x025, 1, 0, 0, none, .root⟩, { testLaunch with image := testRecord true })] ∧
      nestAll (stIdle true .root) = some true ∧ testLaunch.redis = none ∧ 0 < 64 * (nestDies (stIdle true .root) { testLaunch with image := testRecord true }).length) ∧
    (stIdle true .root).ListsOk ∧
    (let s : State := { stIdle true .root with core := { Core.fresh 0 with running := true, t := { testTask with id := { testTask.id with ctx := 0x026 } } } };
     (nestWaits s).length = 1 ∧ nestAll s = some false) ∧
    ((1 : BitVec 2) ≠ 3 ∧ 0 + 2 ^ 20 ≤ 2 ^ 20 ∧ 2 ^ 20 - 1 < 0 + 2 ^ 20 ∧ st.sched.prethr.toNat = 0) ∧
    (let s : State := { (st.modT fun t => { t with id := { t.id with ctx := 0x026 } }) with now := 100, sched := { st.sched with
         launches := [{ testLaunch with image := testRecord true, mask := 1 }], ready := [⟨2, 0x025, 1, 0, 0, none, .root⟩], prethr := 100 } };
     s.sched.prethr.toNat ≠ 0 ∧ s.poolUsed < Config.poolRecords ∧
     (s.sched.ready.find? (fun r => r.born + s.sched.prethr.toNat ≤ s.now && stillWaits s r && s.cores.any fun c => preemptible c true && couldReplace s r c)) =
       some ⟨2, 0x025, 1, 0, 0, none, .root⟩) ∧
    (let busy (q : Nat) : Bool := (st.cores.any fun c => quadOf c.phys.toNat = q && c.running) ||
       st.sched.ready.any (fun r => match r.work with | .resume _ _ (some c) => quadOf c.toNat = q | _ => false);
     busy 0 = true ∧ busy 1 = false) ∧
    (let due := (stNest .pkg).sched.bars.find? (fun r => r.phaseBar && r.sc ≠ .lane && !r.arrived.isEmpty && (r.broken || (phaseMembers (stNest .pkg) r).all r.arrived.contains));
     due = some ⟨1, 0, .pkg, 0, 0, true, 0, [], [1], [], [], 0, none, true, false, false⟩ ∧ (stNest .pkg).core.running = true ∧
     (stNest .pkg).core.t.id.uid ∈ [1] ∧ (stNest .pkg).core.t.phase = .held .pkg false 5) ∧
    (let s := stNest .lane;
     let due := s.sched.bars.find? (fun r => r.phaseBar && r.sc = .lane && !r.arrived.isEmpty && (r.broken || (launchTasks s r.launch).all fun t => r.arrived.contains t.1.uid));
     due = some ⟨1, 0, .lane, 0, 0, true, 0, [], [1], [], [], 0, none, true, false, false⟩ ∧ (s.launch 1).isSome = true ∧
     (s.sched.bars.find? fun q => q.phaseBar && q.sc = .lane && q.launch = 1) = due ∧ s.core.t.phase = .held .lane true 5 ∧
     (s.ctx 0x025).rrctl.extractLsb' 0 2 = 0 ∧ ((s.launch 1).map fun l => decide (admitDies s l ≠ []) && maskOf (admitDies s l) == l.mask) = some true) := by
  refine ⟨lists (by decide +kernel), by decide +kernel, rfl, ?_, by decide +kernel, lists (by decide +kernel), by decide +kernel⟩
  intro w hw
  have h : (listsB (stIdle false w) && pickDispatch (stIdle false w) == some (0, ⟨1, 0x025, 1, 0, 0, none, w⟩, 0) &&
      (stIdle false w).launch 1 == some { testLaunch with image := testRecord false }) = true := by
    simp only [List.mem_cons, List.not_mem_nil, or_false] at hw
    rcases hw with rfl | rfl | rfl <;> decide +kernel
  simp only [Bool.and_eq_true, beq_iff_eq] at h
  exact ⟨lists h.1.1, h.1.2, h.2⟩

/-- A tile of one row of 64 bytes in AB (FP32, AB space). -/
def testTile : Desc := BitVec.ofNat 256 (1 + 0x8 * 2 ^ 16 + 2 ^ 96 + 16 * 2 ^ 112 + 64 * 2 ^ 128)

/-- A nest task on core 0 with channel 0 to core 0x40 of package 1, whose end of it is up, a CHSEND that stands by. -/
def chEnd (up : Bool) (phys : BitVec 8) : ChEnd :=
  { ChEnd.zero with conf := true, up := up, a := 1 + 256 * phys.setWidth 64, b := 0x1000, x := ⟨0, 0, false, 0, 1⟩ }
def sendCmd : Cmd := { testCmd (.chsendFw noTok 0 1) [] with descs := [testTile], issued := true, ph := 1, got := [0] }
def stChan (f : ChEnd → ChEnd) : State :=
  let s := st.modT fun t => { t with id := { t.id with nest := true }, chans := t.chans.set 0 (f (chEnd false 0x40)), q := { t.q with store := [sendCmd] } }
  { s with
    plat := { s.plat with podid := 1 },
    others := [(0x40, { Core.fresh 0x40 with running := true, t := { testTask with chans := testTask.chans.set 0 (chEnd true 0) } })] }

/-- A COLL of two participants of package 1 as the fabric holds it; their digests. -/
def testColl (me : Nat) (phys : BitVec 8) (td : Word) (ph : Nat) : Coll :=
  ⟨1 + me, 0x025, phys, false, 1, 0, 3, 1, 0, 0, noTok, ⟨0, 0, 0, 0, 0, 0, 0, 0, 2, me, 0, [0x001, 0x101], []⟩, td, [], [], [], ph, 0, [], [], 0, 0, [],
   none, []⟩
def stColl (td : Word) (ph : Nat) (code : BitVec 8) : State :=
  { stChan id with colls := [testColl 0 0 5 ph, { testColl 1 0x40 td ph with code := code }] }

/-- An end toward another package, with the slot size of its partner there once they are paired. -/
def chFar (u : Option (BitVec 8)) (e : ChEnd) : ChEnd := { e with a := 2, peer := u }

/-- A partner on this package with a free slot, with a slot that is too small, with no credit or halted; a lost channel; a channel toward another package that is
not paired, paired, paired with slots that are too small, and without credit; a flit that is held, and each packet that has an owner; a collective of
equal and of unequal trees, one that has lost a participant, and one whose key is revoked. -/
theorem witness_ChannelAndCollectiveEvents :
    (stChan id).ListsOk ∧ enginesRun (st.modC fun c => { c with stopped := true }) = false ∧
    ((enginesRun (stChan id) = true ∧ (stChan id).plat.held = [] ∧ standing (stChan id).core.t.q.store = [(sendCmd, 0)] ∧ sendCmd.ph = 1 ∧
      ((stChan id).ch 0).dead = false ∧ ((stChan id).ch 0).pkg = (stChan id).pkg ∧
      (((stChan id).partner 0).map fun p => (p.1.phys, p.2, p.1.t.chans[p.2.toNat].x.slotu, p.1.t.chans[p.2.toNat].slots[0].valid, p.1.health.halted)) =
        some (0x40, 0, 1, false, false) ∧
      sendBytes testTile ≤ 512 ∧ ((stChan id).ch 0).cred.getLsbD 0 = true ∧ (0x40 : BitVec 8) ≠ (stChan id).core.phys) ∧
    (((stChan fun e => { e with dead := true }).ch 0).dead = true ∧ ((stChan fun e => { e with cred := 0 }).ch 0).cred.getLsbD 0 = false ∧
      0 * 512 < sendBytes testTile ∧
      ((((stChan id).setCore 0x40 { (stChan id).coreAt 0x40 with t := { testTask with chans := testTask.chans.set 0 { chEnd true 0 with x := ⟨0, 0, false, 0, 0⟩ } } }).partner 0).map
        fun p => p.1.t.chans[p.2.toNat].x.slotu) = some 0)) ∧
    ((∀ u ∈ [none, some (1 : BitVec 8), some 0],
      ((stChan (chFar u)).ch 0).dead = false ∧ ((stChan (chFar u)).ch 0).pkg ≠ (stChan (chFar u)).pkg ∧ ((stChan (chFar u)).ch 0).peer = u ∧
      ((stChan (chFar u)).ch 0).cred.getLsbD 0 = true ∧ (stChan (chFar u)).isPaired 0 = u.isSome ∧ standing (stChan (chFar u)).core.t.q.store = [(sendCmd, 0)]) ∧
    (((stChan fun e => { e with up := true }).partner 0 = none ∧ (stChan fun e => { e with up := true }).isPaired 0 = false) ∧
      sendCmd.got.headD 0 + 2 ^ 26 ≤ 2 ^ 26) ∧
    (((stChan id).coreAt (0x41 : BitVec 8).toNat).running = false ∧ ((stChan id).coreAt (0x40 : BitVec 8).toNat).running = true) ∧
    (let s : State := { st with sched := { st.sched with bars := [⟨1, 1, .pod, 0, 0, false, 0, [], [], [], [], 0, none, true, false, false⟩] } };
     let s := s.modT fun t => { t with id := { t.id with podg := 1 } };
     (s.sched.bars.map fun r => (r.sc, r.podg)) = [(.pod, 1)] ∧ s.core.running = true ∧ s.core.t.id.podg = 1)) ∧
    (let s := stChan fun e => { e with a := 2, cred := 0 };
     flitOwner s (.credit 0 s.core.phys 1) = some 0x025 ∧ flitOwner s (.paired 0 s.core.phys 1) = some 0x025 ∧
     flitOwner s (.tile 0 s.core.phys 0 1 64 [] []) = some 0x025 ∧ flitOwner s (.credit 0 0x41 1) = none ∧ s.keyOk 1 0x025 = false ∧
     s.keyOk 0 0x025 = true ∧ (s.ch 0).cred.getLsbD ((s.ch 0).ss.toNat % 4) = false ∧
     ((s.halt false false).coreAt s.core.phys.toNat).health.halted = true ∧ flitOwner (s.halt false false) (.tile 0 s.core.phys 0 1 64 [] []) = some 0x025) ∧
    (∀ td ∈ [(5 : Word), 6], ∀ code ∈ [(0 : BitVec 8), 0x22],
      let s := stColl td 0 code;
      let l := s.colls.filter fun c => (c.ph = 0 || c.ph = 4) && c.code ≠ 0x21;
      l.find? (fun c => c.phys = s.core.phys && c.k = 3 && c.ph = 0 && c.code = 0) = some (testColl 0 0 5 0) ∧ (testColl 0 0 5 0).isCut s = false ∧
      collLinked s l [] (256 * l.length + 2) [testColl 0 0 5 0] [] = some [testColl 0 0 5 0, { testColl 1 0x40 td 0 with code := code }]) ∧
    (let s : State := { stColl 5 0 0 with plat := { (stColl 5 0 0).plat with revoked := [0], podid := 3 } };
     s.colls.find? (fun c => c.phys = s.core.phys && c.k = 3 && c.ph = 0 && c.code = 0) = some (testColl 0 0 5 0) ∧ (testColl 0 0 5 0).isCut s = true) ∧
    (let s := stColl 5 3 0;
     s.colls.find? (fun c => c.phys = s.core.phys && c.k = 3 && c.ph ≠ 4) = some (testColl 0 0 5 3) ∧ collHeld s (testColl 0 0 5 3) = false ∧
     collHeld (s.modC fun c => { c with stopped := true }) (testColl 0 0 5 3) = true ∧ (s.ctx 0x025).clogb = 0 ∧ s.core.running = true ∧
     s.core.t.id.uid = 1 ∧ (∀ d, d ∈ s.colls → d.uid = 1 → d.n = 0 → d = testColl 0 0 5 3) ∧
     ∀ x, x ∈ s.tasks → x.1.id.uid = 1 → x.1.toks.canPush .store noTok = true) := by
  refine ⟨lists (by decide +kernel), rfl, by decide +kernel, by decide +kernel, by decide +kernel, ?_, by decide +kernel, by decide +kernel⟩
  intro td htd code hc
  simp only [List.mem_cons, List.not_mem_nil, or_false] at htd hc
  rcases htd with rfl | rfl <;> rcases hc with rfl | rfl <;> decide +kernel

/-- The test machine with ring 2 of two records in host memory, the first a good one (or, with zeros, a faulty one). -/
def stRing (rec : List Byte) : State :=
  { st with host := { st.host with
      hrsize := st.host.hrsize.set 2 1, hrbase := st.host.hrbase.set 2 0x1000, tail := st.host.tail.set 2 1, mem := writeBytes [] 0x1000 rec } }

/-- A machine with the window of context 0x025 on the GiB of one TLB entry. -/
def stWin (s : State) : State := { stBig s with host := { s.host with winctx := 0x1025 } }

/-- A ring with its tail at its size and one beyond it; a faulty record and a good one; a window of context 0x025; a stack of the last number. -/
theorem witness_HostInterface :
    (let h := (stRing []).host; ringSize h 2 ≠ 0 ∧ (2#32 - h.head[(2 : BitVec 2).toNat]).toNat ≤ ringSize h 2 ∧
      ¬(3#32 - h.head[(2 : BitVec 2).toNat]).toNat ≤ ringSize h 2 ∧ ringSize h 1 = 0) ∧
    ((stRing []).ringReady 2 = true ∧ launchOk ((stRing []).ringRecord 2) none = false ∧ (stRing []).ringReady 1 = false) ∧
    (let s := stRing (testRecord false);
     s.ringReady 2 = true ∧ launchOk (s.ringRecord 2) none = true ∧ (s.ctx (lrCtx (s.ringRecord 2))).rrctl.extractLsb' 0 2 = 0 ∧
     s.poolUsed < Config.poolRecords ∧ (let c := { s with sched := { s.sched with launches := .replicate 8192 testLaunch } }; c.noRoom 0x025 2 = true)) ∧
    st.host.winctx.getLsbD 12 = false ∧ (2 ^ 36 < (0x1000000000#64).toNat + 1 ∧ st.plat.fwOk = true ∧ stNoFw.plat.fwOk = false) ∧
    (let s := stWin stM;
     s.plat.fwOk = true ∧ s.host.winctx.getLsbD 12 = true ∧ s.host.winctx.extractLsb' 0 12 = 0x025#12 ∧ (0x40002000#64).toNat + 64 ≤ 2 ^ 36 ∧
     (translate s 0x025 0x40002000 .r false).2.toOption = some ⟨0x200002000, 0x2000000AF, 2⟩ ∧
     (translate s 0x025 0x40002000 .w false).2.toOption = some ⟨0x200002000, 0x2000000AF, 2⟩ ∧ errOf (translate s 0x025 0x1000 .w false).2 = some (cPAGE, 3) ∧
     (s.ctx 0x025).rrctl.extractLsb' 0 2 ≠ 1 ∧ s.plat.hbmMap = [] ∧ s.mem.comp = []) ∧ (stWin stM).MemOk ∧
    (∃ s1, translate (stWin stComp) 0x025 0x40002000 .w false = (s1, .ok ⟨0x200002000, 0x2000000AF, 2⟩) ∧ s1.store 0x025 0x200002000 (leBytes 8 7) = .error 0x0C) ∧
    st.MemOk ∧ (0x78#16).toNat = 32 * (3 : BitVec 2).toNat + 24 ∧ (0x160#16).toNat ≥ 0x160 ∧ st.host.evheld = [] ∧ st.host.busy = false ∧
    (let s : State := { st with host := { st.host with busy := true, attbuf := 0x2000 } };
     s.host.busy = true ∧ s.host.attbuf ≠ 0 ∧ s.host.attbuf.toNat % 4096 = 0 ∧ (0x2001#64).toNat % 4096 ≠ 0) ∧
    (12 ≤ (12#4).toNat ∧ (11#4).toNat < 12 ∧ Sparse.get 0 st.plat.hbmMap 11 ||| 0#16 = Sparse.get 0 st.plat.hbmMap 11 ∧
      Sparse.get 0 st.plat.hbmMap 11 ||| 1#16 ≠ Sparse.get 0 st.plat.hbmMap 11) ∧ (1 : BitVec 12) ≠ st.cid :=
  ⟨by decide +kernel, by decide +kernel, by decide +kernel, by decide +kernel, by decide +kernel, by decide +kernel, stM_mem,
   ⟨_, translated (by decide +kernel), store_full stComp (ctx := 0x025) (by decide +kernel) (by decide +kernel) rfl rfl (by decide +kernel) (by decide +kernel) (by decide +kernel) _⟩,
   stM_mem, by decide +kernel⟩

/-- Context 0x025 in replay mode with a log of two or four entries in the page at address 0; its first entry of a kind. -/
def stLog (kind : Nat) (n : Word) : State :=
  let s := st.homeWrite 0 (leBytes 1 kind ++ leBytes 1 8 ++ List.replicate 14 0 ++ leBytes 8 0x8080605F00 ++ List.replicate 40 0)
  { s with ctxs := [(0x025, { s.ctx 0x025 with rrctl := 2, rrbase := 0x8080609000 + n })] }

/-- A package without power; a quad that is held and one that is not; a bank with a unit and an empty one; a declared interval of one rotation and one
of none; a logged host write and a logged launch. -/
theorem witness_PowerMonitorsAndReplay :
    (let s : State := { st with powered := false };
     s.powered = false ∧ s.agenda = [] ∧ ({ s with agenda := [.control] } : State).agenda = .control :: [] ∧ ∀ img, Move.control ≠ .event (.powerOnBoot img)) ∧
    (let s : State := { st with plat := { st.plat with thermal := [3] } }; (3#6).toNat ∈ s.plat.thermal ∧ (4#6).toNat ∉ s.plat.thermal) ∧
    ((st.tmode 0).getLsbD 0 = false ∧ ({ st with mem := { st.mem with tmode := [(0, 1)] } } : State).tmode 0 = 1) ∧
    (Sparse.get 0 st.sched.rfbank 383 = 0 ∧ 0 < Sparse.get 0 [(383, 1)] 383) ∧
    (let s : State := { (st.modT fun t => { t with id := { t.id with plumb := true } }).modC (fun c => { c with rfUntil := 1024 }) with now := 1024 };
     slotsBefore s.core.phys.toNat (min s.now s.core.rfUntil) - slotsBefore s.core.phys.toNat s.core.rfFrom = 1 ∧ s.core.t.id.plumb = true ∧
     Sparse.wf 0 s.sched.rfbank = true ∧ slotsBefore 0 0 - slotsBefore 0 0 = 0 ∧ 0 < Sparse.get 0 ({ st with sched := { st.sched with rfbank := [(383, 1)] } } : State).rfCredit.sched.rfbank 383 ∧
     Sparse.get 0 st.rfCredit.sched.rfbank 383 = 0) ∧
    st.replayDue = none ∧ st.replayCtx 1 = none ∧
    ((stLog 2 1).replayDue = some 0x025 ∧ (stLog 2 1).mem.comp = [] ∧ ((stLog 2 1).rrTake 0x025 2).isSome = true ∧
      ((stLog 2 1).rrTake 0x025 2).map (fun p => fld p.2 16 8) = some 0x8080605F00 ∧
      (translate (stLog 2 1) 0x025 0x8080605F00 .w false).2.toOption = some (xDir 0xF00)) ∧ (stLog 2 1).MemOk ∧
    ((stLog 1 2).replayCtx 1 = some 0x025 ∧ ((stLog 1 2).rrTake 0x025 1).map (·.1) = some 0 ∧ ((stLog 1 2).rrRead 0x025 1).isSome = true ∧
      ((stLog 1 2).rrRead 0x025 2).isSome = true ∧
      (stLog 1 2).poolUsed < Config.poolRecords ∧ ((stLog 1 2).ctx 0).rrctl.extractLsb' 0 2 = 0) ∧ (stLog 1 2).MemOk :=
  ⟨⟨rfl, rfl, rfl, fun _ h => by cases h⟩, by decide +kernel, by decide +kernel, by decide +kernel, by decide +kernel, rfl, rfl,
   by decide +kernel, ⟨by decide +kernel, by decide +kernel, by decide +kernel⟩, by decide +kernel,
   ⟨by decide +kernel, by decide +kernel, by decide +kernel⟩⟩

/-! ### Witnesses of the clauses on bundles and on what engine commands compute -/

/-- The program of `runCmd` with its next bundle in the vector code cache: v1, v2 and v3 hold I32, v4 E4M3 elements; a1 is the direct page, LC1 is 1. -/
def stVec (b : BitVec 256) : State :=
  let v (f : BitVec 4) : VReg := ⟨0x00000005FFFFFFFE, f.setWidth 16, 0, 0⟩
  ((((stRun []).setV 1 (v 2)).setV 2 (v 2)).setV 3 (v 1)).setV 4 (v 4) |>.modVec (fun x => { x with a := x.a.set 1 0x8080605000 })
    |>.modR (fun r => { r with lc := r.lc.set 1 1 })
    |>.modC fun c => { c with vcache := [(0x200002200 / 128, b.setWidth 1024)] }

/-- A bundle of stage `g` with one slot, of M, A, B and C. -/
def bundle (n g w : Nat) : BitVec 256 := BitVec.ofNat 256 (2 ^ n + 32 * g + w * 2 ^ (16 + 64 * n))
def abW (opc fn vb vc f imm : Nat) : Nat := opc + 5 * 2 ^ 7 + 2 ^ 13 + vb * 2 ^ 19 + vc * 2 ^ 25 + f * 2 ^ 36 + imm * 2 ^ 44 + fn * 2 ^ 60
def msW (opc spc ar tag : Nat) : Nat := opc + 2 ^ 7 + spc * 2 ^ 13 + ar * 2 ^ 15 + tag * 2 ^ 40
def csW (opc d a b f fn imm : Nat) : Nat := opc + d * 2 ^ 6 + a * 2 ^ 12 + b * 2 ^ 18 + f * 2 ^ 24 + fn * 2 ^ 28 + imm * 2 ^ 32

/-- The bundle of the program at its first instruction is fetched, and it is well formed. -/
def readyB (b : BitVec 256) : Bool :=
  let s := stVec b
  enginesRun s && s.running == some runCmd && s.core.t.q.compute == [runCmd] && s.vec.pend.isEmpty && !s.vec.fpx && !bundleIllop b &&
  (fetchBundle 0x8080605200 s).toOption.map (fun p => p.1 == b) == some true

theorem bundle_ready {b : BitVec 256} (h : readyB b = true) : ∃ s1, BundleReady (stVec b) s1 runCmd b := by
  simp only [readyB, Bool.and_eq_true, beq_iff_eq, Bool.not_eq_true', List.isEmpty_iff] at h
  obtain ⟨⟨⟨⟨⟨⟨hr, hc⟩, hq⟩, hv⟩, hx⟩, hb⟩, hf⟩ := h
  cases he : fetchBundle 0x8080605200 (stVec b) with
  | error e => rw [he] at hf; simp [Except.toOption] at hf
  | ok p =>
    rw [he] at hf
    have e : p.1 = b := by simpa [Except.toOption] using hf
    refine ⟨p.2, hr, hc, ?_, ⟨rfl, by decide, hx⟩, ?_, ?_, hb⟩
    · rw [hq]; intro c hc _; simpa using hc
    · rw [hv]; simp
    · show fetchBundle 0x8080605200 (stVec b) = _
      rw [he, ← e]

/-- Bundles of one slot: of the A and B slots each shape, without faults. -/
def bundlesAB : List (Nat × BitVec 256) :=
  [(1, 1, 0, 2, 0, 2, 0), (1, 4, 3, 2, 1, 2, 0), (2, 0xB, 1, 2, 0, 2, 0), (1, 0xC, 2, 2, 0, 2, 0), (2, 0xD, 0, 2, 0, 2, 0), (1, 0xE, 0, 0, 0, 2, 3)].map
    fun x => (x.1, bundle x.1 0 (abW x.2.1 x.2.2.1 x.2.2.2.1 x.2.2.2.2.1 x.2.2.2.2.2.1 x.2.2.2.2.2.2))

/-- An empty bundle, and one whose stage is off; A and B slots, and one whose tags differ; VLD of AB, VST to it and a global VLD; each C operation; VLOOP that
ends, that loops, and that leads out of range. -/
theorem witness_FetchAndVectorEvents_bundles :
    ((∃ s1, BundleReady (stVec 0) s1 runCmd 0) ∧ ∀ n, n < 4 → bPres 0 n = false) ∧
    (let b := bundle 1 1 (abW 1 0 2 0 2 0); (∃ s1, BundleReady (stVec b) s1 runCmd b) ∧ ¬ stageOn (stVec b) b ∧ bPres b 3 = false) ∧
    (∀ x ∈ bundlesAB, let s := stVec x.2; let w := if x.1 = 1 then slotA x.2 else slotB x.2
      (∃ s1, BundleReady s s1 runCmd x.2) ∧ stageOn s x.2 ∧ (x.1, w) ∈ [(1, slotA x.2), (2, slotB x.2)] ∧ onlySlot x.2 x.1 ∧ abFaults s w = []) ∧
    (let b := bundle 1 0 (abW 1 0 4 0 2 0); (∃ s1, BundleReady (stVec b) s1 runCmd b) ∧ stageOn (stVec b) b ∧ onlySlot b 1 ∧ abFaults (stVec b) (slotA b) ≠ []) ∧
    (∀ m ∈ [msW 1 0 0 2, msW 2 0 0 0, msW 1 2 1 2], let b := bundle 0 0 m; let s := stVec b
      (∃ s1, BundleReady s s1 runCmd b) ∧ stageOn s b ∧ onlySlot b 0 ∧ mFaults s (msOf (slotM b)) = [] ∧ slotsOf s.core.t = [] ∧
      Sparse.rising s.core.buf.ab = true ∧ Sparse.rising s.core.t.spill = true) ∧
    (let b := bundle 0 0 (msW 1 2 1 2); let s := (stVec b).asRouted runCmd; ∃ ps u, mRun s (msOf (slotM b)) s = .ok (ps, u)) ∧
    (∀ c ∈ [csW 1 5 1 1 0 0 0, csW 2 5 1 0 0 0 7, csW 2 5 0 0 2 1 7, csW 2 5 1 0 2 2 0, csW 3 1 0 0 0 1 9, csW 5 5 1 2 0 0 0], let b := bundle 3 0 c; let s := stVec b
      (∃ s1, BundleReady s s1 runCmd b) ∧ stageOn s b ∧ onlySlot b 3 ∧ cFaults s (slotC b) = []) ∧
    (∀ x ∈ [(0, 1, false, true), (1, 1, true, true), (1, 0xFFFF, true, false)], let b := bundle 3 0 (csW 4 x.1 0 0 2 0 x.2.1)
      (∃ s1, BundleReady (stVec b) s1 runCmd b) ∧ onlySlot b 3 ∧
      (let c := csOf (slotC b); let s := stVec b
       c.opc = 4 ∧ (((s.vec.sp <<< 1) ||| (if s.core.t.regs.lc[(c.d.extractLsb' 0 2).toFin] = 0 then 0 else 1)).toNat % 2 ^ c.f4.toNat != 0) = x.2.2.1 ∧
       decide (0 ≤ (runCmd.upc : Int) + c.imm.toInt ∧ (runCmd.upc : Int) + c.imm.toInt < 65536) = x.2.2.2)) := by
  refine ⟨⟨bundle_ready (by decide +kernel), by decide⟩, ⟨bundle_ready (by decide +kernel), by decide +kernel⟩, ?_, ⟨bundle_ready (by decide +kernel), by decide +kernel⟩, ?_, ?_, ?_, ?_⟩
  · intro x hx
    have h : ∀ x ∈ bundlesAB, readyB x.2 = true := by decide +kernel
    exact ⟨bundle_ready (h x hx), by revert x; decide +kernel⟩
  · intro m hm
    have h : ∀ m ∈ [msW 1 0 0 2, msW 2 0 0 0, msW 1 2 1 2], readyB (bundle 0 0 m) = true := by decide +kernel
    exact ⟨bundle_ready (h m hm), by revert m; decide +kernel⟩
  · obtain ⟨ps, u, h, -⟩ := answered (r := mRun ((stVec (bundle 0 0 (msW 1 2 1 2))).asRouted runCmd) (msOf (slotM (bundle 0 0 (msW 1 2 1 2))))
      ((stVec (bundle 0 0 (msW 1 2 1 2))).asRouted runCmd)) (fun _ => true) (by decide +kernel)
    exact ⟨ps, u, h⟩
  · intro c hc
    have h : ∀ c ∈ [csW 1 5 1 1 0 0 0, csW 2 5 1 0 0 0 7, csW 2 5 0 0 2 1 7, csW 2 5 1 0 2 2 0, csW 3 1 0 0 0 1 9, csW 5 5 1 2 0 0 0], readyB (bundle 3 0 c) = true := by
      decide +kernel
    exact ⟨bundle_ready (h c hc), by revert c; decide +kernel⟩
  · intro x hx
    have h : ∀ x ∈ [(0, 1, false, true), (1, 1, true, true), (1, 0xFFFF, true, false)], readyB (bundle 3 0 (csW 4 x.1 0 0 2 0 x.2.1)) = true := by decide +kernel
    exact ⟨bundle_ready (h x hx), by revert x; decide +kernel⟩

/-- A command as an engine runs it from its first element. -/
def engCmd (i : Instr) (ds : List Desc) (vals : List Word) : Cmd := { testCmd i vals with descs := ds, issued := true }

/-- A tile of WB (space 0), AB (1) or CB (2), row by row, with its scales in place at `spb`. -/
def tileOf (sp tag base rows cols stride : Nat) (spb : Nat := 0) : Desc :=
  BitVec.ofNat 256 (sp + (if spb = 0 then 0 else 32) + tag * 2 ^ 16 + base * 2 ^ 32 + rows * 2 ^ 96 + cols * 2 ^ 112 + stride * 2 ^ 128 + spb * 2 ^ 160)

/-- Whether a command runs to its end. -/
def endsB (s : State) (k : Cmd) : Bool := (performFwd k s).stop.isNone

theorem ends_of {s : State} {k : Cmd} (h : endsB s k = true) : (performFwd k s).stop = none := Option.isNone_iff_eq_none.mp h

/-- The fields of LNX and LNR for two dimensions of 1 and 4 elements. -/
def lnF (vop : BitVec 7) : LnFields := ⟨false, 0, 0, 0, 1, 2, false, .rne, 0, vop, ⟨3, 1, 0, 0, 0⟩, ⟨1, 4, 0, 0, 0⟩, ⟨1, 4, 0, 0, 0⟩, ⟨1, 4, 0, 0, 0⟩⟩

/-- FP32 and FP16 tiles of zeros, one of weights with scales, spectral ones of FP32 and FP16, and a table of two rows at the direct page. -/
def t32 (base cols : Nat) : Desc := tileOf 1 8 base 2 cols 256
def t16 (base cols : Nat) : Desc := tileOf 1 6 base 2 cols 256
def w8 : Desc := tileOf 1 9 4096 32 1 64 8192
def sp32 (e : Nat) : Desc := tileOf 1 (8 + 16 + e * 2048) 0 2 32 256
def sp16 (space base e : Nat) : Desc := tileOf space (6 + 16 + e * 2048) base 2 32 256
def table : Desc := tileOf 3 8 0x8080605000 2 4 16

/-- The forms of an engine that run to their end, with descriptors and captured values. -/
def engRuns : List (Instr × List Desc × List Word) :=
  let ds := [t32 0 4, t16 4096 4]
  [(.cvt noTok 0 1 .rne false 6 8, ds, []), (.cvts noTok 0 1 2 3 false 8 6, [t16 0 4, t32 4096 4], [7, 9]), (.scalex noTok .rne 0 1 3, [t16 0 4, t16 4096 4], []),
   (.dqw noTok 0 1 .rne 9 7, [tileOf 1 7 0 32 1 64, w8], []), (.qntw noTok 0 1 .rne 6 9, [w8, tileOf 1 6 16384 32 1 64], []),
   (.lnx noTok 0 1 2 (lnF 1), [t16 0 4, t16 4096 4, t16 8192 4], []), (.lnr noTok 0 1 2 { lnF 1 with dst := ⟨0, 1, 0, 0, 0⟩ }, [t32 0 4, t16 4096 4, t16 8192 4], []),
   (.copyIn noTok .ab 1 2 3 0 ⟨0, false, false, 2⟩, [], [0, 0x8080605000, 0]), (.copyOut noTok .ab 1 2 3 0 ⟨0, false, false, 2⟩, [], [0, 0x8080605000, 0]),
   (.fillIn noTok .ab 1 2 2, [], [0, 7]), (.fillOut noTok 1 2 3 0 2, [], [0x8080605000, 7, 0]),
   (.gthr noTok .ab 1 2 3 4 5 16, [table], [0, 0x8080605F00, 2, 0]), (.sctr noTok .ab 1 2 3 4 5 16, [table], [0, 0x8080605F00, 2, 0]),
   (.cmpx noTok false 1, [], [0x8080605000]),
   (.mzeroCb noTok false 0, [tileOf 2 0xB 231000 1 2 14], []), (.mst noTok 0 false false false .rne 6 0 0, [t16 0 4], []), (.mst noTok 0 true true false .rne 6 0 0, [t16 0 4], []),
   (.mma noTok false false false 0 1 2 7, [t16 0 4, tileOf 0 7 0 4 2 64], []),
   (.mcks noTok false false false 0 1 2 7, [t16 0 4, tileOf 0 7 0 4 2 64], []), (.mfix noTok false, [], []), (.mckv noTok false false 64, [], []),
   (.sxf noTok 0 1, [sp32 4, t16 4096 32], []), (.sxi noTok 0 1, [t32 0 32, sp16 1 4096 3], []), (.scmul noTok true 0 1 2, [sp32 7, sp16 1 4096 4, sp16 0 0 3], []),
   (.sconj noTok 0 1, [sp32 4, sp32 4], []), (.sdom noTok 0 1 2, [sp32 4, sp32 4, tileOf 0 6 0 1 9 256], []), (.sexp noTok 0 1 6, [sp16 1 0 6, sp16 1 4096 4], []),
   (.scmac noTok false 0 1 ⟨true, true, false, false, false, 1, 4, 8, 2⟩, [sp16 1 0 3, tileOf 0 (6 + 16 + 4 * 2048) 0 2 48 128], []), (.gzero noTok 0, [tileOf 1 (6 + 64) 0 2 4 64], [])]

/-- The test machine with an armed accumulator and the direct page in an aperture. -/
def stEng : State :=
  { st.modAcc false (fun a => { a with wtag := accTag, vtag := accTag, chk := Check.armed }) with plat := { st.plat with expap := [(0, 16)] } }

/-- The check has found an entry. -/
def stLoc : State := stEng.modAcc false fun a => { a with chk := { a.chk with loc := true } }

/-- An RPUSH in a block. -/
def pushCmd (i : Instr) (ds : List Desc) : Cmd := { engCmd i ds [] with blk := some ⟨0x12, 1, false, false, 1, testBlock.g, false⟩ }

theorem engRuns_end : (engRuns.all fun x => endsB stEng (engCmd x.1 x.2.1 x.2.2)) = true := by decide +kernel

/-- Each of them ends; the check may have been disarmed or may have found an entry, or not; an RPUSH of a tile and of spill memory. -/
theorem witness_EngineCommandsPerform_forms :
    (∀ x ∈ engRuns, let k := engCmd x.1 x.2.1 x.2.2; k.kind = .fwd ∧ k.blk = none ∧ k.upc = 0 ∧ (performFwd k stEng).stop = none) ∧
    (Sparse.rising (stEng.acc false).work = true ∧ stEng.core.buf.cbPois = [] ∧ Sparse.rising stEng.core.t.spill = true ∧ Sparse.rising stEng.mem.comp = true ∧
     Sparse.rising (stEng.acc false).chk.pr = true ∧ Sparse.rising (stEng.acc false).chk.pc = true ∧ Sparse.rising (stEng.acc false).chk.mr = true ∧
     Sparse.rising (stEng.acc false).chk.mc = true) ∧
    ((stEng.acc false).chk.loc = false ∧ (stEng.acc false).chk.arm = true ∧ (st.acc false).chk.arm = false ∧ (stLoc.acc false).chk.loc = true) ∧
    ((performFwd (engCmd (.mckv noTok false false 64) [] []) st).stop = none ∧ (performFwd (engCmd (.mfix noTok false) [] []) stLoc).stop = none) ∧
    ((performFwd (pushCmd (.rpush noTok 1) [t16 0 4]) stEng).stop = none ∧ (performFwd (pushCmd (.rpushSpl noTok 0 0) []) stEng).stop = none) :=
  ⟨fun x hx => ⟨rfl, rfl, rfl, ends_of (List.all_eq_true.mp engRuns_end x hx)⟩, by decide +kernel, by decide +kernel, ⟨ends_of (by decide +kernel), ends_of (by decide +kernel)⟩,
   ends_of (by decide +kernel), ends_of (by decide +kernel)⟩

/-! ### Witnesses of further clauses -/

/-- The test machine in plumb mode within a declared interval, with a dirty byte. -/
def stHold : State := (stM.modC fun c => { c with rfUntil := 64 }).modT fun t =>
  { t with id := { t.id with plumb := true }, view := { t.view with dirty := [(0x200001010, 5)] } }

/-- A request, a dirty byte and the pages of an image that are held, and none; a compressed block beside the line. -/
theorem witness_held_requests :
    (stHold.noBlock ∧ stHold.heldDirty (fun _ => true) = true ∧ stM.heldDirty (fun _ => true) = false ∧ stHold.rfHeld 0x200001010 = true ∧
     (translate stHold 0x025 (stHold.S 5) .r true).2.toOption = some (xPh 0x10) ∧ stHold.core.t.phase = .idle) ∧
    (let s := sys (stHold.modY fun y => { y with inTrap := true });
     pagesHeld (s.S 4) .w (imagePages 0x700 false) s = true ∧ pagesHeld (s.S 4) .r [0] s = true ∧ pagesHeld (stX.S 4) .w (imagePages 0x700 false) stX = false ∧
     pagesHeld (stX.S 4) .r [0] stX = false ∧ (s.core.t.id.plumb && s.rfOpen) = true ∧ (stX.core.t.id.plumb && stX.rfOpen) = false) ∧
    (stComp.mem.comp ≠ [] ∧ Sparse.find stComp.mem.comp ((xPh 0x10).pa / 512) = none) :=
  ⟨⟨rfl, by decide +kernel⟩, by decide +kernel, by decide +kernel⟩

/-- The reserved mode of RRCTL and another one; a map that stands in order. -/
theorem witness_SystemRegisterWrites_limits :
    ((stS [(1, 3)]).S 1).extractLsb' 0 2 = (3 : BitVec 2) ∧ ((stS [(1, 6)]).S 1).extractLsb' 0 2 ≠ (3 : BitVec 2) ∧ Sparse.rising (sys st).plat.hbmMap = true := by
  decide +kernel

/-- Two cores of the package with TLBs and both dies' walk caches: entries that a noted TLBI names and one that it does not. -/
theorem witness_InvalidationAndFence_scopes :
    (quadSpans .quad 0 0 = true ∧ quadSpans .quad 0 1 = false ∧ quadSpans .die 0 1 = true ∧ dieSpans .die 0 0 = true ∧ dieSpans .die 0 1 = false ∧
     dieSpans .pkg 0 1 = true) ∧
    (⟨some 0x025, some 0x40002000⟩ : Tlbi).hits bigE = true ∧ (⟨some 0x026, none⟩ : Tlbi).hits bigE = false := by decide +kernel

/-- A command that is done behind one whose push is held, which has room and which has none; a done COLL. -/
theorem witness_CommandsComplete_later :
    (let k := doneHead (.trvlIn ⟨true, false, false, false⟩ 0 1 0 0);
     let c (b : Tok) : Cmd := { doneHead (.trvlIn b 0 1 0 0) with num := 2 };
     let s (b : Tok) := st.modT fun t => { t with q := { t.q with load := [k, c b] }, toks := { t.toks with lc := 63 } };
     (s noTok).core.t.toks.canPush .load (pushTok k) = false ∧ (s noTok).core.t.q.get .load = k :: ([] ++ c noTok :: []) ∧
     (c noTok).done = true ∧ (c noTok).fault = none ∧ (c noTok).blk = none ∧ (s noTok).core.t.toks.canPush .load (pushTok (c noTok)) = true ∧
     (s k.tok).core.t.toks.canPush .load (pushTok (c k.tok)) = false ∧ (c noTok).num ≠ k.num) ∧
    (pushTok (doneHead (.trvlIn ⟨true, false, false, false⟩ 0 1 0 0)) = ⟨true, false, false, false⟩) := by decide +kernel

/-- A walk with an entry in HBM4, with one in CXL memory, and with one that would not fit in AB. -/
def stRefill (h c absz : Word) : State := (sys stM).modT fun t =>
  { t with prv := false, walk := { t.walk with active := true }, rcfg := ⟨0x180000, absz, 0x8080605000, 2048, 0x8080605800, 2048⟩, rstk := ⟨128, h, c, 1, [128]⟩ }

/-- What a refill reads and charges, and where it writes. -/
def refills (s : State) (src n : Nat) (d e : Int) : Bool :=
  match segsRead false (stackSegs s.core.t src 0 n) s with
  | .ok (bs, s1) => bs.length == n && !bs.any (·.fail) && (match echarge d e s1 with
    | .ok (_, s2) => Sparse.rising s2.core.buf.ab && (src == 1 || (segsWrite false (stackSegs s.core.t 1 0 n) bs s2).toOption.isSome)
    | .error _ => false)
  | .error _ => false

/-- Each move of a refill, and one that the AB region has no room for. -/
theorem witness_ResidualStackRegisters_refill :
    (let s := stRefill 128 0 4096;
     enginesRun s = true ∧ s.core.t.walk.active = true ∧ s.core.t.id.plumb = false ∧ (∀ x ∈ s.core.t.rstk.ents, 0 < x) ∧
     s.core.t.rstk.ents.sum = s.core.t.rstk.t.toNat ∧ s.core.t.rstk.ents = [] ++ 128 :: [] ∧ s.core.t.rstk.h.toNat = s.core.t.rstk.t.toNat - [].sum ∧
     s.core.t.rstk.c ≠ s.core.t.rstk.h ∧ s.core.t.rstk.t.toNat - (s.core.t.rstk.h.toNat - 128) ≤ s.core.t.rcfg.absz.toNat ∧ refills s 1 128 (-2) 0 = true) ∧
    (let s := stRefill 128 128 4096;
     s.core.t.rstk.c = s.core.t.rstk.h ∧ s.core.t.rstk.c.toNat = s.core.t.rstk.t.toNat - [].sum ∧
     s.core.t.rstk.h.toNat - (s.core.t.rstk.c.toNat - 128) ≤ s.core.t.rcfg.hbmsz.toNat ∧ refills s 2 128 2 (-2) = true) ∧
    (let s := stRefill 128 0 64; s.core.t.rcfg.absz.toNat < s.core.t.rstk.t.toNat - (s.core.t.rstk.h.toNat - 128)) ∧
    (let s := (stRefill 128 0 4096).modT fun t => { t with rcfg := ⟨0x180000, 4096, 0x8080607000, 2048, 0, 0⟩ };
     (moveEntry 0 128 1 0 s).toOption.isNone = true) := by decide +kernel

/-- A block that is open, one that may not begin here, a poisoned s0 and a poisoned descriptor. -/
theorem witness_BlocksAndReverseWalk_misplaced :
    (granuleOf st.core.t.pc = 1 ∧ st.core.lineKind = 0 ∧ (∀ r : Reg, st.core.t.regs.poisS r = false) ∧ st.core.t.regs.dpois = 0) ∧
    (∀ r : Reg, (stB0.modR fun x => { x with spois := 1 }).core.t.regs.poisS r = false) ∧
    ((stB0.modR fun x => { x with spois := 4 }).core.t.regs.poisS 2 = true ∧ (stB0.modR fun x => { x with dpois := 8 }).core.t.regs.dpois ≠ 0) := by decide +kernel

/-- A ring and a pool that are full, and a parent record with the greatest count. -/
theorem witness_LaunchJoinAndEnd_answers :
    (let s : State := { stL with sched := { stL.sched with launches := .replicate 8192 testLaunch } };
     s.noRoom 0x025 1 = true ∧ stL.noRoom 0x025 1 = false ∧ stL.heldDirty (fun _ => true) = false) ∧
    (let s := stL.homeWrite (0x200002140 + 24) (leBytes 4 0x7FFFFFFF); s.homeLe (0x200002140 + 24) 4 % 2 ^ 31 = 2 ^ 31 - 1) ∧
    (let s := (translate stLC 0x025 (stL.S 4) .r true).1;
     (joinTarget 0x8080605140 s).toOption.map (·.1) = some (some 0x200002140) ∧ (joinTarget 0 s).toOption.map (·.1) = some none ∧
     lrPrio (s.homeBytes 0x200002080 128) = 1) := by decide +kernel

/-- A BARAW whose wait stands; a member that has arrived elsewhere. -/
theorem witness_BarrierInstructions_waits :
    (let s := ((stBar fun r => { r with broken := true }).modT fun t => { t with barw := some (t.pc, 3) });
     s.core.t.barw = some (s.core.t.pc, 3) ∧ 3 ≤ (s.myBar .pkg 1).ph ∧ (s.myBar .pkg 1).broken = true) ∧
    (let s := (stBar fun r => { r with ph := 2 }).modT fun t => { t with barw := some (t.pc, 3) }; (s.myBar .pkg 1).ph < 3) ∧
    (let s := (stBar fun r => { r with arrived := [1] }); s.core.t.barw = none ∧ 1 ∈ (s.myBar .pkg 1).arrived ∧ 1 ∈ (s.myBar .pkg 1).members) ∧
    ((stBar fun r => { r with leaving := [1] }).myBar .pkg 1).leaving = [1] := by decide +kernel

/-- A trap that the checker has agreed to, and one that it has not; a halted core and one that is not. -/
theorem witness_TrapsAndReturns_checked :
    (st.modC fun c => { c with epend := [testFault], hold := some true }).core.hold = some true ∧ (st.modC fun c => { c with epend := [testFault] }).core.hold ≠ some true ∧
    (stTrap.core.running = true ∧ stTrap.core.t.sys.inTrap = true ∧ stTrap.core.health.halted = false ∧ stTrap.core.copying = false) ∧
    Sparse.rising st.core.t.acc0.work = true := by decide +kernel

/-- A port that is down; the flit before the 32nd bad one and that one; a core of another package that is lost; a paired end. -/
theorem witness_ChannelAndCollectiveEvents_ports :
    (let s : State := { st with plat := { st.plat with linkDown := [3], badFlits := [(4, 31), (5, 7)] } };
     setHas s.plat.linkDown (3 : BitVec 4).toNat = true ∧ setHas s.plat.linkDown (4 : BitVec 4).toNat = false ∧
     Sparse.get 0 s.plat.badFlits (4 : BitVec 4).toNat + 1 = 32 ∧ Sparse.get 0 s.plat.badFlits (5 : BitVec 4).toNat + 1 ≠ 32) ∧
    (let s := stChan (chFar (some 1)); (2 : BitVec 8).toNat ≠ s.pkg ∧ (s.ch 0).conf = true ∧ (s.ch 0).pkg = (2 : BitVec 8).toNat ∧
      flitOwner s (.released 0 s.core.phys) = some 0x025 ∧ s.keyOk 0 0x025 = true) ∧
    (let s := stColl 5 0 0x22;
     let l := s.colls.filter fun c => (c.ph = 0 || c.ph = 4) && c.code ≠ 0x21;
     (lostColls l l.length [testColl 0 0 5 0]).any (·.code = 0x22) = true ∧ (testColl 0 0 5 0).group = 0 ∧ s.colls.filter (· = testColl 0 0 5 0) = [testColl 0 0 5 0]) ∧
    (let s := stColl 5 0 0;
     let l := s.colls.filter fun c => (c.ph = 0 || c.ph = 4) && c.code ≠ 0x21;
     (lostColls l l.length [testColl 0 0 5 0]).any (·.code = 0x22) = false) := by decide +kernel

/-- A held quad: at 100 °C for 2^20 cycles, for one less, and a sixteenth above; two cores within a declared interval; a launch that a device has taken. -/
theorem witness_PowerMonitorsAndReplay_limits :
    (let s (t : Word) (n : Nat) : State := { st with now := 2 ^ 20, plat := { st.plat with thermal := [3], hot := [(3, n)], tempq := [(3, t)] } };
     3 ∈ (s 1600 0).plat.thermal ∧ (s 1600 0).temp 3 = 1600 ∧ 0 + 2 ^ 20 ≤ (s 1600 0).now ∧ ¬ 1 + 2 ^ 20 ≤ (s 1600 1).now ∧ 1600 < (s 1601 0).temp 3 ∧
     Sparse.rising (s 1601 0).plat.tempq = true) ∧
    ((stLog 1 2).rrRead 0x025 0).isSome = true ∧ 0 ∉ ((stLog 1 2).ctx 0x025).rdev ∧
    0 ∈ (({ stLog 1 2 with ctxs := [(0x025, { (stLog 1 2).ctx 0x025 with rdev := [0] })] } : State).ctx 0x025).rdev := by decide +kernel

end Sys2Proof.Tests
end

section
/-! Instructions that are forbidden where they stand: PRIV at task level, BLKOP in an open block, and their own faults of a lower code (R12, R37, R146,
R291, R367). -/

namespace Sys2Proof.Machine

/-! ### What a forbidden instruction reports -/

/-- The instruction traps with a control-core fault of a code at its own address, and has no effect at all. -/
def trapsOutright (i : Instr) (s : State) (c : BitVec 8) : Prop := exec i s = .next (takeTrap (.cc c) s.core.t.pc s)

/-- A control-core instruction that is forbidden traps with the code that forbids it and has no effect, or with a fault of its own of a lower
code (R12, R37): whatever its body does. -/
theorem cc_forbiddenAs {i : Instr} {s : State} {priv : Bool} {m : M Unit} {c : BitVec 8} (hi : exec i s = cc s priv m)
    (hf : forbidden s priv = some c) : forbiddenAs i s c := by
  have own : exec i s = runM s (unlessLower (some c) m) := by rw [hi, cc, hf]
  have asForbidden (h : unlessLower (some c) m s = .error (.fault (.cc c), s)) : forbiddenAs i s c :=
    .inl (by rw [own, runM_fault h, keepFills_self])
  have fault (f : FaultInfo) (s' : State) (h : m s = .error (.fault f, s') ∨ m s = .error (.late f, s')) : forbiddenAs i s c := by
    by_cases hl : f.code.toNat < c.toNat
    · refine .inr ⟨f, s', hl, own.trans (runM_fault ?_)⟩
      rcases h with h | h <;> simp [unlessLower, h, hl]
    · refine asForbidden ?_
      rcases h with h | h <;> simp [unlessLower, h, hl]
  cases h : m s with
  | ok r => exact asForbidden (by simp [unlessLower, h])
  | error e =>
    obtain ⟨stop, s'⟩ := e
    cases stop with
    | fault f => exact fault f s' (.inl h)
    | late f => exact fault f s' (.inr h)
    | wait => exact asForbidden (by simp [unlessLower, h])
    | stay => exact asForbidden (by simp [unlessLower, h])

/-- Every instruction that only the control core executes runs under `cc`, privileged or not as `privilegedOnly` says. -/
theorem exec_controlOnly {i : Instr} (h : controlOnly i = true) (s : State) : ∃ m, exec i s = cc s (privilegedOnly i) m := by
  cases i <;> cases h
  case mchkq clr rd sel => cases clr <;> exact ⟨_, rfl⟩
  all_goals exact ⟨_, rfl⟩

/-- The privileged instructions are among them. -/
theorem controlOnly_of_privilegedOnly {i : Instr} (h : privilegedOnly i = true) : controlOnly i = true := by
  have : (controlOnly i || !privilegedOnly i) = true := by cases i <;> rfl
  simpa [h] using this

/-! ### The codes a computation can raise -/

/-- The fault that a computation answers, if any, has a code of at least c. -/
def FaultsFrom {α : Type} (c : BitVec 8) (r : Except (Stop × State) α) : Prop :=
  ∀ f s', r = .error (.fault f, s') ∨ r = .error (.late f, s') → c.toNat ≤ f.code.toNat

namespace FaultsFrom

variable {α β : Type} {c : BitVec 8} {s : State}

@[simp] theorem ok (a : α) : FaultsFrom c (.ok a) := by rintro f s' (h | h) <;> cases h
@[simp] theorem wait : FaultsFrom c (.error (.wait, s) : Except (Stop × State) α) := by rintro f s' (h | h) <;> cases h
@[simp] theorem stay : FaultsFrom c (.error (.stay, s) : Except (Stop × State) α) := by rintro f s' (h | h) <;> cases h

@[simp] theorem fault_iff {f : FaultInfo} : FaultsFrom c (.error (.fault f, s) : Except (Stop × State) α) ↔ c.toNat ≤ f.code.toNat := by
  refine ⟨fun h => h f s (.inl rfl), ?_⟩
  rintro h g s' (h' | h') <;> cases h'
  exact h

/-- What follows a computation raises its faults where it completes. -/
theorem bind {m : M α} {k : α → M β} (hm : FaultsFrom c (m s)) (hk : ∀ a s', m s = .ok (a, s') → FaultsFrom c (k a s')) :
    FaultsFrom c ((m >>= k) s) := by
  cases hr : m s with
  | ok r => rw [bind_ok hr]; exact hk r.1 r.2 hr
  | error e =>
    rw [bind_error hr]
    intro f s' h
    exact hm f s' (by rcases h with h | h <;> cases h <;> simp [hr])

theorem failIf {b : Bool} {f : FaultInfo} (h : b = true → c.toNat ≤ f.code.toNat) : FaultsFrom c (failIf b f s) := by
  cases b with
  | false => simp
  | true => simpa using h rfl

/-- A register that has been read holds its value, and the state is as before. -/
theorem rdS_bind {n : Reg} {k : Word → M β} (hc : c.toNat ≤ cPOISON.toNat)
    (hk : FaultsFrom c (k (s.S n) s)) : FaultsFrom c ((Machine.rdS n >>= k) s) := by
  cases h : s.core.t.regs.poisS n with
  | false => rwa [bind_ok (rdS_ok h)]
  | true => rw [bind_error (rdS_poison h), fault_iff]; exact hc

/-- A check that does not fail. -/
theorem failIf_bind {b : Bool} {f : FaultInfo} {k : Unit → M β} (hb : b = false)
    (hk : FaultsFrom c (k () s)) : FaultsFrom c ((Machine.failIf b f >>= k) s) := by
  rwa [hb, bind_ok (failIf_false f s)]

/-- The state that has been read is the state. -/
theorem now_bind {k : State → M β} (hk : FaultsFrom c (k s s)) : FaultsFrom c ((Machine.now >>= k) s) := hk

/-- Capturing a value raises what is then done with it raises: a log that diverges stops the core without a fault (R386). -/
theorem capture {src : Nat} {v : Word} {k : Word → M Unit} (hk : ∀ w s', FaultsFrom c (k w s')) : FaultsFrom c (capture src v k s) := by
  simp only [Machine.capture]
  split
  · exact hk _ _
  · split
    · split
      · exact hk _ _
      · exact stay
    · exact stay
  · exact hk _ _

end FaultsFrom

/-! ### Translation and reads -/

/-- A walk fails with PAGE or a higher code (R138). -/
theorem walkFrom_code {s : State} {ctx : BitVec 12} {va lvl table : Nat} {fills : List WcE} {c : BitVec 8} {l : Nat}
    (h : (walkFrom s ctx va lvl table fills).2 = .error (c, l)) : cPAGE.toNat ≤ c.toNat := by
  induction lvl generalizing table fills with
  | zero =>
    dsimp only [walkFrom] at h
    split at h
    · cases h; decide
    split at h
    · cases h; decide
    split at h
    · cases h; decide
    split at h
    · cases h
    · cases h; decide
  | succ n ih =>
    dsimp only [walkFrom] at h
    split at h
    · cases h; decide
    split at h
    · cases h; decide
    split at h
    · cases h; decide
    split at h
    · cases h
    · exact ih h

/-- So does the search for an entry (R143). -/
theorem lookup_code {s : State} {ctx : BitVec 12} {va : Nat} {c : BitVec 8} {l : Nat} (h : (lookup s ctx va).2 = .error (c, l)) :
    cPAGE.toNat ≤ c.toNat := by
  simp only [lookup] at h
  split at h
  · cases h
  split at h
  · cases h
  · generalize wcLookup _ ctx va _ = start at h
    cases hw : (walkFrom s ctx va start.1 start.2 []).2 with
    | ok leaf => rw [hw] at h; cases h
    | error e => rw [hw] at h; cases h; exact walkFrom_code hw

/-- So does a translation (R117). -/
theorem translate_code {s : State} {ctx : BitVec 12} {va : Word} {a : Acc} {task : Bool} {c : BitVec 8} {l : Nat}
    (h : (translate s ctx va a task).2 = .error (c, l)) : cPAGE.toNat ≤ c.toNat := by
  simp only [translate] at h
  split at h
  · cases h; decide
  split at h
  next e hl => cases h; exact lookup_code hl
  split at h <;> cases h
  decide

namespace FaultsFrom

variable {c : BitVec 8} {s : State}

/-- An access of the running task raises no code below PAGE when it translates. -/
theorem xlate (va : Word) (a : Acc) (hc : c.toNat ≤ cPAGE.toNat) : FaultsFrom c (xlate va a s) := by
  simp only [Machine.xlate, xlateAs]
  split
  · split
    · exact wait
    · exact ok _
  next s' d l h => exact fault_iff.mpr (le_trans hc (translate_code (congrArg Prod.snd h)))

/-- Pinning a line raises QUOTA or TIERERR. -/
theorem pinLine (va : Word) (line : Nat) (hc : c.toNat ≤ cQUOTA.toNat) : FaultsFrom c (pinLine va line s) := by
  have hq : cQUOTA.toNat ≤ cTIERERR.toNat := by decide
  simp only [Machine.pinLine]
  split_ifs
  · exact ok _
  · exact fault_iff.mpr hc
  · exact fault_iff.mpr (le_trans hc hq)
  · exact ok _

/-- Reading the view raises QUOTA or a higher code. -/
theorem viewRead (va : Word) (pa n : Nat) (hc : c.toNat ≤ cQUOTA.toNat) : FaultsFrom c (viewRead va pa n s) := by
  have hp : cQUOTA.toNat ≤ cPOISON.toNat := by decide
  have rest (b : Bool) (v : List Byte) (s1 : State) :
      FaultsFrom c ((do Machine.failIf b (.at cPOISON va); Pure.pure v : M (List Byte)) s1) :=
    bind (failIf fun _ => le_trans hc hp) fun _ _ _ => ok _
  refine bind (ok _) fun s0 _ _ => ?_
  split
  · exact bind (ok _) fun _ _ _ => rest _ _ _
  · exact bind (pinLine va _ hc) fun _ _ _ => bind (ok _) fun _ _ _ => rest _ _ _

/-- A read of the control core raises QUOTA or a higher code (R117, R118). -/
theorem memRead (va : Word) (x : Xl) (n : Nat) (hc : c.toNat ≤ cQUOTA.toNat) : FaultsFrom c (memRead va x n s) := by
  have hq : cQUOTA.toNat ≤ cTIERERR.toNat := by decide
  have hp : cQUOTA.toNat ≤ cPOISON.toNat := by decide
  unfold Machine.memRead
  split
  · exact viewRead va x.pa n hc
  · refine bind (ok _) fun _ _ _ => bind (failIf fun _ => le_trans hc hq) fun _ _ _ => ?_
    exact bind (failIf fun _ => le_trans hc hp) fun _ _ _ => ok _

end FaultsFrom

/-! ### One that is forbidden outright -/

/-- An instruction whose body raises no lower code reports the code that forbids it, with no effect. -/
theorem cc_forbidden_outright {s : State} {priv : Bool} {m : M Unit} {c : BitVec 8} (hf : forbidden s priv = some c)
    (hm : FaultsFrom c (m s)) : cc s priv m = .next (takeTrap (.cc c) s.core.t.pc s) := cc_forbidden hf hm

/-- So does one that moves on. -/
theorem ccNext_forbidden {s : State} {priv : Bool} {m : M Unit} {c : BitVec 8} (hf : forbidden s priv = some c) (hm : FaultsFrom c (m s)) :
    ccNext s priv m = .next (takeTrap (.cc c) s.core.t.pc s) :=
  cc_forbidden hf (hm.bind fun _ _ _ => .ok _)

/-- The bits of a word below 2^n from n on are zero. -/
theorem extractLsb'_high_eq_zero {x : Word} {n k : Nat} (h : x.toNat < 2 ^ n) : x.extractLsb' n k = 0 := by
  apply BitVec.eq_of_toNat_eq
  simp [BitVec.extractLsb'_toNat, Nat.shiftRight_eq_div_pow, Nat.div_eq_of_lt h]

/-! ### Privileged instructions at task level (R146, R367, R380) -/

section TaskLevel

variable {s : State} {rd ra rb : Reg} (hp : s.core.t.prv = false)

include hp

theorem tlbiAll_priv : trapsOutright .tlbiAll s cPRIV :=
  ccNext_forbidden (forbidden_priv hp) (.ok _)

theorem tlbiCid_priv (h : (s.S ra).toNat < 4096) : trapsOutright (.tlbiCid ra) s cPRIV := by
  refine ccNext_forbidden (forbidden_priv hp) (.rdS_bind (by decide) (.failIf_bind ?_ (.ok _)))
  simp [extractLsb'_high_eq_zero (n := 12) h]

omit hp in
/-- Between 1 and 255 A names a key slot. -/
theorem keySlot_faultsFrom (h0 : s.S ra ≠ 0) (h : (s.S ra).toNat < 256) : FaultsFrom cPRIV (keySlot ra s) := by
  refine .rdS_bind (by decide) (.failIf_bind ?_ (.ok _))
  simpa [extractLsb'_high_eq_zero (n := 8) h] using h0

theorem keyselClr_priv (h0 : s.S ra ≠ 0) (h : (s.S ra).toNat < 256) : trapsOutright (.keyselClr ra) s cPRIV :=
  ccNext_forbidden (forbidden_priv hp) (.bind (keySlot_faultsFrom h0 h) fun _ _ _ => .ok _)

theorem keysel_priv (h0 : s.S ra ≠ 0) (h : (s.S ra).toNat < 256) : trapsOutright (.keysel ra rb) s cPRIV := by
  refine ccNext_forbidden (forbidden_priv hp) (.bind (keySlot_faultsFrom h0 h) fun n s1 _ => ?_)
  refine .rdS_bind (by decide) (.bind (.failIf fun _ => (by decide : cPRIV.toNat ≤ cALIGN.toNat)) fun _ _ _ => ?_)
  refine .bind (.xlate _ _ (by decide)) fun x _ _ => ?_
  refine .bind (.failIf fun _ => (by decide : cPRIV.toNat ≤ cPROT.toNat)) fun _ _ _ => ?_
  exact .bind (.memRead _ _ _ (by decide)) fun _ _ _ => .ok _

theorem mode_priv (h : (s.S ra).toNat < 2) : trapsOutright (.mode rd ra) s cPRIV := by
  refine ccNext_forbidden (forbidden_priv hp) (.rdS_bind (by decide) (.failIf_bind ?_ (.ok _)))
  simp [extractLsb'_high_eq_zero (n := 1) h]

theorem halt_priv (h : (s.S ra).toNat < 256) : trapsOutright (.halt ra) s cPRIV := by
  refine ccNext_forbidden (forbidden_priv hp) (.rdS_bind (by decide) (.failIf_bind ?_ (.bind (.ok _) fun _ _ _ => ?_)))
  · simp [extractLsb'_high_eq_zero (n := 8) h]
  · split_ifs
    · exact .ok _
    · exact .stay
    · exact .ok _

theorem crst_priv (h : (s.S ra).toNat < 256) (hn : (s.S ra).toNat ≠ s.core.phys.toNat) : trapsOutright (.crst ra) s cPRIV := by
  have low : (s.S ra).extractLsb' 0 8 ≠ s.core.phys := fun e => hn (by rw [← e]; simp [Nat.mod_eq_of_lt h])
  refine ccNext_forbidden (forbidden_priv hp) (.rdS_bind (by decide) (.now_bind (.failIf_bind ?_ (.ok _))))
  simp [extractLsb'_high_eq_zero (n := 8) h, low]

omit hp in
/-- MCHKQ of a counter raises nothing. -/
theorem mchkq_forbidden {clr : Bool} {sel : BitVec 4} {c : BitVec 8} (hf : forbidden s clr = some c) (h : sel.toNat < 6) :
    trapsOutright (.mchkq clr rd sel) s c := by
  refine ccNext_forbidden hf (.now_bind ?_)
  rw [dif_pos h]
  cases clr
  · exact .capture fun _ _ => .ok _
  · exact .bind (.ok _) fun _ _ _ => .capture fun _ _ => .ok _

variable (ht : s.core.t.sys.inTrap = true)

include ht

theorem eret_priv : trapsOutright .eret s cPRIV := by
  refine cc_forbidden_outright (forbidden_priv hp) (.now_bind (.failIf_bind (by simp [ht]) ?_))
  split <;> exact .ok _

theorem eretKill_priv : trapsOutright .eretKill s cPRIV :=
  cc_forbidden_outright (forbidden_priv hp) (.now_bind (.failIf_bind (by simp [ht]) (.ok _)))

theorem ctxsv_priv {nb : Bool} : trapsOutright (.ctxsv nb ra rb) s cPRIV := by
  refine ccNext_forbidden (forbidden_priv hp) (.now_bind (.failIf_bind (by simp [ht]) (.rdS_bind (by decide) ?_)))
  split
  · exact .ok _
  dsimp only
  generalize savePages _ _ _ _ _ = saved
  split
  · exact .wait
  · exact .ok _

theorem ctxrs_priv : trapsOutright (.ctxrs ra rb) s cPRIV := by
  refine ccNext_forbidden (forbidden_priv hp) (.now_bind (.failIf_bind (by simp [ht]) (.rdS_bind (by decide) ?_)))
  split
  · exact .ok _
  split
  · exact .wait
  generalize loadPages _ [0] _ _ = header
  obtain ⟨s1, st | m0⟩ := header
  · exact .ok _
  dsimp only
  split
  · exact .ok _
  generalize loadPages _ _ _ _ = pages
  split
  · exact .wait
  · obtain ⟨s2, st | m⟩ := pages <;> exact .ok _

end TaskLevel

/-! ### The control core's instructions in an open block (R120, R146, R291) -/

section InBlock

variable {s : State} (hb : s.core.t.blk.isSome = true)

include hb

/-- In a block an instruction that is not privileged is forbidden with BLKOP. -/
theorem forbidden_unprivileged : forbidden s false = some cBLKOP := forbidden_block (by simp) hb

theorem pref_blkop (ra rb : Reg) (off : BitVec 20) : trapsOutright (.pref ra rb off) s cBLKOP := by
  refine ccNext_forbidden (forbidden_unprivileged hb) ?_
  dsimp only
  split
  · exact .ok _
  · exact .wait
  · exact .ok _

omit hb in
/-- A COMMIT none of whose bytes is refused raises nothing. -/
theorem commitM_faultsFrom {c : BitVec 8} (h : s.commit.2 = none) : FaultsFrom c (commitM s) := by
  simp only [commitM, commitSelM]
  split
  · exact .wait
  · split
    · exact .ok _
    next s1 d hd =>
      have : s.commit.2 = some d := congrArg Prod.snd hd
      rw [h] at this
      cases this

theorem commit_blkop (h : s.commit.2 = none) : trapsOutright .commit s cBLKOP :=
  ccNext_forbidden (forbidden_unprivileged hb) (commitM_faultsFrom h)

theorem phaseCore_blkop (h : s.commit.2 = none) : trapsOutright (.phase .core) s cBLKOP :=
  cc_forbidden_outright (forbidden_unprivileged hb) (.bind (commitM_faultsFrom h) fun _ _ _ => .ok _)

theorem acq_blkop : trapsOutright .acq s cBLKOP :=
  ccNext_forbidden (forbidden_unprivileged hb) (.ok _)

theorem fence_blkop (sc : Scope) : trapsOutright (.fence sc) s cBLKOP := by
  refine ccNext_forbidden (forbidden_unprivileged hb) (.now_bind ?_)
  split
  · exact .ok _
  · exact .wait

theorem tread_blkop (iss : Bool) (rd : Reg) (tl : BitVec 8) : trapsOutright (.tread iss rd tl) s cBLKOP :=
  ccNext_forbidden (forbidden_unprivileged hb) (.ok _)

theorem tlbiVa_blkop (ra : Reg) : trapsOutright (.tlbiVa ra) s cBLKOP :=
  ccNext_forbidden (forbidden_unprivileged hb) (.rdS_bind (by decide) (.ok _))

theorem tlbiCtx_blkop : trapsOutright .tlbiCtx s cBLKOP :=
  ccNext_forbidden (forbidden_unprivileged hb) (.ok _)

theorem tlbfence_blkop (sc : Scope) : trapsOutright (.tlbfence sc) s cBLKOP :=
  ccNext_forbidden (forbidden_unprivileged hb) (.ok _)

theorem rdcyc_blkop (task : Bool) (rd : Reg) : trapsOutright (.rdcyc task rd) s cBLKOP :=
  ccNext_forbidden (forbidden_unprivileged hb) (.now_bind (.capture fun _ _ => .ok _))

theorem aflg_blkop (clr : Bool) (rd : Reg) : trapsOutright (.aflg clr rd) s cBLKOP := by
  refine ccNext_forbidden (forbidden_unprivileged hb) (.now_bind ?_)
  cases clr
  · exact .capture fun _ _ => .ok _
  · exact .bind (.ok _) fun _ _ _ => .capture fun _ _ => .ok _

theorem cdigClr_blkop : trapsOutright .cdigClr s cBLKOP :=
  ccNext_forbidden (forbidden_unprivileged hb) (.ok _)

theorem cstatTl_blkop (rd : Reg) (k : BitVec 4) : trapsOutright (.cstatTl rd k) s cBLKOP :=
  ccNext_forbidden (forbidden_unprivileged hb) (.now_bind (.capture fun _ _ => .ok _))

theorem yield_blkop : trapsOutright .yield s cBLKOP :=
  cc_forbidden_outright (forbidden_unprivileged hb) (.ok _)

theorem trap_blkop (n : BitVec 16) : trapsOutright (.trap n) s cBLKOP :=
  cc_forbidden_outright (forbidden_unprivileged hb) .stay

theorem brk_blkop (n : BitVec 16) : trapsOutright (.brk n) s cBLKOP :=
  cc_forbidden_outright (forbidden_unprivileged hb) .stay

end InBlock

/-! ### The statement -/

/-- Settles O40: every instruction that only the control core executes runs under `cc`, which reports PRIV or BLKOP or a lower code of the body's own;
the bodies named raise no lower one. -/
theorem privilegeAndBlockChecks : Obligations.PrivilegeAndBlockChecks := by
  intro s i
  refine ⟨fun hp hi => ?_, fun hp rd ra rb sel nb => ?_, fun hb hi hor => ?_, fun hb rd ra rb off sc b c tl k sel n => ?_⟩
  · obtain ⟨m, hm⟩ := exec_controlOnly (controlOnly_of_privilegedOnly hi) s
    exact cc_forbiddenAs hm (by rw [hi]; exact forbidden_priv hp)
  · exact ⟨tlbiAll_priv hp, tlbiCid_priv hp, fun h0 h => ⟨keysel_priv hp h0 h, keyselClr_priv hp h0 h⟩, mode_priv hp, halt_priv hp, crst_priv hp,
      mchkq_forbidden (forbidden_priv hp), fun ht => ⟨eret_priv hp ht, eretKill_priv hp ht, ctxsv_priv hp ht, ctxrs_priv hp ht⟩⟩
  · obtain ⟨m, hm⟩ := exec_controlOnly hi s
    refine cc_forbiddenAs hm (forbidden_block (fun hpriv => ?_) hb)
    rcases hor with h | h
    · exact h
    · rw [h] at hpriv; cases hpriv
  · exact ⟨pref_blkop hb .., fun h => ⟨commit_blkop hb h, phaseCore_blkop hb h⟩, acq_blkop hb, fence_blkop hb sc, tread_blkop hb .., tlbiVa_blkop hb ra,
      tlbiCtx_blkop hb, tlbfence_blkop hb sc, rdcyc_blkop hb .., aflg_blkop hb .., cdigClr_blkop hb, cstatTl_blkop hb .., yield_blkop hb, trap_blkop hb n,
      brk_blkop hb n, mchkq_forbidden (forbidden_unprivileged hb)⟩

end Sys2Proof.Machine
end

section
/-! Routing: what a queue-routed instruction captures, when it is refused or waits, and what it leaves (R15, R75, R114, R130, R291). -/

namespace Sys2Proof.Machine

/-- A descriptor image with another tag (R86). -/
def retagImage (d : Desc) (tag : FTag) : Desc := (d &&& ~~~(0xFFFF#256 <<< 16)) ||| ((tag.setWidth 256) <<< 16)

/-- What the control core itself does when it routes an instruction: RETAG.dsc replaces a tag where its queue has room (R86). -/
def ownPart (i : Instr) : M Unit :=
  match retagged i with
  | none => pure ()
  | some (dd, tag) => do
    let d ← rdD dd
    let s ← now
    if s.queueRoom .compute then upd fun s => s.setD dd (retagImage d tag) else pure ()

/-- Every instruction with a queue is routed. -/
theorem exec_routed {i : Instr} {q : QName} (h : queueOf i = some q) (s : State) : exec i s = routed i (ownPart i) s := by
  cases i <;> cases h <;> rfl

/-! ### The policy and the operands -/

theorem policyAt_bad {s : State} {i : Instr} (h : badPolicy s i) : policyAt i s = .error (.fault (.cc cILLOP), s) := by
  obtain ⟨p, hp, hclean, hbits⟩ := h
  have : ((s.S p).extractLsb' 26 6 != 0) = true := by simpa using hbits
  simp only [policyAt, hp, hclean, checkPolicy, this]
  rfl

theorem policyAt_ok {s : State} {i : Instr} (h : ¬ badPolicy s i) : policyAt i s = .ok ((), s) := by
  unfold policyAt
  split
  next p hp =>
    split
    · rfl
    next hclean =>
      have : (s.S p).extractLsb' 26 6 = 0 := by
        by_contra hbits
        exact h ⟨p, hp, by simpa using hclean, hbits⟩
      simp [checkPolicy, this]
  next => rfl

/-- Registers of which one is poisoned cannot be captured (R94, R378). -/
theorem captureRegs_poison {s : State} {l : List Reg} (h : ¬ s.cleanS l) : captureRegs l s = .error (.fault (.cc cPOISON), s) := by
  induction l with
  | nil => exact absurd (by simp [State.cleanS]) h
  | cons r l ih =>
    rw [captureRegs]
    cases hr : s.core.t.regs.poisS r with
    | true => exact bind_error (rdS_poison hr)
    | false =>
      have hl : ¬ s.cleanS l := fun hl => h (List.forall_mem_cons.mpr ⟨hr, hl⟩)
      rw [bind_ok (rdS_ok hr), bind_error (ih hl)]

/-- Reading a poisoned descriptor register raises POISON (R378). -/
theorem rdD_poison {s : State} {n : DCode} (h : s.core.t.regs.dpois.getLsbD n.toNat = true) : rdD n s = .error (.fault (.cc cPOISON), s) := by
  simp [rdD, h]

/-- Descriptor registers of which one is poisoned cannot be captured (R378). -/
theorem captureDescs_poison {s : State} {l : List DCode} (h : ¬ s.cleanD l) : captureDescs l s = .error (.fault (.cc cPOISON), s) := by
  induction l with
  | nil => exact absurd (by simp [State.cleanD]) h
  | cons d l ih =>
    rw [captureDescs]
    cases hd : s.core.t.regs.dpois.getLsbD d.toNat with
    | true => exact bind_error (rdD_poison hd)
    | false =>
      have hl : ¬ s.cleanD l := fun hl => h (List.forall_mem_cons.mpr ⟨hd, hl⟩)
      rw [bind_ok (rdD_ok hd), bind_error (ih hl)]

/-! ### The entry into a queue -/

/-- A block's note of a routed instruction: the bit of a TRVL, a TRVS or a copy (R291). -/
def Block.marked (i : Instr) (b : Block) : Block :=
  match seenBit i with
  | some (n, _) => { b with seen := b.seen ||| (1#16 <<< n) }
  | none => b

/-- The captured registers of an instruction, for a COLL with the closure list (R361). -/
def State.withClosure (s : State) (i : Instr) (vals : List Word) : List Word :=
  match i with
  | .coll .. => vals ++ s.core.t.closure.flatMap fun p => [p.1, p.2]
  | _ => vals

/-- The state after an instruction has entered its queue with what it captured: the command, the block's mark, the PC past its granules. -/
def State.routedTo (s : State) (i : Instr) (q : QName) (descs : List Desc) (vals : List Word) : State :=
  ((s.enqueue i .fwd (tokOf i) descs vals s.blkRef q).modT fun t => { t with blk := t.blk.map (Block.marked i) }).advance (granulesOf i)

/-- The rest of routing from s once an instruction may be routed: the capture, the control core's own part, and the queue where it has room. -/
def captureAndEnter (s : State) (i : Instr) (q : QName) (also : M Unit) : M Unit := do
  let vals ← captureRegs (regsOf i)
  let descs ← captureDescs (descsOf i)
  also
  let u ← now
  if !u.queueRoom q then wait else upd fun u => u.routedTo i q descs (s.withClosure i vals)

/-! ### The checks of routing, in their order (R12) -/

theorem runM_congr {s : State} {m m' : M Unit} (h : m s = m' s) : runM s m = runM s m' := by simp only [runM, h]

section Checks

variable {s : State} {i : Instr} {q : QName} {also : M Unit} (hq : queueOf i = some q)

include hq

/-- A reserved bit of the policy raises ILLOP (R114). -/
theorem routed_badPolicy (h : badPolicy s i) : routed i also s = .next (takeTrap (.cc cILLOP) s.core.t.pc s) := by
  refine runM_fault (s' := s) ?_
  rw [hq]
  exact (bind_ok (now_run s)).trans (bind_error (policyAt_bad h))

variable (hp : ¬ badPolicy s i)

include hp

/-- With a clean policy the open block, or its absence, is asked whether it admits the instruction. -/
theorem routed_cleanPolicy : routed i also s = runM s (do failIf (!s.admits i) (.cc cBLKOP); captureAndEnter s i q also) := by
  unfold routed State.admits
  rw [hq]
  refine runM_congr ((bind_ok (now_run s)).trans ((bind_ok (policyAt_ok hp)).trans ?_))
  cases s.core.t.blk with
  | none => rw [Bool.not_not]; rfl
  | some b => rfl

/-- What is not let in raises BLKOP (R291, R303). -/
theorem routed_notAdmitted (ha : s.admits i = false) : routed i also s = .next (takeTrap (.cc cBLKOP) s.core.t.pc s) := by
  rw [routed_cleanPolicy hq hp, ha]
  exact runM_fault (bind_error (failIf_true _ s))

/-- What is let in is captured and enters its queue. -/
theorem routed_admitted (ha : s.admits i = true) : routed i also s = runM s (captureAndEnter s i q also) := by
  rw [routed_cleanPolicy hq hp, ha]
  exact runM_congr (bind_ok (failIf_false _ s))

end Checks

/-! ### What is captured -/

/-- Only a COLL has a channel. -/
theorem collOf_eq_none {i : Instr} (h : ∀ tk k ra, i = .coll tk k ra → False) : collOf i = none := by
  unfold collOf
  split
  next tk k ra => exact (h tk k ra rfl).elim
  next => rfl

/-- The captured registers are the values of the command that `newCmd` names. -/
theorem withClosure_eq (s : State) (i : Instr) (q : QName) : s.withClosure i ((regsOf i).map s.S) = (newCmd s i q).vals := by
  unfold State.withClosure
  split
  next => rfl
  next h => simp only [newCmd, collOf_eq_none h, Option.isSome_none, Bool.false_eq_true, if_false, List.append_nil]

/-! ### What the entry into a queue leaves -/

theorem Queues.get_set (u : Queues) (q p : QName) (l : List Cmd) : (u.set q l).get p = if p = q then l else u.get p := by
  cases q <;> cases p <;> rfl

theorem Timelines.get_mod (t : Timelines) (q p : QName) (f : TL → TL) : (t.mod q f).get p = if p = q then f (t.get q) else t.get p := by
  cases q <;> cases p <;> rfl

/-- A timeline that has given one more number. -/
def TL.next (l : TL) : TL := { l with i := l.i + 1 }

/-- One that has given none. -/
theorem TL.add_zero (l : TL) : (⟨l.i + 0, l.v⟩ : TL) = l := congrArg (TL.mk · l.v) (BitVec.add_zero l.i)

/-- The timelines after a command has taken a number on TL.X, where it takes one (R302). -/
def Timelines.takeX (t : Timelines) (x : Bool) : Timelines := if x then { t with x := t.x.next } else t

/-- The timelines after a command has taken a number on a collective channel, where it has one (R356). -/
def Timelines.takeChannel (t : Timelines) : Option (BitVec 4) → Timelines
  | some k => { t with coll := t.coll.set k.toNat t.coll[k.toNat].next }
  | none => t

/-- The timelines after a command has taken its number on its queue's, and on TL.X or on a channel where it takes one (R130). -/
def Timelines.numbered (t : Timelines) (q : QName) (x : Bool) (k : Option (BitVec 4)) : Timelines :=
  ((t.mod q TL.next).takeX x).takeChannel k

theorem Timelines.numbered_get (t : Timelines) (q p : QName) (x : Bool) (k : Option (BitVec 4)) :
    (t.numbered q x k).get p = ⟨(t.get p).i + (if p = q then 1 else 0), (t.get p).v⟩ := by
  have own : (t.numbered q x k).get p = (t.mod q TL.next).get p := by cases x <;> cases k <;> cases p <;> rfl
  rw [own, Timelines.get_mod]
  by_cases h : p = q
  · rw [if_pos h, if_pos h, h]
    rfl
  · rw [if_neg h, if_neg h, TL.add_zero]

theorem Timelines.numbered_x (t : Timelines) (q : QName) (x : Bool) (k : Option (BitVec 4)) :
    (t.numbered q x k).x = ⟨t.x.i + (if x then 1 else 0), t.x.v⟩ := by
  have own : (t.numbered q x k).x = if x then t.x.next else t.x := by cases q <;> cases x <;> cases k <;> rfl
  rw [own]
  cases x with
  | false => exact (TL.add_zero t.x).symm
  | true => rfl

theorem Timelines.takeChannel_coll (t : Timelines) (k : Option (BitVec 4)) (n : BitVec 4) :
    (t.takeChannel k).coll[n.toNat] = ⟨t.coll[n.toNat].i + (if k = some n then 1 else 0), t.coll[n.toNat].v⟩ := by
  cases k with
  | none => exact (TL.add_zero _).symm
  | some m =>
    by_cases h : m = n
    · subst h
      rw [if_pos rfl]
      exact Vector.getElem_set_self _
    · have apart : m.toNat ≠ n.toNat := fun e => h (BitVec.eq_of_toNat_eq e)
      rw [if_neg fun e => h (Option.some.inj e), TL.add_zero]
      exact Vector.getElem_set_ne m.isLt n.isLt apart

theorem Timelines.numbered_coll (t : Timelines) (q : QName) (x : Bool) (k : Option (BitVec 4)) (n : BitVec 4) :
    (t.numbered q x k).coll[n.toNat] = ⟨t.coll[n.toNat].i + (if k = some n then 1 else 0), t.coll[n.toNat].v⟩ := by
  have own : ((t.mod q TL.next).takeX x).coll = t.coll := by cases q <;> cases x <;> rfl
  rw [Timelines.numbered, Timelines.takeChannel_coll]
  simp only [own]

/-- The two further numbers as `State.enqueue` takes them. -/
def State.takeX (s : State) (x : Bool) : State := if x then s.modTl fun t => { t with x := t.x.next } else s
def State.takeChannel (s : State) : Option (BitVec 4) → State
  | some k => s.modTl fun t => { t with coll := t.coll.set k.toNat t.coll[k.toNat].next }
  | none => s

/-- They change the timelines alone. -/
theorem State.takeX_eq (s : State) (x : Bool) : s.takeX x = s.modTl (·.takeX x) := by cases x <;> rfl
theorem State.takeChannel_eq (s : State) (k : Option (BitVec 4)) : s.takeChannel k = s.modTl (·.takeChannel k) := by cases k <;> rfl

/-- The command enters its queue and takes its numbers, and nothing else of the task changes; its registers may have changed since the capture. -/
theorem enqueue_newCmd (s : State) (i : Instr) (q : QName) (g : Regs → Regs) :
    (s.modR g).enqueue i .fwd (tokOf i) ((descsOf i).map s.D) (newCmd s i q).vals (s.modR g).blkRef q =
      (s.modR g).modT fun t => { t with q := t.q.set q (t.q.get q ++ [newCmd s i q]),
                                        tls := t.tls.numbered q (takesX i .fwd s.blkRef) (collOf i) } := by
  let v : State := (((s.modR g).modTl fun t => t.mod q TL.next).takeX (takesX i .fwd s.blkRef)).takeChannel (collOf i)
  have hv : v = (s.modR g).modTl fun t => t.numbered q (takesX i .fwd s.blkRef) (collOf i) := by
    simp only [v, State.takeX_eq, State.takeChannel_eq]
    rfl
  have hrun : (s.modR g).enqueue i .fwd (tokOf i) ((descsOf i).map s.D) (newCmd s i q).vals (s.modR g).blkRef q =
      v.modQ q fun l => l ++ [{ newCmd s i q with sysr := v.capSys i }] := rfl
  rw [hrun, hv]
  rfl

/-- A routed instruction's mark on its block, with the next ordinal. -/
theorem Block.next_marked (i : Instr) (b : Block) :
    (b.marked i).next =
      { b with ord := b.ord + 1, seen := match seenBit i with | some (n, _) => b.seen ||| (1#16 <<< n) | none => b.seen } := by
  unfold Block.marked Block.next
  cases seenBit i <;> rfl

/-- The state with other descriptors and marks of them. -/
def State.withDescs (s : State) (d : Vector Desc 16) (p : BitVec 16) : State := s.modR fun r => { r with d := d, dpois := p }

/-- What enters its queue after the control core has changed at most the tag of the descriptor that the instruction names, is routed. -/
theorem routed_withDescs {s : State} {i : Instr} {q : QName} {d : Vector Desc 16} {p : BitVec 16}
    (hd : ∀ n, (∀ e tag, retagged i = some (e, tag) → n ≠ e) → (s.withDescs d p).D n = s.D n)
    (ht : ∀ n tag, retagged i = some (n, tag) → dTag ((s.withDescs d p).D n) = tag ∧
      ∀ m, (m < 16 ∨ 32 ≤ m) → ((s.withDescs d p).D n).getLsbD m = (s.D n).getLsbD m) :
    Routed s ((s.withDescs d p).routedTo i q ((descsOf i).map s.D) (newCmd s i q).vals) i q := by
  rw [State.routedTo, State.withDescs, enqueue_newCmd]
  constructor
  case queue => exact (Queues.get_set ..).trans (if_pos rfl)
  case queues => exact fun p hp => (Queues.get_set ..).trans (if_neg hp)
  case number => exact fun p => Timelines.numbered_get ..
  case numberX => exact Timelines.numbered_x ..
  case channel => exact fun k => Timelines.numbered_coll ..
  case pc => rfl
  case block =>
    rw [advance_task]
    exact Option.map_map .. |>.trans (congrArg (Option.map · s.core.t.blk) (funext fun b => Block.next_marked i b))
  case descs => exact hd
  case tag => exact ht
  case bytes => exact fun a => ⟨rfl, rfl⟩
  case rest => rfl

/-! ### RETAG.dsc (R86) -/

/-- Bit n of an image with another tag: the tag's in bits 31 to 16, the old image's elsewhere. -/
theorem retagImage_bit (d : Desc) (tag : FTag) (n : Nat) :
    (retagImage d tag).getLsbD n = if 16 ≤ n ∧ n < 32 then tag.getLsbD (n - 16) else d.getLsbD n := by
  have ones : (0xFFFF#256).getLsbD (n - 16) = decide (n - 16 < 16) := by
    rw [show (0xFFFF#256) = (BitVec.allOnes 16).setWidth 256 from rfl, BitVec.getLsbD_setWidth, BitVec.getLsbD_allOnes]
    by_cases hk : n - 16 < 16
    · simp only [hk, show n - 16 < 256 by omega, decide_true, Bool.and_self]
    · simp only [hk, decide_false, Bool.and_false]
  simp only [retagImage, BitVec.getLsbD_or, BitVec.getLsbD_and, BitVec.getLsbD_not, BitVec.getLsbD_shiftLeft, BitVec.getLsbD_setWidth, ones]
  by_cases h : 16 ≤ n ∧ n < 32
  · simp [h, show ¬ n < 16 by omega, show n < 256 by omega, show n - 16 < 16 by omega, show n - 16 < 256 by omega]
  · rw [if_neg h]
    rcases Nat.lt_or_ge n 16 with low | high
    · simp [low, show n < 256 by omega]
    · have beyond : tag.getLsbD (n - 16) = false := tag.getLsbD_of_ge _ (by omega)
      rcases Nat.lt_or_ge n 256 with hn | hn
      · simp [beyond, hn, show ¬ n - 16 < 16 by omega]
      · simp [beyond, d.getLsbD_of_ge n hn]

theorem dTag_retagImage (d : Desc) (tag : FTag) : dTag (retagImage d tag) = tag := by
  ext n hn
  rw [dTag, BitVec.getElem_extractLsb', retagImage_bit, if_pos (by omega)]
  simp [hn]

/-- The state after the control core's own part of routing (R86). -/
def State.afterOwnPart (s : State) (i : Instr) : State :=
  match retagged i with
  | some (d, tag) => s.setD d (retagImage (s.D d) tag)
  | none => s

/-- The compute queue executes the instruction that rewrites a descriptor. -/
theorem retagged_queue {i : Instr} {d : DCode} {tag : FTag} {q : QName} (hr : retagged i = some (d, tag)) (hq : queueOf i = some q) : q = .compute := by
  unfold retagged at hr
  split at hr
  · cases hq; rfl
  · cases hr

/-- The descriptors that routing reads are clean where the captured ones are, and the one that RETAG.dsc rewrites. -/
theorem cleanD_routeDescs_iff {s : State} {i : Instr} : s.cleanD (routeDescs i) ↔
    s.cleanD (descsOf i) ∧ ∀ d tag, retagged i = some (d, tag) → s.core.t.regs.dpois.getLsbD d.toNat = false := by
  unfold State.cleanD routeDescs
  rw [List.forall_mem_append]
  refine and_congr_right fun _ => ?_
  cases hr : retagged i with
  | none => simp
  | some r => obtain ⟨e, tag⟩ := r; simp

section OwnPart

variable {s : State} {i : Instr} {q : QName}

theorem ownPart_poison {d : DCode} {tag : FTag} (hr : retagged i = some (d, tag)) (hd : s.core.t.regs.dpois.getLsbD d.toNat = true) :
    ownPart i s = .error (.fault (.cc cPOISON), s) := by
  unfold ownPart
  rw [hr]
  exact bind_error (rdD_poison hd)

variable (hq : queueOf i = some q) (hc : ∀ d tag, retagged i = some (d, tag) → s.core.t.regs.dpois.getLsbD d.toNat = false)

include hq hc

/-- The tag is replaced where the queue has room; else nothing changes, since the instruction waits. -/
theorem ownPart_clean : ownPart i s = .ok ((), if s.queueRoom q then s.afterOwnPart i else s) := by
  unfold ownPart State.afterOwnPart
  cases hr : retagged i with
  | none => simp
  | some r =>
    obtain ⟨d, tag⟩ := r
    cases retagged_queue hr hq
    refine (bind_ok (rdD_ok (hc d tag hr))).trans ((bind_ok (now_run s)).trans ?_)
    split <;> rfl

end OwnPart

/-- The control core's own part changes descriptors alone. -/
theorem afterOwnPart_eq (s : State) (i : Instr) : ∃ d p, s.afterOwnPart i = s.withDescs d p := by
  unfold State.afterOwnPart
  cases retagged i with
  | none => exact ⟨_, _, rfl⟩
  | some r => exact ⟨_, _, rfl⟩

theorem queueRoom_afterOwnPart (s : State) (i : Instr) (q : QName) : (s.afterOwnPart i).queueRoom q = s.queueRoom q := by
  obtain ⟨d, p, h⟩ := afterOwnPart_eq s i
  rw [h]
  rfl

/-! ### The capture -/

section Capture

variable {s : State} {i : Instr} {q : QName}

/-- An operand that holds an uncorrectable error raises POISON (R378). -/
theorem captureAndEnter_poison (h : ¬ (s.cleanS (regsOf i) ∧ s.cleanD (routeDescs i))) :
    captureAndEnter s i q (ownPart i) s = .error (.fault (.cc cPOISON), s) := by
  by_cases hS : s.cleanS (regsOf i)
  case neg => exact bind_error (captureRegs_poison hS)
  refine (bind_ok (captureRegs_ok _ hS)).trans ?_
  by_cases hD : s.cleanD (descsOf i)
  case neg => exact bind_error (captureDescs_poison hD)
  refine (bind_ok (captureDescs_ok _ hD)).trans ?_
  have own : ∃ d tag, retagged i = some (d, tag) ∧ s.core.t.regs.dpois.getLsbD d.toNat = true := by
    by_contra hno
    refine h ⟨hS, cleanD_routeDescs_iff.mpr ⟨hD, fun d tag hr => ?_⟩⟩
    cases hd : s.core.t.regs.dpois.getLsbD d.toNat with
    | false => rfl
    | true => exact absurd ⟨d, tag, hr, hd⟩ hno
  obtain ⟨d, tag, hr, hd⟩ := own
  exact bind_error (ownPart_poison hr hd)

/-- Clean operands are captured as they stand, and the command enters its queue or waits for it. -/
theorem captureAndEnter_clean (hq : queueOf i = some q) (hS : s.cleanS (regsOf i)) (hD : s.cleanD (routeDescs i)) :
    captureAndEnter s i q (ownPart i) s =
      if s.queueRoom q then .ok ((), (s.afterOwnPart i).routedTo i q ((descsOf i).map s.D) (newCmd s i q).vals) else .error (.wait, s) := by
  obtain ⟨hDescs, hOwn⟩ := cleanD_routeDescs_iff.mp hD
  refine (bind_ok (captureRegs_ok _ hS)).trans ((bind_ok (captureDescs_ok _ hDescs)).trans ?_)
  refine (bind_ok (ownPart_clean hq hOwn)).trans ((bind_ok (now_run _)).trans ?_)
  rw [withClosure_eq s i q]
  cases hroom : s.queueRoom q with
  | true => simp [queueRoom_afterOwnPart, hroom]
  | false => simp [hroom]

end Capture

/-! ### The statement -/

/-- A routed instruction leaves every descriptor but the one that RETAG.dsc names, and that one in its tag alone. -/
theorem routed_afterOwnPart (s : State) (i : Instr) (q : QName) :
    Routed s ((s.afterOwnPart i).routedTo i q ((descsOf i).map s.D) (newCmd s i q).vals) i q := by
  obtain ⟨d, p, hu⟩ := afterOwnPart_eq s i
  rw [hu]
  refine routed_withDescs (fun n hn => ?_) fun n tag hr => ?_
  · rw [← hu, State.afterOwnPart]
    cases hr : retagged i with
    | none => rfl
    | some r => exact D_setD_other s _ (hn r.1 r.2 hr)
  · have hD : (s.withDescs d p).D n = retagImage (s.D n) tag := by
      rw [← hu, State.afterOwnPart, hr]
      exact D_setD_same s n _
    refine ⟨by rw [hD, dTag_retagImage], fun m hm => ?_⟩
    rw [hD, retagImage_bit, if_neg (by omega)]

/-- A fault of the control core's own checks, with no effect at all. -/
theorem trapsAt_of_trapsOutright {i : Instr} {s : State} {c : BitVec 8} (h : trapsOutright i s c) : trapsAt i s c :=
  ⟨.cc c, s, rfl, rfl, rfl, h⟩

/-- Settles O41: routing checks the policy, then the block, then the operands; what passes enters its queue where that has room, and waits where not. -/
theorem queueRouting : Obligations.QueueRouting := by
  intro s i q hq
  have hexec : exec i s = routed i (ownPart i) s := exec_routed hq s
  refine ⟨fun hbad => ?_, fun hok => ⟨fun hno => ?_, fun hadm hpois => ?_, fun hadm ⟨hS, hD⟩ => ?_⟩⟩
  · exact trapsAt_of_trapsOutright (hexec.trans (routed_badPolicy hq hbad))
  · exact trapsAt_of_trapsOutright (hexec.trans (routed_notAdmitted hq hok hno))
  · exact trapsAt_of_trapsOutright (hexec.trans ((routed_admitted hq hok hadm).trans (runM_fault (captureAndEnter_poison hpois))))
  · have run := captureAndEnter_clean hq hS hD
    have hrun : exec i s = runM s (captureAndEnter s i q (ownPart i)) := hexec.trans (routed_admitted hq hok hadm)
    refine ⟨fun hroom => ⟨_, hrun.trans (runM_ok (run.trans (if_pos hroom))), routed_afterOwnPart s i q⟩, fun hfull => ?_⟩
    exact hrun.trans (runM_wait (run.trans (if_neg (by simp [hfull]))))

end Sys2Proof.Machine
end

section
/-! The lists of a state in order (O11), part by part: what keeps them among the writes to the state and the steps of the two languages
that meanings are written in. -/

namespace Sys2Proof.Machine

theorem Sparse.rising_ins {α : Type} {m : Sparse α} (a : Nat) (v : α) (h : Sparse.rising m = true) :
    Sparse.rising (Sparse.ins m a v) = true :=
  (Sparse.rising_iff _).mpr (Sparse.ins_pairwise a v ((Sparse.rising_iff _).mp h))

theorem Sparse.rising_del {α : Type} {m : Sparse α} (a : Nat) (h : Sparse.rising m = true) : Sparse.rising (Sparse.del m a) = true :=
  (Sparse.rising_iff _).mpr (Sparse.del_pairwise a ((Sparse.rising_iff _).mp h))

theorem Sparse.rising_put {α : Type} [DecidableEq α] (d : α) {m : Sparse α} (a : Nat) (v : α) (h : Sparse.rising m = true) :
    Sparse.rising (Sparse.put d m a v) = true := by
  unfold Sparse.put; split
  · exact Sparse.rising_del a h
  · exact Sparse.rising_ins a v h

theorem Sparse.rising_filter {α : Type} {m : Sparse α} (p : Nat × α → Bool) (h : Sparse.rising m = true) :
    Sparse.rising (m.filter p) = true :=
  (Sparse.rising_iff _).mpr (((Sparse.rising_iff _).mp h).filter p)

theorem Sparse.rising_take {α : Type} {m : Sparse α} (n : Nat) (h : Sparse.rising m = true) : Sparse.rising (m.take n) = true :=
  (Sparse.rising_iff _).mpr (((Sparse.rising_iff _).mp h).take)

/-- A core's own lists in order. -/
def Core.ListsOk (c : Core) : Prop := Sparse.rising c.icache = true ∧ c.t.ListsOk

/-- The other cores: each once, under its own number, and not the one in focus. -/
def OthersOk (phys : BitVec 8) (l : Sparse Core) : Prop :=
  Sparse.rising l = true ∧ ∀ p ∈ l, p.2.phys.toNat = p.1 ∧ p.1 ≠ phys.toNat ∧ p.2.ListsOk

/-- What a waiting entry carries, with its lists in order. -/
def Work.ListsOk : Work → Prop
  | .resume t _ _ => t.ListsOk
  | _ => True

/-- Key slots and quad modes in order. -/
def Mem.ListsOk (m : Mem) : Prop := Sparse.rising m.keys = true ∧ Sparse.wf 0 m.tmode = true

/-- Expansion registers in order. -/
def Plat.ListsOk (p : Plat) : Prop := Sparse.rising p.expmode = true ∧ Sparse.rising p.expap = true

/-- Every task that waits, with its lists in order. -/
def ReadyOk (l : List Ready) : Prop := ∀ r ∈ l, r.work.ListsOk

/-- Every saved task, with its lists in order. -/
def ImagesOk (l : Sparse Saved) : Prop := ∀ p ∈ l, p.2.t.ListsOk

theorem listsOk_iff (s : State) : s.ListsOk ↔
    s.core.ListsOk ∧ OthersOk s.core.phys s.others ∧ s.mem.ListsOk ∧ s.plat.ListsOk ∧ ReadyOk s.sched.ready ∧
      ImagesOk s.images := by
  unfold State.ListsOk Core.ListsOk OthersOk Mem.ListsOk Plat.ListsOk ReadyOk ImagesOk State.cores Core.ListsOk
  constructor
  · rintro ⟨h1, h2, h3, h4, h5, h6, h7, h8, h9⟩
    refine ⟨h7 _ (List.mem_cons_self ..), ⟨h1, fun p hp => ?_⟩, ⟨h3, h4⟩, ⟨h5, h6⟩, ?_, h9⟩
    · exact ⟨(h2 p hp).1, (h2 p hp).2, h7 _ (List.mem_cons_of_mem _ (List.mem_map_of_mem hp))⟩
    intro r hr
    cases hw : r.work <;> simp [Work.ListsOk]
    exact h8 r hr _ _ _ hw
  · rintro ⟨h1, ⟨h2, h3⟩, ⟨h4, h5⟩, ⟨h6, h7⟩, h8, h9⟩
    refine ⟨h2, fun p hp => ⟨(h3 p hp).1, (h3 p hp).2.1⟩, h4, h5, h6, h7, ?_, ?_, h9⟩
    · intro c hc
      rcases List.mem_cons.mp hc with rfl | hc
      · exact h1
      · obtain ⟨p, hp, rfl⟩ := List.mem_map.mp hc
        exact (h3 p hp).2.2
    · intro r hr t b c hw
      have := h8 r hr
      rwa [hw] at this

theorem listsOk_mk (core : Core) (others ctxs) (mem : Mem) (sched : Sched) (host) (plat : Plat) (flash ports colls nextColl)
    (images : Sparse Saved) (nextImage now fresh turn agenda powered) :
    (State.mk core others ctxs mem sched host plat flash ports colls nextColl images nextImage now fresh turn agenda powered).ListsOk ↔
    core.ListsOk ∧ OthersOk core.phys others ∧ mem.ListsOk ∧ plat.ListsOk ∧ ReadyOk sched.ready ∧ ImagesOk images := listsOk_iff _

variable {s : State}

theorem State.ListsOk.ofCore (hs : s.ListsOk) : s.core.ListsOk := by
  obtain ⟨h, -, -, -, -, -⟩ := (listsOk_iff s).mp hs
  exact h

theorem State.ListsOk.ofOthers (hs : s.ListsOk) : OthersOk s.core.phys s.others := by
  obtain ⟨-, h, -, -, -, -⟩ := (listsOk_iff s).mp hs
  exact h

theorem State.ListsOk.ofMem (hs : s.ListsOk) : s.mem.ListsOk := by
  obtain ⟨-, -, h, -, -, -⟩ := (listsOk_iff s).mp hs
  exact h

theorem State.ListsOk.ofPlat (hs : s.ListsOk) : s.plat.ListsOk := by
  obtain ⟨-, -, -, h, -, -⟩ := (listsOk_iff s).mp hs
  exact h

theorem State.ListsOk.ofReady (hs : s.ListsOk) : ReadyOk s.sched.ready := by
  obtain ⟨-, -, -, -, h, -⟩ := (listsOk_iff s).mp hs
  exact h

theorem State.ListsOk.ofImages (hs : s.ListsOk) : ImagesOk s.images := by
  obtain ⟨-, -, -, -, -, h⟩ := (listsOk_iff s).mp hs
  exact h

theorem modC_listsOk {f : Core → Core} (hs : s.ListsOk) (hp : (f s.core).phys = s.core.phys) (hf : (f s.core).ListsOk) : (s.modC f).ListsOk := by
  have := (listsOk_iff s).mp hs
  rw [listsOk_iff]; simp_all

theorem modT_listsOk {f : Task → Task} (hs : s.ListsOk) (hf : (f s.core.t).ListsOk) : (s.modT f).ListsOk := by
  have := (listsOk_iff s).mp hs
  rw [listsOk_iff]; simp_all [Core.ListsOk]

theorem modM_listsOk {f : Mem → Mem} (hs : s.ListsOk) (hf : (f s.mem).ListsOk) : (s.modM f).ListsOk := by
  have := (listsOk_iff s).mp hs
  rw [listsOk_iff]; simp_all

theorem modS_listsOk {f : Sched → Sched} (hs : s.ListsOk) (hf : ReadyOk (f s.sched).ready) : (s.modS f).ListsOk := by
  have := (listsOk_iff s).mp hs
  rw [listsOk_iff]; simp_all

theorem modR_listsOk {f : Regs → Regs} (hs : s.ListsOk) : (s.modR f).ListsOk := modT_listsOk hs hs.ofCore.2

theorem modY_listsOk {f : TaskSys → TaskSys} (hs : s.ListsOk) : (s.modY f).ListsOk := modT_listsOk hs hs.ofCore.2

theorem modB_listsOk {f : Buffers → Buffers} (hs : s.ListsOk) : (s.modB f).ListsOk :=
  modC_listsOk (f := fun c => { c with buf := f c.buf }) hs rfl hs.ofCore

theorem modH_listsOk {f : Health → Health} (hs : s.ListsOk) : (s.modH f).ListsOk := modC_listsOk hs rfl hs.ofCore

theorem modTl_listsOk {f : Timelines → Timelines} (hs : s.ListsOk) : (s.modTl f).ListsOk := modT_listsOk hs hs.ofCore.2

theorem modX_listsOk {x : BitVec 12} {f : Ctx → Ctx} (hs : s.ListsOk) : (s.modX x f).ListsOk := hs

theorem modQ_listsOk {n : QName} {f : List Cmd → List Cmd} (hs : s.ListsOk) : (s.modQ n f).ListsOk := modT_listsOk hs hs.ofCore.2

theorem modCmd_listsOk {n : QName} {num} {f : Cmd → Cmd} (hs : s.ListsOk) : (s.modCmd n num f).ListsOk := modQ_listsOk hs

theorem advance_listsOk {n} (hs : s.ListsOk) : (s.advance n).ListsOk := modC_listsOk hs rfl hs.ofCore

/-- A run of an engine's language that succeeds keeps the lists in order. -/
def EKeeps {α : Type} (m : E α) : Prop := ∀ s, s.ListsOk → ∀ a t, m s = .ok (a, t) → t.ListsOk
namespace EKeeps
variable {α β : Type}

theorem pure (a : α) : EKeeps (pure a : E α) := by rintro s hs _ _ ⟨⟩; exact hs

theorem bind {m : E α} {k : α → E β} (hm : EKeeps m) (hk : ∀ a, EKeeps (k a)) : EKeeps (m >>= k) := by
  intro s hs a t h
  simp only [Bind.bind, StateT.bind, Except.bind] at h
  cases hr : m s with
  | error e => rw [hr] at h; cases h
  | ok r => rw [hr] at h; exact hk _ _ (hm s hs _ _ hr) a t h

theorem enow_bind {k : State → E β} (hk : ∀ s, s.ListsOk → EKeeps (k s)) : EKeeps (enow >>= k) := fun s hs => hk s hs s hs

theorem efail (c : BitVec 8) : EKeeps (efail c : E α) := by rintro s hs _ _ ⟨⟩

theorem efailAt (c : BitVec 8) (va l) : EKeeps (efailAt c va l : E α) := by rintro s hs _ _ ⟨⟩

theorem ewait : EKeeps (ewait : E α) := by rintro s hs _ _ ⟨⟩

theorem eend (c t) : EKeeps (eend c t : E α) := by rintro s hs _ _ ⟨⟩

theorem efailIf (b : Bool) (c : BitVec 8) : EKeeps (efailIf b c) := by
  unfold Machine.efailIf; split
  · exact efail c
  · exact pure ()

theorem echeck (o) : EKeeps (echeck o) := by
  unfold Machine.echeck; split
  · exact efail _
  · exact pure ()

theorem eupd {f : State → State} (hf : ∀ s, s.ListsOk → (f s).ListsOk) : EKeeps (eupd f) := by
  rintro s hs _ _ ⟨⟩; exact hf s hs
end EKeeps


theorem setS_listsOk {n x} (hs : s.ListsOk) : (s.setS n x).ListsOk := modR_listsOk hs

theorem setD_listsOk {n x} (hs : s.ListsOk) : (s.setD n x).ListsOk := modR_listsOk hs

theorem setV_listsOk {n x} (hs : s.ListsOk) : (s.setV n x).ListsOk := modR_listsOk hs

theorem orFlags_listsOk {n x} (hs : s.ListsOk) : (s.orFlags n x).ListsOk := modY_listsOk hs

theorem jump_listsOk {n} (hs : s.ListsOk) : (s.jump n).ListsOk := modC_listsOk hs rfl hs.ofCore

theorem modV_listsOk {f : View → View} (hs : s.ListsOk) (hf : Sparse.rising (f s.core.t.view).dirty = true) : (s.modV f).ListsOk :=
  modT_listsOk hs ⟨hf, hs.ofCore.2.2⟩

theorem foldl_listsOk {α : Type} {f : State → α → State} {l : List α} (hf : ∀ s x, s.ListsOk → (f s x).ListsOk) (hs : s.ListsOk) :
    (l.foldl f s).ListsOk := by
  induction l generalizing s with
  | nil => exact hs
  | cons x l ih => exact ih (hf s x hs)

theorem foldlM_listsOk {α ε : Type} {f : State → α → Except ε State} {l : List α}
    (hf : ∀ s x t, s.ListsOk → f s x = .ok t → t.ListsOk) (hs : s.ListsOk) {t : State} (h : l.foldlM f s = .ok t) : t.ListsOk := by
  induction l generalizing s with
  | nil => cases h; exact hs
  | cons x l ih =>
    rw [List.foldlM_cons] at h
    cases hr : f s x with
    | error e => rw [hr] at h; cases h
    | ok u => rw [hr] at h; exact ih (hf s x u hs hr) h

/-- A run of a control-core meaning keeps the lists in order, whether it succeeds or stops. -/
def MKeeps {α : Type} (m : M α) : Prop :=
  ∀ s, s.ListsOk → (∀ a t, m s = .ok (a, t) → t.ListsOk) ∧ ∀ e t, m s = .error (e, t) → t.ListsOk
namespace MKeeps
variable {α β : Type}

theorem pure (a : α) : MKeeps (pure a : M α) := by
  intro s hs; refine ⟨?_, ?_⟩ <;> rintro _ _ ⟨⟩; exact hs

theorem bind {m : M α} {k : α → M β} (hm : MKeeps m) (hk : ∀ a, MKeeps (k a)) : MKeeps (m >>= k) := by
  intro s hs
  obtain ⟨h1, h2⟩ := hm s hs
  cases hr : m s with
  | error e =>
    rw [bind_error hr]
    constructor <;> intro x t h <;> cases h
    exact h2 _ _ hr
  | ok r =>
    rw [bind_ok hr]
    exact hk _ _ (h1 _ _ hr)

theorem now_bind {k : State → M β} (hk : ∀ s, s.ListsOk → MKeeps (k s)) : MKeeps (now >>= k) := fun s hs => hk s hs s hs

theorem raise (f) : MKeeps (raise f : M α) := by
  intro s hs; refine ⟨?_, ?_⟩ <;> rintro _ _ ⟨⟩; exact hs

theorem wait : MKeeps (wait : M α) := by
  intro s hs; refine ⟨?_, ?_⟩ <;> rintro _ _ ⟨⟩; exact hs

theorem raiseLate (f) {g : State → State} (hg : ∀ s, s.ListsOk → (g s).ListsOk) : MKeeps (raiseLate f g : M α) := by
  intro s hs; refine ⟨?_, ?_⟩ <;> rintro _ _ ⟨⟩; exact hg s hs

theorem stay {g : State → State} (hg : ∀ s, s.ListsOk → (g s).ListsOk) : MKeeps (stay g : M α) := by
  intro s hs; refine ⟨?_, ?_⟩ <;> rintro _ _ ⟨⟩; exact hg s hs

theorem upd {g : State → State} (hg : ∀ s, s.ListsOk → (g s).ListsOk) : MKeeps (upd g) := by
  intro s hs; refine ⟨?_, ?_⟩ <;> rintro _ _ ⟨⟩; exact hg s hs

theorem failIf (c f) : MKeeps (failIf c f) := by
  unfold Machine.failIf; split
  · exact raise f
  · exact pure ()

theorem rdS (n) : MKeeps (rdS n) := by
  intro s hs; unfold Machine.rdS; split <;> refine ⟨?_, ?_⟩ <;> rintro _ _ ⟨⟩ <;> exact hs

theorem rdD (n) : MKeeps (rdD n) := by
  intro s hs; unfold Machine.rdD; split <;> refine ⟨?_, ?_⟩ <;> rintro _ _ ⟨⟩ <;> exact hs

theorem wrS (n x) : MKeeps (wrS n x) := upd fun _ hs => setS_listsOk hs
end MKeeps

/-- An outcome whose next state, if it has one, has its lists in order. -/
def OutOk (o : Out) : Prop := ∀ t, o = .next t → t.ListsOk

theorem OutOk.next (hs : s.ListsOk) : OutOk (.next s) := by rintro _ ⟨⟩; exact hs

end Sys2Proof.Machine
end

section
/-! Memory at its homes, translation, views and what the scheduler keeps have their lists in order (O11). -/

namespace Sys2Proof.Machine

variable {s : State}

theorem ite_listsOk {c : Prop} [Decidable c] {a b : State} (ha : a.ListsOk) (hb : b.ListsOk) : (if c then a else b).ListsOk := by
  split
  · exact ha
  · exact hb

theorem State.homePart_listsOk {pa : ℕ} {bs : List Byte} (hs : s.ListsOk) : (State.homePart s pa bs).ListsOk := by
  grind [State.homePart, modM_listsOk, Mem.ListsOk, State.ListsOk.ofMem]

theorem State.homeWrite_listsOk {pa : ℕ} {bs : List Byte} (hs : s.ListsOk) : (State.homeWrite s pa bs).ListsOk := by
  grind [State.homeWrite, foldl_listsOk, State.homePart_listsOk]

theorem State.charge_listsOk {ctx : BitVec 12} {pa : ℕ} {d : ℤ} {t' : State} (hs : s.ListsOk) (h : State.charge s ctx pa d = .ok t') :
    t'.ListsOk := by
  grind [State.charge, modX_listsOk]

/-- What is then done to the state of a success. -/
theorem map_listsOk {ε : Type} {r : Except ε State} {f : State → State} {t : State} (hr : ∀ u, r = .ok u → u.ListsOk)
    (hf : ∀ u, u.ListsOk → (f u).ListsOk) (h : r.map f = .ok t) : t.ListsOk := by
  cases r with
  | error e => cases h
  | ok u => cases h; exact hf u (hr u rfl)

theorem State.claimBlock_listsOk {ctx : BitVec 12} {blk : ℕ} {bs : List Byte} {t' : State} (hs : s.ListsOk)
    (h : State.claimBlock s ctx blk bs = .ok t') :
    t'.ListsOk := by
  unfold State.claimBlock at h
  grind [State.charge_listsOk, map_listsOk, modM_listsOk, Mem.ListsOk, State.ListsOk.ofMem]

theorem State.claim_listsOk {ctx : BitVec 12} {pa : ℕ} {bs : List Byte} {t' : State} (hs : s.ListsOk) (h : State.claim s ctx pa bs = .ok t') :
    t'.ListsOk :=
  foldlM_listsOk (fun _ _ _ hs h => by grind [State.claimBlock_listsOk]) hs h

theorem State.store_listsOk {ctx : BitVec 12} {pa : ℕ} {bs : List Byte} {t' : State} (hs : s.ListsOk) (h : State.store s ctx pa bs = .ok t') :
    t'.ListsOk :=
  map_listsOk (fun _ => State.claim_listsOk hs) (fun _ => State.homeWrite_listsOk) h

theorem State.homeWriteLe_listsOk {pa n x : ℕ} (hs : s.ListsOk) : (State.homeWriteLe s pa n x).ListsOk := by
  grind [State.homeWriteLe, State.homeWrite_listsOk]

theorem State.homeSetPois_listsOk {pa n : ℕ} (hs : s.ListsOk) : (State.homeSetPois s pa n).ListsOk := by
  grind [State.homeSetPois, modM_listsOk, Mem.ListsOk, State.ListsOk.ofMem]

theorem lookup_listsOk {ctx : BitVec 12} {va : ℕ} {t' : State} {r'} (hs : s.ListsOk) (h : lookup s ctx va = (t', r')) : t'.ListsOk := by
  grind [lookup, modM_listsOk, Mem.ListsOk, State.ListsOk.ofMem]

theorem noteAccess_listsOk {x : Xl} {a : Acc} (hs : s.ListsOk) : (noteAccess s x a).ListsOk := by
  grind [noteAccess, modM_listsOk, Mem.ListsOk, State.ListsOk.ofMem]

theorem State.sealLines_listsOk {x : Xl} {pa n : ℕ} (hs : s.ListsOk) : (State.sealLines s x pa n).ListsOk := by
  grind [State.sealLines, modM_listsOk, Mem.ListsOk, State.ListsOk.ofMem]

theorem keepFills_listsOk {s' : State} (hs : s.ListsOk) (hs' : s'.ListsOk) : (keepFills s s').ListsOk := by
  grind [keepFills, listsOk_mk, Core.ListsOk, Mem.ListsOk, State.ListsOk.ofCore, State.ListsOk.ofOthers, State.ListsOk.ofMem, State.ListsOk.ofPlat,
    State.ListsOk.ofReady, State.ListsOk.ofImages]

theorem installTlb_listsOk {t : TlbE} (hs : s.ListsOk) : (installTlb s t).ListsOk := by
  grind [installTlb, modC_listsOk, Core.ListsOk, State.ListsOk.ofCore, modM_listsOk, Mem.ListsOk, State.ListsOk.ofMem]

theorem translate_listsOk {ctx : BitVec 12} {va : Word} {a : Acc} {task : Bool} {t' : State} {r'} (hs : s.ListsOk)
    (h : translate s ctx va a task = (t', r')) :
    t'.ListsOk := by
  grind [translate, lookup_listsOk, noteAccess_listsOk, installTlb_listsOk]

theorem xlateAs_keeps {va : Word} {a : Acc} {task : Bool} : MKeeps (xlateAs va a task) := by
  grind [xlateAs, MKeeps, translate_listsOk]

theorem xlate_keeps {va : Word} {a : Acc} : MKeeps (xlate va a) := by
  grind [xlate, MKeeps, xlateAs_keeps]

theorem fetchLine_keeps {va : Word} : MKeeps (fetchLine va) := by
  grind [fetchLine, MKeeps, translate_listsOk, modC_listsOk, Core.ListsOk, State.ListsOk.ofCore, Sparse.rising_take, Sparse.rising_ins]

theorem pinLine_keeps {va : Word} {line : ℕ} : MKeeps (pinLine va line) := by
  grind [pinLine, MKeeps, modV_listsOk, Task.ListsOk, Core.ListsOk, State.ListsOk.ofCore]

theorem viewRead_keeps {va : Word} {pa n : ℕ} : MKeeps (viewRead va pa n) := by
  grind [viewRead, MKeeps.bind, MKeeps.now_bind, MKeeps.failIf, MKeeps.pure, pinLine_keeps]

theorem memRead_keeps {va : Word} {x : Xl} {n : ℕ} : MKeeps (memRead va x n) := by
  grind [memRead, viewRead_keeps, MKeeps.bind, MKeeps.now_bind, MKeeps.failIf, MKeeps.pure]

theorem State.acquire_listsOk (hs : s.ListsOk) : (State.acquire s).ListsOk := by
  grind [State.acquire, modV_listsOk, Task.ListsOk, Core.ListsOk, State.ListsOk.ofCore]

theorem State.post_listsOk {ty : ℕ} {code : BitVec 8} {ctx : BitVec 12} {w : ℕ} {rest : List Byte} (hs : s.ListsOk) :
    (State.post s ty code ctx w rest).ListsOk := by
  grind [State.post, listsOk_mk, State.ListsOk.ofCore, State.ListsOk.ofOthers, State.ListsOk.ofMem, State.ListsOk.ofPlat, State.ListsOk.ofReady,
    State.ListsOk.ofImages]

theorem State.postFault_listsOk {code : BitVec 8} {ctx : BitVec 12} {tcause tpc tupc tva ttl : Word} {lid : BitVec 32} (hs : s.ListsOk) :
    (State.postFault s code ctx tcause tpc tupc tva ttl lid).ListsOk := by
  grind [State.postFault, State.post_listsOk]

theorem State.postDrop_listsOk {ctx : BitVec 12} {src : ℕ} {va : Word} (hs : s.ListsOk) : (State.postDrop s ctx src va).ListsOk := by
  grind [State.postDrop, State.post_listsOk, modX_listsOk]

theorem State.modL_listsOk {n : ℕ} {f : Launch → Launch} (hs : s.ListsOk) : (State.modL s n f).ListsOk := by
  grind [State.modL, modS_listsOk, State.ListsOk.ofReady]

theorem joinAddr_listsOk {ctx : BitVec 12} {va : Word} {t' : State} {r'} (hs : s.ListsOk) (h : joinAddr s ctx va = (t', r')) : t'.ListsOk := by
  grind [joinAddr, translate_listsOk]

theorem foldl_ins_rising {α β : Type} {f : β → Nat} {g : β → α} {l : List β} {m : Sparse α} (h : Sparse.rising m = true) :
    Sparse.rising (l.foldl (fun m x => Sparse.ins m (f x) (g x)) m) = true := by
  induction l generalizing m with
  | nil => exact h
  | cons x l ih => exact ih (Sparse.rising_ins _ _ h)

theorem viewWrite_keeps {va : Word} {pa : ℕ} {bs : List Byte} : MKeeps (viewWrite va pa bs) := by
  have dirty (s : State) (hs : s.ListsOk) := foldl_ins_rising (f := (pa + ·)) (g := (bs.getD · 0)) (l := List.range bs.length) hs.ofCore.2.1
  grind [MKeeps, viewWrite, modV_listsOk]

/-- An accumulation over a list of a state with something beside it. -/
theorem foldl_fst_listsOk {α β : Type} {f : State × β → α → State × β} {l : List α} {a : State × β} (ha : a.1.ListsOk)
    (hf : ∀ a x, a.1.ListsOk → (f a x).1.ListsOk) : (l.foldl f a).1.ListsOk := by
  induction l generalizing a with
  | nil => exact ha
  | cons x l ih => exact ih (hf a x ha)

theorem State.publish_listsOk {ctx : BitVec 12} {dirty : Sparse Byte} {whole bad : List ℕ} {t' : State} {r'} (hs : s.ListsOk)
    (h : State.publish s ctx dirty whole bad = (t', r')) :
    t'.ListsOk := by
  have key : (s.publish ctx dirty whole bad).1.ListsOk :=
    foldl_fst_listsOk hs fun a w ha => by grind [→ State.store_listsOk, → foldlM_listsOk, State.homeSetPois_listsOk]
  rwa [h] at key

theorem memWrite_keeps {va : Word} {x : Xl} {bs : List Byte} : MKeeps (memWrite va x bs) := by
  grind [memWrite, MKeeps.now_bind, MKeeps.pure, viewWrite_keeps, → State.store_listsOk, MKeeps.raise, MKeeps.upd]

theorem State.commitSel_listsOk {sel : ℕ → Bool} {t' : State} {r'} (hs : s.ListsOk) (h : State.commitSel s sel = (t', r')) : t'.ListsOk := by
  grind [State.commitSel, → State.publish_listsOk, Sparse.rising_filter, modV_listsOk, Task.ListsOk, Core.ListsOk, State.ListsOk.ofCore]

theorem State.deviceWrite_listsOk {ctx : BitVec 12} {va : Word} {bs : List Byte} {t' : State} {r'} (hs : s.ListsOk)
    (h : State.deviceWrite s ctx va bs = (t', r')) :
    t'.ListsOk := by
  grind [State.deviceWrite, → translate_listsOk, → State.store_listsOk]

theorem State.timelineWrite_listsOk {ctx : BitVec 12} {slot : BitVec 8} {t : ℕ} {v : Word} (hs : s.ListsOk) :
    (State.timelineWrite s ctx slot t v).ListsOk := by
  grind [State.timelineWrite, → State.deviceWrite_listsOk, State.postDrop_listsOk]

theorem Sparse.rising_map {α β : Type} {m : Sparse α} (f : Nat × α → β) (h : Sparse.rising m = true) :
    Sparse.rising (m.map fun p => (p.1, f p)) = true :=
  (Sparse.rising_iff _).mpr (List.pairwise_map.mpr ((Sparse.rising_iff m).mp h))

theorem mapCores_listsOk {f : Core → Core} (hs : s.ListsOk) (hp : ∀ c, (f c).phys = c.phys) (hf : ∀ c, c.ListsOk → (f c).ListsOk) :
    (s.mapCores f).ListsOk := by
  obtain ⟨hc, ⟨hr, ho⟩, rest⟩ := (listsOk_iff s).mp hs
  refine (listsOk_iff _).mpr ⟨hf _ hc, ⟨Sparse.rising_map _ hr, fun p h => ?_⟩, rest⟩
  obtain ⟨q, hq, rfl⟩ := List.mem_map.mp h
  obtain ⟨h1, h2, h3⟩ := ho q hq
  exact ⟨(congrArg _ (hp q.2)).trans h1, (hp s.core).symm ▸ h2, hf _ h3⟩

theorem State.pushAt_listsOk {pool : Bool} {prio : BitVec 2} {ctx : BitVec 12} {launch : ℕ} {w : Work} (hs : s.ListsOk) (hw : w.ListsOk) :
    (s.pushAt pool prio ctx launch w).ListsOk := by
  grind [State.pushAt, modS_listsOk, ReadyOk, State.ListsOk.ofReady, → State.deviceWrite_listsOk, modX_listsOk]

theorem State.pushReady_listsOk {prio : BitVec 2} {ctx : BitVec 12} {launch : ℕ} {w : Work} (hs : s.ListsOk) (hw : w.ListsOk) :
    (State.pushReady s prio ctx launch w).ListsOk := by
  grind [State.pushReady, State.pushAt_listsOk]

theorem State.decJoin_listsOk {ctx : BitVec 12} {launch : ℕ} {va : Word} {pa : ℕ} {lid : BitVec 32} (hs : s.ListsOk) :
    (State.decJoin s ctx launch va pa lid).ListsOk := by
  grind [State.decJoin, State.post_listsOk, modS_listsOk, Work.ListsOk, State.ListsOk.ofReady, State.pushReady_listsOk, State.homeWriteLe_listsOk]

theorem State.decJoinOrPost_listsOk {ctx : BitVec 12} {launch : ℕ} {va : Word} {lid : BitVec 32} (hs : s.ListsOk) :
    (State.decJoinOrPost s ctx launch va lid).ListsOk := by
  grind [State.decJoinOrPost, → joinAddr_listsOk, State.decJoin_listsOk, State.postFault_listsOk]

theorem State.taskGone_listsOk {launch : ℕ} (hs : s.ListsOk) : (State.taskGone s launch).ListsOk := by
  grind [State.taskGone, modS_listsOk, State.ListsOk.ofReady, mapCores_listsOk, Core.ListsOk, State.decJoinOrPost_listsOk, State.modL_listsOk]

theorem State.mapTask_listsOk {uid : ℕ} {f : Task → Task} (hs : s.ListsOk) (hf : ∀ x0, x0.ListsOk → (f x0).ListsOk) :
    (State.mapTask s uid f).ListsOk := by
  grind [State.mapTask, Core.ListsOk, modS_listsOk, ReadyOk, Work.ListsOk, State.ListsOk.ofReady, mapCores_listsOk]

theorem State.setBar_listsOk {r : Bar} (hs : s.ListsOk) : (State.setBar s r).ListsOk := by
  grind [State.setBar, modS_listsOk, State.ListsOk.ofReady]

theorem State.departAll_listsOk {uid : ℕ} (hs : s.ListsOk) : (State.departAll s uid).ListsOk := by
  grind [State.departAll, modS_listsOk, State.ListsOk.ofReady]

theorem State.joinBars_listsOk {t : TaskId} {phys : BitVec 8} (hs : s.ListsOk) : (State.joinBars s t phys).ListsOk := by
  grind [State.joinBars, modS_listsOk, State.ListsOk.ofReady]

theorem State.standBars_listsOk {t : TaskId} {phys : BitVec 8} (hs : s.ListsOk) : (State.standBars s t phys).ListsOk := by
  grind [State.standBars, foldl_listsOk, State.setBar_listsOk]

theorem State.breakAll_listsOk {t : TaskId} {phys : BitVec 8} (hs : s.ListsOk) : (State.breakAll s t phys).ListsOk := by
  grind [State.breakAll, State.standBars_listsOk, modS_listsOk, State.ListsOk.ofReady]

theorem State.bankSlots_listsOk {n : ℕ} (hs : s.ListsOk) : (State.bankSlots s n).ListsOk := by
  grind [State.bankSlots, modS_listsOk, State.ListsOk.ofReady]

theorem State.rfCredit_listsOk (hs : s.ListsOk) : (State.rfCredit s).ListsOk := by
  grind [State.rfCredit, State.bankSlots_listsOk, modC_listsOk, Core.ListsOk, State.ListsOk.ofCore]

theorem State.rfCreditAll_listsOk (hs : s.ListsOk) : (State.rfCreditAll s).ListsOk := by
  grind [State.rfCreditAll, foldl_listsOk, State.bankSlots_listsOk, mapCores_listsOk, Core.ListsOk]

theorem State.rfEnd_listsOk (hs : s.ListsOk) : (State.rfEnd s).ListsOk := by
  grind [State.rfEnd, modC_listsOk, Core.ListsOk, State.ListsOk.ofCore, State.rfCredit_listsOk]

theorem State.dropPackets_listsOk {uid : ℕ} (hs : s.ListsOk) : (State.dropPackets s uid).ListsOk := by
  grind [State.dropPackets, modS_listsOk, State.ListsOk.ofReady]

theorem State.freeStack_listsOk {ctx : BitVec 12} {r : RStack} (hs : s.ListsOk) : (State.freeStack s ctx r).ListsOk := by
  grind [State.freeStack, modX_listsOk]

theorem State.dropStack_listsOk (hs : s.ListsOk) : (State.dropStack s).ListsOk := by
  grind [State.dropStack, modT_listsOk, Task.ListsOk, Core.ListsOk, State.ListsOk.ofCore, State.freeStack_listsOk]

theorem State.endColls_listsOk {hit : Coll → Bool} (hs : s.ListsOk) : (State.endColls s hit).ListsOk := by
  grind [State.endColls, listsOk_mk, State.ListsOk.ofCore, State.ListsOk.ofOthers, State.ListsOk.ofMem, State.ListsOk.ofPlat, State.ListsOk.ofReady,
    State.ListsOk.ofImages]

theorem State.loseColls_listsOk {uid : ℕ} {phys : BitVec 8} (hs : s.ListsOk) : (State.loseColls s uid phys).ListsOk := by
  grind [State.loseColls, State.endColls_listsOk, listsOk_mk, State.ListsOk.ofCore, State.ListsOk.ofOthers, State.ListsOk.ofMem,
    State.ListsOk.ofPlat, State.ListsOk.ofReady, State.ListsOk.ofImages]

theorem State.takeBack_listsOk {pa n v : ℕ} (hs : s.ListsOk) : (State.takeBack s pa n v).ListsOk := by
  grind [State.takeBack, State.homeWriteLe_listsOk]

theorem State.undoSpec_listsOk (hs : s.ListsOk) : (State.undoSpec s).ListsOk := by
  grind [State.undoSpec, foldl_listsOk, State.takeBack_listsOk]

theorem State.mapAll_listsOk {f : Task → Task} (hs : s.ListsOk) (hf : ∀ t, t.ListsOk → (f t).ListsOk) : (s.mapAll f).ListsOk := by
  refine modS_listsOk (mapCores_listsOk hs (fun _ => rfl) fun c hc => ⟨hc.1, hf _ hc.2⟩) fun r hr => ?_
  obtain ⟨q, hq, rfl⟩ := List.mem_map.mp hr
  have := hs.ofReady q hq
  rcases hw : q.work with _ | _ | ⟨t, b, c⟩ <;> simp_all [Work.ListsOk]

theorem Task.zero_listsOk : Task.zero.ListsOk := ⟨rfl, rfl⟩

theorem State.idleCore_listsOk (hs : s.ListsOk) : s.idleCore.ListsOk :=
  modC_listsOk (State.rfEnd_listsOk hs) rfl ⟨(State.rfEnd_listsOk hs).ofCore.1, Task.zero_listsOk⟩

theorem State.leaveCore_listsOk (hs : s.ListsOk) : s.leaveCore.ListsOk := by
  unfold State.leaveCore
  extract_lets
  split
  · exact State.idleCore_listsOk hs
  · exact modC_listsOk (State.idleCore_listsOk hs) rfl ⟨(State.idleCore_listsOk hs).ofCore.1, rfl, hs.ofCore.2.2⟩

theorem State.loseChannels_listsOk {phys : BitVec 8} (hs : s.ListsOk) : (State.loseChannels s phys).ListsOk := by
  grind [State.loseChannels, Task.ListsOk, State.mapAll_listsOk]

theorem State.kill_listsOk (hs : s.ListsOk) : (State.kill s).ListsOk := by
  grind [State.kill, State.loseColls_listsOk, State.dropStack_listsOk, State.undoSpec_listsOk, State.dropPackets_listsOk, State.breakAll_listsOk,
    State.loseChannels_listsOk, State.decJoinOrPost_listsOk, State.idleCore_listsOk, State.taskGone_listsOk]

theorem State.halt_listsOk {dblf div : Bool} (hs : s.ListsOk) : (State.halt s dblf div).ListsOk := by
  grind [State.halt, modC_listsOk, Core.ListsOk, State.ListsOk.ofCore]

theorem State.askHalt_listsOk {dblf div : Bool} (hs : s.ListsOk) : (State.askHalt s dblf div).ListsOk := by
  grind [State.askHalt, modC_listsOk, Core.ListsOk, State.ListsOk.ofCore, State.halt_listsOk]

theorem Core.uncommit_listsOk {c : Core} (hc : c.ListsOk) : (Core.uncommit c).ListsOk := by
  grind [Core.uncommit, Core.ListsOk, Task.ListsOk]

theorem State.clearFault_listsOk {f : FaultInfo} (hs : s.ListsOk) : (State.clearFault s f).ListsOk := by
  grind [State.clearFault, modC_listsOk, Core.ListsOk, State.ListsOk.ofCore, Task.ListsOk]

theorem commitSelM_keeps {sel : ℕ → Bool} : MKeeps (commitSelM sel) := by
  grind [commitSelM, MKeeps, → State.commitSel_listsOk, modT_listsOk, Task.ListsOk, Core.ListsOk, State.ListsOk.ofCore]

theorem commitM_keeps : MKeeps commitM := by
  grind [commitM, commitSelM_keeps]

theorem checkPolicy_keeps {p : Word} : MKeeps (checkPolicy p) := by
  grind [checkPolicy, MKeeps.failIf]

theorem State.rrAppend_listsOk {ctx : BitVec 12} {e : List Byte} (hs : s.ListsOk) : (State.rrAppend s ctx e).ListsOk := by
  grind [State.rrAppend, modX_listsOk, → State.deviceWrite_listsOk, State.postDrop_listsOk]

theorem capture_keeps {src : ℕ} {v : Word} {k : Word → M Unit} (hk : ∀ x0, MKeeps (k x0)) : MKeeps (capture src v k) := by
  grind [capture, MKeeps, State.rrAppend_listsOk, modX_listsOk, State.askHalt_listsOk]

theorem targetCheck_listsOk {t : Word} {t' : State} {r'} (hs : s.ListsOk) (h : targetCheck t s = (t', r')) : t'.ListsOk := by
  grind [targetCheck, MKeeps, fetchLine_keeps]

theorem transfer_keeps {t : Word} {reg : Bool} : MKeeps (transfer t reg) := by
  grind [transfer, MKeeps.bind, MKeeps.failIf, MKeeps.now_bind, → targetCheck_listsOk, MKeeps.raise, MKeeps.upd, jump_listsOk, MKeeps.wait]

theorem takeTrap_listsOk {f : FaultInfo} {pc : Word} (hs : s.ListsOk) : (takeTrap f pc s).ListsOk := by
  grind [takeTrap, State.askHalt_listsOk, modH_listsOk, State.postFault_listsOk, State.kill_listsOk, modC_listsOk, Core.ListsOk,
    State.ListsOk.ofCore, modT_listsOk, Task.ListsOk, → targetCheck_listsOk, jump_listsOk]

theorem returnTrap_listsOk (hs : s.ListsOk) : (returnTrap s).ListsOk := by
  grind [returnTrap, modT_listsOk, Task.ListsOk, Core.ListsOk, State.ListsOk.ofCore, modC_listsOk, takeTrap_listsOk, State.clearFault_listsOk]

end Sys2Proof.Machine
end

section
/-! The engines' language and the elementwise commands keep the lists in order (O11). -/

namespace Sys2Proof.Machine

variable {s : State}

theorem eElem_keeps {d : Desc} {r c : ℕ} : EKeeps (eElem d r c) := by
  grind [eElem, EKeeps.bind, EKeeps.enow_bind, EKeeps.efailIf, EKeeps.pure]

theorem eBytes_keeps {sp off n : ℕ} : EKeeps (eBytes sp off n) := by
  grind [eBytes, EKeeps.bind, EKeeps.enow_bind, EKeeps.efailIf, EKeeps.pure]

theorem eVal_keeps {d : Desc} {r c : ℕ} : EKeeps (eVal d r c) := by
  grind [eVal, EKeeps.bind, eElem_keeps, eBytes_keeps, EKeeps.pure]

theorem ePut_keeps {d : Desc} {r c x : ℕ} : EKeeps (ePut d r c x) := by
  grind [ePut, EKeeps.eupd, modB_listsOk]

theorem exlate_keeps {va : Word} {a : Acc} : EKeeps (exlate va a) := by
  grind [exlate, EKeeps, → translate_listsOk]

theorem writePiece_listsOk {va : Word} {pa : ℕ} {bs : List GByte} {t' : State} (hs : s.ListsOk) (h : writePiece s va pa bs = .ok t') :
    t'.ListsOk := by
  grind [writePiece, map_listsOk, foldl_listsOk, State.homeSetPois_listsOk, → State.store_listsOk]

theorem eCarryB_keeps {sp off n : ℕ} : EKeeps (eCarryB sp off n) := by
  grind [eCarryB, EKeeps.enow_bind, EKeeps.pure]

theorem eReadB_keeps {sp off n : ℕ} : EKeeps (eReadB sp off n) := by
  grind [eReadB, EKeeps.bind, eCarryB_keeps, EKeeps.efailIf, EKeeps.pure]

theorem eWriteB_keeps {sp off : ℕ} {bs : List GByte} : EKeeps (eWriteB sp off bs) := by
  grind [eWriteB, EKeeps.eupd, modB_listsOk]

theorem eConsume_keeps {bs : List GByte} : EKeeps (eConsume bs) := by
  grind [eConsume, EKeeps.bind, EKeeps.efailIf, EKeeps.pure]

theorem Prog.ok_listsOk {upc : ℕ} (hs : s.ListsOk) : (Prog.ok s upc).s.ListsOk := by
  grind [Prog.ok]

theorem unlessLower_keeps {c : Option (BitVec 8)} {m : M Unit} (hm : MKeeps m) : MKeeps (unlessLower c m) := by
  cases c with
  | none => exact hm
  | some c =>
    intro s hs
    have := hm s hs
    unfold unlessLower
    grind

theorem ePieces_keeps {a : Acc} {f : ℕ} {va : Word} {n : ℕ} : EKeeps (ePieces a f va n) := by
  induction f generalizing va n with
  | zero => exact EKeeps.pure _
  | succ f ih => grind [ePieces, EKeeps.bind, EKeeps.pure, exlate_keeps]

theorem runM_outOk {m : M Unit} (hs : s.ListsOk) (hm : MKeeps m) : OutOk (runM s m) := by
  have := hm s hs
  grind [runM, OutOk, takeTrap_listsOk, keepFills_listsOk, modC_listsOk, Core.ListsOk, State.ListsOk.ofCore]

theorem cc_outOk {priv : Bool} {m : M Unit} (hs : s.ListsOk) (hm : MKeeps m) : OutOk (cc s priv m) := runM_outOk hs (unlessLower_keeps hm)

theorem ccNext_outOk {priv : Bool} {m : M Unit} (hs : s.ListsOk) (hm : MKeeps m) : OutOk (ccNext s priv m) :=
  cc_outOk hs (hm.bind fun _ => .upd fun _ => advance_listsOk)

theorem writePieces_listsOk {l : List (Word × Xl × Nat)} {bs : List GByte} {t : State} (hs : s.ListsOk) (h : writePieces s l bs = .ok t) :
    t.ListsOk := by
  induction l generalizing s bs with
  | nil => cases h; exact hs
  | cons p l ih => grind [writePieces, → writePiece_listsOk, State.sealLines_listsOk]

theorem elems_listsOk {g : FGroup} {body : Nat → E FFlags} {n j : Nat} (hs : s.ListsOk) (hb : ∀ j, EKeeps (body j)) :
    (elems g body n j s).s.ListsOk := by
  induction n generalizing s j with
  | zero => exact hs
  | succ n ih =>
    have := hb j s hs
    grind [elems, Prog.ok, orFlags_listsOk]

theorem checkedElems_listsOk {g : FGroup} {chk : E Unit} {total upc : Nat} {body : Nat → E FFlags} (hs : s.ListsOk) (hc : EKeeps chk)
    (hb : ∀ j, EKeeps (body j)) : (checkedElems g chk total upc body s).s.ListsOk := by
  have := hc s hs
  grind [checkedElems, Prog.ok, elems_listsOk]

theorem whole_listsOk {m : E Unit} (hs : s.ListsOk) (hm : EKeeps m) : (whole m s).s.ListsOk := by
  have := hm s hs
  grind [whole, Prog.ok]

theorem eRange_keeps {a : Acc} {va : Word} {n : ℕ} : EKeeps (eRange a va n) := by
  grind [eRange, ePieces_keeps]

theorem eReadG_keeps {va : Word} {n : ℕ} : EKeeps (eReadG va n) := by
  grind [eReadG, EKeeps.bind, eRange_keeps, EKeeps.enow_bind, EKeeps.pure]

theorem eUseG_keeps {va : Word} {n : ℕ} : EKeeps (eUseG va n) := by
  grind [eUseG, EKeeps.bind, eRange_keeps, EKeeps.enow_bind, EKeeps.eend, EKeeps.efailAt, EKeeps.pure]

theorem eWriteAt_keeps {l : List (Word × Xl × ℕ)} {bs : List GByte} : EKeeps (eWriteAt l bs) := by
  grind [eWriteAt, EKeeps, → writePieces_listsOk]

theorem eWriteTier_keeps {l : List (Word × Xl × ℕ)} {bs : List GByte} : EKeeps (eWriteTier l bs) := by
  grind [eWriteTier, EKeeps.enow_bind, EKeeps.eend, eWriteAt_keeps]

theorem eWriteG_keeps {va : Word} {bs : List GByte} : EKeeps (eWriteG va bs) := by
  grind [eWriteG, EKeeps.bind, eRange_keeps, eWriteTier_keeps]

theorem policyAt_keeps {i : Instr} : MKeeps (policyAt i) := by
  grind [policyAt, MKeeps, checkPolicy_keeps]

theorem Task.tileRestart_listsOk {t : Task} (ht : t.ListsOk) : (Task.tileRestart t).ListsOk := by
  grind [Task.tileRestart, Task.ListsOk]

theorem Task.tileStop_listsOk {t : Task} {num : Word} {f : FaultInfo} (ht : t.ListsOk) : (Task.tileStop t num f).ListsOk := by
  grind [Task.tileStop, Task.tileRestart_listsOk, Task.ListsOk]

theorem Task.tileError_listsOk {t : Task} (ht : t.ListsOk) : (Task.tileError t).ListsOk := by
  grind [Task.tileError, Task.ListsOk, Task.tileStop_listsOk, Task.tileRestart_listsOk]

theorem bindSlots_listsOk {num : Word} {l : List (ℕ × ℕ)} (hs : s.ListsOk) : (bindSlots s num l).ListsOk := by
  grind [bindSlots, modT_listsOk, Task.ListsOk, Core.ListsOk, State.ListsOk.ofCore, foldl_listsOk]

theorem topBlkop_keeps {k : Cmd} {l : List (ℕ × ℕ)} : EKeeps (topBlkop k l) := by
  grind [topBlkop, EKeeps.enow_bind, EKeeps.efailIf]

theorem State.asRouted_listsOk {k : Cmd} (hs : s.ListsOk) : (State.asRouted s k).ListsOk := by
  grind [State.asRouted, modY_listsOk, modX_listsOk]

theorem State.backFrom_listsOk {s0 : State} (hs : s.ListsOk) (hs0 : s0.ListsOk) : (State.backFrom s s0).ListsOk := by
  grind [State.backFrom, modY_listsOk, modX_listsOk]

theorem State.underRegs_listsOk {k : Cmd} {f : State → State} (hs : s.ListsOk) (hf : ∀ x0, x0.ListsOk → (f x0).ListsOk) :
    (State.underRegs s k f).ListsOk := by
  grind [State.underRegs, State.backFrom_listsOk, State.asRouted_listsOk]

theorem State.keepWalk_listsOk {va : Word} (hs : s.ListsOk) : (State.keepWalk s va).ListsOk := by
  grind [State.keepWalk, keepFills_listsOk, → lookup_listsOk]

theorem State.setRes_listsOk {k : Cmd} {bs : List GByte} (hs : s.ListsOk) : (State.setRes s k bs).ListsOk := by
  grind [State.setRes, modCmd_listsOk]

theorem eResUse_keeps {k : Cmd} {l : List (ℕ × ℕ)} : EKeeps (eResUse k l) := by
  grind [eResUse, EKeeps.bind, EKeeps.efailIf]

theorem eResAt_keeps {k : Cmd} {off n : ℕ} : EKeeps (eResAt k off n) := by
  grind [eResAt, EKeeps.bind, eResUse_keeps, EKeeps.pure]

theorem eRes_keeps {q : QName} {k : Cmd} {bs : List Byte} : EKeeps (eRes q k bs) := by
  grind [eRes, EKeeps.eupd, modCmd_listsOk]

theorem checkTags_keeps {k : Cmd} {sf df : BitVec 4} : EKeeps (checkTags k sf df) := by
  grind [checkTags, EKeeps.bind, EKeeps.efailIf]

theorem checkCvt_keeps {k : Cmd} {sf df : BitVec 4} : EKeeps (checkCvt k sf df) := by
  grind [checkCvt, EKeeps.bind, EKeeps.enow_bind, EKeeps.echeck, checkTags_keeps, topBlkop_keeps]

theorem cvtRun_listsOk {k : Cmd} {chk : E Unit} {f : ℕ → Num → ℕ × FFlags} (hchk : EKeeps chk) (hs : s.ListsOk) :
    (cvtRun k chk f s).s.ListsOk := by
  grind [cvtRun, checkedElems_listsOk, EKeeps.bind, eVal_keeps, ePut_keeps, EKeeps.pure]

theorem runCvt_listsOk {k : Cmd} {rm : RM} {sat : Bool} {sf df : BitVec 4} (hs : s.ListsOk) : (runCvt k rm sat sf df s).s.ListsOk := by
  grind [runCvt, cvtRun_listsOk, checkCvt_keeps]

theorem runCvts_listsOk {k : Cmd} {sat : Bool} {sf df : BitVec 4} (hs : s.ListsOk) : (runCvts k sat sf df s).s.ListsOk := by
  grind [runCvts, cvtRun_listsOk, checkCvt_keeps]

theorem checkSpatial_keeps {k : Cmd} : EKeeps (checkSpatial k) := by
  grind [checkSpatial, EKeeps.efailIf]

theorem runDqw_listsOk {k : Cmd} {rm : RM} {sf df : BitVec 4} (hs : s.ListsOk) : (runDqw k rm sf df s).s.ListsOk := by
  grind [runDqw, cvtRun_listsOk, EKeeps.bind, checkCvt_keeps, checkSpatial_keeps]

theorem runScalex_listsOk {k : Cmd} {rm : RM} {n : BitVec 10} (hs : s.ListsOk) : (runScalex k rm n s).s.ListsOk := by
  grind [runScalex, EKeeps.bind, EKeeps.enow_bind, EKeeps.echeck, EKeeps.efailIf, checkSpatial_keeps, topBlkop_keeps, cvtRun_listsOk]

theorem runRetag_listsOk {v : Reg} {tag : FTag} (hs : s.ListsOk) : (runRetag v tag s).s.ListsOk := by
  grind [runRetag, Prog.ok_listsOk, setV_listsOk]

theorem State.spillPut_listsOk {off : ℕ} {bs : List Byte} (hs : s.ListsOk) : (State.spillPut s off bs).ListsOk := by
  grind [State.spillPut, modT_listsOk, Task.ListsOk, Core.ListsOk, State.ListsOk.ofCore, writeBytes_wf]

theorem State.spillPutG_listsOk {off : ℕ} {bs : List GByte} (hs : s.ListsOk) : (State.spillPutG s off bs).ListsOk := by
  grind [State.spillPutG, foldl_listsOk, modT_listsOk, Task.ListsOk, Core.ListsOk, State.ListsOk.ofCore, State.spillPut_listsOk]

theorem runTagget_listsOk {v : Reg} {off : BitVec 14} (hs : s.ListsOk) : (runTagget v off s).s.ListsOk := by
  grind [runTagget, whole_listsOk, EKeeps.bind, EKeeps.efailIf, EKeeps.eupd, State.spillPut_listsOk]

theorem gradAdd_keeps {g : Desc} {r c : ℕ} {y : Num} : EKeeps (gradAdd g r c y) := by
  grind [gradAdd, EKeeps.bind, eVal_keeps, ePut_keeps, EKeeps.pure]

theorem State.walkFills_listsOk {e : EStop} (hs : s.ListsOk) : (s.walkFills e).ListsOk := by
  unfold State.walkFills
  split
  · exact State.keepWalk_listsOk hs
  · exact hs

theorem settleCmd_listsOk {q : QName} {k : Cmd} {p : Prog} (hp : p.s.ListsOk) : (settleCmd q k p).ListsOk := by
  grind [settleCmd, modCmd_listsOk, State.walkFills_listsOk]

theorem State.enqueue_listsOk {i : Instr} {kind : CmdKind} {tok : Tok} {descs : List Desc} {vals : List Word} {blk : Option BlkRef} {q : QName}
    (hs : s.ListsOk) : (s.enqueue i kind tok descs vals blk q).ListsOk := by
  unfold State.enqueue
  extract_lets tl num x k4 num2 s1 s2 s3 k
  have h2 : s2.ListsOk := by grind [modTl_listsOk]
  have h3 : s3.ListsOk := by grind [modTl_listsOk]
  exact modQ_listsOk h3

theorem captureRegs_keeps {l : List Reg} : MKeeps (captureRegs l) := by
  induction l with
  | nil => exact .pure _
  | cons r l ih => exact .bind (.rdS r) fun _ => .bind ih fun _ => .pure _

theorem captureDescs_keeps {l : List DCode} : MKeeps (captureDescs l) := by
  induction l with
  | nil => exact .pure _
  | cons r l ih => exact .bind (.rdD r) fun _ => .bind ih fun _ => .pure _

/-- A routed instruction keeps the lists in order where the control core's own part does. -/
theorem routed_outOk {i : Instr} {also : M Unit} (ha : MKeeps also) (hs : s.ListsOk) : OutOk (routed i also s) := by
  refine runM_outOk hs ?_
  split
  · exact .pure _
  refine .now_bind fun s0 _ => .bind policyAt_keeps fun _ => .bind (.failIf _ _) fun _ => .bind captureRegs_keeps fun vals => ?_
  refine .bind captureDescs_keeps fun descs => .bind ha fun _ => .now_bind fun u _ => ?_
  split
  · exact .wait
  · refine .bind (.upd fun _ => State.enqueue_listsOk) fun _ => .upd fun t ht => advance_listsOk (modT_listsOk ht ht.ofCore.2)

@[simp] theorem execCvt_outOk {tk : Tok} {dD dA : DCode} {rm : RM} {sat : Bool} {sf df : BitVec 4} (hs : s.ListsOk) :
    OutOk (execCvt tk dD dA rm sat sf df s) := by
  grind [execCvt, routed_outOk, MKeeps.pure]

@[simp] theorem execCvts_outOk {tk : Tok} {dD dA : DCode} {rb rc : Reg} {sat : Bool} {sf df : BitVec 4} (hs : s.ListsOk) :
    OutOk (execCvts tk dD dA rb rc sat sf df s) := by
  grind [execCvts, routed_outOk, MKeeps.pure]

@[simp] theorem execQntw_outOk {tk : Tok} {dD dA : DCode} {rm : RM} {sf df : BitVec 4} (hs : s.ListsOk) : OutOk (execQntw tk dD dA rm sf df s) := by
  grind [execQntw, routed_outOk, MKeeps.pure]

@[simp] theorem execDqw_outOk {tk : Tok} {dD dA : DCode} {rm : RM} {sf df : BitVec 4} (hs : s.ListsOk) : OutOk (execDqw tk dD dA rm sf df s) := by
  grind [execDqw, routed_outOk, MKeeps.pure]

@[simp] theorem execRetag_outOk {tk : Tok} {v : Reg} {tag : FTag} (hs : s.ListsOk) : OutOk (execRetag tk v tag s) := by
  grind [execRetag, routed_outOk, MKeeps.pure]

@[simp] theorem execRetagDsc_outOk {tk : Tok} {dd : DCode} {tag : FTag} (hs : s.ListsOk) : OutOk (execRetagDsc tk dd tag s) := by
  grind [execRetagDsc, routed_outOk, MKeeps.bind, MKeeps.rdD, MKeeps.now_bind, MKeeps.upd, setD_listsOk, MKeeps.pure]

@[simp] theorem execTagget_outOk {tk : Tok} {v : Reg} {off : BitVec 14} (hs : s.ListsOk) : OutOk (execTagget tk v off s) := by
  grind [execTagget, routed_outOk, MKeeps.pure]

@[simp] theorem execTagchk_outOk {tk : Tok} {noexp : Bool} {x : TagReg} {tag : FTag} (hs : s.ListsOk) : OutOk (execTagchk tk noexp x tag s) := by
  grind [execTagchk, routed_outOk, MKeeps.pure]

@[simp] theorem execScalex_outOk {tk : Tok} {rm : RM} {dD dA : DCode} {n : BitVec 10} (hs : s.ListsOk) : OutOk (execScalex tk rm dD dA n s) := by
  grind [execScalex, routed_outOk, MKeeps.pure]

theorem runTagchk_listsOk {k : Cmd} {noexp : Bool} {x : TagReg} {tag : FTag} (hs : s.ListsOk) : (runTagchk k noexp x tag s).s.ListsOk :=
  whole_listsOk hs (.efailIf _ _)

end Sys2Proof.Machine
end

section
/-! The copy engines and the atomics keep the lists in order (O11). -/

namespace Sys2Proof.Machine

variable {s : State}

theorem runTrvl_listsOk {out : Bool} {l : ℕ} {a : Word} {ss ds : BitVec 32} (hs : s.ListsOk) : (runTrvl out l a ss ds s).s.ListsOk := by
  grind [runTrvl, Prog.ok_listsOk, modT_listsOk, Task.ListsOk, Core.ListsOk, State.ListsOk.ofCore]

theorem runTrvs_listsOk {out : Bool} {mode : OobMode} {a b c : Word} {bs : Bounds} (hs : s.ListsOk) : (runTrvs out mode a b c bs s).s.ListsOk := by
  grind [runTrvs, Prog.ok_listsOk, modT_listsOk, Task.ListsOk, Core.ListsOk, State.ListsOk.ofCore]

theorem copyLoop_listsOk {chk : E Unit} {count upc : ℕ} {body : ℕ → E Unit} {mark : State → ℕ → State} (hchk : EKeeps chk)
    (hbody : ∀ x0, EKeeps (body x0)) (hmark : ∀ x0 x1, x0.ListsOk → (mark x0 x1).ListsOk) (hs : s.ListsOk) :
    (copyLoop chk count upc body mark s).s.ListsOk := by
  grind [copyLoop, checkedElems_listsOk, EKeeps.bind, EKeeps.pure, foldl_listsOk]

theorem copyInElem_keeps {t : Traverse} {sp esz base : ℕ} {g : Word} {hbm : Bool} {j : ℕ} : EKeeps (copyInElem t sp esz base g hbm j) := by
  grind [copyInElem, EKeeps.efail, eWriteB_keeps, EKeeps.bind, eRange_keeps, EKeeps.eend, EKeeps.enow_bind]

theorem copyOutElem_keeps {t : Traverse} {sp esz base : ℕ} {g : Word} {hbm : Bool} {j : ℕ} : EKeeps (copyOutElem t sp esz base g hbm j) := by
  grind [copyOutElem, EKeeps.efail, EKeeps.pure, EKeeps.bind, eRange_keeps, EKeeps.eend, eReadB_keeps, eWriteTier_keeps]

theorem checkRows_keeps {k : Cmd} {sp : ℕ} {dstride : BitVec 32} {out : Bool} : EKeeps (checkRows k sp dstride out) := by
  grind [checkRows, EKeeps.bind, EKeeps.enow_bind, EKeeps.efailIf]

theorem readIndex_keeps {l : Word} {j : ℕ} : EKeeps (readIndex l j) := by
  grind [readIndex, EKeeps.bind, eUseG_keeps, EKeeps.pure]

theorem fardSector_keeps {k : Cmd} {sp : FSpace} {i : ℕ} : EKeeps (fardSector k sp i) := by
  grind [fardSector, EKeeps.bind, EKeeps.enow_bind, eWriteB_keeps, eWriteG_keeps, EKeeps.eend]

theorem accBuf_keeps {fmt : BitVec 4} {off : ℤ} {y : Num} : EKeeps (accBuf fmt off y) := by
  grind [accBuf, EKeeps.bind, EKeeps.efailIf, eBytes_keeps, EKeeps.eupd, modY_listsOk, modB_listsOk]

theorem atomXlate_keeps {va : Word} : EKeeps (atomXlate va) := by
  grind [atomXlate, EKeeps.bind, exlate_keeps, EKeeps.efailAt, EKeeps.pure]

theorem accGlobal_keeps {fmt : BitVec 4} {va : Word} {y : Num} : EKeeps (accGlobal fmt va y) := by
  grind [accGlobal, EKeeps.pure, EKeeps.efailAt, EKeeps.bind, atomXlate_keeps, EKeeps.enow_bind, EKeeps.eend, eWriteAt_keeps, EKeeps.eupd,
    modY_listsOk]

theorem adjDest_keeps {l : List (ℤ × ℕ)} : EKeeps (adjDest l) := by
  grind [adjDest, EKeeps.enow_bind, EKeeps.efailIf]

@[simp] theorem execTrvlIn_outOk {tk : Tok} {lvl : BitVec 3} {ra : Reg} {ss ds : BitVec 32} (hs : s.ListsOk) :
    OutOk (execTrvlIn tk lvl ra ss ds s) := by
  grind [execTrvlIn, routed_outOk, MKeeps.pure]

@[simp] theorem execTrvlOut_outOk {tk : Tok} {lvl : BitVec 3} {ra : Reg} {ss ds : BitVec 32} (hs : s.ListsOk) :
    OutOk (execTrvlOut tk lvl ra ss ds s) := by
  grind [execTrvlOut, routed_outOk, MKeeps.pure]

@[simp] theorem execTrvsIn_outOk {tk : Tok} {mode : OobMode} {ra rb rc : Reg} {b : Bounds} (hs : s.ListsOk) :
    OutOk (execTrvsIn tk mode ra rb rc b s) := by
  grind [execTrvsIn, routed_outOk, MKeeps.pure]

@[simp] theorem execTrvsOut_outOk {tk : Tok} {mode : OobMode} {ra rb rc : Reg} {b : Bounds} (hs : s.ListsOk) :
    OutOk (execTrvsOut tk mode ra rb rc b s) := by
  grind [execTrvsOut, routed_outOk, MKeeps.pure]

@[simp] theorem execCopyIn_outOk {tk : Tok} {sp : BSpace} {rd ra rb : Reg} {off : BitVec 20} {f : CopyF} (hs : s.ListsOk) :
    OutOk (execCopyIn tk sp rd ra rb off f s) := by
  grind [execCopyIn, routed_outOk, MKeeps.pure]

@[simp] theorem execCopyOut_outOk {tk : Tok} {sp : BSpace} {rd ra rb : Reg} {off : BitVec 20} {f : CopyF} (hs : s.ListsOk) :
    OutOk (execCopyOut tk sp rd ra rb off f s) := by
  grind [execCopyOut, routed_outOk, MKeeps.pure]

@[simp] theorem execFillIn_outOk {tk : Tok} {sp : BSpace} {rd ra : Reg} {esz : BitVec 2} (hs : s.ListsOk) : OutOk (execFillIn tk sp rd ra esz s) := by
  grind [execFillIn, routed_outOk, MKeeps.pure]

@[simp] theorem execFillOut_outOk {tk : Tok} {rd ra rb : Reg} {off : BitVec 20} {esz : BitVec 2} (hs : s.ListsOk) :
    OutOk (execFillOut tk rd ra rb off esz s) := by
  grind [execFillOut, routed_outOk, MKeeps.pure]

@[simp] theorem execGthr_outOk {tk : Tok} {sp : BSpace} {rd : Reg} {dT : DCode} {rb rc pol : Reg} {dstride : BitVec 32} (hs : s.ListsOk) :
    OutOk (execGthr tk sp rd dT rb rc pol dstride s) := by
  grind [execGthr, routed_outOk, MKeeps.pure]

@[simp] theorem execSctr_outOk {tk : Tok} {sp : BSpace} {dT : DCode} {ra rb rc pol : Reg} {dstride : BitVec 32} (hs : s.ListsOk) :
    OutOk (execSctr tk sp dT ra rb rc pol dstride s) := by
  grind [execSctr, routed_outOk, MKeeps.pure]

@[simp] theorem execFard_outOk {tk : Tok} {sp : FSpace} {w : BitVec 2} {rd ra rb rc : Reg} (hs : s.ListsOk) :
    OutOk (execFard tk sp w rd ra rb rc s) := by
  grind [execFard, routed_outOk, MKeeps.pure]

@[simp] theorem execCmpx_outOk {tk : Tok} {cmp : Bool} {ra : Reg} (hs : s.ListsOk) : OutOk (execCmpx tk cmp ra s) := by
  grind [execCmpx, routed_outOk, MKeeps.pure]

@[simp] theorem execTierq_outOk {rd : Reg} {store : Bool} {ra : Reg} (hs : s.ListsOk) : OutOk (execTierq rd store ra s) := by
  grind [execTierq, ccNext_outOk, MKeeps.bind, MKeeps.rdS, MKeeps.now_bind, MKeeps.failIf, capture_keeps, MKeeps.wrS]

theorem atomEvent_keeps {ty : BitVec 4} {va : Word} {pa : ℕ} {a : AtomAct} : EKeeps (atomEvent ty va pa a) := by
  grind [atomEvent, EKeeps, EKeeps.enow_bind, EKeeps.eend, EKeeps.efailAt, → writePiece_listsOk, modY_listsOk, EKeeps.pure]

theorem awrTElem_keeps {k : Cmd} {f : AtomF} {sp : BSpace} {off : BitVec 20} {j : ℕ} : EKeeps (awrTElem k f sp off j) := by
  grind [awrTElem, EKeeps.efail, EKeeps.pure, EKeeps.efailAt, EKeeps.bind, atomXlate_keeps, eBytes_keeps, atomEvent_keeps]

theorem settleAtom_listsOk {k : Cmd} {p : Prog} (hp : p.s.ListsOk) : (settleAtom k p).ListsOk := by
  grind [settleAtom, modCmd_listsOk, settleCmd_listsOk]

@[simp] theorem execSpeculativeConfirm_outOk (hs : s.ListsOk) : OutOk (execSpeculativeConfirm s) := by
  grind [execSpeculativeConfirm, OutOk, modCmd_listsOk, modT_listsOk, Task.ListsOk, Core.ListsOk, State.ListsOk.ofCore]

theorem portWrite_listsOk {pa : ℕ} {mask : Word} {data : List Byte} (hs : s.ListsOk) : (portWrite s pa mask data).ListsOk := by
  grind [portWrite, foldl_listsOk, State.homeWrite_listsOk]

theorem portAtom_listsOk {addr : ℕ} {ctx : BitVec 12} {ty : BitVec 4} {a : AtomAct} {t' : State} {r'} (hs : s.ListsOk)
    (h : portAtom s addr ctx ty a = (t', r')) :
    t'.ListsOk := by
  grind [portAtom, → State.store_listsOk]

theorem portPerform_listsOk {r : PortReq} {t' : State} {r'} (hs : s.ListsOk) (h : portPerform s r = (t', r')) : t'.ListsOk := by
  grind [portPerform, portWrite_listsOk, → portAtom_listsOk]

theorem State.setPort_listsOk {c : ℕ} {p : Port} (hs : s.ListsOk) : (State.setPort s c p).ListsOk := by
  grind [State.setPort, listsOk_mk, State.ListsOk.ofCore, State.ListsOk.ofOthers, State.ListsOk.ofMem, State.ListsOk.ofPlat, State.ListsOk.ofReady,
    State.ListsOk.ofImages]

theorem portSend_listsOk {c : ℕ} (hs : s.ListsOk) : (portSend s c).ListsOk := by
  grind [portSend, → portPerform_listsOk, State.setPort_listsOk]

theorem portRequest_outOk {c : ℕ} {i : PortReq} (hs : s.ListsOk) : OutOk (portRequest c i s) := by
  grind [portRequest, OutOk, portSend_listsOk, State.setPort_listsOk]

@[simp] theorem execPortRd_outOk {chan addr : ℕ} (hs : s.ListsOk) : OutOk (execPortRd chan addr s) := by
  grind [execPortRd, portRequest_outOk]

@[simp] theorem execPortWr_outOk {chan addr : ℕ} {mask : Word} {data : List Byte} (hs : s.ListsOk) : OutOk (execPortWr chan addr mask data s) := by
  grind [execPortWr, portRequest_outOk]

@[simp] theorem execPortAop_outOk {chan addr : ℕ} {ctx : BitVec 12} {u : Bool} {ty opc : BitVec 4} {v : Word} (hs : s.ListsOk) :
    OutOk (execPortAop chan addr ctx u ty opc v s) := by
  grind [execPortAop, portRequest_outOk]

@[simp] theorem execPortAxc_outOk {chan addr : ℕ} {ctx : BitVec 12} {ty : BitVec 4} {v : Word} (hs : s.ListsOk) :
    OutOk (execPortAxc chan addr ctx ty v s) := by
  grind [execPortAxc, portRequest_outOk]

@[simp] theorem execPortAcs_outOk {chan addr : ℕ} {ctx : BitVec 12} {ty : BitVec 4} {cmp new : Word} (hs : s.ListsOk) :
    OutOk (execPortAcs chan addr ctx ty cmp new s) := by
  grind [execPortAcs, portRequest_outOk]

@[simp] theorem execPortReply_outOk {chan : ℕ} {tag : BitVec 3} (hs : s.ListsOk) : OutOk (execPortReply chan tag s) := by
  grind [execPortReply, OutOk, portSend_listsOk, State.setPort_listsOk]

@[simp] theorem execAwr_outOk {tk : Tok} {f : AtomF} {rd ra rb : Reg} {off : BitVec 20} (hs : s.ListsOk) : OutOk (execAwr tk f rd ra rb off s) := by
  grind [execAwr, routed_outOk, MKeeps.pure]

@[simp] theorem execAwrT_outOk {tk : Tok} {f : AtomF} {sp : BSpace} {ra rb : Reg} {off : BitVec 20} (hs : s.ListsOk) :
    OutOk (execAwrT tk f sp ra rb off s) := by
  grind [execAwrT, routed_outOk, MKeeps.pure]

@[simp] theorem execAxch_outOk {tk : Tok} {f : AtomF} {rd ra rb : Reg} {off : BitVec 20} (hs : s.ListsOk) : OutOk (execAxch tk f rd ra rb off s) := by
  grind [execAxch, routed_outOk, MKeeps.pure]

@[simp] theorem execAcas_outOk {tk : Tok} {f : AtomF} {rd ra rb rc : Reg} {off : BitVec 20} (hs : s.ListsOk) :
    OutOk (execAcas tk f rd ra rb rc off s) := by
  grind [execAcas, routed_outOk, MKeeps.pure]

@[simp] theorem execAflg_outOk {clr : Bool} {rd : Reg} (hs : s.ListsOk) : OutOk (execAflg clr rd s) := by
  grind [execAflg, ccNext_outOk, MKeeps.bind, MKeeps.now_bind, capture_keeps, MKeeps.wrS, MKeeps.upd, modY_listsOk]

theorem checkCopy_keeps {t : Traverse} {o : CopyOp} {blk : Bool} : EKeeps (checkCopy t o blk) := by
  refine .enow_bind fun s _ => ?_
  iterate 7 refine .bind (.efailIf _ _) fun _ => ?_
  exact .efailIf _ _

theorem adjClass4_listsOk {k : Cmd} {gd ga : Desc} (hs : s.ListsOk) : (adjClass4 k gd ga s).s.ListsOk := by
  refine checkedElems_listsOk hs ?_ fun i => ?_
  · exact .enow_bind fun _ _ => .bind (.echeck _) fun _ => topBlkop_keeps
  · refine .bind eVal_keeps fun x => ?_
    obtain ⟨v, f⟩ := x
    dsimp only
    split <;> grind [EKeeps.bind, EKeeps.pure, eResAt_keeps, eVal_keeps, ePut_keeps, gradAdd_keeps]

theorem fardStart_keeps {k : Cmd} {sp : FSpace} : EKeeps (fardStart k sp) := by
  refine .enow_bind fun s _ => ?_
  iterate 7 refine .bind (.efailIf _ _) fun _ => ?_
  exact .eupd fun _ => modX_listsOk

theorem groupVals_keeps {a : Desc} {g c x3 : ℕ} : EKeeps (groupVals a g c x3) := by
  induction x3 generalizing a g c with
  | zero => grind [groupVals, EKeeps.pure, EKeeps.bind, eVal_keeps]
  | succ n ih => grind [groupVals, EKeeps.pure, EKeeps.bind, eVal_keeps]

theorem putCodes_keeps {d : Desc} {c x2 : ℕ} {x3 : List ℤ} : EKeeps (putCodes d c x2 x3) := by
  induction x3 generalizing d c x2 with
  | nil => grind [putCodes, EKeeps.pure, EKeeps.bind, ePut_keeps]
  | cons x l ih => grind [putCodes, EKeeps.pure, EKeeps.bind, ePut_keeps]

theorem runQntw_listsOk {k : Cmd} {rm : RM} {sf df : BitVec 4} (hs : s.ListsOk) : (runQntw k rm sf df s).s.ListsOk := by
  grind [runQntw, EKeeps, checkedElems_listsOk, EKeeps.bind, checkCvt_keeps, checkSpatial_keeps, groupVals_keeps, putCodes_keeps, EKeeps.eupd,
    modB_listsOk, EKeeps.pure]

theorem runCopyIn_listsOk {k : Cmd} {sp : BSpace} {off : BitVec 20} {f : CopyF} (hs : s.ListsOk) : (runCopyIn k sp off f s).s.ListsOk := by
  grind [runCopyIn, copyLoop_listsOk, checkCopy_keeps, copyInElem_keeps, modB_listsOk]

theorem gradBuf_keeps {fmt : BitVec 4} {off : ℤ} {x2 : ℕ} : EKeeps (gradBuf fmt off x2) := by
  induction x2 generalizing fmt off with
  | zero => grind [gradBuf, EKeeps.pure, EKeeps.bind, EKeeps.efailIf, eBytes_keeps]
  | succ n ih => grind [gradBuf, EKeeps.pure, EKeeps.bind, EKeeps.efailIf, eBytes_keeps]

theorem gradGlobal_keeps {fmt : BitVec 4} {va : Word} {x2 : ℕ} : EKeeps (gradGlobal fmt va x2) := by
  induction x2 generalizing fmt va with
  | zero => grind [gradGlobal, EKeeps.pure, EKeeps.bind, eUseG_keeps]
  | succ n ih => grind [gradGlobal, EKeeps.pure, EKeeps.bind, eUseG_keeps]

theorem accBufs_keeps {fmt : BitVec 4} {off : ℤ} {x2 : List Num} : EKeeps (accBufs fmt off x2) := by
  induction x2 generalizing fmt off with
  | nil => grind [accBufs, EKeeps.pure, EKeeps.bind, accBuf_keeps]
  | cons x l ih => grind [accBufs, EKeeps.pure, EKeeps.bind, accBuf_keeps]

theorem accGlobals_keeps {fmt : BitVec 4} {va : Word} {x2 : List Num} : EKeeps (accGlobals fmt va x2) := by
  induction x2 generalizing fmt va with
  | nil => grind [accGlobals, EKeeps.pure, EKeeps.bind, accGlobal_keeps]
  | cons x l ih => grind [accGlobals, EKeeps.pure, EKeeps.bind, accGlobal_keeps]

theorem adjCopyIn_listsOk {k : Cmd} {g : GMap} {sp : BSpace} {off : BitVec 20} {f : CopyF} (hs : s.ListsOk) :
    (adjCopyIn k g sp off f s).s.ListsOk := by
  grind [adjCopyIn, checkedElems_listsOk, adjDest_keeps, EKeeps.bind, gradBuf_keeps, accGlobals_keeps, EKeeps.pure]

theorem adjCopyOut_listsOk {k : Cmd} {g : GMap} {sp : BSpace} {off : BitVec 20} {f : CopyF} (hs : s.ListsOk) :
    (adjCopyOut k g sp off f s).s.ListsOk := by
  grind [adjCopyOut, checkedElems_listsOk, adjDest_keeps, EKeeps.bind, gradGlobal_keeps, accBufs_keeps, EKeeps.pure]

theorem adjGthr_listsOk {k : Cmd} {g : GMap} {sp : BSpace} {dstride : BitVec 32} (hs : s.ListsOk) : (adjGthr k g sp dstride s).s.ListsOk := by
  grind [adjGthr, checkedElems_listsOk, adjDest_keeps, EKeeps.bind, readIndex_keeps, gradBuf_keeps, accGlobals_keeps, EKeeps.pure]

theorem occursLater_keeps {l : Word} {i : ℤ} {j x3 : ℕ} : EKeeps (occursLater l i j x3) := by
  induction x3 generalizing l i j with
  | zero => grind [occursLater, EKeeps.pure, EKeeps.bind, readIndex_keeps]
  | succ n ih => grind [occursLater, EKeeps.pure, EKeeps.bind, readIndex_keeps]

theorem runCopyOut_listsOk {k : Cmd} {sp : BSpace} {off : BitVec 20} {f : CopyF} (hs : s.ListsOk) : (runCopyOut k sp off f s).s.ListsOk :=
  copyLoop_listsOk checkCopy_keeps (fun _ => copyOutElem_keeps) (fun _ _ h => h) hs

theorem runFillIn_listsOk {k : Cmd} {sp : BSpace} {esz : BitVec 2} (hs : s.ListsOk) : (runFillIn k sp esz s).s.ListsOk :=
  copyLoop_listsOk checkCopy_keeps (fun _ => eWriteB_keeps) (fun _ _ h => h) hs

theorem runFillOut_listsOk {k : Cmd} {off : BitVec 20} {esz : BitVec 2} (hs : s.ListsOk) : (runFillOut k off esz s).s.ListsOk := by
  refine copyLoop_listsOk checkCopy_keeps (fun _ => ?_) (fun _ _ h => h) hs
  split
  · grind [EKeeps.efail, EKeeps.pure]
  · grind [eWriteG_keeps, EKeeps.pure]

theorem runGthr_listsOk {k : Cmd} {sp : BSpace} {dstride : BitVec 32} (hs : s.ListsOk) : (runGthr k sp dstride s).s.ListsOk := by
  refine copyLoop_listsOk checkRows_keeps (fun _ => .bind readIndex_keeps fun i => ?_) (fun _ _ h => modB_listsOk h) hs
  dsimp only; split
  · grind [EKeeps.efail, eWriteB_keeps]
  · refine .bind eRange_keeps fun l => .enow_bind fun s hs => ?_
    grind [EKeeps.eend, eWriteB_keeps]

theorem runSctr_listsOk {k : Cmd} {sp : BSpace} {dstride : BitVec 32} (hs : s.ListsOk) : (runSctr k sp dstride s).s.ListsOk := by
  refine copyLoop_listsOk checkRows_keeps (fun _ => .bind readIndex_keeps fun i => ?_) (fun _ _ h => h) hs
  grind [EKeeps.efail, EKeeps.pure, EKeeps.bind, eRange_keeps, eReadB_keeps, eWriteTier_keeps]

theorem cmpxCharge_keeps {blk : Nat} {d : Int} {f : Mem → Mem} (hf : ∀ m, m.ListsOk → (f m).ListsOk) : EKeeps (cmpxCharge blk d f) := by
  grind [cmpxCharge, EKeeps, State.charge_listsOk, modM_listsOk, State.ListsOk.ofMem]

theorem cmpxCharge_listsOk {blk : Nat} {d : Int} {f : Mem → Mem} {u : Unit} {t : State} (hs : s.ListsOk) (hf : ∀ m, m.ListsOk → (f m).ListsOk)
    (h : cmpxCharge blk d f s = .ok (u, t)) : t.ListsOk := cmpxCharge_keeps hf s hs u t h

theorem cmpxBlock_keeps {cmp : Bool} {pa i : Nat} : EKeeps (cmpxBlock cmp pa i) := by
  intro s hs a t h
  unfold cmpxBlock at h
  grind [→ cmpxCharge_listsOk, modM_listsOk, Mem.ListsOk, State.ListsOk.ofMem]

theorem runCmpx_listsOk {k : Cmd} {cmp : Bool} (hs : s.ListsOk) : (runCmpx k cmp s).s.ListsOk := by
  have hx := exlate_keeps (va := k.v 0) (a := .w) s hs
  unfold runCmpx; split
  · exact hs
  · next x s' h =>
    split
    · exact hx _ _ h
    · exact elems_listsOk (hx _ _ h) fun i => .bind cmpxBlock_keeps fun _ => .pure _

theorem adjSctr_listsOk {k : Cmd} {g : GMap} {sp : BSpace} {dstride : BitVec 32} (hs : s.ListsOk) : (adjSctr k g sp dstride s).s.ListsOk := by
  refine checkedElems_listsOk hs adjDest_keeps fun j => .bind readIndex_keeps fun i => ?_
  split
  · grind [EKeeps.bind, EKeeps.pure, occursLater_keeps, gradGlobal_keeps, accBufs_keeps]
  · exact .pure _

theorem atomPrepare_keeps {ty : BitVec 4} {ta : Word} {ra : Option Word} : EKeeps (atomPrepare ty ta ra) := by
  cases ra with
  | none => grind [atomPrepare, EKeeps.bind, EKeeps.pure, EKeeps.efailAt, atomXlate_keeps]
  | some r => grind [atomPrepare, EKeeps.bind, EKeeps.pure, EKeeps.efailAt, atomXlate_keeps, exlate_keeps]

theorem runScalarAtom_listsOk {k : Cmd} (hs : s.ListsOk) : (runScalarAtom k s).s.ListsOk := by
  unfold runScalarAtom; split
  · next ty ta ra act pa rest _ _ =>
    extract_lets ret
    have hret : ∀ old u, u.ListsOk → (ret old u).s.ListsOk := by
      intro old u hu
      grind [→ writePiece_listsOk, Prog.ok]
    split
    · exact hret _ _ hs
    · split
      · exact hs
      · next h => exact hret _ _ (atomEvent_keeps s hs _ _ h)
  · exact hs

theorem checkAwrT_keeps {k : Cmd} {f : AtomF} {sp : BSpace} {off : BitVec 20} : EKeeps (checkAwrT k f sp off) := checkCopy_keeps

theorem atomRun_listsOk {k : Cmd} (hs : s.ListsOk) : (atomRun k s).s.ListsOk := by
  have ha := fun f sp off j => awrTElem_keeps (k := k) (f := f) (sp := sp) (off := off) (j := j) s hs
  grind [atomRun, Prog.ok, runScalarAtom_listsOk]

theorem atomIssue_keeps {k : Cmd} : EKeeps (atomIssue k) := by
  grind [atomIssue, EKeeps.bind, EKeeps.pure, checkAwrT_keeps, atomPrepare_keeps]

@[simp] theorem execAtomicHomeEvent_outOk (hs : s.ListsOk) : OutOk (execAtomicHomeEvent s) := by
  refine .next ?_
  split
  · exact hs
  · split
    · exact hs
    · exact State.underRegs_listsOk hs fun _ h => settleAtom_listsOk (atomRun_listsOk h)

theorem flushGroup_listsOk {g : List Cmd} (hs : s.ListsOk) : (flushGroup g s).ListsOk := by
  unfold flushGroup; split
  · exact hs
  · next k l =>
    split
    · next f _ _ _ off pa _ _ _ =>
      split
      · exact hs
      · refine State.underRegs_listsOk hs fun s hs => ?_
        have ha := fun ty va pa a => atomEvent_keeps (ty := ty) (va := va) (pa := pa) (a := a) s hs
        dsimp only
        split
        · next h => exact modQ_listsOk (modY_listsOk (ha _ _ _ _ _ _ h))
        · exact settleAtom_listsOk (modQ_listsOk hs)
    · exact hs

@[simp] theorem execQuantumFlush_outOk (hs : s.ListsOk) : OutOk (execQuantumFlush s) := by
  refine .next ?_
  grind [flushGroup_listsOk]

end Sys2Proof.Machine
end

section
/-! Vector programs and the loop nest keep the lists in order (O11). -/

namespace Sys2Proof.Machine

variable {s : State}

theorem State.modVec_listsOk {f : VecState → VecState} (hs : s.ListsOk) : (State.modVec s f).ListsOk := by
  grind [State.modVec, modT_listsOk, Task.ListsOk, Core.ListsOk, State.ListsOk.ofCore]

theorem mRead_keeps {m : MS} {a : MAcc} : EKeeps (mRead m a) := by
  grind [mRead, eReadG_keeps, EKeeps.enow_bind, EKeeps.pure, eCarryB_keeps]

theorem mWrite_keeps {m : MS} {a : MAcc} {bs : List GByte} : EKeeps (mWrite m a bs) := by
  grind [mWrite, eWriteG_keeps, EKeeps.eupd, State.spillPutG_listsOk, eWriteB_keeps]

theorem mReads_keeps {m : MS} {x1 : List MAcc} : EKeeps (mReads m x1) := by
  induction x1 generalizing m with
  | nil => grind [mReads, EKeeps.pure, EKeeps.bind, mRead_keeps]
  | cons x l ih => grind [mReads, EKeeps.pure, EKeeps.bind, mRead_keeps]

theorem mLoad_keeps {m : MS} (hs : s.ListsOk) : EKeeps (mLoad s m) := by
  grind [mLoad, EKeeps.bind, mReads_keeps, EKeeps.pure]

theorem mStores_keeps {r : VReg} {m : MS} {x2 : List MAcc} : EKeeps (mStores r m x2) := by
  induction x2 generalizing r m with
  | nil => grind [mStores, EKeeps.pure, EKeeps.bind, mWrite_keeps, mRead_keeps]
  | cons x l ih => grind [mStores, EKeeps.pure, EKeeps.bind, mWrite_keeps, mRead_keeps]

theorem mRun_keeps {m : MS} (hs : s.ListsOk) : EKeeps (mRun s m) := by
  grind [mRun, EKeeps, EKeeps.pure, EKeeps.bind, EKeeps.eupd, State.modVec_listsOk, mStores_keeps, mLoad_keeps]

theorem selSet_listsOk {n : ℕ} {x : Word} (hs : s.ListsOk) : (selSet s n x).ListsOk := by
  grind [selSet, modR_listsOk, State.modVec_listsOk]

theorem vmovs_listsOk {s0 : State} {c : CS} (hs0 : s0.ListsOk) (hs : s.ListsOk) : (vmovs s0 c s).ListsOk := by
  grind [vmovs, selSet_listsOk]

theorem vrunStart_keeps {k : Cmd} : EKeeps (vrunStart k) := by
  grind [vrunStart, EKeeps.bind, EKeeps.efailIf, EKeeps.eupd, State.modVec_listsOk]

theorem stopCmd_listsOk {k : Cmd} {upc : ℕ} {e : EStop} (hs : s.ListsOk) : (stopCmd s k upc e).ListsOk := by
  grind [stopCmd, settleCmd_listsOk, Prog.ok_listsOk]

theorem endProgram_listsOk {k : Cmd} {upc : ℕ} (hs : s.ListsOk) : (endProgram k upc s).ListsOk := by
  grind [endProgram, settleCmd_listsOk, Prog.ok_listsOk, modCmd_listsOk]

theorem State.unfailed_listsOk {l : List (ℕ × ℕ)} (hs : s.ListsOk) : (State.unfailed s l).ListsOk := by
  grind [State.unfailed, modB_listsOk]

theorem land_listsOk {p : PendW} (hs : s.ListsOk) : (land s p).ListsOk := by
  grind [land, modR_listsOk, setV_listsOk, orFlags_listsOk, State.modVec_listsOk]

@[simp] theorem execResultLanding_outOk (hs : s.ListsOk) : OutOk (execResultLanding s) := by
  grind [execResultLanding, OutOk, State.underRegs_listsOk, State.modVec_listsOk, land_listsOk]

@[simp] theorem execVrun_outOk {tk : Tok} {rE rP : Reg} {na : BitVec 4} (hs : s.ListsOk) : OutOk (execVrun tk rE rP na s) := by
  grind [execVrun, routed_outOk, MKeeps.pure]

@[simp] theorem execVruna_outOk {tk : Tok} {rE rP : Reg} {na : BitVec 4} {rJ : Reg} {rlen : BitVec 10} {rak : BitVec 3} (hs : s.ListsOk) :
    OutOk (execVruna tk rE rP na rJ rlen rak s) := by
  grind [execVruna, routed_outOk, MKeeps.pure]

theorem LnOpd.read_keeps {o : LnOpd} {exts : List ℕ} {j : ℕ} : EKeeps (LnOpd.read o exts j) := by
  grind [LnOpd.read, EKeeps.bind, eBytes_keeps, EKeeps.pure]

theorem LnOpd.write_keeps {o : LnOpd} {exts : List ℕ} {j x : ℕ} : EKeeps (LnOpd.write o exts j x) := .eupd fun _ => modB_listsOk

theorem lnrVals_keeps {k : Cmd} {f : LnFields} {x2 : List ℕ} : EKeeps (lnrVals k f x2) := by
  induction x2 generalizing k f with
  | nil => grind [lnrVals, EKeeps.pure, EKeeps.bind, LnOpd.read_keeps]
  | cons x l ih => grind [lnrVals, EKeeps.pure, EKeeps.bind, LnOpd.read_keeps]

theorem eLnY_keeps {k : Cmd} {vop fn : ℕ} {ga gb : Bool} {e j : ℕ} {u : Num} : EKeeps (eLnY k vop fn ga gb e j u) := by
  grind [eLnY, EKeeps.bind, eResUse_keeps, EKeeps.pure]

theorem lnAcc_keeps {o : LnOpd} {exts : List ℕ} {j : ℕ} {y : Num × FFlags} : EKeeps (lnAcc o exts j y) := by
  grind [lnAcc, EKeeps.bind, LnOpd.read_keeps, LnOpd.write_keeps, EKeeps.pure]

theorem checkLnAdj_keeps {exts : List ℕ} {gd : LnOpd} {gs : List LnOpd} : EKeeps (checkLnAdj exts gd gs) := by
  grind [checkLnAdj, EKeeps.bind, EKeeps.enow_bind, EKeeps.efailIf]

@[simp] theorem execLnx_outOk {tk : Tok} {dD dA dB : DCode} {f : LnFields} (hs : s.ListsOk) : OutOk (execLnx tk dD dA dB f s) := by
  grind [execLnx, routed_outOk, MKeeps.pure]

@[simp] theorem execLnr_outOk {tk : Tok} {dD dA dB : DCode} {f : LnFields} (hs : s.ListsOk) : OutOk (execLnr tk dD dA dB f s) := by
  grind [execLnr, routed_outOk, MKeeps.pure]

theorem EKeeps.ite {α : Type} {c : Prop} [Decidable c] {a b : E α} (ha : EKeeps a) (hb : EKeeps b) : EKeeps (if c then a else b) := by
  split
  · exact ha
  · exact hb

theorem fetchBundle_keeps {va : Word} : EKeeps (fetchBundle va) := by
  refine .bind exlate_keeps fun x => .enow_bind fun s _ => ?_
  dsimp only
  split
  · exact .pure _
  · exact .ite (.efailAt _ _ _) (.ite (.efailAt _ _ _) (.ite (.pure _)
      (.bind (.eupd fun u hu => modC_listsOk hu rfl hu.ofCore) fun _ => .pure _)))

theorem checkLn_keeps {k : Cmd} {lnr : Bool} {f : LnFields} : EKeeps (checkLn k lnr f) := by
  refine .enow_bind fun s _ => ?_
  extract_lets exts D A B bin vop fa fd slots srcs sp same
  iterate 10 refine .bind (.efailIf _ _) fun _ => ?_
  split
  · exact .pure _
  · grind [EKeeps.bind, EKeeps.efailIf]

theorem runLnx_listsOk {k : Cmd} {f : LnFields} (hs : s.ListsOk) : (runLnx k f s).s.ListsOk := by
  refine checkedElems_listsOk hs checkLn_keeps fun j => .bind LnOpd.read_keeps fun a => ?_
  extract_lets last
  have hlast : ∀ b, EKeeps (last b) := fun b => by
    dsimp only [last]
    refine .ite (.bind LnOpd.read_keeps fun c => ?_) ?_ <;> grind [EKeeps.bind, EKeeps.pure, LnOpd.write_keeps, eRes_keeps]
  exact .ite (hlast _) (.bind LnOpd.read_keeps hlast)

theorem runLnr_listsOk {k : Cmd} {f : LnFields} (hs : s.ListsOk) : (runLnr k f s).s.ListsOk := by
  refine checkedElems_listsOk hs checkLn_keeps fun o => .bind lnrVals_keeps fun x => ?_
  obtain ⟨vs, f1, rs⟩ := x
  grind [EKeeps.bind, EKeeps.pure, LnOpd.read_keeps, LnOpd.write_keeps, eRes_keeps]

theorem lnAdd_keeps {exts : List ℕ} {j : ℕ} {ga gb : Option LnOpd} {y : Option (Num × FFlags) × Option (Num × FFlags)} :
    EKeeps (lnAdd exts j ga gb y) := by
  unfold lnAdd
  extract_lets last
  have hlast : ∀ b, EKeeps (last b) := fun b => by
    dsimp only [last]; split
    · exact .bind lnAcc_keeps fun _ => .pure _
    · exact .pure _
  split
  · exact .bind lnAcc_keeps hlast
  · exact hlast _

theorem adjLnx_listsOk {k : Cmd} {f : LnFields} (hs : s.ListsOk) : (adjLnx k f s).s.ListsOk := by
  unfold adjLnx; dsimp only; split
  · exact checkedElems_listsOk hs checkLnAdj_keeps fun j => .bind LnOpd.read_keeps fun u => .bind eLnY_keeps fun _ => lnAdd_keeps
  · exact hs

theorem lnrAdds_keeps {k : Cmd} {f : LnFields} {ga gb : Option LnOpd} {u : Num} {win : Option ℕ} {l : List ℕ} {i : ℕ} :
    EKeeps (lnrAdds k f ga gb u win l i) := by
  induction l generalizing i with
  | nil => exact .pure _
  | cons j l ih => grind [lnrAdds, EKeeps.bind, EKeeps.pure, eLnY_keeps, lnAdd_keeps]

theorem adjLnr_listsOk {k : Cmd} {f : LnFields} (hs : s.ListsOk) : (adjLnr k f s).s.ListsOk := by
  unfold adjLnr; dsimp only; split
  · exact checkedElems_listsOk hs checkLnAdj_keeps fun o => .bind LnOpd.read_keeps fun u =>
      .ite lnrAdds_keeps (.bind eResAt_keeps fun _ => lnrAdds_keeps)
  · exact hs

theorem vloop_listsOk {c : CS} {upc : Nat} {t : State} {n : Nat} {b : Bool} (hs : s.ListsOk) (h : vloop s c upc = some (t, n, b)) : t.ListsOk := by
  grind [vloop, modR_listsOk, State.modVec_listsOk]

theorem slotsRun_listsOk {b : BitVec 256} {ps : List PendW} {t : State} (hs : s.ListsOk) (h : slotsRun b s = .ok (t, ps)) : t.ListsOk := by
  have hm := mRun_keeps (m := msOf (slotM b)) hs s hs
  unfold slotsRun at h
  grind

theorem issueBundle_listsOk {k : Cmd} {b : BitVec 256} (hs : s.ListsOk) : (issueBundle k b s).ListsOk := by
  unfold issueBundle
  extract_lets upc stg performs c isLoop at_
  have hat : ∀ u n e, u.ListsOk → (at_ u n e).ListsOk := fun _ _ _ h => stopCmd_listsOk (State.modVec_listsOk h)
  split
  · exact hat _ _ _ hs
  · next slots miss sb r stop _ =>
    have hsb : sb.ListsOk := bindSlots_listsOk hs
    have hr : ∀ t ps, r = .ok (t, ps) → t.ListsOk := by
      intro t ps h
      grind [→ slotsRun_listsOk, State.unfailed_listsOk]
    clear_value at_ stop r sb
    grind [→ vloop_listsOk, vmovs_listsOk, State.modVec_listsOk, endProgram_listsOk, modCmd_listsOk]

@[simp] theorem execBundleIssue_outOk (hs : s.ListsOk) : OutOk (execBundleIssue s) := by
  have hf := fun va => fetchBundle_keeps (va := va) s hs
  refine .next ?_
  grind [stopCmd_listsOk, State.modVec_listsOk, settleCmd_listsOk, Prog.ok_listsOk, State.underRegs_listsOk, issueBundle_listsOk]

end Sys2Proof.Machine
end

section
/-! The matrix array and the spectral unit keep the lists in order (O11). -/

namespace Sys2Proof.Machine

variable {s : State}

theorem State.modAcc_listsOk {a : Bool} {f : Accum → Accum} (hs : s.ListsOk) : (State.modAcc s a f).ListsOk := by
  grind [State.modAcc, modT_listsOk, Task.ListsOk, Core.ListsOk, State.ListsOk.ofCore]

theorem checkMma_keeps {k : Cmd} {acc ta tb : Bool} {row0 col0 : ℕ} : EKeeps (checkMma k acc ta tb row0 col0) := by
  grind [checkMma, EKeeps.bind, EKeeps.enow_bind, EKeeps.efailIf]

theorem eRow_keeps {α : Type} {f : ℕ → E α} {x2 x3 : ℕ} (hf : ∀ x0, EKeeps (f x0)) : EKeeps (eRow f x2 x3) := by
  induction x2 generalizing α f x3 with
  | zero => grind [eRow, EKeeps.pure, EKeeps.bind]
  | succ n ih => grind [eRow, EKeeps.pure, EKeeps.bind]

theorem eGrid_keeps {α : Type} {f : ℕ → ℕ → E α} {n m : ℕ} (hf : ∀ x0 x1, EKeeps (f x0 x1)) : EKeeps (eGrid f n m) := by
  grind [eGrid, eRow_keeps]

theorem chunkInto_keeps {k : Cmd} {acc : Bool} {row0 col0 m n : ℕ} {ch : Chunk} : EKeeps (chunkInto k acc row0 col0 m n ch) := by
  grind [chunkInto, EKeeps, State.modAcc_listsOk]

theorem readChunk_keeps {a b : Desc} {ta tb : Bool} {c : ℕ} : EKeeps (readChunk a b ta tb c) := by
  grind [readChunk, EKeeps.bind, eGrid_keeps, eVal_keeps, eElem_keeps, eBytes_keeps, EKeeps.pure, eRow_keeps]

theorem takeMatrix_listsOk {k : Cmd} {d : Desc} {tr : Bool} {p : Prog} (hp : p.s.ListsOk) : (takeMatrix k d tr p).s.ListsOk := by
  grind [takeMatrix]

theorem unlocate_keeps {acc : Bool} : EKeeps (unlocate acc) := by
  grind [unlocate, EKeeps.eupd, State.modAcc_listsOk]

theorem runMma_listsOk {k : Cmd} {acc ta tb : Bool} {row0 col0 : BitVec 7} (hs : s.ListsOk) : (runMma k acc ta tb row0 col0 s).s.ListsOk := by
  grind [runMma, EKeeps, takeMatrix_listsOk, checkedElems_listsOk, EKeeps.bind, checkMma_keeps, unlocate_keeps, readChunk_keeps, chunkInto_keeps]

theorem runMzero_listsOk {acc : Bool} (hs : s.ListsOk) : (runMzero acc s).s.ListsOk := by
  grind [runMzero, Prog.ok_listsOk, State.modAcc_listsOk]

theorem runMzeroCb_listsOk {k : Cmd} {acc : Bool} (hs : s.ListsOk) : (runMzeroCb k acc s).s.ListsOk := by
  grind [runMzeroCb, whole_listsOk, EKeeps.bind, EKeeps.efailIf, EKeeps.eupd, State.modAcc_listsOk]

theorem runWgrp_listsOk {acc : Bool} {n : BitVec 7} (hs : s.ListsOk) : (runWgrp acc n s).s.ListsOk := by
  grind [runWgrp, Prog.ok_listsOk, State.modAcc_listsOk]

theorem runMswap_listsOk {acc : Bool} (hs : s.ListsOk) : (runMswap acc s).s.ListsOk := by
  grind [runMswap, Prog.ok_listsOk, modB_listsOk, State.modAcc_listsOk]

theorem mstElem_keeps {acc : Bool} {d : Desc} {add sat : Bool} {rm : RM} {df : BitVec 4} {row0 col0 r c : ℕ} :
    EKeeps (mstElem acc d add sat rm df row0 col0 r c) := by
  grind [mstElem, EKeeps.bind, EKeeps.enow_bind, EKeeps.eupd, modB_listsOk, EKeeps.pure]

theorem mstRow_keeps {acc : Bool} {d : Desc} {add sat : Bool} {rm : RM} {df : BitVec 4} {row0 col0 r x9 x10 : ℕ} :
    EKeeps (mstRow acc d add sat rm df row0 col0 r x9 x10) := by
  induction x9 generalizing acc d add sat rm df row0 col0 r x10 with
  | zero => grind [mstRow, EKeeps.pure, EKeeps.bind, mstElem_keeps]
  | succ n ih => grind [mstRow, EKeeps.pure, EKeeps.bind, mstElem_keeps]

theorem runMcks_listsOk {k : Cmd} {acc ta tb : Bool} {row0 col0 : BitVec 7} (hs : s.ListsOk) : (runMcks k acc ta tb row0 col0 s).s.ListsOk := by
  grind [runMcks, whole_listsOk, EKeeps.bind, checkMma_keeps, eGrid_keeps, eVal_keeps, EKeeps.pure, EKeeps.eupd, State.modAcc_listsOk]

theorem runMckv_listsOk {acc rpl : Bool} {off : BitVec 14} (hs : s.ListsOk) : (runMckv acc rpl off s).s.ListsOk := by
  grind [runMckv, Prog.ok_listsOk, State.spillPut_listsOk, State.modAcc_listsOk, modT_listsOk, Core.ListsOk, State.ListsOk.ofCore,
    Task.tileError_listsOk]

theorem runMfix_listsOk {acc : Bool} (hs : s.ListsOk) : (runMfix acc s).s.ListsOk := by
  grind [runMfix, Prog.ok_listsOk, State.modAcc_listsOk]

theorem runMtm_listsOk {k : Cmd} (hs : s.ListsOk) : (runMtm k s).s.ListsOk := by
  grind [runMtm, Prog.ok_listsOk, modT_listsOk, Task.ListsOk, Core.ListsOk, State.ListsOk.ofCore]

theorem runMte_listsOk (hs : s.ListsOk) : (runMte s).s.ListsOk := by
  grind [runMte, Prog.ok_listsOk]

@[simp] theorem execTileReplay_outOk (hs : s.ListsOk) : OutOk (execTileReplay s) := by
  grind [execTileReplay, OutOk, modH_listsOk, modT_listsOk, Task.ListsOk, Core.ListsOk, State.ListsOk.ofCore, Task.tileRestart_listsOk]

theorem gradC_keeps {k : Cmd} {row0 col0 i j : ℕ} : EKeeps (gradC k row0 col0 i j) := by
  grind [gradC, EKeeps.pure, eVal_keeps]

theorem addStrip_keeps {acc : Bool} {g : Desc} {at_ : ℕ → ℕ → ℕ × ℕ} {x3 : List (ℕ × ℕ)} : EKeeps (addStrip acc g at_ x3) := by
  induction x3 generalizing acc g at_ with
  | nil => grind [addStrip, EKeeps.pure, EKeeps.bind, EKeeps.enow_bind, gradAdd_keeps]
  | cons x l ih => grind [addStrip, EKeeps.pure, EKeeps.bind, EKeeps.enow_bind, gradAdd_keeps]

theorem clearBank_keeps {acc : Bool} : EKeeps (clearBank acc) := by
  grind [clearBank, EKeeps.eupd, State.modAcc_listsOk]

theorem mmaAdjStep_keeps {k : Cmd} {g : MmaAdj} {acc ta tb : Bool} {row0 col0 u : ℕ} : EKeeps (mmaAdjStep k g acc ta tb row0 col0 u) := by
  grind [mmaAdjStep, addStrip_keeps, EKeeps.pure, EKeeps.bind, eGrid_keeps, gradC_keeps, eElem_keeps, eBytes_keeps, eRow_keeps, chunkInto_keeps,
    eVal_keeps, clearBank_keeps, eResAt_keeps]

theorem adjMma_listsOk {k : Cmd} {acc ta tb : Bool} {row0 col0 : BitVec 7} (hs : s.ListsOk) : (adjMma k acc ta tb row0 col0 s).s.ListsOk := by
  grind [adjMma, EKeeps.bind, EKeeps.enow_bind, EKeeps.echeck, EKeeps.efailIf, Prog.ok_listsOk, checkedElems_listsOk, mmaAdjStep_keeps]

@[simp] theorem execMma_outOk {tk : Tok} {acc ta tb : Bool} {dA dB : DCode} {row0 col0 : BitVec 7} (hs : s.ListsOk) :
    OutOk (execMma tk acc ta tb dA dB row0 col0 s) := by
  grind [execMma, routed_outOk, MKeeps.pure]

@[simp] theorem execMzero_outOk {tk : Tok} {acc : Bool} (hs : s.ListsOk) : OutOk (execMzero tk acc s) := by
  grind [execMzero, routed_outOk, MKeeps.pure]

@[simp] theorem execMzeroCb_outOk {tk : Tok} {acc : Bool} {dC : DCode} (hs : s.ListsOk) : OutOk (execMzeroCb tk acc dC s) := by
  grind [execMzeroCb, routed_outOk, MKeeps.pure]

@[simp] theorem execMswap_outOk {tk : Tok} {acc : Bool} (hs : s.ListsOk) : OutOk (execMswap tk acc s) := by
  grind [execMswap, routed_outOk, MKeeps.pure]

@[simp] theorem execMst_outOk {tk : Tok} {dD : DCode} {acc add sat : Bool} {rm : RM} {df : BitVec 4} {row0 col0 : BitVec 7} (hs : s.ListsOk) :
    OutOk (execMst tk dD acc add sat rm df row0 col0 s) := by
  grind [execMst, routed_outOk, MKeeps.pure]

@[simp] theorem execMcks_outOk {tk : Tok} {acc ta tb : Bool} {dA dB : DCode} {row0 col0 : BitVec 7} (hs : s.ListsOk) :
    OutOk (execMcks tk acc ta tb dA dB row0 col0 s) := by
  grind [execMcks, routed_outOk, MKeeps.pure]

@[simp] theorem execMckv_outOk {tk : Tok} {acc rpl : Bool} {off : BitVec 14} (hs : s.ListsOk) : OutOk (execMckv tk acc rpl off s) := by
  grind [execMckv, routed_outOk, MKeeps.pure]

@[simp] theorem execMfix_outOk {tk : Tok} {acc : Bool} (hs : s.ListsOk) : OutOk (execMfix tk acc s) := by
  grind [execMfix, routed_outOk, MKeeps.pure]

@[simp] theorem execMtm_outOk {tk : Tok} (hs : s.ListsOk) : OutOk (execMtm tk s) := by
  grind [execMtm, routed_outOk, MKeeps.pure]

@[simp] theorem execMte_outOk {tk : Tok} (hs : s.ListsOk) : OutOk (execMte tk s) := by
  grind [execMte, routed_outOk, MKeeps.pure]

@[simp] theorem execWgrp_outOk {tk : Tok} {acc : Bool} {n : BitVec 7} (hs : s.ListsOk) : OutOk (execWgrp tk acc n s) := by
  grind [execWgrp, routed_outOk, MKeeps.pure]

theorem checkS_keeps {k : Cmd} {srcs : List Desc} {wb : Bool} {lay : List (Desc × Option ℕ)} {illop tag dom : Bool} :
    EKeeps (checkS k srcs wb lay illop tag dom) := by
  grind [checkS, EKeeps.bind, EKeeps.enow_bind, EKeeps.efailIf, topBlkop_keeps]

theorem eBlock_keeps {d : Desc} {r c b : ℕ} : EKeeps (eBlock d r c b) := by
  grind [eBlock, eRow_keeps, EKeeps.bind, eElem_keeps, EKeeps.pure]

theorem eBlockRaw_keeps {d : Desc} {r c b : ℕ} : EKeeps (eBlockRaw d r c b) := by
  grind [eBlockRaw, eRow_keeps, eElem_keeps]

theorem ePutRow_keeps {d : Desc} {r c : ℕ} {x3 : List ℕ} : EKeeps (ePutRow d r c x3) := by
  induction x3 generalizing d r c with
  | nil => grind [ePutRow, EKeeps.pure, EKeeps.bind, ePut_keeps]
  | cons x l ih => grind [ePutRow, EKeeps.pure, EKeeps.bind, ePut_keeps]

theorem ePutNums_keeps {d : Desc} {r c : ℕ} {l : List Num} : EKeeps (ePutNums d r c l) := by
  grind [ePutNums, EKeeps.bind, ePutRow_keeps, EKeeps.pure]

theorem runSxf_listsOk {k : Cmd} (hs : s.ListsOk) : (runSxf k s).s.ListsOk := by
  grind [runSxf, checkedElems_listsOk, checkS_keeps, EKeeps.bind, eBlock_keeps, ePutNums_keeps, EKeeps.pure]

theorem runSxi_listsOk {k : Cmd} (hs : s.ListsOk) : (runSxi k s).s.ListsOk := by
  grind [runSxi, checkedElems_listsOk, checkS_keeps, EKeeps.bind, eBlock_keeps, ePutNums_keeps, EKeeps.pure]

theorem eKeep_keeps {k : Cmd} {f : Buffers → List Byte} : EKeeps (eKeep k f) := by
  grind [eKeep, EKeeps.eupd, modCmd_listsOk, EKeeps.pure]

theorem runScmul_listsOk {k : Cmd} {cj : Bool} (hs : s.ListsOk) : (runScmul k cj s).s.ListsOk := by
  grind [runScmul, EKeeps, checkedElems_listsOk, EKeeps.bind, checkS_keeps, eKeep_keeps, eBlock_keeps, ePutNums_keeps, EKeeps.pure]

theorem runSconj_listsOk {k : Cmd} (hs : s.ListsOk) : (runSconj k s).s.ListsOk := by
  grind [runSconj, checkedElems_listsOk, checkS_keeps, EKeeps.bind, eBlockRaw_keeps, ePutRow_keeps, EKeeps.pure]

theorem runSexp_listsOk {k : Cmd} {e : BitVec 5} (hs : s.ListsOk) : (runSexp k e s).s.ListsOk := by
  grind [runSexp, checkedElems_listsOk, checkS_keeps, EKeeps.bind, eBlock_keeps, ePutNums_keeps]

theorem runSdom_listsOk {k : Cmd} (hs : s.ListsOk) : (runSdom k s).s.ListsOk := by
  grind [runSdom, checkedElems_listsOk, checkS_keeps, EKeeps.bind, eBlock_keeps, eRow_keeps, eElem_keeps, EKeeps.pure, ePutNums_keeps]

theorem scInto_keeps {acc : Bool} {row0 col0 m n p0 ww js : ℕ} {a b : ℕ → ℕ → ℕ → Num × FFlags} :
    EKeeps (scInto acc row0 col0 m n p0 ww js a b) := by
  grind [scInto, EKeeps, State.modAcc_listsOk]

theorem scVal_keeps {d : Desc} {b p0 : ℕ} {tr cj : Bool} {i j w : ℕ} : EKeeps (scVal d b p0 tr cj i j w) := by
  grind [scVal, EKeeps.bind, eElem_keeps, EKeeps.pure]

theorem scClear_keeps {acc : Bool} {t : FTag} : EKeeps (scClear acc t) := by
  grind [scClear, EKeeps.eupd, State.modAcc_listsOk]

theorem checkSAdj_keeps {k : Cmd} {gd : Desc} {gs : List Desc} : EKeeps (checkSAdj k gd gs) := by
  grind [checkSAdj, EKeeps.bind, EKeeps.enow_bind, EKeeps.echeck, topBlkop_keeps]

theorem addRow_keeps {g : Desc} {r c : ℕ} {x3 : List Num} : EKeeps (addRow g r c x3) := by
  induction x3 generalizing g r c with
  | nil => grind [addRow, EKeeps.pure, EKeeps.bind, gradAdd_keeps]
  | cons x l ih => grind [addRow, EKeeps.pure, EKeeps.bind, gradAdd_keeps]

theorem scAddStrip_keeps {acc : Bool} {g : Desc} {b p0 ww : ℕ} {e : ℤ} {at_ : ℕ → ℕ → ℕ × ℕ} {x7 : List (ℕ × ℕ)} :
    EKeeps (scAddStrip acc g b p0 ww e at_ x7) := by
  induction x7 generalizing acc g b p0 ww e at_ with
  | nil => grind [scAddStrip, EKeeps.pure, EKeeps.bind, EKeeps.enow_bind, gradAdd_keeps]
  | cons x l ih => grind [scAddStrip, EKeeps.pure, EKeeps.bind, EKeeps.enow_bind, gradAdd_keeps]

theorem scAdjStep_keeps {k : Cmd} {g : ScAdj} {acc : Bool} {f : ScF} {u : ℕ} : EKeeps (scAdjStep k g acc f u) := by
  grind [scAdjStep, scAddStrip_keeps, EKeeps.pure, EKeeps.bind, eGrid_keeps, gradC_keeps, scVal_keeps, scInto_keeps, scClear_keeps, eResUse_keeps]

theorem checkScAdj_keeps {k : Cmd} {g : ScAdj} : EKeeps (checkScAdj k g) := by
  grind [checkScAdj, EKeeps.bind, EKeeps.enow_bind, EKeeps.efailIf]

theorem adjScmac_listsOk {k : Cmd} {acc : Bool} {f : ScF} (hs : s.ListsOk) : (adjScmac k acc f s).s.ListsOk := by
  grind [adjScmac, Prog.ok_listsOk, checkedElems_listsOk, checkScAdj_keeps, scAdjStep_keeps]

@[simp] theorem execSxf_outOk {tk : Tok} {dD dA : DCode} (hs : s.ListsOk) : OutOk (execSxf tk dD dA s) := by
  grind [execSxf, routed_outOk, MKeeps.pure]

@[simp] theorem execSxi_outOk {tk : Tok} {dD dA : DCode} (hs : s.ListsOk) : OutOk (execSxi tk dD dA s) := by
  grind [execSxi, routed_outOk, MKeeps.pure]

@[simp] theorem execScmac_outOk {tk : Tok} {acc : Bool} {dA dB : DCode} {f : ScF} (hs : s.ListsOk) : OutOk (execScmac tk acc dA dB f s) := by
  grind [execScmac, routed_outOk, MKeeps.pure]

@[simp] theorem execScmul_outOk {tk : Tok} {cj : Bool} {dD dA dB : DCode} (hs : s.ListsOk) : OutOk (execScmul tk cj dD dA dB s) := by
  grind [execScmul, routed_outOk, MKeeps.pure]

@[simp] theorem execSconj_outOk {tk : Tok} {dD dA : DCode} (hs : s.ListsOk) : OutOk (execSconj tk dD dA s) := by
  grind [execSconj, routed_outOk, MKeeps.pure]

@[simp] theorem execSdom_outOk {tk : Tok} {dD dA dG : DCode} (hs : s.ListsOk) : OutOk (execSdom tk dD dA dG s) := by
  grind [execSdom, routed_outOk, MKeeps.pure]

@[simp] theorem execSexp_outOk {tk : Tok} {dD dA : DCode} {e : BitVec 5} (hs : s.ListsOk) : OutOk (execSexp tk dD dA e s) := by
  grind [execSexp, routed_outOk, MKeeps.pure]

end Sys2Proof.Machine
end

section
/-! Scalar, control, memory and system instructions keep the lists in order (O11). -/

namespace Sys2Proof.Machine

variable {s : State}

theorem op1_outOk {f : Word → Word} {rd ra : Reg} (hs : s.ListsOk) : OutOk (op1 f rd ra s) := by
  grind [op1, ccNext_outOk, MKeeps.bind, MKeeps.rdS, MKeeps.wrS]

theorem op2_outOk {f : Word → Word → Word} {rd ra rb : Reg} (hs : s.ListsOk) : OutOk (op2 f rd ra rb s) := by
  grind [op2, ccNext_outOk, MKeeps.bind, MKeeps.rdS, MKeeps.wrS]

theorem opShift_outOk {f : Word → ℕ → Word} {rd ra : Reg} {k : ShCount} (hs : s.ListsOk) : OutOk (opShift f rd ra k s) := by
  grind [opShift, ccNext_outOk, MKeeps.bind, MKeeps.rdS, MKeeps.wrS]

@[simp] theorem execAdd_outOk {rd ra rb : Reg} (hs : s.ListsOk) : OutOk (execAdd rd ra rb s) := by
  grind [execAdd, op2_outOk]

@[simp] theorem execSub_outOk {rd ra rb : Reg} (hs : s.ListsOk) : OutOk (execSub rd ra rb s) := by
  grind [execSub, op2_outOk]

@[simp] theorem execMul_outOk {rd ra rb : Reg} (hs : s.ListsOk) : OutOk (execMul rd ra rb s) := by
  grind [execMul, op2_outOk]

@[simp] theorem execAnd_outOk {rd ra rb : Reg} (hs : s.ListsOk) : OutOk (execAnd rd ra rb s) := by
  grind [execAnd, op2_outOk]

@[simp] theorem execOr_outOk {rd ra rb : Reg} (hs : s.ListsOk) : OutOk (execOr rd ra rb s) := by
  grind [execOr, op2_outOk]

@[simp] theorem execXor_outOk {rd ra rb : Reg} (hs : s.ListsOk) : OutOk (execXor rd ra rb s) := by
  grind [execXor, op2_outOk]

@[simp] theorem execAndn_outOk {rd ra rb : Reg} (hs : s.ListsOk) : OutOk (execAndn rd ra rb s) := by
  grind [execAndn, op2_outOk]

@[simp] theorem execCeq_outOk {rd ra rb : Reg} (hs : s.ListsOk) : OutOk (execCeq rd ra rb s) := by
  grind [execCeq, op2_outOk]

@[simp] theorem execClt_outOk {rd ra rb : Reg} (hs : s.ListsOk) : OutOk (execClt rd ra rb s) := by
  grind [execClt, op2_outOk]

@[simp] theorem execCltu_outOk {rd ra rb : Reg} (hs : s.ListsOk) : OutOk (execCltu rd ra rb s) := by
  grind [execCltu, op2_outOk]

@[simp] theorem execAddi_outOk {rd ra : Reg} {imm : BitVec 20} (hs : s.ListsOk) : OutOk (execAddi rd ra imm s) := by
  grind [execAddi, op1_outOk]

@[simp] theorem execMulh_outOk {m : MulMode} {rd ra rb : Reg} (hs : s.ListsOk) : OutOk (execMulh m rd ra rb s) := by
  grind [execMulh, op2_outOk]

@[simp] theorem execDiv_outOk {u : Bool} {rd ra rb : Reg} (hs : s.ListsOk) : OutOk (execDiv u rd ra rb s) := by
  grind [execDiv, op2_outOk]

@[simp] theorem execRem_outOk {u : Bool} {rd ra rb : Reg} (hs : s.ListsOk) : OutOk (execRem u rd ra rb s) := by
  grind [execRem, op2_outOk]

@[simp] theorem execMin_outOk {u : Bool} {rd ra rb : Reg} (hs : s.ListsOk) : OutOk (execMin u rd ra rb s) := by
  grind [execMin, op2_outOk]

@[simp] theorem execMax_outOk {u : Bool} {rd ra rb : Reg} (hs : s.ListsOk) : OutOk (execMax u rd ra rb s) := by
  grind [execMax, op2_outOk]

@[simp] theorem execShl_outOk {rd ra : Reg} {k : ShCount} (hs : s.ListsOk) : OutOk (execShl rd ra k s) := by
  grind [execShl, opShift_outOk]

@[simp] theorem execShr_outOk {rd ra : Reg} {k : ShCount} (hs : s.ListsOk) : OutOk (execShr rd ra k s) := by
  grind [execShr, opShift_outOk]

@[simp] theorem execSar_outOk {rd ra : Reg} {k : ShCount} (hs : s.ListsOk) : OutOk (execSar rd ra k s) := by
  grind [execSar, opShift_outOk]

@[simp] theorem execRot_outOk {rd ra : Reg} {k : ShCount} (hs : s.ListsOk) : OutOk (execRot rd ra k s) := by
  grind [execRot, opShift_outOk]

@[simp] theorem execClz_outOk {rd ra : Reg} (hs : s.ListsOk) : OutOk (execClz rd ra s) := by
  grind [execClz, op1_outOk]

@[simp] theorem execPopc_outOk {rd ra : Reg} (hs : s.ListsOk) : OutOk (execPopc rd ra s) := by
  grind [execPopc, op1_outOk]

@[simp] theorem execSel_outOk {rd ra rb rc : Reg} (hs : s.ListsOk) : OutOk (execSel rd ra rb rc s) := by
  grind [execSel, ccNext_outOk, MKeeps.bind, MKeeps.rdS, MKeeps.wrS]

@[simp] theorem execLea_outOk {rd ra rb : Reg} {scale : BitVec 2} {imm : BitVec 20} (hs : s.ListsOk) : OutOk (execLea rd ra rb scale imm s) := by
  grind [execLea, op2_outOk]

@[simp] theorem execBfx_outOk {sgn : Bool} {rd ra : Reg} {pos lenM1 : BitVec 6} (hs : s.ListsOk) : OutOk (execBfx sgn rd ra pos lenM1 s) := by
  grind [execBfx, op1_outOk]

@[simp] theorem execBfi_outOk {rd ra rb : Reg} {pos lenM1 : BitVec 6} (hs : s.ListsOk) : OutOk (execBfi rd ra rb pos lenM1 s) := by
  grind [execBfi, op2_outOk]

@[simp] theorem execMovi_outOk {rd : Reg} {imm : Word} (hs : s.ListsOk) : OutOk (execMovi rd imm s) := by
  grind [execMovi, cc_outOk, MKeeps.bind, MKeeps.wrS, MKeeps.upd, advance_listsOk]

theorem pcNow_keeps : MKeeps pcNow := by
  grind [pcNow, MKeeps]

theorem branch_outOk {c : Word → Word → Bool} {ra rb : Reg} {off : BitVec 20} (hs : s.ListsOk) : OutOk (branch c ra rb off s) := by
  grind [branch, cc_outOk, MKeeps.bind, MKeeps.rdS, pcNow_keeps, transfer_keeps, MKeeps.upd, advance_listsOk]

@[simp] theorem execBrEq_outOk {ra rb : Reg} {off : BitVec 20} (hs : s.ListsOk) : OutOk (execBrEq ra rb off s) := by
  grind [execBrEq, branch_outOk]

@[simp] theorem execBrNe_outOk {ra rb : Reg} {off : BitVec 20} (hs : s.ListsOk) : OutOk (execBrNe ra rb off s) := by
  grind [execBrNe, branch_outOk]

@[simp] theorem execBrLt_outOk {ra rb : Reg} {off : BitVec 20} (hs : s.ListsOk) : OutOk (execBrLt ra rb off s) := by
  grind [execBrLt, branch_outOk]

@[simp] theorem execBrGe_outOk {ra rb : Reg} {off : BitVec 20} (hs : s.ListsOk) : OutOk (execBrGe ra rb off s) := by
  grind [execBrGe, branch_outOk]

@[simp] theorem execBrLtu_outOk {ra rb : Reg} {off : BitVec 20} (hs : s.ListsOk) : OutOk (execBrLtu ra rb off s) := by
  grind [execBrLtu, branch_outOk]

@[simp] theorem execBrGeu_outOk {ra rb : Reg} {off : BitVec 20} (hs : s.ListsOk) : OutOk (execBrGeu ra rb off s) := by
  grind [execBrGeu, branch_outOk]

@[simp] theorem execJmp_outOk {off : BitVec 38} (hs : s.ListsOk) : OutOk (execJmp off s) := by
  grind [execJmp, cc_outOk, MKeeps.bind, pcNow_keeps, transfer_keeps]

@[simp] theorem execJmpr_outOk {rd ra : Reg} (hs : s.ListsOk) : OutOk (execJmpr rd ra s) := by
  grind [execJmpr, cc_outOk, MKeeps.bind, MKeeps.rdS, pcNow_keeps, transfer_keeps, MKeeps.wrS]

@[simp] theorem execCall_outOk {rd : Reg} {off : BitVec 38} (hs : s.ListsOk) : OutOk (execCall rd off s) := by
  grind [execCall, cc_outOk, MKeeps.bind, pcNow_keeps, transfer_keeps, MKeeps.wrS]

@[simp] theorem execRet_outOk {ra : Reg} (hs : s.ListsOk) : OutOk (execRet ra s) := by
  grind [execRet, cc_outOk, MKeeps.bind, MKeeps.rdS, transfer_keeps]

@[simp] theorem execLoop_outOk {ra : Reg} {off : BitVec 20} (hs : s.ListsOk) : OutOk (execLoop ra off s) := by
  grind [execLoop, cc_outOk, MKeeps.bind, MKeeps.rdS, pcNow_keeps, MKeeps.upd, advance_listsOk, MKeeps.wrS, transfer_keeps]

@[simp] theorem execNop_outOk (hs : s.ListsOk) : OutOk (execNop s) := by
  grind [execNop, runM_outOk, MKeeps.upd, advance_listsOk]

@[simp] theorem execHint_outOk {_code : BitVec 8} (hs : s.ListsOk) : OutOk (execHint _code s) := by
  grind [execHint, ccNext_outOk, MKeeps.pure]

theorem accessAddr_keeps {ra rb : Reg} {off : BitVec 20} {n : ℕ} {a : Acc} : MKeeps (accessAddr ra rb off n a) := by
  grind [accessAddr, MKeeps.bind, MKeeps.rdS, MKeeps.failIf, xlate_keeps, checkPolicy_keeps, MKeeps.pure]

@[simp] theorem execLd_outOk {sz : MSize} {rd ra rb : Reg} {off : BitVec 20} (hs : s.ListsOk) : OutOk (execLd sz rd ra rb off s) := by
  grind [execLd, ccNext_outOk, MKeeps.bind, accessAddr_keeps, memRead_keeps, MKeeps.wrS]

@[simp] theorem execSt_outOk {sz : MSize} {rd ra rb : Reg} {off : BitVec 20} (hs : s.ListsOk) : OutOk (execSt sz rd ra rb off s) := by
  grind [execSt, ccNext_outOk, MKeeps.bind, accessAddr_keeps, MKeeps.rdS, memWrite_keeps]

@[simp] theorem execLdDsc_outOk {dd : DCode} {ra rb : Reg} {off : BitVec 20} (hs : s.ListsOk) : OutOk (execLdDsc dd ra rb off s) := by
  grind [execLdDsc, ccNext_outOk, MKeeps.bind, accessAddr_keeps, memRead_keeps, MKeeps.failIf, MKeeps.upd, setD_listsOk]

@[simp] theorem execStDsc_outOk {dd : DCode} {ra rb : Reg} {off : BitVec 20} (hs : s.ListsOk) : OutOk (execStDsc dd ra rb off s) := by
  grind [execStDsc, ccNext_outOk, MKeeps.bind, accessAddr_keeps, MKeeps.rdD, memWrite_keeps]

theorem spillOff_keeps {ra : Reg} {off : BitVec 20} {n : ℕ} : MKeeps (spillOff ra off n) := by
  grind [spillOff, MKeeps.bind, MKeeps.rdS, MKeeps.failIf, MKeeps.pure]

@[simp] theorem execSpl_outOk {sz : MSize} {rd ra : Reg} {off : BitVec 20} (hs : s.ListsOk) : OutOk (execSpl sz rd ra off s) := by
  grind [execSpl, ccNext_outOk, MKeeps.bind, spillOff_keeps, MKeeps.now_bind, MKeeps.failIf, MKeeps.wrS]

theorem lineAddr_keeps {ra : Reg} {off : BitVec 20} {a : Acc} : MKeeps (lineAddr ra off a) := by
  grind [lineAddr, MKeeps.bind, MKeeps.rdS, xlate_keeps, MKeeps.pure]

@[simp] theorem execCln_outOk {ra : Reg} {off : BitVec 20} (hs : s.ListsOk) : OutOk (execCln ra off s) := by
  grind [execCln, ccNext_outOk, MKeeps.bind, lineAddr_keeps, commitSelM_keeps]

@[simp] theorem execInv_outOk {ra : Reg} {off : BitVec 20} (hs : s.ListsOk) : OutOk (execInv ra off s) := by
  grind [execInv, ccNext_outOk, MKeeps.bind, lineAddr_keeps, MKeeps.upd, modV_listsOk, Task.ListsOk, Core.ListsOk, State.ListsOk.ofCore]

@[simp] theorem execCommit_outOk (hs : s.ListsOk) : OutOk (execCommit s) := by
  grind [execCommit, ccNext_outOk, commitM_keeps]

@[simp] theorem execAcq_outOk (hs : s.ListsOk) : OutOk (execAcq s) := by
  grind [execAcq, ccNext_outOk, MKeeps.upd, State.acquire_listsOk]

@[simp] theorem execFence_outOk {_sc : Scope} (hs : s.ListsOk) : OutOk (execFence _sc s) := by
  grind [execFence, ccNext_outOk, MKeeps.now_bind, MKeeps.pure, MKeeps.wait]

@[simp] theorem execTwait_outOk {acq : Bool} {tl : BitVec 8} {ra : Reg} (hs : s.ListsOk) : OutOk (execTwait acq tl ra s) := by
  grind [execTwait, ccNext_outOk, MKeeps.bind, MKeeps.rdS, MKeeps.now_bind, MKeeps.failIf, MKeeps.wait, MKeeps.upd, State.acquire_listsOk,
    MKeeps.pure]

@[simp] theorem execTread_outOk {iss : Bool} {rd : Reg} {tl : BitVec 8} (hs : s.ListsOk) : OutOk (execTread iss rd tl s) := by
  grind [execTread, ccNext_outOk, MKeeps.now_bind, MKeeps.wrS]

theorem State.setTemp_listsOk {quad : ℕ} {x : Word} (hs : s.ListsOk) : (State.setTemp s quad x).ListsOk := by
  unfold State.setTemp
  extract_lets p s1 p1 s2 p2
  have h1 : s1.ListsOk := hs
  have h2 : s2.ListsOk := ite_listsOk h1 h1
  exact ite_listsOk (State.post_listsOk h2) h2

theorem State.setHbmMap_listsOk {stack : ℕ} {m : BitVec 16} (hs : s.ListsOk) : (State.setHbmMap s stack m).ListsOk := by
  grind [State.setHbmMap, listsOk_mk, Plat.ListsOk, State.ListsOk.ofCore, State.ListsOk.ofOthers, State.ListsOk.ofMem, State.ListsOk.ofPlat,
    State.ListsOk.ofReady, State.ListsOk.ofImages, State.post_listsOk]

theorem State.setTlnbase_listsOk {ctx : BitVec 12} {v : Word} (hs : s.ListsOk) : (State.setTlnbase s ctx v).ListsOk := by
  grind [State.setTlnbase, modX_listsOk]

theorem sendTlbi_keeps {i : Tlbi} : MKeeps (sendTlbi i) := by
  grind [sendTlbi, MKeeps.upd, modC_listsOk, Core.ListsOk, State.ListsOk.ofCore]

@[simp] theorem execTlbiVa_outOk {ra : Reg} (hs : s.ListsOk) : OutOk (execTlbiVa ra s) := by
  grind [execTlbiVa, ccNext_outOk, MKeeps.bind, MKeeps.rdS, MKeeps.now_bind, sendTlbi_keeps]

@[simp] theorem execTlbiCtx_outOk (hs : s.ListsOk) : OutOk (execTlbiCtx s) := by
  grind [execTlbiCtx, ccNext_outOk, MKeeps.now_bind, sendTlbi_keeps]

@[simp] theorem execTlbiCid_outOk {ra : Reg} (hs : s.ListsOk) : OutOk (execTlbiCid ra s) := by
  grind [execTlbiCid, ccNext_outOk, MKeeps.bind, MKeeps.rdS, MKeeps.failIf, sendTlbi_keeps]

@[simp] theorem execTlbiAll_outOk (hs : s.ListsOk) : OutOk (execTlbiAll s) := by
  grind [execTlbiAll, ccNext_outOk, sendTlbi_keeps]

@[simp] theorem execRfhint_outOk {ra : Reg} (hs : s.ListsOk) : OutOk (execRfhint ra s) := by
  grind [execRfhint, ccNext_outOk, MKeeps.bind, MKeeps.rdS, MKeeps.failIf, MKeeps.upd, modC_listsOk, Core.ListsOk, State.ListsOk.ofCore,
    State.rfCredit_listsOk]

@[simp] theorem execRdcyc_outOk {task : Bool} {rd : Reg} (hs : s.ListsOk) : OutOk (execRdcyc task rd s) := by
  grind [execRdcyc, ccNext_outOk, MKeeps.now_bind, capture_keeps, MKeeps.wrS]

theorem keySlot_keeps {ra : Reg} : MKeeps (keySlot ra) := by
  grind [keySlot, MKeeps.bind, MKeeps.rdS, MKeeps.failIf, MKeeps.pure]

theorem State.rekey_listsOk {n : ℕ} {k : BitVec 512} (hs : s.ListsOk) : (State.rekey s n k).ListsOk := by
  grind [State.rekey, foldl_listsOk, listsOk_mk, Mem.ListsOk, State.ListsOk.ofCore, State.ListsOk.ofOthers, State.ListsOk.ofMem,
    State.ListsOk.ofPlat, State.ListsOk.ofReady, State.ListsOk.ofImages, modM_listsOk]

theorem checkMst_keeps {k : Cmd} {acc : Bool} {df : BitVec 4} {row0 col0 : ℕ} : EKeeps (checkMst k acc df row0 col0) := by
  refine .enow_bind fun s _ => ?_
  iterate 7 refine .bind (.efailIf _ _) fun _ => ?_
  exact topBlkop_keeps

theorem runMst_listsOk {k : Cmd} {acc add sat : Bool} {rm : RM} {df : BitVec 4} {row0 col0 : BitVec 7} (hs : s.ListsOk) :
    (runMst k acc add sat rm df row0 col0 s).s.ListsOk :=
  checkedElems_listsOk hs checkMst_keeps fun _ => mstRow_keeps

theorem checkScmac_keeps {k : Cmd} {acc : Bool} {f : ScF} : EKeeps (checkScmac k acc f) := by
  refine .enow_bind fun s _ => ?_
  dsimp only
  iterate 6 refine .bind (.efailIf _ _) fun _ => ?_
  exact .efailIf _ _

theorem runScmac_listsOk {k : Cmd} {acc : Bool} {f : ScF} (hs : s.ListsOk) : (runScmac k acc f s).s.ListsOk := by
  refine takeMatrix_listsOk (checkedElems_listsOk hs (.bind checkScmac_keeps fun _ => .ite scClear_keeps (.pure _)) fun c => ?_)
  exact .bind (eGrid_keeps fun _ _ => scVal_keeps) fun _ => .bind (eGrid_keeps fun _ _ => scVal_keeps) fun _ => scInto_keeps

theorem adjS_listsOk {k : Cmd} {gd ga : Desc} (hs : s.ListsOk) : (adjS k gd ga s).s.ListsOk := by
  refine checkedElems_listsOk hs checkSAdj_keeps fun u => ?_
  dsimp only
  refine .bind eBlock_keeps fun x => ?_
  have hrow : ∀ f : Nat → E Num, (∀ i, EKeeps (f i)) → ∀ n j, EKeeps (eRow f n j) := fun f hf n j => eRow_keeps hf
  split <;> grind [EKeeps.bind, EKeeps.pure, addRow_keeps, eElem_keeps]

theorem adjScmul_listsOk {k : Cmd} {cj : Bool} {gd : Desc} {ga gb : Option Desc} (hs : s.ListsOk) : (adjScmul k cj gd ga gb s).s.ListsOk := by
  refine checkedElems_listsOk hs checkSAdj_keeps fun u => ?_
  dsimp only
  refine .bind eBlock_keeps fun x => .bind eResUse_keeps fun _ => ?_
  cases ga <;> cases gb <;> dsimp only <;> grind [EKeeps.bind, EKeeps.pure, addRow_keeps]

theorem spill_listsOk {f : Task → Task} (hs : s.ListsOk) (hd : (f s.core.t).view.dirty = s.core.t.view.dirty)
    (hw : Sparse.wf 0 s.core.t.spill = true → Sparse.wf 0 (f s.core.t).spill = true) : (s.modT f).ListsOk :=
  modT_listsOk hs ⟨by rw [hd]; exact hs.ofCore.2.1, hw hs.ofCore.2.2⟩

@[simp] theorem execSps_outOk {sz : MSize} {rd ra : Reg} {off : BitVec 20} (hs : s.ListsOk) : OutOk (execSps sz rd ra off s) :=
  ccNext_outOk hs <| .bind spillOff_keeps fun _ => .bind (.rdS _) fun _ => .now_bind fun _ _ => .bind (.failIf _ _) fun _ =>
    .upd fun _ hu => spill_listsOk hu rfl (writeBytes_wf _ _)

@[simp] theorem execPref_outOk {ra rb : Reg} {off : BitVec 20} (hs : s.ListsOk) : OutOk (execPref ra rb off s) := by
  refine ccNext_outOk hs fun u hu => ?_
  extract_lets body
  have hb : MKeeps body := .bind (.rdS _) fun _ => .bind xlate_keeps fun x => .bind (.rdS _) fun _ => .bind checkPolicy_keeps fun _ => by
    split
    · exact pinLine_keeps
    · exact .pure _
  obtain ⟨h1, h2⟩ := hb u hu
  split <;> grind [keepFills_listsOk]

@[simp] theorem execInvI_outOk {ra : Reg} {off : BitVec 20} (hs : s.ListsOk) : OutOk (execInvI ra off s) :=
  ccNext_outOk hs <| .bind lineAddr_keeps fun _ => .upd fun _ hu =>
    mapCores_listsOk hu (fun _ => rfl) fun _ hc => ⟨Sparse.rising_del _ hc.1, hc.2⟩

theorem phaseSend_listsOk {sc : Scope} {step : Bool} {rd : Reg} (hs : s.ListsOk) : (phaseSend s sc step rd).ListsOk := by
  unfold phaseSend
  extract_lets t p bar u w
  have hu : u.ListsOk := State.setBar_listsOk hs
  have hw : w.ListsOk := modS_listsOk hu hu.ofReady
  exact modT_listsOk hw ⟨rfl, hw.ofCore.2.2⟩

theorem phaseIdle_listsOk (hs : s.ListsOk) : (s.modT fun t => { t with phase := .idle }).ListsOk := modT_listsOk hs hs.ofCore.2

@[simp] theorem execPhase_outOk {sc : Scope} (hs : s.ListsOk) : OutOk (execPhase sc s) := by
  refine cc_outOk hs fun u hu => ?_
  dsimp only
  split
  · exact MKeeps.bind commitM_keeps (fun _ => .bind (.upd fun _ => State.acquire_listsOk) fun _ => .upd fun _ => advance_listsOk) u hu
  · split
    · split
      · exact MKeeps.raise _ u hu
      · split
        · exact MKeeps.wait u hu
        · exact MKeeps.stay (fun v hv => modC_listsOk (phaseSend_listsOk hv) rfl (phaseSend_listsOk hv).ofCore) u hu
    · exact MKeeps.wait u hu
    · split
      · exact MKeeps.raiseLate _ (fun _ => phaseIdle_listsOk) u hu
      · have h1 : (((u.acquire).modT fun t => { t with phase := .idle }).advance 1).ListsOk :=
          advance_listsOk (phaseIdle_listsOk (State.acquire_listsOk hu))
        split
        · exact MKeeps.raiseLate _ (fun _ _ => modT_listsOk h1 h1.ofCore.2) u hu
        · exact ⟨by rintro _ _ ⟨⟩; exact h1, by rintro _ _ ⟨⟩⟩

theorem State.free_listsOk {v : Word} {t : State} (hs : s.ListsOk) (h : s.free = (v, t)) : t.ListsOk := by
  cases h; exact hs

theorem State.monitor_listsOk {quad : ℕ} {temp : Bool} (hs : s.ListsOk) : (State.monitor s quad temp).ListsOk := by
  unfold State.monitor
  have hf : s.free.2.ListsOk := hs
  dsimp only
  split
  · exact State.setTemp_listsOk hf
  · exact hf

theorem srRead_listsOk {n : ℕ} (hs : s.ListsOk) : (srRead s n).2.ListsOk := by
  unfold srRead
  dsimp only
  split <;> grind [State.rfCreditAll_listsOk, State.monitor_listsOk]

theorem setExpmode_listsOk {n : ℕ} {v : Word} (hs : s.ListsOk) :
    ({ s with plat := { s.plat with expmode := Sparse.put 0 s.plat.expmode n v } } : State).ListsOk := by
  grind [listsOk_mk, Core.ListsOk, Mem.ListsOk, Plat.ListsOk, State.ListsOk.ofCore, State.ListsOk.ofOthers, State.ListsOk.ofMem,
    State.ListsOk.ofPlat, State.ListsOk.ofReady, State.ListsOk.ofImages, Sparse.rising_put]

theorem setExpap_listsOk {n : ℕ} {v : Word} (hs : s.ListsOk) :
    ({ s with plat := { s.plat with expap := Sparse.put 0 s.plat.expap n v } } : State).ListsOk := by
  grind [listsOk_mk, Core.ListsOk, Mem.ListsOk, Plat.ListsOk, State.ListsOk.ofCore, State.ListsOk.ofOthers, State.ListsOk.ofMem,
    State.ListsOk.ofPlat, State.ListsOk.ofReady, State.ListsOk.ofImages, Sparse.rising_put]

theorem srWrite_listsOk {n : ℕ} {v : Word} (hs : s.ListsOk) : (srWrite s n v).ListsOk := by
  unfold srWrite
  dsimp only
  split <;> grind [modX_listsOk, modY_listsOk, modH_listsOk, modS_listsOk, State.ListsOk.ofReady, State.setTlnbase_listsOk, State.setHbmMap_listsOk,
    setExpmode_listsOk, setExpap_listsOk]

@[simp] theorem execMfsr_outOk {rd : Reg} {n : BitVec 12} (hs : s.ListsOk) : OutOk (execMfsr rd n s) := by
  refine ccNext_outOk hs (.now_bind fun u hu => ?_)
  split
  · exact .raise _
  · refine .bind (.failIf _ _) fun _ => .bind (.upd fun _ _ => srRead_listsOk hu) fun _ => ?_
    split
    · exact capture_keeps fun _ => .wrS _ _
    · exact .wrS _ _

@[simp] theorem execMtsr_outOk {n : BitVec 12} {ra : Reg} (hs : s.ListsOk) : OutOk (execMtsr n ra s) := by
  refine ccNext_outOk hs (.now_bind fun u hu => ?_)
  split
  · exact .raise _
  · exact .bind (.failIf _ _) fun _ => .bind (.rdS _) fun _ => .upd fun _ => srWrite_listsOk

theorem State.tlbfence_listsOk {sc : Scope} (hs : s.ListsOk) : (State.tlbfence s sc).ListsOk := by
  unfold State.tlbfence
  extract_lets p l x keepT u dieIn w
  have hu : u.ListsOk := mapCores_listsOk hs (fun _ => rfl) fun _ hc => hc
  have hw : w.ListsOk := modM_listsOk hu hu.ofMem
  exact modC_listsOk hw rfl hw.ofCore

@[simp] theorem execTlbfence_outOk {sc : Scope} (hs : s.ListsOk) : OutOk (execTlbfence sc s) :=
  ccNext_outOk hs (.upd fun _ => State.tlbfence_listsOk)

@[simp] theorem execProbe_outOk {a : Acc} {rd ra : Reg} (hs : s.ListsOk) : OutOk (execProbe a rd ra s) := by
  refine ccNext_outOk hs (.bind (.rdS _) fun va => .now_bind fun u hu => ?_)
  split
  · next t x h =>
    have ht : t.ListsOk := translate_listsOk hu h
    have hk := keepFills_listsOk hu ht
    exact .bind (.upd fun _ _ => modM_listsOk hk hk.ofMem) fun _ => .wrS _ _
  · next t c l h =>
    have ht : t.ListsOk := translate_listsOk hu h
    exact .bind (.failIf _ _) fun _ => .bind (.upd fun _ _ => ht) fun _ => .wrS _ _

theorem insKey_listsOk {n : ℕ} {k : BitVec 512} (hs : s.ListsOk) : (s.modM fun m => { m with keys := Sparse.ins m.keys n k }).ListsOk :=
  modM_listsOk hs ⟨Sparse.rising_ins _ _ hs.ofMem.1, hs.ofMem.2⟩

@[simp] theorem execKeysel_outOk {ra rb : Reg} (hs : s.ListsOk) : OutOk (execKeysel ra rb s) :=
  ccNext_outOk hs <| .bind keySlot_keeps fun _ => .bind (.rdS _) fun _ => .bind (.failIf _ _) fun _ => .bind xlate_keeps fun _ =>
    .bind (.failIf _ _) fun _ => .bind memRead_keeps fun _ => .upd fun _ hu => insKey_listsOk (State.rekey_listsOk hu)

@[simp] theorem execKeyselClr_outOk {ra : Reg} (hs : s.ListsOk) : OutOk (execKeyselClr ra s) := by
  grind [execKeyselClr, ccNext_outOk, MKeeps.bind, keySlot_keeps, MKeeps.upd, modM_listsOk, Mem.ListsOk, State.ListsOk.ofMem, Sparse.rising_del]

end Sys2Proof.Machine
end

section
/-! Tasks, barriers and traps keep the lists in order (O11): of every core under its own number. -/

namespace Sys2Proof.Machine

variable {s : State}

theorem State.accept_listsOk {r : List Byte} {host : Bool} {depth : BitVec 5} {join : Word} {prio : BitVec 2} (hs : s.ListsOk) :
    (State.accept s r host depth join prio).ListsOk := by
  grind [State.accept, modS_listsOk, Work.ListsOk, State.ListsOk.ofReady, State.pushAt_listsOk, State.rrAppend_listsOk]

theorem afterCommit_keeps {m : M Unit} (hm : MKeeps m) : MKeeps (afterCommit m) := by
  grind [afterCommit, MKeeps, commitM_keeps, keepFills_listsOk]

theorem xlateDirect_keeps {va : Word} {a : Acc} : MKeeps (xlateDirect va a) := by
  grind [xlateDirect, MKeeps.bind, xlate_keeps, MKeeps.failIf, MKeeps.pure]

theorem joinTarget_keeps {b : Word} : MKeeps (joinTarget b) := by
  grind [joinTarget, MKeeps.pure, MKeeps.bind, xlateDirect_keeps, MKeeps.now_bind, MKeeps.failIf]

theorem State.acceptOwn_listsOk {r : List Byte} {depth : BitVec 5} {join : Word} {ctx : BitVec 12} (hs : s.ListsOk) :
    (State.acceptOwn s r depth join ctx).ListsOk := by
  grind [State.acceptOwn, State.accept_listsOk, modX_listsOk, State.modL_listsOk]

theorem endChecks_keeps : MKeeps endChecks := by
  grind [endChecks, MKeeps, MKeeps.wait, MKeeps.raiseLate, modT_listsOk, Task.ListsOk, Core.ListsOk, State.ListsOk.ofCore]

theorem State.endTask_listsOk (hs : s.ListsOk) : (State.endTask s).ListsOk := by
  grind [State.endTask, State.leaveCore_listsOk, State.taskGone_listsOk, State.departAll_listsOk, State.dropStack_listsOk]

theorem State.switchQuad_listsOk {q : ℕ} (hs : s.ListsOk) : (State.switchQuad s q).ListsOk := by
  grind [State.switchQuad, modM_listsOk, Mem.ListsOk, State.ListsOk.ofMem, Sparse.put_wf]

theorem State.clockFor_listsOk {plumb : Bool} (hs : s.ListsOk) : (State.clockFor s plumb).ListsOk := by
  grind [State.clockFor, State.switchQuad_listsOk]

theorem State.startTask_listsOk {id : TaskId} {dies : List ℕ} {steps : ℕ} {code args frame : Word} {regs : List (Reg × Word)}
    {rd : Option (Reg × Word)} {checkTgt : Bool} (hs : s.ListsOk) :
    (State.startTask s id dies steps code args frame regs rd checkTgt).ListsOk := by
  grind [State.startTask, State.clockFor_listsOk, Task.zero_listsOk, Task.ListsOk, modC_listsOk, Core.ListsOk, State.ListsOk.ofCore,
    State.joinBars_listsOk, State.timelineWrite_listsOk, takeTrap_listsOk, → targetCheck_listsOk]

theorem State.resumeTask_listsOk {t : Task} {buf : Buffers} {dies : List ℕ} (hs : s.ListsOk) (ht : t.ListsOk) :
    (State.resumeTask s t buf dies).ListsOk := by
  grind [State.resumeTask, Task.ListsOk, modC_listsOk, Core.ListsOk, State.ListsOk.ofCore, State.clockFor_listsOk]

@[simp] theorem execQuadClockSwitch_outOk {quad : BitVec 6} (hs : s.ListsOk) : OutOk (execQuadClockSwitch quad s) := by
  grind [execQuadClockSwitch, OutOk, State.switchQuad_listsOk]

theorem State.stepDies_listsOk {l : Launch} {t' : State} {r'} (hs : s.ListsOk) (h : State.stepDies s l = (t', r')) : t'.ListsOk := by
  grind [State.stepDies, modX_listsOk]

theorem State.logDies_listsOk {l : Launch} {w : Word} (hs : s.ListsOk) : (State.logDies s l w).ListsOk := by
  grind [State.logDies, State.rrAppend_listsOk]

theorem State.poolStep_listsOk (hs : s.ListsOk) : (State.poolStep s).ListsOk := by
  grind [State.poolStep, → State.stepDies_listsOk, modY_listsOk, State.logDies_listsOk]

theorem State.mergedTasks_listsOk {r : Bar} {uids : List ℕ} (hs : s.ListsOk) : (State.mergedTasks s r uids).ListsOk := by
  grind [State.mergedTasks, foldl_listsOk, State.mapTask_listsOk, Task.ListsOk]

theorem barCheck_keeps {sc : Scope} : MKeeps (barCheck sc) := by
  grind [barCheck, MKeeps]

theorem barOf_keeps {sc : Scope} {b : BitVec 3} : MKeeps (barOf sc b) := by
  grind [barOf, MKeeps.bind, barCheck_keeps, MKeeps.now_bind, MKeeps.pure]

theorem barFaults_keeps {r : Bar} : MKeeps (barFaults r) := by
  grind [barFaults, MKeeps, MKeeps.raiseLate, modT_listsOk, Task.ListsOk, Core.ListsOk, State.ListsOk.ofCore]

theorem myUid_keeps : MKeeps myUid := by
  grind [myUid, MKeeps]

@[simp] theorem execBari_outOk {sc : Scope} {b : BitVec 3} (hs : s.ListsOk) : OutOk (execBari sc b s) := by
  grind [execBari, ccNext_outOk, MKeeps.bind, barOf_keeps, myUid_keeps, MKeeps.now_bind, MKeeps.pure, MKeeps.upd, State.setBar_listsOk]

@[simp] theorem execBariLv_outOk {sc : Scope} {b : BitVec 3} (hs : s.ListsOk) : OutOk (execBariLv sc b s) := by
  grind [execBariLv, ccNext_outOk, MKeeps.bind, barOf_keeps, myUid_keeps, MKeeps.now_bind, MKeeps.pure, MKeeps.upd, State.setBar_listsOk]

theorem arrive_keeps {sc : Scope} {b : BitVec 3} : MKeeps (arrive sc b) := by
  grind [arrive, MKeeps.bind, barOf_keeps, myUid_keeps, MKeeps.failIf, barFaults_keeps, MKeeps.wait, MKeeps.upd, State.setBar_listsOk, MKeeps.pure]

@[simp] theorem execBara_outOk {sc : Scope} {rd : Reg} {b : BitVec 3} (hs : s.ListsOk) : OutOk (execBara sc rd b s) := by
  grind [execBara, ccNext_outOk, MKeeps.bind, arrive_keeps, MKeeps.wrS]

theorem waitPhase_keeps {sc : Scope} {b : BitVec 3} {n : ℕ} : MKeeps (waitPhase sc b n) := by
  grind [waitPhase, MKeeps.bind, barOf_keeps, MKeeps.failIf, barFaults_keeps, MKeeps.pure, MKeeps.wait]

@[simp] theorem execBarw_outOk {sc : Scope} {b : BitVec 3} {ra : Reg} (hs : s.ListsOk) : OutOk (execBarw sc b ra s) := by
  grind [execBarw, ccNext_outOk, MKeeps.bind, MKeeps.rdS, waitPhase_keeps]

@[simp] theorem execBarx_outOk {sc : Scope} {b : BitVec 3} {ra : Reg} (hs : s.ListsOk) : OutOk (execBarx sc b ra s) := by
  grind [execBarx, ccNext_outOk, MKeeps.bind, MKeeps.rdS, barOf_keeps, myUid_keeps, MKeeps.failIf, barFaults_keeps, MKeeps.upd, State.setBar_listsOk]

theorem State.landBytes_listsOk {r : Bar} {n : ℕ} (hs : s.ListsOk) : (State.landBytes s r n).ListsOk := by
  grind [State.landBytes, State.mapTask_listsOk, Task.ListsOk, State.setBar_listsOk]

@[simp] theorem execBarrierRelease_outOk (hs : s.ListsOk) : OutOk (execBarrierRelease s) := by
  grind [execBarrierRelease, OutOk, modS_listsOk, State.ListsOk.ofReady]

@[simp] theorem execTrap_outOk {n : BitVec 16} (hs : s.ListsOk) : OutOk (execTrap n s) := by
  grind [execTrap, cc_outOk, MKeeps.stay, takeTrap_listsOk]

@[simp] theorem execBrk_outOk {n : BitVec 16} (hs : s.ListsOk) : OutOk (execBrk n s) := by
  grind [execBrk, cc_outOk, MKeeps.stay, takeTrap_listsOk]

@[simp] theorem execEret_outOk (hs : s.ListsOk) : OutOk (execEret s) := by
  grind [execEret, cc_outOk, MKeeps.bind, MKeeps.now_bind, MKeeps.failIf, MKeeps.upd, State.kill_listsOk, returnTrap_listsOk]

@[simp] theorem execEretKill_outOk (hs : s.ListsOk) : OutOk (execEretKill s) := by
  grind [execEretKill, cc_outOk, MKeeps.bind, MKeeps.now_bind, MKeeps.failIf, MKeeps.upd, State.kill_listsOk]

@[simp] theorem execMchkq_outOk {clr : Bool} {rd : Reg} {sel : BitVec 4} (hs : s.ListsOk) : OutOk (execMchkq clr rd sel s) := by
  grind [execMchkq, ccNext_outOk, MKeeps.bind, MKeeps.now_bind, capture_keeps, MKeeps.wrS, MKeeps.upd, modH_listsOk, MKeeps.raise]

@[simp] theorem execTrapEntry_outOk (hs : s.ListsOk) : OutOk (execTrapEntry s) := by
  grind [execTrapEntry, OutOk, takeTrap_listsOk, State.clearFault_listsOk, modC_listsOk, Core.ListsOk, State.ListsOk.ofCore]

theorem Core.agreed_listsOk {c : Core} (hc : c.ListsOk) : (Core.agreed c).ListsOk := by
  grind [Core.agreed, Core.ListsOk, Task.ListsOk]

theorem State.release_listsOk {stepping : Bool} (hs : s.ListsOk) : (State.release s stepping).ListsOk := by
  grind [State.release, modC_listsOk, Core.ListsOk, State.ListsOk.ofCore, modH_listsOk, takeTrap_listsOk]

theorem State.setDbgctl_listsOk {v : Word} (hs : s.ListsOk) : (State.setDbgctl s v).ListsOk := by
  grind [State.setDbgctl, modH_listsOk, State.release_listsOk]

theorem State.dwhlt_listsOk (hs : s.ListsOk) : (State.dwhlt s).ListsOk := by
  grind [State.dwhlt, modH_listsOk]

@[simp] theorem execMode_outOk {rd ra : Reg} (hs : s.ListsOk) : OutOk (execMode rd ra s) :=
  ccNext_outOk hs <| .bind (.rdS _) fun _ => .bind (.failIf _ _) fun _ => .now_bind fun _ _ =>
    .bind (.upd fun _ hu => modM_listsOk hu ⟨hu.ofMem.1, Sparse.put_wf _ _ _ hu.ofMem.2⟩) fun _ => .wrS _ _

/-! ### Other cores -/
theorem Sparse.find_mem {α : Type} {m : Sparse α} {a : Nat} {v : α} (h : Sparse.find m a = some v) : (a, v) ∈ m := by
  induction m with
  | nil => cases h
  | cons p m ih => grind [Sparse.find]

theorem Sparse.ne_of_mem_del {α : Type} {m : Sparse α} {a : Nat} {p : Nat × α} (hr : Sparse.rising m = true) (h : p ∈ Sparse.del m a) :
    p.1 ≠ a := by
  rw [Sparse.rising_iff] at hr
  induction m with
  | nil => cases h
  | cons q m ih =>
    obtain ⟨h1, h2⟩ := List.pairwise_cons.mp hr
    grind [Sparse.del, Sparse.mem_del]

theorem Core.fresh_listsOk {c : BitVec 8} : (Core.fresh c).ListsOk := ⟨rfl, rfl, rfl⟩

/-- A core that lists a core's number, with its own lists in order. -/
def Core.IsAt (k : Core) (c : Nat) : Prop := k.phys.toNat = c ∧ k.ListsOk

theorem State.coreAt_isAt {c : Nat} (hs : s.ListsOk) (hc : c < 256) : (s.coreAt c).IsAt c := by
  unfold State.coreAt
  split
  · next e => exact ⟨e.symm, hs.ofCore⟩
  · cases h : Sparse.find s.others c with
    | none => exact ⟨Nat.mod_eq_of_lt hc, Core.fresh_listsOk⟩
    | some k =>
      obtain ⟨h1, -, h2⟩ := hs.ofOthers.2 _ (Sparse.find_mem h)
      exact ⟨h1, h2⟩

theorem State.setCore_listsOk {c : Nat} {k : Core} (hs : s.ListsOk) (hk : k.IsAt c) : (s.setCore c k).ListsOk := by
  obtain ⟨h1, h2, h3, h4, h5, h6⟩ := (listsOk_iff s).mp hs
  obtain ⟨hp, hl⟩ := hk
  unfold State.setCore
  split
  · next e =>
    have : k.phys = s.core.phys := BitVec.eq_of_toNat_eq (hp.trans e)
    exact (listsOk_iff _).mpr ⟨hl, by rw [this]; exact h2, h3, h4, h5, h6⟩
  · next e =>
    refine (listsOk_iff _).mpr ⟨h1, ⟨Sparse.rising_ins _ _ h2.1, fun p hp' => ?_⟩, h3, h4, h5, h6⟩
    rcases Sparse.mem_ins hp' with rfl | hp'
    · exact ⟨hp, e, hl⟩
    · exact h2.2 p hp'

theorem State.focus_listsOk {c : BitVec 8} (hs : s.ListsOk) : (s.focus c).ListsOk := by
  obtain ⟨h1, h2, h3, h4, h5, h6⟩ := (listsOk_iff s).mp hs
  unfold State.focus
  split
  · exact hs
  · next e =>
    obtain ⟨hp, hl⟩ := State.coreAt_isAt hs c.isLt
    have hr := Sparse.rising_ins s.core.phys.toNat s.core h2.1
    refine (listsOk_iff _).mpr ⟨hl, ⟨Sparse.rising_del _ hr, fun p hp' => ?_⟩, h3, h4, h5, h6⟩
    have hne : p.1 ≠ c.toNat := Sparse.ne_of_mem_del hr hp'
    rw [hp]
    rcases Sparse.mem_ins (Sparse.mem_del hp') with rfl | hp'
    · exact ⟨rfl, hne, h1⟩
    · exact ⟨(h2.2 p hp').1, hne, (h2.2 p hp').2.2⟩

theorem State.withCore_listsOk {c : BitVec 8} {f : State → State} (hs : s.ListsOk) (hf : ∀ u, u.ListsOk → (f u).ListsOk) :
    (State.withCore s c f).ListsOk := State.focus_listsOk (hf _ (State.focus_listsOk hs))

theorem launchAdmit_listsOk {prio : BitVec 2} {join : Option ℕ} (hs : s.ListsOk) : (launchAdmit prio join s).2.ListsOk := by
  cases join <;> grind [launchAdmit, State.homeWriteLe_listsOk]

@[simp] theorem execLaunch_outOk {rd ra rb : Reg} (hs : s.ListsOk) : OutOk (execLaunch rd ra rb s) := by
  refine ccNext_outOk hs <| afterCommit_keeps <| .bind (.rdS _) fun _ => .bind (.rdS _) fun _ => .bind (.failIf _ _) fun _ =>
    .bind xlateDirect_keeps fun _ => .bind joinTarget_keeps fun j => .now_bind fun u hu => .bind (.failIf _ _) fun _ =>
    .bind (.failIf _ _) fun _ => ?_
  dsimp only
  split
  · refine .bind (.upd fun _ _ => State.modL_listsOk (State.pushReady_listsOk ?_ trivial)) fun _ => capture_keeps fun _ => .wrS _ _
    iterate 5 refine State.homeWriteLe_listsOk ?_
    exact launchAdmit_listsOk hu
  · exact capture_keeps fun _ => .wrS _ _

@[simp] theorem execLaunchRec_outOk {rd ra rb : Reg} (hs : s.ListsOk) : OutOk (execLaunchRec rd ra rb s) := by
  refine ccNext_outOk hs <| afterCommit_keeps <| .bind (.rdS _) fun _ => .bind (.rdS _) fun _ => .bind (.failIf _ _) fun _ =>
    .bind xlateDirect_keeps fun _ => .bind joinTarget_keeps fun j => .now_bind fun u hu => .bind (.failIf _ _) fun _ =>
    .bind (.failIf _ _) fun _ => ?_
  dsimp only
  split
  · exact .bind (.upd fun _ _ => State.acceptOwn_listsOk (launchAdmit_listsOk hu)) fun _ => capture_keeps fun _ => .wrS _ _
  · exact capture_keeps fun _ => .wrS _ _

@[simp] theorem execTend_outOk (hs : s.ListsOk) : OutOk (execTend s) := by
  refine cc_outOk hs <| .bind endChecks_keeps fun _ => .now_bind fun u hu => ?_
  dsimp only
  split
  · exact .bind commitM_keeps fun _ => .upd fun _ => State.endTask_listsOk
  · split
    · next h => exact .bind (.upd fun _ _ => joinAddr_listsOk hu h) fun _ => .raise _
    · next h => exact .bind (.upd fun _ _ => joinAddr_listsOk hu h) fun _ => .bind commitM_keeps fun _ => .upd fun _ hv =>
        State.endTask_listsOk (State.decJoin_listsOk (State.departAll_listsOk hv))

@[simp] theorem execJoin_outOk {ra : Reg} (hs : s.ListsOk) : OutOk (execJoin ra s) := by
  refine cc_outOk hs <| .bind endChecks_keeps fun _ => .bind (.rdS _) fun _ => .bind (.failIf _ _) fun _ => .now_bind fun u hu =>
    .bind xlateAs_keeps fun _ => .bind (.failIf _ _) fun _ => .bind (.failIf _ _) fun _ => .bind (.failIf _ _) fun _ =>
    .bind commitM_keeps fun _ => .upd fun v hv => ?_
  have h1 := State.departAll_listsOk (uid := u.core.t.id.uid) (State.dropStack_listsOk hv)
  refine State.leaveCore_listsOk ?_
  split
  · exact State.pushReady_listsOk h1 trivial
  · exact State.homeWriteLe_listsOk (modS_listsOk h1 h1.ofReady)

theorem State.preempt_listsOk (hs : s.ListsOk) : s.preempt.ListsOk :=
  State.idleCore_listsOk (State.pushReady_listsOk hs hs.ofCore.2)

@[simp] theorem execYield_outOk (hs : s.ListsOk) : OutOk (execYield s) :=
  cc_outOk hs (.upd fun _ hu => State.preempt_listsOk (advance_listsOk hu))

@[simp] theorem execPrio_outOk {ra : Reg} (hs : s.ListsOk) : OutOk (execPrio ra s) :=
  ccNext_outOk hs <| .bind (.rdS _) fun _ => .now_bind fun _ _ => .bind (.failIf _ _) fun _ => .upd fun _ hu => modT_listsOk hu hu.ofCore.2

/-! ### Dispatch -/
theorem State.unready_listsOk {i : ℕ} (hs : s.ListsOk) : (s.unready i).ListsOk :=
  modS_listsOk hs fun r hr => hs.ofReady r (List.mem_of_mem_eraseIdx hr)

theorem State.served_listsOk {i : ℕ} {r : Ready} (hs : s.ListsOk) : (s.served i r).ListsOk :=
  modS_listsOk (State.unready_listsOk hs) (State.unready_listsOk hs).ofReady

theorem nextUid_listsOk {n : ℕ} (hs : s.ListsOk) : (s.modS fun k => { k with nextUid := n }).ListsOk := modS_listsOk hs hs.ofReady

theorem State.dispatch_listsOk {i : ℕ} {r : Ready} {c : ℕ} (hs : s.ListsOk) (hr : r.work.ListsOk) : (s.dispatch i r c).ListsOk := by
  unfold State.dispatch
  split
  · exact hs
  · next l _ =>
    extract_lets nest dies img s1 s2 s3 uid base start
    have h2 : s2.ListsOk := by
      dsimp only [s2]; split
      · exact State.served_listsOk hs
      · exact State.modL_listsOk (State.served_listsOk hs)
    have h3 : s3.ListsOk := State.focus_listsOk h2
    have hstart : ∀ id, (start id).ListsOk := fun id => State.startTask_listsOk (nextUid_listsOk h3)
    split
    · next e => rw [e] at hr; exact State.resumeTask_listsOk h3 hr
    · exact hstart _
    · exact hstart _

theorem serveOrder_mem {x : Nat × Ready} (h : x ∈ serveOrder s) : x.2 ∈ s.sched.ready := by
  unfold serveOrder at h
  simp only [List.mem_flatMap, List.mem_filter] at h
  obtain ⟨_, _, _, _, ⟨h, _⟩, _⟩ := h
  exact (List.of_mem_zip h).2

theorem pickFrom_mem {l : List (Nat × Ready)} {held : List Nat} {i : Nat} {r : Ready} {c : Nat} (h : pickFrom s l held = some (i, r, c)) :
    (i, r) ∈ l := by
  induction l generalizing held with
  | nil => cases h
  | cons x l ih => grind [pickFrom]

@[simp] theorem execTaskDispatch_outOk (hs : s.ListsOk) : OutOk (execTaskDispatch s) := by
  refine .next ?_
  split
  · exact hs
  · split
    · next h => exact State.dispatch_listsOk hs (hs.ofReady _ (serveOrder_mem (pickFrom_mem h)))
    · exact hs

theorem State.startNest_listsOk {l : Launch} {dies : List ℕ} (hs : s.ListsOk) : (s.startNest l dies).ListsOk :=
  foldl_listsOk (fun _ _ hu => State.startTask_listsOk (nextUid_listsOk (State.focus_listsOk hu))) hs

theorem admitDies_lt {l : Launch} {d : ℕ} (h : d ∈ admitDies s l) : d < 4 := by
  unfold admitDies at h
  extract_lets el keep more all at h
  have hall : d ∈ all → d < 4 := fun h => List.mem_range.mp (List.mem_filter.mp h).1
  grind

theorem nestDies_lt {l : Launch} {d : ℕ} (h : d ∈ nestDies s l) : d < 4 := by
  unfold nestDies at h
  have hmask : d ∈ diesOf l.mask → d < 4 := fun h => List.mem_range.mp (List.mem_filter.mp h).1
  grind [→ admitDies_lt]

theorem physical_lt {dies : List Nat} (h : ∀ d ∈ dies, d < 4) (i : Nat) : physical dies i < 256 := by
  have h1 : dies.getD (i / 64) 0 < 4 := by
    rw [List.getD_eq_getElem?_getD]
    cases hi : dies[i / 64]? with
    | none => decide
    | some d => exact h d (List.mem_of_getElem? hi)
  unfold physical
  omega

theorem State.reserve_listsOk {l : Launch} (hs : s.ListsOk) : (s.reserve l).ListsOk := by
  unfold State.reserve
  extract_lets want u
  have hw : ∀ c ∈ want, c < 256 := by
    intro c hc
    obtain ⟨i, -, rfl⟩ := List.mem_map.mp hc
    exact physical_lt (fun _ => nestDies_lt) i
  have hu : u.ListsOk := mapCores_listsOk hs (fun _ => by split <;> rfl) fun _ hc => by split <;> exact hc
  have key : ∀ cs : List Nat, (∀ c ∈ cs, c < 256) → ∀ v : State, v.ListsOk →
      (cs.foldl (fun (s : State) c => s.setCore c { s.coreAt c with reserved := some l.id }) v).ListsOk := by
    intro cs
    induction cs with
    | nil => exact fun _ v hv => hv
    | cons c cs ih =>
      intro h v hv
      refine ih (fun d hd => h d (List.mem_cons_of_mem _ hd)) _ (State.setCore_listsOk hv ?_)
      exact State.coreAt_isAt hv (h c (List.mem_cons_self ..))
  exact key _ (fun c hc => hw c (List.mem_filter.mp hc).1) u hu

@[simp] theorem execNestLaunchDispatch_outOk (hs : s.ListsOk) : OutOk (execNestLaunchDispatch s) := by
  refine .next ?_
  dsimp only
  split
  · exact hs
  · have h1 := fun l : List (Nat × Ready × Launch) =>
      foldl_listsOk (f := fun s x => s.reserve x.2.2) (l := l) (fun _ _ => State.reserve_listsOk) hs
    split
    · exact h1 _
    · exact State.focus_listsOk (State.startNest_listsOk (State.modL_listsOk (State.served_listsOk (h1 _))))

@[simp] theorem execRecordAging_outOk (hs : s.ListsOk) : OutOk (execRecordAging s) := by
  refine .next (modS_listsOk hs fun r hr => ?_)
  rcases List.mem_append.mp hr with h | h
  · exact hs.ofReady r (List.mem_filter.mp h).1
  · obtain ⟨q, hq, rfl⟩ := List.mem_map.mp h
    exact hs.ofReady q (List.mem_filter.mp hq).1

theorem Core.uncommit_phys (c : Core) : c.uncommit.phys = c.phys := by
  unfold Core.uncommit; split <;> rfl

@[simp] theorem execForcedPreemption_outOk (hs : s.ListsOk) : OutOk (execForcedPreemption s) := by
  refine .next ?_
  dsimp only
  split
  · exact hs
  · split
    · exact hs
    · split
      · exact hs
      · have h1 : ({ s with fresh := s.fresh + 1 } : State).ListsOk := hs
        have h2 := fun c => State.focus_listsOk (c := c) h1
        exact State.focus_listsOk (State.preempt_listsOk (modC_listsOk (h2 _) (Core.uncommit_phys _) (Core.uncommit_listsOk (h2 _).ofCore)))

theorem stepPreempt_listsOk (hs : s.ListsOk) : (stepPreempt s).ListsOk := by
  unfold stepPreempt; split
  · exact State.preempt_listsOk hs
  · exact hs

theorem State.applyPacket_listsOk {p : Packet} (hs : s.ListsOk) : (s.applyPacket p).ListsOk := by
  unfold State.applyPacket
  dsimp only
  have hp := State.publish_listsOk (ctx := ((s.launch p.launch).map (·.ctx)).getD 0) (dirty := p.bytes) (whole := p.whole) (bad := p.bad) hs rfl
  split
  · exact hp
  · exact State.mapTask_listsOk hp fun t ht => ⟨foldl_ins_rising ht.1, ht.2⟩

theorem State.applyPackets_listsOk {sel : Packet → Bool} (hs : s.ListsOk) : (s.applyPackets sel).ListsOk := by
  unfold State.applyPackets
  extract_lets ps u
  have hu : u.ListsOk := foldl_listsOk (fun _ _ => foldl_listsOk fun _ _ => State.applyPacket_listsOk) hs
  exact modS_listsOk hu hu.ofReady

@[simp] theorem execPhaseMerge_outOk (hs : s.ListsOk) : OutOk (execPhaseMerge s) := by
  refine .next ?_
  split
  · exact hs
  · exact State.setBar_listsOk (State.mergedTasks_listsOk (State.applyPackets_listsOk hs))

theorem barbrk_listsOk (hs : s.ListsOk) : (s.modT fun t => { t with pend := { t.pend with barbrk := false } }).ListsOk := modT_listsOk hs hs.ofCore.2

theorem misclose_listsOk (hs : s.ListsOk) :
    (s.modT fun t => { t with pend := { t.pend with misclose := false } }).ListsOk := modT_listsOk hs hs.ofCore.2

theorem waiting_listsOk {b : Bool} (hs : s.ListsOk) : (s.modC fun c => { c with waiting := b }).ListsOk := modC_listsOk hs rfl hs.ofCore

@[simp] theorem execStepb_outOk {rd : Reg} (hs : s.ListsOk) : OutOk (execStepb rd s) := by
  refine cc_outOk hs fun u hu => ?_
  dsimp only
  split
  · exact MKeeps.wait u hu
  · split
    · exact MKeeps.raiseLate _ (fun _ => phaseIdle_listsOk) u hu
    · have h1 := fun n => advance_listsOk (n := 1) (setS_listsOk (n := rd) (x := n) (phaseIdle_listsOk (State.acquire_listsOk hu)))
      split
      · exact MKeeps.raiseLate _ (fun _ _ => barbrk_listsOk (h1 _)) u hu
      · exact ⟨by rintro _ _ ⟨⟩; exact stepPreempt_listsOk (h1 _), by rintro _ _ ⟨⟩⟩
  · split
    · exact MKeeps.wait u hu
    · split
      · exact MKeeps.raiseLate _ (fun _ => misclose_listsOk) u hu
      · split
        · exact MKeeps.wait u hu
        · split
          · exact MKeeps.bind commitM_keeps (fun _ => .upd fun _ hv =>
              stepPreempt_listsOk (advance_listsOk (setS_listsOk (State.poolStep_listsOk (State.acquire_listsOk hv))))) u hu
          · exact MKeeps.stay (fun _ hv => waiting_listsOk (phaseSend_listsOk hv)) u hu

@[simp] theorem execStepBarrierComplete_outOk (hs : s.ListsOk) : OutOk (execStepBarrierComplete s) := by
  refine .next ?_
  split
  · exact hs
  · next r hr =>
    split
    · exact hs
    · next l hl =>
      extract_lets brk steps gone
      split
      next u adm hd =>
      have hu : u.ListsOk := State.stepDies_listsOk hs hd
      extract_lets dies back u1 u2 r' u3 logged u4 u5
      have h1 : u1.ListsOk := by
        dsimp only [u1]; split
        · exact hu
        · exact foldl_listsOk (fun v c hv => by
            split
            · exact State.postFault_listsOk (State.kill_listsOk (State.focus_listsOk hv))
            · exact hv) hu
      have h3 : u3.ListsOk := State.applyPackets_listsOk (State.focus_listsOk h1)
      have hlog : logged.ListsOk := State.logDies_listsOk h3
      have h5 : u5.ListsOk := foldl_listsOk (fun _ _ hv => State.mapTask_listsOk hv fun _ ht => ⟨ht.1, ht.2⟩) (State.modL_listsOk hlog)
      clear_value u5
      split
      · exact State.setBar_listsOk (State.mergedTasks_listsOk h5)
      · next mine site v1 v2 v3 v4 root v5 _ =>
        split
        · exact h3
        · have hv1 : v1.ListsOk := foldl_listsOk (fun _ _ hv => State.leaveCore_listsOk (State.dropStack_listsOk (State.focus_listsOk hv))) hlog
          have hv2 : v2.ListsOk := foldl_listsOk (fun v r hv => by
            split
            · split
              · exact State.freeStack_listsOk hv
              · exact hv
            · exact hv) hv1
          have hv3 : v3.ListsOk := foldl_listsOk (fun _ _ => State.departAll_listsOk) hv2
          have hv4 : v4.ListsOk := mapCores_listsOk hv3 (fun _ => by split <;> rfl) fun _ hc => by split <;> exact hc
          refine State.focus_listsOk (State.modL_listsOk (modS_listsOk hv4 fun r hr => ?_))
          rcases List.mem_append.mp hr with h | h
          · exact hv4.ofReady r (List.mem_filter.mp h).1
          · rw [List.mem_singleton.mp h]; trivial

@[simp] theorem execBaraw_outOk {sc : Scope} {rd : Reg} {b : BitVec 3} (hs : s.ListsOk) : OutOk (execBaraw sc rd b s) := by
  refine ccNext_outOk hs fun u hu => ?_
  dsimp only
  have clear : ∀ v : State, v.ListsOk → (v.modT fun t => { t with barw := none }).ListsOk := fun v hv => modT_listsOk hv hv.ofCore.2
  have hold : ∀ (v : State) x, v.ListsOk → ((v.modT fun t => { t with barw := some x }).modC fun c => { c with waiting := true }).ListsOk :=
    fun v x hv => waiting_listsOk (modT_listsOk hv hv.ofCore.2)
  have hw := fun n => waitPhase_keeps (sc := sc) (b := b) (n := n) u hu
  have ha := arrive_keeps (sc := sc) (b := b) u hu
  split
  · split <;> grind
  · split
    · grind
    · next n s1 h =>
      have h1 : ∀ x, (s1.setS rd x).ListsOk := fun x => setS_listsOk (ha.1 _ _ h)
      split
      · exact ⟨by rintro _ _ ⟨⟩; exact clear _ (h1 _), by rintro _ _ ⟨⟩⟩
      · exact ⟨by rintro _ _ ⟨⟩, by rintro _ _ ⟨⟩; exact hold _ _ (h1 _)⟩

@[simp] theorem execFltrec_outOk {ra : Reg} (hs : s.ListsOk) : OutOk (execFltrec ra s) :=
  ccNext_outOk hs <| .bind (.rdS _) fun _ => .bind (.failIf _ _) fun _ => .bind xlate_keeps fun _ => .now_bind fun _ _ =>
    .bind memWrite_keeps fun _ => .bind memWrite_keeps fun _ => .upd fun _ => State.sealLines_listsOk

@[simp] theorem execHalt_outOk {ra : Reg} (hs : s.ListsOk) : OutOk (execHalt ra s) := by
  refine ccNext_outOk hs <| .bind (.rdS _) fun a => .bind (.failIf _ _) fun _ => .now_bind fun u hu => ?_
  have hask : ∀ c (v : State), v.ListsOk → (v.withCore c (·.askHalt false false)).ListsOk := fun c v hv =>
    State.withCore_listsOk hv fun _ => State.askHalt_listsOk
  dsimp only
  split
  · exact .pure _
  · split
    · exact .stay fun v hv => waiting_listsOk (hask _ _ hv)
    · exact .upd (hask _)

theorem Core.reset_listsOk {c : Core} {now : ℕ} : (c.reset now).ListsOk := ⟨rfl, rfl, rfl⟩

@[simp] theorem execCrst_outOk {ra : Reg} (hs : s.ListsOk) : OutOk (execCrst ra s) := by
  refine ccNext_outOk hs <| .bind (.rdS _) fun a => .now_bind fun _ _ => .bind (.failIf _ _) fun _ => .upd fun u hu => ?_
  refine State.focus_listsOk (modC_listsOk ?_ rfl Core.reset_listsOk)
  exact State.loseColls_listsOk (State.loseChannels_listsOk (State.kill_listsOk (State.focus_listsOk hu)))

theorem Core.agreed_phys (c : Core) : c.agreed.phys = c.phys := by
  unfold Core.agreed
  split
  · rfl
  · split <;> rfl

@[simp] theorem execCheckerCompare_outOk {agree : Bool} (hs : s.ListsOk) : OutOk (execCheckerCompare agree s) := by
  have h1 : (s.modC Core.uncommit).ListsOk := modC_listsOk hs (Core.uncommit_phys _) (Core.uncommit_listsOk hs.ofCore)
  refine .next ?_
  split
  · exact modC_listsOk hs (Core.agreed_phys _) (Core.agreed_listsOk hs.ofCore)
  · grind [modH_listsOk, takeTrap_listsOk]

theorem State.strike_listsOk {loc : ErrLoc} (hs : s.ListsOk) : (s.strike loc).ListsOk := by
  have hview : ∀ f : Task → Task, (f s.core.t).view.dirty = s.core.t.view.dirty → (f s.core.t).spill = s.core.t.spill → (s.modT f).ListsOk :=
    fun f h1 h2 => modT_listsOk hs ⟨by rw [h1]; exact hs.ofCore.2.1, by rw [h2]; exact hs.ofCore.2.2⟩
  cases loc with
  | mem pa => exact State.homeSetPois_listsOk hs
  | wb o => exact modB_listsOk hs
  | ab o => exact modB_listsOk hs
  | cb e => exact modB_listsOk hs
  | spill o => exact hview _ rfl rfl
  | scalar r => unfold State.strike; split <;> grind [modR_listsOk]
  | vector r w => exact modR_listsOk hs
  | mask r w => exact modR_listsOk hs
  | descriptor d => exact modR_listsOk hs
  | silent a e b => unfold State.strike; cases a <;> exact hview _ rfl rfl
  | working a e =>
    have ht : (State.core s).t.tileError.ListsOk := Task.tileError_listsOk hs.ofCore.2
    refine modT_listsOk hs ?_
    split
    · exact ht
    · split <;> exact hs.ofCore.2
  | codeLine pa => exact mapCores_listsOk (State.homeSetPois_listsOk hs) (fun _ => rfl) fun _ hc => ⟨Sparse.rising_del _ hc.1, hc.2⟩
  | tlb v => exact modM_listsOk (modC_listsOk hs rfl hs.ofCore) hs.ofMem
  | walkCache n => exact modM_listsOk hs hs.ofMem
  | view pa => unfold State.strike; split <;> grind [modV_listsOk, Core.ListsOk, Task.ListsOk, State.ListsOk.ofCore]
  | journal pa => exact modM_listsOk hs hs.ofMem
  | control =>
    have h1 : (s.modH fun h => { h with suspect := true }).ListsOk := modH_listsOk hs
    unfold State.strike
    dsimp only
    split
    · exact State.askHalt_listsOk (modT_listsOk h1 h1.ofCore.2)
    · exact modC_listsOk h1 rfl h1.ofCore

@[simp] theorem execUncorrectableError_outOk {loc : ErrLoc} (hs : s.ListsOk) : OutOk (execUncorrectableError loc s) := .next (State.strike_listsOk hs)

@[simp] theorem execCorrectableError_outOk {loc : ErrLoc} (hs : s.ListsOk) : OutOk (execCorrectableError loc s) := by
  refine .next ?_
  split
  · exact hs
  · exact hs
  · exact hs
  · exact hs
  · exact modH_listsOk hs

@[simp] theorem execCoreHalted_outOk {core : BitVec 8} (hs : s.ListsOk) : OutOk (execCoreHalted core s) := by
  unfold execCoreHalted
  refine .next ?_
  split
  · exact State.withCore_listsOk hs fun _ => State.halt_listsOk
  · exact hs

@[simp] theorem execDwhlt_outOk {core : BitVec 8} (hs : s.ListsOk) : OutOk (execDwhlt core s) := by
  refine .next ?_
  split
  · exact State.withCore_listsOk hs fun _ => State.dwhlt_listsOk
  · exact hs

@[simp] theorem execDbgctlRun_outOk {core : BitVec 8} (hs : s.ListsOk) : OutOk (execDbgctlRun core s) := by
  refine .next ?_
  split
  · exact State.withCore_listsOk hs fun _ => State.release_listsOk
  · exact hs

@[simp] theorem execDbgctlStep_outOk {core : BitVec 8} (hs : s.ListsOk) : OutOk (execDbgctlStep core s) := by
  refine .next ?_
  split
  · exact State.withCore_listsOk hs fun _ => State.release_listsOk
  · exact hs

end Sys2Proof.Machine
end

section
/-! Differentiable blocks keep the lists in order (O11). -/

namespace Sys2Proof.Machine

variable {s : State}

theorem readMap_keeps {a : Word} {x1 : ℕ} : MKeeps (readMap a x1) := by
  induction x1 generalizing a with
  | zero => grind [readMap, MKeeps.pure, MKeeps.bind, xlate_keeps, memRead_keeps]
  | succ n ih => grind [readMap, MKeeps.pure, MKeeps.bind, xlate_keeps, memRead_keeps]

theorem asSystem_keeps {α : Type} {m : E α} (hm : EKeeps m) : EKeeps (asSystem m) := by
  grind [asSystem, EKeeps, modT_listsOk, Task.ListsOk, Core.ListsOk, State.ListsOk.ofCore]

theorem segsRead_keeps {ab : Bool} {x1 : List (ℕ × ℕ)} : EKeeps (segsRead ab x1) := by
  induction x1 generalizing ab with
  | nil => grind [segsRead, EKeeps.pure, EKeeps.bind, eCarryB_keeps, asSystem_keeps, eReadG_keeps]
  | cons x l ih => grind [segsRead, EKeeps.pure, EKeeps.bind, eCarryB_keeps, asSystem_keeps, eReadG_keeps]

theorem segsWrite_keeps {ab : Bool} {x1 : List (ℕ × ℕ)} {x2 : List GByte} : EKeeps (segsWrite ab x1 x2) := by
  induction x1 generalizing ab x2 with
  | nil => grind [segsWrite, EKeeps.pure, EKeeps.bind, eWriteB_keeps, asSystem_keeps, eWriteG_keeps]
  | cons x l ih => grind [segsWrite, EKeeps.pure, EKeeps.bind, eWriteB_keeps, asSystem_keeps, eWriteG_keeps]

theorem State.modRs_listsOk {f : RStack → RStack} (hs : s.ListsOk) : (State.modRs s f).ListsOk := by
  grind [State.modRs, modT_listsOk, Task.ListsOk, Core.ListsOk, State.ListsOk.ofCore]

theorem moveWhile_listsOk {c : State → Bool} {m : E Unit} {x2 : ℕ} {x3 t' : State} {r'} (hm : EKeeps m) (hx3 : x3.ListsOk)
    (h : moveWhile c m x2 x3 = (t', r')) :
    t'.ListsOk := by
  induction x2 generalizing c m x3 with
  | zero => grind [moveWhile, State.walkFills_listsOk, EKeeps]
  | succ n ih => grind [moveWhile, State.walkFills_listsOk, EKeeps]

theorem stackRead_keeps {x n : ℕ} : EKeeps (stackRead x n) := .enow_bind fun _ _ => segsRead_keeps

theorem topHdr_keeps : EKeeps topHdr := by
  grind [topHdr, EKeeps.bind, EKeeps.enow_bind, EKeeps.efailIf, stackRead_keeps, eConsume_keeps, EKeeps.pure]

theorem residualOf_keeps {k : Cmd} : EKeeps (residualOf k) := by
  grind [residualOf, EKeeps.pure, eReadB_keeps]

theorem eSpill_keeps {off n : ℕ} : EKeeps (eSpill off n) := by
  grind [eSpill, EKeeps.enow_bind, EKeeps.pure]

theorem eLines_keeps {d : Desc} {x1 x2 : ℕ} : EKeeps (eLines d x1 x2) := by
  induction x1 generalizing d x2 with
  | zero => grind [eLines, EKeeps.pure, EKeeps.bind, EKeeps.enow_bind, EKeeps.efailIf]
  | succ n ih => grind [eLines, EKeeps.pure, EKeeps.bind, EKeeps.enow_bind, EKeeps.efailIf]

theorem checkRpush_keeps {d : Desc} : EKeeps (checkRpush d) := by
  grind [checkRpush, EKeeps.enow_bind, EKeeps.echeck]

theorem runRpush_listsOk {k : Cmd} (hs : s.ListsOk) : (runRpush k s).s.ListsOk := by
  grind [runRpush, whole_listsOk, EKeeps.eupd, State.setRes_listsOk, EKeeps.bind, eSpill_keeps, checkRpush_keeps, eLines_keeps]

theorem ePutLines_keeps {d : Desc} {x1 x2 : ℕ} {x3 : List GByte} : EKeeps (ePutLines d x1 x2 x3) := by
  induction x1 generalizing d x2 x3 with
  | zero => grind [ePutLines, EKeeps.pure, EKeeps.bind, EKeeps.eupd, modB_listsOk]
  | succ n ih => grind [ePutLines, EKeeps.pure, EKeeps.bind, EKeeps.eupd, modB_listsOk]

theorem adjRpush_listsOk {k : Cmd} (hs : s.ListsOk) : (adjRpush k s).s.ListsOk := by
  grind [adjRpush, EKeeps.efailIf, whole_listsOk, EKeeps.bind, EKeeps.eupd, State.spillPutG_listsOk, checkRpush_keeps, topBlkop_keeps,
    ePutLines_keeps]

theorem eFill_keeps {d : Desc} {x : ℕ} {x2 : List (ℕ × ℕ)} : EKeeps (eFill d x x2) := by
  induction x2 generalizing d x with
  | nil => grind [eFill, EKeeps.pure, EKeeps.bind, ePut_keeps]
  | cons x l ih => grind [eFill, EKeeps.pure, EKeeps.bind, ePut_keeps]

theorem runGzero_listsOk {k : Cmd} (hs : s.ListsOk) : (runGzero k s).s.ListsOk := by
  grind [runGzero, whole_listsOk, EKeeps.bind, EKeeps.enow_bind, EKeeps.efailIf, eFill_keeps]

@[simp] theorem execRpush_outOk {tk : Tok} {dA : DCode} (hs : s.ListsOk) : OutOk (execRpush tk dA s) := by
  grind [execRpush, routed_outOk, MKeeps.pure]

@[simp] theorem execRpushSpl_outOk {tk : Tok} {off8 : BitVec 11} {n8m1 : BitVec 6} (hs : s.ListsOk) : OutOk (execRpushSpl tk off8 n8m1 s) := by
  grind [execRpushSpl, routed_outOk, MKeeps.pure]

@[simp] theorem execGzero_outOk {tk : Tok} {dD : DCode} (hs : s.ListsOk) : OutOk (execGzero tk dD s) := by
  grind [execGzero, routed_outOk, MKeeps.pure]

@[simp] theorem execRstkGet_outOk {ra : Reg} (hs : s.ListsOk) : OutOk (execRstkGet ra s) := by
  grind [execRstkGet, ccNext_outOk, MKeeps.bind, MKeeps.rdS, MKeeps.failIf, xlate_keeps, MKeeps.now_bind, memWrite_keeps]

theorem State.dropPop_listsOk (hs : s.ListsOk) : (State.dropPop s).ListsOk := by
  grind [State.dropPop, State.timelineWrite_listsOk, modT_listsOk, Task.ListsOk, Core.ListsOk, State.ListsOk.ofCore, modTl_listsOk]

theorem codeLines_keeps {a : Word} {x1 : ℕ} : MKeeps (codeLines a x1) := by
  induction x1 generalizing a with
  | zero => grind [codeLines, MKeeps.pure, MKeeps.bind, fetchLine_keeps, MKeeps.failIf]
  | succ n ih => grind [codeLines, MKeeps.pure, MKeeps.bind, fetchLine_keeps, MKeeps.failIf]

theorem codeAt_keeps {a : Word} : MKeeps (codeAt a) := by
  grind [codeAt, MKeeps.bind, fetchLine_keeps, MKeeps.failIf, MKeeps.pure]

theorem blockCode_keeps {id : BitVec 16} {pcb blke : Word} : MKeeps (blockCode id pcb blke) := by
  grind [blockCode, MKeeps.bind, codeAt_keeps, MKeeps.failIf, codeLines_keeps, MKeeps.pure]

theorem State.takePop_listsOk (hs : s.ListsOk) : (State.takePop s).ListsOk := by
  grind [State.takePop, modT_listsOk, Task.ListsOk, Core.ListsOk, State.ListsOk.ofCore, modTl_listsOk]

theorem keepPop_keeps {α : Type} {g : FaultInfo → FaultInfo} {m : M α} (hm : MKeeps m) : MKeeps (keepPop g m) := by
  grind [keepPop, MKeeps, keepFills_listsOk]

theorem walkRoute_keeps {b : Block} {ord : ℕ} {replay : Bool} {c : Carrier} : MKeeps (walkRoute b ord replay c) := by
  grind [walkRoute, MKeeps.now_bind, MKeeps.wait, MKeeps.upd, State.enqueue_listsOk]

theorem State.modW_listsOk {f : Walk → Walk} (hs : s.ListsOk) : (State.modW s f).ListsOk := by
  grind [State.modW, modT_listsOk, Task.ListsOk, Core.ListsOk, State.ListsOk.ofCore]

theorem withWalkPc_keeps {m : M Unit} (hm : MKeeps m) : MKeeps (withWalkPc m) := by
  grind [withWalkPc, MKeeps]

end Sys2Proof.Machine
end

section
/-! Channels and collectives keep the lists in order (O11). -/

namespace Sys2Proof.Machine

variable {s : State}

theorem State.modCh_listsOk {n : BitVec 3} {f : ChEnd → ChEnd} (hs : s.ListsOk) : (State.modCh s n f).ListsOk := by
  grind [State.modCh, modT_listsOk, Task.ListsOk, Core.ListsOk, State.ListsOk.ofCore]

theorem runChsend_listsOk {k : Cmd} {n : BitVec 3} {fw : Bool} (hs : s.ListsOk) : (runChsend k n fw s).s.ListsOk := by
  grind [runChsend, Prog.ok_listsOk]

theorem sendLost_listsOk {k : Cmd} (hs : s.ListsOk) : (sendLost k s).ListsOk := by
  grind [sendLost, modCmd_listsOk]

theorem State.sent_listsOk {n : BitVec 3} (hs : s.ListsOk) : (State.sent s n).ListsOk := by
  grind [State.sent, State.modCh_listsOk]

theorem sendDone_listsOk {k : Cmd} (hs : s.ListsOk) : (sendDone k s).ListsOk := by
  grind [sendDone, modCmd_listsOk]

@[simp] theorem execCreditReturn_outOk {n : BitVec 3} (hs : s.ListsOk) : OutOk (execCreditReturn n s) := by
  grind [execCreditReturn, OutOk, State.modCh_listsOk]

theorem freeSlots_listsOk {num : Word} (hs : s.ListsOk) : (freeSlots num s).ListsOk := by
  grind [freeSlots, modT_listsOk, Task.ListsOk, Core.ListsOk, State.ListsOk.ofCore]

@[simp] theorem execChsendFw_outOk {tk : Tok} {n : BitVec 3} {dA : DCode} (hs : s.ListsOk) : OutOk (execChsendFw tk n dA s) := by
  grind [execChsendFw, routed_outOk, MKeeps.pure]

@[simp] theorem execChsendRv_outOk {tk : Tok} {n : BitVec 3} {dA : DCode} (hs : s.ListsOk) : OutOk (execChsendRv tk n dA s) := by
  grind [execChsendRv, routed_outOk, MKeeps.pure]

@[simp] theorem execPartnerLoss_outOk {core : BitVec 8} (hs : s.ListsOk) : OutOk (execPartnerLoss core s) := by
  grind [execPartnerLoss, OutOk, State.loseColls_listsOk, State.loseChannels_listsOk]

theorem State.cutLinks_listsOk {own : BitVec 12 → Bool} {far : ℕ → Bool} {group : BitVec 32 → Bool} (hs : s.ListsOk) :
    (State.cutLinks s own far group).ListsOk := by
  grind [State.cutLinks, Task.ListsOk, modS_listsOk, State.ListsOk.ofReady, State.mapAll_listsOk, State.endColls_listsOk]

@[simp] theorem execKeyRevocation_outOk {key : BitVec 16} (hs : s.ListsOk) : OutOk (execKeyRevocation key s) := by
  grind [execKeyRevocation, OutOk, State.cutLinks_listsOk, listsOk_mk, Plat.ListsOk, State.ListsOk.ofCore, State.ListsOk.ofOthers,
    State.ListsOk.ofMem, State.ListsOk.ofPlat, State.ListsOk.ofReady, State.ListsOk.ofImages]

theorem State.portDown_listsOk {port : BitVec 4} (hs : s.ListsOk) : (State.portDown s port).ListsOk := by
  grind [State.portDown, State.cutLinks_listsOk, listsOk_mk, Plat.ListsOk, State.ListsOk.ofCore, State.ListsOk.ofOthers, State.ListsOk.ofMem,
    State.ListsOk.ofPlat, State.ListsOk.ofReady, State.ListsOk.ofImages]

@[simp] theorem execLinkPortDown_outOk {port : BitVec 4} (hs : s.ListsOk) : OutOk (execLinkPortDown port s) := by
  grind [execLinkPortDown, OutOk, State.portDown_listsOk]

theorem State.dropPacket_listsOk (hs : s.ListsOk) : (State.dropPacket s).ListsOk := by
  grind [State.dropPacket, listsOk_mk, Plat.ListsOk, State.ListsOk.ofCore, State.ListsOk.ofOthers, State.ListsOk.ofMem, State.ListsOk.ofPlat,
    State.ListsOk.ofReady, State.ListsOk.ofImages]

theorem State.farLost_listsOk {pkg phys : BitVec 8} (hs : s.ListsOk) : (State.farLost s pkg phys).ListsOk := by
  grind [State.farLost, Task.ListsOk, State.endColls_listsOk, State.mapAll_listsOk]

theorem State.badFlit_listsOk {port : BitVec 4} (hs : s.ListsOk) : (State.badFlit s port).ListsOk := by
  grind [State.badFlit, State.portDown_listsOk, listsOk_mk, Plat.ListsOk, State.ListsOk.ofCore, State.ListsOk.ofOthers, State.ListsOk.ofMem,
    State.ListsOk.ofPlat, State.ListsOk.ofReady, State.ListsOk.ofImages]

theorem readSource_keeps {r : CollReq} : EKeeps (readSource r) := by
  grind [readSource, EKeeps.bind, eReadG_keeps, EKeeps.pure]

@[simp] theorem execColl_outOk {tk : Tok} {k : BitVec 4} {ra : Reg} (hs : s.ListsOk) : OutOk (execColl tk k ra s) := by
  grind [execColl, routed_outOk, MKeeps.pure]

theorem State.acceptParts_listsOk {l : List Coll} {parts : List PartIn} {t' : State} {r'} (hs : s.ListsOk)
    (h : State.acceptParts s l parts = (t', r')) :
    t'.ListsOk := by
  grind [State.acceptParts, foldl_listsOk, State.dropPacket_listsOk]

@[simp] theorem execCollMatch_outOk {k : BitVec 4} {parts : List PartIn} (hs : s.ListsOk) : OutOk (execCollMatch k parts s) := by
  grind [execCollMatch, OutOk, State.endColls_listsOk, → State.acceptParts_listsOk, listsOk_mk, State.ListsOk.ofCore, State.ListsOk.ofOthers,
    State.ListsOk.ofMem, State.ListsOk.ofPlat, State.ListsOk.ofReady, State.ListsOk.ofImages]

theorem collWrite_listsOk {c : Coll} {x1 : ℕ} {x2 : Word} {x3 : List GByte} {x4 : State} (hx4 : x4.ListsOk) :
    (collWrite c x1 x2 x3 x4).ListsOk := by
  induction x1 generalizing c x2 x3 x4 with
  | zero => grind [collWrite, → translate_listsOk, → State.store_listsOk, foldl_listsOk, State.homeSetPois_listsOk, State.sealLines_listsOk]
  | succ n ih => grind [collWrite, → translate_listsOk, → State.store_listsOk, foldl_listsOk, State.homeSetPois_listsOk, State.sealLines_listsOk]

theorem collLand_listsOk {c : Coll} (hs : s.ListsOk) : (collLand c s).ListsOk := by
  grind [collLand, State.mapTask_listsOk, collWrite_listsOk, Task.ListsOk]

theorem collCompare_listsOk {g : ℕ} (hs : s.ListsOk) : (collCompare g s).ListsOk := by
  grind [collCompare, listsOk_mk, State.ListsOk.ofCore, State.ListsOk.ofOthers, State.ListsOk.ofMem, State.ListsOk.ofPlat, State.ListsOk.ofReady,
    State.ListsOk.ofImages]

theorem State.modColl_listsOk {c : Coll} {f : Coll → Coll} (hs : s.ListsOk) : (State.modColl s c f).ListsOk := by
  grind [State.modColl, listsOk_mk, State.ListsOk.ofCore, State.ListsOk.ofOthers, State.ListsOk.ofMem, State.ListsOk.ofPlat, State.ListsOk.ofReady,
    State.ListsOk.ofImages]

theorem collLog_listsOk {c : Coll} (hs : s.ListsOk) : (collLog c s).ListsOk := by
  grind [collLog, → State.deviceWrite_listsOk]

theorem collFinish_listsOk {c : Coll} (hs : s.ListsOk) : (collFinish c s).ListsOk := by
  grind [collFinish, Task.ListsOk, collLog_listsOk, State.mapTask_listsOk, listsOk_mk, State.ListsOk.ofCore, State.ListsOk.ofOthers,
    State.ListsOk.ofMem, State.ListsOk.ofPlat, State.ListsOk.ofReady, State.ListsOk.ofImages]

@[simp] theorem execCollComplete_outOk {k : BitVec 4} (hs : s.ListsOk) : OutOk (execCollComplete k s) := by
  grind [execCollComplete, OutOk, collLand_listsOk, collCompare_listsOk, State.modColl_listsOk, collFinish_listsOk]

@[simp] theorem execCdigClr_outOk (hs : s.ListsOk) : OutOk (execCdigClr s) := by
  grind [execCdigClr, ccNext_outOk, MKeeps.upd, modT_listsOk, Task.ListsOk, Core.ListsOk, State.ListsOk.ofCore]

@[simp] theorem execCstat_outOk {rd : Reg} {k : BitVec 4} {ra : Reg} (hs : s.ListsOk) : OutOk (execCstat rd k ra s) := by
  grind [execCstat, ccNext_outOk, MKeeps.bind, MKeeps.rdS, MKeeps.now_bind, MKeeps.failIf, capture_keeps, MKeeps.wrS]

@[simp] theorem execCstatTl_outOk {rd : Reg} {k : BitVec 4} (hs : s.ListsOk) : OutOk (execCstatTl rd k s) := by
  grind [execCstatTl, ccNext_outOk, MKeeps.now_bind, capture_keeps, MKeeps.wrS]

end Sys2Proof.Machine
end

section
/-! The host's side of the platform and the context image keep the lists in order (O11). -/

namespace Sys2Proof.Machine

variable {s : State}

theorem State.doorbell_listsOk {p : BitVec 2} {tail : BitVec 32} (hs : s.ListsOk) : (State.doorbell s p tail).ListsOk := by
  grind [State.doorbell, listsOk_mk, State.ListsOk.ofCore, State.ListsOk.ofOthers, State.ListsOk.ofMem, State.ListsOk.ofPlat, State.ListsOk.ofReady,
    State.ListsOk.ofImages, State.post_listsOk]

theorem echarge_keeps {hbm cxl : ℤ} : EKeeps (echarge hbm cxl) := by
  intro s hs a t h
  unfold echarge at h
  extract_lets step at h
  have hstep : ∀ pa d (u v : State), u.ListsOk → step pa d u = .ok v → v.ListsOk := by
    intro pa d u v hu hv
    grind [→ State.charge_listsOk]
  cases h1 : step 0 hbm s with
  | error c => simp [h1, Except.bind] at h
  | ok u =>
    rw [h1] at h
    cases h2 : step Config.tier2Limit cxl u with
    | error c => simp [h2, Except.bind] at h
    | ok v =>
      simp only [h2, Except.bind, Except.ok.injEq, Prod.mk.injEq] at h
      exact h.2 ▸ hstep _ _ _ _ (hstep _ _ _ _ hs h1) h2

theorem moveEntry_keeps {x n src dst : ℕ} : EKeeps (moveEntry x n src dst) :=
  .enow_bind fun _ _ => .bind segsRead_keeps fun _ => .bind (.efailIf _ _) fun _ => .bind echarge_keeps fun _ => segsWrite_keeps

theorem spillHbm_keeps : EKeeps spillHbm :=
  .enow_bind fun _ _ => .bind (.efailIf _ _) fun _ => .bind moveEntry_keeps fun _ => .eupd fun _ => State.modRs_listsOk

theorem spillAb_keeps : EKeeps spillAb := by
  refine .enow_bind fun s _ => .ite (.ite spillHbm_keeps ?_) (.ite spillHbm_keeps (.bind (.efailIf _ _) fun _ => ?_)) <;>
  exact .bind moveEntry_keeps fun _ => .eupd fun _ => State.modRs_listsOk

/-- A part of a push that keeps the lists in order, whether it stops or not. -/
def PartKeeps (f : State → State × Option EStop) : Prop := ∀ s, s.ListsOk → (f s).1.ListsOk

theorem PartKeeps.moveWhile {c : State → Bool} {m : E Unit} {n : Nat} (hm : EKeeps m) : PartKeeps (moveWhile c m n) :=
  fun _ hs => moveWhile_listsOk hm hs rfl

theorem PartKeeps.spillAllAb : PartKeeps spillAllAb := fun _ hs => moveWhile_listsOk spillAb_keeps hs rfl

theorem PartKeeps.piece {m : E Unit} (hm : EKeeps m) : PartKeeps (piece m) := by
  intro s hs
  unfold Machine.piece
  split
  · next h => exact hm s hs _ _ h
  · exact State.walkFills_listsOk hs

theorem andThen_listsOk {p : State × Option EStop} {f : State → State × Option EStop} (hp : p.1.ListsOk) (hf : PartKeeps f) :
    (andThen p f).1.ListsOk := by
  unfold Machine.andThen
  split
  · exact hf _ hp
  · exact hp

theorem PartKeeps.pushEntry {hbmFirst : Bool} {bs : List GByte} : PartKeeps (pushEntry hbmFirst bs) := by
  intro s hs
  unfold Machine.pushEntry
  extract_lets n g w at_
  have hat : ∀ tier f, PartKeeps (at_ tier f) := fun tier f => .piece <| .enow_bind fun _ _ => .bind echarge_keeps fun _ =>
    .bind segsWrite_keeps fun _ => .eupd fun _ => State.modRs_listsOk
  have hall := PartKeeps.spillAllAb s hs
  split
  · exact andThen_listsOk (PartKeeps.moveWhile spillAb_keeps s hs) (hat _ _)
  · split
    · exact andThen_listsOk (andThen_listsOk hall (.moveWhile spillHbm_keeps)) (hat _ _)
    · have hroom : PartKeeps (Machine.piece do let s ← enow; efailIf (g.cxlsz.toNat < s.core.t.rstk.t.toNat + n) cRSTKX) :=
        .piece (.enow_bind fun _ _ => .efailIf _ _)
      exact andThen_listsOk (andThen_listsOk (andThen_listsOk hall (.moveWhile spillHbm_keeps)) hroom) (hat _ _)

theorem pushEntry_listsOk {b : Bool} {bs : List GByte} {t : State} {e} (hs : s.ListsOk) (h : pushEntry b bs s = (t, e)) : t.ListsOk := by
  have := PartKeeps.pushEntry (hbmFirst := b) (bs := bs) s hs
  rwa [h] at this

theorem dropTop_keeps {size : ℕ} : EKeeps (dropTop size) :=
  .enow_bind fun _ _ => .bind echarge_keeps fun _ => .eupd fun _ => State.modRs_listsOk

theorem popEntry_keeps {ok : Hdr → Bool} : EKeeps (popEntry ok) :=
  .bind topHdr_keeps fun _ => .enow_bind fun _ _ => .bind (.efailIf _ _) fun _ => .bind stackRead_keeps fun _ =>
    .bind dropTop_keeps fun _ => .pure _

@[simp] theorem execRstkRefill_outOk (hs : s.ListsOk) : OutOk (execRstkRefill s) := by
  refine .next ?_
  have hm : ∀ x n src dst (f : RStack → RStack), PartKeeps (piece (do moveEntry x n src dst; eupd fun s => s.modRs f)) := fun _ _ _ _ _ =>
    .piece <| .bind moveEntry_keeps fun _ => .eupd fun _ => State.modRs_listsOk
  dsimp only
  split
  · exact hs
  · split
    · exact hm _ _ _ _ _ s hs
    · split
      · exact hm _ _ _ _ _ s hs
      · exact hs

theorem pushResidual_listsOk {k : Cmd} (hs : s.ListsOk) : (pushResidual k s).1.ListsOk := by
  unfold pushResidual
  split
  · exact hs
  · split
    · exact hs
    · next h => exact PartKeeps.pushEntry _ (residualOf_keeps s hs _ _ h)

theorem popResidual_keeps {k : Cmd} : EKeeps (popResidual k) := by
  unfold popResidual
  split
  · exact .pure _
  · exact popEntry_keeps

@[simp] theorem execRstkSet_outOk {ra : Reg} (hs : s.ListsOk) : OutOk (execRstkSet ra s) :=
  ccNext_outOk hs <| .bind (.rdS _) fun _ => .bind (.failIf _ _) fun _ => .bind xlateDirect_keeps fun _ => .now_bind fun _ _ =>
    .bind (.failIf _ _) fun _ => .bind (.failIf _ _) fun _ => .bind (.failIf _ _) fun _ => .bind (.failIf _ _) fun _ =>
    .upd fun _ => modX_listsOk

theorem liftE_keeps {α : Type} {m : E α} (hm : EKeeps m) : MKeeps (liftE m) := by
  intro s hs
  have h := hm s hs
  unfold liftE
  split
  · next r hr => exact ⟨by rintro _ _ ⟨⟩; exact h _ _ hr, by rintro _ _ ⟨⟩⟩
  · exact ⟨by rintro _ _ ⟨⟩, by rintro _ _ ⟨⟩; exact hs⟩
  · exact ⟨by rintro _ _ ⟨⟩, by rintro _ _ ⟨⟩; exact State.walkFills_listsOk hs⟩

theorem openBlk_listsOk {seq : BitVec 32} {b : Block} (hs : s.ListsOk) :
    (((s.modRs fun r => { r with rseq := seq }).modT fun t => { t with blk := some b }).advance 1).ListsOk := by
  have h1 := State.modRs_listsOk (f := fun r => { r with rseq := seq }) hs
  exact advance_listsOk (modT_listsOk h1 h1.ofCore.2)

@[simp] theorem execBlkb_outOk {rc hbm : Bool} {ra : Reg} {id : BitVec 16} (hs : s.ListsOk) : OutOk (execBlkb rc hbm ra id s) := by
  refine runM_outOk hs <| unlessLower_keeps <| .now_bind fun u hu => ?_
  extract_lets last
  have hlast : ∀ g, MKeeps (last g) := by
    intro g
    refine .bind (.failIf _ _) fun _ => .bind (.upd fun _ => State.dropPop_listsOk) fun _ => .now_bind fun v hv => ?_
    have hspill := PartKeeps.spillAllAb v hv
    extract_lets tl jp
    have hjp : ∀ r, MKeeps (jp r) := fun _ => .upd fun _ => openBlk_listsOk
    split
    · split
      · next h => exact .bind (.upd fun _ _ => by rw [h] at hspill; exact hspill) hjp
      · next h => exact .bind (.raiseLate _ fun _ _ => by rw [h] at hspill; exact hspill) hjp
    · exact hjp ()
  split
  · exact hlast _
  · refine .bind (.rdS _) fun _ => .bind (.failIf _ _) fun _ => .bind readMap_keeps fun bs => ?_
    split
    · exact .bind (.raise _) hlast
    · exact hlast _

theorem modT_listsOk_same {f : Task → Task} (hs : s.ListsOk) (hv : ∀ t, (f t).view = t.view) (hw : ∀ t, (f t).spill = t.spill) :
    (s.modT f).ListsOk :=
  modT_listsOk hs ⟨by rw [hv]; exact hs.ofCore.2.1, by rw [hw]; exact hs.ofCore.2.2⟩

theorem frames_listsOk {l : List Cmd} (hs : s.ListsOk) : (s.modT fun t => { t with frames := l }).ListsOk := modT_listsOk hs hs.ofCore.2

theorem settleFrame_listsOk (hs : s.ListsOk) : (settleFrame s).ListsOk := by
  unfold settleFrame
  split
  · exact hs
  · next k l _ =>
    split
    · exact hs
    · dsimp only
      split
      · next h => exact State.timelineWrite_listsOk (modTl_listsOk (frames_listsOk (pushEntry_listsOk hs h)))
      · next h => exact frames_listsOk (pushEntry_listsOk hs h)

@[simp] theorem execBlke_outOk {id : BitVec 16} (hs : s.ListsOk) : OutOk (execBlke id s) := by
  refine runM_outOk hs <| .now_bind fun u hu => ?_
  split
  · exact .raise _
  · refine .bind (.failIf _ _) fun _ => .upd fun v hv => settleFrame_listsOk (advance_listsOk ?_)
    exact modT_listsOk_same (modTl_listsOk hv) (fun _ => rfl) fun _ => rfl

theorem topFrame_keeps {id : BitVec 16} : MKeeps (topFrame id) :=
  .now_bind fun _ _ => .bind (.failIf _ _) fun _ => .bind (liftE_keeps topHdr_keeps) fun _ => .bind (.failIf _ _) fun _ =>
    .bind (liftE_keeps (.bind stackRead_keeps fun _ => eConsume_keeps)) fun _ => .bind (.failIf _ _) fun _ => .pure _

theorem revbStart_keeps {id : BitVec 16} : MKeeps (revbStart id) := by
  refine .now_bind fun u hu => .bind (.upd fun v hv => ?_) fun _ => .now_bind fun v hv => ?_
  · split
    · exact hv
    · exact State.dropPop_listsOk hv
  · dsimp only
    split
    · exact .wait
    · refine .bind (.upd fun _ => State.takePop_listsOk) fun _ => .now_bind fun w hw => .bind (keepPop_keeps topFrame_keeps) fun x => ?_
      obtain ⟨h, a⟩ := x
      have hpop : EKeeps (popEntry (fun _ => true) >>= eConsume) := .bind popEntry_keeps fun _ => eConsume_keeps
      refine .bind (keepPop_keeps blockCode_keeps) fun code => .bind (keepPop_keeps (liftE_keeps hpop)) fun f => .upd fun y hy => ?_
      exact modT_listsOk_same (State.timelineWrite_listsOk (modTl_listsOk hy)) (fun _ => rfl) fun _ => rfl

theorem walkStep_keeps {b : Block} : MKeeps (walkStep b) := by
  refine .now_bind fun u hu => .bind blockCode_keeps fun code => ?_
  have hmod : ∀ f, MKeeps (upd fun s => s.modW f) := fun _ => .upd fun _ => State.modW_listsOk
  have hadv : MKeeps (upd fun s => (s.modW fun _ => Task.zero.walk).advance 1) := .upd fun _ hv => advance_listsOk (State.modW_listsOk hv)
  dsimp only
  split
  · split
    · exact hmod _
    · split
      · exact .raise _
      · split
        · exact hmod _
        · exact .bind walkRoute_keeps fun _ => hmod _
  · split
    · exact hadv
    · split
      · exact .raise _
      · split
        · exact hmod _
        · exact .bind walkRoute_keeps fun _ => hmod _

@[simp] theorem execRevb_outOk {id : BitVec 16} (hs : s.ListsOk) : OutOk (execRevb id s) := by
  refine runM_outOk (settleFrame_listsOk hs) <| unlessLower_keeps <| .now_bind fun u hu => ?_
  have hend : MKeeps (upd fun s => s.modC fun c => { c with waiting := false }) := .upd fun _ => waiting_listsOk
  grind [MKeeps.bind, withWalkPc_keeps, walkStep_keeps, revbStart_keeps]

theorem chcfg_outOk {up : Bool} {n : BitVec 3} {ra rb : Reg} {x : ChX} (hs : s.ListsOk) : OutOk (chcfg up n ra rb x s) := by
  refine cc_outOk hs <| .now_bind fun u hu => ?_
  have hadv : MKeeps (upd (·.advance 2)) := .upd fun _ => advance_listsOk
  have hmod : ∀ f, MKeeps (upd fun s => s.modCh n f) := fun _ => .upd fun _ => State.modCh_listsOk
  extract_lets last
  have hlast : ∀ y, MKeeps (last y) := fun _ => hadv
  split
  · exact .bind (.failIf _ _) fun _ => .bind (hmod _) hlast
  · refine .bind (.rdS _) fun a => .bind (.rdS _) fun b => ?_
    dsimp only
    split
    · exact .bind (.raise _) hlast
    · exact .bind (hmod _) hlast

@[simp] theorem execChcfgUp_outOk {n : BitVec 3} {ra rb : Reg} {x : ChX} (hs : s.ListsOk) : OutOk (execChcfgUp n ra rb x s) := chcfg_outOk hs

@[simp] theorem execChcfgDn_outOk {n : BitVec 3} {ra rb : Reg} {x : ChX} (hs : s.ListsOk) : OutOk (execChcfgDn n ra rb x s) := chcfg_outOk hs

theorem State.landTile_listsOk {c : Core} {n : BitVec 3} {q : ℕ} {tag : FTag} {rows cols : BitVec 16} {seq : BitVec 32} {bs : List GByte}
    (hs : s.ListsOk) (hc : c.ListsOk) : (s.landTile c n q tag rows cols seq bs).ListsOk := by
  unfold State.landTile
  extract_lets e at_ buf slot₀ slot e' t c' u
  have hu : u.ListsOk := State.setCore_listsOk hs ⟨rfl, hc⟩
  split
  · exact State.landBytes_listsOk hu
  · exact hu

theorem State.coreAt_listsOk {c : BitVec 8} (hs : s.ListsOk) : (s.coreAt c.toNat).ListsOk := (State.coreAt_isAt hs c.isLt).2

theorem State.partner_listsOk {n m : BitVec 3} {c : Core} (hs : s.ListsOk) (h : s.partner n = some (c, m)) : c.ListsOk := by
  have := fun c => State.coreAt_listsOk (c := c) hs
  grind [State.partner]

theorem sendStep_listsOk {k : Cmd} {n : BitVec 3} {t : State} (hs : s.ListsOk) (h : sendStep k n s = some t) : t.ListsOk := by
  unfold sendStep at h
  dsimp only at h
  split at h
  · cases h; exact sendLost_listsOk hs
  · split at h
    · cases h
    · split at h
      · split at h
        · cases h
        · split at h
          · cases h; exact sendLost_listsOk hs
          · split at h
            · cases h; exact modCmd_listsOk (State.sent_listsOk hs)
            · cases h
      · split at h
        · cases h
        · next hp =>
          split at h
          · cases h; exact sendLost_listsOk hs
          · split at h
            · cases h
            · cases h
              exact sendDone_listsOk (State.sent_listsOk (State.landTile_listsOk hs (State.partner_listsOk hs hp)))

@[simp] theorem execChsendPairTimeout_outOk (hs : s.ListsOk) : OutOk (execChsendPairTimeout s) := by
  refine .next ?_
  split
  · exact hs
  · split
    · exact sendLost_listsOk hs
    · exact hs

theorem adjChsend_listsOk {k : Cmd} {n : BitVec 3} {fw : Bool} {cp : Option Desc} (hs : s.ListsOk) : (adjChsend k n fw cp s).s.ListsOk := by
  unfold adjChsend
  extract_lets e stop
  have hstop : ∀ u (v : State) x, v.ListsOk → (stop v u x).s.ListsOk := fun _ _ _ h => h
  split
  · exact hstop _ _ _ hs
  · split
    · split <;> exact hstop _ _ _ hs
    · next q _ =>
      dsimp only
      have h1 := fun f => State.modCh_listsOk (n := n) (f := f) hs
      split
      · exact h1 _
      · refine checkedElems_listsOk (h1 _) ?_ fun j => .bind eElem_keeps fun _ => gradAdd_keeps
        exact .bind (.echeck _) fun _ => .bind (.efailIf _ _) fun _ => .bind (.efailIf _ _) fun _ => topBlkop_keeps

theorem State.modEnd_listsOk {c : BitVec 8} {n : BitVec 3} {f : ChEnd → ChEnd} (hs : s.ListsOk) : (s.modEnd c n f).ListsOk :=
  State.setCore_listsOk hs (State.coreAt_isAt hs c.isLt)

theorem flitApply_listsOk {b : FlitBody} (hs : s.ListsOk) : (flitApply s b).ListsOk := by
  cases b with
  | tile n c tag rows cols bs pois =>
    unfold flitApply; dsimp only; split
    · exact hs
    · exact State.landTile_listsOk hs (State.coreAt_listsOk hs)
  | credit n c q => exact State.modEnd_listsOk hs
  | paired n c u => exact State.modEnd_listsOk hs
  | released n c => exact State.modEnd_listsOk hs
  | coreLost p c => exact State.farLost_listsOk hs
  | ack n c =>
    unfold flitApply; dsimp only; split
    · exact hs
    · exact State.setCore_listsOk hs (State.coreAt_isAt hs c.isLt)
  | podArrive g b => exact modS_listsOk hs hs.ofReady
  | remoteRead _ _ => exact hs

theorem State.receive_listsOk {key : BitVec 16} {body : FlitBody} (hs : s.ListsOk) : (s.receive key body).ListsOk := by
  unfold State.receive
  split
  · exact flitApply_listsOk hs
  · exact State.dropPacket_listsOk hs
  · split
    · exact State.dropPacket_listsOk hs
    · split
      · exact hs
      · exact flitApply_listsOk hs

@[simp] theorem execFlitReceive_outOk {crcOk : Bool} {src : FlitSrc} {body : FlitBody} (hs : s.ListsOk) :
    OutOk (execFlitReceive crcOk src body s) := by
  refine .next ?_
  split
  · exact hs
  · split
    · exact State.receive_listsOk (s := { s with plat := _ }) hs
    · exact State.badFlit_listsOk hs

theorem State.unhold_listsOk {t : State} (hs : s.ListsOk) (h : s.unhold = some t) : t.ListsOk := by
  unfold State.unhold at h
  obtain ⟨p, -, rfl⟩ := Option.map_eq_some_iff.mp h
  exact State.receive_listsOk (s := { s with plat := _ }) hs

theorem sendNext_listsOk {remote : Bool} {t : State} (hs : s.ListsOk) (h : sendNext s remote = some t) : t.ListsOk := by
  obtain ⟨x, -, hx⟩ := List.exists_of_findSome?_eq_some h
  exact sendStep_listsOk hs hx

@[simp] theorem execTileLanding_outOk (hs : s.ListsOk) : OutOk (execTileLanding s) := by
  refine .next ?_
  split
  · next h => exact State.unhold_listsOk hs h
  · split
    · exact hs
    · split
      · next h => exact sendNext_listsOk hs h
      · cases h : sendNext s true with
        | none => exact hs
        | some t => exact sendNext_listsOk hs h

theorem readColl_keeps {a : Word} {k : BitVec 4} {pkey : Word} : EKeeps (readColl a k pkey) := by
  refine .ite (.efailAt _ _ _) (.bind eUseG_keeps fun b => .bind (.efailIf _ _) fun _ => ?_)
  refine .ite (.efailAt _ _ _) (.ite (.efailAt _ _ _) (.bind eUseG_keeps fun _ => .bind eUseG_keeps fun _ => .enow_bind fun _ _ => ?_))
  refine .bind (.efailIf _ _) fun _ => .bind (.efailIf _ _) fun _ => .ite (.efailAt _ _ _) (.ite (.efailAt _ _ _) ?_)
  exact .bind eRange_keeps fun _ => .bind eRange_keeps fun _ => .pure _

theorem runColl_listsOk {k : Cmd} {ch : BitVec 4} (hs : s.ListsOk) : (runColl k ch s).s.ListsOk := by
  unfold runColl
  extract_lets t stop m enter
  have hstop : ∀ (v : State) x, v.ListsOk → (stop v x).s.ListsOk := fun _ _ h => h
  have hm : EKeeps m := .bind readColl_keeps fun _ => .bind readSource_keeps fun _ => .pure _
  have henter : ∀ (v : State) r src pois failed, v.ListsOk → (enter v r src pois failed).ListsOk := by
    intro v r src pois failed hv
    have h1 : (v.modT fun t => { t with collN := t.collN + 1 }).ListsOk := modT_listsOk_same hv (fun _ => rfl) fun _ => rfl
    have h2 : ∀ l, ({ (v.modT fun t => { t with collN := t.collN + 1 }) with colls := l } : State).ListsOk := fun _ => h1
    dsimp only [enter]
    split
    · exact State.endColls_listsOk (h2 _)
    · exact h2 _
  split
  · exact hstop _ _ hs
  · split
    · exact hstop _ _ (misclose_listsOk hs)
    · split
      · exact hstop _ _ (henter _ _ _ _ _ hs)
      · exact hstop _ _ hs
      · next h => exact henter _ _ _ _ _ (hm s hs _ _ h)

@[simp] theorem execCdig_outOk {ra rb : Reg} (hs : s.ListsOk) : OutOk (execCdig ra rb s) :=
  ccNext_outOk hs <| .bind (.rdS _) fun _ => .bind (.rdS _) fun _ => .now_bind fun _ _ => .bind (.failIf _ _) fun _ =>
    .bind (.failIf _ _) fun _ => .bind (.failIf _ _) fun _ => .upd fun _ hv => modT_listsOk_same hv (fun _ => rfl) fun _ => rfl

theorem spillAllAb_listsOk {t' : State} {r'} (hs : s.ListsOk) (h : spillAllAb s = (t', r')) : t'.ListsOk := by
  grind [spillAllAb, → moveWhile_listsOk, spillAb_keeps]

@[simp] theorem execDoorbell_outOk {p : BitVec 2} {tail : BitVec 32} (hs : s.ListsOk) : OutOk (execDoorbell p tail s) := by
  grind [execDoorbell, OutOk, State.doorbell_listsOk]

@[simp] theorem execHostRingRecordRead_outOk {p : BitVec 2} (hs : s.ListsOk) : OutOk (execHostRingRecordRead p s) := by
  grind [execHostRingRecordRead, OutOk, listsOk_mk, State.ListsOk.ofCore, State.ListsOk.ofOthers, State.ListsOk.ofMem, State.ListsOk.ofPlat,
    State.ListsOk.ofReady, State.ListsOk.ofImages, State.post_listsOk, State.accept_listsOk]

@[simp] theorem execRingReadFailure_outOk {p : BitVec 2} (hs : s.ListsOk) : OutOk (execRingReadFailure p s) := by
  grind [execRingReadFailure, OutOk, State.post_listsOk, listsOk_mk, State.ListsOk.ofCore, State.ListsOk.ofOthers, State.ListsOk.ofMem,
    State.ListsOk.ofPlat, State.ListsOk.ofReady, State.ListsOk.ofImages]

theorem State.setRdata_listsOk {d : Option (List Byte)} (hs : s.ListsOk) : (State.setRdata s d).ListsOk := by
  grind [State.setRdata, listsOk_mk, State.ListsOk.ofCore, State.ListsOk.ofOthers, State.ListsOk.ofMem, State.ListsOk.ofPlat, State.ListsOk.ofReady,
    State.ListsOk.ofImages]

theorem State.attcmd_listsOk {v : Word} (hs : s.ListsOk) : (State.attcmd s v).ListsOk := by
  grind [State.attcmd, listsOk_mk, State.ListsOk.ofCore, State.ListsOk.ofOthers, State.ListsOk.ofMem, State.ListsOk.ofPlat, State.ListsOk.ofReady,
    State.ListsOk.ofImages]

@[simp] theorem execAttcmd_outOk {v : Word} (hs : s.ListsOk) : OutOk (execAttcmd v s) := by
  grind [execAttcmd, OutOk, State.attcmd_listsOk]

@[simp] theorem execAttestationReportWritten_outOk (hs : s.ListsOk) : OutOk (execAttestationReportWritten s) := by
  grind [execAttestationReportWritten, OutOk, State.post_listsOk, listsOk_mk, Plat.ListsOk, State.ListsOk.ofCore, State.ListsOk.ofOthers,
    State.ListsOk.ofMem, State.ListsOk.ofPlat, State.ListsOk.ofReady, State.ListsOk.ofImages]

@[simp] theorem execHbmcapWrite_outOk {stack : BitVec 4} {map : BitVec 16} (hs : s.ListsOk) : OutOk (execHbmcapWrite stack map s) := by
  grind [execHbmcapWrite, OutOk, State.setHbmMap_listsOk]

@[simp] theorem execTlnbaseWrite_outOk {v : Word} (hs : s.ListsOk) : OutOk (execTlnbaseWrite v s) := by
  grind [execTlnbaseWrite, OutOk, State.setTlnbase_listsOk]

theorem State.freeTemp_listsOk {lo : ℤ} {n : ℕ} {t' : State} {r'} (hs : s.ListsOk) (h : State.freeTemp s lo n = (r', t')) : t'.ListsOk := by
  grind [State.freeTemp, → State.free_listsOk]

@[simp] theorem execThermalLimitReached_outOk {quad : BitVec 6} (hs : s.ListsOk) : OutOk (execThermalLimitReached quad s) := by
  grind [execThermalLimitReached, OutOk, → State.freeTemp_listsOk, State.setTemp_listsOk]

@[simp] theorem execThermalLimitCleared_outOk {quad : BitVec 6} (hs : s.ListsOk) : OutOk (execThermalLimitCleared quad s) := by
  grind [execThermalLimitCleared, OutOk, State.post_listsOk, listsOk_mk, Plat.ListsOk, State.ListsOk.ofCore, State.ListsOk.ofOthers,
    State.ListsOk.ofMem, State.ListsOk.ofPlat, State.ListsOk.ofReady, State.ListsOk.ofImages, → State.freeTemp_listsOk, State.setTemp_listsOk]

@[simp] theorem execDroopStretch_outOk {quad : BitVec 6} (hs : s.ListsOk) : OutOk (execDroopStretch quad s) := by
  grind [execDroopStretch, OutOk, listsOk_mk, Plat.ListsOk, State.ListsOk.ofCore, State.ListsOk.ofOthers, State.ListsOk.ofMem, State.ListsOk.ofPlat,
    State.ListsOk.ofReady, State.ListsOk.ofImages]

@[simp] theorem execRefreshDue_outOk {chan : ℕ} (hs : s.ListsOk) : OutOk (execRefreshDue chan s) := by
  grind [execRefreshDue, OutOk, State.rfCreditAll_listsOk, modS_listsOk, State.ListsOk.ofReady]

@[simp] theorem execRfhintIntervalEnd_outOk (hs : s.ListsOk) : OutOk (execRfhintIntervalEnd s) := by
  grind [execRfhintIntervalEnd, OutOk, State.rfEnd_listsOk]

@[simp] theorem execLoggedLaunchRecord_outOk (hs : s.ListsOk) : OutOk (execLoggedLaunchRecord s) := by
  grind [execLoggedLaunchRecord, OutOk, modX_listsOk, State.accept_listsOk]

theorem savePages_listsOk {byte : ℕ → Byte} {pois : ℕ → Bool} {a : Word} {x3 : List ℕ} {x4 t' : State} {r'} (hx4 : x4.ListsOk)
    (h : savePages byte pois a x3 x4 = (t', r')) :
    t'.ListsOk := by
  induction x3 generalizing byte pois a x4 with
  | nil => grind [savePages, → translate_listsOk, modY_listsOk, → State.store_listsOk, State.sealLines_listsOk]
  | cons x l ih => grind [savePages, → translate_listsOk, modY_listsOk, → State.store_listsOk, State.sealLines_listsOk]

theorem loadPages_listsOk {a : Word} {x1 : List ℕ} {x2 : State} {x3 : Sparse ℕ} {t' : State} {r'} (hx2 : x2.ListsOk)
    (h : loadPages a x1 x2 x3 = (t', r')) :
    t'.ListsOk := by
  induction x1 generalizing a x2 x3 with
  | nil => grind [loadPages, → translate_listsOk, modY_listsOk]
  | cons x l ih => grind [loadPages, → translate_listsOk, modY_listsOk]

theorem pokeBanks_listsOk {o : ℕ} {w : Word} (hs : s.ListsOk) : (pokeBanks s o w).ListsOk := by
  grind [pokeBanks, modT_listsOk, Task.ListsOk, Core.ListsOk, State.ListsOk.ofCore, modB_listsOk]

theorem State.pokePc_listsOk {w : Word} (hs : s.ListsOk) : (State.pokePc s w).ListsOk := by
  grind [State.pokePc, modC_listsOk, Core.ListsOk, State.ListsOk.ofCore, Task.ListsOk]

@[simp] theorem execDebugApertureRead_outOk {core : BitVec 8} {off len : ℕ} (hs : s.ListsOk) : OutOk (execDebugApertureRead core off len s) := by
  grind [execDebugApertureRead, OutOk, State.setRdata_listsOk]

end Sys2Proof.Machine
end

section
/-! The queues keep the lists in order (O11). -/

namespace Sys2Proof.Machine

variable {s : State}

theorem performFwd_listsOk {k : Cmd} (hs : s.ListsOk) : (performFwd k s).s.ListsOk := by
  grind [performFwd, runTrvl_listsOk, runTrvs_listsOk, runCopyIn_listsOk, runCopyOut_listsOk, runFillIn_listsOk, runFillOut_listsOk, runGthr_listsOk,
    runSctr_listsOk, runCmpx_listsOk, runChsend_listsOk, runColl_listsOk, runCvt_listsOk, runCvts_listsOk, runQntw_listsOk, runDqw_listsOk,
    runRetag_listsOk, runTagget_listsOk, runTagchk_listsOk, runScalex_listsOk, runLnx_listsOk, runLnr_listsOk, runMma_listsOk, runMzero_listsOk,
    runMzeroCb_listsOk, runMswap_listsOk, runMst_listsOk, runMcks_listsOk, runMckv_listsOk, runMfix_listsOk, runMtm_listsOk, runMte_listsOk,
    runWgrp_listsOk, runSxf_listsOk, runSxi_listsOk, runScmac_listsOk, runScmul_listsOk, runSconj_listsOk, runSdom_listsOk, runSexp_listsOk,
    runRpush_listsOk, runGzero_listsOk, Prog.ok_listsOk]

theorem performAdj_listsOk {k : Cmd} (hs : s.ListsOk) : (performAdj k s).s.ListsOk := by
  grind [performAdj, Prog.ok_listsOk, adjClass4_listsOk, adjCopyIn_listsOk, adjCopyOut_listsOk, adjGthr_listsOk, adjSctr_listsOk, adjLnx_listsOk,
    adjLnr_listsOk, adjMma_listsOk, adjScmac_listsOk, adjScmul_listsOk, adjS_listsOk, adjRpush_listsOk, adjChsend_listsOk]

theorem perform_listsOk {k : Cmd} (hs : s.ListsOk) : (perform k s).s.ListsOk := by
  grind [perform, performFwd_listsOk, performAdj_listsOk, Prog.ok_listsOk]

theorem State.completeX_listsOk {num : Word} (hs : s.ListsOk) : (State.completeX s num).ListsOk := by
  grind [State.completeX, State.timelineWrite_listsOk, modTl_listsOk]

theorem placeVruna_keeps {k : Cmd} {bs : List GByte} : EKeeps (placeVruna k bs) := by
  grind [placeVruna, EKeeps.pure, EKeeps.bind, EKeeps.enow_bind, EKeeps.efailIf, topBlkop_keeps, eWriteB_keeps]

theorem popStage_listsOk {k : Cmd} {t' : State} {r'} (hs : s.ListsOk) (h : popStage k s = (t', r')) : t'.ListsOk := by
  grind [popStage, EKeeps, EKeeps.bind, popResidual_keeps, placeVruna_keeps, EKeeps.pure, State.setRes_listsOk, State.completeX_listsOk]

theorem withoutSlots_listsOk {k : Cmd} {fail : Bool} {miss : List (ℕ × ℕ)} (hs : s.ListsOk) : (withoutSlots k fail miss s).s.ListsOk := by
  grind [withoutSlots, perform_listsOk, modB_listsOk]

theorem performSlots_listsOk {k : Cmd} (hs : s.ListsOk) : (performSlots k s).s.ListsOk := by
  grind [performSlots, perform_listsOk, Prog.ok_listsOk, bindSlots_listsOk, withoutSlots_listsOk]

theorem finishCmd_listsOk {q : QName} {k : Cmd} {p : Prog} (hp : p.s.ListsOk) : (finishCmd q k p).ListsOk := by
  grind [finishCmd, modT_listsOk, Core.ListsOk, State.ListsOk.ofCore, Task.tileStop_listsOk, settleCmd_listsOk]

theorem runHead_listsOk {q : QName} {k : Cmd} (hs : s.ListsOk) : (runHead q k s).ListsOk := by
  grind [runHead, EKeeps, → popStage_listsOk, settleCmd_listsOk, Prog.ok_listsOk, fardStart_keeps, modCmd_listsOk, vrunStart_keeps,
    finishCmd_listsOk, performSlots_listsOk, perform_listsOk]

theorem issueAtomic_listsOk {k : Cmd} {f : AtomF} (hs : s.ListsOk) : (issueAtomic k f s).ListsOk := by
  grind [issueAtomic, EKeeps, atomIssue_keeps, settleCmd_listsOk, Prog.ok_listsOk, flushGroup_listsOk, modCmd_listsOk]

theorem runStore_listsOk {k : Cmd} (hs : s.ListsOk) : (runStore k s).ListsOk := by
  grind [runStore, issueAtomic_listsOk, flushGroup_listsOk, perform_listsOk, modCmd_listsOk, settleCmd_listsOk]

theorem Task.restoreTrav_listsOk {t : Task} {q : QName} {num : Word} (ht : t.ListsOk) : (Task.restoreTrav t q num).ListsOk := by
  grind [Task.restoreTrav, Task.ListsOk]

theorem takePops_listsOk {q : QName} {k : Cmd} {t' : State} (hs : s.ListsOk) (h : takePops q k s = some t') : t'.ListsOk := by
  grind [takePops, modCmd_listsOk, modT_listsOk, Task.ListsOk, Core.ListsOk, State.ListsOk.ofCore]

theorem runQueue_listsOk {q : QName} {k : Cmd} (hs : s.ListsOk) : (runQueue q k s).ListsOk := by
  grind [runQueue, State.underRegs_listsOk, modT_listsOk, Core.ListsOk, State.ListsOk.ofCore, Task.restoreTrav_listsOk, runStore_listsOk,
    runHead_listsOk]

@[simp] theorem execQueueHeadIssue_outOk {q : QName} (hs : s.ListsOk) : OutOk (execQueueHeadIssue q s) := by
  grind [execQueueHeadIssue, OutOk, → takePops_listsOk, runQueue_listsOk, State.underRegs_listsOk, runStore_listsOk]

theorem pushAsRouted_listsOk {k : Cmd} {t' : State} {r'} (hs : s.ListsOk) (h : pushAsRouted k s = (t', r')) : t'.ListsOk := by
  grind [pushAsRouted, pushResidual_listsOk, State.asRouted_listsOk, State.backFrom_listsOk]

theorem pushFault_listsOk {q : QName} {k : Cmd} {e : EStop} (hs : s.ListsOk) : (pushFault q k e s).ListsOk := by
  grind [pushFault, modCmd_listsOk]

theorem retireOldest_listsOk {q : QName} {x1 : ℕ} {x2 : Task} (hx2 : x2.ListsOk) : (retireOldest q x1 x2).ListsOk := by
  induction x1 generalizing q x2 with
  | zero => grind [retireOldest, Task.ListsOk]
  | succ n ih => grind [retireOldest, Task.ListsOk]

theorem retire_listsOk {q : QName} (hs : s.ListsOk) : (retire q s).ListsOk := by
  grind [retire, modT_listsOk, Core.ListsOk, State.ListsOk.ofCore, retireOldest_listsOk, settleFrame_listsOk, State.timelineWrite_listsOk]

theorem State.drained_listsOk {q : QName} (hs : s.ListsOk) : (State.drained s q).ListsOk := by
  grind [State.drained, modQ_listsOk]

theorem markRest_listsOk {k : Cmd} {j : ℕ} (hs : s.ListsOk) : (markRest k j s).ListsOk := by
  grind [markRest, foldl_listsOk, modB_listsOk]

theorem elemGrad_keeps {k : Cmd} {b : BlkRef} {j : ℕ} : EKeeps (elemGrad k b j) := by
  grind [elemGrad, EKeeps.pure, EKeeps.bind, readIndex_keeps]

theorem elemVa_keeps {k : Cmd} {j : ℕ} : EKeeps (elemVa k j) := by
  grind [elemVa, EKeeps.bind, EKeeps.enow_bind, elemGrad_keeps, EKeeps.pure, readIndex_keeps]

@[simp] theorem execL2WriteBack_outOk {line : ℕ} (hs : s.ListsOk) : OutOk (execL2WriteBack line s) := by
  grind [execL2WriteBack, OutOk, modM_listsOk, Mem.ListsOk, State.ListsOk.ofMem, → State.charge_listsOk]

theorem fetchAhead_listsOk {va : Word} (hs : s.ListsOk) : (fetchAhead va s).ListsOk := by
  grind [fetchAhead, MKeeps, fetchLine_keeps, keepFills_listsOk]

@[simp] theorem execFetchLine_outOk {va : Word} (hs : s.ListsOk) : OutOk (execFetchLine va s) := by
  grind [execFetchLine, OutOk, fetchAhead_listsOk]

@[simp] theorem execLineRefetch_outOk {va : Word} (hs : s.ListsOk) : OutOk (execLineRefetch va s) := by
  grind [execLineRefetch, OutOk, fetchAhead_listsOk]

@[simp] theorem execPageWalk_outOk {va : Word} (hs : s.ListsOk) : OutOk (execPageWalk va s) := by
  grind [execPageWalk, OutOk, → lookup_listsOk, keepFills_listsOk, installTlb_listsOk]

theorem fetchInstr_listsOk {t' : State} {r'} (hs : s.ListsOk) (h : fetchInstr s = (t', r')) : t'.ListsOk := by
  grind [fetchInstr, MKeeps, fetchLine_keeps, keepFills_listsOk, modC_listsOk, Core.ListsOk, State.ListsOk.ofCore]

theorem State.tick_listsOk (hs : s.ListsOk) : (State.tick s).ListsOk := by
  grind [State.tick, listsOk_mk, State.ListsOk.ofCore, State.ListsOk.ofOthers, State.ListsOk.ofMem, State.ListsOk.ofPlat, State.ListsOk.ofReady,
    State.ListsOk.ofImages]

theorem State.checkpoint_listsOk {i : Instr} (hs : s.ListsOk) : (State.checkpoint s i).ListsOk := by
  grind [State.checkpoint, modC_listsOk, Core.ListsOk, State.ListsOk.ofCore]

theorem State.countIssue_listsOk (hs : s.ListsOk) : (State.countIssue s).ListsOk := by
  grind [State.countIssue, modH_listsOk, modC_listsOk, Core.ListsOk, State.ListsOk.ofCore]

theorem Core.dropCkpt_listsOk {c : Core} (hc : c.ListsOk) : (Core.dropCkpt c).ListsOk := by
  grind [Core.dropCkpt, Core.ListsOk]

theorem withhold_outOk {act : Bool} {k : State → Out} (hs : s.ListsOk) (hk : ∀ x0, x0.ListsOk → OutOk (k x0)) : OutOk (withhold act s k) := by
  grind [withhold, OutOk, modC_listsOk, Core.ListsOk, State.ListsOk.ofCore]

theorem State.logHostWrite_listsOk {ctx : BitVec 12} {va : Word} {n : ℕ} {bs : List Byte} (hs : s.ListsOk) :
    (s.logHostWrite ctx va n bs).ListsOk := by
  induction n generalizing s va bs with
  | zero => exact hs
  | succ n ih =>
    cases bs with
    | nil => exact hs
    | cons b bs => exact ih (State.rrAppend_listsOk hs)

@[simp] theorem execWindowAccess_outOk {write : Bool} {off : Word} {len : ℕ} {data : List Byte} (hs : s.ListsOk) :
    OutOk (execWindowAccess write off len data s) := by
  refine .next (ite_listsOk (State.setRdata_listsOk hs) (ite_listsOk hs ?_))
  have refuse : ∀ u : State, u.ListsOk → ∀ c x, ((u.post 4 c x 0 []).setRdata none).ListsOk := fun _ hu _ _ =>
    State.setRdata_listsOk (State.post_listsOk hu)
  dsimp only
  generalize ha : (if write then Acc.w else Acc.r) = a
  split
  · next h => exact refuse _ (translate_listsOk hs h) _ _
  · next h =>
    have h1 := translate_listsOk hs h
    refine ite_listsOk ?_ (State.setRdata_listsOk h1)
    split
    · next h2 => exact State.logHostWrite_listsOk (State.sealLines_listsOk (State.store_listsOk h1 h2))
    · exact refuse _ h1 _ _

theorem State.setHostReg_listsOk {o : ℕ} {v : Word} (hs : s.ListsOk) : (s.setHostReg o v).ListsOk := by
  unfold State.setHostReg
  extract_lets h upd
  have hupd : ∀ k, (upd k).ListsOk := fun _ => hs
  split
  · split
    · exact hupd _
    · split
      · exact hupd _
      · split
        · exact State.doorbell_listsOk hs
        · exact hs
  · split
    · exact hupd _
    · exact hupd _
    · exact hupd _
    · exact hupd _
    · exact hupd _
    · exact hupd _
    · exact hupd _
    · exact hupd _
    · exact hupd _
    · exact State.attcmd_listsOk hs
    · exact hs

@[simp] theorem execHostRegisterWrite_outOk {off : BitVec 16} {v : Option Word} (hs : s.ListsOk) : OutOk (execHostRegisterWrite off v s) := by
  refine .next ?_
  split
  · exact State.setHostReg_listsOk hs
  · exact State.setRdata_listsOk hs

@[simp] theorem execPowerOnBoot_outOk {image : List Byte} : OutOk (execPowerOnBoot image s) := by
  refine .next ((listsOk_iff _).mpr ⟨Core.fresh_listsOk, ⟨rfl, ?_⟩, ⟨rfl, rfl⟩, ⟨rfl, rfl⟩, ?_, ?_⟩)
  · intro p hp; cases hp
  · intro p hp; cases hp
  · intro p hp; cases hp

@[simp] theorem execPowerOff_outOk (hs : s.ListsOk) : OutOk (execPowerOff s) := by
  have h : (s.modM fun m => { m with keys := [] }).ListsOk := modM_listsOk hs ⟨rfl, hs.ofMem.2⟩
  exact .next h

@[simp] theorem execLoggedHostWrite_outOk (hs : s.ListsOk) : OutOk (execLoggedHostWrite s) := by
  refine .next ?_
  split
  · exact hs
  · split
    · exact hs
    · next i e _ =>
      dsimp only
      split
      · next h =>
        have h1 := translate_listsOk (modX_listsOk hs) h
        split
        · next h2 => exact State.sealLines_listsOk (State.store_listsOk h1 h2)
        · exact h1
      · next h => exact translate_listsOk (modX_listsOk hs) h

theorem imgMap_wf {w : Nat} {f : Nat → Byte} {o n step base : Nat} : Sparse.wf 0 (imgMap w f o n step base) = true := by
  rw [Sparse.wf_iff]
  unfold imgMap
  constructor
  · rw [List.pairwise_filterMap]
    refine List.pairwise_lt_range.imp fun hij p hp q hq => ?_
    dsimp only at hp hq
    split at hp
    · cases hp
    · split at hq
      · cases hq
      · cases hp; cases hq; dsimp only; omega
  · intro p hp
    obtain ⟨i, -, hi⟩ := List.mem_filterMap.mp hp
    dsimp only at hi
    split at hi
    · cases hi
    · next h => cases hi; exact h

theorem Sparse.rising_foldl {α β : Type} {f : Sparse α → β → Sparse α} {l : List β} {m : Sparse α}
    (hf : ∀ m x, Sparse.rising m = true → Sparse.rising (f m x) = true) (h : Sparse.rising m = true) : Sparse.rising (l.foldl f m) = true := by
  induction l generalizing m with
  | nil => exact h
  | cons x l ih => exact ih (hf m x h)

theorem loadView_rising {v : View} {n : Nat} {f : Nat → Byte} : Sparse.rising (loadView v n f).dirty = true := by
  unfold loadView
  refine Sparse.rising_foldl (fun m x hm => Sparse.rising_foldl (fun m j hm => ?_) hm) rfl
  dsimp only
  split
  · exact Sparse.rising_ins _ _ hm
  · exact hm

theorem loadTask_view {cur old : Task} {f : Nat → Byte} : (loadTask cur old f).view = loadView old.view (imgLe f 0x840 8) f := by
  simp only [loadTask]

theorem loadTask_spill {cur old : Task} {f : Nat → Byte} : (loadTask cur old f).spill = imgMap 8 f 0xB000 Config.spillBytes 1 0 := by
  simp only [loadTask]

theorem loadTask_listsOk {cur old : Task} {f : Nat → Byte} : (loadTask cur old f).ListsOk :=
  ⟨loadTask_view ▸ loadView_rising, loadTask_spill ▸ imgMap_wf⟩

theorem setCtxReg_listsOk {n : ℕ} {w : Word} (hs : s.ListsOk) : (setCtxReg s n w).ListsOk := by
  unfold setCtxReg
  split
  · exact modY_listsOk hs
  · exact hs
  · exact hs
  · exact hs
  · exact modY_listsOk hs
  · exact srWrite_listsOk hs

theorem keepImage_listsOk {n : Nat} {v : Saved} {m : Nat} (hs : s.ListsOk) (hv : v.t.ListsOk) :
    ({ s with images := Sparse.ins s.images n v, nextImage := m } : State).ListsOk := by
  obtain ⟨h1, h2, h3, h4, h5, h6⟩ := (listsOk_iff s).mp hs
  refine (listsOk_iff _).mpr ⟨h1, h2, h3, h4, h5, fun p hp => ?_⟩
  rcases Sparse.mem_ins hp with rfl | hp
  · exact hv
  · exact h6 p hp

@[simp] theorem execCtxsv_outOk {nb : Bool} {rd ra : Reg} (hs : s.ListsOk) : OutOk (execCtxsv nb rd ra s) := by
  refine ccNext_outOk hs <| .now_bind fun u hu => .bind (.failIf _ _) fun _ => .bind (.rdS _) fun a => ?_
  split
  · exact .wrS _ _
  · dsimp only
    have hend : ∀ (v : State) (n : Nat) (k : Saved) (m : Nat) (x : Word), v.ListsOk → k.t.ListsOk →
        MKeeps (do upd fun _ => { v with images := Sparse.ins v.images n k, nextImage := m }; wrS rd x) := fun _ _ _ _ _ hv hk =>
      .bind (.upd fun _ _ => keepImage_listsOk hv hk) fun _ => .wrS _ _
    split
    · exact .bind .wait fun _ => hend _ _ _ _ _ (savePages_listsOk hu rfl) hu.ofCore.2
    · exact hend _ _ _ _ _ (savePages_listsOk hu rfl) hu.ofCore.2

theorem restore_listsOk {l : List Nat} {cur : Task → Task} {b : Buffers} {w : Nat → Word} {r : Nat → Nat} {tpc : Word} (hs : s.ListsOk)
    (ht : ∀ t, (cur t).ListsOk) :
    ((l.foldl (fun s i => setCtxReg s (r i) (w i)) ((s.modT cur).modB fun _ => b)).modY fun y => { y with tpc := tpc }).ListsOk :=
  modY_listsOk (foldl_listsOk (fun _ _ => setCtxReg_listsOk) (modB_listsOk (modT_listsOk hs (ht _))))

@[simp] theorem execCtxrs_outOk {rd ra : Reg} (hs : s.ListsOk) : OutOk (execCtxrs rd ra s) := by
  refine ccNext_outOk hs <| .now_bind fun u hu => .bind (.failIf _ _) fun _ => .bind (.rdS _) fun a => ?_
  have hret : ∀ (v : State) (x : Word), v.ListsOk → MKeeps (do upd fun _ => v; wrS rd x) := fun v x hv =>
    .bind (.upd fun _ _ => hv) fun _ => .wrS _ _
  split
  · exact .wrS _ _
  · split
    · exact .wait
    · split
      · next h => exact hret _ _ (loadPages_listsOk hu h)
      · next s1 m0 h =>
        have h1 := loadPages_listsOk hu h
        extract_lets hb flags buf last
        split
        · exact hret _ _ h1
        · have hlast : ∀ r, MKeeps (last r) := by
            intro r
            dsimp only [last]
            split
            · next h2 => exact hret _ _ (loadPages_listsOk h1 h2)
            · next h2 => exact hret _ _ (restore_listsOk (loadPages_listsOk h1 h2) fun _ => loadTask_listsOk)
          split
          · exact .bind .wait hlast
          · exact hlast ()

theorem pokeImage_listsOk {o : ℕ} {w : Word} (hs : s.ListsOk) : (pokeImage s o w).ListsOk := by
  unfold pokeImage
  dsimp only
  refine ite_listsOk (State.pokePc_listsOk hs) (ite_listsOk (setCtxReg_listsOk hs) (ite_listsOk (modR_listsOk hs) (ite_listsOk ?_ ?_)))
  · exact spill_listsOk hs rfl (writeBytes_wf _ _)
  · refine ite_listsOk (modT_listsOk_same hs (fun _ => rfl) fun _ => rfl) (ite_listsOk (pokeBanks_listsOk hs) ?_)
    refine ite_listsOk (modT_listsOk_same hs (fun _ => rfl) fun _ => rfl) (ite_listsOk (modT_listsOk_same hs (fun _ => rfl) fun _ => rfl) ?_)
    exact ite_listsOk (modB_listsOk hs) (ite_listsOk (modB_listsOk hs) (ite_listsOk (modB_listsOk hs) (ite_listsOk (modB_listsOk hs) hs)))

theorem pokeSlice_listsOk {o : ℕ} {w : Word} (hs : s.ListsOk) : (pokeSlice s o w).ListsOk := by
  unfold pokeSlice
  split
  · exact ite_listsOk (State.dwhlt_listsOk hs) hs
  · exact State.setDbgctl_listsOk hs
  · exact ite_listsOk hs (ite_listsOk hs (ite_listsOk hs (pokeImage_listsOk hs)))

@[simp] theorem execDebugApertureWrite_outOk {core : BitVec 8} {off : ℕ} {data : List Byte} (hs : s.ListsOk) :
    OutOk (execDebugApertureWrite core off data s) :=
  .next (ite_listsOk (State.setRdata_listsOk hs) (State.withCore_listsOk hs fun _ => pokeSlice_listsOk))

theorem pushStage_listsOk {k : Cmd} {t : State} {e : Option EStop} (hs : s.ListsOk) (h : pushStage k s = some (t, e)) : t.ListsOk := by
  have hp := fun u e (h : pushAsRouted k s = (u, e)) => pushAsRouted_listsOk hs h
  grind [pushStage, settleFrame_listsOk, State.completeX_listsOk]

theorem complete_listsOk {q : QName} {k : Cmd} {t : State} (hs : s.ListsOk) (h : complete q k s = some t) : t.ListsOk := by
  unfold complete at h
  split at h
  · cases h
  · next hp => cases h; exact pushFault_listsOk (pushStage_listsOk hs hp)
  · next u hp =>
    have hu := pushStage_listsOk hs hp
    split at h
    · split at h
      · cases h
      · cases h; exact hu
    · have h2 : ∀ tk, (((u.modT fun t => { t with toks := tk }).modCmd q k.num fun c => { c with pushed := true })).ListsOk := fun _ =>
        modCmd_listsOk (modT_listsOk_same hu (fun _ => rfl) fun _ => rfl)
      cases h
      refine retire_listsOk (ite_listsOk (freeSlots_listsOk (h2 _)) (h2 _))

/-- The first success of a search, else the state as it was. -/
theorem findSome_listsOk {α : Type} {l : List α} {f : α → Option State} (hs : s.ListsOk) (hf : ∀ x t, f x = some t → t.ListsOk) :
    ((l.findSome? f).getD s).ListsOk := by
  cases h : l.findSome? f with
  | none => exact hs
  | some t =>
    obtain ⟨x, -, hx⟩ := List.exists_of_findSome?_eq_some h
    exact hf x t hx

theorem completeFirst_listsOk {q : QName} (hs : s.ListsOk) : (completeFirst q s).ListsOk :=
  findSome_listsOk hs fun _ _ => complete_listsOk hs

@[simp] theorem execCommandComplete_outOk {q : QName} (hs : s.ListsOk) : OutOk (execCommandComplete q s) :=
  .next (ite_listsOk hs (ite_listsOk (completeFirst_listsOk hs) (State.drained_listsOk hs)))

@[simp] theorem execHeldPushRelease_outOk {q : QName} (hs : s.ListsOk) : OutOk (execHeldPushRelease q s) :=
  .next (ite_listsOk (completeFirst_listsOk hs) hs)

@[simp] theorem execMteRetire_outOk (hs : s.ListsOk) : OutOk (execMteRetire s) := by
  refine .next (ite_listsOk hs (ite_listsOk hs ?_))
  split
  · split
    · exact hs
    · next h => exact pushFault_listsOk (pushStage_listsOk hs h)
    · next h => exact pushStage_listsOk hs h
  · split
    · exact hs
    · exact retire_listsOk (foldl_listsOk (fun _ _ => freeSlots_listsOk) (modT_listsOk_same hs (fun _ => rfl) fun _ => rfl))

theorem fardArrive_listsOk {sector : ℕ} (hs : s.ListsOk) : (fardArrive sector s).ListsOk := by
  unfold fardArrive
  split
  · exact hs
  · split
    · refine ite_listsOk hs (State.underRegs_listsOk hs fun u hu => ?_)
      split
      · refine ite_listsOk (settleCmd_listsOk (p := { Prog.ok _ sector with stop := _, got := _ }) ?_) hu
        split
        · exact markRest_listsOk hu
        · exact hu
      · next h => exact modCmd_listsOk (fardSector_keeps u hu _ _ h)
    · exact hs

@[simp] theorem execFlashSectorArrival_outOk {sector : ℕ} (hs : s.ListsOk) : OutOk (execFlashSectorArrival sector s) :=
  .next (ite_listsOk hs (fardArrive_listsOk hs))

theorem failed_listsOk {l : List Nat} (hs : s.ListsOk) : (s.modM fun m => { m with failed := l }).ListsOk := modM_listsOk hs hs.ofMem

theorem tierEnd_listsOk {q : QName} {elem : ℕ} {code : BitVec 8} (hs : s.ListsOk) : (tierEnd q elem code s).ListsOk := by
  refine ite_listsOk hs ?_
  split
  · exact hs
  · next k _ =>
    refine ite_listsOk hs ?_
    split
    · refine ite_listsOk hs ?_
      have h1 := foldl_listsOk (l := List.range elem) (f := fun s i => fardArrive i s) (fun _ _ => fardArrive_listsOk) hs
      dsimp only
      split
      · exact ite_listsOk (settleCmd_listsOk (p := { Prog.ok _ elem with stop := _, got := _ }) (markRest_listsOk h1)) h1
      · exact h1
    · split
      · exact hs
      · next s1 h =>
        have h1 : s1.ListsOk := by
          split at h
          · cases h; exact hs
          · exact takePops_listsOk hs h
        split
        · exact hs
        · refine ite_listsOk hs ?_
          extract_lets s2 s3
          have h2 : s2.ListsOk := failed_listsOk h1
          have hgroup : ∀ o : Option (List Cmd), ((o.map fun g => flushGroup g s2).getD s2).ListsOk := by
            rintro (_ | g)
            · exact h2
            · exact flushGroup_listsOk h2
          have h3 : s3.ListsOk := ite_listsOk (State.underRegs_listsOk h2 fun _ hu => settleAtom_listsOk (atomRun_listsOk hu))
            (ite_listsOk (hgroup _) (runQueue_listsOk h2))
          exact ite_listsOk (modCmd_listsOk (failed_listsOk h3)) h3

@[simp] theorem execTierTimeout_outOk {x : TierAt} (hs : s.ListsOk) : OutOk (execTierTimeout x s) := .next (tierEnd_listsOk hs)

@[simp] theorem execTierPortFailure_outOk {x : TierAt} (hs : s.ListsOk) : OutOk (execTierPortFailure x s) := .next (tierEnd_listsOk hs)

end Sys2Proof.Machine
end

section
/-! A step keeps the lists in order (O11). -/

namespace Sys2Proof.Machine

variable {s : State}

/-- Every arm of `exec` keeps the lists in order: one `exec…_outOk` per arm. -/
theorem exec_outOk {i : Instr} (hs : s.ListsOk) : OutOk (exec i s) := by
  cases i <;> simp [exec, hs]

theorem Core.dropCkpt_phys (c : Core) : c.dropCkpt.phys = c.phys := by
  unfold Core.dropCkpt
  extract_lets issued
  split
  · rfl
  · split <;> rfl

theorem dropCkpt_modC_listsOk (hs : s.ListsOk) : (s.modC Core.dropCkpt).ListsOk :=
  modC_listsOk hs (Core.dropCkpt_phys _) (Core.dropCkpt_listsOk hs.ofCore)

theorem State.issued_listsOk {t : State} (ht : t.ListsOk) : (State.issued s t).ListsOk := by
  unfold State.issued
  extract_lets took u v
  have hv : v.ListsOk := ite_listsOk (dropCkpt_modC_listsOk ht) (State.countIssue_listsOk (dropCkpt_modC_listsOk ht))
  exact ite_listsOk (State.askHalt_listsOk (modH_listsOk hv)) hv

theorem issueInstr_outOk {i : Instr} {ok : Bool} (hs : s.ListsOk) : OutOk (issueInstr i ok s) := by
  unfold issueInstr
  dsimp only
  split
  · split
    · next h =>
      have ht := exec_outOk hs _ h
      split
      · exact .next (takeTrap_listsOk (keepFills_listsOk hs ht))
      · exact .next (takeTrap_listsOk hs)
    · exact .next (takeTrap_listsOk hs)
  · split
    · exact exec_outOk hs
    · split
      · exact exec_outOk hs
      · exact .next (takeTrap_listsOk (State.clearFault_listsOk hs))

theorem Out.map_outOk {f : State → State} {o : Out} (hf : ∀ u, u.ListsOk → (f u).ListsOk) (ho : OutOk o) : OutOk (o.map f) := by
  cases o with
  | next u => exact .next (hf u (ho u rfl))
  | fault r => rintro _ ⟨⟩
  | refused r => rintro _ ⟨⟩

theorem controlStep_outOk (hs : s.ListsOk) : OutOk (controlStep s) := by
  unfold controlStep
  split
  · exact .next (ite_listsOk hs (State.focus_listsOk hs))
  · split
    · next h =>
      exact withhold_outOk (fetchInstr_listsOk hs h) fun _ hu => .next (State.issued_listsOk (takeTrap_listsOk hu))
    · next h => exact .next (waiting_listsOk (fetchInstr_listsOk hs h))
    · next h =>
      exact withhold_outOk (fetchInstr_listsOk hs h) fun _ hu =>
        Out.map_outOk (fun _ => State.issued_listsOk) (issueInstr_outOk (State.checkpoint_listsOk hu))

theorem backgroundStep_outOk (hs : s.ListsOk) : OutOk (backgroundStep s) := by
  unfold backgroundStep
  split
  · exact exec_outOk hs
  · exact .next (ite_listsOk (State.focus_listsOk hs) hs)

theorem agendaStep_outOk {m : Move} (hs : s.ListsOk) : OutOk (agendaStep m s) := by
  cases m with
  | control => exact controlStep_outOk (State.tick_listsOk hs)
  | focus c => exact .next (State.focus_listsOk hs)
  | event i =>
    dsimp only [agendaStep]
    split
    · exact exec_outOk hs
    · exact .next hs

theorem fault_outOk {f : Fault} : OutOk (.fault f) := by rintro _ ⟨⟩

theorem step_outOk (hs : s.ListsOk) : OutOk (step s) := by
  have ha : ∀ l, ({ s with agenda := l } : State).ListsOk := fun _ => hs
  unfold step
  split
  · exact exec_outOk (ha _)
  · split
    · exact agendaStep_outOk (ha _)
    · exact fault_outOk
  · split
    · exact fault_outOk
    · split
      · exact controlStep_outOk (State.tick_listsOk hs)
      · exact backgroundStep_outOk (State.tick_listsOk hs)

/-- Settles O11: every function that a step runs keeps the lists in order. -/
theorem listFormKept : Obligations.ListFormKept := fun _ t hs h => step_outOk hs t h

end Sys2Proof.Machine
end

section
/-! What a command that completes leaves (O43): the write of the timeline area, what V passes, and the rules that complete commands and tiles. -/

namespace Sys2Proof.Machine

/-- Two states with the same task and the same buffers on the core in focus. -/
def SameTask (s t : State) : Prop := t.core.t = s.core.t ∧ t.core.buf = s.core.buf

namespace SameTask
variable {s t u : State}

theorem refl (s : State) : SameTask s s := ⟨rfl, rfl⟩

theorem trans (h : SameTask s t) (h' : SameTask t u) : SameTask s u := ⟨h'.1.trans h.1, h'.2.trans h.2⟩

theorem modM (f : Mem → Mem) : SameTask s (s.modM f) := refl s

theorem modX (x : BitVec 12) (f : Ctx → Ctx) : SameTask s (s.modX x f) := refl s

theorem foldl (s : State) {α : Type} {f : State → α → State} (hf : ∀ u x, SameTask u (f u x)) (l : List α) : SameTask s (l.foldl f s) := by
  induction l generalizing s with
  | nil => exact refl s
  | cons x l ih => exact (hf _ x).trans (ih _)

theorem foldlM {α ε : Type} {f : State → α → Except ε State} (hf : ∀ u x v, f u x = .ok v → SameTask u v) {l : List α}
    (h : l.foldlM f s = .ok t) : SameTask s t := by
  induction l generalizing s with
  | nil => cases h; exact refl _
  | cons x l ih =>
    rw [List.foldlM_cons] at h
    cases hx : f s x with
    | error e => rw [hx] at h; cases h
    | ok v => rw [hx] at h; exact (hf _ x v hx).trans (ih h)

theorem map {ε : Type} {r : Except ε State} {f : State → State} (hr : ∀ v, r = .ok v → SameTask s v) (hf : ∀ v, SameTask v (f v))
    (h : r.map f = .ok t) : SameTask s t := by
  cases r with
  | error e => cases h
  | ok v => cases h; exact (hr v rfl).trans (hf v)

theorem charge {ctx : BitVec 12} {pa : Nat} {d : Int} (h : s.charge ctx pa d = .ok t) : SameTask s t := by
  grind [State.charge, modX]

theorem claimBlock {ctx : BitVec 12} {blk : Nat} {bs : List Byte} (h : s.claimBlock ctx blk bs = .ok t) : SameTask s t := by
  unfold State.claimBlock at h
  split at h
  · dsimp only at h
    split at h
    · cases h; exact refl s
    · split at h
      · exact map (fun _ => charge) (fun _ => modM _) h
      · split at h
        · exact map (fun _ => charge) (fun _ => modM _) h
        · cases h
  · cases h; exact refl s

theorem homePart (pa : Nat) (bs : List Byte) : SameTask s (s.homePart pa bs) := by
  unfold State.homePart
  split
  · exact refl s
  · exact modM _

theorem homeWrite (pa : Nat) (bs : List Byte) : SameTask s (s.homeWrite pa bs) := by
  unfold State.homeWrite
  split
  · exact homePart ..
  · exact foldl s (fun _ _ => homePart ..) _

theorem store {ctx : BitVec 12} {pa : Nat} {bs : List Byte} (h : s.store ctx pa bs = .ok t) : SameTask s t := by
  refine map (fun v hv => foldlM (fun u x w hw => ?_) hv) (fun _ => homeWrite _ _) h
  dsimp only at hw
  split at hw
  · cases hw; exact refl u
  · exact claimBlock hw

theorem lookup (ctx : BitVec 12) (va : Nat) : SameTask s (lookup s ctx va).1 := by
  unfold Machine.lookup
  split
  · exact refl s
  · dsimp only
    split
    · exact refl s
    · exact refl s

theorem translate (ctx : BitVec 12) (va : Word) (a : Acc) (task : Bool) : SameTask s (translate s ctx va a task).1 := by
  have hl := lookup (s := s) ctx va.toNat
  unfold Machine.translate
  split
  · exact refl s
  · dsimp only
    split
    · exact hl
    · split
      · exact hl
      · exact hl

theorem deviceWrite (ctx : BitVec 12) (va : Word) (bs : List Byte) : SameTask s (s.deviceWrite ctx va bs).1 := by
  have ht := translate (s := s) ctx va .w false
  unfold State.deviceWrite
  split
  · next h => rw [h] at ht; exact ht
  · next h =>
    rw [h] at ht
    split
    · exact ht
    · split
      · next h => exact ht.trans (store h)
      · exact ht

theorem postDrop (ctx : BitVec 12) (src : Nat) (va : Word) : SameTask s (s.postDrop ctx src va) := by
  unfold State.postDrop
  split
  · exact refl s
  · dsimp only; split <;> exact refl s

/-- The device's write of a timeline-area entry (R134) leaves the task and the buffers. -/
theorem timelineWrite (ctx : BitVec 12) (slot : BitVec 8) (n : Nat) (v : Word) : SameTask s (s.timelineWrite ctx slot n v) := by
  have hd := fun va => deviceWrite (s := s) ctx va (leBytes 8 v.toNat)
  unfold State.timelineWrite
  dsimp only
  split
  · exact refl s
  · split
    · exact hd _
    · exact (hd _).trans (postDrop ..)

end SameTask

/-! ### What V passes (R130, R176) -/

/-- A task after V of a queue has passed its oldest command k, the commands l being left: k's status is kept. -/
def Task.passed (t : Task) (q : QName) (k : Cmd) (l : List Cmd) : Task :=
  let keep (m : Sparse Word) : Sparse Word := (Sparse.put 0 m k.num.toNat k.status).filter fun p => k.num.toNat < p.1 + 128
  let t := { t with q := t.q.set q l, tls := t.tls.mod q fun x => { x with v := k.num } }
  match q with
  | .load => { t with statL := keep t.statL }
  | .store => { t with statS := keep t.statS }
  | .compute => t

section
variable {q p : QName} {k : Cmd} {l : List Cmd} {t : Task} {n : Nat}

/-- Only the queues, the timelines and the kept statuses change. -/
theorem Task.passed_rest : t.passed q k l =
    { t with q := t.q.set q l, tls := t.tls.mod q fun x => { x with v := k.num },
             statL := (t.passed q k l).statL, statS := (t.passed q k l).statS } := by
  cases q <;> rfl

@[simp] theorem Task.passed_q : (t.passed q k l).q = t.q.set q l := by rw [passed_rest]

@[simp] theorem Task.passed_tls : (t.passed q k l).tls = t.tls.mod q fun x => { x with v := k.num } := by rw [passed_rest]

/-- A value stays readable where a filter keeps its key. -/
theorem Sparse.get_filter {m : Sparse Word} {a : Nat} {f : Nat × Word → Bool} (hm : Sparse.rising m = true) (ha : ∀ v, f (a, v) = true) :
    Sparse.get 0 (m.filter f) a = Sparse.get 0 m a := by
  rw [Sparse.rising_iff] at hm
  unfold Sparse.get
  congr 1
  induction m with
  | nil => rfl
  | cons p m ih =>
    obtain ⟨b, v⟩ := p
    obtain ⟨hb, hm⟩ := List.pairwise_cons.1 hm
    have hlow (h : a < b) : Sparse.find (m.filter f) a = none :=
      Sparse.find_below fun p hp => h.trans (hb p (List.mem_of_mem_filter hp))
    grind [Sparse.find]

/-- The status of the command that V passes is kept. -/
theorem Task.passed_statL (h : Sparse.wf 0 t.statL = true) : Sparse.get 0 (t.passed .load k l).statL k.num.toNat = k.status := by
  have hw := Sparse.put_wf 0 k.num.toNat k.status h
  exact (Sparse.get_filter (Bool.and_eq_true_iff.1 hw).1 fun _ => by simp).trans (Sparse.get_put_same _ _ _ h)

theorem Task.passed_statS (h : Sparse.wf 0 t.statS = true) : Sparse.get 0 (t.passed .store k l).statS k.num.toNat = k.status := by
  have hw := Sparse.put_wf 0 k.num.toNat k.status h
  exact (Sparse.get_filter (Bool.and_eq_true_iff.1 hw).1 fun _ => by simp).trans (Sparse.get_put_same _ _ _ h)

/-- V passes the oldest command once it has pushed. -/
theorem retireOldest_cons (h : t.q.get q = k :: l) (hk : k.pushed = true) : retireOldest q (n + 1) t = retireOldest q n (t.passed q k l) := by
  rw [retireOldest]
  cases q <;> simp only [h, hk, Task.passed, Bool.not_true, Bool.false_eq_true, if_false]

/-- V stands where no command is left, or the oldest one has not pushed. -/
theorem retireOldest_stands (h : ∀ c, (t.q.get q).head? = some c → c.pushed = false) : retireOldest q n t = t := by
  cases n with
  | zero => rfl
  | succ n =>
    rw [retireOldest]
    split
    · rfl
    · next c l hq => rw [if_pos (by simp [h c (by rw [hq]; rfl)])]

/-- What V passes changes the queues, the timelines and the kept statuses alone. -/
theorem retireOldest_rest (q : QName) (n : Nat) (t : Task) : retireOldest q n t =
    { t with q := (retireOldest q n t).q, tls := (retireOldest q n t).tls,
             statL := (retireOldest q n t).statL, statS := (retireOldest q n t).statS } := by
  induction n generalizing t with
  | zero => rfl
  | succ n ih =>
    cases hq : t.q.get q with
    | nil => rw [retireOldest_stands (by simp [hq])]
    | cons k l =>
      cases hk : k.pushed with
      | false => rw [retireOldest_stands (by simp [hq, hk])]
      | true =>
        rw [retireOldest_cons hq hk, ih]
        rw [Task.passed_rest]

/-- V passes a whole queue whose commands have pushed. -/
theorem retireOldest_all {z : Cmd} (hl : ∀ c ∈ t.q.get q, c.pushed = true) (hz : (t.q.get q).getLast? = some z) (hn : (t.q.get q).length ≤ n) :
    (retireOldest q n t).q.get q = [] ∧ (retireOldest q n t).tls.get q = ⟨(t.tls.get q).i, z.num⟩ := by
  induction n generalizing t with
  | zero => simp [List.length_eq_zero_iff.1 (Nat.le_zero.1 hn)] at hz
  | succ n ih =>
    cases hq : t.q.get q with
    | nil => simp [hq] at hz
    | cons k l =>
      rw [hq] at hl hz hn
      rw [retireOldest_cons hq (hl k (by simp))]
      have hp : (t.passed q k l).q.get q = l := by simp [Queues.get_set]
      cases l with
      | nil =>
        obtain rfl : k = z := by simpa using hz
        have hs : retireOldest q n (t.passed q k []) = t.passed q k [] := retireOldest_stands fun c hc => by rw [hp] at hc; cases hc
        rw [hs]
        exact ⟨hp, by simp [Timelines.get_mod]⟩
      | cons c l =>
        obtain ⟨h1, h2⟩ := ih (t := t.passed q k (c :: l)) (by rw [hp]; exact fun x hx => hl x (.tail _ hx)) (by rw [hp]; simpa using hz)
          (by rw [hp]; simpa using hn)
        exact ⟨h1, by rw [h2]; simp [Timelines.get_mod]⟩

end

/-- No frame waits: none is written. -/
theorem settleFrame_of_none {s : State} (h : s.core.t.frames = []) : settleFrame s = s := by
  unfold settleFrame
  rw [h]

section
variable {q : QName} {s : State}

/-- The state whose V has moved on, before its write to the timeline area. -/
def State.retired (s : State) (q : QName) : State := s.modT fun t => retireOldest q (t.q.get q).length t

theorem retired_frames : (s.retired q).core.t.frames = s.core.t.frames := by
  change (retireOldest _ _ _).frames = _
  rw [retireOldest_rest]

/-- V moves on and is written to the timeline area. -/
theorem retire_eq : retire q s = settleFrame (if ((s.retired q).core.t.tls.get q).v = (s.core.t.tls.get q).v then s.retired q
    else (s.retired q).timelineWrite s.cid s.core.t.id.slot (tlIndex q) ((s.retired q).core.t.tls.get q).v) := rfl

/-- Beside the write to the timeline area, V moves on and nothing else. -/
theorem retire_sameTask (h : s.core.t.frames = []) : SameTask (s.retired q) (retire q s) := by
  have hf := (retired_frames (s := s) (q := q)).trans h
  rw [retire_eq]
  split
  · rw [settleFrame_of_none hf]; exact .refl _
  · have ht := SameTask.timelineWrite (s := s.retired q) s.cid s.core.t.id.slot (tlIndex q) ((s.retired q).core.t.tls.get q).v
    rw [settleFrame_of_none (by rw [ht.1]; exact hf)]
    exact ht

/-- A context without a timeline area: nothing is written. -/
theorem timelineWrite_of_noArea {ctx : BitVec 12} {slot : BitVec 8} {n : Nat} {v : Word} (h : (s.ctx ctx).tlnbase &&& 0x01FFFFFFFFFFE000#64 = 0) :
    s.timelineWrite ctx slot n v = s := by
  unfold State.timelineWrite
  rw [if_pos h]

theorem retire_of_noArea (h : s.core.t.frames = []) (hx : s.cx.tlnbase &&& 0x01FFFFFFFFFFE000#64 = 0) : retire q s = s.retired q := by
  have hf := (retired_frames (s := s) (q := q)).trans h
  have hw := timelineWrite_of_noArea (s := s.retired q) (slot := s.core.t.id.slot) (n := tlIndex q) (v := ((s.retired q).core.t.tls.get q).v) hx
  rw [retire_eq, hw, ite_self, settleFrame_of_none hf]

/-- V stands where no command is left, or the oldest one has not pushed. -/
theorem retired_stands (h : ∀ c, (s.core.t.q.get q).head? = some c → c.pushed = false) : s.retired q = s :=
  congrArg (fun t => s.modT fun _ => t) (retireOldest_stands h)

theorem retire_stands (hf : s.core.t.frames = []) (h : ∀ c, (s.core.t.q.get q).head? = some c → c.pushed = false) : retire q s = s := by
  rw [retire_eq, retired_stands h, if_pos rfl, settleFrame_of_none hf]

/-! ### What a command that completes leaves (R20) -/

/-- The state once a command has pushed its tokens and its slots are free, before V moves on. -/
def State.pushedBy (s : State) (q : QName) (k : Cmd) : State :=
  let s2 := (s.modT fun t => { t with toks := t.toks.push q (pushTok k) }).modCmd q k.num fun c => { c with pushed := true }
  if q = .compute then freeSlots k.num s2 else s2

/-- Only the tokens, the queue and the marks of the slots change. -/
theorem pushedBy_rest (s : State) (q : QName) (k : Cmd) : s.pushedBy q k = s.modT fun t => { t with
    toks := t.toks.push q (pushTok k), q := t.q.set q ((t.q.get q).map fun c => if c.num = k.num then { c with pushed := true } else c),
    chans := (s.pushedBy q k).core.t.chans } := by
  cases q <;> rfl

/-- Outside a block a command completes once its tokens have room. -/
theorem complete_of_noBlock {k : Cmd} (hb : k.blk = none) :
    complete q k s = if s.core.t.toks.canPush q (pushTok k) then some (retire q (s.pushedBy q k)) else none := by
  have hp : pushStage k s = some (s, none) := by simp [pushStage, takesX, hb]
  unfold complete
  rw [hp]
  cases hc : s.core.t.toks.canPush q (pushTok k) <;> simp [hc, State.pushedBy]

/-- A command's mark alone changes, where no other command of the queue has its number. -/
theorem map_pushed_of_unique {k : Cmd} {l1 l2 : List Cmd} (h : ∀ c ∈ l1 ++ l2, c.num ≠ k.num) :
    (l1 ++ k :: l2).map (fun c => if c.num = k.num then { c with pushed := true } else c) = l1 ++ { k with pushed := true } :: l2 := by
  have hk : ∀ l : List Cmd, (∀ c ∈ l, c.num ≠ k.num) → l.map (fun c => if c.num = k.num then { c with pushed := true } else c) = l :=
    fun l hl => (List.map_congr_left fun c hc => if_neg (hl c hc)).trans (List.map_id' l)
  rw [List.map_append, List.map_cons, if_pos rfl, hk l1 fun c hc => h c (by simp [hc]), hk l2 fun c hc => h c (by simp [hc])]

/-- The commands that may complete, outside a tile. -/
theorem retained_of_noTile {k : Cmd} (h : s.core.t.tile.opened = false) : retained s.core.t q k = false := by simp [retained, h]

end

/-! ### COMMAND_COMPLETE and HELD_PUSH_RELEASE -/

section
variable {q : QName} {s : State} {k : Cmd} {l : List Cmd}

/-- Both rules are the completion of the first command that can, where the engines of a running task run. -/
theorem exec_completeFirst (hr : enginesRun s = true) (hc : s.core.running = true) :
    ∀ i ∈ [Instr.commandComplete q, Instr.heldPushRelease q], exec i s = .next (completeFirst q s) := by
  have h1 : execCommandComplete q s = .next (completeFirst q s) := by simp [execCommandComplete, hr, hc]
  have h2 : execHeldPushRelease q s = .next (completeFirst q s) := by simp [execHeldPushRelease, hr, hc]
  intro i hi
  simp only [List.mem_cons, List.not_mem_nil, or_false] at hi
  obtain rfl | rfl := hi
  · exact h1
  · exact h2

/-- The commands of a queue that may complete, oldest first. -/
def State.completable (s : State) (q : QName) (l : List Cmd) : List Cmd :=
  l.filter fun k => k.done && !k.pushed && k.fault.isNone && !retained s.core.t q k

theorem completeFirst_eq : completeFirst q s = ((s.completable q (s.core.t.q.get q)).findSome? fun k => complete q k s).getD s := rfl

/-- Nothing happens where no command that is done has room. -/
theorem completeFirst_of_noRoom (h : ∀ c ∈ s.core.t.q.get q, c.done = true → c.fault = none →
    c.blk = none ∧ s.core.t.toks.canPush q (pushTok c) = false) : completeFirst q s = s := by
  rw [completeFirst_eq, List.findSome?_eq_none_iff.2 fun c hc => ?_]
  · rfl
  · obtain ⟨hm, hc⟩ := List.mem_filter.1 hc
    simp only [Bool.and_eq_true, Option.isNone_iff_eq_none] at hc
    obtain ⟨hb, hp⟩ := h c hm hc.1.1.1 hc.1.2
    simp [complete_of_noBlock hb, hp]

/-- A command that is done outside a block and has room for its pushes, no tile being open and no frame waiting. -/
structure MayComplete (s : State) (q : QName) (k : Cmd) : Prop where
  done : k.done = true
  fresh : k.pushed = false
  sound : k.fault = none
  noBlock : k.blk = none
  room : s.core.t.toks.canPush q (pushTok k) = true
  noTile : s.core.t.tile.opened = false
  noFrame : s.core.t.frames = []

/-- The first command that is done and has room pushes, the ones before it being unfinished or without room. -/
theorem completeFirst_of_first {l1 l2 : List Cmd} (hq : s.core.t.q.get q = l1 ++ k :: l2) (hk : MayComplete s q k)
    (h1 : ∀ c ∈ l1, c.done = true → c.fault = none → c.blk = none ∧ s.core.t.toks.canPush q (pushTok c) = false) :
    completeFirst q s = retire q (s.pushedBy q k) := by
  have h1' : (s.completable q l1).findSome? (fun k => complete q k s) = none := by
    refine List.findSome?_eq_none_iff.2 fun c hc => ?_
    obtain ⟨hm, hc⟩ := List.mem_filter.1 hc
    simp only [Bool.and_eq_true, Option.isNone_iff_eq_none] at hc
    obtain ⟨hb, hp⟩ := h1 c hm hc.1.1.1 hc.1.2
    simp [complete_of_noBlock hb, hp]
  have hl : s.completable q (l1 ++ k :: l2) = s.completable q l1 ++ k :: s.completable q l2 := by
    simp [State.completable, hk.done, hk.fresh, hk.sound, retained_of_noTile hk.noTile]
  rw [completeFirst_eq, hq, hl, List.findSome?_append, h1', List.findSome?_cons, complete_of_noBlock hk.noBlock, if_pos hk.room]
  rfl

/-- Pushing leaves the frames, and of the queue the command alone marked. -/
theorem pushedBy_frames : (s.pushedBy q k).core.t.frames = s.core.t.frames := by rw [pushedBy_rest]; rfl

theorem pushedBy_q {l1 l2 : List Cmd} (hq : s.core.t.q.get q = l1 ++ k :: l2) (h : ∀ c ∈ l1 ++ l2, c.num ≠ k.num) :
    (s.pushedBy q k).core.t.q = s.core.t.q.set q (l1 ++ { k with pushed := true } :: l2) := by
  rw [pushedBy_rest, modT_task, hq, map_pushed_of_unique h]

/-- The task that V's passing of the oldest command leaves, the next one not having pushed. -/
theorem retired_pushedBy (hq : s.core.t.q.get q = k :: l) (hl : ∀ c ∈ l, c.pushed = false ∧ c.num ≠ k.num) :
    ((s.pushedBy q k).retired q).core.t = (s.pushedBy q k).core.t.passed q { k with pushed := true } l := by
  have hu : (s.pushedBy q k).core.t.q.get q = { k with pushed := true } :: l := by
    rw [pushedBy_q (l1 := []) hq fun c hc => (hl c hc).2, Queues.get_set, if_pos rfl]; rfl
  have hp : ((s.pushedBy q k).core.t.passed q { k with pushed := true } l).q.get q = l := by rw [Task.passed_q, Queues.get_set, if_pos rfl]
  refine (congrArg (fun n => retireOldest q n _) (congrArg List.length hu)).trans
    ((retireOldest_cons hu rfl).trans (retireOldest_stands fun c hc => ?_))
  rw [hp] at hc
  exact (hl c (List.mem_of_mem_head? hc)).1

/-- No byte changes where the task alone does, its view as it is. -/
theorem sameBytes_modT {f : Task → Task} (h : (f s.core.t).view = s.core.t.view) : sameBytes s (s.modT f) := by
  refine fun a => ⟨rfl, ?_⟩
  unfold State.viewByte
  rw [modT_task, h]
  rfl

/-- The retired state is the old one with another task, whose view is as it was. -/
theorem retired_pushedBy_sameBytes : sameBytes s ((s.pushedBy q k).retired q) := by
  have h : (s.pushedBy q k).retired q = s.modT fun _ => ((s.pushedBy q k).retired q).core.t := by
    unfold State.retired; rw [pushedBy_rest]; rfl
  rw [h]
  refine sameBytes_modT ?_
  change (retireOldest _ _ _).view = _
  rw [retireOldest_rest, pushedBy_rest]
  rfl

/-- A COLL pushes no tokens when it completes on its queue. -/
theorem push_of_coll {T : Tokens} {n : BitVec 4} (h : collOf k.instr = some n) : T.push q (pushTok k) = T := by
  have hk : pushTok k = ⟨false, false, false, false⟩ := by
    unfold collOf at h
    split at h
    · next hi => simp [pushTok, hi]
    · cases h
  rw [hk]
  cases q <;> rfl

/-- What the completion of the oldest command leaves, for either rule. -/
theorem completes_oldest (hq : s.core.t.q.get q = k :: l) (hk : MayComplete s q k) :
    SameTask ((s.pushedBy q k).retired q) (completeFirst q s) ∧
    (s.cx.tlnbase &&& 0x01FFFFFFFFFFE000#64 = 0 → completeFirst q s = (s.pushedBy q k).retired q) := by
  have hfr' : (s.pushedBy q k).core.t.frames = [] := pushedBy_frames.trans hk.noFrame
  rw [completeFirst_of_first (l1 := []) hq hk fun c hc => absurd hc (by simp)]
  refine ⟨retire_sameTask hfr', fun hx => retire_of_noArea hfr' ?_⟩
  rw [pushedBy_rest]
  exact hx

/-- COMMAND_COMPLETE of the oldest command, with room for its pushes (R20, R130, R176). -/
theorem completeFirst_oldest (hq : s.core.t.q.get q = k :: l) (hk : MayComplete s q k) (hl : ∀ c ∈ l, c.pushed = false ∧ c.num ≠ k.num) :
    let t := completeFirst q s
    t.core.t.toks = s.core.t.toks.push q (pushTok k) ∧ (∀ n, collOf k.instr = some n → t.core.t.toks = s.core.t.toks) ∧
    t.core.t.tls.get q = ⟨(s.core.t.tls.get q).i, k.num⟩ ∧ t.core.t.q.get q = l ∧
    (∀ p, p ≠ q → t.core.t.q.get p = s.core.t.q.get p ∧ t.core.t.tls.get p = s.core.t.tls.get p) ∧ t.core.t.regs = s.core.t.regs ∧
    t.core.t.pc = s.core.t.pc ∧ t.core.buf = s.core.buf ∧ t.core.t.sys = s.core.t.sys ∧
    (q = .load → Sparse.wf 0 s.core.t.statL = true → Sparse.get 0 t.core.t.statL k.num.toNat = k.status) ∧
    (q = .store → Sparse.wf 0 s.core.t.statS = true → Sparse.get 0 t.core.t.statS k.num.toNat = k.status) ∧
    (s.cx.tlnbase &&& 0x01FFFFFFFFFFE000#64 = 0 → sameBytes s t) := by
  intro t
  obtain ⟨⟨htask, hbuf⟩, hmem⟩ := completes_oldest hq hk
  have hu : t.core.t = (s.pushedBy q k).core.t.passed q { k with pushed := true } l := htask.trans (retired_pushedBy hq hl)
  have htoks : t.core.t.toks = s.core.t.toks.push q (pushTok k) := by rw [hu, Task.passed_rest, pushedBy_rest]; rfl
  have htls : t.core.t.tls = s.core.t.tls.mod q fun x => { x with v := k.num } := by rw [hu, Task.passed_tls, pushedBy_rest]; rfl
  have hqs (p : QName) : t.core.t.q.get p = if p = q then l else s.core.t.q.get p := by
    rw [hu, Task.passed_q, Queues.get_set, pushedBy_rest, modT_task, Queues.get_set]
    split <;> rfl
  refine ⟨htoks, fun n hn => htoks.trans (push_of_coll hn), ?_, by rw [hqs, if_pos rfl], fun p hpq => ⟨by rw [hqs, if_neg hpq], ?_⟩, ?_, ?_, ?_, ?_,
    ?_, ?_, fun hx => ?_⟩
  · rw [htls, Timelines.get_mod, if_pos rfl]
  · rw [htls, Timelines.get_mod, if_neg hpq]
  · rw [hu, Task.passed_rest, pushedBy_rest]; rfl
  · rw [hu, Task.passed_rest, pushedBy_rest]; rfl
  · rw [hbuf]; change (s.pushedBy q k).core.buf = _; rw [pushedBy_rest]; rfl
  · rw [hu, Task.passed_rest, pushedBy_rest]; rfl
  · rintro rfl hw; rw [hu]; exact Task.passed_statL (by rw [pushedBy_rest]; exact hw)
  · rintro rfl hw; rw [hu]; exact Task.passed_statS (by rw [pushedBy_rest]; exact hw)
  · rw [show t = _ from hmem hx]; exact retired_pushedBy_sameBytes

/-- A later command that has room pushes its own tokens, V and the order of the queue staying. -/
theorem completeFirst_later {c : Cmd} {l1 l2 : List Cmd} (hq : s.core.t.q.get q = k :: (l1 ++ c :: l2)) (hb : k.blk = none) (hp : k.pushed = false)
    (hr : s.core.t.toks.canPush q (pushTok k) = false) (h1 : ∀ b ∈ l1, b.done = false) (hc : MayComplete s q c)
    (hn : ∀ b ∈ k :: l1 ++ l2, b.num ≠ c.num) :
    let t := completeFirst q s
    t.core.t.toks = s.core.t.toks.push q (pushTok c) ∧ t.core.t.tls = s.core.t.tls ∧
    t.core.t.q.get q = k :: l1 ++ { c with pushed := true } :: l2 ∧ t.core.t.regs = s.core.t.regs ∧ t.mem = s.mem := by
  intro t
  have hq' : (s.pushedBy q c).core.t.q.get q = k :: l1 ++ { c with pushed := true } :: l2 := by
    rw [pushedBy_q (l1 := k :: l1) hq hn, Queues.get_set, if_pos rfl]
  have h0 : ∀ b ∈ k :: l1, b.done = true → b.fault = none → b.blk = none ∧ s.core.t.toks.canPush q (pushTok b) = false := by
    intro b hm hbd _
    obtain rfl | hm := List.mem_cons.1 hm
    · exact ⟨hb, hr⟩
    · simp [h1 b hm] at hbd
  have he : t = s.pushedBy q c := by
    refine (completeFirst_of_first (l1 := k :: l1) hq hc h0).trans (retire_stands (pushedBy_frames.trans hc.noFrame) fun b hm => ?_)
    rw [hq'] at hm
    obtain rfl : k = b := by simpa using hm
    exact hp
  rw [he]
  refine ⟨?_, ?_, hq', ?_, ?_⟩ <;> rw [pushedBy_rest] <;> rfl

end

/-! ### MTE_RETIRE and TILE_REPLAY -/

section
variable {s : State}

/-- TILE_REPLAY: the working state is the checkpoint's, and the replay is counted (R258). -/
theorem tileReplay_restores (hr : s.core.running = true) (ho : s.core.t.tile.opened = true) (hw : s.core.t.tile.want = true) :
    ∃ t, exec .tileReplay s = .next t ∧
      t.core.t.acc0 = { s.core.t.tile.ck0 with vtag := s.core.t.acc0.vtag } ∧ t.core.t.acc1 = { s.core.t.tile.ck1 with vtag := s.core.t.acc1.vtag } ∧
      t.core.t.tile.replays = 1 ∧ t.core.t.tile.want = false ∧ t.core.t.regs = s.core.t.regs ∧ t.mem = s.mem ∧ t.core.buf = s.core.buf ∧
      (s.core.health.cnt[2].toNat + 1 < 2 ^ 64 → t.core.health.cnt[2] = s.core.health.cnt[2] + 1) := by
  refine ⟨_, congrArg Host.Outcome.next (if_pos (by rw [hr, ho, hw]; rfl)), rfl, rfl, rfl, rfl, rfl, rfl, rfl, fun h => ?_⟩
  have hn : ¬ s.core.health.cnt[2] = BitVec.allOnes 64 := by
    intro hc
    rw [hc] at h
    simp at h
  exact (Vector.getElem_set_self _).trans (if_neg hn)

theorem tileReplay_stands (h : s.core.t.tile.want = false) : exec .tileReplay s = .next s :=
  congrArg Host.Outcome.next (if_neg (by rw [h, Bool.and_false]; simp))

theorem mteRetire_stands (h : s.core.t.tile.opened = false) : exec .mteRetire s = .next s :=
  congrArg Host.Outcome.next (if_pos (by simp [h]))

/-- Freeing slots leaves all but the channels. -/
theorem foldl_freeSlots (l : List Cmd) (u : State) :
    l.foldl (fun s k => freeSlots k.num s) u = u.modT fun t => { t with chans := (l.foldl (fun s k => freeSlots k.num s) u).core.t.chans } := by
  induction l generalizing u with
  | nil => rfl
  | cons k l ih => rw [List.foldl_cons, ih]; rfl

/-- The state once the commands of the tile have pushed their tokens and their slots are free, before V moves on (R257). -/
def State.tilePushed (s : State) (tk : Tokens) : State :=
  let l := s.core.t.q.compute
  l.foldl (fun s k => freeSlots k.num s) (s.modT fun t => { t with
    toks := tk, tile := { t.tile with opened := false, replays := 0, ck0 := Accum.zero, ck1 := Accum.zero },
    q := { t.q with compute := t.q.compute.map fun k => if l.any (·.num = k.num) then { k with pushed := true } else k } })

/-- The open tile may retire: its commands, up to its MTE e, are all done, and have room for their pushes, which leave tk. -/
structure TileMayRetire (s : State) (tk : Tokens) (e : Cmd) : Prop where
  runs : enginesRun s = true
  running : s.core.running = true
  opened : s.core.t.tile.opened = true
  noReplay : s.core.t.tile.want = false
  done : ∀ k ∈ s.core.t.q.compute, isArray k.instr = true ∧ k.done = true ∧ k.pushed = false ∧ k.fault = none ∧ k.blk = none ∧
    s.core.t.tile.num.toNat ≤ k.num.toNat ∧ k.num.toNat ≤ e.num.toNat
  mem : e ∈ s.core.t.q.compute
  mte : ∃ b, e.instr = .mte b
  room : pushAll s.core.t.q.compute s.core.t.toks = some tk

/-- MTE_RETIRE of a tile whose commands are all done and have room: V moves on once all have pushed (R257). -/
theorem exec_mteRetire {tk : Tokens} {e : Cmd} (h : TileMayRetire s tk e) :
    exec .mteRetire s = .next (retire .compute (s.tilePushed tk)) := by
  obtain ⟨hr, hc, ho, hw, hl, he, ⟨b, hm⟩, hp⟩ := h
  have hed : e.done = true := (hl e he).2.1
  have hl1 : (s.core.t.q.compute.filter fun k => retained s.core.t .compute k && !k.pushed) = s.core.t.q.compute := by
    refine List.filter_eq_self.2 fun k hk => ?_
    obtain ⟨h1, -, h2, -, -, h3, -⟩ := hl k hk
    simp [retained, ho, h1, h2, h3]
  change execMteRetire s = _
  unfold execMteRetire
  dsimp only
  rw [hl1, if_neg ?starts, List.filter_eq_self.2 ?mine, if_neg ?finished, List.find?_eq_none.2 ?turn, hp]
  · rfl
  case starts =>
    rw [hr, hc, ho, hw, List.any_eq_true.2]
    · simp
    · exact ⟨e, he, by simp [hm, hed]⟩
  case mine => exact fun k hk => List.any_eq_true.2 ⟨e, he, by simp [hm, hed, (hl k hk).2.2.2.2.2.2]⟩
  case finished =>
    refine ne_true_of_eq_false (List.any_eq_false.2 fun k hk => ?_)
    obtain ⟨-, h1, -, h2, -⟩ := hl k hk
    simp [h1, h2]
  case turn => exact fun k hk => by simp [takesX, (hl k hk).2.2.2.2.1]

/-- What it leaves (R257). -/
theorem mteRetire_retires {tk : Tokens} {e z : Cmd} (h : TileMayRetire s tk e) (hfr : s.core.t.frames = [])
    (hz : s.core.t.q.compute.getLast? = some z) :
    ∃ t, exec .mteRetire s = .next t ∧ t.core.t.toks = tk ∧ t.core.t.q.compute = [] ∧ t.core.t.tls.c = ⟨s.core.t.tls.c.i, z.num⟩ ∧
      t.core.t.tile.opened = false ∧ t.core.t.tile.replays = 0 ∧ t.core.t.acc0 = s.core.t.acc0 ∧ t.core.t.acc1 = s.core.t.acc1 ∧
      t.core.t.regs = s.core.t.regs ∧ t.core.t.pc = s.core.t.pc := by
  have hu := foldl_freeSlots s.core.t.q.compute (s.modT fun t => { t with
    toks := tk, tile := { t.tile with opened := false, replays := 0, ck0 := Accum.zero, ck1 := Accum.zero },
    q := { t.q with compute := t.q.compute.map fun k => if s.core.t.q.compute.any (·.num = k.num) then { k with pushed := true } else k } })
  change s.tilePushed tk = _ at hu
  have hq : (s.tilePushed tk).core.t.q.compute = s.core.t.q.compute.map fun k => { k with pushed := true } := by
    rw [hu]
    exact List.map_congr_left fun k hk => if_pos (List.any_eq_true.2 ⟨k, hk, by simp⟩)
  have hfr' : (s.tilePushed tk).core.t.frames = [] := by rw [hu]; exact hfr
  obtain ⟨htask, -⟩ := retire_sameTask (q := .compute) hfr'
  obtain ⟨h1, h2⟩ := retireOldest_all (q := .compute) (t := (s.tilePushed tk).core.t) (z := { z with pushed := true })
    (n := (s.tilePushed tk).core.t.q.compute.length)
    (by change ∀ c ∈ (s.tilePushed tk).core.t.q.compute, _; rw [hq]; simp)
    (by change (s.tilePushed tk).core.t.q.compute.getLast? = _; rw [hq, List.getLast?_map, hz]; rfl) le_rfl
  have ht : (retire .compute (s.tilePushed tk)).core.t =
      retireOldest .compute (s.tilePushed tk).core.t.q.compute.length (s.tilePushed tk).core.t := htask
  refine ⟨_, exec_mteRetire h, ?_, by rw [ht]; exact h1, ?_, ?_, ?_, ?_, ?_, ?_, ?_⟩
  · rw [ht, retireOldest_rest, hu]; rfl
  · rw [ht]; refine Eq.trans h2 ?_; rw [hu]; rfl
  all_goals rw [ht, retireOldest_rest, hu]; rfl

end

/-- Settles O43: each rule completes the first command that can, and what V then passes changes the queue, the timeline and the kept statuses. -/
theorem commandsComplete : Obligations.CommandsComplete := by
  unfold Obligations.CommandsComplete
  refine fun s => ⟨fun q k l hr hc hq hd hp hf hb hfr ht hl => ⟨fun hroom i hi => ?_, fun hroom => ⟨fun hl' => ?_, ?_⟩⟩,
    fun tk e z hr hc ho hw hfr hl he hm hz hp => mteRetire_retires ⟨hr, hc, ho, hw, hl, he, hm, hp⟩ hfr hz,
    tileReplay_restores, tileReplay_stands, mteRetire_stands⟩
  · exact ⟨_, exec_completeFirst hr hc i hi, completeFirst_oldest hq ⟨hd, hp, hf, hb, hroom, ht, hfr⟩ hl⟩
  · have hs : completeFirst q s = s := completeFirst_of_noRoom fun c hc => by
      rw [hq] at hc
      obtain rfl | hc := List.mem_cons.1 hc
      · exact fun _ _ => ⟨hb, hroom⟩
      · exact hl' c hc
    have he := exec_completeFirst (q := q) hr hc
    rw [hs] at he
    exact ⟨he _ (by simp), he _ (by simp)⟩
  · intro l1 c l2 hl' h1 hcd hcf hcb hn hcr
    have hcl : c ∈ l := by simp [hl']
    have hn' : ∀ b ∈ k :: l1 ++ l2, b.num ≠ c.num := fun b hb => (List.mem_cons.1 hb).elim (fun h => h ▸ (hl c hcl).2.symm) (hn b)
    exact ⟨_, exec_completeFirst hr hc _ (by simp),
      completeFirst_later (hl' ▸ hq) hb hp hroom h1 ⟨hcd, (hl c hcl).1, hcf, hcb, hcr, ht, hfr⟩ hn'⟩

end Sys2Proof.Machine
end

section
/-! Canonical maps: two that read alike are one, so that a value written and put back leaves the map. -/

namespace Sys2Proof.Machine

/-! ### A canonical map is told by what it reads as -/

/-- What a canonical map with a head reads as at the head's key is not the default, and below it is. -/
theorem Sparse.get_head_ne {α : Type} [DecidableEq α] {d v : α} {a : Nat} {m : Sparse α} (h : Sparse.wf d ((a, v) :: m) = true) :
    Sparse.get d ((a, v) :: m) a ≠ d ∧ ∀ b, b < a → Sparse.get d ((a, v) :: m) b = d := by
  obtain ⟨hs, hv⟩ := (Sparse.wf_iff ..).1 h
  exact ⟨by simpa [Sparse.get, Sparse.find] using hv (a, v) (by simp), fun b hb => by simp [Sparse.get, Sparse.find, hb, Nat.ne_of_gt hb]⟩

theorem Sparse.wf_tail {α : Type} [DecidableEq α] {d : α} {p : Nat × α} {m : Sparse α} (h : Sparse.wf d (p :: m) = true) : Sparse.wf d m = true := by
  rw [Sparse.wf_iff] at h ⊢
  exact ⟨(List.pairwise_cons.1 h.1).2, fun q hq => h.2 q (.tail _ hq)⟩

/-- Below the keys of a canonical map's tail stands the head's. -/
theorem Sparse.get_tail_le {α : Type} [DecidableEq α] {d : α} {a b : Nat} {v : α} {m : Sparse α} (h : Sparse.wf d ((a, v) :: m) = true) (hb : b ≤ a) :
    Sparse.get d m b = d := by
  obtain ⟨hs, -⟩ := (Sparse.wf_iff ..).1 h
  have hl : ∀ p ∈ m, b < p.1 := fun p hp => hb.trans_lt ((List.pairwise_cons.1 hs).1 p hp)
  rw [Sparse.get, Sparse.find_below hl]
  rfl

/-- Two canonical maps that read alike are one. -/
theorem Sparse.ext_get {α : Type} [DecidableEq α] {d : α} {m n : Sparse α} (hm : Sparse.wf d m = true) (hn : Sparse.wf d n = true)
    (h : ∀ a, Sparse.get d m a = Sparse.get d n a) : m = n := by
  induction m generalizing n with
  | nil =>
    cases n with
    | nil => rfl
    | cons p n => exact absurd (h p.1).symm (Sparse.get_head_ne hn).1
  | cons p m ih =>
    obtain ⟨a, v⟩ := p
    cases n with
    | nil => exact absurd (h a) (Sparse.get_head_ne hm).1
    | cons q n =>
      obtain ⟨b, w⟩ := q
      have hab : a = b := by
        obtain hlt | rfl | hgt := Nat.lt_trichotomy a b
        · exact absurd ((h a).trans ((Sparse.get_head_ne hn).2 a hlt)) (Sparse.get_head_ne hm).1
        · rfl
        · exact absurd ((h b).symm.trans ((Sparse.get_head_ne hm).2 b hgt)) (Sparse.get_head_ne hn).1
      subst hab
      have hvw : v = w := by simpa [Sparse.get, Sparse.find] using h a
      subst hvw
      rw [ih (Sparse.wf_tail hm) (Sparse.wf_tail hn) fun x => ?_]
      rcases Nat.lt_or_ge a x with hx | hx
      · simpa [Sparse.get, Sparse.find, Nat.ne_of_lt hx, Nat.not_lt_of_gt hx] using h x
      · rw [Sparse.get_tail_le hm hx, Sparse.get_tail_le hn hx]

/-- Writing what a key reads as, after any other value, leaves a canonical map. -/
theorem Sparse.put_get {α : Type} [DecidableEq α] {d : α} {m : Sparse α} (h : Sparse.wf d m = true) (a : Nat) :
    Sparse.put d m a (Sparse.get d m a) = m := by
  refine Sparse.ext_get (Sparse.put_wf d a _ h) h fun b => ?_
  by_cases hb : b = a
  · rw [hb, Sparse.get_put_same d a _ h]
  · rw [Sparse.get_put_other d _ h hb]

theorem Sparse.put_put_get {α : Type} [DecidableEq α] {d : α} {m : Sparse α} (h : Sparse.wf d m = true) (a : Nat) (v : α) :
    Sparse.put d (Sparse.put d m a v) a (Sparse.get d m a) = m := by
  have hp := Sparse.put_wf d a v h
  refine Sparse.ext_get (Sparse.put_wf d a _ hp) h fun b => ?_
  by_cases hb : b = a
  · rw [hb, Sparse.get_put_same d a _ hp]
  · rw [Sparse.get_put_other d _ hp hb, Sparse.get_put_other d _ h hb]

end Sys2Proof.Machine
end

section
/-! A command at its queue head: where everything lets it issue, it settles as its own function leaves it (R16, R20). -/

namespace Sys2Proof.Machine

/-! ### A command that issues at its queue head -/

section
variable {s : State} {q : QName} {k : Cmd}

/-- The command once its pops are taken, and the state it then performs in. -/
abbrev Cmd.taken (k : Cmd) : Cmd := { k with issued := true }
abbrev State.taken (s : State) (q : QName) (k : Cmd) : State := headEnd s q k id Cmd.taken

theorem before_all_issued (h : ∀ c ∈ before (s.core.t.q.get q) k, c.issued = true) :
    (before (s.core.t.q.get q) k).any (!·.issued) = false :=
  List.any_eq_false.2 fun c hc => by simp [h c hc]

/-- Everything lets the command issue: both pops are taken at once. -/
theorem HeadReady.takePops (h : HeadReady s q k) : takePops q k s = some (s.taken q k) := by
  unfold Machine.takePops
  simp only [h.fresh.1, h.agreed, before_all_issued h.turn, h.room, h.tokens, Bool.not_true, Bool.or_false, Bool.false_eq_true, if_false]
  cases q <;> rfl

/-- No fault waits for its delivery where no tile is open. -/
theorem tileHeld_of_noTile {t : Task} (h : t.tile.opened = false) : t.tileHeld = false :=
  List.any_eq_false.2 fun c _ => by simp [Task.inTile, h]

/-- QUEUE_HEAD_ISSUE of a command that everything lets issue runs it (R16, R20). -/
theorem HeadReady.exec_eq (h : HeadReady s q k) : exec (.queueHeadIssue q) s = .next (runQueue q k.taken (s.taken q k)) := by
  change Host.Outcome.next _ = _
  congr 1
  rw [if_neg (by simp [h.runs])]
  rw [h.head]
  dsimp only
  rw [if_neg, h.takePops]
  simp [h.fresh.2.1, h.fresh.2.2.1, h.noTile.1, h.noTile.2, tileHeld_of_noTile h.noTile.1, h.vector, Task.behindTile]

/-- No traverse is due: none is restored. -/
theorem restoreTrav_of_none {t : Task} {num : Word} (h : t.trest = []) : t.restoreTrav q num = t := by
  unfold Task.restoreTrav
  rw [h]
  rfl

theorem HeadReady.runQueue_eq (h : HeadReady s q k) : runQueue q k.taken (s.taken q k) =
    (s.taken q k).underRegs k.taken fun s => if q = .store then runStore k.taken s else runHead q k.taken s := by
  have hr : ((s.taken q k).modT fun t => t.restoreTrav q k.num) = s.taken q k :=
    congrArg (fun t => s.modT fun _ => t) (restoreTrav_of_none h.settled)
  unfold runQueue
  rw [hr]

/-! ### Under the registers captured at routing (R147) -/

/-- The task under the FPEN that a command has captured. -/
def Task.routedBy (t : Task) (k : Cmd) : Task := { t with sys := { t.sys with fpen := k.sysr.headD t.sys.fpen } }

/-- Beside FPEN only the quotas of the context change. -/
theorem asRouted_eq (s : State) (k : Cmd) : s.asRouted k = { s.modT (·.routedBy k) with ctxs := (s.asRouted k).ctxs } := by
  unfold State.asRouted
  dsimp only
  split
  · split <;> rfl
  · rfl

@[simp] theorem asRouted_task (s : State) (k : Cmd) : (s.asRouted k).core.t = s.core.t.routedBy k := by rw [asRouted_eq]; rfl
@[simp] theorem asRouted_buf (s : State) (k : Cmd) : (s.asRouted k).core.buf = s.core.buf := by rw [asRouted_eq]; rfl
@[simp] theorem asRouted_mem (s : State) (k : Cmd) : (s.asRouted k).mem = s.mem := by rw [asRouted_eq]; rfl

/-- The queue's command as it stands when it performs. -/
theorem HeadReady.find_taken (h : HeadReady s q k) :
    ((((s.taken q k).asRouted k).core.t.q.get q).find? fun c => c.num = k.num) = some k.taken := by
  have hk : k ∈ s.core.t.q.get q := List.mem_of_find?_eq_some h.head
  have hq : ((s.taken q k).asRouted k).core.t.q.get q = (s.core.t.q.get q).map fun c => if c.num = k.num then c.taken else c := by
    rw [asRouted_task]; exact (Queues.get_set ..).trans (if_pos rfl)
  rw [hq, List.find?_map]
  have hf : ((fun c : Cmd => decide (c.num = k.num)) ∘ fun c => if c.num = k.num then c.taken else c) = fun c => decide (c.num = k.num) := by
    funext c; by_cases hc : c.num = k.num <;> simp [hc]
  rw [hf]
  cases hc : (s.core.t.q.get q).find? fun c => c.num = k.num with
  | none => exact absurd (List.find?_eq_none.1 hc k hk) (by simp)
  | some c =>
    have hn : c.num = k.num := by simpa using List.find?_some hc
    rw [h.alone c (List.mem_of_find?_eq_some hc) hn]
    simp

/-- The commands whose events at the queue head are their own: FARD and the vector programs. -/
def startsOwn : Instr → Bool
  | .fard .. | .vrun .. | .vruna .. => true
  | _ => false

/-- A forward command that reads no landing slot performs what its instruction does. -/
theorem performSlots_of_noSlot {u : State} (hk : k.kind = .fwd) (hm : meetsSlot u.core.t (readsOf k) = false) :
    performSlots k u = performFwd k u := by
  unfold performSlots perform
  simp [hm, hk]

/-- At a head of the load or the compute queue a forward command that reads no landing slot performs what its instruction does. -/
theorem runHead_eq {u : State} {c : Cmd} (hk : k.kind = .fwd) (hf : ((u.core.t.q.get q).find? fun c => c.num = k.num) = some c) (hc : c.kind = .fwd)
    (hi : startsOwn c.instr = false) (hm : meetsSlot u.core.t (readsOf c) = false) (ht : u.core.t.tile.opened = false) :
    runHead q k u = finishCmd q c (performFwd c u) := by
  have hp : needsPop k u = false := by simp [needsPop, hk]
  have hfull : tileFull c u = false := by simp [tileFull, Task.inTile, ht]
  have hperf : perform c u = performFwd c u := by simp [perform, hc]
  unfold runHead
  rw [hp, if_neg Bool.false_ne_true]
  dsimp only
  rw [hf, Option.getD_some, performSlots_of_noSlot hc hm, hperf, hfull, Bool.and_false, if_neg Bool.false_ne_true, ite_self]
  unfold startsOwn at hi
  split <;> simp_all

/-- At the head of the store queue, with no atomic about, a command that is none performs what its instruction does. -/
theorem runStore_eq {u : State} (hk : k.kind = .fwd) (ha : atomF? k.instr = none) (hc : chsendOf k.instr = none)
    (hs : ∀ c ∈ u.core.t.q.store, isAtomic c.instr = false) : runStore k u = settleCmd .store k (performFwd k u) := by
  have hq (c : Cmd) (h : isAtomic c.instr = false) : isQuantum c.instr = false := by
    unfold isQuantum
    split
    · next hi => simp [isAtomic, hi, atomF?] at h
    · rfl
  have hg : heldGroups u = [] := by
    have hn : (u.core.t.q.store.filter fun c => isQuantum c.instr && c.ph = 1 && !c.done && c.fault.isNone) = [] :=
      List.filter_eq_nil_iff.2 fun c hc => by simp [hq c (hs c hc)]
    unfold heldGroups
    rw [hn]
    rfl
  have he : (before u.core.t.q.store k).any (fun c => isAtomic c.instr && !c.done && c.ph = 2 && !isNord c.instr) = false :=
    List.any_eq_false.2 fun c hc => by simp [hs c ((List.takeWhile_sublist _).mem hc)]
  have hp : perform k u = performFwd k u := by simp [perform, hk]
  unfold runStore
  rw [ha]
  dsimp only
  rw [hg, he, hp]
  simp [hc]

/-- A command settles as its function leaves it but where it stops at a fault inside an open tile. -/
theorem finishCmd_eq {p : Prog} (h : (∃ c va l, p.stop = some (.fault c va l)) → p.s.core.t.tile.opened = false) :
    finishCmd q k p = settleCmd q k p := by
  unfold finishCmd
  split
  · next hp => rw [if_neg (by simp [Task.inTile, h ⟨_, _, _, hp⟩])]
  · rfl

/-- A command that everything lets issue, and that performs in the same step: no landing slot, no event of its own, no atomic about. -/
structure HeadPerforms (s : State) (q : QName) (k : Cmd) : Prop where
  ready : HeadReady s q k
  noSlot : meetsSlot s.core.t (readsOf k) = false
  own : startsOwn k.instr = false
  store : q = .store → atomF? k.instr = none ∧ chsendOf k.instr = none ∧ ∀ c ∈ s.core.t.q.store, isAtomic c.instr = false

/-- What the command's own function leaves, run under the registers captured at routing. -/
def headProg (s : State) (q : QName) (k : Cmd) : Prog := performFwd k.taken ((s.taken q k).asRouted k)

/-- It settles as its own function leaves it. -/
theorem HeadPerforms.exec_eq (h : HeadPerforms s q k)
    (ht : (∃ c va l, (headProg s q k).stop = some (.fault c va l)) → (headProg s q k).s.core.t.tile.opened = false) :
    exec (.queueHeadIssue q) s = .next ((settleCmd q k.taken (headProg s q k)).backFrom (s.taken q k)) := by
  have hk : k.kind = .fwd := h.ready.fwd.1
  rw [h.ready.exec_eq, h.ready.runQueue_eq]
  unfold State.underRegs
  congr 2
  change (if q = .store then runStore k.taken ((s.taken q k).asRouted k) else runHead q k.taken ((s.taken q k).asRouted k)) = _
  split
  · next hq =>
    subst hq
    obtain ⟨ha, hc, hs⟩ := h.store rfl
    refine runStore_eq hk ha hc fun c hc => ?_
    rw [asRouted_task] at hc
    obtain ⟨d, hd, rfl⟩ := List.mem_map.1 (show c ∈ (s.core.t.q.store.map _) from hc)
    have := hs d hd
    split <;> exact this
  · have hm : meetsSlot ((s.taken q k).asRouted k).core.t (readsOf k.taken) = false := by rw [asRouted_task]; exact h.noSlot
    rw [runHead_eq (k := k.taken) hk h.ready.find_taken hk h.own hm (by rw [asRouted_task]; exact h.ready.noTile.1)]
    exact finishCmd_eq ht

end

end Sys2Proof.Machine
end

section
/-! The registers captured at routing (R147), under which a command performs, and the way back from them. -/

namespace Sys2Proof.Machine

/-! ### Back from the registers captured at routing (R147) -/

theorem withLimit_self (x : Word) : withLimit x x = x := by
  unfold withLimit
  ext i hi
  rw [BitVec.getElem_append]
  split
  · simp [BitVec.getLsbD_eq_getElem hi]
  · next h => rw [BitVec.getElem_extractLsb', Nat.add_sub_cancel' (Nat.le_of_not_lt h), BitVec.getLsbD_eq_getElem hi]

theorem withLimit_withLimit (x h y : Word) : withLimit (withLimit x h) y = withLimit x y := by
  have hx : (withLimit x h).extractLsb' 24 40 = x.extractLsb' 24 40 := BitVec.extractLsb'_append_eq_left ..
  unfold withLimit at *
  rw [hx]

/-- The registers of a context with the limits of the quotas replaced. -/
def Ctx.limited (x : Ctx) (a b : Word) : Ctx := { x with qhbm := withLimit x.qhbm a, qcxl := withLimit x.qcxl b }

theorem Ctx.limited_self (x : Ctx) : x.limited x.qhbm x.qcxl = x := by simp [Ctx.limited, withLimit_self]

theorem Ctx.limited_limited (x : Ctx) (a b : Word) : (x.limited a b).limited x.qhbm x.qcxl = x := by
  simp [Ctx.limited, withLimit_withLimit, withLimit_self]

/-- The limits stand as they would be written. -/
theorem Ctx.limited_eq_iff (x : Ctx) (a b : Word) :
    (withLimit x.qhbm a = x.qhbm && withLimit x.qcxl b = x.qcxl) = true ↔ x.limited a b = x := by
  cases x
  simp [Ctx.limited]

section
variable {s v : State} {k : Cmd}

/-- What is put back: FPEN, and the limits of the quotas where they stand otherwise. -/
theorem backFrom_eq (v s : State) : v.backFrom s = { v.modY fun y => { y with fpen := s.core.t.sys.fpen } with ctxs := (v.backFrom s).ctxs } := by
  unfold State.backFrom
  dsimp only
  split <;> rfl

/-- The limits are written where they are not what they would be. -/
theorem backFrom_ctxs_eq (v s : State) : (v.backFrom s).ctxs =
    if v.cx.limited s.cx.qhbm s.cx.qcxl = v.cx then v.ctxs else Sparse.put Ctx.zero v.ctxs v.cid.toNat (v.cx.limited s.cx.qhbm s.cx.qcxl) := by
  unfold State.backFrom
  dsimp only
  split
  · next h => exact (if_pos ((Ctx.limited_eq_iff ..).1 h)).symm
  · next h => exact (if_neg fun hn => h ((Ctx.limited_eq_iff ..).2 hn)).symm

theorem asRouted_ctxs (s : State) (k : Cmd) :
    (s.asRouted k).ctxs = s.ctxs ∨ ∃ a b, (s.asRouted k).ctxs = Sparse.put Ctx.zero s.ctxs s.cid.toNat (s.cx.limited a b) := by
  unfold State.asRouted
  dsimp only
  split
  · split
    · exact .inl rfl
    · exact .inr ⟨_, _, rfl⟩
  · exact .inl rfl

/-- With the registers of the contexts as they stood, what a command has captured shows in FPEN alone. -/
theorem asRouted_modT_ctxs (s : State) (k : Cmd) (f : Task → Task) :
    ({ (s.asRouted k).modT f with ctxs := s.ctxs } : State) = s.modT fun t => f (t.routedBy k) := by
  rw [asRouted_eq]
  rfl

/-- The registers of the contexts come back as they stood, where nothing else has changed them. -/
theorem backFrom_ctxs (h : Sparse.wf Ctx.zero s.ctxs = true) (hc : v.ctxs = (s.asRouted k).ctxs) (hid : v.cid = s.cid) :
    (v.backFrom s).ctxs = s.ctxs := by
  have hcx : v.cx = Sparse.get Ctx.zero v.ctxs s.cid.toNat := by rw [← hid]; rfl
  have hsx : s.cx = Sparse.get Ctx.zero s.ctxs s.cid.toNat := rfl
  rw [backFrom_ctxs_eq, hid]
  obtain hr | ⟨a, b, hr⟩ := asRouted_ctxs s k
  · have hv : v.cx = s.cx := by rw [hcx, hc, hr, hsx]
    rw [hv, if_pos (Ctx.limited_self _), hc, hr]
  · have hv : v.cx = s.cx.limited a b := by rw [hcx, hc, hr, Sparse.get_put_same _ _ _ h]
    rw [hv, Ctx.limited_limited, hc, hr]
    split
    · next he => rw [← he, hsx, Sparse.put_get h]
    · exact (congrArg (Sparse.put _ _ _) hsx).trans (Sparse.put_put_get h ..)

end

/-! ### Where a command's effect is one on the task -/

section
variable {s : State} {q : QName} {k : Cmd} {f : Task → Task} 

/-- An update of a task that neither reads nor writes its queues, its tokens or FPEN, and leaves its identity. -/
structure TaskOnly (f : Task → Task) : Prop where
  comm : ∀ t qs tk fp, f { t with q := qs, toks := tk, sys := { t.sys with fpen := fp } } =
    { f t with q := qs, toks := tk, sys := { (f t).sys with fpen := fp } }
  sameId : ∀ t, (f t).id = t.id

/-- A task with FPEN as given, and with a command's entry as it becomes. -/
def Task.withFpen (t : Task) (fp : Word) : Task := { t with sys := { t.sys with fpen := fp } }
def Task.endCmd (t : Task) (q : QName) (num : Word) (g : Cmd → Cmd) : Task :=
  { t with q := t.q.set q ((t.q.get q).map fun c => if c.num = num then g c else c) }

/-- An effect on the task alone, between the pops and the end of the command. -/
theorem TaskOnly.endCmd_eq (hf : TaskOnly f) (g : Cmd → Cmd) (t : Task) (tk : Tokens) :
    ((f (({ t.endCmd q k.num Cmd.taken with toks := tk } : Task).routedBy k)).endCmd q k.num g).withFpen t.sys.fpen =
    { f t with toks := tk, q := t.q.set q ((t.q.get q).map fun c => if c.num = k.num then (g ∘ Cmd.taken) c else c) } := by
  have h0 : f t = { f t with q := t.q, toks := t.toks, sys := { (f t).sys with fpen := t.sys.fpen } } := hf.comm t t.q t.toks t.sys.fpen
  have h1 : f (({ t.endCmd q k.num Cmd.taken with toks := tk } : Task).routedBy k) =
      { f t with q := (t.endCmd q k.num Cmd.taken).q, toks := tk, sys := { (f t).sys with fpen := k.sysr.headD t.sys.fpen } } := hf.comm t ..
  have hq : (t.endCmd q k.num Cmd.taken).q.set q (((t.endCmd q k.num Cmd.taken).q.get q).map fun c => if c.num = k.num then g c else c) =
      t.q.set q ((t.q.get q).map fun c => if c.num = k.num then (g ∘ Cmd.taken) c else c) := by
    have hm : ((t.q.get q).map fun c => if c.num = k.num then c.taken else c).map (fun c => if c.num = k.num then g c else c) =
        (t.q.get q).map fun c => if c.num = k.num then (g ∘ Cmd.taken) c else c := by
      rw [List.map_map]
      refine List.map_congr_left fun c _ => ?_
      by_cases hc : c.num = k.num <;> simp [hc]
    rw [← hm]
    cases q <;> rfl
  rw [h1]
  exact congrArg₂ (fun a (b : TaskSys) => ({ f t with toks := tk, q := a, sys := b } : Task)) hq (congrArg Task.sys h0).symm

/-- The state that such an effect leaves once the registers are back. -/
theorem backFrom_modT (hs : Sparse.wf Ctx.zero s.ctxs = true) (hf : TaskOnly f) (g : Cmd → Cmd) :
    ((((s.taken q k).asRouted k).modT f).modCmd q k.num g).backFrom (s.taken q k) = headEnd s q k f (g ∘ Cmd.taken) := by
  have hid : ((((s.taken q k).asRouted k).modT f).modCmd q k.num g).cid = (s.taken q k).cid := by
    change (f ((s.taken q k).asRouted k).core.t).id.ctx = _
    rw [hf.sameId, asRouted_task]; rfl
  have hc : (((((s.taken q k).asRouted k).modT f).modCmd q k.num g).backFrom (s.taken q k)).ctxs = s.ctxs :=
    backFrom_ctxs (s := s.taken q k) (k := k) hs rfl hid
  have hw : ((((s.taken q k).asRouted k).modT f).modCmd q k.num g).modY (fun y => { y with fpen := s.core.t.sys.fpen }) =
      ((s.taken q k).asRouted k).modT fun t => ((f t).endCmd q k.num g).withFpen s.core.t.sys.fpen := rfl
  rw [backFrom_eq, hc]
  change ({ ((((s.taken q k).asRouted k).modT f).modCmd q k.num g).modY (fun y => { y with fpen := s.core.t.sys.fpen }) with
    ctxs := (s.taken q k).ctxs } : State) = _
  rw [hw, asRouted_modT_ctxs]
  exact congrArg (fun t => s.modT fun _ => t) (hf.endCmd_eq g s.core.t _)

theorem TaskOnly.unchanged : TaskOnly id := ⟨fun _ _ _ _ => rfl, fun _ => rfl⟩

/-- A command that ends has its effect on the task, and is done. -/
theorem HeadPerforms.exec_done (h : HeadPerforms s q k) (hm : s.MemOk) (hf : TaskOnly f)
    (hp : headProg s q k = .ok (((s.taken q k).asRouted k).modT f) 0) : exec (.queueHeadIssue q) s = .next (headEnd s q k f doneCmd) := by
  rw [h.exec_eq (by rw [hp]; rintro ⟨c, va, l, he⟩; cases he), hp]
  exact congrArg _ (backFrom_modT hm.2.2 hf fun c => { c with upc := 0, got := [], done := true, status := 0 })

/-- What a command that has stopped at its first element becomes. -/
def faultedBy (q : QName) (k : Cmd) (code : BitVec 8) (c : Cmd) : Cmd :=
  { c with upc := 0, got := [], fault := some ⟨code, cmdUnit q k.instr, 0, k.num, none, 0, 0⟩ }

theorem settleCmd_stopped {u : State} {c : BitVec 8} :
    settleCmd q k { Prog.ok u 0 with stop := some (.fault c none 0) } = (u.modT id).modCmd q k.num (faultedBy q k c) := rfl

/-- A command that stops at its first element has no effect, and stands at its fault. -/
theorem HeadPerforms.exec_stopped {c : BitVec 8} (h : HeadPerforms s q k) (hm : s.MemOk)
    (hp : headProg s q k = { Prog.ok ((s.taken q k).asRouted k) 0 with stop := some (.fault c none 0) }) :
    exec (.queueHeadIssue q) s = .next (headEnd s q k id (stoppedCmd q c)) := by
  have hu : (headProg s q k).s = (s.taken q k).asRouted k := congrArg Prog.s hp
  rw [h.exec_eq fun _ => by rw [hu, asRouted_task]; exact h.ready.noTile.1, hp, settleCmd_stopped]
  refine congrArg Host.Outcome.next ((backFrom_modT hm.2.2 .unchanged (faultedBy q k c)).trans ?_)
  have hl : ((s.core.t.q.get q).map fun d => if d.num = k.num then (faultedBy q k c ∘ Cmd.taken) d else d) =
      (s.core.t.q.get q).map fun d => if d.num = k.num then stoppedCmd q c d else d := by
    refine List.map_congr_left fun d hd => ?_
    split
    · next hn => rw [h.ready.alone d hd hn]; rfl
    · rfl
  unfold headEnd
  exact congrArg (fun l => s.modT fun t => { t with toks := t.toks.pop q k.tok, q := t.q.set q l }) hl

end

end Sys2Proof.Machine
end

section
/-! What QUEUE_HEAD_ISSUE does (O42): where the queue stands, and what each command does to the task. -/

namespace Sys2Proof.Machine

/-! ### The queue stands -/

section
variable {s : State} {q : QName} {k : Cmd}

theorem queueHeadIssue_stopped (hr : enginesRun s = false) (ho : s.runsOut q = false) : exec (.queueHeadIssue q) s = .next s :=
  congrArg Host.Outcome.next (if_pos (by rw [hr, ho]; rfl))

theorem queueHeadIssue_empty (h : headOf s.core.t q = none) : exec (.queueHeadIssue q) s = .next s := by
  change Host.Outcome.next _ = _
  rw [h]
  exact congrArg Host.Outcome.next (ite_self _)

/-- A command that has to wait for its checker or its pops, and is no speculative atomic, does not issue (R16, R20). -/
theorem queueHeadIssue_waits (h : headOf s.core.t q = some k) (hi : k.issued = false)
    (hw : k.compared = false ∨ s.core.t.toks.canPop q k.tok = false) (hs : isSpec k.instr = false) : exec (.queueHeadIssue q) s = .next s := by
  have hp : takePops q k s = none := by
    unfold takePops
    rw [hi, if_neg Bool.false_ne_true]
    obtain hc | hc := hw
    · simp [hc]
    · simp [hc]
  have he : specEarly q k s = false := by simp [specEarly, hs]
  change Host.Outcome.next _ = _
  rw [h]
  dsimp only
  rw [hp]
  dsimp only
  rw [he, if_neg Bool.false_ne_true, ite_self, ite_self]

end

/-! ### What the commands of O42 do to the task -/

section
variable {s : State} {q : QName} {k : Cmd}

/-- A compute command with no descriptor operand in AB reads no landing slot. -/
theorem HeadReady.performs (h : HeadReady s q k) (hq : q ≠ .store) (hr : readsOf k = []) (hi : startsOwn k.instr = false) : HeadPerforms s q k :=
  ⟨h, by rw [hr]; exact List.any_eq_false.2 fun _ _ => Bool.false_ne_true, hi, fun h => absurd h hq⟩

/-- A level's extent and strides are set, the other levels staying (R161). -/
theorem setLevel_fields {t : Traverse} {l : Fin 6} {a : Word} {ss ds : BitVec 32} (h1 : 1 ≤ a.toNat) (h2 : a.toNat ≤ 2 ^ 24) :
    ∃ T : Traverse, t.setLevel l.val a ss ds = some T ∧ T.n[l] = a.setWidth 32 ∧ T.ss[l] = ss ∧ T.ds[l] = ds ∧
      T.o = t.o ∧ T.b = t.b ∧ T.mode = t.mode ∧
      ∀ m : Fin 6, m ≠ l → T.n[m] = t.n[m] ∧ T.ss[m] = t.ss[m] ∧ T.ds[m] = t.ds[m] := by
  have ha : ¬ a = 0 := by rintro rfl; simp at h1
  refine ⟨{ t with n := t.n.set l.val (a.setWidth 32), ss := t.ss.set l.val ss, ds := t.ds.set l.val ds }, ?_, ?_⟩
  · unfold Traverse.setLevel
    rw [dif_pos l.isLt, if_neg (by simp only [Bool.or_eq_true, decide_eq_true_eq, not_or]; exact ⟨ha, Nat.not_lt.2 h2⟩)]
  · refine ⟨by simp, by simp, by simp, rfl, rfl, rfl, fun m hm => ?_⟩
    have hne : l.val ≠ m.val := fun h => hm (Fin.ext h.symm)
    simp [Vector.getElem_set_ne, hne]

theorem setLevel_none {t : Traverse} {l : Nat} {a : Word} {ss ds : BitVec 32} (h : a = 0 ∨ 2 ^ 24 < a.toNat) : t.setLevel l a ss ds = none := by
  unfold Traverse.setLevel
  split
  · exact if_pos (by simpa using h)
  · rfl

theorem HeadReady.trvlIn {tk : Tok} {l : Fin 6} {ra : Reg} {ss ds : BitVec 32} {a : Word} (h : HeadReady s .load k) (hm : s.MemOk)
    (hi : k.instr = .trvlIn tk (BitVec.ofNat 3 l.val) ra ss ds) (hv : k.vals = [a]) :
    (∀ T, s.core.t.tin.setLevel l.val a ss ds = some T →
      exec (.queueHeadIssue .load) s = .next (headEnd s .load k (fun t => { t with tin := T }) doneCmd)) ∧
    (s.core.t.tin.setLevel l.val a ss ds = none → exec (.queueHeadIssue .load) s = .next (headEnd s .load k id (stoppedCmd .load cILLOP))) := by
  have hp := h.performs (by simp) (by simp [readsOf, h.fwd.1, hi]) (by rw [hi]; rfl)
  have hl : (BitVec.ofNat 3 l.val).toNat = l.val := by simp; omega
  have hg : headProg s .load k = runTrvl false l.val a ss ds ((s.taken .load k).asRouted k) := by
    unfold headProg performFwd
    simp [hi, Cmd.v, hv, hl]
  have ht : ((s.taken .load k).asRouted k).core.t.tin = s.core.t.tin := by rw [asRouted_task]; rfl
  refine ⟨fun T hT => hp.exec_done hm ⟨fun _ _ _ _ => rfl, fun _ => rfl⟩ ?_, fun hT => hp.exec_stopped hm ?_⟩
  all_goals
    rw [hg]
    unfold runTrvl
    simp only [Bool.false_eq_true, if_false, ht, hT]

/-- A command whose function makes one update of the task. -/
theorem HeadReady.exec_task {f : Task → Task} (h : HeadReady s q k) (hm : s.MemOk) (hq : q ≠ .store) (hr : readsOf k = [])
    (hi : startsOwn k.instr = false) (hf : TaskOnly f) (hp : ∀ u, performFwd k.taken u = .ok (u.modT f) 0) :
    exec (.queueHeadIssue q) s = .next (headEnd s q k f doneCmd) :=
  (h.performs hq hr hi).exec_done hm hf (hp _)

theorem HeadReady.trvsIn {tk : Tok} {m : OobMode} {ra rb rc : Reg} {b : Bounds} {x y z : Word} (h : HeadReady s .load k) (hm : s.MemOk)
    (hi : k.instr = .trvsIn tk m ra rb rc b) (hv : k.vals = [x, y, z]) :
    exec (.queueHeadIssue .load) s = .next (headEnd s .load k (fun t => { t with tin := { t.tin with
      mode := m, b := #v[b.b0, b.b1, b.b2, b.b3, b.b4, b.b5],
      o := #v[x.setWidth 32, x.extractLsb' 32 32, y.setWidth 32, y.extractLsb' 32 32, z.setWidth 32, z.extractLsb' 32 32] } }) doneCmd) := by
  refine h.exec_task hm (by simp) (by simp [readsOf, h.fwd.1, hi]) (by rw [hi]; rfl) ⟨fun _ _ _ _ => rfl, fun _ => rfl⟩ fun u => ?_
  unfold performFwd
  simp [hi, Cmd.v, hv, runTrvs, Traverse.setShape, BitVec.setWidth_eq_extractLsb']

theorem HeadReady.retag {tk : Tok} {v : Reg} {tag : FTag} (h : HeadReady s .compute k) (hm : s.MemOk) (hi : k.instr = .retag tk v tag) :
    exec (.queueHeadIssue .compute) s = .next (headEnd s .compute k
      (fun t => { t with regs := { t.regs with v := t.regs.v.set v.toNat { t.regs.v[v.toNat] with tag := tag } } }) doneCmd) := by
  refine h.exec_task hm (by simp) (by simp [readsOf, h.fwd.1, hi]) (by rw [hi]; rfl) ⟨fun _ _ _ _ => rfl, fun _ => rfl⟩ fun u => ?_
  unfold performFwd
  rw [show k.taken.instr = .retag tk v tag from hi]
  rfl

theorem HeadReady.wgrp {tk : Tok} {a : Bool} {n : BitVec 7} (h : HeadReady s .compute k) (hm : s.MemOk) (hi : k.instr = .wgrp tk a n) :
    exec (.queueHeadIssue .compute) s = .next (headEnd s .compute k
      (fun t => if a then { t with acc1 := { t.acc1 with asx := n } } else { t with acc0 := { t.acc0 with asx := n } }) doneCmd) := by
  refine h.exec_task hm (by simp) (by simp [readsOf, h.fwd.1, hi]) (by rw [hi]; rfl) ?_ fun u => ?_
  · cases a <;> exact ⟨fun _ _ _ _ => rfl, fun _ => rfl⟩
  · unfold performFwd
    rw [show k.taken.instr = .wgrp tk a n from hi]
    rfl

theorem HeadReady.mzero {tk : Tok} {a : Bool} (h : HeadReady s .compute k) (hm : s.MemOk) (hi : k.instr = .mzero tk a) :
    let zero (x : Accum) : Accum := { x with work := [], wpois := [], wtag := 0x000B, chk := ⟨true, [], [], [], [], false, 0, 0⟩ }
    exec (.queueHeadIssue .compute) s = .next (headEnd s .compute k
      (fun t => if a then { t with acc1 := zero t.acc1 } else { t with acc0 := zero t.acc0 }) doneCmd) := by
  refine h.exec_task hm (by simp) (by simp [readsOf, h.fwd.1, hi]) (by rw [hi]; rfl) ?_ fun u => ?_
  · cases a <;> exact ⟨fun _ _ _ _ => rfl, fun _ => rfl⟩
  · unfold performFwd
    rw [show k.taken.instr = .mzero tk a from hi]
    rfl

/-- Bytes at an even offset of spill memory replace no whole word: no mark goes. -/
theorem spillPut_two {u : State} {off : Nat} {bs : List Byte} (h : off % 2 = 0) (hb : bs.length = 2) :
    u.spillPut off bs = u.modT fun t => { t with spill := writeBytes t.spill off bs } := by
  have hf (l : List Nat) : (l.filter fun w => w < (off + 7) / 8 || (off + bs.length) / 8 ≤ w) = l := by
    refine List.filter_eq_self.2 fun w _ => ?_
    simp only [hb, Bool.or_eq_true, decide_eq_true_eq]
    omega
  unfold State.spillPut
  simp only [hf]

theorem HeadReady.tagget {tk : Tok} {v : Reg} {off : BitVec 14} (h : HeadReady s .compute k) (hm : s.MemOk) (hi : k.instr = .tagget tk v off) :
    (off.toNat % 2 = 0 → exec (.queueHeadIssue .compute) s = .next (headEnd s .compute k
      (fun t => { t with spill := writeBytes t.spill off.toNat (leBytes 2 t.regs.v[v.toNat].tag.toNat) }) doneCmd)) ∧
    (off.toNat % 2 = 1 → exec (.queueHeadIssue .compute) s = .next (headEnd s .compute k id (stoppedCmd .compute cALIGN))) := by
  have hr : readsOf k = [] := by simp [readsOf, h.fwd.1, hi]
  have hp (u : State) : performFwd k.taken u = runTagget v off u := by
    unfold performFwd
    rw [show k.taken.instr = .tagget tk v off from hi]
  refine ⟨fun he => h.exec_task hm (by simp) hr (by rw [hi]; rfl) ⟨fun _ _ _ _ => rfl, fun _ => rfl⟩ fun u => ?_,
    fun ho => (h.performs (by simp) hr (by rw [hi]; rfl)).exec_stopped hm ?_⟩
  · rw [hp]
    unfold runTagget
    simp only [he]
    change Prog.ok (u.spillPut ..) 0 = _
    rw [spillPut_two he (by simp [leBytes])]
    rfl
  · unfold headProg
    rw [hp]
    unfold runTagget
    simp only [ho]
    rfl

/-- Two tags agree in their low bits. -/
theorem lowBits_eq_iff (a b : FTag) (n : Nat) (m : FTag) (hm : m.toNat = 2 ^ n - 1) :
    ((a ^^^ b) &&& m != 0) = false ↔ a.toNat % 2 ^ n = b.toNat % 2 ^ n := by
  rw [bne_eq_false_iff_eq, ← BitVec.toNat_inj, BitVec.toNat_and, BitVec.toNat_xor, hm, Nat.and_two_pow_sub_one_eq_mod, Nat.xor_mod_two_pow]
  exact Nat.xor_eq_zero_iff

theorem HeadReady.tagchk {tk : Tok} {noexp : Bool} {v : Reg} {tag : FTag} (h : HeadReady s .compute k) (hm : s.MemOk)
    (hi : k.instr = .tagchk tk noexp (.v v) tag) :
    let bits : Nat := if noexp then 11 else 16
    ((s.V v).tag.toNat % 2 ^ bits = tag.toNat % 2 ^ bits → exec (.queueHeadIssue .compute) s = .next (headEnd s .compute k id doneCmd)) ∧
    ((s.V v).tag.toNat % 2 ^ bits ≠ tag.toNat % 2 ^ bits →
      exec (.queueHeadIssue .compute) s = .next (headEnd s .compute k id (stoppedCmd .compute cTAGMIS))) := by
  intro bits
  have hr : readsOf k = [] := by simp [readsOf, h.fwd.1, hi]
  have hp := h.performs (by simp) hr (by rw [hi]; rfl)
  have hv : ((s.taken .compute k).asRouted k).V v = s.V v := by unfold State.V; rw [asRouted_task]; rfl
  have hg : headProg s .compute k =
      whole (efailIf (((s.V v).tag ^^^ tag) &&& (if noexp then 0x07FF else 0xFFFF) != 0) cTAGMIS) ((s.taken .compute k).asRouted k) := by
    rw [← hv]
    unfold headProg performFwd
    rw [show k.taken.instr = .tagchk tk noexp (.v v) tag from hi]
    rfl
  have hb : (((s.V v).tag ^^^ tag) &&& (if noexp then 0x07FF else 0xFFFF) != 0) = false ↔ (s.V v).tag.toNat % 2 ^ bits = tag.toNat % 2 ^ bits :=
    lowBits_eq_iff _ _ bits _ (by unfold bits; cases noexp <;> rfl)
  refine ⟨fun he => hp.exec_done hm .unchanged ?_, fun he => hp.exec_stopped hm ?_⟩
  · rw [hg, hb.2 he]; rfl
  · rw [hg, Bool.eq_true_of_not_eq_false (mt hb.1 he)]; rfl

theorem HeadReady.mtm {tk : Tok} (h : HeadReady s .compute k) (hm : s.MemOk) (hi : k.instr = .mtm tk)
    (hd : ∀ c ∈ s.core.t.q.compute, isArray c.instr = true → c.num.toNat < k.num.toNat → c.pushed = true) :
    exec (.queueHeadIssue .compute) s =
      .next (headEnd s .compute k (fun t => { t with tile := ⟨true, k.num, false, 0, t.acc0, t.acc1⟩ }) doneCmd) := by
  have hp := h.performs (by simp) (by simp [readsOf, h.fwd.1, hi]) (by rw [hi]; rfl)
  have hw : (((s.taken .compute k).asRouted k).core.t.q.compute.any fun c => isArray c.instr && c.num.toNat < k.num.toNat && !c.pushed) = false := by
    refine List.any_eq_false.2 fun c hc => ?_
    rw [asRouted_task] at hc
    obtain ⟨e, he, rfl⟩ := List.mem_map.1 (show c ∈ s.core.t.q.compute.map _ from hc)
    have hd' := hd e he
    split <;> simp <;> exact hd'
  have ho : ((s.taken .compute k).asRouted k).core.t.tile.opened = false := by rw [asRouted_task]; exact h.noTile.1
  refine hp.exec_done hm ⟨fun _ _ _ _ => rfl, fun _ => rfl⟩ ?_
  unfold headProg performFwd
  rw [show k.taken.instr = .mtm tk from hi]
  change runMtm k.taken _ = _
  unfold runMtm
  rw [ho, if_neg Bool.false_ne_true, hw, if_neg Bool.false_ne_true]

theorem HeadReady.mte {tk : Tok} (h : HeadReady s .compute k) (hm : s.MemOk) (hi : k.instr = .mte tk) :
    exec (.queueHeadIssue .compute) s = .next (headEnd s .compute k id (stoppedCmd .compute cILLOP)) := by
  have ho : ((s.taken .compute k).asRouted k).core.t.tile.opened = false := by rw [asRouted_task]; exact h.noTile.1
  refine (h.performs (by simp) (by simp [readsOf, h.fwd.1, hi]) (by rw [hi]; rfl)).exec_stopped hm ?_
  unfold headProg performFwd
  rw [show k.taken.instr = .mte tk from hi]
  change runMte _ = _
  unfold runMte
  rw [ho, if_neg Bool.false_ne_true]

end

/-- Settles O42: the command at the head takes its pops and performs, and each of these commands performs one update of the task. -/
theorem queueHeadIssue : Obligations.QueueHeadIssue := by
  unfold Obligations.QueueHeadIssue
  intro s q k issued
  refine ⟨queueHeadIssue_stopped, queueHeadIssue_empty, queueHeadIssue_waits, fun h hm => ⟨?_, ?_, ?_, ?_, ?_, ?_, ?_, ?_, ?_⟩⟩
  · rintro tk l ra ss ds a rfl hi hv
    obtain ⟨hsome, hnone⟩ := h.trvlIn hm hi hv
    refine ⟨fun h1 h2 => ?_, fun ha => hnone (setLevel_none ha)⟩
    obtain ⟨T, hT, hrest⟩ := setLevel_fields h1 h2
    exact ⟨T, hsome T hT, hrest⟩
  · rintro tk m ra rb rc b x y z rfl hi hv
    exact h.trvsIn hm hi hv
  · rintro tk v tag rfl hi
    exact h.retag hm hi
  · rintro tk v off rfl hi
    exact h.tagget hm hi
  · rintro tk noexp v tag rfl hi
    exact h.tagchk hm hi
  · rintro tk a rfl hi
    exact h.mzero hm hi
  · rintro tk a n rfl hi
    exact h.wgrp hm hi
  · rintro tk rfl hi hd
    exact h.mtm hm hi hd
  · rintro tk rfl hi
    exact h.mte hm hi

end Sys2Proof.Machine
end

section
/-! What a piece of an engine command reads and leaves, a run element by element, and class 4 (O46). -/

namespace Sys2Proof.Machine

/-! ### Pieces of engine commands that succeed -/

section
variable {α β : Type}

/-- A piece that succeeds gives v of the state, and leaves it. -/
def Reads (m : E α) (v : State → α) : Prop := ∀ s a t, m s = .ok (a, t) → a = v s ∧ t = s

/-- A piece that succeeds leaves g of the state. -/
def Leaves (m : E α) (g : State → State) : Prop := ∀ s a t, m s = .ok (a, t) → t = g s

theorem eBind_ok {m : E α} {f : α → E β} {s t : State} {b : β} (h : (m >>= f) s = .ok (b, t)) :
    ∃ a u, m s = .ok (a, u) ∧ f a u = .ok (b, t) := by
  simp only [bind, StateT.bind, Except.bind] at h
  split at h
  · cases h
  · next x hx => exact ⟨x.1, x.2, hx, h⟩

namespace Reads

theorem pure (a : α) : Reads (pure a : E α) fun _ => a := by rintro s _ _ ⟨⟩; exact ⟨rfl, rfl⟩

theorem bind {m : E α} {f : α → E β} {v : State → α} {w : α → State → β} (hm : Reads m v) (hf : ∀ a, Reads (f a) (w a)) :
    Reads (m >>= f) fun s => w (v s) s := by
  intro s b t h
  obtain ⟨a, u, h1, h2⟩ := eBind_ok h
  obtain ⟨rfl, rfl⟩ := hm _ _ _ h1
  exact hf _ _ _ _ h2

theorem enow : Reads enow id := by rintro s _ _ ⟨⟩; exact ⟨rfl, rfl⟩

theorem efailIf (b : Bool) (c : BitVec 8) : Reads (efailIf b c) fun _ => () := by
  unfold Machine.efailIf
  intro s a t h
  split at h
  · cases h
  · cases h; exact ⟨rfl, rfl⟩

theorem echeck (o : Option (BitVec 8)) : Reads (echeck o) fun _ => () := by
  cases o with
  | none => exact pure _
  | some c => rintro s _ _ ⟨⟩

theorem topBlkop (k : Cmd) (l : List (Nat × Nat)) : Reads (topBlkop k l) fun _ => () := bind enow fun _ => efailIf _ _

theorem eElem (d : Desc) (r c : Nat) : Reads (eElem d r c) fun s => s.core.buf.elem d r c :=
  bind enow fun _ => bind (efailIf _ _) fun _ => bind (efailIf _ _) fun _ => pure _

theorem eBytes (sp off n : Nat) : Reads (eBytes sp off n) fun s => s.core.buf.read sp off n :=
  bind enow fun _ => bind (efailIf _ _) fun _ => bind (efailIf _ _) fun _ => pure _

theorem eVal (d : Desc) (r c : Nat) : Reads (eVal d r c) fun s => s.core.buf.val d r c := by
  unfold Machine.eVal Buffers.val
  cases hw : isWeight (dFmt d) with
  | true => simpa using bind (eElem d r c) fun x => bind (eBytes _ _ 2) fun sc => pure (weightVal (dFmt d) x (leNat sc))
  | false => simpa using bind (eElem d r c) fun x => pure (elemVal (dFmt d) x, (0 : FFlags))

theorem congr {m : E α} {v w : State → α} (hm : Reads m v) (h : ∀ s, v s = w s) : Reads m w := (funext h : v = w) ▸ hm

theorem leaves {m : E α} {v : State → α} (h : Reads m v) : Leaves m id := fun s a t hs => (h s a t hs).2

end Reads

namespace Leaves

theorem pure (a : α) : Leaves (pure a : E α) id := (Reads.pure a).leaves

theorem eupd (g : State → State) : Leaves (eupd g) g := by rintro s _ _ ⟨⟩; rfl

/-- What follows a read leaves what it leaves for the value read. -/
theorem read {m : E α} {f : α → E β} {v : State → α} {g : α → State → State} (hm : Reads m v) (hf : ∀ a, Leaves (f a) (g a)) :
    Leaves (m >>= f) fun s => g (v s) s := by
  intro s b t h
  obtain ⟨a, u, h1, h2⟩ := eBind_ok h
  obtain ⟨rfl, rfl⟩ := hm _ _ _ h1
  exact hf _ _ _ _ h2

theorem seq {m : E α} {f : α → E β} {g h : State → State} (hm : Leaves m g) (hf : ∀ a, Leaves (f a) h) : Leaves (m >>= f) (h ∘ g) := by
  intro s b t hs
  obtain ⟨a, u, h1, h2⟩ := eBind_ok hs
  rw [hf _ _ _ _ h2, hm _ _ _ h1]
  rfl

/-- A piece that leaves the state, then another. -/
theorem after {m : E α} {f : α → E β} {g : State → State} (hm : Leaves m id) (hf : ∀ a, Leaves (f a) g) : Leaves (m >>= f) g := seq hm hf

/-- A piece, then one that leaves the state. -/
theorem ret {m : E α} {f : α → E β} {g : State → State} (hm : Leaves m g) (hf : ∀ a, Leaves (f a) id) : Leaves (m >>= f) g :=
  show Leaves (m >>= f) (id ∘ g) from seq hm hf

theorem congr {m : E α} {g h : State → State} (hm : Leaves m g) (hg : ∀ s, g s = h s) : Leaves m h := fun s a t hs => (hm s a t hs).trans (hg s)

end Leaves

/-- A piece that succeeds updates the buffers alone. -/
def Puts (m : E α) (g : Buffers → Buffers) : Prop := Leaves m (·.modB g)

/-- A piece that succeeds gives v of the buffers, and leaves the state. -/
abbrev ReadsB (m : E α) (v : Buffers → α) : Prop := Reads m fun s => v s.core.buf

namespace Puts

theorem pure (a : α) : Puts (pure a : E α) id := Leaves.pure a

theorem modB (g : Buffers → Buffers) : Puts (eupd fun s => s.modB g) g := .eupd _

/-- What follows a read puts what it puts for the value read. -/
theorem read {m : E α} {f : α → E β} {v : Buffers → α} {g : α → Buffers → Buffers} (hm : ReadsB m v) (hf : ∀ a, Puts (f a) (g a)) :
    Puts (m >>= f) fun b => g (v b) b := Leaves.read hm hf

theorem seq {m : E α} {f : α → E β} {g h : Buffers → Buffers} (hm : Puts m g) (hf : ∀ a, Puts (f a) h) : Puts (m >>= f) fun b => h (g b) :=
  Leaves.seq hm hf

theorem ret {m : E α} {f : α → E β} {g : Buffers → Buffers} (hm : Puts m g) (hf : ∀ a, Puts (f a) id) : Puts (m >>= f) g :=
  show Puts (m >>= f) fun b => id (g b) from seq hm hf

theorem congr {m : E α} {g h : Buffers → Buffers} (hm : Puts m g) (hg : ∀ b, g b = h b) : Puts m h := (funext hg : g = h) ▸ hm

theorem ePut (d : Desc) (r c x : Nat) : Puts (ePut d r c x) fun b => b.putElem d r c x := .modB _

end Puts
end

/-! ### Elements in turn -/

section
variable {s t u : State} {g : FGroup} {body : Nat → E FFlags} {n j total : Nat} {chk : E Unit} {b c : Buffers}

theorem onlyBuf.refl (s : State) : onlyBuf s s s.core.buf := rfl

theorem onlyBuf.buf (h : onlyBuf s t b) : t.core.buf = b := by rw [h]; rfl

theorem onlyBuf.trans (h : onlyBuf s t b) (h' : onlyBuf t u c) : onlyBuf s u c := by
  unfold onlyBuf at *
  rw [h', h]
  rfl

theorem onlyBuf.modB (s : State) (f : Buffers → Buffers) : onlyBuf s (s.modB f) (f s.core.buf) := rfl

theorem onlyBuf.orFlags (s : State) (g : FGroup) (f : FFlags) : onlyBuf s (s.orFlags g f) s.core.buf := rfl

/-- The first element of a run that does not stop, and the rest of it. -/
theorem elems_succ (h : (elems g body (n + 1) j s).stop = none) :
    ∃ f v, body j s = .ok (f, v) ∧ elems g body (n + 1) j s = elems g body n (j + 1) (v.orFlags g f) := by
  rw [elems] at h ⊢
  split at h
  · cases h
  · next f v hb =>
    dsimp only at h ⊢
    split at h
    · cases h
    · next hn => exact ⟨f, v, hb, if_neg hn⟩

/-- A run of elements each of which updates the buffers alone. -/
theorem elems_onlyBuf {F : Nat → Buffers → Buffers} (hb : ∀ i, Puts (body i) (F i)) (h : (elems g body n j s).stop = none) :
    onlyBuf s (elems g body n j s).s ((List.range n).foldl (fun b i => F (j + i) b) s.core.buf) := by
  induction n generalizing s j with
  | zero => exact .refl s
  | succ n ih =>
    obtain ⟨f, v, hf, he⟩ := elems_succ h
    rw [he] at h ⊢
    have hv : v = s.modB (F j) := hb j s f v hf
    have h1 : onlyBuf s (v.orFlags g f) (F j s.core.buf) := by rw [hv]; exact (onlyBuf.modB s _).trans (.orFlags ..)
    have h2 := h1.trans (ih h)
    rw [h1.buf] at h2
    rw [List.range_succ_eq_map, List.foldl_cons, List.foldl_map]
    simpa only [Nat.add_succ, Nat.succ_add, Nat.add_zero] using h2

/-- A run that does not stop has passed its checks. -/
theorem checkedElems_ok (h : (checkedElems g chk total 0 body s).stop = none) :
    ∃ v, chk s = .ok ((), v) ∧ checkedElems g chk total 0 body s = elems g body total 0 v := by
  unfold checkedElems at h ⊢
  split at h
  · cases h
  · next v hv => exact ⟨v, hv, rfl⟩

theorem checkedElems_onlyBuf {F : Nat → Buffers → Buffers} (hc : Leaves chk id) (hb : ∀ i, Puts (body i) (F i))
    (h : (checkedElems g chk total 0 body s).stop = none) :
    onlyBuf s (checkedElems g chk total 0 body s).s ((List.range total).foldl (fun b i => F i b) s.core.buf) := by
  obtain ⟨v, hv, he⟩ := checkedElems_ok h
  obtain rfl : v = s := hc _ _ _ hv
  rw [he] at h ⊢
  simpa only [Nat.zero_add] using elems_onlyBuf hb h

end

/-! ### Class 4 (R77, R80 to R85) -/

section
variable {s : State} {k : Cmd}

theorem checkTags_leaves (k : Cmd) (sf df : BitVec 4) : Leaves (checkTags k sf df) id :=
  (Reads.efailIf _ _).leaves.after fun _ => (Reads.efailIf _ _).leaves.after fun _ => (Reads.efailIf _ _).leaves

theorem checkCvt_leaves (k : Cmd) (sf df : BitVec 4) : Leaves (checkCvt k sf df) id :=
  Reads.enow.leaves.after fun _ => (Reads.echeck _).leaves.after fun _ => (checkTags_leaves k sf df).after fun _ => (Reads.topBlkop _ _).leaves

theorem checkSpatial_leaves (k : Cmd) : Leaves (checkSpatial k) id := (Reads.efailIf _ _).leaves

/-- The check that FMT is the encoding's (R80). -/
theorem tags_of_checkCvt {sf df : BitVec 4} {u : State} (h : checkCvt k sf df s = .ok ((), u)) :
    tFmt (dTag (k.d 1)) = sf ∧ tFmt (dTag (k.d 0)) = df := by
  obtain ⟨_, _, -, h⟩ := eBind_ok h
  obtain ⟨_, _, -, h⟩ := eBind_ok h
  obtain ⟨_, _, h, -⟩ := eBind_ok h
  obtain ⟨_, _, h, -⟩ := eBind_ok h
  unfold efailIf at h
  split at h
  · cases h
  · next hn => simpa using hn

/-- An element-wise command writes the patterns its rule forms (R77). -/
theorem cvtRun_onlyBuf {chk : E Unit} {f : Nat → Num → Nat × FFlags} (hu : k.upc = 0) (hc : Leaves chk id) (h : (cvtRun k chk f s).stop = none) :
    onlyBuf s (cvtRun k chk f s).s ((List.range (dRows (k.d 0) * dCols (k.d 0))).foldl (fun b i =>
      b.putElem (k.d 0) (i / dCols (k.d 0)) (i % dCols (k.d 0))
        (f i (b.val (k.d 1) (i / dCols (k.d 0)) (i % dCols (k.d 0))).1).1) s.core.buf) := by
  unfold cvtRun at h ⊢
  rw [hu] at h ⊢
  refine checkedElems_onlyBuf (F := fun i b => b.putElem (k.d 0) (i / dCols (k.d 0)) (i % dCols (k.d 0))
    (f i (b.val (k.d 1) (i / dCols (k.d 0)) (i % dCols (k.d 0))).1).1) hc (fun i => ?_) h
  dsimp only [rowCol]
  exact .read (.eVal _ _ _) fun x => .ret (.ePut _ _ _ _) fun _ => .pure _

/-- The class 4 commands whose patterns do not depend on the element's index. -/
theorem cvtRun_eachElem {chk : E Unit} {f : Num → Nat × FFlags} (hu : k.upc = 0) (hc : Leaves chk id)
    (h : (cvtRun k chk (fun _ => f) s).stop = none) :
    onlyBuf s (cvtRun k chk (fun _ => f) s).s (s.core.buf.eachElem (k.d 0) fun r c b => (f (b.val (k.d 1) r c).1).1) :=
  cvtRun_onlyBuf hu hc h

theorem tags_of_cvtRun {sf df : BitVec 4} {f : Nat → Num → Nat × FFlags} (hu : k.upc = 0) (h : (cvtRun k (checkCvt k sf df) f s).stop = none) :
    tFmt (dTag (k.d 1)) = sf ∧ tFmt (dTag (k.d 0)) = df := by
  unfold cvtRun at h
  rw [hu] at h
  obtain ⟨v, hv, -⟩ := checkedElems_ok h
  exact tags_of_checkCvt hv

theorem runCvts_onlyBuf {sat : Bool} {sf df : BitVec 4} (hu : k.upc = 0) (h : (runCvts k sat sf df s).stop = none) :
    onlyBuf s (runCvts k sat sf df s).s (s.core.buf.eachElem (k.d 0) fun r c b =>
      (convertSR df sat (k.v 0) (k.v 1 + BitVec.ofNat 64 (r * dCols (k.d 0) + c)) (b.val (k.d 1) r c).1).1) := by
  unfold Buffers.eachElem
  simp only [Nat.div_add_mod']
  exact cvtRun_onlyBuf hu (checkCvt_leaves k sf df) h

theorem runDqw_onlyBuf {rm : RM} {sf df : BitVec 4} (hu : k.upc = 0) (h : (runDqw k rm sf df s).stop = none) :
    onlyBuf s (runDqw k rm sf df s).s (s.core.buf.eachElem (k.d 0) fun r c b => (convert df rm false (b.val (k.d 1) r c).1).1) :=
  cvtRun_eachElem hu ((checkCvt_leaves k sf df).after fun _ => checkSpatial_leaves k) h

theorem runScalex_onlyBuf {rm : RM} {n : BitVec 10} (hu : k.upc = 0) (h : (runScalex k rm n s).stop = none) :
    onlyBuf s (runScalex k rm n s).s (s.core.buf.eachElem (k.d 0) fun r c b =>
      (convert (tFmt (dTag (k.d 0))) rm false ((b.val (k.d 1) r c).1.scale n.toInt)).1) := by
  refine cvtRun_eachElem (f := fun x => convert (tFmt (dTag (k.d 0))) rm false (x.scale n.toInt)) hu ?_ h
  exact Reads.enow.leaves.after fun _ => (Reads.echeck _).leaves.after fun _ => (Reads.efailIf _ _).leaves.after fun _ =>
    (checkSpatial_leaves k).after fun _ => (Reads.topBlkop _ _).leaves

/-- The values of a group's weights, in row order. -/
theorem groupVals_reads (a : Desc) (g c : Nat) {n : Nat} (hn : n ≤ 32) :
    ReadsB (groupVals a g c n) fun b => (List.range n).map fun j => (b.val a (32 * g + (32 - n + j)) c).1 := by
  induction n with
  | zero => exact .pure _
  | succ n ih =>
    refine (Reads.bind (.eVal a (32 * g + (31 - n)) c) fun x => .bind (ih (Nat.le_of_succ_le hn)) fun l => .pure (x.1 :: l)).congr fun s => ?_
    have hj : ∀ j, 31 - n + (j + 1) = 32 - n + j := by omega
    simp [List.range_succ_eq_map, Function.comp_def, hj]

/-- Codes are written from a row on. -/
theorem putCodes_puts (d : Desc) (c r : Nat) (l : List Int) : Puts (putCodes d c r l) fun b =>
    (List.range l.length).foldl (fun b j => b.putElem d (r + j) c (intBits (dBits d) (l.getD j 0))) b := by
  induction l generalizing r with
  | nil => exact .pure _
  | cons x l ih =>
    refine ((Puts.ePut d r c (intBits (dBits d) x)).seq fun _ => ih (r + 1)).congr fun b => ?_
    simp only [List.length_cons, List.range_succ_eq_map, List.foldl_cons, List.foldl_map]
    simp [Nat.add_comm, Nat.add_left_comm]

theorem quantGroup_length (q : Nat) (rm : RM) (xs : List Num) : (quantGroup q rm xs).1.length = xs.length := by
  unfold quantGroup
  dsimp only
  split
  · simp
  · split <;> simp

/-- The buffers after a group of QNTW (R83). -/
def qntwGroup (k : Cmd) (rm : RM) (df : BitVec 4) (i : Nat) (b : Buffers) : Buffers :=
  let g := i / dCols (k.d 0)
  let c := i % dCols (k.d 0)
  let y := quantGroup (if df = 9 then 7 else 3) rm ((List.range 32).map fun j => (b.val (k.d 1) (32 * g + j) c).1)
  ((List.range 32).foldl (fun b j => b.putElem (k.d 0) (32 * g + j) c (intBits (dBits (k.d 0)) (y.1.getD j 0))) b).write
    (dSpace (k.d 0)) (dScaleAt (k.d 0) g c) (leBytes 2 y.2.1)

theorem runQntw_onlyBuf {rm : RM} {sf df : BitVec 4} (hu : k.upc = 0) (h : (runQntw k rm sf df s).stop = none) :
    onlyBuf s (runQntw k rm sf df s).s
      ((List.range (dRows (k.d 0) / 32 * dCols (k.d 0))).foldl (fun b i => qntwGroup k rm df i b) s.core.buf) := by
  unfold runQntw at h ⊢
  rw [hu] at h ⊢
  refine checkedElems_onlyBuf (F := qntwGroup k rm df) ((checkCvt_leaves k sf df).after fun _ => checkSpatial_leaves k) (fun i => ?_) h
  have hl (xs : List Num) := Puts.seq (putCodes_puts (k.d 0) (i % dCols (k.d 0)) (32 * (i / dCols (k.d 0)))
    (quantGroup (if df == 9 then 7 else 3) rm xs).1)
    fun _ => .ret (.modB fun b => b.write (dSpace (k.d 0)) (dScaleAt (k.d 0) (i / dCols (k.d 0)) (i % dCols (k.d 0)))
      (leBytes 2 (quantGroup (if df == 9 then 7 else 3) rm xs).2.1)) fun _ => .pure (quantGroup (if df == 9 then 7 else 3) rm xs).2.2
  refine (Puts.read (groupVals_reads (k.d 1) (i / dCols (k.d 0)) (i % dCols (k.d 0)) le_rfl) hl).congr fun b => ?_
  simp only [quantGroup_length, List.length_map, List.length_range, Nat.sub_self, Nat.zero_add, beq_iff_eq]
  rfl

end

end Sys2Proof.Machine
end

section
/-! Class 8: the loop nests LNX and LNR (O46). -/

namespace Sys2Proof.Machine

/-! ### Class 8 (R234 to R236) -/

section
variable {α β : Type}

/-- A piece that succeeds gives something whose part π is v of the buffers, and leaves the state. -/
def ReadsPart {γ : Type} (π : α → γ) (m : E α) (v : Buffers → γ) : Prop := ∀ s a t, m s = .ok (a, t) → π a = v s.core.buf ∧ t = s

theorem Puts.readPart {γ : Type} {π : α → γ} {m : E α} {f : α → E β} {v : Buffers → γ} {g : γ → Buffers → Buffers} (hm : ReadsPart π m v)
    (hf : ∀ a, Puts (f a) (g (π a))) : Puts (m >>= f) fun b => g (v b) b := by
  intro s b t h
  obtain ⟨a, u, h1, h2⟩ := eBind_ok h
  obtain ⟨hp, rfl⟩ := hm _ _ _ h1
  rw [hf _ _ _ _ h2, hp]
  rfl

theorem ReadsB.pure (a : α) : ReadsB (pure a : E α) fun _ => a := Reads.pure a

/-- A read that one of two pieces makes. -/
theorem eRead_ite {c : Prop} [Decidable c] {m n : E α} {f : α → E β} {v w : Buffers → α} {s t : State} {b : β} (hm : ReadsB m v) (hn : ReadsB n w)
    (h : (if c then m >>= f else n >>= f) s = .ok (b, t)) : f (if c then v s.core.buf else w s.core.buf) s = .ok (b, t) := by
  split at h
  · next hc =>
    obtain ⟨a, u, h1, h2⟩ := eBind_ok h
    obtain ⟨rfl, rfl⟩ := hm _ _ _ h1
    rwa [if_pos hc]
  · next hc =>
    obtain ⟨a, u, h1, h2⟩ := eBind_ok h
    obtain ⟨rfl, rfl⟩ := hn _ _ _ h1
    rwa [if_neg hc]

theorem Puts.readIte {c : Prop} [Decidable c] {m n : E α} {f : α → E β} {v w : Buffers → α} {g : α → Buffers → Buffers} (hm : ReadsB m v)
    (hn : ReadsB n w) (hf : ∀ a, Puts (f a) (g a)) : Puts (if c then m >>= f else n >>= f) fun b => g (if c then v b else w b) b :=
  fun _ _ _ h => hf _ _ _ _ (eRead_ite hm hn h)

end

/-- The pattern of element j of a loop-nest operand. -/
def LnOpd.pat (o : LnOpd) (exts : List Nat) (j : Nat) (b : Buffers) : Nat := leNat (b.read (dSpace o.d) (o.at_ exts j).toNat (eSize o.d))

theorem LnOpd.read_reads (o : LnOpd) (exts : List Nat) (j : Nat) : ReadsB (o.read exts j) (o.pat exts j) :=
  .bind (.eBytes _ _ _) fun _ => .pure _

theorem LnOpd.write_puts (o : LnOpd) (exts : List Nat) (j x : Nat) :
    Puts (o.write exts j x) fun b => b.write (dSpace o.d) (o.at_ exts j).toNat (leBytes (eSize o.d) x) := .modB _

section
variable {s : State} {k : Cmd} {f : LnFields}

theorem checkLn_leaves (k : Cmd) (lnr : Bool) (f : LnFields) (hb : k.blk = none) : Leaves (checkLn k lnr f) id := by
  unfold checkLn
  rw [hb]
  exact Reads.enow.leaves.after fun _ => by
    dsimp only
    iterate 10 refine (Reads.efailIf _ _).leaves.after fun _ => ?_
    exact .pure _

theorem doesPush_of_noBlock (hb : k.blk = none) : k.doesPush = false := by simp [Cmd.doesPush, hb]

/-- B's pattern where the operation has two sources. -/
def lnSecond (k : Cmd) (f : LnFields) (j : Nat) (b : Buffers) : Nat := if f.unary = true then 0 else (lnB k f).pat (lnExts f) j b

theorem runLnx_onlyBuf (hu : k.upc = 0) (hb : k.blk = none) (h : (runLnx k f s).stop = none) :
    onlyBuf s (runLnx k f s).s ((List.range (lnCount (lnExts f))).foldl (fun b j =>
      b.write (dSpace (k.d 0)) ((lnD k f).at_ (lnExts f) j).toNat (leBytes (eSize (k.d 0))
        (vopElem f.vop.toNat f.fn.toNat f.rm f.sat (dFmt (k.d 1)) ((lnA k f).pat (lnExts f) j b) (lnSecond k f j b)
          (if f.vop.toNat = 4 then (lnD k f).pat (lnExts f) j b else 0)).1)) s.core.buf) := by
  unfold runLnx at h ⊢
  simp only [hu, doesPush_of_noBlock hb, Bool.false_eq_true, if_false] at h ⊢
  refine checkedElems_onlyBuf (F := fun j b => _) (checkLn_leaves k false f hb) (fun j => ?_) h
  exact .read ((lnA k f).read_reads _ _) fun x => .readIte (ReadsB.pure 0) ((lnB k f).read_reads _ _) fun y =>
    .readIte ((lnD k f).read_reads _ _) (ReadsB.pure 0) fun z => .ret ((lnD k f).write_puts _ _ _) fun _ => .pure _

/-- The value of VOP on inner element j of LNR. -/
def lnrAt (k : Cmd) (f : LnFields) (b : Buffers) (j : Nat) : TVal :=
  (lnrVal f.vop.toNat (dFmt (k.d 1)) ((lnA k f).pat (lnExts f) j b) (lnSecond k f j b)).1

/-- The values of the inner elements, in turn (R236). -/
theorem lnrVals_reads (k : Cmd) (f : LnFields) (l : List Nat) : ReadsPart Prod.fst (lnrVals k f l) fun b => l.map (lnrAt k f b) := by
  induction l with
  | nil => rintro s _ _ ⟨⟩; exact ⟨rfl, rfl⟩
  | cons j l ih =>
    intro s a t h
    obtain ⟨x, _, hx, h⟩ := eBind_ok h
    obtain ⟨rfl, rfl⟩ := (lnA k f).read_reads _ _ _ _ _ hx
    replace h := eRead_ite (ReadsB.pure 0) ((lnB k f).read_reads _ _) h
    obtain ⟨z, _, hz, h⟩ := eBind_ok h
    obtain ⟨hv, rfl⟩ := ih _ _ _ hz
    have hr : (_, _) = (a, t) := Except.ok.inj h
    exact ⟨(congrArg (·.1.1) hr).symm.trans (congrArg (lnrAt k f _ j :: ·) hv), (congrArg Prod.snd hr).symm⟩

/-- The buffers after an outer point of LNR (R236), l being the values of its inner elements. -/
def lnrPoint (k : Cmd) (f : LnFields) (o : Nat) (l : List TVal) (b : Buffers) : Buffers :=
  let n := lnCount ((lnExts f).take f.nr.toNat)
  let y := (tree (f.fn.toNat % 4) n l).1
  let z := if f.fn.getLsbD 2 = true then (treeNode (f.fn.toNat % 4) (treeIn (dFmt (k.d 0)) ((lnD k f).pat (lnExts f) (o * n) b)) y).1 else y
  b.write (dSpace (k.d 0)) ((lnD k f).at_ (lnExts f) (o * n)).toNat (leBytes (eSize (k.d 0)) (treeOut f.rm f.sat (dFmt (k.d 0)) z).1)

theorem runLnr_onlyBuf (hu : k.upc = 0) (hb : k.blk = none) (h : (runLnr k f s).stop = none) :
    onlyBuf s (runLnr k f s).s
      ((List.range (lnCount ((lnExts f).drop f.nr.toNat))).foldl (fun b o =>
        lnrPoint k f o ((lnrInner (lnExts f) f.nr.toNat o).map (lnrAt k f b)) b) s.core.buf) := by
  have hr : (f.fn.extractLsb' 0 2).toNat = f.fn.toNat % 4 := by simp
  unfold runLnr at h ⊢
  simp only [hu, hr, doesPush_of_noBlock hb, Bool.false_eq_true, if_false] at h ⊢
  refine checkedElems_onlyBuf (F := fun o b => lnrPoint k f o ((lnrInner (lnExts f) f.nr.toNat o).map (lnrAt k f b)) b)
    (checkLn_leaves k true f hb) (fun o => Puts.readPart (lnrVals_reads k f _) (g := lnrPoint k f o) fun vs => ?_) h
  unfold lnrPoint
  cases hc : f.fn.getLsbD 2 with
  | true => exact .read ((lnD k f).read_reads _ _) fun d => .read (ReadsB.pure _) fun x => .ret ((lnD k f).write_puts _ _ _) fun _ => .pure _
  | false => exact .read (ReadsB.pure _) fun x => .ret ((lnD k f).write_puts _ _ _) fun _ => .pure _

end

end Sys2Proof.Machine
end

section
/-! Class 10: blocks of a tile, SXF and SXI (O46). -/

namespace Sys2Proof.Machine

/-! ### Class 10: blocks of a tile (R267, R275 to R280) -/

section
variable {α : Type}

/-- Pieces in turn give what each gives. -/
theorem eRow_reads {f : Nat → E α} {v : Nat → Buffers → α} (hf : ∀ i, ReadsB (f i) (v i)) (n i : Nat) :
    ReadsB (eRow f n i) fun b => (List.range n).map fun j => v (i + j) b := by
  induction n generalizing i with
  | zero => exact .pure _
  | succ n ih =>
    refine (Reads.bind (hf i) fun x => .bind (ih (i + 1)) fun l => .pure (x :: l)).congr fun s => ?_
    simp only [List.range_succ_eq_map, List.map_cons, List.map_map, Function.comp_def, Nat.add_zero, Nat.succ_eq_add_one]
    simp only [Nat.add_comm, Nat.add_left_comm]

/-- The values, and the patterns, of a block of n elements from (r, c) on. -/
def Buffers.block (b : Buffers) (d : Desc) (n r c : Nat) : List Num := (List.range n).map fun i => elemVal (dFmt d) (b.elem d r (c + i))

theorem eBlock_reads (d : Desc) (r c n : Nat) : ReadsB (eBlock d r c n) fun b => b.block d n r c :=
  (eRow_reads (v := fun i b => elemVal (dFmt d) (b.elem d r (c + i)))
    (fun i => .bind (.eElem d r (c + i)) fun x => .pure (elemVal (dFmt d) x)) n 0).congr
    fun s => by simp only [Nat.zero_add]; rfl

theorem eBlockRaw_reads (d : Desc) (r c n : Nat) : ReadsB (eBlockRaw d r c n) fun b => (List.range n).map fun i => b.elem d r (c + i) :=
  (eRow_reads (v := fun i b => b.elem d r (c + i)) (fun i => .eElem d r (c + i)) n 0).congr fun s => by simp only [Nat.zero_add]

/-- Buffers after patterns have been written from (r, c) on. -/
def Buffers.putRow (b : Buffers) (d : Desc) (r c : Nat) (l : List Nat) : Buffers := l.zipIdx.foldl (fun b y => b.putElem d r (c + y.2) y.1) b

theorem ePutRow_puts (d : Desc) (r c : Nat) (l : List Nat) : Puts (ePutRow d r c l) fun b => b.putRow d r c l := by
  induction l generalizing c with
  | nil => exact .pure _
  | cons x l ih =>
    refine ((Puts.ePut d r c x).seq fun _ => ih (c + 1)).congr fun b => ?_
    unfold Buffers.putRow
    rw [List.zipIdx_cons, List.foldl_cons, Nat.zero_add, List.zipIdx_eq_map_add (i := 1), List.foldl_map]
    have hj : ∀ j, c + 1 + j = c + (1 + j) := fun j => by omega
    exact congrArg (fun g => l.zipIdx.foldl g _) (funext₂ fun b ⟨x, j⟩ => congrArg (b.putElem d r · x) (hj j))

/-- Values as patterns of a tile's format, rounded to nearest (R69). -/
def outPats (d : Desc) (l : List Num) : List Nat := l.map fun y => (convert (dFmt d) .rne false y).1

theorem ePutNums_puts (d : Desc) (r c : Nat) (l : List Num) : Puts (ePutNums d r c l) fun b => b.putRow d r c (outPats d l) := by
  refine ((ePutRow_puts d r c _).ret fun _ => .pure _).congr fun b => ?_
  rw [outPats, List.map_map]
  rfl

end

section
variable {s : State} {k : Cmd}

theorem checkS_leaves {srcs : List Desc} {wb : Bool} {lay : List (Desc × Option Nat)} {i t d : Bool} : Leaves (checkS k srcs wb lay i t d) id := by
  refine Reads.enow.leaves.after fun _ => ?_
  dsimp only
  iterate 5 refine (Reads.efailIf _ _).leaves.after fun _ => ?_
  exact (Reads.topBlkop _ _).leaves

/-- Blocks of a tile that are read, transformed and written in turn. -/
theorem elems_eachBlock {g : FGroup} {chk : E Unit} {d : Desc} {n : Nat} {body : Nat → E FFlags} {f : Nat → Nat → Buffers → List Nat}
    (hc : Leaves chk id) (hb : ∀ u, Puts (body u) fun b => b.putRow d (blockAt d n u).1 (blockAt d n u).2 (f (blockAt d n u).1 (blockAt d n u).2 b))
    (h : (checkedElems g chk (blocksOf d n) 0 body s).stop = none) :
    onlyBuf s (checkedElems g chk (blocksOf d n) 0 body s).s (s.core.buf.eachBlock d n f) := checkedElems_onlyBuf hc hb h

theorem runSxf_onlyBuf (hu : k.upc = 0) (h : (runSxf k s).stop = none) :
    onlyBuf s (runSxf k s).s (s.core.buf.eachBlock (k.d 0) (sB (dTag (k.d 0))) fun r c b =>
      outPats (k.d 0) ((sFwd (sL (dTag (k.d 0))) (b.block (k.d 1) (sB (dTag (k.d 0))) r c) 0).1.map (·.scale (-(sL (dTag (k.d 0)) : Int))))) := by
  unfold runSxf at h ⊢
  rw [hu] at h ⊢
  refine elems_eachBlock checkS_leaves (fun u => ?_) h
  dsimp only [blockAt]
  exact (Puts.read (eBlock_reads _ _ _ _) fun x => .ret (ePutNums_puts _ _ _ _) fun _ => .pure _).congr fun b => rfl

theorem runSxi_onlyBuf (hu : k.upc = 0) (h : (runSxi k s).stop = none) :
    onlyBuf s (runSxi k s).s (s.core.buf.eachBlock (k.d 0) (sB (dTag (k.d 1))) fun r c b =>
      outPats (k.d 0) ((sInv (sL (dTag (k.d 1))) (b.block (k.d 1) (sB (dTag (k.d 1))) r c) 0).1.map
        (·.scale ((tExp (dTag (k.d 1)) : Int) - sL (dTag (k.d 1)))))) := by
  unfold runSxi at h ⊢
  rw [hu] at h ⊢
  refine elems_eachBlock checkS_leaves (fun u => ?_) h
  dsimp only [blockAt]
  exact (Puts.read (eBlock_reads _ _ _ _) fun x => .ret (ePutNums_puts _ _ _ _) fun _ => .pure _).congr fun b => rfl

end

end Sys2Proof.Machine
end

section
/-! Class 10: SCMUL, SCONJ, SEXP, SDOM and GZERO (O46). -/

namespace Sys2Proof.Machine

/-! ### Class 10: the packed product and the other element-wise commands (R277 to R280, R304) -/

section
variable {α β : Type}

/-- The list that a computation gathering flags gives, element by element. -/
theorem arMapM_fst {f : α → Ar β} {g : α → β} {l : List α} (h : ∀ x ∈ l, ∀ fl, (f x fl).1 = g x) (fl : FFlags) :
    ((l.mapM f : Ar (List β)) fl).1 = l.map g := by
  induction l generalizing fl with
  | nil => rfl
  | cons x l ih =>
    rw [List.mapM_cons]
    change (f x fl).1 :: ((l.mapM f : Ar (List β)) (f x fl).2).1 = _
    rw [h x (List.mem_cons_self ..), ih fun y hy => h y (List.mem_cons_of_mem _ hy), List.map_cons]

end

section
variable {s : State} {k : Cmd} {b : Buffers} {d : Desc} {n r c i : Nat}

/-- The value of element (r, c) of a tile. -/
def Buffers.num (b : Buffers) (d : Desc) (r c : Nat) : Num := elemVal (dFmt d) (b.elem d r c)

theorem numAt_map_range (f : Nat → Num) (h : i < n) : numAt ((List.range n).map f) i = f i := by
  simp [numAt, h]

theorem numAt_block (h : i < n) : numAt (b.block d n r c) i = b.num d r (c + i) := numAt_map_range _ h

theorem block_length : (b.block d n r c).length = n := by simp [Buffers.block]

theorem sB_even (t : FTag) : sB t % 2 = 0 := by
  rw [sB, sL, pow_add]
  omega

theorem sB_half (t : FTag) : sB t / 2 = sH t := by
  rw [sB, sH, show sL t = sL t - 1 + 1 by unfold sL; omega, pow_succ]
  simp

/-- Element i of the packed product of blocks with values A and B (R277). -/
def packed (cj : Bool) (A B : Nat → Num) (i : Nat) : Num :=
  let I (i : Nat) := if cj = true then (B i).neg else B i
  if i < 2 then (Num.mul (A i) (B i)).1
  else if i % 2 = 0 then (Num.add .rne (Num.mul (A i) (B i)).1 (Num.mul (A (i + 1)) (I (i + 1))).1.neg).1
  else (Num.add .rne (Num.mul (A (i - 1)) (I i)).1 (Num.mul (A i) (B (i - 1))).1).1

theorem packMul_fst {cj : Bool} {x y : List Num} {A B : Nat → Num} (hx : x.length = n) (hn : n % 2 = 0) (hA : ∀ i < n, numAt x i = A i)
    (hB : ∀ i < n, numAt y i = B i) (fl : FFlags) : (packMul cj x y fl).1 = (List.range n).map (packed cj A B) := by
  unfold packMul
  rw [hx]
  refine arMapM_fst (fun i hi fl => ?_) fl
  have hi := List.mem_range.1 hi
  unfold packed
  dsimp only
  split
  · exact congrArg₂ (fun x y => (Num.mul x y).1) (hA i hi) (hB i hi)
  next h2 =>
    split
    next he =>
      rw [← hA i hi, ← hB i hi, ← hA (i + 1) (by omega), ← hB (i + 1) (by omega)]
      rfl
    · rw [← hA i hi, ← hB i hi, ← hA (i - 1) (by omega), ← hB (i - 1) (by omega)]
      rfl

theorem eKeep_leaves (hb : k.blk = none) (f : Buffers → List Byte) : Leaves (eKeep k f) id := by
  unfold eKeep
  rw [doesPush_of_noBlock hb]
  exact .pure _

theorem runScmul_onlyBuf {cj : Bool} (hu : k.upc = 0) (hb : k.blk = none) (h : (runScmul k cj s).stop = none) :
    onlyBuf s (runScmul k cj s).s (s.core.buf.eachBlock (k.d 0) (sB (dTag (k.d 1))) fun r c b => outPats (k.d 0)
      ((List.range (sB (dTag (k.d 1)))).map (packed cj (fun i => b.num (k.d 1) r (c + i)) fun i => b.num (k.d 2) r (c + i)))) := by
  unfold runScmul at h ⊢
  rw [hu] at h ⊢
  refine elems_eachBlock (checkS_leaves.after fun _ => eKeep_leaves hb _) (fun u => ?_) h
  dsimp only [blockAt]
  refine (Puts.read (eBlock_reads _ _ _ _) fun x => .read (eBlock_reads _ _ _ _) fun y => .ret (ePutNums_puts _ _ _ _) fun _ => .pure _).congr
    fun b => ?_
  exact congrArg (fun l => b.putRow _ _ _ (outPats _ l))
    (packMul_fst block_length (sB_even _) (fun i hi => numAt_block hi) (fun i hi => numAt_block hi) 0)

theorem runSconj_onlyBuf (hu : k.upc = 0) (h : (runSconj k s).stop = none) :
    onlyBuf s (runSconj k s).s (s.core.buf.eachBlock (k.d 0) (sB (dTag (k.d 1))) fun r c b => (List.range (sB (dTag (k.d 1)))).map fun i =>
      b.elem (k.d 1) r (c + i) ^^^ (if isImag i = true then 2 ^ (dBits (k.d 1) - 1) else 0)) := by
  unfold runSconj at h ⊢
  rw [hu] at h ⊢
  refine elems_eachBlock checkS_leaves (fun u => ?_) h
  dsimp only [blockAt]
  refine (Puts.read (eBlockRaw_reads _ _ _ _) fun x => .ret (ePutRow_puts _ _ _ _) fun _ => .pure _).congr fun b => ?_
  refine congrArg (Buffers.putRow b _ _ _) (List.map_congr_left fun i hi => ?_)
  rw [List.getD_eq_getElem?_getD, List.getElem?_map, List.getElem?_range (List.mem_range.1 hi)]
  split <;> simp

theorem runSexp_onlyBuf {e : BitVec 5} (hu : k.upc = 0) (h : (runSexp k e s).stop = none) :
    onlyBuf s (runSexp k e s).s (s.core.buf.eachBlock (k.d 0) (sB (dTag (k.d 1))) fun r c b => outPats (k.d 0)
      ((List.range (sB (dTag (k.d 1)))).map fun i => (b.num (k.d 1) r (c + i)).scale ((tExp (dTag (k.d 1)) : Int) - e.toNat))) := by
  unfold runSexp at h ⊢
  rw [hu] at h ⊢
  refine elems_eachBlock checkS_leaves (fun u => ?_) h
  dsimp only [blockAt]
  refine (Puts.read (eBlock_reads _ _ _ _) fun x => ePutNums_puts _ _ _ _).congr fun b => ?_
  rw [Buffers.block, List.map_map]
  rfl

/-- The gain's column of a position (R280). -/
def gainCol (n i : Nat) : Nat := if i = 0 then 0 else if i = 1 then n / 2 else i / 2

theorem gainCol_le (h : i < n) : gainCol n i < n / 2 + 1 := by
  unfold gainCol
  split
  · omega
  · split <;> omega

theorem gains_reads (d : Desc) (n : Nat) : ReadsB (eRow (fun i => do pure (elemVal (dFmt d) (← eElem d 0 i))) n 0) fun b =>
    (List.range n).map fun i => b.num d 0 i :=
  (eRow_reads (v := fun i b => b.num d 0 i) (fun i => .bind (.eElem d 0 i) fun x => .pure (elemVal (dFmt d) x)) n 0).congr
    fun s => by simp only [Nat.zero_add]

theorem sdom_fst (x g : List Num) {A G : Nat → Num} (hA : ∀ i < n, numAt x i = A i) (hG : ∀ i < n / 2 + 1, numAt g i = G i) (fl : FFlags) :
    (((List.range n).mapM fun p => arOf (Num.mul (numAt x p) (gainAt g (n / 2) p)) : Ar (List Num)) fl).1 =
      (List.range n).map fun i => (Num.mul (A i) (G (gainCol n i))).1 := by
  refine arMapM_fst (fun i hi fl => ?_) fl
  have hi := List.mem_range.1 hi
  rw [← hA i hi, ← hG _ (gainCol_le hi)]
  rfl

theorem runSdom_onlyBuf (hu : k.upc = 0) (h : (runSdom k s).stop = none) :
    onlyBuf s (runSdom k s).s (s.core.buf.eachBlock (k.d 0) (sB (dTag (k.d 1))) fun r c b => outPats (k.d 0)
      ((List.range (sB (dTag (k.d 1)))).map fun i =>
        (Num.mul (b.num (k.d 1) r (c + i)) (b.num (k.d 2) 0 (gainCol (sB (dTag (k.d 1))) i))).1)) := by
  unfold runSdom at h ⊢
  rw [hu] at h ⊢
  refine elems_eachBlock checkS_leaves (fun u => ?_) h
  dsimp only [blockAt]
  rw [← sB_half]
  refine (Puts.read (eBlock_reads _ _ _ _) fun x => .read (gains_reads _ _) fun y => .ret (ePutNums_puts _ _ _ _) fun _ => .pure _).congr
    fun b => ?_
  exact congrArg (fun l => b.putRow _ _ _ (outPats _ l)) (sdom_fst _ _ (fun i hi => numAt_block hi) (fun i hi => numAt_map_range _ hi) 0)

/-! ### GZERO (R304) -/

theorem eFill_puts (d : Desc) (x : Nat) (l : List (Nat × Nat)) : Puts (eFill d x l) fun b => l.foldl (fun b y => b.putElem d y.1 y.2 x) b := by
  induction l with
  | nil => exact .pure _
  | cons y l ih => exact (Puts.ePut d y.1 y.2 x).seq fun _ => ih

/-- The cells of a grid are the quotients and remainders of their numbers. -/
theorem gridCells_eq (m n : Nat) : gridCells m n = (List.range (m * n)).map fun i => (i / n, i % n) := by
  induction m with
  | zero => simp [gridCells]
  | succ m ih =>
    rw [gridCells, List.range_succ, List.flatMap_append, List.flatMap_singleton, ← gridCells, ih, Nat.succ_mul, List.range_add, List.map_append,
      List.map_map]
    refine congrArg _ (List.map_congr_left fun j hj => ?_)
    have hj := List.mem_range.1 hj
    rw [Function.comp_apply, Nat.mul_comm, Nat.mul_add_div (by omega), Nat.mul_add_mod, Nat.div_eq_of_lt hj, Nat.mod_eq_of_lt hj, Nat.add_zero]

theorem whole_ok {m : E Unit} (h : (whole m s).stop = none) : ∃ u, m s = .ok ((), u) ∧ whole m s = .ok u 0 := by
  unfold whole at h ⊢
  split at h
  · cases h
  · next u hu => exact ⟨u, hu, rfl⟩

theorem whole_leaves {m : E Unit} {g : State → State} (hm : Leaves m g) (h : (whole m s).stop = none) : (whole m s).s = g s := by
  obtain ⟨u, hu, he⟩ := whole_ok h
  rw [he]
  exact hm _ _ _ hu

theorem runGzero_onlyBuf (h : (runGzero k s).stop = none) : onlyBuf s (runGzero k s).s (s.core.buf.eachElem (k.d 0) fun _ _ _ => 0) := by
  have hm : Puts (eFill (k.d 0) 0 (gridCells (dRows (k.d 0)) (dCols (k.d 0)))) fun b => b.eachElem (k.d 0) fun _ _ _ => 0 :=
    (eFill_puts _ _ _).congr fun b => by rw [gridCells_eq, List.foldl_map]; rfl
  unfold runGzero at h ⊢
  rw [whole_leaves (g := (·.modB fun b => b.eachElem (k.d 0) fun _ _ _ => 0)) (Reads.enow.leaves.after fun _ => by
    iterate 4 refine (Reads.efailIf _ _).leaves.after fun _ => ?_
    exact hm) h]
  exact .modB s _

end

end Sys2Proof.Machine
end

section
/-! Accumulators: windows of entries that chunks are added into (O46). -/

namespace Sys2Proof.Machine

/-! ### Accumulators that a window of entries is added into (R245, R283) -/

section
variable {α : Type} [DecidableEq α] {z : α} {m : Sparse α} {a b : Nat} {v : α}

/-- What a rising map gives after a write. -/
theorem Sparse.get_put (h : Sparse.rising m = true) (a b : Nat) (v : α) :
    Sparse.get z (Sparse.put z m a v) b = if b = a then v else Sparse.get z m b := by
  have hp := (Sparse.rising_iff m).1 h
  unfold Sparse.get Sparse.put
  split
  · next hv =>
    split
    · next hb => rw [hb, Sparse.find_del_same a hp, hv]; rfl
    · next hb => rw [Sparse.find_del_other hp hb]
  · split
    · next hb => rw [hb, Sparse.find_ins_same]; rfl
    · next hb => rw [Sparse.find_ins_other m v hb]

/-- A rising map into which entries under distinct keys have been put in turn, each formed of the value before. -/
theorem Sparse.foldl_put_rising {ι : Type} {κ : ι → Nat} {f : ι → Sparse α → α} (l : List ι) (h : Sparse.rising m = true) :
    Sparse.rising (l.foldl (fun m x => Sparse.put z m (κ x) (f x m)) m) = true := by
  induction l generalizing m with
  | nil => exact h
  | cons x l ih => exact ih (Sparse.rising_put z _ _ h)

theorem Sparse.get_foldl_put_other {ι : Type} {κ : ι → Nat} {g : ι → α → α} {e : Nat} (l : List ι) (h : Sparse.rising m = true)
    (he : ∀ x ∈ l, κ x ≠ e) :
    Sparse.get z (l.foldl (fun m x => Sparse.put z m (κ x) (g x (Sparse.get z m (κ x)))) m) e = Sparse.get z m e := by
  induction l generalizing m with
  | nil => rfl
  | cons x l ih =>
    rw [List.foldl_cons, ih (Sparse.rising_put z _ _ h) fun y hy => he y (List.mem_cons_of_mem _ hy), Sparse.get_put h,
      if_neg (he x (List.mem_cons_self ..)).symm]

theorem Sparse.get_foldl_put_mem {ι : Type} {κ : ι → Nat} {g : ι → α → α} {l : List ι} {x : ι} (h : Sparse.rising m = true) (hx : x ∈ l)
    (hk : (l.map κ).Nodup) :
    Sparse.get z (l.foldl (fun m x => Sparse.put z m (κ x) (g x (Sparse.get z m (κ x)))) m) (κ x) = g x (Sparse.get z m (κ x)) := by
  induction l generalizing m with
  | nil => cases hx
  | cons y l ih =>
    obtain ⟨hy, hl⟩ := List.nodup_cons.1 hk
    rw [List.foldl_cons]
    rcases List.mem_cons.1 hx with rfl | hx
    · have hne : ∀ w ∈ l, κ w ≠ κ x := fun w hw he => hy (he ▸ List.mem_map_of_mem hw)
      rw [Sparse.get_foldl_put_other l (Sparse.rising_put z _ _ h) hne, Sparse.get_put h, if_pos rfl]
    · have hne : κ x ≠ κ y := fun he => hy (he ▸ List.mem_map_of_mem hx)
      rw [ih (Sparse.rising_put z _ _ h) hx hl, Sparse.get_put h, if_neg hne]

end

/-- The entries of a window of m by n from (r0, c0) on. -/
def winCells (m n : Nat) : List (Nat × Nat) := (List.range m).flatMap fun i => (List.range n).map fun j => (i, j)

def winAt (r0 c0 : Nat) (x : Nat × Nat) : Nat := bankAt (r0 + x.1) (c0 + x.2)

theorem mem_winCells {m n : Nat} {x : Nat × Nat} : x ∈ winCells m n ↔ x.1 < m ∧ x.2 < n := by
  obtain ⟨i, j⟩ := x
  simp [winCells]

theorem bankAt_inj {i j i' j' : Nat} (hj : j < 128) (hj' : j' < 128) (h : bankAt i j = bankAt i' j') : i = i' ∧ j = j' := by
  unfold bankAt at h
  omega

theorem winCells_nodup (m n : Nat) : (winCells m n).Nodup := by
  refine List.nodup_flatMap.2 ⟨fun i _ => List.nodup_range.map fun a b h => (Prod.ext_iff.1 h).2, ?_⟩
  refine List.nodup_range.imp fun {i j} hij x hi hj => ?_
  obtain ⟨_, -, rfl⟩ := List.mem_map.1 hi
  obtain ⟨_, -, he⟩ := List.mem_map.1 hj
  exact hij (Prod.ext_iff.1 he).1.symm

theorem winAt_nodup {r0 c0 m n : Nat} (hc : c0 + n ≤ 128) : ((winCells m n).map (winAt r0 c0)).Nodup := by
  refine (winCells_nodup m n).map_on fun x hx y hy h => ?_
  have hx := (mem_winCells.1 hx).2
  have hy := (mem_winCells.1 hy).2
  obtain ⟨h1, h2⟩ := bankAt_inj (by omega) (by omega) h
  exact Prod.ext (by omega) (by omega)

/-- a' is a with each entry (i, j) of a window turned into g i j of it, and nothing else. -/
structure IntoWin (r0 c0 m n : Nat) (g : Nat → Nat → FA56 → FA56) (a a' : Accum) : Prop where
  rest : a' = { a with work := a'.work }
  rising : Sparse.rising a'.work = true
  entry : ∀ i j, i < m → j < n → a'.w (bankAt (r0 + i) (c0 + j)) = g i j (a.w (bankAt (r0 + i) (c0 + j)))
  other : ∀ e, (∀ i j, i < m → j < n → e ≠ bankAt (r0 + i) (c0 + j)) → a'.w e = a.w e

section
variable {r0 c0 m n : Nat} {a : Accum}

/-- An accumulator with its entries updated cell by cell, flags aside. -/
theorem intoWin_cells {step : Accum × FFlags → Nat × Nat → Accum × FFlags} {g : Nat → Nat → FA56 → FA56} (hr : Sparse.rising a.work = true)
    (hc : c0 + n ≤ 128)
    (hs : ∀ w x, (step w x).1 = w.1.setW (winAt r0 c0 x) (g x.1 x.2 (w.1.w (winAt r0 c0 x)))) (f : FFlags) :
    IntoWin r0 c0 m n g a ((winCells m n).foldl step (a, f)).1 := by
  have hf : ∀ (l : List (Nat × Nat)) (a : Accum) (f : FFlags), (l.foldl step (a, f)).1 =
      { a with work := l.foldl (fun w x => Sparse.put 0 w (winAt r0 c0 x) (g x.1 x.2 (Sparse.get 0 w (winAt r0 c0 x)))) a.work } := by
    intro l
    induction l with
    | nil => intro a f; rfl
    | cons x l ih =>
      intro a f
      rw [List.foldl_cons, ← Prod.mk.eta (p := step (a, f) x), ih, hs]
      rfl
  have hwork := congrArg Accum.work (hf (winCells m n) a f)
  refine ⟨by rw [hf], by rw [hf]; exact Sparse.foldl_put_rising _ hr, fun i j hi hj => ?_, fun e he => ?_⟩
  · unfold Accum.w
    rw [hwork]
    exact Sparse.get_foldl_put_mem (κ := winAt r0 c0) (x := (i, j)) hr (mem_winCells.2 ⟨hi, hj⟩) (winAt_nodup hc)
  · unfold Accum.w
    rw [hwork]
    exact Sparse.get_foldl_put_other _ hr fun x hx h => he x.1 x.2 (mem_winCells.1 hx).1 (mem_winCells.1 hx).2 h.symm

theorem IntoWin.trans {g h : Nat → Nat → FA56 → FA56} {a b c : Accum} (hab : IntoWin r0 c0 m n g a b) (hbc : IntoWin r0 c0 m n h b c) :
    IntoWin r0 c0 m n (fun i j x => h i j (g i j x)) a c where
  rest := by rw [hbc.rest, hab.rest]
  rising := hbc.rising
  entry i j hi hj := by rw [hbc.entry i j hi hj, hab.entry i j hi hj]
  other e he := by rw [hbc.other e he, hab.other e he]

/-- Chunks added in turn. -/
theorem IntoWin.foldl {F : Nat → Accum → Accum} {g : Nat → Nat → Nat → FA56 → FA56} (l : List Nat) (hr : Sparse.rising a.work = true)
    (hF : ∀ c b, b = { a with work := b.work } → Sparse.rising b.work = true → IntoWin r0 c0 m n (g c) b (F c b)) :
    IntoWin r0 c0 m n (fun i j w => l.foldl (fun w c => g c i j w) w) a (l.foldl (fun a c => F c a) a) := by
  induction l generalizing a with
  | nil => exact ⟨rfl, hr, fun _ _ _ _ => rfl, fun _ _ => rfl⟩
  | cons c l ih =>
    have h1 := hF c a rfl hr
    exact h1.trans (ih h1.rising fun c b hb hr => hF c b (by rw [hb, h1.rest]) hr)

end

/-! ### Commands that update an accumulator alone -/

section
variable {α β : Type} {acc : Bool}

/-- A piece that succeeds updates an accumulator alone, by the buffers. -/
def Accs (acc : Bool) (m : E α) (g : Buffers → Accum → Accum) : Prop := Leaves m fun s => s.modAcc acc (g s.core.buf)

theorem Accs.read {m : E α} {f : α → E β} {v : Buffers → α} {g : α → Buffers → Accum → Accum} (hm : ReadsB m v) (hf : ∀ a, Accs acc (f a) (g a)) :
    Accs acc (m >>= f) fun b => g (v b) b := Leaves.read hm hf

theorem Accs.after {m : E α} {f : α → E β} {g : Buffers → Accum → Accum} (hm : Leaves m id) (hf : ∀ a, Accs acc (f a) g) : Accs acc (m >>= f) g :=
  Leaves.after hm hf

theorem Accs.congr {m : E α} {g h : Buffers → Accum → Accum} (hm : Accs acc m g) (hg : ∀ b a, g b a = h b a) : Accs acc m h :=
  (funext₂ hg : g = h) ▸ hm

end

section
variable {s t u : State} {g : FGroup} {body : Nat → E FFlags} {n j total : Nat} {chk : E Unit} {acc : Bool} {a a' : Accum} {f : Accum → Accum}

@[simp] theorem acc_modAcc : (s.modAcc acc f).acc acc = f (s.acc acc) := by cases acc <;> rfl
@[simp] theorem buf_modAcc : (s.modAcc acc f).core.buf = s.core.buf := rfl

theorem modAcc_const : (s.modAcc acc fun _ => f (s.acc acc)) = s.modAcc acc f := by cases acc <;> rfl

theorem onlyAcc.accum (h : onlyAcc s t acc a) : t.acc acc = a := by rw [h]; cases acc <;> rfl

theorem onlyAcc.buf (h : onlyAcc s t acc a) : t.core.buf = s.core.buf := by rw [h]; rfl

theorem onlyAcc.refl (s : State) (acc : Bool) : onlyAcc s s acc (s.acc acc) := by cases acc <;> rfl

theorem onlyAcc.trans (h : onlyAcc s t acc a) (h' : onlyAcc t u acc a') : onlyAcc s u acc a' := by
  unfold onlyAcc at *
  rw [h', h]
  cases acc <;> rfl

theorem onlyAcc.modAcc (s : State) (acc : Bool) (f : Accum → Accum) : onlyAcc s (s.modAcc acc f) acc (f (s.acc acc)) := by
  cases acc <;> rfl

theorem onlyAcc.orFlags (s : State) (acc : Bool) (g : FGroup) (f : FFlags) : onlyAcc s (s.orFlags g f) acc (s.acc acc) := by
  cases acc <;> rfl

/-- A run of elements each of which updates an accumulator alone. -/
theorem elems_onlyAcc {F : Nat → Buffers → Accum → Accum} (hb : ∀ i, Accs acc (body i) (F i)) (h : (elems g body n j s).stop = none) :
    onlyAcc s (elems g body n j s).s acc ((List.range n).foldl (fun a i => F (j + i) s.core.buf a) (s.acc acc)) := by
  induction n generalizing s j with
  | zero => exact .refl s acc
  | succ n ih =>
    obtain ⟨f, v, hf, he⟩ := elems_succ h
    rw [he] at h ⊢
    have hv : v = s.modAcc acc (F j s.core.buf) := hb j s f v hf
    have h1 : onlyAcc s (v.orFlags g f) acc (F j s.core.buf (s.acc acc)) := by
      rw [hv]
      have h2 := onlyAcc.orFlags (s.modAcc acc (F j s.core.buf)) acc g f
      rw [acc_modAcc] at h2
      exact (onlyAcc.modAcc s acc _).trans h2
    have h2 := h1.trans (ih h)
    rw [h1.accum, h1.buf] at h2
    rw [List.range_succ_eq_map, List.foldl_cons, List.foldl_map]
    simpa only [Nat.add_succ, Nat.succ_add, Nat.add_zero] using h2

/-- A run of elements each of which updates an accumulator alone, after checks that may update it. -/
theorem checkedElems_onlyAcc {F : Nat → Buffers → Accum → Accum} {f : Accum → Accum} (hb : ∀ i, Accs acc (body i) (F i))
    (hc : Leaves chk (·.modAcc acc f)) (h : (checkedElems g chk total 0 body s).stop = none) :
    onlyAcc s (checkedElems g chk total 0 body s).s acc ((List.range total).foldl (fun a i => F i s.core.buf a) (f (s.acc acc))) := by
  obtain ⟨v, hv, he⟩ := checkedElems_ok h
  obtain rfl : v = s.modAcc acc f := hc _ _ _ hv
  rw [he] at h ⊢
  have h2 := (onlyAcc.modAcc s acc f).trans (elems_onlyAcc hb h)
  simpa only [Nat.zero_add, Nat.sub_zero, acc_modAcc, buf_modAcc] using h2

end

/-! ### Grids of values -/

section
variable {α : Type} {z : α} {m n i j : Nat}

/-- A grid's rows. -/
def gridOf (f : Nat → Nat → α) (m n : Nat) : List (List α) := (List.range m).map fun i => (List.range n).map (f i)

theorem eGrid_reads {f : Nat → Nat → E α} {v : Nat → Nat → Buffers → α} (hf : ∀ i j, ReadsB (f i j) (v i j)) (m n : Nat) :
    ReadsB (eGrid f m n) fun b => gridOf (fun i j => v i j b) m n := by
  refine (eRow_reads (v := fun i b => (List.range n).map fun j => v i j b) (fun i => ?_) m 0).congr fun s => by simp only [Nat.zero_add]; rfl
  exact (eRow_reads (hf i) n 0).congr fun s => by simp only [Nat.zero_add]

theorem gridAt_gridOf {f : Nat → Nat → α} : gridAt z (gridOf f m n) i j = if i < m ∧ j < n then f i j else z := by
  unfold gridAt gridOf
  by_cases hi : i < m <;> by_cases hj : j < n <;> simp [hi, hj, List.getD_eq_getElem?_getD]

end

end Sys2Proof.Machine
end

section
/-! Class 9: MMA (O46). -/

namespace Sys2Proof.Machine

/-! ### MMA (R245) -/

section
variable {α : Type} {acc : Bool} {s t : State} {k : Cmd} {c : Nat}

/-- A condition that was checked does not hold afterwards, and the piece goes on from the same state. -/
theorem efailIf_ok {b : Bool} {e : BitVec 8} {f : Unit → E α} {a : α} (h : (efailIf b e >>= f) s = .ok (a, t)) : b = false ∧ f () s = .ok (a, t) := by
  cases b with
  | false => exact ⟨rfl, h⟩
  | true => cases h

theorem takeMatrix_of_noBlock (hb : k.blk = none) (d : Desc) (tr : Bool) (p : Prog) : takeMatrix k d tr p = p := by
  simp [takeMatrix, doesPush_of_noBlock hb]

theorem checkMma_leaves (k : Cmd) (acc ta tb : Bool) (r0 c0 : Nat) : Leaves (checkMma k acc ta tb r0 c0) id :=
  Reads.enow.leaves.after fun _ => by
    iterate 4 refine (Reads.efailIf _ _).leaves.after fun _ => ?_
    exact (Reads.efailIf _ _).leaves

/-- The window that MMA's and MCKS's checks let pass. -/
theorem checkMma_fits {ta tb : Bool} {r0 c0 : Nat} {u : Unit} (h : checkMma k acc ta tb r0 c0 s = .ok (u, t)) :
    r0 + opRows (k.d 0) ta ≤ 128 ∧ c0 + opCols (k.d 1) tb ≤ 128 := by
  obtain ⟨v, _, -, h⟩ := eBind_ok h
  have hw := (efailIf_ok h).1
  simp only [Bool.or_eq_false_iff, decide_eq_false_iff_not, not_lt] at hw
  exact ⟨hw.1.2, hw.2⟩

/-- Element (i, x) of a matrix operand. -/
def Buffers.opVal (b : Buffers) (d : Desc) (tr : Bool) (i x : Nat) : Num × FFlags := b.val d (opAt tr i x).1 (opAt tr i x).2

/-- The scale of a weight's group (R241). -/
def Buffers.scaleOf (b : Buffers) (d : Desc) (r c : Nat) : Nat := leNat (b.read (dSpace d) (dScaleAt d (r / 32) c) 2)

/-- Whether B's elements are bare weights. -/
def bareB (k : Cmd) (tb : Bool) : Bool := isWeight (dFmt (k.d 1)) && !tb

def mmaA (k : Cmd) (ta : Bool) (b : Buffers) (i x : Nat) : Num × FFlags := if x < opCols (k.d 0) ta then b.opVal (k.d 0) ta i x else noNum

def mmaB (k : Cmd) (ta tb : Bool) (b : Buffers) (x j : Nat) : Num × FFlags :=
  if x < opCols (k.d 0) ta then
    (if bareB k tb = true then codeVal (dFmt (k.d 1)) (b.elem (k.d 1) x j) (b.scaleOf (k.d 1) x j) else b.opVal (k.d 1) tb x j)
  else noNum

/-- The sum of one chunk for an entry, before ASX (R245, R246). -/
def mmaChunk (k : Cmd) (ta tb : Bool) (b : Buffers) (c i j : Nat) : Num :=
  let y := (chunkSum ((List.range 32).map fun x => arrMul (mmaA k ta b i (32 * c + x)) (mmaB k ta tb b (32 * c + x) j))).1
  if bareB k tb = true then (Num.mul y (scaleVal (b.scaleOf (k.d 1) (32 * c) j)).1).1 else y

/-- The operands of a chunk as they are read. -/
def mmaOperands (k : Cmd) (ta tb : Bool) (c : Nat) (b : Buffers) : Chunk where
  a := gridOf (fun i j => b.opVal (k.d 0) ta i (32 * c + j)) (opRows (k.d 0) ta) (min 32 (opCols (k.d 0) ta - 32 * c))
  b := gridOf (fun i j => if bareB k tb = true then
      codeVal (dFmt (k.d 1)) (b.elem (k.d 1) (32 * c + i) j) (leNat (b.read (dSpace (k.d 1)) (dScaleAt (k.d 1) c j) 2))
    else b.opVal (k.d 1) tb (32 * c + i) j) (min 32 (opCols (k.d 0) ta - 32 * c)) (opCols (k.d 1) tb)
  g := if bareB k tb = true then
      some ((List.range (opCols (k.d 1) tb)).map fun j => scaleVal (leNat (b.read (dSpace (k.d 1)) (dScaleAt (k.d 1) c j) 2)))
    else none

theorem opVal_reads (d : Desc) (tr : Bool) (i x : Nat) : ReadsB (eVal d (opAt tr i x).1 (opAt tr i x).2) fun b => b.opVal d tr i x := .eVal _ _ _

theorem scale_reads (d : Desc) (c j : Nat) :
    ReadsB (do let sc ← eBytes (dSpace d) (dScaleAt d c j) 2; pure (scaleVal (leNat sc))) fun b =>
      scaleVal (leNat (b.read (dSpace d) (dScaleAt d c j) 2)) := .bind (.eBytes _ _ _) fun _ => .pure _

theorem code_reads (d : Desc) (c i j : Nat) :
    ReadsB (do let r := 32 * c + i; let x ← eElem d r j; let sc ← eBytes (dSpace d) (dScaleAt d c j) 2; pure (codeVal (dFmt d) x (leNat sc))) fun b =>
      codeVal (dFmt d) (b.elem d (32 * c + i) j) (leNat (b.read (dSpace d) (dScaleAt d c j) 2)) :=
  .bind (.eElem _ _ _) fun _ => .bind (.eBytes _ _ _) fun _ => .pure _

theorem readChunk_reads (k : Cmd) (ta tb : Bool) (c : Nat) : ReadsB (readChunk (k.d 0) (k.d 1) ta tb c) (mmaOperands k ta tb c) := by
  unfold readChunk mmaOperands
  dsimp only
  have hA := eGrid_reads (fun i j => opVal_reads (k.d 0) ta i (32 * c + j)) (opRows (k.d 0) ta) (min 32 (opCols (k.d 0) ta - 32 * c))
  cases hw : isWeight (dFmt (k.d 1)) && !tb with
  | true =>
    simp only [bareB, hw, if_true]
    have hS := (eRow_reads (scale_reads (k.d 1) c) (opCols (k.d 1) tb) 0).congr (w := fun s => (List.range (opCols (k.d 1) tb)).map fun j =>
      scaleVal (leNat (s.core.buf.read (dSpace (k.d 1)) (dScaleAt (k.d 1) c j) 2))) fun s => by simp only [Nat.zero_add]
    exact (Reads.bind hA fun av => .bind (eGrid_reads (code_reads (k.d 1) c) _ _) fun bv => .bind hS fun gs => .pure (Chunk.mk av bv (some gs))).congr
      fun s => rfl
  | false =>
    simp only [bareB, hw, Bool.false_eq_true, if_false]
    exact (Reads.bind hA fun av => .bind (eGrid_reads (fun i j => opVal_reads (k.d 1) tb (32 * c + i) j) _ _) fun bv =>
      .pure (Chunk.mk av bv none)).congr fun s => rfl

/-- The ASX that a command takes of an accumulator. -/
def Cmd.asxOf (k : Cmd) (a : Accum) : Int :=
  match k.vals.getLast? with
  | some x => (x.setWidth 7).toInt
  | none => a.asx.toInt

theorem asx_eq (k : Cmd) (acc : Bool) (s : State) : k.asx acc s = k.asxOf (s.acc acc) := rfl

/-- The sum of a chunk's operands for an entry, before ASX. -/
def Chunk.sum (ch : Chunk) (i j : Nat) : Num :=
  let y := (chunkSum ((List.range 32).map fun x => arrMul (gridAt noNum ch.a i x) (gridAt noNum ch.b x j))).1
  match ch.g with
  | some g => (Num.mul y (g.getD j noNum).1).1
  | none => y

/-- An entry with a value added to it, rounded once (R245). -/
def addFA (x : Num) (w : FA56) : FA56 := (roundFA (Num.add .rne (faVal w) x).1).1

/-- The accumulator after a chunk. -/
def chunkAcc (k : Cmd) (r0 c0 m n : Nat) (ch : Chunk) (a : Accum) : Accum :=
  ((winCells m n).foldl (fun w x =>
    (w.1.setW (winAt r0 c0 x) (addFA ((ch.sum x.1 x.2).scale (k.asxOf a)) (w.1.w (winAt r0 c0 x))), w.2)) (a, (0 : FFlags))).1

theorem foldl_fst {ι σ τ : Type} {f g : σ × τ → ι → σ × τ} (h : ∀ w v x, w.1 = v.1 → (f w x).1 = (g v x).1) (l : List ι) {w v : σ × τ}
    (hw : w.1 = v.1) : (l.foldl f w).1 = (l.foldl g v).1 := by
  induction l generalizing w v with
  | nil => exact hw
  | cons x l ih => exact ih (h w v x hw)

theorem chunkInto_accs (k : Cmd) (acc : Bool) (r0 c0 m n : Nat) (ch : Chunk) :
    Accs acc (chunkInto k acc r0 c0 m n ch) fun _ => chunkAcc k r0 c0 m n ch := by
  rintro s f t h
  refine (congrArg Prod.snd (Except.ok.inj h)).symm.trans (Eq.trans ?_ (modAcc_const (acc := acc) (f := chunkAcc k r0 c0 m n ch)))
  refine congrArg (fun a => s.modAcc acc fun _ => a) (foldl_fst (fun w v x hw => ?_) _ rfl)
  unfold Chunk.sum addFA winAt
  rw [← hw]
  cases ch.g <;> rfl

theorem chunkAcc_intoWin {r0 c0 m n : Nat} {ch : Chunk} {a : Accum} (hr : Sparse.rising a.work = true) (hc : c0 + n ≤ 128) :
    IntoWin r0 c0 m n (fun i j => addFA ((ch.sum i j).scale (k.asxOf a))) a (chunkAcc k r0 c0 m n ch a) :=
  intoWin_cells hr hc (fun _ _ => rfl) 0

theorem mmaOperands_sum {ta tb : Bool} {b : Buffers} {c i j : Nat} (hi : i < opRows (k.d 0) ta) (hj : j < opCols (k.d 1) tb) :
    (mmaOperands k ta tb c b).sum i j = mmaChunk k ta tb b c i j := by
  have hlt : ∀ x, x < 32 → (x < min 32 (opCols (k.d 0) ta - 32 * c) ↔ 32 * c + x < opCols (k.d 0) ta) := fun x hx => by omega
  have hdiv : ∀ x, x < 32 → (32 * c + x) / 32 = c := fun x hx => by omega
  have hsum : (List.range 32).map (fun x => arrMul (gridAt noNum (mmaOperands k ta tb c b).a i x) (gridAt noNum (mmaOperands k ta tb c b).b x j)) =
      (List.range 32).map fun x => arrMul (mmaA k ta b i (32 * c + x)) (mmaB k ta tb b (32 * c + x) j) := by
    refine List.map_congr_left fun x hx => ?_
    have hx := List.mem_range.1 hx
    unfold mmaOperands mmaA mmaB Buffers.scaleOf
    simp only [gridAt_gridOf, hi, hj, true_and, and_true, hlt x hx, hdiv x hx]
  unfold Chunk.sum mmaChunk
  rw [hsum]
  unfold mmaOperands Buffers.scaleOf
  cases bareB k tb with
  | true => simp [hj, List.getD_eq_getElem?_getD]
  | false => rfl

/-- The accumulator that MMA leaves (R245). -/
theorem runMma_acc {ta tb : Bool} {r0 c0 : BitVec 7} (hu : k.upc = 0) (hb : k.blk = none) (h : (runMma k acc ta tb r0 c0 s).stop = none)
    (hr : Sparse.rising (s.acc acc).work = true) :
    ∃ a, onlyAcc s (runMma k acc ta tb r0 c0 s).s acc a ∧
      IntoWin r0.toNat c0.toNat (opRows (k.d 0) ta) (opCols (k.d 1) tb) (fun i j w => (List.range ((opCols (k.d 0) ta + 31) / 32)).foldl
        (fun w c => addFA ((mmaChunk k ta tb s.core.buf c i j).scale (k.asx acc s)) w) w)
        { s.acc acc with chk := { (s.acc acc).chk with loc := false } } a := by
  unfold runMma at h ⊢
  rw [takeMatrix_of_noBlock hb, hu] at h ⊢
  obtain ⟨v, hv, -⟩ := checkedElems_ok h
  obtain ⟨_, _, hm, -⟩ := eBind_ok hv
  have hc := (checkMma_fits hm).2
  refine ⟨_, checkedElems_onlyAcc (fun c => .read (readChunk_reads k ta tb c) fun ch => chunkInto_accs k acc _ _ _ _ ch)
    ((checkMma_leaves k acc ta tb _ _).after fun _ => .eupd _) h, ?_⟩
  have hF := IntoWin.foldl (r0 := r0.toNat) (c0 := c0.toNat) (m := opRows (k.d 0) ta) (n := opCols (k.d 1) tb)
    (F := fun c => chunkAcc k r0.toNat c0.toNat (opRows (k.d 0) ta) (opCols (k.d 1) tb) (mmaOperands k ta tb c s.core.buf))
    (g := fun c i j => addFA (((mmaOperands k ta tb c s.core.buf).sum i j).scale (k.asx acc s)))
    (a := { s.acc acc with chk := { (s.acc acc).chk with loc := false } })
    (List.range ((opCols (k.d 0) ta + 31) / 32)) hr fun c b hb hr => by
      have := chunkAcc_intoWin (k := k) (r0 := r0.toNat) (m := opRows (k.d 0) ta) (ch := mmaOperands k ta tb c s.core.buf) hr hc
      rwa [show k.asxOf b = k.asx acc s by rw [asx_eq, hb]; rfl] at this
  refine ⟨hF.rest, hF.rising, fun i j hi hj => ?_, hF.other⟩
  rw [hF.entry i j hi hj]
  simp only [mmaOperands_sum hi hj]

end

end Sys2Proof.Machine
end

section
/-! Class 10: SCMAC (O46). -/

namespace Sys2Proof.Machine

/-! ### SCMAC (R281 to R284) -/

section
variable {acc : Bool} {s t : State} {k : Cmd} {f : ScF} {c : Nat}

theorem checkScmac_leaves (k : Cmd) (acc : Bool) (f : ScF) : Leaves (checkScmac k acc f) id :=
  Reads.enow.leaves.after fun _ => by
    dsimp only
    iterate 6 refine (Reads.efailIf _ _).leaves.after fun _ => ?_
    exact (Reads.efailIf _ _).leaves

/-- Rows, columns and inner extent of a SCMAC in blocks, and the window's width. -/
def scWw (f : ScF) : Nat := 2 ^ (f.wcode.toNat + 1)
def scM (k : Cmd) (f : ScF) : Nat := gridRows (k.d 0) (sB (dTag (k.d 0))) f.ta
def scK (k : Cmd) (f : ScF) : Nat := gridCols (k.d 0) (sB (dTag (k.d 0))) f.ta
def scN (k : Cmd) (f : ScF) : Nat := gridCols (k.d 1) (sB (dTag (k.d 0))) f.tb

theorem checkScmac_ok {u : Unit} (h : checkScmac k acc f s = .ok (u, t)) :
    f.col0.toNat + scN k f * scWw f ≤ 128 ∧ f.p0.toNat % scWw f = 0 ∧ sB (dTag (k.d 1)) = sB (dTag (k.d 0)) := by
  obtain ⟨v, _, -, h⟩ := eBind_ok h
  have h := (efailIf_ok (efailIf_ok (efailIf_ok h).2).2).2
  obtain ⟨hw, h⟩ := efailIf_ok h
  have hb := (efailIf_ok h).1
  simp only [Bool.or_eq_false_iff, decide_eq_false_iff_not, not_lt, bne_eq_false_iff_eq] at hw hb
  obtain ⟨⟨⟨-, hcol⟩, hp⟩, -⟩ := hw
  have hB : sB (dTag (k.d 1)) = sB (dTag (k.d 0)) := by unfold sB sL; rw [hb.1.1]
  rw [hB] at hcol
  exact ⟨hcol, hp, hB⟩

/-- A value of a block grid, window position w of logical block (i, j), conjugated or not. -/
def Buffers.scVal (b : Buffers) (d : Desc) (nb p0 : Nat) (tr cj : Bool) (i j w : Nat) : Num × FFlags :=
  let v := b.num d (opAt tr i j).1 ((opAt tr i j).2 * nb + (p0 + w))
  (if (cj && isImag (p0 + w)) = true then v.neg else v, 0)

theorem scVal_reads (d : Desc) (nb p0 : Nat) (tr cj : Bool) (i j w : Nat) :
    ReadsB (scVal d nb p0 tr cj i j w) fun b => b.scVal d nb p0 tr cj i j w := by
  unfold scVal Buffers.scVal Buffers.num
  exact (Reads.bind (.eElem d (opAt tr i j).1 ((opAt tr i j).2 * nb + (p0 + w))) fun x =>
    .pure (if (cj && isImag (p0 + w)) = true then (elemVal (dFmt d) x).neg else elemVal (dFmt d) x, (0 : FFlags))).congr fun s => rfl

/-- The sums of a window position depend only on the operands' values in the window. -/
theorem scSum_congr {p0 ww w n : Nat} {a b a' b' : Nat → Nat → Num × FFlags} (hw : w < ww) (he : ww % 2 = 0) (hp : p0 % ww = 0)
    (ha : ∀ j w, j < n → w < ww → a j w = a' j w) (hb : ∀ j w, j < n → w < ww → b j w = b' j w) :
    scSum p0 w a b n = scSum p0 w a' b' n := by
  have hp2 : p0 % 2 = 0 := Nat.mod_eq_zero_of_dvd ((Nat.dvd_of_mod_eq_zero he).trans (Nat.dvd_of_mod_eq_zero hp))
  refine congrArg chunkSum (List.flatMap_congr fun j hj => ?_)
  have hj := List.mem_range.1 hj
  rw [ha j w hj hw, hb j w hj hw]
  split
  · rfl
  · split
    · rw [ha j (w + 1) hj (by omega), hb j (w + 1) hj (by omega)]
    · rw [ha j (w - 1) hj (by omega), hb j (w - 1) hj (by omega)]

/-- The accumulator after a chunk of blocks. -/
def scAcc (r0 c0 m n p0 ww js : Nat) (x y : Nat → Nat → Nat → Num × FFlags) (a : Accum) : Accum :=
  ((winCells m (n * ww)).foldl (fun w q => (w.1.setW (winAt r0 c0 q)
    (addFA (scSum p0 (q.2 % ww) (x q.1) (y (q.2 / ww)) js).1 (w.1.w (winAt r0 c0 q))), w.2)) (a, (0 : FFlags))).1

theorem scInto_accs (acc : Bool) (r0 c0 m n p0 ww js : Nat) (x y : Nat → Nat → Nat → Num × FFlags) :
    Accs acc (scInto acc r0 c0 m n p0 ww js x y) fun _ => scAcc r0 c0 m n p0 ww js x y := by
  rintro s f t h
  refine (congrArg Prod.snd (Except.ok.inj h)).symm.trans (Eq.trans ?_ (modAcc_const (acc := acc) (f := scAcc r0 c0 m n p0 ww js x y)))
  refine congrArg (fun a => s.modAcc acc fun _ => a) (foldl_fst (fun w v q hw => ?_) _ rfl)
  rw [← hw]
  rfl

theorem scAcc_intoWin {r0 c0 m n p0 ww js : Nat} {x y : Nat → Nat → Nat → Num × FFlags} {a : Accum} (hr : Sparse.rising a.work = true)
    (hc : c0 + n * ww ≤ 128) :
    IntoWin r0 c0 m (n * ww) (fun i q => addFA (scSum p0 (q % ww) (x i) (y (q / ww)) js).1) a (scAcc r0 c0 m n p0 ww js x y a) :=
  intoWin_cells hr hc (fun _ _ => rfl) 0

/-- The sum of one chunk for an entry (R283). -/
def scChunk (k : Cmd) (f : ScF) (b : Buffers) (c i y : Nat) : Num :=
  (scSum f.p0.toNat (y % scWw f) (fun j w => b.scVal (k.d 0) (sB (dTag (k.d 0))) f.p0.toNat f.ta f.cja i (16 * c + j) w)
    (fun j w => b.scVal (k.d 1) (sB (dTag (k.d 0))) f.p0.toNat f.tb f.cjb (16 * c + j) (y / scWw f) w) (min 16 (scK k f - 16 * c))).1

/-- The two operands of a chunk as they are read. -/
def scA (k : Cmd) (f : ScF) (c : Nat) (b : Buffers) : List (List (Num × FFlags)) :=
  gridOf (fun i x => b.scVal (k.d 0) (sB (dTag (k.d 0))) f.p0.toNat f.ta f.cja i (16 * c + x / scWw f) (x % scWw f)) (scM k f)
    (min 16 (scK k f - 16 * c) * scWw f)
def scB (k : Cmd) (f : ScF) (c : Nat) (b : Buffers) : List (List (Num × FFlags)) :=
  gridOf (fun i x => b.scVal (k.d 1) (sB (dTag (k.d 0))) f.p0.toNat f.tb f.cjb (16 * c + x / scWw f) i (x % scWw f)) (scN k f)
    (min 16 (scK k f - 16 * c) * scWw f)

theorem scPick_gridOf {ww m js i j w : Nat} {v : Nat → Nat → Nat → Num × FFlags} (hi : i < m) (hj : j < js) (hw : w < ww) :
    scPick ww (gridOf (fun i x => v i (x / ww) (x % ww)) m (js * ww)) i j w = v i j w := by
  have hlt : j * ww + w < js * ww := calc
    j * ww + w < j * ww + ww := by omega
    _ = (j + 1) * ww := (Nat.succ_mul j ww).symm
    _ ≤ js * ww := Nat.mul_le_mul_right ww hj
  have hdiv : (j * ww + w) / ww = j := by rw [Nat.mul_comm, Nat.mul_add_div (by omega), Nat.div_eq_of_lt hw, Nat.add_zero]
  rw [scPick, gridAt_gridOf, if_pos ⟨hi, hlt⟩, hdiv, Nat.mul_add_mod_of_lt hw]

theorem scSum_operands {b : Buffers} {i y : Nat} (hp : f.p0.toNat % scWw f = 0) (hi : i < scM k f) (hy : y < scN k f * scWw f) :
    (scSum f.p0.toNat (y % scWw f) (scPick (scWw f) (scA k f c b) i) (scPick (scWw f) (scB k f c b) (y / scWw f)) (min 16 (scK k f - 16 * c))).1 =
      scChunk k f b c i y := by
  have hww : 0 < scWw f := Nat.two_pow_pos _
  refine congrArg Prod.fst (scSum_congr (Nat.mod_lt _ hww) ?_ hp (fun j w hj hw => ?_) fun j w hj hw => ?_)
  · simp [scWw, pow_succ]
  · exact scPick_gridOf (v := fun i j w => b.scVal (k.d 0) (sB (dTag (k.d 0))) f.p0.toNat f.ta f.cja i (16 * c + j) w) hi hj hw
  · exact scPick_gridOf (v := fun i j w => b.scVal (k.d 1) (sB (dTag (k.d 0))) f.p0.toNat f.tb f.cjb (16 * c + j) i w)
      ((Nat.div_lt_iff_lt_mul hww).2 hy) hj hw

/-- The accumulator after .z (R284). -/
def scCleared (k : Cmd) (f : ScF) (a : Accum) : Accum :=
  if f.z = true then
    { a with work := [], wpois := [], wtag := scTag (tBcode (dTag (k.d 0))) (tExp (dTag (k.d 0)) + tExp (dTag (k.d 1))), chk := a.chk.clear }
  else a

theorem scCleared_vtag (a : Accum) : (scCleared k f a).vtag = a.vtag := by unfold scCleared; split <;> rfl
theorem scCleared_asx (a : Accum) : (scCleared k f a).asx = a.asx := by unfold scCleared; split <;> rfl

theorem scCleared_wtag (a : Accum) : (scCleared k f a).wtag =
    if f.z = true then scTag (tBcode (dTag (k.d 0))) (tExp (dTag (k.d 0)) + tExp (dTag (k.d 1))) else a.wtag := apply_ite Accum.wtag _ _ _

theorem scCleared_w (a : Accum) (e : Nat) : (scCleared k f a).w e = if f.z = true then 0 else a.w e := apply_ite (Accum.w · e) _ _ _

theorem modAcc_id (s : State) (acc : Bool) : (s.modAcc acc fun a => a) = s := by cases acc <;> rfl

theorem scClear_leaves (k : Cmd) (f : ScF) (hu : k.upc = 0) (acc : Bool) :
    Leaves (if f.z && k.upc = 0 then scClear acc (scTag (tBcode (dTag (k.d 0))) (tExp (dTag (k.d 0)) + tExp (dTag (k.d 1)))) else pure ())
      (·.modAcc acc (scCleared k f)) := by
  unfold scCleared
  cases hz : f.z with
  | true =>
    simp only [hu, Bool.true_and, decide_true, if_true]
    exact .eupd _
  | false => simpa [hu] using (Leaves.pure ()).congr fun s => (modAcc_id s acc).symm

/-- The accumulator that SCMAC leaves (R283, R284). -/
theorem runScmac_acc (hu : k.upc = 0) (hb : k.blk = none) (h : (runScmac k acc f s).stop = none) (hr : Sparse.rising (s.acc acc).work = true) :
    ∃ a, onlyAcc s (runScmac k acc f s).s acc a ∧
      IntoWin f.row0.toNat f.col0.toNat (scM k f) (scN k f * scWw f)
        (fun i y w => (List.range ((scK k f + 15) / 16)).foldl (fun w c => addFA (scChunk k f s.core.buf c i y) w) w)
        (scCleared k f (s.acc acc)) a := by
  have hr' : Sparse.rising (scCleared k f (s.acc acc)).work = true := by unfold scCleared; split <;> [rfl; exact hr]
  unfold runScmac at h ⊢
  rw [takeMatrix_of_noBlock hb] at h ⊢
  have hs := scClear_leaves k f hu acc
  generalize (if f.z && k.upc = 0 then _ else _ : E Unit) = clear at h hs ⊢
  rw [hu] at h ⊢
  obtain ⟨v, hv, -⟩ := checkedElems_ok h
  obtain ⟨_, _, hm, -⟩ := eBind_ok hv
  obtain ⟨hc, hp, -⟩ := checkScmac_ok hm
  refine ⟨_, checkedElems_onlyAcc (F := fun c b => scAcc f.row0.toNat f.col0.toNat (scM k f) (scN k f) f.p0.toNat (scWw f) (min 16 (scK k f - 16 * c))
    (scPick (scWw f) (scA k f c b)) (scPick (scWw f) (scB k f c b)))
    (fun c => (Accs.read (eGrid_reads (fun i x => scVal_reads _ _ _ _ _ _ _ _) _ _) fun av =>
      .read (eGrid_reads (fun i x => scVal_reads _ _ _ _ _ _ _ _) _ _) fun bv => scInto_accs acc _ _ _ _ _ _ _ _ _).congr fun b a => rfl)
    ((checkScmac_leaves k acc f).after fun _ => hs) h, ?_⟩
  have hF := IntoWin.foldl (r0 := f.row0.toNat) (c0 := f.col0.toNat) (m := scM k f) (n := scN k f * scWw f)
    (F := fun c => scAcc f.row0.toNat f.col0.toNat (scM k f) (scN k f) f.p0.toNat (scWw f) (min 16 (scK k f - 16 * c))
      (scPick (scWw f) (scA k f c s.core.buf)) (scPick (scWw f) (scB k f c s.core.buf)))
    (List.range ((scK k f + 15) / 16)) hr' fun c b _ hr => scAcc_intoWin hr hc
  refine ⟨hF.rest, hF.rising, fun i y hi hy => ?_, hF.other⟩
  refine (hF.entry i y hi hy).trans ?_
  simp only [scSum_operands hp hi hy]

end

end Sys2Proof.Machine
end

section
/-! Class 9: MZERO.cb and MST (O46). -/

namespace Sys2Proof.Machine

/-! ### MZERO.cb and MST (R250, R254) -/

section
variable {α : Type} [DecidableEq α] {z : α}

/-- A map listed from nothing, key by key of a list without repetition. -/
theorem Sparse.get_ofKeys {ι : Type} {κ : ι → Nat} {f : ι → α} {l : List ι} {x : ι} (hx : x ∈ l) (hk : (l.map κ).Nodup) :
    Sparse.get z (l.foldl (fun m x => Sparse.put z m (κ x) (f x)) []) (κ x) = f x :=
  Sparse.get_foldl_put_mem (g := fun x _ => f x) rfl hx hk

theorem Sparse.get_ofKeys_other {ι : Type} {κ : ι → Nat} {f : ι → α} {l : List ι} {e : Nat} (he : ∀ x ∈ l, κ x ≠ e) :
    Sparse.get z (l.foldl (fun m x => Sparse.put z m (κ x) (f x)) []) e = z :=
  Sparse.get_foldl_put_other (g := fun x _ => f x) l rfl he

/-- A map listed from nothing, number by number. -/
theorem Sparse.get_ofRange (f : Nat → α) (n e : Nat) :
    Sparse.get z ((List.range n).foldl (fun m i => Sparse.put z m i (f i)) []) e = if e < n then f e else z := by
  split
  · next h => exact Sparse.get_ofKeys (κ := id) (List.mem_range.2 h) (by simpa using List.nodup_range)
  · next h =>
    refine Sparse.get_ofKeys_other (κ := id) fun x hx he => h ?_
    rw [← he]
    exact List.mem_range.1 hx

end

section
variable {s t : State} {k : Cmd} {acc : Bool} {d : Desc}

/-- Entry (i, j) of the bank that MZERO.cb fills. -/
def cbEntry (b : Buffers) (d : Desc) (i j : Nat) : FA56 := BitVec.ofNat 56 (b.elem d i j)

/-- A check value of MZERO.cb: the sum over a line's entries. -/
def cbRow (b : Buffers) (d : Desc) (f : Num → Num) (i : Nat) : BitVec 32 := sum32 ((List.range (dCols d)).map fun j => f (faVal (cbEntry b d i j)))
def cbCol (b : Buffers) (d : Desc) (f : Num → Num) (j : Nat) : BitVec 32 := sum32 ((List.range (dRows d)).map fun i => f (faVal (cbEntry b d i j)))

def cbRows (b : Buffers) (d : Desc) (f : Num → Num) : Sparse (BitVec 32) :=
  (List.range (dRows d)).foldl (fun m i => Sparse.put 0 m i (cbRow b d f i)) []
def cbCols (b : Buffers) (d : Desc) (f : Num → Num) : Sparse (BitVec 32) :=
  (List.range (dCols d)).foldl (fun m j => Sparse.put 0 m j (cbCol b d f j)) []

/-- The accumulator that MZERO.cb leaves (R250). -/
def cbAcc (b : Buffers) (d : Desc) (a : Accum) : Accum :=
  { a with
    work := (winCells (dRows d) (dCols d)).foldl (fun w x => Sparse.put 0 w (bankAt x.1 x.2) (cbEntry b d x.1 x.2)) [],
    wpois := ((winCells (dRows d) (dCols d)).filter fun x => b.elemPois d x.1 x.2).foldl (fun l x => setIns l (bankAt x.1 x.2)) [],
    wtag := accTag,
    chk := { Check.armed with pr := cbRows b d id, pc := cbCols b d id, mr := cbRows b d Num.abs, mc := cbCols b d Num.abs } }

theorem runMzeroCb_acc (h : (runMzeroCb k acc s).stop = none) :
    onlyAcc s (runMzeroCb k acc s).s acc (cbAcc s.core.buf (k.d 0) (s.acc acc)) ∧ dCols (k.d 0) ≤ 128 := by
  unfold runMzeroCb at h ⊢
  obtain ⟨u, hu, he⟩ := whole_ok h
  rw [he]
  obtain ⟨hf, hu⟩ := efailIf_ok hu
  have hu := (efailIf_ok (efailIf_ok (efailIf_ok (efailIf_ok hu).2).2).2).2
  simp only [Bool.or_eq_false_iff, decide_eq_false_iff_not, not_lt] at hf
  refine ⟨?_, hf.1.2⟩
  rw [show (Prog.ok u 0).s = s.modAcc acc (cbAcc s.core.buf (k.d 0)) from (Leaves.eupd _) _ _ _ hu]
  exact .modAcc s acc _

/-- The bank's entry at a place, zero beyond the tile. -/
def cbAt (b : Buffers) (d : Desc) (i j : Nat) : FA56 := if i < dRows d ∧ j < dCols d then cbEntry b d i j else 0

theorem cbAcc_entry {b : Buffers} {a : Accum} {i j : Nat} (hd : dCols d ≤ 128) (hj : j < 128) :
    (cbAcc b d a).w (bankAt i j) = cbAt b d i j := by
  unfold Accum.w cbAcc cbAt
  dsimp only
  split
  · next h =>
    have hk := winAt_nodup (r0 := 0) (c0 := 0) (m := dRows d) (n := dCols d) (by omega)
    simp only [funext fun x : Nat × Nat => show winAt 0 0 x = bankAt x.1 x.2 by simp only [winAt, Nat.zero_add]] at hk
    exact Sparse.get_ofKeys (κ := fun x : Nat × Nat => bankAt x.1 x.2) (x := (i, j)) (mem_winCells.2 h) hk
  · next h =>
    refine Sparse.get_ofKeys_other (κ := fun x : Nat × Nat => bankAt x.1 x.2) fun x hx he => h ?_
    have hx := mem_winCells.1 hx
    obtain ⟨h1, h2⟩ := bankAt_inj (by omega) hj he
    omega

theorem cbRows_get (b : Buffers) (f : Num → Num) (i : Nat) : Sparse.get 0 (cbRows b d f) i =
    if i < dRows d then sum32 ((List.range (dCols d)).map fun j => f (faVal (cbAt b d i j))) else 0 := by
  refine (Sparse.get_ofRange _ _ _).trans (ite_congr rfl (fun hi => congrArg sum32 (List.map_congr_left fun j hj => ?_)) fun _ => rfl)
  rw [cbAt, if_pos ⟨hi, List.mem_range.1 hj⟩]

theorem cbCols_get (b : Buffers) (f : Num → Num) (j : Nat) : Sparse.get 0 (cbCols b d f) j =
    if j < dCols d then sum32 ((List.range (dRows d)).map fun i => f (faVal (cbAt b d i j))) else 0 := by
  refine (Sparse.get_ofRange _ _ _).trans (ite_congr rfl (fun hj => congrArg sum32 (List.map_congr_left fun i hi => ?_)) fun _ => rfl)
  rw [cbAt, if_pos ⟨List.mem_range.1 hi, hj⟩]

end

section
variable {s t : State} {k : Cmd} {acc add sat : Bool} {d : Desc} {rm : RM} {df : BitVec 4} {r0 c0 : Nat}

theorem checkMst_leaves (k : Cmd) (acc : Bool) (df : BitVec 4) (r0 c0 : Nat) : Leaves (checkMst k acc df r0 c0) id :=
  Reads.enow.leaves.after fun _ => by
    dsimp only
    iterate 7 refine (Reads.efailIf _ _).leaves.after fun _ => ?_
    exact (Reads.topBlkop _ _).leaves

/-- The pattern that MST writes to an element (R254). -/
def mstPat (acc : Bool) (d : Desc) (add sat : Bool) (rm : RM) (df : BitVec 4) (r0 c0 r c : Nat) (b : Buffers) : Nat :=
  let v := Sparse.get 0 b.cb (visBase acc + bankAt (r0 + r) (c0 + c))
  if df = 0xB then v.toNat
  else if add = true then (convert df rm sat (Num.add rm (elemVal df (b.elem d r c)) (faVal v)).1).1 else (convert df rm sat (faVal v)).1

/-- A pattern written to an element of a tile in any buffer. -/
def Buffers.putAny (b : Buffers) (d : Desc) (r c y : Nat) : Buffers :=
  if dSpace d = 2 then b.putCb (dBase d / 7 + dBitOff d r c / 56) (BitVec.ofNat 56 y) else b.putElem d r c y

/-- The buffers after an element of MST: poison of the visible entry goes with it. -/
def mstPut (acc : Bool) (d : Desc) (add sat : Bool) (rm : RM) (df : BitVec 4) (r0 c0 r c : Nat) (b : Buffers) : Buffers :=
  let b' := b.putAny d r c (mstPat acc d add sat rm df r0 c0 r c b)
  if setHas b.cbPois (visBase acc + bankAt (r0 + r) (c0 + c)) = true then b'.markPois (dSpace d) (dElemAt d r c).1 (dElemAt d r c).2 else b'

theorem mstElem_puts (r c : Nat) : Puts (mstElem acc d add sat rm df r0 c0 r c) (mstPut acc d add sat rm df r0 c0 r c) := by
  have hm : Leaves (mstElem acc d add sat rm df r0 c0 r c) fun s => s.modB fun _ => mstPut acc d add sat rm df r0 c0 r c s.core.buf := by
    unfold mstElem mstPut mstPat Buffers.putAny
    by_cases hd : df = 0xB
    · simp only [hd, beq_self_eq_true, if_true]
      exact (Leaves.read .enow fun u => .ret (.eupd _) fun _ => .pure _).congr fun s => rfl
    · simp only [hd, beq_eq_false_iff_ne.2 hd, if_false, Bool.false_eq_true]
      cases add <;> exact (Leaves.read .enow fun u => .ret (.eupd _) fun _ => .pure _).congr fun s => rfl
  exact hm

theorem mstRow_puts (r n c : Nat) : Puts (mstRow acc d add sat rm df r0 c0 r n c) fun b =>
    (List.range n).foldl (fun b j => mstPut acc d add sat rm df r0 c0 r (c + j) b) b := by
  induction n generalizing c with
  | zero => exact .pure _
  | succ n ih =>
    refine ((mstElem_puts r c).seq fun _ => (ih (c + 1)).ret fun _ => .pure _).congr fun b => ?_
    rw [List.range_succ_eq_map, List.foldl_cons, List.foldl_map]
    simp only [Nat.add_zero, Nat.succ_eq_add_one, Nat.add_comm, Nat.add_left_comm]

theorem write_cbPois {b : Buffers} (h : b.cbPois = []) (sp off : Nat) (bs : List Byte) : (b.write sp off bs).cbPois = [] := by
  unfold Buffers.write Buffers.put Buffers.pois
  dsimp only
  split <;> simp [h]

theorem putAny_cbPois {b : Buffers} (h : b.cbPois = []) (r c y : Nat) : (b.putAny d r c y).cbPois = [] := by
  unfold Buffers.putAny Buffers.putElem
  dsimp only
  split
  · simp [Buffers.putCb, setDel, h]
  · split <;> exact write_cbPois h _ _ _

/-- Where no visible entry is poisoned no mark is set. -/
theorem mstPut_clean {b : Buffers} (h : b.cbPois = []) (r c : Nat) :
    mstPut acc d add sat rm df r0 c0 r c b = b.putAny d r c (mstPat acc d add sat rm df r0 c0 r c b) := by
  simp [mstPut, h, setHas]

theorem foldl_mstPut {b : Buffers} (h : b.cbPois = []) (l : List (Nat × Nat)) :
    l.foldl (fun b x => mstPut acc d add sat rm df r0 c0 x.1 x.2 b) b =
      l.foldl (fun b x => b.putAny d x.1 x.2 (mstPat acc d add sat rm df r0 c0 x.1 x.2 b)) b := by
  induction l generalizing b with
  | nil => rfl
  | cons x l ih => rw [List.foldl_cons, List.foldl_cons, mstPut_clean h, ih (putAny_cbPois h _ _ _)]

theorem runMst_onlyBuf {r0 c0 : BitVec 7} (hu : k.upc = 0) (h : (runMst k acc add sat rm df r0 c0 s).stop = none) (hp : s.core.buf.cbPois = []) :
    onlyBuf s (runMst k acc add sat rm df r0 c0 s).s ((List.range (dRows (k.d 0) * dCols (k.d 0))).foldl (fun b i =>
      b.putAny (k.d 0) (i / dCols (k.d 0)) (i % dCols (k.d 0))
        (mstPat acc (k.d 0) add sat rm df r0.toNat c0.toNat (i / dCols (k.d 0)) (i % dCols (k.d 0)) b)) s.core.buf) := by
  unfold runMst at h ⊢
  rw [hu] at h ⊢
  have hr := checkedElems_onlyBuf (checkMst_leaves k acc df _ _) (fun r => mstRow_puts r (dCols (k.d 0)) 0) h
  have hf := foldl_mstPut (acc := acc) (d := k.d 0) (add := add) (sat := sat) (rm := rm) (df := df) (r0 := r0.toNat) (c0 := c0.toNat) hp
    (gridCells (dRows (k.d 0)) (dCols (k.d 0)))
  rw [gridCells_eq, List.foldl_map, List.foldl_map, ← List.foldl_map (f := fun i => (i / dCols (k.d 0), i % dCols (k.d 0)))
    (g := fun b x => mstPut acc (k.d 0) add sat rm df r0.toNat c0.toNat x.1 x.2 b), ← gridCells_eq, gridCells, List.foldl_flatMap] at hf
  rw [← hf]
  simpa only [Nat.zero_add, List.foldl_map] using hr

end

end Sys2Proof.Machine
end

section
/-! The FP32 pattern of a rounded value has 32 bits (O46). -/

namespace Sys2Proof.Machine

/-! ### An FP32 pattern has 32 bits (R58, R69) -/

section
variable {rm : RM} {neg : Bool} {m : Nat} {e q : Int}

theorem roundShift_le (rm : RM) (neg : Bool) (m sh : Nat) : m >>> sh ≤ roundShift rm neg m sh ∧ roundShift rm neg m sh ≤ m >>> sh + 1 := by
  unfold roundShift
  dsimp only
  split
  · omega
  · cases rm with
    | rtz => dsimp only; omega
    | _ => dsimp only; split <;> omega

/-- A magnitude at a quantum of its leading bits has one bit more than the quantum leaves, or the next power of two. -/
theorem roundAt_le {p : Nat} (h : e + m.log2 - p ≤ q) : roundAt rm neg m e q ≤ 2 ^ (p + 1) := by
  have hm : m < 2 ^ (m.log2 + 1) := Nat.lt_log2_self
  unfold roundAt
  split
  · rw [Nat.shiftLeft_eq]
    calc m * 2 ^ (e - q).toNat ≤ 2 ^ (m.log2 + 1) * 2 ^ (e - q).toNat := Nat.mul_le_mul_right _ hm.le
      _ = 2 ^ (m.log2 + 1 + (e - q).toNat) := (pow_add ..).symm
      _ ≤ 2 ^ (p + 1) := Nat.pow_le_pow_right (by decide) (by omega)
  · have hs : m >>> (q - e).toNat < 2 ^ (p + 1) := by
      rw [Nat.shiftRight_eq_div_pow, Nat.div_lt_iff_lt_mul (Nat.two_pow_pos _), ← pow_add]
      exact hm.trans_le (Nat.pow_le_pow_right (by decide) (by omega))
    have := (roundShift_le rm neg m (q - e).toNat).2
    omega

theorem le_roundAt {p : Nat} (hm : m ≠ 0) : 2 ^ p ≤ roundAt rm neg m e (e + m.log2 - p) := by
  have hl := Nat.log2_self_le hm
  unfold roundAt
  split
  · rw [Nat.shiftLeft_eq]
    calc 2 ^ p = 2 ^ m.log2 * 2 ^ (p - m.log2) := by rw [← pow_add]; congr 1; omega
      _ ≤ m * 2 ^ (e - (e + m.log2 - p)).toNat := Nat.mul_le_mul hl (Nat.pow_le_pow_right (by decide) (by omega))
  · refine le_trans ?_ (roundShift_le rm neg m _).1
    rw [Nat.shiftRight_eq_div_pow, Nat.le_div_iff_mul_le (Nat.two_pow_pos _), ← pow_add]
    exact (Nat.pow_le_pow_right (by decide) (by omega)).trans hl

theorem signBits_le (neg : Bool) : fp32.signBits neg ≤ 2 ^ 31 := by cases neg <;> decide

theorem fp32_encode_lt {n : Nat} (hn : n < 2 ^ 24) (hq : q ≤ 105) : fp32.encode neg n q < 2 ^ 32 := by
  have hs := signBits_le neg
  unfold FloatFmt.encode
  rw [show fp32.frac = 23 from rfl, show fp32.bias = 127 from rfl]
  split
  · omega
  · have : (q + (23 : Nat) + (127 : Nat)).toNat ≤ 255 := by omega
    have := Nat.mul_le_mul_right (2 ^ 23) this
    omega

/-- A value that does not overflow has its quantum in range. -/
theorem quantum_of_notOver {n : Nat} (hn : 2 ^ 23 ≤ n) (h : dyLt (2 ^ 24 - 1) 104 n q = false) : q ≤ 104 := by
  by_contra hq
  unfold dyLt at h
  rw [if_neg (by omega), decide_eq_false_iff_not, Nat.shiftLeft_eq] at h
  have : 2 ^ 1 ≤ 2 ^ (q - 104).toNat := Nat.pow_le_pow_right (by decide) (by omega)
  have := Nat.mul_le_mul hn this
  omega

theorem fp32_overflow_lt (rm : RM) (sat neg : Bool) : (fp32.overflow rm sat neg).1 < 2 ^ 32 := by
  cases rm <;> cases sat <;> cases neg <;> decide

theorem fp32_round_lt (rm : RM) (sat : Bool) (x : Num) : (fp32.round rm sat x).1 < 2 ^ 32 := by
  cases x with
  | nan => exact (by decide : fp32.nanBits < 2 ^ 32)
  | inf neg => exact (by decide +revert : fp32.infBits neg < 2 ^ 32)
  | fin neg m e =>
    unfold FloatFmt.round
    dsimp only
    split
    · have := signBits_le neg
      dsimp only
      omega
    next hm =>
      have h1 : 2 ^ 23 ≤ (fp32.unbounded rm neg m e).1 := le_roundAt (p := 23) hm
      rw [show fp32.maxFin = (2 ^ 24 - 1, 104) by decide, show fp32.frac = 23 from rfl, show fp32.qmin = -149 by decide]
      dsimp only
      cases ho : dyLt (2 ^ 24 - 1) 104 (fp32.unbounded rm neg m e).1 (fp32.unbounded rm neg m e).2 with
      | true =>
        rw [if_pos rfl]
        exact fp32_overflow_lt rm sat neg
      | false =>
        rw [if_neg (by decide)]
        have hq := quantum_of_notOver h1 ho
        have hu : e + m.log2 - (23 : Nat) = (fp32.unbounded rm neg m e).2 := rfl
        have hn := roundAt_le (rm := rm) (neg := neg) (m := m) (e := e) (q := max (fp32.unbounded rm neg m e).2 (-149)) (p := 23) (by omega)
        split
        · next hlt => exact fp32_encode_lt hlt (by omega)
        · exact fp32_encode_lt (by omega) (by omega)

end

end Sys2Proof.Machine
end

section
/-! Class 9: MCKS (O46). -/

namespace Sys2Proof.Machine

/-! ### The residue check: MCKS, MCKV and MFIX (R259 to R262) -/

section
variable {s t : State} {k : Cmd} {acc : Bool} {r0 m kk n i : Nat} {asx : Int} {f g : Nat → Nat → Num} {mp : Sparse (BitVec 32)}

/-- A check value with a value added to it (R259). -/
def chkUpd (asx : Int) (old : BitVec 32) (l : List Num) : BitVec 32 :=
  BitVec.ofNat 32 (fp32.round .rne false (Num.add .rne (fp32.decode old.toNat) (to32 ((numSum l).scale asx))).1).1

/-- Check values from r0 on, line i with the products f i added to it. -/
def chkLines (r0 m kk : Nat) (asx : Int) (f : Nat → Nat → Num) (mp : Sparse (BitVec 32)) : Sparse (BitVec 32) :=
  (List.range m).foldl (fun mp i => chkAdd mp (r0 + i) ((numSum ((List.range kk).map (f i))).scale asx)) mp

theorem chkLines_get (h : Sparse.rising mp = true) (hi : i < m) :
    Sparse.get 0 (chkLines r0 m kk asx f mp) (r0 + i) = chkUpd asx (Sparse.get 0 mp (r0 + i)) ((List.range kk).map (f i)) :=
  Sparse.get_foldl_put_mem (κ := fun i => r0 + i) (g := fun i x => chkUpd asx x ((List.range kk).map (f i))) h (List.mem_range.2 hi)
    (List.nodup_range.map fun _ _ h => Nat.add_left_cancel h)

theorem chkLines_other (h : Sparse.rising mp = true) (hi : i < r0 ∨ r0 + m ≤ i) :
    Sparse.get 0 (chkLines r0 m kk asx f mp) i = Sparse.get 0 mp i :=
  Sparse.get_foldl_put_other (κ := fun i => r0 + i) (g := fun i x => chkUpd asx x ((List.range kk).map (f i))) _ h fun x hx => by
    have := List.mem_range.1 hx
    omega

theorem chkLines_congr (h : ∀ i x, i < m → x < kk → f i x = g i x) : chkLines r0 m kk asx f mp = chkLines r0 m kk asx g mp := by
  refine List.foldl_ext _ _ _ fun mp i hi => ?_
  have hl : (List.range kk).map (f i) = (List.range kk).map (g i) :=
    List.map_congr_left fun x hx => h i x (List.mem_range.1 hi) (List.mem_range.1 hx)
  rw [hl]

/-- An accumulator whose check values have been updated by four families of products: of the rows, the columns, and the magnitudes of both. -/
def chkSums (r0 c0 m kk n : Nat) (asx : Int) (pr pc mr mc : Nat → Nat → Num) (q : Accum) : Accum :=
  { q with chk := { q.chk with
      pr := chkLines r0 m kk asx pr q.chk.pr, pc := chkLines c0 n kk asx pc q.chk.pc,
      mr := chkLines r0 m kk asx mr q.chk.mr, mc := chkLines c0 n kk asx mc q.chk.mc } }

theorem chkSums_congr {c0 : Nat} {pr pr' pc pc' mr mr' mc mc' : Nat → Nat → Num} {q : Accum} (hpr : ∀ i x, i < m → x < kk → pr i x = pr' i x)
    (hpc : ∀ j x, j < n → x < kk → pc j x = pc' j x) (hmr : ∀ i x, i < m → x < kk → mr i x = mr' i x)
    (hmc : ∀ j x, j < n → x < kk → mc j x = mc' j x) : chkSums r0 c0 m kk n asx pr pc mr mc q = chkSums r0 c0 m kk n asx pr' pc' mr' mc' q := by
  unfold chkSums
  rw [chkLines_congr hpr, chkLines_congr hpc, chkLines_congr hmr, chkLines_congr hmc]

/-- The sum of m values, rounded to FP32. -/
def sumTo32 (m : Nat) (f : Nat → Num) : Num := to32 (numSum ((List.range m).map f))

theorem sumTo32_congr {f g : Nat → Num} (h : ∀ i, i < m → f i = g i) : sumTo32 m f = sumTo32 m g := by
  unfold sumTo32
  rw [List.map_congr_left fun i hi => h i (List.mem_range.1 hi)]

/-- The accumulator that MCKS leaves, by the operands' values (R259). -/
def mcksAcc (r0 c0 m kk n : Nat) (asx : Int) (A B : Nat → Nat → Num) : Accum → Accum :=
  chkSums r0 c0 m kk n asx (fun i x => (Num.mul (A i x) (sumTo32 n fun j => B x j)).1) (fun j x => (Num.mul (sumTo32 m fun i => A i x) (B x j)).1)
    (fun i x => (Num.mul (A i x).abs (sumTo32 n fun j => (B x j).abs)).1) fun j x => (Num.mul (sumTo32 m fun i => (A i x).abs) (B x j).abs).1

theorem mcksAcc_congr {c0 : Nat} {A A' B B' : Nat → Nat → Num} (hA : ∀ i x, i < m → x < kk → A i x = A' i x)
    (hB : ∀ x j, x < kk → j < n → B x j = B' x j) (q : Accum) : mcksAcc r0 c0 m kk n asx A B q = mcksAcc r0 c0 m kk n asx A' B' q := by
  have hSA (h : Num → Num) {x : Nat} (hx : x < kk) : (sumTo32 m fun i => h (A i x)) = sumTo32 m fun i => h (A' i x) :=
    sumTo32_congr fun i hi => congrArg h (hA i x hi hx)
  have hSB (h : Num → Num) {x : Nat} (hx : x < kk) : (sumTo32 n fun j => h (B x j)) = sumTo32 n fun j => h (B' x j) :=
    sumTo32_congr fun j hj => congrArg h (hB x j hx hj)
  refine chkSums_congr (fun i x hi hx => ?_) (fun j x hj hx => ?_) (fun i x hi hx => ?_) fun j x hj hx => ?_
  · exact congrArg₂ (fun a b => (Num.mul a b).1) (hA i x hi hx) (hSB id hx)
  · exact congrArg₂ (fun a b => (Num.mul a b).1) (hSA id hx) (hB x j hx hj)
  · exact congrArg₂ (fun a b => (Num.mul a b).1) (congrArg Num.abs (hA i x hi hx)) (hSB Num.abs hx)
  · exact congrArg₂ (fun a b => (Num.mul a b).1) (hSA Num.abs hx) (congrArg Num.abs (hB x j hx hj))

/-- An operand's values as MCKS reads them. -/
theorem operand_reads (d : Desc) (tr : Bool) (m n : Nat) :
    ReadsB (eGrid (fun i j => do let (r, c) := opAt tr i j; pure (← eVal d r c).1) m n) fun b => gridOf (fun i j => (b.opVal d tr i j).1) m n :=
  eGrid_reads (fun i j => .bind (opVal_reads d tr i j) fun x => .pure x.1) m n

/-- An update of an accumulator that also reads the state's ASX. -/
theorem eupd_accs {F : Int → Accum → Accum} : Accs acc (eupd fun s => s.modAcc acc (F (k.asx acc s))) fun _ a => F (k.asxOf a) a :=
  (Leaves.eupd _).congr fun s => modAcc_const.symm.trans ((congrArg (fun a => s.modAcc acc fun _ => a) (by rw [asx_eq])).trans
    (modAcc_const (f := fun a => F (k.asxOf a) a)))

/-- The same as the command's text forms it, of lists of sums. -/
def mcksLists (r0 c0 m kk n : Nat) (asx : Int) (A B : Nat → Nat → Num) : Accum → Accum :=
  let ks := List.range kk
  let sums (l : Nat → Num) : List Num := ks.map l
  let at_ (l : List Num) (x : Nat) : Num := l.getD x (.fin false 0 0)
  chkSums r0 c0 m kk n asx (fun i x => (Num.mul (A i x) (at_ (sums fun x => sumTo32 n fun j => B x j) x)).1)
    (fun j x => (Num.mul (at_ (sums fun x => sumTo32 m fun i => A i x) x) (B x j)).1)
    (fun i x => (Num.mul (A i x).abs (at_ (sums fun x => sumTo32 n fun j => (B x j).abs) x)).1)
    fun j x => (Num.mul (at_ (sums fun x => sumTo32 m fun i => (A i x).abs) x) (B x j).abs).1

theorem mcksLists_eq {c0 : Nat} {A B : Nat → Nat → Num} (q : Accum) : mcksLists r0 c0 m kk n asx A B q = mcksAcc r0 c0 m kk n asx A B q := by
  have hat (f : Nat → Num) {x : Nat} (hx : x < kk) : ((List.range kk).map f).getD x (.fin false 0 0) = f x := by
    simp [List.getD_eq_getElem?_getD, hx]
  exact chkSums_congr (fun i x _ hx => congrArg (fun z => (Num.mul (A i x) z).1) (hat _ hx))
    (fun j x _ hx => congrArg (fun z => (Num.mul z (B x j)).1) (hat _ hx))
    (fun i x _ hx => congrArg (fun z => (Num.mul (A i x).abs z).1) (hat _ hx))
    fun j x _ hx => congrArg (fun z => (Num.mul z (B x j).abs).1) (hat _ hx)

theorem runMcks_acc {ta tb : Bool} {r0 c0 : BitVec 7} (h : (runMcks k acc ta tb r0 c0 s).stop = none) :
    onlyAcc s (runMcks k acc ta tb r0 c0 s).s acc (mcksAcc r0.toNat c0.toNat (opRows (k.d 0) ta) (opCols (k.d 0) ta) (opCols (k.d 1) tb) (k.asx acc s)
      (fun i x => (s.core.buf.opVal (k.d 0) ta i x).1) (fun x j => (s.core.buf.opVal (k.d 1) tb x j).1) (s.acc acc)) := by
  have hm : Accs acc (do
      checkMma k acc ta tb r0.toNat c0.toNat
      let av ← eGrid (fun i j => do let (r, c) := opAt ta i j; pure (← eVal (k.d 0) r c).1) (opRows (k.d 0) ta) (opCols (k.d 0) ta)
      let bv ← eGrid (fun i j => do let (r, c) := opAt tb i j; pure (← eVal (k.d 1) r c).1) (opCols (k.d 0) ta) (opCols (k.d 1) tb)
      eupd fun s => s.modAcc acc (mcksLists r0.toNat c0.toNat (opRows (k.d 0) ta) (opCols (k.d 0) ta) (opCols (k.d 1) tb) (k.asx acc s)
        (gridAt (.fin false 0 0) av) (gridAt (.fin false 0 0) bv)))
      fun b a => mcksAcc r0.toNat c0.toNat (opRows (k.d 0) ta) (opCols (k.d 0) ta) (opCols (k.d 1) tb) (k.asxOf a)
        (fun i x => (b.opVal (k.d 0) ta i x).1) (fun x j => (b.opVal (k.d 1) tb x j).1) a := by
    have hr (av bv : List (List Num)) := eupd_accs (k := k) (acc := acc) (F := fun x => mcksLists r0.toNat c0.toNat (opRows (k.d 0) ta)
      (opCols (k.d 0) ta) (opCols (k.d 1) tb) x (gridAt (.fin false 0 0) av) (gridAt (.fin false 0 0) bv))
    refine Accs.congr (Accs.after (checkMma_leaves k acc ta tb _ _) fun _ => Accs.read (operand_reads (k.d 0) ta _ _) fun av =>
      Accs.read (operand_reads (k.d 1) tb _ _) (hr av)) fun b a => ?_
    rw [mcksLists_eq]
    exact mcksAcc_congr (fun i x hi hx => by rw [gridAt_gridOf, if_pos ⟨hi, hx⟩]) (fun x j hx hj => by rw [gridAt_gridOf, if_pos ⟨hx, hj⟩]) a
  have hw : (runMcks k acc ta tb r0 c0 s).s = s.modAcc acc _ := whole_leaves hm h
  rw [hw]
  exact .modAcc s acc _

end

end Sys2Proof.Machine
end

section
/-! Class 9: MCKV and MFIX (O46). -/

namespace Sys2Proof.Machine

/-! ### MCKV and MFIX (R260 to R262) -/

section
variable {m : Sparse Byte} {a x : Nat} {bs : List Byte}

/-- What a rising memory gives after a write of bytes. -/
theorem get_writeBytes (h : Sparse.rising m = true) (a : Nat) (bs : List Byte) (x : Nat) :
    Sparse.get 0 (writeBytes m a bs) x = if a ≤ x ∧ x < a + bs.length then bs.getD (x - a) 0 else Sparse.get 0 m x := by
  induction bs generalizing m a with
  | nil => rw [if_neg (by simp)]; rfl
  | cons b bs ih =>
    rw [writeBytes, ih (Sparse.rising_put 0 a b h), Sparse.get_put h, List.length_cons]
    by_cases hx : x = a
    · rw [if_neg (by omega), if_pos hx, if_pos (by omega), hx, Nat.sub_self]
      rfl
    · rw [if_neg hx]
      by_cases hi : a + 1 ≤ x ∧ x < a + 1 + bs.length
      · rw [if_pos hi, if_pos (by omega), show x - a = x - (a + 1) + 1 by omega]
        rfl
      · rw [if_neg hi, if_neg (by omega)]

theorem leBytes_length (n x : Nat) : (leBytes n x).length = n := by
  induction n generalizing x with
  | zero => rfl
  | succ n ih => rw [leBytes, List.length_cons, ih]

theorem leNat_leBytes {n x : Nat} (h : x < 256 ^ n) : leNat (leBytes n x) = x := by
  induction n generalizing x with
  | zero => simpa [leBytes, leNat, eq_comm] using h
  | succ n ih =>
    rw [leBytes, leNat, ih (by rw [pow_succ] at h; omega), BitVec.toNat_ofNat]
    omega

/-- Four bytes of a list, in turn. -/
theorem getD_range_four {b c l : List Byte} (hb : b.length = 4) {o : Nat} (ho : l.length = o) :
    ((List.range 4).map fun x => (l ++ (b ++ c)).getD (o + x) 0) = b := by
  refine List.ext_getElem (by simp [hb]) fun i h1 h2 => ?_
  simp [List.getD_eq_getElem?_getD, ← ho, List.getElem?_append_right, List.getElem?_append_left h2, h2]

end

section
variable {s t : State} {acc rpl : Bool} {a : Accum} {off : BitVec 14}

/-- The value of an entry, and the outcome of a row and of a column of the check. -/
def Accum.val (a : Accum) (i j : Nat) : Num := faVal (a.w (bankAt i j))
def Accum.rowLine (a : Accum) (i : Nat) : Line1 := checkLine (Sparse.get 0 a.chk.pr i) (Sparse.get 0 a.chk.mr i) ((List.range 128).map (a.val i))
def Accum.colLine (a : Accum) (j : Nat) : Line1 :=
  checkLine (Sparse.get 0 a.chk.pc j) (Sparse.get 0 a.chk.mc j) ((List.range 128).map fun i => a.val i j)

def Accum.rowLines (a : Accum) : List Line1 := (List.range 128).map a.rowLine
def Accum.colLines (a : Accum) : List Line1 := (List.range 128).map a.colLine

/-- The lines that mismatch. -/
def badLines (l : List Line1) : Nat := l.countP (·.bad)
def firstBadLine (l : List Line1) : Nat := l.findIdx (·.bad)

/-- Whether the check passes, and whether it locates one entry (R260). -/
def Accum.pass (a : Accum) : Bool := badLines a.rowLines = 0 && badLines a.colLines = 0
def Accum.located (a : Accum) : Bool := badLines a.rowLines = 1 && badLines a.colLines = 1

/-- The FP32 bytes of a difference. -/
def diffBytes (x : Num) : List Byte := leBytes 4 (fp32.round .rne false x).1

/-- The differences of a located entry's column and row. -/
def Accum.diffs (a : Accum) : List Byte :=
  let z : Line1 := ⟨false, false, .fin false 0 0⟩
  if a.located then diffBytes (a.colLines.getD (firstBadLine a.colLines) z).diff ++ diffBytes (a.rowLines.getD (firstBadLine a.rowLines) z).diff
  else List.replicate 8 0

/-- The first bytes of the report of a check that was armed (R261). -/
def Accum.reportHead (a : Accum) : List Byte :=
  leBytes 1 (if a.pass then 0 else if a.located then 1 else 2) ++ leBytes 1 (badLines a.rowLines) ++ leBytes 1 (badLines a.colLines) ++
  leBytes 1 (if a.located then firstBadLine a.rowLines else 0) ++ leBytes 1 (if a.located then firstBadLine a.colLines else 0) ++
  leBytes 1 (a.rowLines.countP (·.unchecked)) ++ leBytes 1 (a.colLines.countP (·.unchecked)) ++ [0]

/-- The report of a check that was armed (R261). -/
def Accum.report (a : Accum) : List Byte :=
  a.reportHead ++ a.diffs ++ bitmap (a.rowLines.map (·.bad)) ++ bitmap (a.colLines.map (·.bad)) ++ List.replicate 16 0

/-- The check state with the located entry. -/
def Accum.locate (a : Accum) : Accum :=
  { a with chk := { a.chk with loc := true, row := BitVec.ofNat 7 (firstBadLine a.rowLines), col := BitVec.ofNat 7 (firstBadLine a.colLines) } }

theorem runMckv_eq : runMckv acc rpl off s =
    if tDom (s.acc acc).wtag != 0 then { Prog.ok s 0 with stop := some (.fault cDOMAIN none 0) }
    else if !(s.acc acc).chk.arm then .ok (s.spillPut off.toNat (3 :: List.replicate 63 0)) 0
    else if !(s.acc acc).wpois.isEmpty then { Prog.ok s 0 with stop := some (.fault cPOISON none 0) }
    else if (s.acc acc).pass then .ok (s.spillPut off.toNat (s.acc acc).report) 0
    else if (s.acc acc).located then
      .ok ((s.spillPut off.toNat (s.acc acc).report).modAcc acc fun q => { q with chk := { q.chk with
        loc := true, row := BitVec.ofNat 7 (firstBadLine (s.acc acc).rowLines), col := BitVec.ofNat 7 (firstBadLine (s.acc acc).colLines) } }) 0
    else if rpl && s.core.t.tile.opened then
      if s.core.t.tile.replays = 0 then
        { Prog.ok ((s.spillPut off.toNat (s.acc acc).report).modT Task.tileError) 0 with stop := some .wait }
      else { Prog.ok (s.spillPut off.toNat (s.acc acc).report) 0 with stop := some (.fault cREPLAY none 0) }
    else { Prog.ok (s.spillPut off.toNat (s.acc acc).report) 0 with stop := some (.fault cREPLAY none 0) } := rfl

/-- MCKV that does not stop: the check was not armed, passes, or locates one entry. -/
theorem runMckv_ok (h : (runMckv acc rpl off s).stop = none) :
    ((s.acc acc).chk.arm = false ∧ (runMckv acc rpl off s).s = s.spillPut off.toNat (3 :: List.replicate 63 0)) ∨
    ((s.acc acc).chk.arm = true ∧ (s.acc acc).pass = true ∧ (runMckv acc rpl off s).s = s.spillPut off.toNat (s.acc acc).report) ∨
    ((s.acc acc).chk.arm = true ∧ (s.acc acc).pass = false ∧ (s.acc acc).located = true ∧
      (runMckv acc rpl off s).s = (s.spillPut off.toNat (s.acc acc).report).modAcc acc fun _ => (s.acc acc).locate) := by
  rw [runMckv_eq] at h ⊢
  split at h
  · cases h
  next hd =>
    rw [if_neg hd]
    split at h
    · next ha => exact .inl ⟨by simpa using ha, by rw [if_pos ha]; rfl⟩
    next ha =>
      have harm : (s.acc acc).chk.arm = true := by simpa using ha
      rw [if_neg ha]
      split at h
      · cases h
      next hp =>
        rw [if_neg hp]
        split at h
        · next hpass => exact .inr (.inl ⟨harm, hpass, by rw [if_pos hpass]; rfl⟩)
        next hpass =>
          rw [if_neg hpass]
          split at h
          · next hloc =>
            refine .inr (.inr ⟨harm, eq_false_of_ne_true hpass, hloc, ?_⟩)
            rw [if_pos hloc]
            cases acc <;> rfl
          · split at h
            · split at h <;> cases h
            · cases h

@[simp] theorem spillPut_acc (bs : List Byte) (o : Nat) : (s.spillPut o bs).acc acc = s.acc acc := rfl
@[simp] theorem spillPut_buf (bs : List Byte) (o : Nat) : (s.spillPut o bs).core.buf = s.core.buf := rfl
@[simp] theorem spillPut_regs (bs : List Byte) (o : Nat) : (s.spillPut o bs).core.t.regs = s.core.t.regs := rfl
@[simp] theorem spillPut_spill (bs : List Byte) (o : Nat) : (s.spillPut o bs).core.t.spill = writeBytes s.core.t.spill o bs := rfl
@[simp] theorem modAcc_spill (f : Accum → Accum) : (s.modAcc acc f).core.t.spill = s.core.t.spill := by cases acc <;> rfl
@[simp] theorem modAcc_regs (f : Accum → Accum) : (s.modAcc acc f).core.t.regs = s.core.t.regs := by cases acc <;> rfl

theorem reportHead_length (a : Accum) : a.reportHead.length = 8 := rfl

theorem report_length (a : Accum) : a.report.length = 64 := by
  have hd : a.diffs.length = 8 := by
    unfold Accum.diffs diffBytes
    cases a.located <;> simp [leBytes_length]
  simp only [Accum.report, List.length_append, reportHead_length, hd, bitmap, leBytes_length, List.length_replicate]

theorem report_head (a : Accum) {x : Nat} (hx : x < 8) : a.report.getD x 0 = a.reportHead.getD x 0 := by
  rw [← reportHead_length a] at hx
  simp only [Accum.report, List.append_assoc, List.getD_eq_getElem?_getD, List.getElem?_append_left hx]

theorem badLines_eq_zero {f : Nat → Line1} (h : ∀ i, i < 128 → (f i).bad = false) : badLines ((List.range 128).map f) = 0 := by
  refine List.countP_eq_zero.2 fun x hx => ?_
  obtain ⟨i, hi, rfl⟩ := List.mem_map.1 hx
  rw [h i (List.mem_range.1 hi)]
  decide

/-- One line that mismatches alone. -/
theorem badLines_eq_one {f : Nat → Line1} {i : Nat} (hi : i < 128) (hb : (f i).bad = true) (h : ∀ x, x < 128 → (f x).bad = true → x = i) :
    badLines ((List.range 128).map f) = 1 ∧ firstBadLine ((List.range 128).map f) = i := by
  constructor
  · rw [badLines, List.countP_map, ← List.count_eq_one_of_mem List.nodup_range (List.mem_range.2 hi)]
    refine List.countP_congr fun x hx => ⟨fun hf => ?_, fun he => ?_⟩
    · exact beq_iff_eq.2 (h x (List.mem_range.1 hx) hf)
    · rw [eq_of_beq he]; exact hb
  · refine (List.findIdx_eq (by simpa using hi)).2 ⟨by simpa using hb, fun j hj => ?_⟩
    rw [List.getElem_map, List.getElem_range]
    exact eq_false_of_ne_true fun hj' => hj.ne (h j (hj.trans hi) hj')

/-- The report of a check that located entry (i, j). -/
theorem report_located {i j : Nat} (hi : i < 128) (hj : j < 128) (hr : badLines a.rowLines = 1 ∧ firstBadLine a.rowLines = i)
    (hc : badLines a.colLines = 1 ∧ firstBadLine a.colLines = j) :
    a.report.getD 0 0 = 1 ∧ a.report.getD 1 0 = 1 ∧ a.report.getD 2 0 = 1 ∧
      a.report.getD 3 0 = BitVec.ofNat 8 i ∧ a.report.getD 4 0 = BitVec.ofNat 8 j ∧
      ((List.range 4).map fun x => a.report.getD (8 + x) 0) = diffBytes (a.colLine j).diff ∧
      ((List.range 4).map fun x => a.report.getD (12 + x) 0) = diffBytes (a.rowLine i).diff := by
  obtain ⟨hr1, hr2⟩ := hr
  obtain ⟨hc1, hc2⟩ := hc
  have hp : a.pass = false := by simp [Accum.pass, hr1]
  have hl : a.located = true := by simp [Accum.located, hr1, hc1]
  have hrow : a.rowLines.getD i ⟨false, false, .fin false 0 0⟩ = a.rowLine i := by simp [Accum.rowLines, hi]
  have hcol : a.colLines.getD j ⟨false, false, .fin false 0 0⟩ = a.colLine j := by simp [Accum.colLines, hj]
  have hd : a.diffs = diffBytes (a.colLine j).diff ++ diffBytes (a.rowLine i).diff := by
    simp only [Accum.diffs, hl, if_true, hr2, hc2, hrow, hcol]
  have hhead : a.reportHead = [1, 1, 1, BitVec.ofNat 8 i, BitVec.ofNat 8 j] ++ a.reportHead.drop 5 := by
    have hi' : i % 256 = i := by omega
    have hj' : j % 256 = j := by omega
    simp only [Accum.reportHead, hp, hl, hr1, hc1, hr2, hc2, Bool.false_eq_true, if_false, if_true, leBytes, hi', hj']
    rfl
  refine ⟨?_, ?_, ?_, ?_, ?_, ?_, ?_⟩
  iterate 5 rw [report_head a (by decide), hhead]; rfl
  · rw [Accum.report, hd]
    simp only [List.append_assoc]
    exact getD_range_four (leBytes_length 4 _) (reportHead_length a)
  · rw [Accum.report, hd]
    simp only [List.append_assoc]
    rw [← List.append_assoc a.reportHead]
    exact getD_range_four (leBytes_length 4 _) (by rw [List.length_append, reportHead_length, diffBytes, leBytes_length])

/-- What MCKV leaves: the report in spill memory, and the accumulator as it was or with the located entry. -/
structure Checked (s : State) (acc : Bool) (off : Nat) (t : State) (rep : List Byte) : Prop where
  buf : t.core.buf = s.core.buf
  regs : t.core.t.regs = s.core.t.regs
  spill : t.core.t.spill = writeBytes s.core.t.spill off rep
  long : rep.length = 64
  acc : ((s.acc acc).chk.arm = false ∧ rep = 3 :: List.replicate 63 0 ∧ t.acc acc = s.acc acc) ∨
    ((s.acc acc).chk.arm = true ∧ (s.acc acc).pass = true ∧ rep = (s.acc acc).report ∧ t.acc acc = s.acc acc) ∨
    ((s.acc acc).chk.arm = true ∧ (s.acc acc).pass = false ∧ rep = (s.acc acc).report ∧ t.acc acc = (s.acc acc).locate)

theorem runMckv_checked (h : (runMckv acc rpl off s).stop = none) : ∃ rep, Checked s acc off.toNat (runMckv acc rpl off s).s rep := by
  obtain ⟨ha, hs⟩ | ⟨ha, hp, hs⟩ | ⟨ha, hp, -, hs⟩ := runMckv_ok h
  · rw [hs]
    exact ⟨3 :: List.replicate 63 0, spillPut_buf _ _, spillPut_regs _ _, spillPut_spill _ _, by simp, .inl ⟨ha, rfl, spillPut_acc _ _⟩⟩
  · rw [hs]
    exact ⟨(s.acc acc).report, spillPut_buf _ _, spillPut_regs _ _, spillPut_spill _ _, report_length _, .inr (.inl ⟨ha, hp, rfl, spillPut_acc _ _⟩)⟩
  · rw [hs]
    exact ⟨(s.acc acc).report, buf_modAcc.trans (spillPut_buf _ _), (modAcc_regs _).trans (spillPut_regs _ _),
      (modAcc_spill _).trans (spillPut_spill _ _), report_length _, .inr (.inr ⟨ha, hp, rfl, acc_modAcc⟩)⟩

variable {rep : List Byte} {o : Nat}

theorem Checked.byte (h : Checked s acc o t rep) (hr : Sparse.rising s.core.t.spill = true) {x : Nat} (hx : x < 64) :
    Sparse.get 0 t.core.t.spill (o + x) = rep.getD x 0 := by
  rw [h.spill, get_writeBytes hr, h.long, if_pos (by omega), Nat.add_sub_cancel_left]

theorem Checked.outside (h : Checked s acc o t rep) (hr : Sparse.rising s.core.t.spill = true) {x : Nat} (hx : x < o ∨ o + 64 ≤ x) :
    Sparse.get 0 t.core.t.spill x = Sparse.get 0 s.core.t.spill x := by
  rw [h.spill, get_writeBytes hr, h.long, if_neg (by omega)]

theorem Checked.bank (h : Checked s acc o t rep) (x : Nat) : (t.acc acc).w x = (s.acc acc).w x := by
  obtain ⟨-, -, he⟩ | ⟨-, -, -, he⟩ | ⟨-, -, -, he⟩ := h.acc <;> rw [he]
  rfl

theorem Checked.unarmed (h : Checked s acc o t rep) (ha : (s.acc acc).chk.arm = false) : rep = 3 :: List.replicate 63 0 ∧ t.acc acc = s.acc acc := by
  obtain ⟨-, hr, he⟩ | ⟨ha', -⟩ | ⟨ha', -⟩ := h.acc
  · exact ⟨hr, he⟩
  · rw [ha] at ha'; cases ha'
  · rw [ha] at ha'; cases ha'

theorem Checked.armed (h : Checked s acc o t rep) (ha : (s.acc acc).chk.arm = true) :
    rep = (s.acc acc).report ∧ t.acc acc = if (s.acc acc).pass then s.acc acc else (s.acc acc).locate := by
  obtain ⟨ha', -⟩ | ⟨-, hp, hr, he⟩ | ⟨-, hp, hr, he⟩ := h.acc
  · rw [ha] at ha'; cases ha'
  · rw [hp]; exact ⟨hr, he⟩
  · rw [hp]; exact ⟨hr, he⟩

/-- A check without a line that mismatches passes. -/
theorem pass_of_good (h : ∀ i, i < 128 → (a.rowLine i).bad = false ∧ (a.colLine i).bad = false) : a.pass = true := by
  have hr : badLines a.rowLines = 0 := badLines_eq_zero fun i hi => (h i hi).1
  have hc : badLines a.colLines = 0 := badLines_eq_zero fun i hi => (h i hi).2
  simp [Accum.pass, hr, hc]

theorem report_pass (h : a.pass = true) : a.report.getD 0 0 = 0 := by
  rw [report_head a (by decide), Accum.reportHead, h]
  rfl

theorem leNat_diffBytes (x : Num) : leNat (diffBytes x) = (fp32.round .rne false x).1 := leNat_leBytes (fp32_round_lt ..)

theorem Checked.passed (h : Checked s acc o t rep) (hs : Sparse.rising s.core.t.spill = true) (ha : (s.acc acc).chk.arm = true)
    (hg : ∀ i, i < 128 → ((s.acc acc).rowLine i).bad = false ∧ ((s.acc acc).colLine i).bad = false) :
    Sparse.get 0 t.core.t.spill (o + 0) = 0 ∧ t.acc acc = s.acc acc := by
  obtain ⟨rfl, he⟩ := h.armed ha
  have hpass := pass_of_good hg
  exact ⟨(h.byte hs (by decide)).trans (report_pass hpass), he.trans (if_pos hpass)⟩

/-- The report and the accumulator of a check that one row i and one column j alone fail. -/
theorem Checked.located {i j : Nat} (h : Checked s acc o t rep) (hs : Sparse.rising s.core.t.spill = true) (ha : (s.acc acc).chk.arm = true)
    (hi : i < 128) (hj : j < 128) (hr : ((s.acc acc).rowLine i).bad = true) (hc : ((s.acc acc).colLine j).bad = true)
    (hu : ∀ x, x < 128 → (((s.acc acc).rowLine x).bad = true → x = i) ∧ (((s.acc acc).colLine x).bad = true → x = j)) :
    let byte (x : Nat) : Byte := Sparse.get 0 t.core.t.spill (o + x)
    byte 0 = 1 ∧ byte 1 = 1 ∧ byte 2 = 1 ∧ byte 3 = BitVec.ofNat 8 i ∧ byte 4 = BitVec.ofNat 8 j ∧
      t.acc acc = { s.acc acc with chk := { (s.acc acc).chk with loc := true, row := BitVec.ofNat 7 i, col := BitVec.ofNat 7 j } } ∧
      leNat ((List.range 4).map fun x => byte (8 + x)) = (fp32.round .rne false ((s.acc acc).colLine j).diff).1 ∧
      leNat ((List.range 4).map fun x => byte (12 + x)) = (fp32.round .rne false ((s.acc acc).rowLine i).diff).1 := by
  obtain ⟨rfl, he⟩ := h.armed ha
  intro byte
  have hbyte (x : Nat) (hx : x < 64) : byte x = (s.acc acc).report.getD x 0 := h.byte hs hx
  have hfour (n : Nat) (hn : n ≤ 60) : (List.range 4).map (fun x => byte (n + x)) = (List.range 4).map fun x => (s.acc acc).report.getD (n + x) 0 :=
    List.map_congr_left fun x hx => hbyte (n + x) (by have := List.mem_range.1 hx; omega)
  have hrow : badLines (s.acc acc).rowLines = 1 ∧ firstBadLine (s.acc acc).rowLines = i := badLines_eq_one hi hr fun x hx => (hu x hx).1
  have hcol : badLines (s.acc acc).colLines = 1 ∧ firstBadLine (s.acc acc).colLines = j := badLines_eq_one hj hc fun x hx => (hu x hx).2
  have hpass : (s.acc acc).pass = false := by simp [Accum.pass, hrow.1]
  obtain ⟨b0, b1, b2, b3, b4, b8, b12⟩ := report_located hi hj hrow hcol
  refine ⟨(hbyte 0 (by decide)).trans b0, (hbyte 1 (by decide)).trans b1, (hbyte 2 (by decide)).trans b2, (hbyte 3 (by decide)).trans b3,
    (hbyte 4 (by decide)).trans b4, ?_, ?_, ?_⟩
  · rw [he, hpass, if_neg Bool.false_ne_true, Accum.locate, hrow.2, hcol.2]
  · rw [hfour 8 (by decide), b8, leNat_diffBytes]
  · rw [hfour 12 (by decide), b12, leNat_diffBytes]

end

section
variable {s : State} {acc : Bool}

/-- MFIX of an accumulator with a located entry (R262). -/
def fixed (a : Accum) : Accum :=
  { a.setW (bankAt a.chk.row.toNat a.chk.col.toNat) (roundFA (Num.add .rne (fp32.decode (Sparse.get 0 a.chk.pc a.chk.col.toNat).toNat)
      (numSum (((List.range 128).filter (· ≠ a.chk.row.toNat)).map fun r => faVal (a.w (bankAt r a.chk.col.toNat)))).neg).1).1 with
    wpois := setDel a.wpois (bankAt a.chk.row.toNat a.chk.col.toNat), chk := { a.chk with loc := false } }

theorem runMfix_eq : (runMfix acc s).s = s.modAcc acc fun _ => if !(s.acc acc).chk.loc then s.acc acc else fixed (s.acc acc) :=
  (modAcc_const (f := fun a => if !a.chk.loc then a else fixed a)).symm

theorem runMfix_none (h : (s.acc acc).chk.loc = false) : (runMfix acc s).s = s := by
  rw [runMfix_eq, h]
  cases acc <;> rfl

theorem runMfix_loc (h : (s.acc acc).chk.loc = true) : (runMfix acc s).s = s.modAcc acc fun _ => fixed (s.acc acc) := by
  rw [runMfix_eq, h]
  rfl

theorem fixed_w {a : Accum} (hr : Sparse.rising a.work = true) (x : Nat) : (fixed a).w x =
    if x = bankAt a.chk.row.toNat a.chk.col.toNat then (roundFA (Num.add .rne (fp32.decode (Sparse.get 0 a.chk.pc a.chk.col.toNat).toNat)
      (numSum (((List.range 128).filter (· ≠ a.chk.row.toNat)).map fun r => faVal (a.w (bankAt r a.chk.col.toNat)))).neg).1).1 else a.w x :=
  Sparse.get_put hr _ _ _

end

end Sys2Proof.Machine
end

section
/-! Class 5: translated ranges, and the elements of a copy (O46). -/

namespace Sys2Proof.Machine

/-! ### Translated ranges (R117, R133, R168) -/

/-- t is s but for the translation structures and what translation notes of an access. -/
structure OnlyFills (s t : State) : Prop where
  task : t.core.t = s.core.t
  buf : t.core.buf = s.core.buf
  bytes : t.mem.bytes = s.mem.bytes
  comp : t.mem.comp = s.mem.comp
  plat : t.plat = s.plat

section
variable {s t u : State}

theorem OnlyFills.refl (s : State) : OnlyFills s s := ⟨rfl, rfl, rfl, rfl, rfl⟩

theorem OnlyFills.trans (h : OnlyFills s t) (h' : OnlyFills t u) : OnlyFills s u :=
  ⟨h'.task.trans h.task, h'.buf.trans h.buf, h'.bytes.trans h.bytes, h'.comp.trans h.comp, h'.plat.trans h.plat⟩

theorem sameBytes_of (ht : t.core.t.view = s.core.t.view) (hb : t.mem.bytes = s.mem.bytes) : sameBytes s t := by
  have hh (a : Nat) : t.homeByte a = s.homeByte a := by unfold State.homeByte; rw [hb]
  refine fun a => ⟨hh a, ?_⟩
  unfold State.viewByte
  rw [ht, hh a]

theorem OnlyFills.sameBytes (h : OnlyFills s t) : sameBytes s t := sameBytes_of (congrArg Task.view h.task) h.bytes

theorem sameBytes.refl (s : State) : sameBytes s s := fun _ => ⟨rfl, rfl⟩

theorem sameBytes.trans (h : sameBytes s t) (h' : sameBytes t u) : sameBytes s u :=
  fun a => ⟨(h' a).1.trans (h a).1, (h' a).2.trans (h a).2⟩

theorem lookup_onlyFills (ctx : BitVec 12) (va : Nat) : OnlyFills s (lookup s ctx va).1 := by
  unfold lookup
  split
  · exact .refl s
  · dsimp only
    split
    · exact .refl s
    · exact ⟨rfl, rfl, rfl, rfl, rfl⟩

theorem translate_onlyFills (ctx : BitVec 12) (va : Word) (a : Acc) (task : Bool) : OnlyFills s (translate s ctx va a task).1 := by
  have hl := lookup_onlyFills (s := s) ctx va.toNat
  unfold translate
  split
  · exact .refl s
  · dsimp only
    split
    · exact hl
    · split
      · exact ⟨hl.task, hl.buf, hl.bytes, hl.comp, hl.plat⟩
      · exact hl

theorem exlate_onlyFills {va : Word} {a : Acc} {x : Xl} (h : exlate va a s = .ok (x, t)) : OnlyFills s t := by
  have ht := translate_onlyFills (s := s) s.cid va a (!s.core.t.prv)
  unfold exlate at h
  split at h
  · next v _ hv =>
    rw [hv] at ht
    split at h
    · cases h
    · cases h; exact ht
  · cases h

theorem ePieces_onlyFills {a : Acc} {f n : Nat} {va : Word} {l : List (Word × Xl × Nat)} (h : ePieces a f va n s = .ok (l, t)) : OnlyFills s t := by
  induction f generalizing s va n l with
  | zero => cases h; exact .refl _
  | succ f ih =>
    unfold ePieces at h
    split at h
    · cases h; exact .refl _
    · obtain ⟨x, u, hx, h⟩ := eBind_ok h
      obtain ⟨l', v, hl, h⟩ := eBind_ok h
      cases h
      exact (exlate_onlyFills hx).trans (ih hl)

theorem eRange_onlyFills {a : Acc} {n : Nat} {va : Word} {l : List (Word × Xl × Nat)} (h : eRange a va n s = .ok (l, t)) : OnlyFills s t :=
  ePieces_onlyFills h

/-- The pieces of a range hold all its bytes. -/
theorem ePieces_total {a : Acc} {f n : Nat} {va : Word} {l : List (Word × Xl × Nat)} (h : ePieces a f va n s = .ok (l, t))
    (hf : n + va.toNat % 4096 ≤ 4096 * f ∨ n = 0) : (l.map (·.2.2)).sum = n := by
  induction f generalizing s va n l with
  | zero =>
    cases h
    have := Nat.mod_lt va.toNat (show 0 < 4096 by decide)
    simp only [List.map_nil, List.sum_nil]
    omega
  | succ f ih =>
    unfold ePieces at h
    split at h
    · next hn => cases h; exact hn.symm
    next hn =>
      obtain ⟨x, u, hx, h⟩ := eBind_ok h
      obtain ⟨l', v, hl, h⟩ := eBind_ok h
      cases h
      have hm : (va + BitVec.ofNat 64 (min n (4096 - va.toNat % 4096))).toNat % 4096 =
          (va.toNat + min n (4096 - va.toNat % 4096)) % 4096 := by
        rw [BitVec.toNat_add, BitVec.toNat_ofNat]
        omega
      rw [List.map_cons, List.sum_cons, ih hl (by rw [hm]; omega)]
      dsimp only
      omega

theorem eRange_total {a : Acc} {n : Nat} {va : Word} {l : List (Word × Xl × Nat)} (h : eRange a va n s = .ok (l, t)) : (l.map (·.2.2)).sum = n :=
  ePieces_total h (.inl (by omega))

theorem readPieces_length (s : State) (l : List (Word × Xl × Nat)) : (readPieces s l).length = (l.map (·.2.2)).sum := by
  simp [readPieces, List.length_flatMap]

/-- The bytes of a range that has been translated and read. -/
theorem readsFrom_of {va : Word} {n : Nat} {l : List (Word × Xl × Nat)} (h : eRange .r va n s = .ok (l, t)) :
    readsFrom s va ((readPieces t l).map (·.b)) ∧ ((readPieces t l).map (·.b)).length = n := by
  have hn : ((readPieces t l).map (·.b)).length = n := by rw [List.length_map, readPieces_length, eRange_total h]
  exact ⟨⟨s, l, t, .refl s, by rw [hn]; exact h, rfl⟩, hn⟩

theorem readsFrom.from {va : Word} {bs : List Byte} (h : readsFrom t va bs) (hs : sameBytes s t) : readsFrom s va bs := by
  obtain ⟨u, l, v, hu, hl, hr⟩ := h
  exact ⟨u, l, v, hs.trans hu, hl, hr⟩

/-- Bytes that an engine consumes. -/
theorem eUseG_ok {va : Word} {n : Nat} {bs : List Byte} (h : eUseG va n s = .ok (bs, t)) : OnlyFills s t ∧ readsFrom s va bs ∧ bs.length = n := by
  obtain ⟨l, v, hl, h⟩ := eBind_ok h
  obtain ⟨w, x, hw, h⟩ := eBind_ok h
  obtain ⟨rfl, rfl⟩ : v = w ∧ v = x := by cases hw; exact ⟨rfl, rfl⟩
  dsimp only at h
  split at h
  · cases h
  · split at h
    · cases h
    · cases h
      exact ⟨eRange_onlyFills hl, readsFrom_of hl⟩

end

/-! ### Elements of a copy (R77, R166, R169) -/

section
variable {s t u v : State} {chk : E Unit} {count n j : Nat} {body : Nat → E Unit} {mark : State → Nat → State}

theorem orFlags_zero (s : State) (g : FGroup) : s.orFlags g 0 = s := by
  have hf (y : Word) : y ||| (0 : FFlags).setWidth 64 <<< g.pos = y := by simp
  unfold State.orFlags
  simp only [hf]
  rfl

theorem chain.cons {f : Nat → State → State → Prop} (h : f 0 s u) (hc : chain n (fun j => f (j + 1)) u t) : chain (n + 1) f s t := by
  obtain ⟨w, h0, hn, hw⟩ := hc
  refine ⟨fun j => if j = 0 then s else w (j - 1), rfl, by simpa using hn, fun j hj => ?_⟩
  cases j with
  | zero => simpa [h0] using h
  | succ j => simpa using hw j (by omega)

theorem chain.mono {f g : Nat → State → State → Prop} (h : chain n f s t) (hfg : ∀ j u v, f j u v → g j u v) : chain n g s t := by
  obtain ⟨w, h0, hn, hw⟩ := h
  exact ⟨w, h0, hn, fun j hj => hfg _ _ _ (hw j hj)⟩

/-- A run of elements without flags is a chain of its elements. -/
theorem elems_chain {g : FGroup} (h : (elems g (fun j => do body j; pure 0) n j s).stop = none) :
    chain n (fun i u v => body (j + i) u = .ok ((), v)) s (elems g (fun j => do body j; pure 0) n j s).s := by
  induction n generalizing s j with
  | zero => exact ⟨fun _ => s, rfl, rfl, fun i hi => absurd hi (Nat.not_lt_zero i)⟩
  | succ n ih =>
    obtain ⟨f, v, hf, he⟩ := elems_succ h
    obtain ⟨_, w, hb, hf⟩ := eBind_ok hf
    cases hf
    rw [he, orFlags_zero] at h ⊢
    exact chain.cons hb ((ih h).mono fun i u v huv => by rwa [show j + (i + 1) = j + 1 + i by omega])

/-- A copy that does not stop has passed its checks and performed every element. -/
theorem copyLoop_chain (hc : Leaves chk id) (h : (copyLoop chk count 0 body mark s).stop = none) :
    chk s = .ok ((), s) ∧ chain count (fun j u v => body j u = .ok ((), v)) s (copyLoop chk count 0 body mark s).s := by
  have hp : copyLoop chk count 0 body mark s = checkedElems .vf chk count 0 (fun j => do body j; pure 0) s := by
    unfold copyLoop at h ⊢
    dsimp only at h ⊢
    split at h
    · next hs => rw [hs] at h; cases h
    · next hs => rw [hs] at h; cases h
    · next hs => rw [hs] at h; cases h
    · rfl
  rw [hp] at h ⊢
  obtain ⟨v, hv, he⟩ := checkedElems_ok h
  obtain rfl : v = s := hc _ _ _ hv
  rw [he] at h ⊢
  refine ⟨hv, ?_⟩
  simpa only [Nat.zero_add] using elems_chain h

end

end Sys2Proof.Machine
end

section
/-! Class 5: COPY, FILL and GTHR into the buffers (O46). -/

namespace Sys2Proof.Machine

/-! ### COPY, FILL, GTHR into the buffers (R164 to R171) -/

section
variable {s t u v : State} {k : Cmd} {sp off n j : Nat} {b : Buffers}

/-- v is u with bytes written into a buffer, and reads as u does. -/
structure FillsBuf (sp off : Nat) (bs : List Byte) (u v : State) : Prop where
  mem : v.core.buf.mem sp = writeBytes (u.core.buf.mem sp) off bs
  regs : v.core.t.regs = u.core.t.regs
  same : sameBytes u v

theorem put_mem (hsp : sp ≤ 1) (m : Sparse Byte) (p f : List Nat) : (b.put sp m p f).mem sp = m := by
  interval_cases sp <;> rfl

theorem marks_mem (hsp : sp ≤ 1) (off : Nat) (bs : List GByte) (l : List Nat) :
    (l.foldl (fun (b : Buffers) i =>
      let x := bs.getD i ⟨0, false, false⟩
      let b := if x.pois then b.markPois sp (off + i) 1 else b
      if x.fail then b.markFail sp (off + i) 1 else b) b).mem sp = b.mem sp := by
  induction l generalizing b with
  | nil => rfl
  | cons i l ih =>
    rw [List.foldl_cons, ih]
    have hp (b : Buffers) (i n : Nat) : (b.markPois sp i n).mem sp = b.mem sp := put_mem hsp _ _ _
    have hf (b : Buffers) (i n : Nat) : (b.markFail sp i n).mem sp = b.mem sp := put_mem hsp _ _ _
    dsimp only
    split <;> split <;> simp only [hp, hf]

theorem eWriteB_fills (hsp : sp ≤ 1) {bs : List GByte} (h : eWriteB sp off bs u = .ok ((), v)) : FillsBuf sp off (bs.map (·.b)) u v := by
  have hv : v = _ := (Leaves.eupd _) _ _ _ h
  rw [hv]
  refine ⟨?_, rfl, sameBytes_of rfl rfl⟩
  exact (marks_mem hsp off bs _).trans (put_mem hsp _ _ _)

theorem FillsBuf.after {bs : List Byte} (hu : OnlyFills s u) (h : FillsBuf sp off bs u v) : FillsBuf sp off bs s v :=
  ⟨by rw [h.mem, hu.buf], by rw [h.regs, hu.task], hu.sameBytes.trans h.same⟩

theorem cleanBytes_map (bs : List Byte) : (cleanBytes bs).map (·.b) = bs := by
  rw [cleanBytes, List.map_map]
  exact List.map_id _

/-- Elements that each write bytes into a buffer, in turn. -/
theorem chain_fills {at_ : Nat → Nat} {Q : State → Nat → List Byte → Prop} (hQ : ∀ s u j bs, sameBytes s u → Q u j bs → Q s j bs)
    (h : chain n (fun j u v => ∃ bs, FillsBuf sp (at_ j) bs u v ∧ Q u j bs) s t) :
    ∃ bs : Nat → List Byte, (t.core.buf.mem sp = (List.range n).foldl (fun m j => writeBytes m (at_ j) (bs j)) (s.core.buf.mem sp) ∧
      t.core.t.regs = s.core.t.regs ∧ sameBytes s t) ∧ ∀ j, j < n → Q s j (bs j) := by
  obtain ⟨w, rfl, rfl, hw⟩ := h
  have hw' : ∀ j, ∃ bs, j < n → FillsBuf sp (at_ j) bs (w j) (w (j + 1)) ∧ Q (w j) j bs := fun j => by
    by_cases hj : j < n
    · obtain ⟨bs, h⟩ := hw j hj
      exact ⟨bs, fun _ => h⟩
    · exact ⟨[], fun h => absurd h hj⟩
  choose bs hbs using hw'
  have hm : ∀ m, m ≤ n → (w m).core.buf.mem sp = (List.range m).foldl (fun m j => writeBytes m (at_ j) (bs j)) ((w 0).core.buf.mem sp) ∧
      (w m).core.t.regs = (w 0).core.t.regs ∧ sameBytes (w 0) (w m) := by
    intro m
    induction m with
    | zero => exact fun _ => ⟨rfl, rfl, .refl _⟩
    | succ m ih =>
      intro hm
      obtain ⟨h1, h2, h3⟩ := ih (by omega)
      obtain ⟨hf, -⟩ := hbs m (by omega)
      rw [List.range_succ, List.foldl_append, ← h1]
      exact ⟨hf.mem, hf.regs.trans h2, h3.trans hf.same⟩
  exact ⟨bs, hm n le_rfl, fun j hj => hQ _ _ _ _ (hm j hj.le).2.2 (hbs j hj).2⟩

theorem checkCopy_leaves (w : Traverse) (o : CopyOp) (blk : Bool) : Leaves (checkCopy w o blk) id :=
  Reads.enow.leaves.after fun _ => by
    dsimp only
    iterate 7 refine (Reads.efailIf _ _).leaves.after fun _ => ?_
    exact (Reads.efailIf _ _).leaves

theorem spNum_le (sp : BSpace) : spNum sp ≤ 2 := by cases sp <;> decide

/-- A copy into the buffers names WB or AB (R165). -/
theorem checkCopy_in {w : Traverse} {sp : BSpace} {esz : Nat} {buf : Nat × Vector (BitVec 32) 6} {glb : Option (Word × Vector (BitVec 32) 6)}
    {blk : Bool} {x : Unit} (h : checkCopy w ⟨false, spNum sp, esz, some buf, glb⟩ blk s = .ok (x, t)) : spNum sp ≤ 1 := by
  obtain ⟨_, _, -, h⟩ := eBind_ok h
  have hs := (efailIf_ok (efailIf_ok h).2).1
  have := spNum_le sp
  simp only [Option.isSome_some, Bool.not_false, Bool.true_and, Bool.false_and, Bool.or_false, decide_eq_false_iff_not] at hs
  omega

/-- What an element of COPY.in writes (R166). -/
def CopiedIn (w : Traverse) (g : Word) (n : Nat) (s : State) (j : Nat) (bs : List Byte) : Prop :=
  bs.length = n ∧ match w.global g w.ss j with
    | .out => bs = List.replicate n 0
    | .at_ va _ => readsFrom s va bs

theorem CopiedIn.from {w : Traverse} {g : Word} {bs : List Byte} (hs : sameBytes s u) (h : CopiedIn w g n u j bs) : CopiedIn w g n s j bs := by
  obtain ⟨hl, hm⟩ := h
  refine ⟨hl, ?_⟩
  cases hg : w.global g w.ss j with
  | out => rw [hg] at hm; exact hm
  | at_ va r => rw [hg] at hm; exact hm.from hs

theorem copyInElem_fills {w : Traverse} {esz base : Nat} {g : Word} {hbm : Bool} (hsp : sp ≤ 1)
    (h : copyInElem w sp esz base g hbm j u = .ok ((), v)) :
    ∃ bs, FillsBuf sp (w.buffer base w.ds j).toNat bs u v ∧ CopiedIn w g (2 ^ esz) u j bs := by
  unfold copyInElem at h
  unfold CopiedIn
  cases hg : w.global g w.ss j with
  | out =>
    rw [hg] at h
    dsimp only at h ⊢
    split at h
    · cases h
    · have hf := eWriteB_fills hsp h
      rw [cleanBytes_map] at hf
      exact ⟨_, hf, List.length_replicate, rfl⟩
  | at_ va r =>
    rw [hg] at h
    dsimp only at h ⊢
    obtain ⟨l, x, hl, h⟩ := eBind_ok h
    split at h
    · cases h
    · obtain ⟨y, z, hy, h⟩ := eBind_ok h
      obtain ⟨rfl, rfl⟩ : x = y ∧ x = z := by cases hy; exact ⟨rfl, rfl⟩
      split at h
      · cases h
      · have hr := readsFrom_of hl
        exact ⟨_, (eWriteB_fills hsp h).after (eRange_onlyFills hl), hr.2, hr.1⟩

theorem runCopyIn_fills {sp : BSpace} {off : BitVec 20} {f : CopyF} (hu : k.upc = 0) (h : (runCopyIn k sp off f s).stop = none) :
    ∃ bs : Nat → List Byte, ((runCopyIn k sp off f s).s.core.buf.mem (spNum sp) = (List.range s.core.t.tin.count).foldl
        (fun m j => writeBytes m (s.core.t.tin.buffer (k.v 0).toNat s.core.t.tin.ds j).toNat (bs j)) (s.core.buf.mem (spNum sp)) ∧
      (runCopyIn k sp off f s).s.core.t.regs = s.core.t.regs ∧ sameBytes s (runCopyIn k sp off f s).s) ∧
      ∀ j, j < s.core.t.tin.count → CopiedIn s.core.t.tin (k.v 1 + sx off) (2 ^ f.esz.toNat) s j (bs j) := by
  unfold runCopyIn at h ⊢
  rw [hu] at h ⊢
  obtain ⟨hc, hch⟩ := copyLoop_chain (checkCopy_leaves _ _ _) h
  exact chain_fills (fun s u j bs hs => CopiedIn.from hs) (hch.mono fun j u v huv => copyInElem_fills (checkCopy_in hc) huv)

theorem runFillIn_fills {sp : BSpace} {e : BitVec 2} (hu : k.upc = 0) (h : (runFillIn k sp e s).stop = none) :
    (runFillIn k sp e s).s.core.buf.mem (spNum sp) = (List.range s.core.t.tin.count).foldl
        (fun m j => writeBytes m (s.core.t.tin.buffer (k.v 0).toNat s.core.t.tin.ds j).toNat (leBytes (2 ^ e.toNat) (k.v 1).toNat))
        (s.core.buf.mem (spNum sp)) ∧
      (runFillIn k sp e s).s.core.t.regs = s.core.t.regs ∧ sameBytes s (runFillIn k sp e s).s := by
  unfold runFillIn at h ⊢
  rw [hu] at h ⊢
  obtain ⟨hc, hch⟩ := copyLoop_chain (checkCopy_leaves _ _ _) h
  obtain ⟨bs, ⟨hm, hr, hs⟩, hb⟩ := chain_fills (at_ := fun j => (s.core.t.tin.buffer (k.v 0).toNat s.core.t.tin.ds j).toNat)
    (Q := fun _ _ bs => bs = leBytes (2 ^ e.toNat) (k.v 1).toNat) (fun _ _ _ _ _ h => h)
    (hch.mono fun j u v huv => ⟨_, eWriteB_fills (checkCopy_in hc) huv, cleanBytes_map _⟩)
  refine ⟨hm.trans (List.foldl_ext _ _ _ fun m j hj => ?_), hr, hs⟩
  rw [hb j (List.mem_range.1 hj)]

/-! ### GTHR (R171) -/

theorem checkRows_leaves (k : Cmd) (sp : Nat) (st : BitVec 32) (out : Bool) : Leaves (checkRows k sp st out) id :=
  Reads.enow.leaves.after fun _ => by
    dsimp only
    iterate 4 refine (Reads.efailIf _ _).leaves.after fun _ => ?_
    exact (Reads.efailIf _ _).leaves

theorem checkRows_in {sp : BSpace} {st : BitVec 32} {x : Unit} (h : checkRows k (spNum sp) st false s = .ok (x, t)) : spNum sp ≤ 1 := by
  obtain ⟨_, _, -, h⟩ := eBind_ok h
  have hs := (efailIf_ok h).1
  have := spNum_le sp
  simp only [Bool.or_eq_false_iff, decide_eq_false_iff_not, Bool.false_eq_true, if_false] at hs
  omega

theorem readIndex_ok {l : Word} {i : Int} (h : readIndex l j u = .ok (i, v)) :
    OnlyFills u v ∧ ∃ x, x.length = 4 ∧ readsFrom u (l + BitVec.ofNat 64 (4 * j)) x ∧ i = intOf 32 true (leNat x) := by
  obtain ⟨x, w, hx, h⟩ := eBind_ok h
  cases h
  obtain ⟨hf, hr, hl⟩ := eUseG_ok hx
  exact ⟨hf, x, hl, hr, rfl⟩

/-- What an element of GTHR writes (R171). -/
def Gathered (d : Desc) (l : Word) (s : State) (j : Nat) (bs : List Byte) : Prop :=
  bs.length = rowBytes d ∧ ∃ x, x.length = 4 ∧ readsFrom s (l + BitVec.ofNat 64 (4 * j)) x ∧
    match tableRow d (intOf 32 true (leNat x)) with
    | none => bs = List.replicate (rowBytes d) 0
    | some i => readsFrom s (rowAddr d i) bs

theorem Gathered.from {d : Desc} {l : Word} {bs : List Byte} (hs : sameBytes s u) (h : Gathered d l u j bs) : Gathered d l s j bs := by
  obtain ⟨hl, x, hx, hr, hm⟩ := h
  refine ⟨hl, x, hx, hr.from hs, ?_⟩
  cases ht : tableRow d (intOf 32 true (leNat x)) with
  | none => rw [ht] at hm; exact hm
  | some i => rw [ht] at hm; exact hm.from hs

theorem runGthr_fills {sp : BSpace} {st : BitVec 32} (hu : k.upc = 0) (h : (runGthr k sp st s).stop = none) :
    ∃ bs : Nat → List Byte, ((runGthr k sp st s).s.core.buf.mem (spNum sp) = (List.range (k.v 2).toNat).foldl
        (fun m j => writeBytes m ((k.v 0).toNat + j * st.toNat) (bs j)) (s.core.buf.mem (spNum sp)) ∧
      (runGthr k sp st s).s.core.t.regs = s.core.t.regs ∧ sameBytes s (runGthr k sp st s).s) ∧
      ∀ j, j < (k.v 2).toNat → Gathered (k.d 0) (k.v 1) s j (bs j) := by
  unfold runGthr at h ⊢
  rw [hu] at h ⊢
  obtain ⟨hc, hch⟩ := copyLoop_chain (checkRows_leaves _ _ _ _) h
  have hsp := checkRows_in hc
  refine chain_fills (fun s u j bs hs => Gathered.from hs) (hch.mono fun j u v huv => ?_)
  obtain ⟨i, w, hi, huv⟩ := eBind_ok huv
  obtain ⟨hw, x, hx, hr, rfl⟩ := readIndex_ok hi
  cases ht : tableRow (k.d 0) (intOf 32 true (leNat x)) with
  | none =>
    rw [ht] at huv
    dsimp only at huv
    split at huv
    · cases huv
    · have hf := (eWriteB_fills hsp huv).after hw
      rw [cleanBytes_map] at hf
      exact ⟨_, hf, List.length_replicate, x, hx, hr, by rw [ht]⟩
  | some i =>
    rw [ht] at huv
    dsimp only at huv
    obtain ⟨l, y, hl, huv⟩ := eBind_ok huv
    obtain ⟨y', z, hy, huv⟩ := eBind_ok huv
    obtain ⟨rfl, rfl⟩ : y = y' ∧ y = z := by cases hy; exact ⟨rfl, rfl⟩
    split at huv
    · cases huv
    · have hg := readsFrom_of hl
      refine ⟨_, (eWriteB_fills hsp huv).after (hw.trans (eRange_onlyFills hl)), hg.2, x, hx, hr, ?_⟩
      rw [ht]
      exact hg.1.from hw.sameBytes

end

end Sys2Proof.Machine
end

section
/-! Class 5: COPY, FILL and SCTR to global memory, and CMPX (O46). -/

namespace Sys2Proof.Machine

/-! ### COPY, FILL and SCTR to global memory (R164 to R172) -/

section
variable {s t u v w : State} {k : Cmd} {sp off n j : Nat} {b : Buffers}

/-- What a write of translated bytes does. -/
theorem storesAt_of {va : Word} {n : Nat} {l : List (Word × Xl × Nat)} {g : List GByte} (hl : eRange .w va n u = .ok (l, w)) (hn : g.length = n)
    (h : eWriteTier l g w = .ok ((), v)) : storesAt va (g.map (·.b)) u v := by
  obtain ⟨y, z, hy, h⟩ := eBind_ok h
  obtain ⟨rfl, rfl⟩ : w = y ∧ w = z := by cases hy; exact ⟨rfl, rfl⟩
  split at h
  · cases h
  next hp =>
    refine ⟨l, w, g, by rw [List.length_map, hn]; exact hl, eq_false_of_ne_true hp, rfl, ?_⟩
    unfold eWriteAt at h
    split at h
    · cases h
    · next hw => cases h; exact hw

theorem eWriteG_ok {va : Word} {g : List GByte} (h : eWriteG va g u = .ok ((), v)) : storesAt va (g.map (·.b)) u v := by
  obtain ⟨l, w, hl, h⟩ := eBind_ok h
  exact storesAt_of hl rfl h

theorem map_getD_range {l : List Byte} (hl : l.length = n) : ((List.range n).map fun i => l.getD i 0) = l := by
  refine List.ext_getElem (by simp [hl]) fun i h1 h2 => ?_
  simp [List.getD_eq_getElem?_getD, h2]

/-- A buffer's bytes as they are read for a write. -/
theorem eReadB_ok {g : List GByte} (h : eReadB sp off n u = .ok (g, v)) (hn : (u.core.buf.read sp off n).length = n) :
    v = u ∧ g.map (·.b) = u.core.buf.read sp off n ∧ g.length = n := by
  obtain ⟨g', y, hc, h⟩ := eBind_ok h
  obtain ⟨-, h⟩ := efailIf_ok h
  obtain ⟨w, x, hw, hc⟩ := eBind_ok hc
  cases hw
  cases hc
  cases h
  refine ⟨rfl, ?_, by simp⟩
  rw [List.map_map]
  exact map_getD_range hn

theorem read_length {b : Buffers} (h : sp = 2 → n % 8 = 0) : (b.read sp off n).length = n := by
  unfold Buffers.read readBytes
  split
  · next hs =>
    have := h hs
    simp only [List.length_flatMap, leBytes_length, List.map_const', List.length_range, List.sum_replicate, smul_eq_mul]
    omega
  · simp

/-- COPY.out of CB takes containers of eight bytes (R165). -/
theorem checkCopy_cb {w : Traverse} {sp esz : Nat} {buf : Nat × Vector (BitVec 32) 6} {glb : Option (Word × Vector (BitVec 32) 6)}
    {blk : Bool} {x : Unit} (h : checkCopy w ⟨true, sp, esz, some buf, glb⟩ blk s = .ok (x, t)) (hsp : sp = 2) : 2 ^ esz % 8 = 0 := by
  obtain ⟨_, _, -, h⟩ := eBind_ok h
  have hs := (efailIf_ok (efailIf_ok (efailIf_ok h).2).2).1
  simp only [hsp, decide_true, Bool.true_and, Bool.or_eq_false_iff, bne_eq_false_iff_eq] at hs
  rw [hs.1.1]
  decide

/-- What an element of COPY.out does (R166). -/
def CopiedOut (w : Traverse) (g : Word) (sp n base : Nat) (j : Nat) (u v : State) : Prop :=
  match w.global g w.ds j with
  | .at_ va false => storesAt va (u.core.buf.read sp (w.buffer base w.ss j).toNat n) u v
  | _ => v = u

theorem copyOutElem_copies {w : Traverse} {esz base : Nat} {g : Word} {hbm : Bool} (hn : sp = 2 → 2 ^ esz % 8 = 0)
    (h : copyOutElem w sp esz base g hbm j u = .ok ((), v)) : CopiedOut w g sp (2 ^ esz) base j u v := by
  unfold copyOutElem at h
  unfold CopiedOut
  cases hg : w.global g w.ds j with
  | out =>
    rw [hg] at h
    dsimp only at h ⊢
    split at h
    · cases h
    · cases h; rfl
  | at_ va r =>
    rw [hg] at h
    dsimp only at h
    cases r with
    | true => cases h; rfl
    | false =>
      rw [if_neg Bool.false_ne_true] at h
      obtain ⟨l, x, hl, h⟩ := eBind_ok h
      split at h
      · cases h
      · obtain ⟨bs, y, hb, hw⟩ := eBind_ok h
        obtain ⟨rfl, hm, hlen⟩ := eReadB_ok hb (read_length hn)
        have hs := storesAt_of hl hlen hw
        rwa [hm, (eRange_onlyFills hl).buf] at hs

theorem runCopyOut_chain {sp : BSpace} {off : BitVec 20} {f : CopyF} (hu : k.upc = 0) (h : (runCopyOut k sp off f s).stop = none) :
    chain s.core.t.tout.count (CopiedOut s.core.t.tout (k.v 1 + sx off) (spNum sp) (2 ^ f.esz.toNat) (k.v 0).toNat) s
      (runCopyOut k sp off f s).s := by
  unfold runCopyOut at h ⊢
  rw [hu] at h ⊢
  obtain ⟨hc, hch⟩ := copyLoop_chain (checkCopy_leaves _ _ _) h
  exact hch.mono fun j u v huv => copyOutElem_copies (checkCopy_cb hc) huv

/-- What an element of FILL.out does (R170). -/
def FilledOut (w : Traverse) (g : Word) (bs : List Byte) (j : Nat) (u v : State) : Prop :=
  match w.global g w.ds j with
  | .at_ va false => storesAt va bs u v
  | _ => v = u

theorem runFillOut_chain {off : BitVec 20} {e : BitVec 2} (hu : k.upc = 0) (h : (runFillOut k off e s).stop = none) :
    chain s.core.t.tout.count (FilledOut s.core.t.tout (k.v 0 + sx off) (leBytes (2 ^ e.toNat) (k.v 1).toNat)) s (runFillOut k off e s).s := by
  unfold runFillOut at h ⊢
  rw [hu] at h ⊢
  obtain ⟨-, hch⟩ := copyLoop_chain (checkCopy_leaves _ _ _) h
  refine hch.mono fun j u v huv => ?_
  unfold FilledOut
  cases hg : s.core.t.tout.global (k.v 0 + sx off) s.core.t.tout.ds j with
  | out =>
    rw [hg] at huv
    dsimp only at huv ⊢
    split at huv
    · cases huv
    · cases huv; rfl
  | at_ va r =>
    rw [hg] at huv
    dsimp only at huv
    cases r with
    | true => cases huv; rfl
    | false =>
      rw [if_neg Bool.false_ne_true] at huv
      have hs := eWriteG_ok huv
      rwa [cleanBytes_map] at hs

/-! ### SCTR (R172) -/

/-- SCTR of CB takes rows of eight-byte containers (R172). -/
theorem checkRows_cb {sp : Nat} {st : BitVec 32} {x : Unit} {out : Bool} (h : checkRows k sp st out s = .ok (x, t)) (hsp : sp = 2) :
    rowBytes (k.d 0) % 8 = 0 := by
  obtain ⟨_, _, -, h⟩ := eBind_ok h
  have ht := (efailIf_ok (efailIf_ok (efailIf_ok h).2).2).1
  simp only [hsp, decide_true, Bool.true_and, Bool.or_eq_false_iff, bne_eq_false_iff_eq] at ht
  rw [rowBytes, ht.2, show elemBits 0xB = 64 by decide]
  omega

/-- What an element of SCTR does (R172). -/
def Scattered (d : Desc) (l : Word) (sp : Nat) (at_ : Nat → Nat) (j : Nat) (u v : State) : Prop :=
  ∃ x w, x.length = 4 ∧ readsFrom u (l + BitVec.ofNat 64 (4 * j)) x ∧ sameBytes u w ∧ w.core.buf = u.core.buf ∧
    if 0 ≤ intOf 32 true (leNat x) ∧ intOf 32 true (leNat x) < dRows d then
      storesAt (rowAddr d (intOf 32 true (leNat x))) (u.core.buf.read sp (at_ j) (rowBytes d)) w v
    else v = w

theorem runSctr_chain {sp : BSpace} {st : BitVec 32} (hu : k.upc = 0) (h : (runSctr k sp st s).stop = none) :
    chain (k.v 2).toNat (Scattered (k.d 0) (k.v 1) (spNum sp) fun j => (k.v 0).toNat + j * st.toNat) s (runSctr k sp st s).s := by
  unfold runSctr at h ⊢
  rw [hu] at h ⊢
  obtain ⟨hc, hch⟩ := copyLoop_chain (checkRows_leaves _ _ _ _) h
  refine hch.mono fun j u v huv => ?_
  obtain ⟨i, w, hi, huv⟩ := eBind_ok huv
  obtain ⟨hw, x, hx, hr, rfl⟩ := readIndex_ok hi
  refine ⟨x, w, hx, hr, hw.sameBytes, hw.buf, ?_⟩
  by_cases hin : 0 ≤ intOf 32 true (leNat x) ∧ intOf 32 true (leNat x) < dRows (k.d 0)
  · rw [if_pos hin]
    rw [if_pos (by simpa using hin)] at huv
    obtain ⟨l, y, hl, huv⟩ := eBind_ok huv
    obtain ⟨bs, z, hb, hz⟩ := eBind_ok huv
    obtain ⟨rfl, hm, hlen⟩ := eReadB_ok hb (read_length (checkRows_cb hc))
    have hs := storesAt_of hl hlen hz
    rwa [hm, (eRange_onlyFills hl).buf, hw.buf] at hs
  · rw [if_neg hin]
    rw [if_neg (by simpa using hin)] at huv
    split at huv
    · cases huv
    · cases huv; rfl

/-! ### CMPX (R182) -/

/-- v is u with another use of slots for one block, which is held as asked where it lies in an aperture. -/
structure Reencodes (c : Bool) (blk : Nat) (u v : State) : Prop where
  task : v.core.t = u.core.t
  buf : v.core.buf = u.core.buf
  bytes : v.mem.bytes = u.mem.bytes
  plat : v.plat = u.plat
  rising : Sparse.rising v.mem.comp = true
  other : ∀ b, b ≠ blk → Sparse.find v.mem.comp b = Sparse.find u.mem.comp b
  here : (u.aperture (512 * blk)).isSome = true → v.isCompressed blk = c

/-- A condition that did not refuse. -/
theorem ite_error_ok {c : Prop} [Decidable c] {e : BitVec 8} {x v : State} (h : (if c then .error e else .ok x : Except (BitVec 8) State) = .ok v) :
    v = x := by
  split at h
  · cases h
  · exact (Except.ok.inj h).symm

theorem charge_only {ctx : BitVec 12} {pa : Nat} {d : Int} (h : u.charge ctx pa d = .ok v) :
    v.core.t = u.core.t ∧ v.core.buf = u.core.buf ∧ v.mem = u.mem ∧ v.plat = u.plat := by
  have hv : v = u.modX ctx _ := ite_error_ok h
  rw [hv]
  exact ⟨rfl, rfl, rfl, rfl⟩

theorem cmpxCharge_ok {blk : Nat} {d : Int} {f : Mem → Mem} (h : cmpxCharge blk d f u = .ok ((), v)) :
    ∃ w : State, (w.core.t = u.core.t ∧ w.core.buf = u.core.buf ∧ w.mem = u.mem ∧ w.plat = u.plat) ∧ v = w.modM f := by
  unfold cmpxCharge at h
  split at h
  · cases h
  · next w hw => exact ⟨w, charge_only hw, (congrArg Prod.snd (Except.ok.inj h)).symm⟩

theorem aperture_congr (h : v.plat = u.plat) (pa : Nat) : v.aperture pa = u.aperture pa := by
  unfold State.aperture State.nvme
  rw [h]

theorem Reencodes.refl {c : Bool} {blk : Nat} (hr : Sparse.rising u.mem.comp = true)
    (h : (u.aperture (512 * blk)).isSome = true → u.isCompressed blk = c) :
    Reencodes c blk u u := ⟨rfl, rfl, rfl, rfl, hr, fun _ _ => rfl, h⟩

section
variable {c : Bool} {blk : Nat} {f : Mem → Mem} (hr : Sparse.rising u.mem.comp = true)
  (hw : w.core.t = u.core.t ∧ w.core.buf = u.core.buf ∧ w.mem = u.mem ∧ w.plat = u.plat) (hf : ∀ m, (f m).bytes = m.bytes)
include hr hw hf

/-- A block's entry listed. -/
theorem Reencodes.ins {e : CBlk} (hcomp : ∀ m, (f m).comp = Sparse.ins m.comp blk e) (hc : (!e.raw) = c) : Reencodes c blk u (w.modM f) := by
  obtain ⟨h1, h2, h3, h4⟩ := hw
  have hcomp' : (w.modM f).mem.comp = Sparse.ins u.mem.comp blk e := (hcomp _).trans (by rw [h3])
  refine ⟨h1, h2, (hf _).trans (by rw [h3]), h4, by rw [hcomp']; exact Sparse.rising_ins _ _ hr,
    fun b hb => by rw [hcomp', Sparse.find_ins_other _ _ hb], fun _ => ?_⟩
  rw [State.isCompressed, hcomp', Sparse.find_ins_same]
  exact hc

/-- A block's entry removed. -/
theorem Reencodes.del (hcomp : ∀ m, (f m).comp = Sparse.del m.comp blk) (hc : false = c) : Reencodes c blk u (w.modM f) := by
  obtain ⟨h1, h2, h3, h4⟩ := hw
  have hcomp' : (w.modM f).mem.comp = Sparse.del u.mem.comp blk := (hcomp _).trans (by rw [h3])
  have hp := (Sparse.rising_iff _).1 hr
  refine ⟨h1, h2, (hf _).trans (by rw [h3]), h4, by rw [hcomp']; exact Sparse.rising_del _ hr,
    fun b hb => by rw [hcomp', Sparse.find_del_other hp hb], fun _ => ?_⟩
  rw [State.isCompressed, hcomp', Sparse.find_del_same _ hp]
  exact hc

end

theorem isCompressed_getD (u : State) (blk : Nat) (e : CBlk) (he : e.raw = true) :
    u.isCompressed blk = !((Sparse.find u.mem.comp blk).getD e).raw := by
  unfold State.isCompressed
  cases Sparse.find u.mem.comp blk with
  | none => simp [he]
  | some b => rfl

theorem cmpxBlock_reencodes {c : Bool} {pa i : Nat} (hr : Sparse.rising u.mem.comp = true) (h : cmpxBlock c pa i u = .ok ((), v)) :
    Reencodes c (pa / 4096 * 8 + i) u v := by
  have hsame : u.core.t = u.core.t ∧ u.core.buf = u.core.buf ∧ u.mem = u.mem ∧ u.plat = u.plat := ⟨rfl, rfl, rfl, rfl⟩
  unfold cmpxBlock at h
  dsimp only at h
  cases ha : u.aperture (512 * (pa / 4096 * 8 + i)) with
  | none =>
    rw [ha] at h
    cases h
    exact .refl hr fun h => by rw [ha] at h; cases h
  | some p =>
    rw [ha] at h
    have hb := isCompressed_getD u (pa / 4096 * 8 + i) ⟨8, false, u.cid, true⟩ rfl
    generalize (Sparse.find u.mem.comp (pa / 4096 * 8 + i)).getD ⟨8, false, u.cid, true⟩ = b at h hb
    dsimp only at h
    split at h
    · cases h
    split at h
    · cases h
    split at h
    · next hne =>
      cases h
      refine .refl hr fun _ => ?_
      rw [hb]
      cases c <;> cases hraw : b.raw <;> simp_all
    next hne =>
    split at h
    · next hc =>
      split at h
      · obtain ⟨w, hw, rfl⟩ := cmpxCharge_ok h
        exact .ins hr hw (fun _ => rfl) (fun _ => rfl) (by rw [hc]; rfl)
      · split at h
        · obtain ⟨w, hw, rfl⟩ := cmpxCharge_ok h
          exact .ins hr hw (fun _ => rfl) (fun _ => rfl) (by rw [hc]; rfl)
        · cases h
          exact .ins hr hsame (fun _ => rfl) (fun _ => rfl) (by rw [hc]; rfl)
    · next hc =>
      have hc : false = c := (eq_false_of_ne_true hc).symm
      split at h
      · cases h
        exact .ins hr hsame (fun _ => rfl) (fun _ => rfl) hc
      · split at h
        · obtain ⟨w, hw, rfl⟩ := cmpxCharge_ok h
          exact .del hr hw (fun _ => rfl) (fun _ => rfl) hc
        · split at h
          · obtain ⟨w, hw, rfl⟩ := cmpxCharge_ok h
            exact .ins hr hw (fun _ => rfl) (fun _ => rfl) hc
          · cases h

/-- Blocks that are re-encoded in turn. -/
theorem chain_reencodes {c : Bool} {base : Nat} (hr : Sparse.rising s.mem.comp = true)
    (h : chain n (fun i u v => Sparse.rising u.mem.comp = true → Reencodes c (base + i) u v) s t) :
    sameBytes s t ∧ t.core.buf = s.core.buf ∧ ∀ i, i < n → (s.aperture (512 * (base + i))).isSome = true → t.isCompressed (base + i) = c := by
  obtain ⟨w, rfl, rfl, hw⟩ := h
  have hm : ∀ m, m ≤ n → Sparse.rising (w m).mem.comp = true ∧ (w m).plat = (w 0).plat ∧ sameBytes (w 0) (w m) ∧ (w m).core.buf = (w 0).core.buf ∧
      ∀ i, i < m → ((w 0).aperture (512 * (base + i))).isSome = true → (w m).isCompressed (base + i) = c := by
    intro m
    induction m with
    | zero => exact fun _ => ⟨hr, rfl, .refl _, rfl, fun i hi => absurd hi (Nat.not_lt_zero i)⟩
    | succ m ih =>
      intro hm
      obtain ⟨h1, h2, h3, h4, h5⟩ := ih (by omega)
      have he := hw m (by omega) h1
      refine ⟨he.rising, he.plat.trans h2, h3.trans (sameBytes_of (congrArg Task.view he.task) he.bytes), he.buf.trans h4, fun i hi hap => ?_⟩
      rcases Nat.lt_succ_iff_lt_or_eq.1 hi with hi | rfl
      · have hc := h5 i hi hap
        unfold State.isCompressed at hc ⊢
        rwa [he.other _ (by omega)]
      · exact he.here (by rwa [aperture_congr h2])
  obtain ⟨-, -, h3, h4, h5⟩ := hm n le_rfl
  exact ⟨h3, h4, h5⟩

theorem runCmpx_blocks {c : Bool} (hu : k.upc = 0) (hr : Sparse.rising s.mem.comp = true) (h : (runCmpx k c s).stop = none) :
    ∃ x s1, exlate (k.v 0) .w s = .ok (x, s1) ∧ sameBytes s (runCmpx k c s).s ∧ (runCmpx k c s).s.core.buf = s.core.buf ∧
      ∀ i, i < 8 → (s1.aperture (512 * (x.pa / 4096 * 8 + i))).isSome = true → (runCmpx k c s).s.isCompressed (x.pa / 4096 * 8 + i) = c := by
  unfold runCmpx at h ⊢
  cases hx : exlate (k.v 0) .w s with
  | error e => rw [hx] at h; cases h
  | ok y =>
    obtain ⟨x, s1⟩ := y
    rw [hx, hu] at h; rw [hu]
    have hf := exlate_onlyFills hx
    dsimp only at h ⊢
    split at h
    · cases h
    next ha =>
      rw [if_neg ha]
      have hch := chain_reencodes (base := x.pa / 4096 * 8) (by rw [hf.comp]; exact hr)
        ((elems_chain h).mono fun i u v huv hr => cmpxBlock_reencodes hr (by rwa [Nat.zero_add] at huv))
      exact ⟨x, s1, rfl, hf.sameBytes.trans hch.1, hch.2.1.trans hf.buf, hch.2.2⟩

end

end Sys2Proof.Machine
end

section
/-! RPUSH (O46). -/

namespace Sys2Proof.Machine

/-! ### RPUSH (R303) -/

section
variable {s : State} {k : Cmd}

/-- The bytes of spill memory with their poison. -/
def Task.spillG (t : Task) (off n : Nat) : List GByte :=
  (List.range n).map fun i => ⟨(readBytes t.spill off n).getD i 0, setHas t.spPois ((off + i) / 8), false⟩

theorem eSpill_reads (off n : Nat) : Reads (eSpill off n) fun s => s.core.t.spillG off n := .bind .enow fun _ => .pure _

theorem spillG_bytes (t : Task) (off n : Nat) : (t.spillG off n).map (·.b) = readBytes t.spill off n := by
  rw [Task.spillG, List.map_map]
  exact map_getD_range (by simp [readBytes])

/-- The rows of a tile from row j on. -/
theorem eLines_reads (d : Desc) (n j : Nat) : ReadsB (eLines d n j) fun b => (List.range n).flatMap fun r => b.tileRow d (j + r) := by
  induction n generalizing j with
  | zero => exact .pure _
  | succ n ih =>
    refine (Reads.bind .enow fun u => .bind (.efailIf _ _) fun _ => .bind (ih (j + 1)) fun l => .pure (u.core.buf.tileRow d j ++ l)).congr fun s => ?_
    simp only [List.range_succ_eq_map, List.flatMap_cons, List.flatMap_map, Nat.add_zero, Nat.succ_eq_add_one, Nat.add_comm, Nat.add_left_comm, id]

/-- A block that pushes: not in a recompute block's forward pass (R309). -/
theorem notSkipped {g : BlkRef} (hg : g.rc = false ∨ g.replay = true) : (g.rc && !g.replay) = false := by rcases hg with h | h <;> simp [h]

theorem runRpush_tile {g : BlkRef} {tk : Tok} {p : DCode} (hb : k.blk = some g) (hg : g.rc = false ∨ g.replay = true) (hi : k.instr = .rpush tk p)
    (h : (runRpush k s).stop = none) :
    (runRpush k s).s = s.setRes k ((List.range (dRows (k.d 0))).flatMap fun r => s.core.buf.tileRow (k.d 0) r) := by
  unfold runRpush at h ⊢
  simp only [hb, hi, notSkipped hg, Bool.false_eq_true, if_false] at h ⊢
  refine whole_leaves (g := fun s => s.setRes k ((List.range (dRows (k.d 0))).flatMap fun r => s.core.buf.tileRow (k.d 0) r)) ?_ h
  refine (Reads.bind .enow fun _ => .echeck _).leaves.after fun _ =>
    Leaves.congr (Leaves.read (eLines_reads (k.d 0) _ 0) fun bs => .eupd _) fun s => ?_
  simp only [Nat.zero_add]

theorem runRpush_spill {g : BlkRef} {tk : Tok} {o : BitVec 11} {n : BitVec 6} (hb : k.blk = some g) (hg : g.rc = false ∨ g.replay = true)
    (hi : k.instr = .rpushSpl tk o n) (h : (runRpush k s).stop = none) :
    (runRpush k s).s = s.setRes k (s.core.t.spillG (8 * o.toNat) (8 * (n.toNat + 1))) := by
  unfold runRpush at h ⊢
  simp only [hb, hi, notSkipped hg, Bool.false_eq_true, if_false] at h ⊢
  exact whole_leaves (Leaves.read (eSpill_reads _ _) fun bs => .eupd _) h

end

end Sys2Proof.Machine
end

section
/-! The event at the queue head, and MSWAP (O46). -/

namespace Sys2Proof.Machine

/-! ### A command settles (R16, R20, R77) -/

section
variable {s v s0 t : State} {q : QName} {k : Cmd} {num : Word} {f : Cmd → Cmd}

theorem backFrom_modCmd : (v.modCmd q num f).backFrom s0 = (v.backFrom s0).modCmd q num f := by
  have hc : ((v.modCmd q num f).backFrom s0).ctxs = (v.backFrom s0).ctxs := by
    rw [backFrom_ctxs_eq, backFrom_ctxs_eq]
    rfl
  rw [backFrom_eq (v.modCmd q num f) s0, hc, backFrom_eq v s0]
  rfl

theorem backFrom_task (v s0 : State) : (v.backFrom s0).core.t = { v.core.t with sys := { v.core.t.sys with fpen := s0.core.t.sys.fpen } } := by
  rw [backFrom_eq]
  rfl

theorem ranUnder_modCmd : ranUnder s0 v ((v.modCmd q num f).backFrom s0) := by
  rw [backFrom_modCmd]
  rfl

theorem modCmd_queue : ((v.modCmd q num f).backFrom s0).core.t.q.get q = (v.core.t.q.get q).map fun c => if c.num = num then f c else c := by
  rw [backFrom_task]
  exact (Queues.get_set ..).trans (if_pos rfl)

theorem walkFills_task (v : State) (e : EStop) : (v.walkFills e).core.t = v.core.t := by
  unfold State.walkFills State.keepWalk
  split
  · split <;> rfl
  · rfl

/-- What the end of a command leaves: the state of its function, and its queue entry. -/
def EndsAs (s : State) (q : QName) (k : Cmd) (v : State) (f : Cmd → Cmd) : Prop :=
  ∃ t, exec (.queueHeadIssue q) s = .next t ∧ ranUnder (s.taken q k) v t ∧
    t.core.t.q.get q = (v.core.t.q.get q).map fun c => if c.num = k.num then f c else c

theorem HeadPerforms.endsAs (h : HeadPerforms s q k)
    (ht : (∃ c va l, (headProg s q k).stop = some (.fault c va l)) → (headProg s q k).s.core.t.tile.opened = false)
    (hs : settleCmd q k.taken (headProg s q k) = v.modCmd q k.num f) : EndsAs s q k v f := by
  refine ⟨_, h.exec_eq ht, ?_, ?_⟩
  · rw [hs]; exact ranUnder_modCmd
  · rw [hs]; exact modCmd_queue

/-- A command that does not stop is done. -/
theorem HeadPerforms.endsAs_done (h : HeadPerforms s q k) (hp : (headProg s q k).stop = none) :
    EndsAs s q k (headProg s q k).s fun c => { c with
      upc := (headProg s q k).upc, res := (if (headProg s q k).res = [] then c.res else (headProg s q k).res), got := (headProg s q k).got,
      done := true, status := (headProg s q k).status } := by
  refine h.endsAs (fun ⟨c, va, l, he⟩ => ?_) ?_
  · rw [hp] at he; cases he
  · unfold settleCmd
    rw [hp]

/-- A command that a lower tier ends is done with its status. -/
theorem HeadPerforms.endsAs_status {code : BitVec 8} {tier : BitVec 4} (h : HeadPerforms s q k)
    (hp : (headProg s q k).stop = some (.status code tier)) :
    EndsAs s q k (headProg s q k).s fun c => { c with
      upc := (headProg s q k).upc, res := (if (headProg s q k).res = [] then c.res else (headProg s q k).res), got := (headProg s q k).got,
      done := true, status := statusWord (headProg s q k).upc code tier } := by
  refine h.endsAs (fun ⟨c, va, l, he⟩ => ?_) ?_
  · rw [hp] at he; cases he
  · unfold settleCmd
    rw [hp]

/-- A command that stops at a fault stands at its micro-PC. -/
theorem HeadPerforms.endsAs_fault {code : BitVec 8} {va : Option Word} {lvl : BitVec 3} (h : HeadPerforms s q k)
    (hp : (headProg s q k).stop = some (.fault code va lvl)) (ht : (headProg s q k).s.core.t.tile.opened = false) :
    EndsAs s q k ((headProg s q k).s.walkFills (.fault code va lvl)) fun c => { c with
      upc := (headProg s q k).upc, res := (if (headProg s q k).res = [] then c.res else (headProg s q k).res), got := (headProg s q k).got,
      fault := some ⟨code, cmdUnit q k.instr, BitVec.ofNat 64 (headProg s q k).upc, k.num, va, lvl, 0⟩ } := by
  refine h.endsAs (fun _ => ht) ?_
  unfold settleCmd
  rw [hp]

end

/-! ### MSWAP (R252) -/

section
variable {α : Type} {m n : Sparse α} {a b v : Nat} {x z : α}

theorem Sparse.find_eq_some_iff (h : Sparse.rising m = true) : Sparse.find m a = some x ↔ (a, x) ∈ m := by
  refine ⟨Sparse.find_mem, fun hm => ?_⟩
  induction m with
  | nil => cases hm
  | cons p m ih =>
    have hp := List.pairwise_cons.1 ((Sparse.rising_iff _).1 h)
    rcases List.mem_cons.1 hm with rfl | hm
    · simp [Sparse.find]
    · have hlt := hp.1 _ hm
      have hf := ih ((Sparse.rising_iff _).2 hp.2) hm
      simp only at hlt
      simp [Sparse.find, Nat.ne_of_lt hlt, Nat.not_lt_of_gt hlt, hf]

/-- Two rising maps that hold the same under two keys give the same. -/
theorem Sparse.get_eq_of_mem (hm : Sparse.rising m = true) (hn : Sparse.rising n = true) (h : ∀ x, (a, x) ∈ m ↔ (b, x) ∈ n) :
    Sparse.get z m a = Sparse.get z n b := by
  refine congrArg (·.getD z) (Option.ext fun x => ?_)
  rw [Sparse.find_eq_some_iff hm, Sparse.find_eq_some_iff hn, h]

theorem mem_shiftKeys : (a, x) ∈ shiftKeys v m ↔ v ≤ a ∧ (a - v, x) ∈ m := by
  unfold shiftKeys
  constructor
  · intro h
    obtain ⟨p, hp, he⟩ := List.mem_map.1 h
    cases he
    exact ⟨Nat.le_add_left .., by simpa using hp⟩
  · rintro ⟨hv, h⟩
    exact List.mem_map.2 ⟨_, h, by simp [hv]⟩

/-- CB with the entries from v on, 16384 of them, replaced by a bank's. -/
def swappedCb (v : Nat) (cb : Sparse α) (work : Sparse α) : Sparse α :=
  cb.filter (fun p => p.1 < v) ++ shiftKeys v work ++ cb.filter fun p => v + 16384 ≤ p.1

/-- The bank that stands in CB from v on. -/
def visBank (v : Nat) (cb : Sparse α) : Sparse α := unshiftKeys v (cb.filter fun p => v ≤ p.1 && p.1 < v + 16384)

theorem mem_visBank : (a, x) ∈ visBank v m ↔ a < 16384 ∧ (v + a, x) ∈ m := by
  unfold visBank unshiftKeys
  simp only [List.mem_map, List.mem_filter, Bool.and_eq_true, decide_eq_true_eq, Prod.mk.injEq, Prod.exists]
  constructor
  · rintro ⟨c, y, ⟨hm, h1, h2⟩, rfl, rfl⟩
    exact ⟨by omega, by rwa [Nat.add_sub_cancel' h1]⟩
  · rintro ⟨ha, hm⟩
    exact ⟨v + a, x, ⟨hm, by omega, by omega⟩, by omega, rfl⟩

theorem visBank_rising (h : Sparse.rising m = true) : Sparse.rising (visBank v m) = true := by
  rw [Sparse.rising_iff] at h ⊢
  refine List.pairwise_map.2 ((h.filter _).imp_of_mem fun {p q} hp hq hpq => ?_)
  have hp := (List.mem_filter.1 hp).2
  have hq := (List.mem_filter.1 hq).2
  simp only [Bool.and_eq_true, decide_eq_true_eq] at hp hq
  dsimp only
  omega

theorem shiftKeys_rising (h : Sparse.rising m = true) : Sparse.rising (shiftKeys v m) = true := by
  rw [Sparse.rising_iff] at h ⊢
  exact List.pairwise_map.2 (h.imp fun h => Nat.add_lt_add_right h v)

theorem mem_swappedCb (hk : ∀ e ∈ n, e.1 < 16384) :
    (a, x) ∈ swappedCb v m n ↔ if v ≤ a ∧ a < v + 16384 then (a - v, x) ∈ n else (a, x) ∈ m := by
  unfold swappedCb
  simp only [List.mem_append, List.mem_filter, decide_eq_true_eq, mem_shiftKeys]
  split
  · next h => constructor
              · rintro ((⟨-, h'⟩ | ⟨-, h'⟩) | ⟨-, h'⟩)
                · omega
                · exact h'
                · omega
              · exact fun h' => .inl (.inr ⟨h.1, h'⟩)
  · next h => constructor
              · rintro ((⟨h', -⟩ | ⟨h1, h'⟩) | ⟨h', -⟩)
                · exact h'
                · have := hk _ h'
                  dsimp only at this
                  omega
                · exact h'
              · intro h'
                by_cases ha : a < v
                · exact .inl (.inl ⟨h', ha⟩)
                · exact .inr ⟨h', by omega⟩

theorem swappedCb_rising (hm : Sparse.rising m = true) (hn : Sparse.rising n = true) (hk : ∀ e ∈ n, e.1 < 16384) :
    Sparse.rising (swappedCb v m n) = true := by
  have hs := (Sparse.rising_iff _).1 (shiftKeys_rising (v := v) hn)
  have hm' := (Sparse.rising_iff _).1 hm
  have hb : ∀ p ∈ shiftKeys v n, v ≤ p.1 ∧ p.1 < v + 16384 := fun p hp => by
    obtain ⟨h1, h2⟩ := mem_shiftKeys.1 (show (p.1, p.2) ∈ _ from hp)
    have := hk _ h2
    dsimp only at this
    omega
  rw [Sparse.rising_iff, swappedCb]
  refine List.pairwise_append.2 ⟨List.pairwise_append.2 ⟨hm'.filter _, hs, fun p hp q hq => ?_⟩, hm'.filter _, fun p hp q hq => ?_⟩
  · have := (List.mem_filter.1 hp).2
    have := hb q hq
    simp only [decide_eq_true_eq] at *
    omega
  · have := (List.mem_filter.1 hq).2
    simp only [decide_eq_true_eq] at this
    rcases List.mem_append.1 hp with hp | hp
    · have := (List.mem_filter.1 hp).2
      simp only [decide_eq_true_eq] at this
      omega
    · have := hb p hp
      omega

/-- What both hold after the exchange. -/
theorem get_visBank (h : Sparse.rising m = true) (ha : a < 16384) : Sparse.get z (visBank v m) a = Sparse.get z m (v + a) :=
  Sparse.get_eq_of_mem (visBank_rising h) h fun x => by rw [mem_visBank, and_iff_right ha]

theorem get_swappedCb_in (hm : Sparse.rising m = true) (hn : Sparse.rising n = true) (hk : ∀ e ∈ n, e.1 < 16384) (ha : a < 16384) :
    Sparse.get z (swappedCb v m n) (v + a) = Sparse.get z n a :=
  Sparse.get_eq_of_mem (swappedCb_rising hm hn hk) hn fun x => by rw [mem_swappedCb hk, if_pos ⟨by omega, by omega⟩, Nat.add_sub_cancel_left]

theorem get_swappedCb_out (hm : Sparse.rising m = true) (hn : Sparse.rising n = true) (hk : ∀ e ∈ n, e.1 < 16384) (ha : a < v ∨ v + 16384 ≤ a) :
    Sparse.get z (swappedCb v m n) a = Sparse.get z m a :=
  Sparse.get_eq_of_mem (swappedCb_rising hm hn hk) hm fun x => by rw [mem_swappedCb hk, if_neg (by omega)]

end

section
variable {s : State} {k : Cmd} {a : Bool}

/-- An accumulator with what stands in CB as its working bank, the tags of the banks exchanged. -/
def swappedAcc (a : Bool) (b : Buffers) (x : Accum) : Accum :=
  { x with work := visBank (visBase a) b.cb,
           wpois := (b.cbPois.filter fun i => visBase a ≤ i && i < visBase a + 16384).map (· - visBase a),
           wtag := x.vtag, vtag := x.wtag, chk := x.chk.clear }

/-- The state after MSWAP, but for the marks of CB. -/
def State.swapped (u : State) (a : Bool) (pois : List Nat) : State :=
  (u.modB fun b => { b with cb := swappedCb (visBase a) b.cb (u.acc a).work, cbPois := pois }).modAcc a (swappedAcc a u.core.buf)

/-- MSWAP where no tile is open. -/
theorem runMswap_state (h : s.core.t.tile.opened = false) : ∃ pois, runMswap a s = .ok (s.swapped a pois) 0 := by
  unfold runMswap
  rw [h, if_neg Bool.false_ne_true]
  exact ⟨_, rfl⟩

theorem swapped_acc (u : State) (a : Bool) (l : List Nat) : (u.swapped a l).acc a = swappedAcc a u.core.buf (u.acc a) := by cases a <;> rfl
theorem swapped_accNot (u : State) (a : Bool) (l : List Nat) : (u.swapped a l).acc (!a) = u.acc (!a) := by cases a <;> rfl
theorem swapped_cb (u : State) (a : Bool) (l : List Nat) : (u.swapped a l).core.buf.cb = swappedCb (visBase a) u.core.buf.cb (u.acc a).work := rfl
theorem swapped_mem (u : State) (a : Bool) (l : List Nat) : (u.swapped a l).mem = u.mem := rfl
theorem swapped_task (u : State) (a : Bool) (l : List Nat) :
    (u.swapped a l).core.t.regs = u.core.t.regs ∧ (u.swapped a l).core.t.toks = u.core.t.toks := by cases a <;> exact ⟨rfl, rfl⟩

theorem asRouted_acc (s : State) (k : Cmd) (a : Bool) : (s.asRouted k).acc a = s.acc a := by
  unfold State.acc
  rw [asRouted_task]
  rfl

/-- What the event leaves of the state before: from the function's state to the event's. -/
theorem ranUnder_parts {s0 u t : State} (h : ranUnder s0 u t) :
    t.core.buf = u.core.buf ∧ t.mem = u.mem ∧ t.core.t.regs = u.core.t.regs ∧ t.core.t.toks = u.core.t.toks ∧ ∀ a, t.acc a = u.acc a := by
  unfold ranUnder at h
  rw [h, backFrom_eq]
  exact ⟨rfl, rfl, rfl, rfl, fun a => by cases a <;> rfl⟩

/-- Of a list of commands each of a number is what an update makes of one of that number. -/
theorem mem_map_num {l : List Cmd} {c : Cmd} {num : Word} {f : Cmd → Cmd} (hc : c ∈ l.map fun c => if c.num = num then f c else c)
    (hn : c.num = num) : ∃ d, c = f d := by
  obtain ⟨d, -, rfl⟩ := List.mem_map.1 hc
  by_cases hd : d.num = num
  · exact ⟨d, if_pos hd⟩
  · rw [if_neg hd] at hn
    exact absurd hn hd

/-- MSWAP at its queue head: what the event leaves is the exchange. -/
theorem HeadReady.mswap {tk : Tok} (h : HeadReady s .compute k) (hi : k.instr = .mswap tk a) :
    ∃ t u pois, exec (.queueHeadIssue .compute) s = .next t ∧ u = (s.taken .compute k).asRouted k ∧
      ranUnder (s.taken .compute k) (u.swapped a pois) t ∧
      ∀ c ∈ t.core.t.q.compute, c.num = k.num → c.done = true ∧ c.status = 0 := by
  have hp := h.performs (by simp) (by simp [readsOf, h.fwd.1, hi]) (by rw [hi]; rfl)
  have ho : ((s.taken .compute k).asRouted k).core.t.tile.opened = false := by rw [asRouted_task]; exact h.noTile.1
  obtain ⟨pois, hm⟩ := runMswap_state (a := a) ho
  have hg : headProg s .compute k = .ok (((s.taken .compute k).asRouted k).swapped a pois) 0 :=
    Eq.trans (by unfold headProg performFwd; rw [show k.taken.instr = .mswap tk a from hi]) hm
  obtain ⟨t, ht, hr, hq⟩ := hp.endsAs_done (by rw [hg]; rfl)
  rw [hg] at hr hq
  refine ⟨t, _, pois, ht, rfl, hr, fun c hc hn => ?_⟩
  change c ∈ t.core.t.q.get .compute at hc
  rw [hq] at hc
  obtain ⟨d, rfl⟩ := mem_map_num hc hn
  exact ⟨rfl, rfl⟩

end

end Sys2Proof.Machine
end

section
/-! O46, of all the above. -/

namespace Sys2Proof.Machine

/-! ### The function of each command -/

section
variable {s : State} {k : Cmd}

theorem performFwd_copyIn {tk sp p q pol off f} (hi : k.instr = .copyIn tk sp p q pol off f) : performFwd k s = runCopyIn k sp off f s := by
  unfold performFwd; rw [hi]
theorem performFwd_copyOut {tk sp p q pol off f} (hi : k.instr = .copyOut tk sp p q pol off f) : performFwd k s = runCopyOut k sp off f s := by
  unfold performFwd; rw [hi]
theorem performFwd_fillIn {tk sp p q e} (hi : k.instr = .fillIn tk sp p q e) : performFwd k s = runFillIn k sp e s := by
  unfold performFwd; rw [hi]
theorem performFwd_fillOut {tk p q pol off e} (hi : k.instr = .fillOut tk p q pol off e) : performFwd k s = runFillOut k off e s := by
  unfold performFwd; rw [hi]
theorem performFwd_gthr {tk sp p q l c pol st} (hi : k.instr = .gthr tk sp p q l c pol st) : performFwd k s = runGthr k sp st s := by
  unfold performFwd; rw [hi]
theorem performFwd_sctr {tk sp p l q c pol st} (hi : k.instr = .sctr tk sp p l q c pol st) : performFwd k s = runSctr k sp st s := by
  unfold performFwd; rw [hi]
theorem performFwd_cmpx {tk c p} (hi : k.instr = .cmpx tk c p) : performFwd k s = runCmpx k c s := by
  unfold performFwd; rw [hi]
theorem performFwd_cvt {tk p q rm sat sf df} (hi : k.instr = .cvt tk p q rm sat sf df) : performFwd k s = runCvt k rm sat sf df s := by
  unfold performFwd; rw [hi]
theorem performFwd_cvts {tk p q rb rc sat sf df} (hi : k.instr = .cvts tk p q rb rc sat sf df) : performFwd k s = runCvts k sat sf df s := by
  unfold performFwd; rw [hi]
theorem performFwd_qntw {tk p q rm sf df} (hi : k.instr = .qntw tk p q rm sf df) : performFwd k s = runQntw k rm sf df s := by
  unfold performFwd; rw [hi]
theorem performFwd_dqw {tk p q rm sf df} (hi : k.instr = .dqw tk p q rm sf df) : performFwd k s = runDqw k rm sf df s := by
  unfold performFwd; rw [hi]
theorem performFwd_scalex {tk rm p q n} (hi : k.instr = .scalex tk rm p q n) : performFwd k s = runScalex k rm n s := by
  unfold performFwd; rw [hi]
theorem performFwd_lnx {tk p q r f} (hi : k.instr = .lnx tk p q r f) : performFwd k s = runLnx k f s := by
  unfold performFwd; rw [hi]
theorem performFwd_lnr {tk p q r f} (hi : k.instr = .lnr tk p q r f) : performFwd k s = runLnr k f s := by
  unfold performFwd; rw [hi]
theorem performFwd_mma {tk a ta tb p q r c} (hi : k.instr = .mma tk a ta tb p q r c) : performFwd k s = runMma k a ta tb r c s := by
  unfold performFwd; rw [hi]
theorem performFwd_mzeroCb {tk a p} (hi : k.instr = .mzeroCb tk a p) : performFwd k s = runMzeroCb k a s := by
  unfold performFwd; rw [hi]
theorem performFwd_mst {tk p a add sat rm df r c} (hi : k.instr = .mst tk p a add sat rm df r c) :
    performFwd k s = runMst k a add sat rm df r c s := by
  unfold performFwd; rw [hi]
theorem performFwd_mcks {tk a ta tb p q r c} (hi : k.instr = .mcks tk a ta tb p q r c) : performFwd k s = runMcks k a ta tb r c s := by
  unfold performFwd; rw [hi]
theorem performFwd_mckv {tk a rpl off} (hi : k.instr = .mckv tk a rpl off) : performFwd k s = runMckv a rpl off s := by
  unfold performFwd; rw [hi]
theorem performFwd_mfix {tk a} (hi : k.instr = .mfix tk a) : performFwd k s = runMfix a s := by
  unfold performFwd; rw [hi]
theorem performFwd_sxf {tk p q} (hi : k.instr = .sxf tk p q) : performFwd k s = runSxf k s := by
  unfold performFwd; rw [hi]
theorem performFwd_sxi {tk p q} (hi : k.instr = .sxi tk p q) : performFwd k s = runSxi k s := by
  unfold performFwd; rw [hi]
theorem performFwd_scmac {tk a p q f} (hi : k.instr = .scmac tk a p q f) : performFwd k s = runScmac k a f s := by
  unfold performFwd; rw [hi]
theorem performFwd_scmul {tk cj p q r} (hi : k.instr = .scmul tk cj p q r) : performFwd k s = runScmul k cj s := by
  unfold performFwd; rw [hi]
theorem performFwd_sconj {tk p q} (hi : k.instr = .sconj tk p q) : performFwd k s = runSconj k s := by
  unfold performFwd; rw [hi]
theorem performFwd_sdom {tk p q r} (hi : k.instr = .sdom tk p q r) : performFwd k s = runSdom k s := by
  unfold performFwd; rw [hi]
theorem performFwd_sexp {tk p q e} (hi : k.instr = .sexp tk p q e) : performFwd k s = runSexp k e s := by
  unfold performFwd; rw [hi]
theorem performFwd_rpush {tk p} (hi : k.instr = .rpush tk p) : performFwd k s = runRpush k s := by
  unfold performFwd; rw [hi]
theorem performFwd_rpushSpl {tk o n} (hi : k.instr = .rpushSpl tk o n) : performFwd k s = runRpush k s := by
  unfold performFwd; rw [hi]
theorem performFwd_gzero {tk p} (hi : k.instr = .gzero tk p) : performFwd k s = runGzero k s := by
  unfold performFwd; rw [hi]

end

/-! ### What the engines' commands leave (O46) -/

section
variable {s : State} {k : Cmd} {p : Prog} {b : Buffers}

/-- A command whose function is known does not stop where its own function does not. -/
theorem stop_of (hp : performFwd k s = p) (hs : (performFwd k s).stop = none) : p.stop = none := hp ▸ hs

theorem onlyBuf_of (hp : performFwd k s = p) (hs : (performFwd k s).stop = none) (h : p.stop = none → onlyBuf s p.s b) :
    onlyBuf s (performFwd k s).s b := hp ▸ h (hp ▸ hs)

/-- The accumulator that a command leaves, where it updates that alone. -/
theorem onlyAcc_of {acc : Bool} {a : Accum} (hp : performFwd k s = p) (h : onlyAcc s p.s acc a) :
    onlyAcc s (performFwd k s).s acc ((performFwd k s).s.acc acc) ∧ (performFwd k s).s.acc acc = a := by
  rw [hp, h.accum]
  exact ⟨h, rfl⟩

end

section
variable {r0 c0 m n : Nat} {g : Nat → Nat → FA56 → FA56} {a a' : Accum}

theorem IntoWin.wtag (h : IntoWin r0 c0 m n g a a') : a'.wtag = a.wtag := by rw [h.rest]
theorem IntoWin.vtag (h : IntoWin r0 c0 m n g a a') : a'.vtag = a.vtag := by rw [h.rest]
theorem IntoWin.asx (h : IntoWin r0 c0 m n g a a') : a'.asx = a.asx := by rw [h.rest]
theorem IntoWin.chk (h : IntoWin r0 c0 m n g a a') : a'.chk = a.chk := by rw [h.rest]

end

/-- Settles O46: each event runs the command's own function, and each function is followed through its elements. -/
theorem engineCommandsPerform : Obligations.EngineCommandsPerform := by
  unfold Obligations.EngineCommandsPerform
  refine ⟨?_, ?_, ?_, ?_, ?_, ?_, ?_⟩
  -- the event
  · intro s q k h hn ha hc hcoll hst hown k1 s1 p
    have hown' : startsOwn k.instr = false := by
      unfold startsOwn
      split <;> simp_all
    have hp : HeadPerforms s q k := ⟨h, hn, hown', fun _ => ⟨ha, hc, hst⟩⟩
    refine ⟨hp.endsAs_done, fun code va lvl hf _ ht => ?_, fun code tier hf => hp.endsAs_status hf⟩
    have he := hp.endsAs_fault hf ht
    unfold EndsAs at he
    rw [walkFills_task] at he
    exact he
  -- MSWAP
  · intro s k tk a h hi hcb hwork hkeys base
    obtain ⟨t, u, pois, ht, rfl, hr, hq⟩ := h.mswap hi
    obtain ⟨hbuf, hmem, hregs, htoks, hacc⟩ := ranUnder_parts hr
    have hA : t.acc a = swappedAcc a s.core.buf (s.acc a) := by rw [hacc, swapped_acc, asRouted_buf, asRouted_acc]; rfl
    have hB : t.core.buf.cb = swappedCb base s.core.buf.cb (s.acc a).work := by rw [hbuf, swapped_cb, asRouted_buf, asRouted_acc]; rfl
    refine ⟨t, ht, fun e he => ⟨?_, ?_⟩, fun e he => ?_, ?_, ?_, ?_, ?_, ?_, ?_, ?_, hq⟩
    · rw [hA]; exact get_visBank hcb he
    · rw [hB]; exact get_swappedCb_in hcb hwork hkeys he
    · rw [hB]; exact get_swappedCb_out hcb hwork hkeys he
    · rw [hA]; rfl
    · rw [hA]; rfl
    · rw [hA]; rfl
    · rw [hacc, swapped_accNot, asRouted_acc]; rfl
    · rw [hregs, (swapped_task ..).1, asRouted_task]; rfl
    · rw [hmem, swapped_mem, asRouted_mem]; rfl
    · rw [htoks, (swapped_task ..).2, asRouted_task]; rfl
  -- classes 4 and 8
  · intro s k _ hb hu hs t b d a x
    refine ⟨?_, ?_, ?_, ?_, ?_, ?_, ?_⟩
    · intro tk p q rm sat sf df hi
      have hp := performFwd_cvt (s := s) hi
      have h := stop_of hp hs
      obtain ⟨hsf, hdf⟩ := tags_of_cvtRun hu h
      exact ⟨hsf, hdf, onlyBuf_of hp hs (cvtRun_eachElem hu (checkCvt_leaves k sf df))⟩
    · exact fun tk p q rb rc sat sf df hi => onlyBuf_of (performFwd_cvts hi) hs (runCvts_onlyBuf hu)
    · exact fun tk p q rm sf df hi => onlyBuf_of (performFwd_dqw hi) hs (runDqw_onlyBuf hu)
    · exact fun tk rm p q n hi => onlyBuf_of (performFwd_scalex hi) hs (runScalex_onlyBuf hu)
    · exact fun tk p q rm sf df hi => onlyBuf_of (performFwd_qntw hi) hs (runQntw_onlyBuf hu)
    · exact fun tk p q r f hi => onlyBuf_of (performFwd_lnx hi) hs (runLnx_onlyBuf hu hb)
    · intro tk p q r f hi n
      have hl := onlyBuf_of (s := s) (performFwd_lnr hi) hs (runLnr_onlyBuf hu hb)
      simp only [lnrInner, List.map_map] at hl
      exact hl
  -- class 5
  · intro s k _ hb hu hs t d r filled
    refine ⟨?_, ?_, ?_, ?_, ?_, ?_, ?_⟩
    · intro tk sp p q pol off f hi w
      have hp := performFwd_copyIn (s := s) hi
      exact (hp.symm ▸ runCopyIn_fills hu (stop_of hp hs) :)
    · intro tk sp p q e hi w
      have hp := performFwd_fillIn (s := s) hi
      exact (hp.symm ▸ runFillIn_fills hu (stop_of hp hs) :)
    · intro tk sp p q pol off f hi w
      have hp := performFwd_copyOut (s := s) hi
      exact (hp.symm ▸ runCopyOut_chain hu (stop_of hp hs) :)
    · intro tk p q pol off e hi w
      have hp := performFwd_fillOut (s := s) hi
      exact (hp.symm ▸ runFillOut_chain hu (stop_of hp hs) :)
    · intro tk sp p q l c pol st hi
      have hp := performFwd_gthr (s := s) hi
      exact (hp.symm ▸ runGthr_fills hu (stop_of hp hs) :)
    · intro tk sp p l q c pol st hi
      have hp := performFwd_sctr (s := s) hi
      exact (hp.symm ▸ runSctr_chain hu (stop_of hp hs) :)
    · intro tk c p hi hr
      have hp := performFwd_cmpx (s := s) hi
      exact (hp.symm ▸ runCmpx_blocks hu hr (stop_of hp hs) :)
  -- class 9
  · intro s k acc _ hb hu hs hwork t o n b d e val sum
    refine ⟨?_, ?_, ?_, ?_, ?_, ?_⟩
    · intro tk ta tb p q r0 c0 hi K bare sc A B chunk
      have hp := performFwd_mma (s := s) hi
      obtain ⟨a, ha, hw⟩ := runMma_acc hu hb (stop_of hp hs) hwork
      obtain ⟨hn, rfl⟩ := onlyAcc_of hp ha
      exact ⟨hn, hw.wtag, hw.vtag, hw.asx, hw.chk, hw.entry, hw.other⟩
    · intro tk p hi
      have hp := performFwd_mzeroCb (s := s) hi
      obtain ⟨ha, hc⟩ := runMzeroCb_acc (stop_of hp hs)
      obtain ⟨hn, he⟩ := onlyAcc_of hp ha
      have he : n = cbAcc b d o := he
      have hn : onlyAcc s t acc n := hn
      rw [he] at hn ⊢
      exact ⟨hn, rfl, rfl, rfl, rfl, rfl, fun i j _ hj => ⟨cbAcc_entry hc hj, cbRows_get b id i, cbRows_get b Num.abs i, cbCols_get b id j,
        cbCols_get b Num.abs j⟩⟩
    · intro tk p add sat rm df r0 c0 hi hp
      exact onlyBuf_of (performFwd_mst hi) hs fun h => runMst_onlyBuf hu h hp
    · intro tk ta tb p q r0 c0 hi h1 h2 h3 h4 M K N A B al be upd
      have hp := performFwd_mcks (s := s) hi
      obtain ⟨hn, he⟩ := onlyAcc_of hp (runMcks_acc (stop_of hp hs))
      have he : n = mcksAcc r0.toNat c0.toNat M (opCols d ta) N (k.asx acc s) A B o := he
      have hn : onlyAcc s t acc n := hn
      rw [he] at hn ⊢
      exact ⟨hn, fun i hi => ⟨chkLines_get h1 hi, chkLines_get h3 hi⟩, fun j hj => ⟨chkLines_get h2 hj, chkLines_get h4 hj⟩,
        fun i hi => ⟨chkLines_other h1 hi, chkLines_other h3 hi⟩, fun j hj => ⟨chkLines_other h2 hj, chkLines_other h4 hj⟩⟩
    · intro tk rpl off hi hsp v row col byte
      have hp := performFwd_mckv (s := s) hi
      obtain ⟨rep, hrep⟩ := runMckv_checked (stop_of hp hs)
      rw [← hp] at hrep
      refine ⟨hrep.buf, hrep.regs, hrep.bank, fun x hx => hrep.outside hsp hx, fun ha => ?_, fun ha hg => ?_, fun i j ha hi hj hr hc hu => ?_⟩
      · obtain ⟨rfl, he⟩ := hrep.unarmed ha
        refine ⟨hrep.byte hsp (x := 0) (by decide), he, fun x h0 hx => (hrep.byte hsp hx).trans ?_⟩
        obtain ⟨x, rfl⟩ := Nat.exists_eq_succ_of_ne_zero h0.ne'
        exact (List.getD_cons_succ ..).trans (List.getD_replicate _ (by omega))
      · exact hrep.passed hsp ha hg
      · exact hrep.located hsp ha hi hj hr hc hu
    · intro tk hi
      have hp := performFwd_mfix (s := s) hi
      refine ⟨fun hl => (congrArg Prog.s hp).trans (runMfix_none hl), fun hl => ?_⟩
      obtain ⟨hn, he⟩ := onlyAcc_of hp ((runMfix_loc hl).symm ▸ onlyAcc.modAcc s acc fun _ => fixed o)
      have he : n = fixed o := he
      have hn : onlyAcc s t acc n := hn
      rw [he] at hn ⊢
      exact ⟨hn, rfl, fun x hx => (fixed_w hwork x).trans (if_neg hx), (fixed_w hwork _).trans (if_pos rfl)⟩
  -- class 10
  · intro s k _ hb hu hs t b d a x out n mul add
    refine ⟨?_, ?_, ?_, ?_, ?_, ?_, ?_, ?_⟩
    · exact fun tk p q hi => onlyBuf_of (performFwd_sxf hi) hs (runSxf_onlyBuf hu)
    · exact fun tk p q hi => onlyBuf_of (performFwd_sxi hi) hs (runSxi_onlyBuf hu)
    · exact fun tk cj p q r hi => onlyBuf_of (performFwd_scmul hi) hs (runScmul_onlyBuf hu hb)
    · exact fun tk p q hi => onlyBuf_of (performFwd_sconj hi) hs (runSconj_onlyBuf hu)
    · exact fun tk p q r hi => onlyBuf_of (performFwd_sdom hi) hs (runSdom_onlyBuf hu)
    · exact fun tk p q e hi => onlyBuf_of (performFwd_sexp hi) hs (runSexp_onlyBuf hu)
    · exact fun tk p hi => onlyBuf_of (performFwd_gzero hi) hs runGzero_onlyBuf
    · intro tk acc p q f hi hr ww nb M K N V chunk old u
      have hp := performFwd_scmac (s := s) hi
      obtain ⟨a, ha, hw⟩ := runScmac_acc hu hb (stop_of hp hs) hr
      obtain ⟨hn, rfl⟩ := onlyAcc_of hp ha
      exact ⟨hn, hw.vtag.trans (scCleared_vtag _), hw.asx.trans (scCleared_asx _), hw.wtag.trans (scCleared_wtag _),
        fun i y hi hy => (hw.entry i y hi hy).trans (by rw [scCleared_w]; rfl), fun e he => (hw.other e he).trans (scCleared_w _ e)⟩
  -- RPUSH
  · intro s k g hb hg hk hs
    refine ⟨fun tk p hi => ?_, fun tk o n hi => ?_⟩
    · have hp := performFwd_rpush (s := s) hi
      refine ⟨_, (congrArg Prog.s hp).trans (runRpush_tile hb hg hi (stop_of hp hs)), ?_⟩
      rw [List.map_flatMap]
    · have hp := performFwd_rpushSpl (s := s) hi
      exact ⟨_, (congrArg Prog.s hp).trans (runRpush_spill hb hg hi (stop_of hp hs)), spillG_bytes _ _ _⟩

end Sys2Proof.Machine
end

section
/-! The layout of instruction words: the parts of a joined word, and the operand fields that the decoder checks (R35 to R38, O2, O3). -/

namespace Sys2Proof.Machine

open Laws

/-! ### The parts of a word -/

/-- A joined word is another exactly where both its parts are that word's. -/
theorem append_eq_iff {v w : Nat} (hi : BitVec v) (lo : BitVec w) (x : BitVec (v + w)) :
    @Eq (no_index (BitVec (v + w))) (hi ++ lo) x ↔ hi = x.extractLsb' w v ∧ lo = x.extractLsb' 0 w := by
  constructor
  · rintro rfl
    exact ⟨BitVec.extractLsb'_append_eq_left.symm, BitVec.extractLsb'_append_eq_right.symm⟩
  · rintro ⟨rfl, rfl⟩
    exact BitVec.extractLsb'_append_extractLsb'

theorem eq_ofNat_of_toNat {w n : Nat} {x : BitVec w} (h : x.toNat = n) : x = BitVec.ofNat w n := by
  subst h
  simp

/-- A field that lies above a word's width is zero. -/
theorem extract_beyond {w : Nat} (x : BitVec w) {s n : Nat} (h : w ≤ s) : x.extractLsb' s n = 0#n := by
  ext i hi
  simp [BitVec.getLsbD_of_ge x (s + i) (by omega)]

/-- Above its own width a widened word is zero. -/
theorem extract_setWidth_high {w : Nat} (x : BitVec w) {v s n : Nat} (h : w ≤ s) : (x.setWidth v).extractLsb' s n = 0#n := by
  ext i hi
  simp [BitVec.getLsbD_of_ge x (s + i) (by omega)]

/-- The low part of a sign-extended word is the word. -/
theorem extract_signExtend_low {w : Nat} (x : BitVec w) {v n : Nat} (hn : n = w) (h : n ≤ v) :
    (x.signExtend v).extractLsb' 0 n = x.setWidth n := by
  subst hn
  ext i hi
  simp [BitVec.getElem_signExtend, hi, show i < v by omega]

theorem zero_append {n : Nat} (k : Nat) (x : BitVec n) : 0#k ++ x = x.setWidth (k + n) := by
  have hlt : x.toNat < 2 ^ (k + n) := lt_of_lt_of_le x.isLt (Nat.pow_le_pow_right (by decide) (by omega))
  apply BitVec.eq_of_toNat_eq
  rw [BitVec.toNat_append, BitVec.toNat_setWidth, Nat.mod_eq_of_lt hlt]
  simp

/-- A word is its low part, widened, exactly where its high part is zero. -/
theorem setWidth_low_eq_iff {v w : Nat} (h : v ≤ w) (x : BitVec w) :
    (x.extractLsb' 0 v).setWidth w = x ↔ x.extractLsb' v (w - v) = 0 := by
  constructor
  · intro e
    rw [← e, extract_setWidth_high _ le_rfl]
    rfl
  · intro e
    ext i hi
    by_cases hv : i < v
    · simp [hv, hi]
    · have hz := congrArg (·.getLsbD (i - v)) e
      simp [show i - v < w - v by omega, show v + (i - v) = i by omega, BitVec.getLsbD_eq_getElem hi] at hz
      simp [hv, hz]

/-- A field is zero exactly where both its parts are. -/
theorem extract_eq_zero_split {w : Nat} (x : BitVec w) (s k n : Nat) :
    x.extractLsb' s (k + n) = 0#(k + n) ↔ x.extractLsb' (s + n) k = 0#k ∧ x.extractLsb' s n = 0#n := by
  rw [← BitVec.extractLsb'_append_extractLsb'_eq_extractLsb' (start₂ := s + n) rfl, append_eq_iff]
  simp

/-! ### Fields by their value -/

theorem two_bits (m : BitVec 2) : m = 0 ∨ m = 1 ∨ m = 2 ∨ m = 3 := by
  revert m
  decide

/-- A word is below a power of two exactly where its high part is zero. -/
theorem toNat_lt_two_pow_iff {w k : Nat} (x : BitVec w) (h : k ≤ w) : x.toNat < 2 ^ k ↔ x.extractLsb' k (w - k) = 0 := by
  have hlt : x.toNat / 2 ^ k < 2 ^ (w - k) := by
    rw [Nat.div_lt_iff_lt_mul (Nat.two_pow_pos k), ← Nat.pow_add, show w - k + k = w by omega]
    exact x.isLt
  rw [← BitVec.toNat_inj]
  simp [Nat.shiftRight_eq_div_pow, Nat.mod_eq_of_lt hlt, Nat.div_eq_zero_iff]

/-- A bound on a word is one on its low part, with the high part zero. -/
theorem toNat_le_iff_low {w n : Nat} {x : BitVec w} (k : Nat) (hn : n < 2 ^ k) (h : k < w) :
    x.toNat ≤ n ↔ x.extractLsb' k (w - k) = 0 ∧ (x.extractLsb' 0 k).toNat ≤ n := by
  rw [← toNat_lt_two_pow_iff x h.le, BitVec.extractLsb'_toNat, Nat.shiftRight_zero]
  constructor
  · intro hx
    rw [Nat.mod_eq_of_lt (by omega)]
    exact ⟨by omega, hx⟩
  · rintro ⟨hx, hl⟩
    rwa [Nat.mod_eq_of_lt hx] at hl

/-- A three-bit field is below 4 exactly where its high bit is clear. -/
theorem extract_three_lt_four_iff {w : Nat} (x : BitVec w) (s : Nat) : (x.extractLsb' s 3).toNat < 4 ↔ x.extractLsb' (s + 2) 1 = 0#1 := by
  have hbit : (x.extractLsb' s 3).extractLsb' 2 (3 - 2) = x.extractLsb' (s + 2) 1 := by
    ext i hi
    simp [show 2 + i < 3 by omega, Nat.add_assoc]
  rw [show (4 : Nat) = 2 ^ 2 from rfl, toNat_lt_two_pow_iff _ (by decide), hbit]
  rfl

/-- A word that fits a narrower width comes back from it. -/
theorem setWidth_setWidth_of_toNat_lt {w k : Nat} {x : BitVec w} (h : x.toNat < 2 ^ k) : (x.setWidth k).setWidth w = x := by
  apply BitVec.eq_of_toNat_eq
  simp [Nat.mod_eq_of_lt h]

/-! ### One bit -/

@[simp] theorem bit_false : bit false = 0#1 := rfl
@[simp] theorem bit_true : bit true = 1#1 := rfl
@[simp] theorem bit_getLsbD (b : Bool) : (bit b).getLsbD 0 = b := by cases b <;> rfl
@[simp] theorem bit_getElem {w : Nat} (x : BitVec w) (i : Nat) (h : i < w) : bit x[i] = x.extractLsb' i 1 := by
  ext k hk
  simp [bit, show k = 0 by omega, BitVec.getLsbD_eq_getElem h]

theorem getElem_eq_false_iff {w : Nat} (x : BitVec w) (i : Nat) (h : i < w) : x[i] = false ↔ x.extractLsb' i 1 = 0#1 := by
  rw [← bit_getElem x i h]
  cases x[i] <;> decide

@[simp] theorem m1_getLsbD_zero (b : Bool) : (m1 b).getLsbD 0 = b := by cases b <;> rfl
@[simp] theorem m1_getLsbD_one (b : Bool) : (m1 b).getLsbD 1 = false := by cases b <;> rfl
@[simp] theorem m1_eq_flag (b : Bool) : (m1 b == 1#2) = b := by cases b <;> rfl
@[simp] theorem m1_eq_zero (b : Bool) : m1 b = 0#2 ↔ b = false := by cases b <;> decide
@[simp] theorem m1_eq_one (b : Bool) : m1 b = 1#2 ↔ b = true := by cases b <;> decide
theorem m1_zero_or_one (b : Bool) : (m1 b == 0#2 || m1 b == 1#2) = true := by cases b <;> rfl

/-! ### Codes (R19, R38, R39, R40, R47, R68, R164, R173) -/

@[simp] theorem rm_ofCode_code (x : RM) : RM.ofCode x.code = x := by cases x <;> rfl
@[simp] theorem rm_code_ofCode (c : BitVec 2) : (RM.ofCode c).code = c := by revert c; decide
@[simp] theorem rm_rne_code : RM.rne.code = 0#2 := rfl
@[simp] theorem msize_ofCode_code (x : MSize) : MSize.ofCode x.code = x := by cases x <;> rfl
@[simp] theorem msize_code_ofCode (c : BitVec 2) : (MSize.ofCode c).code = c := by revert c; decide
@[simp] theorem oobMode_ofCode_code (x : OobMode) : OobMode.ofCode x.code = x := by cases x <;> rfl
@[simp] theorem oobMode_code_ofCode (c : BitVec 2) : (OobMode.ofCode c).code = c := by revert c; decide
@[simp] theorem bspace_ofCode_code (x : BSpace) : BSpace.ofCode x.code = some x := by cases x <;> rfl
@[simp] theorem fspace_ofCode_code (x : FSpace) : FSpace.ofCode x.code = some x := by cases x <;> rfl
@[simp] theorem scope_ofCode_code (x : Scope) : Scope.ofCode x.code = some x := by cases x <;> rfl

theorem scope_code_of_ofCode {c : BitVec 3} {sc : Scope} (h : Scope.ofCode c = some sc) : c = sc.code := by
  revert c sc
  decide

/-- A space field names a buffer or holds 3. -/
theorem bspace_cases (c : BitVec 2) : c = BSpace.wb.code ∨ c = BSpace.ab.code ∨ c = BSpace.cb.code ∨ c = 3#2 := two_bits c

/-- An atomic's space code 0 is WB's (R164). -/
theorem bspace_wb_code : BSpace.wb.code = 0#2 := rfl

/-- FARD's codes of the buffers are those of R164; its third space is 3. -/
theorem fspace_wb_code : FSpace.wb.code = BSpace.wb.code := rfl
theorem fspace_ab_code : FSpace.ab.code = BSpace.ab.code := rfl
theorem fspace_g_code : FSpace.g.code = 3#2 := rfl

@[simp] theorem dc_dr (d : DCode) : dc (dr d) = d := by simp [dc, dr]
@[simp] theorem dr_inj (a b : DCode) : dr a = dr b ↔ a = b := ⟨fun h => by rw [← dc_dr a, h, dc_dr], fun h => h ▸ rfl⟩
theorem dr_dc {r : Reg} (h : r.toNat < 16) : dr (dc r) = r := setWidth_setWidth_of_toNat_lt h
@[simp] theorem dr_lt (d : DCode) : (dr d).toNat < 16 := by
  have hlt := d.isLt
  simp only [dr, BitVec.toNat_setWidth]
  omega

@[simp] theorem tok_bits_ofBits (b : BitVec 4) : (Tok.ofBits b).bits = b := by revert b; decide
@[simp] theorem tok_ofBits_bits (t : Tok) : Tok.ofBits t.bits = t := by
  obtain ⟨sn, sp, pn, pp⟩ := t
  revert sn sp pn pp
  decide
@[simp] theorem tok_bits_inj (t u : Tok) : t.bits = u.bits ↔ t = u :=
  ⟨fun h => by rw [← tok_ofBits_bits t, h, tok_ofBits_bits], fun h => h ▸ rfl⟩

@[simp] theorem scope_code_inj (a b : Scope) : a.code = b.code ↔ a = b :=
  ⟨fun h => Option.some.inj (by rw [← scope_ofCode_code a, h, scope_ofCode_code]), fun h => h ▸ rfl⟩
@[simp] theorem scope_imm_inj (a b : Scope) : a.code.setWidth 20 = b.code.setWidth 20 ↔ a = b := by
  refine ⟨fun h => ?_, fun h => h ▸ rfl⟩
  have hc := congrArg (·.extractLsb' 0 3) h
  simpa [BitVec.extractLsb'_setWidth_of_le] using hc

@[simp] theorem accumulator_field_inj (a b : Bool) : (bit a).setWidth 6 = (bit b).setWidth 6 ↔ a = b := by
  cases a <;> cases b <;> decide

/-! ### The decoder's checks -/

@[simp] theorem ck_eq_ok (c : Bool) (e : DecodeErr) (r : Except DecodeErr Instr) (i : Instr) :
    ck c e r = .ok i ↔ c = true ∧ r = .ok i := by
  cases c <;> simp [ck]

/-- A scope operand is a scope's code, with the rest of IMM20 zero (R38). -/
theorem scopeOp_eq_ok {f : W8} {ok : Scope → Bool} {mk : Scope → Instr} {i : Instr} :
    scopeOp f ok mk = .ok i ↔ ∃ sc, ok sc = true ∧ mk sc = i ∧ f.imm = sc.code.setWidth 20 := by
  simp only [scopeOp, ck_eq_ok, beq_iff_eq]
  constructor
  · rintro ⟨hz, h⟩
    split at h
    · rename_i sc hsc
      obtain ⟨hok, h⟩ := (ck_eq_ok ..).1 h
      exact ⟨sc, hok, Except.ok.inj h, by rw [← scope_code_of_ofCode hsc, (setWidth_low_eq_iff (by decide) _).2 hz]⟩
    · cases h
  · rintro ⟨sc, hok, rfl, hi⟩
    rw [hi, extract_setWidth_high _ (by decide), BitVec.extractLsb'_setWidth_of_le (by decide)]
    simp [hok]

theorem barImm_eq_iff {sc : Scope} {b : BitVec 3} {x : BitVec 20} :
    barImm sc b = x ↔ 0#14 = x.extractLsb' 6 14 ∧ b = x.extractLsb' 3 3 ∧ sc.code = x.extractLsb' 0 3 := by
  simp [barImm, append_eq_iff, -Nat.reduceAdd]

@[simp] theorem barImm_inj (s t : Scope) (a b : BitVec 3) : barImm s a = barImm t b ↔ s = t ∧ a = b := by
  refine ⟨fun h => ?_, fun ⟨hs, ha⟩ => hs ▸ ha ▸ rfl⟩
  obtain ⟨-, ha, hs⟩ := barImm_eq_iff.1 h
  obtain ⟨-, hb, ht⟩ := barImm_eq_iff.1 (rfl : barImm t b = _)
  exact ⟨(scope_code_inj s t).1 (hs.trans ht.symm), ha.trans hb.symm⟩

/-- A barrier operand is a barrier's immediate (R327). -/
theorem barOp_eq_ok {f : W8} {mk : Scope → BitVec 3 → Instr} {i : Instr} :
    barOp f mk = .ok i ↔ ∃ sc b, barScope sc = true ∧ mk sc b = i ∧ barImm sc b = f.imm := by
  simp only [barOp, ck_eq_ok, beq_iff_eq, barImm_eq_iff]
  constructor
  · rintro ⟨hz, h⟩
    split at h
    · rename_i sc hsc
      obtain ⟨hok, h⟩ := (ck_eq_ok ..).1 h
      exact ⟨sc, _, hok, Except.ok.inj h, hz.symm, rfl, (scope_code_of_ofCode hsc).symm⟩
    · cases h
  · rintro ⟨sc, b, hok, rfl, hz, rfl, hs⟩
    simp [← hz, ← hs, hok]

/-- The token field of a load-queue command is that of a token it may carry (R19). -/
theorem tokLoad_eq_ok {f : W8} {k : Tok → Except DecodeErr Instr} {i : Instr} :
    tokLoad f k = .ok i ↔ ∃ t, t.okLoad = true ∧ f.tk = t.bits ∧ k t = .ok i := by
  have hok : (Tok.ofBits f.tk).okLoad = (f.tk.getLsbD 0 == false && f.tk.getLsbD 2 == false) := by
    simp [Tok.okLoad, Tok.ofBits]
  rw [tokLoad, ck_eq_ok, ← hok]
  constructor
  · exact fun ⟨h, hk⟩ => ⟨_, h, (tok_bits_ofBits _).symm, hk⟩
  · rintro ⟨t, h, ht, hk⟩
    rw [ht, tok_ofBits_bits]
    exact ⟨h, hk⟩

/-- The token field of a store-queue command is that of a token it may carry (R19). -/
theorem tokStore_eq_ok {f : W8} {k : Tok → Except DecodeErr Instr} {i : Instr} :
    tokStore f k = .ok i ↔ ∃ t, t.okStore = true ∧ f.tk = t.bits ∧ k t = .ok i := by
  have hok : (Tok.ofBits f.tk).okStore = (f.tk.getLsbD 1 == false && f.tk.getLsbD 3 == false) := by
    simp [Tok.okStore, Tok.ofBits]
  rw [tokStore, ck_eq_ok, ← hok]
  constructor
  · exact fun ⟨h, hk⟩ => ⟨_, h, (tok_bits_ofBits _).symm, hk⟩
  · rintro ⟨t, h, ht, hk⟩
    rw [ht, tok_ofBits_bits]
    exact ⟨h, hk⟩

/-- RD and RA name two descriptors (R39). -/
theorem descDA_eq_ok {f : W8} {k : DCode → DCode → Except DecodeErr Instr} {i : Instr} :
    descDA f k = .ok i ↔ ∃ d a, f.rd = dr d ∧ f.ra = dr a ∧ k d a = .ok i := by
  simp only [descDA, ck_eq_ok, Bool.and_eq_true, decide_eq_true_eq]
  constructor
  · exact fun ⟨⟨hd, ha⟩, hk⟩ => ⟨_, _, (dr_dc hd).symm, (dr_dc ha).symm, hk⟩
  · rintro ⟨d, a, hd, ha, hk⟩
    simp [hd, ha, hk]

/-- A register field names one of the two accumulators (R247). -/
theorem accField_eq_ok {r : Reg} {k : Bool → Except DecodeErr Instr} {i : Instr} :
    accField r k = .ok i ↔ ∃ a, r = (bit a).setWidth 6 ∧ k a = .ok i := by
  have hr : ∀ r : Reg, r.toNat < 2 → r = (bit (r.getLsbD 0)).setWidth 6 := by decide
  simp only [accField, ck_eq_ok, decide_eq_true_eq]
  constructor
  · exact fun ⟨h, hk⟩ => ⟨_, hr r h, hk⟩
  · rintro ⟨a, rfl, hk⟩
    cases a <;> exact ⟨by decide, hk⟩

/-! ### Immediates and extension words -/

/-- The four fields of the I8-J layout make up IMM38 (R35). -/
theorem imm38_parts (o : BitVec 38) : o.extractLsb' 18 20 ++ (o.extractLsb' 12 6 ++ (o.extractLsb' 6 6 ++ o.extractLsb' 0 6)) = o := by
  simp [append_eq_iff, -Nat.reduceAdd]

/-- TIERQ's immediate is 0 or 2 (R176). -/
theorem tierq_imm {x : BitVec 20} (h : x.extractLsb' 8 12 = 0#12) (hv : x.extractLsb' 0 8 = 0#8 ∨ x.extractLsb' 0 8 = 2#8) :
    (if x.extractLsb' 0 8 = 2#8 then 2#20 else 0#20) = x := by
  rw [← (setWidth_low_eq_iff (by decide) x).2 h]
  rcases hv with e | e <;> simp [e]

/-- FILL's extension word holds nothing above its element size (R166). -/
theorem fill_spare_eq_zero_iff (p : Prop) (x : Word) :
    (p ∧ x.extractLsb' 6 58 = 0#58) ∧ x.extractLsb' 4 2 = 0#2 ↔ p ∧ x.extractLsb' 4 60 = 0#60 := by
  have h := extract_eq_zero_split x 4 58 2
  exact ⟨fun ⟨⟨hp, hi⟩, lo⟩ => ⟨hp, h.2 ⟨hi, lo⟩⟩, fun ⟨hp, hz⟩ => ⟨⟨hp, (h.1 hz).1⟩, (h.1 hz).2⟩⟩

/-- A tile's row and column as a whole extension word (R247). -/
theorem xrc_setWidth (r c : BitVec 7) : (xrc r c).setWidth 64 = 0#49 ++ (c ++ (0#1 ++ r)) := by
  have e : xrc r c = (c ++ (0#1 ++ r)).setWidth 16 := zero_append 1 _
  have hlt := (c ++ (0#1 ++ r)).isLt
  rw [e, zero_append 49]
  apply BitVec.eq_of_toNat_eq
  rw [BitVec.toNat_setWidth, BitVec.toNat_setWidth, BitVec.toNat_setWidth]
  omega

/-- An atomic on a tensor does not name WB (R188). -/
theorem atomOk_tensor_wb (a : AtomF) : atomOk .awrT a 0#6 .wb = false := by simp [atomOk]

end Sys2Proof.Machine
end


section
/-! What the decoder accepts is an encoding: class by class, the checks say that the words read are those of the instruction answered (R35 to R37, O3). -/

namespace Sys2Proof.Machine

open Laws

/-- The words whose first granule has fields f, by its size field (R35, R36). -/
def words (f : W8) (x1 x2 x3 : Word) : List Word :=
  match f.sz.toNat with
  | 1 => [f.pack, x1]
  | 2 => [f.pack, x1, x2, x3]
  | _ => [f.pack]

/-- An instruction of the stream is well formed and has these words for its encoding. -/
def Encodes (i : Instr) (ws : List Word) : Prop := i.wf = true ∧ i.isEvent = false ∧ encode i = ws

@[simp] theorem pack_inj (f g : W8) : f.pack = g.pack ↔ f = g :=
  ⟨fun h => by rw [← w8_unpack_pack f, h, w8_unpack_pack], fun h => h ▸ rfl⟩

/-- The fields of a word make it up again (R35). -/
theorem pack_unpack (w : Word) : (W8.unpack w).pack = w := by
  simp [W8.pack, W8.unpack, append_eq_iff, -Nat.reduceAdd]

section
variable {imm : BitVec 20} {rc rb ra rd : Reg} {m : BitVec 2} {tk : BitVec 4} {op : BitVec 8} {sz : BitVec 2} {x1 x2 x3 : Word} {i : Instr}

/-- Class 0 (R95 to R98). -/
theorem decode0_encodes (hsz : opSize 0 op = some sz) (h : decode0 ⟨imm, rc, rb, ra, rd, m, tk, op, 0, sz⟩ x1 = .ok i) :
    Encodes i (words ⟨imm, rc, rb, ra, rd, m, tk, op, 0, sz⟩ x1 x2 x3) := by
  simp only [decode0, ck_eq_ok, beq_iff_eq] at h
  obtain ⟨rfl, h⟩ := h
  split at h
  case h_28 => cases h
  all_goals
    rename_i hop
    obtain rfl := eq_ofNat_of_toNat hop
    simp [opSize] at hsz
    subst hsz
    obtain rfl | rfl | rfl | rfl := two_bits m <;> revert h <;> simp [-BitVec.extractLsb'_toNat]
  all_goals
    intros
    subst_vars
    exact ⟨by simp [Instr.wf, -BitVec.extractLsb'_toNat, *], rfl, by
      simp (disch := omega) [encode, g8, words, i8, encShift, MulMode.code, append_eq_iff, setWidth_low_eq_iff, -Nat.reduceAdd, *]⟩

/-- Class 1 (R99 to R102). -/
theorem decode1_encodes (hsz : opSize 1 op = some sz) (h : decode1 ⟨imm, rc, rb, ra, rd, m, tk, op, 1, sz⟩ = .ok i) :
    Encodes i (words ⟨imm, rc, rb, ra, rd, m, tk, op, 1, sz⟩ x1 x2 x3) := by
  simp only [decode1, ck_eq_ok, beq_iff_eq] at h
  obtain ⟨rfl, rfl, h⟩ := h
  split at h
  case h_14 => cases h
  all_goals
    rename_i hop
    obtain rfl := eq_ofNat_of_toNat hop
    simp [opSize] at hsz
    subst hsz
    revert h
    simp [toNat_le_iff_low 8, -BitVec.extractLsb'_toNat]
  all_goals
    intros
    subst_vars
    exact ⟨by simp [Instr.wf, -BitVec.extractLsb'_toNat, *], rfl, by
      simp (disch := omega) [encode, g8, words, i8, i8j, W8.imm38, BitVec.extractLsb'_append_eq_of_le, BitVec.extractLsb'_append_eq_of_add_le, setWidth_low_eq_iff,
        -Nat.reduceAdd, *]⟩

/-- Class 2 (R116 to R131). -/
theorem decode2_encodes (hsz : opSize 2 op = some sz) (h : decode2 ⟨imm, rc, rb, ra, rd, m, tk, op, 2, sz⟩ = .ok i) :
    Encodes i (words ⟨imm, rc, rb, ra, rd, m, tk, op, 2, sz⟩ x1 x2 x3) := by
  simp only [decode2, ck_eq_ok, beq_iff_eq] at h
  obtain ⟨rfl, h⟩ := h
  split at h
  case h_16 => cases h
  all_goals
    rename_i hop
    obtain rfl := eq_ofNat_of_toNat hop
    simp [opSize] at hsz
    subst hsz
    obtain rfl | rfl | rfl | rfl := two_bits m <;> revert h <;> simp [scopeOp_eq_ok, -BitVec.extractLsb'_toNat]
  all_goals
    intros
    subst_vars
    exact ⟨by simp [Instr.wf, -BitVec.extractLsb'_toNat, *], rfl, by
      simp (disch := omega) [encode, g8, words, i8, dr_dc, setWidth_low_eq_iff, -Nat.reduceAdd, *]⟩

/-- Class 3 (R146). -/
theorem decode3_encodes (hsz : opSize 3 op = some sz) (h : decode3 ⟨imm, rc, rb, ra, rd, m, tk, op, 3, sz⟩ = .ok i) :
    Encodes i (words ⟨imm, rc, rb, ra, rd, m, tk, op, 3, sz⟩ x1 x2 x3) := by
  simp only [decode3, ck_eq_ok, beq_iff_eq] at h
  obtain ⟨rfl, rfl, h⟩ := h
  split at h
  case h_10 => cases h
  all_goals
    rename_i hop
    obtain rfl := eq_ofNat_of_toNat hop
    simp [opSize] at hsz
    subst hsz
    obtain rfl | rfl | rfl | rfl := two_bits m <;> revert h <;> simp [scopeOp_eq_ok, -BitVec.extractLsb'_toNat]
  all_goals
    intros
    subst_vars
    exact ⟨by simp [Instr.wf, -BitVec.extractLsb'_toNat, *], rfl, by
      simp (disch := omega) [encode, g8, words, i8, Acc.code, setWidth_low_eq_iff, -Nat.reduceAdd, *]⟩

/-- Class 4 (R79 to R88). -/
theorem decode4_encodes (hsz : opSize 4 op = some sz) (h : decode4 ⟨imm, rc, rb, ra, rd, m, tk, op, 4, sz⟩ x1 = .ok i) :
    Encodes i (words ⟨imm, rc, rb, ra, rd, m, tk, op, 4, sz⟩ x1 x2 x3) := by
  simp only [decode4] at h
  split at h
  case h_9 => cases h
  all_goals
    rename_i hop
    obtain rfl := eq_ofNat_of_toNat hop
    simp [opSize] at hsz
    subst hsz
    obtain rfl | rfl | rfl | rfl := two_bits m <;> revert h <;> simp [eq_comm (a := imm) (b := BitVec.signExtend _ _), descDA_eq_ok, toNat_le_iff_low 14, extract_three_lt_four_iff, extract_eq_zero_split x1 8 1 2,
      getElem_eq_false_iff, -BitVec.extractLsb'_toNat]
  all_goals
    intros
    subst_vars
    exact ⟨by simp [Instr.wf, -BitVec.extractLsb'_toNat, *], rfl, by
      simp (disch := omega) [encode, g8, words, x4, dr_dc, BitVec.setWidth_extractLsb'_of_le, append_eq_iff, setWidth_low_eq_iff, -Nat.reduceAdd, *]⟩

/-- Class 5 (R161 to R182). -/
theorem decode5_encodes (hsz : opSize 5 op = some sz) (h : decode5 ⟨imm, rc, rb, ra, rd, m, tk, op, 5, sz⟩ x1 x2 x3 = .ok i) :
    Encodes i (words ⟨imm, rc, rb, ra, rd, m, tk, op, 5, sz⟩ x1 x2 x3) := by
  simp only [decode5] at h
  split at h
  case h_10 => cases h
  all_goals
    rename_i hop
    obtain rfl := eq_ofNat_of_toNat hop
    simp [opSize] at hsz
    subst hsz
  case h_1 =>
    simp [-BitVec.extractLsb'_toNat] at h
    obtain ⟨rfl, ⟨⟨⟨rfl, rfl⟩, hz⟩, hv⟩, rfl, rfl⟩ := h
    exact ⟨rfl, rfl, by simp [encode, g8, words, i8, tierq_imm hz hv]⟩
  case h_2 | h_3 | h_9 =>
    obtain rfl | rfl | rfl | rfl := two_bits m <;> revert h <;> simp [tokLoad_eq_ok, tokStore_eq_ok, -BitVec.extractLsb'_toNat]
    all_goals
      intros
      subst_vars
      exact ⟨by simp (disch := omega) [Instr.wf, Nat.mod_eq_of_lt, *], rfl, by
        simp (disch := omega) [encode, g8, words, setWidth_low_eq_iff, setWidth_setWidth_of_toNat_lt, -Nat.reduceAdd, *]⟩
  all_goals
    obtain hsp | hsp | hsp | hsp := bspace_cases (x1.extractLsb' 0 2) <;> obtain rfl | rfl | rfl | rfl := two_bits m <;> revert h <;>
      simp [hsp, BSpace.code, BSpace.ofCode, FSpace.ofCode, tokLoad_eq_ok, tokStore_eq_ok, fill_spare_eq_zero_iff, -BitVec.extractLsb'_toNat]
  all_goals
    intros
    subst_vars
    exact ⟨by simp [Instr.wf, -BitVec.extractLsb'_toNat, *], rfl, by
      simp (disch := omega) [encode, g8, words, x5c, fspace_wb_code, fspace_ab_code, fspace_g_code, append_eq_iff, dr_dc, -Nat.reduceAdd, *]⟩

/-- Class 6 (R187 to R190, R202). -/
theorem decode6_encodes (hsz : opSize 6 op = some sz) (h : decode6 ⟨imm, rc, rb, ra, rd, m, tk, op, 6, sz⟩ x1 = .ok i) :
    Encodes i (words ⟨imm, rc, rb, ra, rd, m, tk, op, 6, sz⟩ x1 x2 x3) := by
  simp only [decode6] at h
  split at h
  case h_5 => cases h
  all_goals
    rename_i hop
    obtain rfl := eq_ofNat_of_toNat hop
    simp [opSize] at hsz
    subst hsz
    obtain hsp | hsp | hsp | hsp := bspace_cases (x1.extractLsb' 16 2) <;> obtain rfl | rfl | rfl | rfl := two_bits m <;> revert h <;>
      simp [hsp, BSpace.code, tokStore_eq_ok, -BitVec.extractLsb'_toNat]
  all_goals
    intros
    subst_vars
    exact ⟨by simp [Instr.wf, -BitVec.extractLsb'_toNat, *], rfl, by
      simp (disch := omega) [encode, g8, words, i8, x6, bspace_wb_code, append_eq_iff, -Nat.reduceAdd, *]⟩

/-- Class 7 (R210). -/
theorem decode7_encodes (hsz : opSize 7 op = some sz) (h : decode7 ⟨imm, rc, rb, ra, rd, m, tk, op, 7, sz⟩ x1 = .ok i) :
    Encodes i (words ⟨imm, rc, rb, ra, rd, m, tk, op, 7, sz⟩ x1 x2 x3) := by
  simp only [decode7, ck_eq_ok, Bool.and_eq_true, beq_iff_eq] at h
  obtain ⟨⟨⟨rfl, rfl⟩, hv⟩, rfl, h⟩ := h
  split at h
  case h_3 => cases h
  all_goals
    rename_i hop
    obtain rfl := eq_ofNat_of_toNat hop
    simp [opSize] at hsz
    subst hsz
    revert h
    simp [-BitVec.extractLsb'_toNat]
  all_goals
    intros
    subst_vars
    exact ⟨by simp [Instr.wf, -BitVec.extractLsb'_toNat, *], rfl, by
      simp (disch := omega) [encode, g8, words, append_eq_iff, setWidth_low_eq_iff, -Nat.reduceAdd, *]⟩

/-- The fields of LNX and LNR are those that the four words hold (R233). -/
theorem encLn_lnFields (op : BitVec 8) (hm : m.getLsbD 1 = false) (h1 : x1.extractLsb' 59 5 = 0) (h2 : x2.getLsbD 63 = false) (h3 : x3.getLsbD 63 = false)
    (hd : rd.toNat < 16) (ha : ra.toNat < 16) (hb : rb.toNat < 16) :
    encLn op (Tok.ofBits tk) (dc rd) (dc ra) (dc rb) (lnFields ⟨imm, rc, rb, ra, rd, m, tk, op, 8, 2⟩ x1 x2 x3) =
      words ⟨imm, rc, rb, ra, rd, m, tk, op, 8, 2⟩ x1 x2 x3 := by
  simp [getElem_eq_false_iff] at h1 h2 h3
  obtain rfl | rfl | rfl | rfl := two_bits m <;> revert hm <;>
    simp (disch := omega) [encLn, lnFields, g8, words, Lv5.bits, Lv5.ofBits, append_eq_iff, dr_dc, -Nat.reduceAdd, *]

/-- Class 8 (R233). -/
theorem decode8_encodes (hsz : opSize 8 op = some sz) (h : decode8 ⟨imm, rc, rb, ra, rd, m, tk, op, 8, sz⟩ x1 x2 x3 = .ok i) :
    Encodes i (words ⟨imm, rc, rb, ra, rd, m, tk, op, 8, sz⟩ x1 x2 x3) := by
  simp only [decode8, ck_eq_ok, Bool.and_eq_true, beq_iff_eq, decide_eq_true_eq] at h
  obtain ⟨hm, ⟨⟨h1, h2⟩, h3⟩, ⟨⟨hd, ha⟩, hb⟩, h⟩ := h
  split at h
  case h_3 => cases h
  all_goals
    rename_i hop
    obtain rfl := eq_ofNat_of_toNat hop
    simp [opSize] at hsz
    subst hsz
    obtain ⟨hok, rfl⟩ : _ ∧ _ = i := by simpa using h
    exact ⟨hok, rfl, encLn_lnFields _ hm h1 h2 h3 hd ha hb⟩

/-- Class 9 (R247 to R262). -/
theorem decode9_encodes (hsz : opSize 9 op = some sz) (h : decode9 ⟨imm, rc, rb, ra, rd, m, tk, op, 9, sz⟩ x1 = .ok i) :
    Encodes i (words ⟨imm, rc, rb, ra, rd, m, tk, op, 9, sz⟩ x1 x2 x3) := by
  simp only [decode9] at h
  split at h
  case h_11 => cases h
  all_goals
    rename_i hop
    obtain rfl := eq_ofNat_of_toNat hop
    simp [opSize] at hsz
    subst hsz
    obtain rfl | rfl | rfl | rfl := two_bits m <;> revert h <;> simp [eq_comm (a := imm) (b := BitVec.signExtend _ _), accField_eq_ok, -Bool.exists_bool, -Bool.forall_bool, extract_three_lt_four_iff,
      getElem_eq_false_iff, -BitVec.extractLsb'_toNat]
  all_goals
    intros
    subst_vars
    exact ⟨by simp [Instr.wf, -BitVec.extractLsb'_toNat, *], rfl, by
      simp (disch := omega) [encode, g8, words, ↓xrc_setWidth, xrc, dr_dc, append_eq_iff, -Nat.reduceAdd, *]⟩

/-- Class 10 (R270, R281). -/
theorem decode10_encodes (hsz : opSize 10 op = some sz) (h : decode10 ⟨imm, rc, rb, ra, rd, m, tk, op, 10, sz⟩ x1 = .ok i) :
    Encodes i (words ⟨imm, rc, rb, ra, rd, m, tk, op, 10, sz⟩ x1 x2 x3) := by
  simp only [decode10, ck_eq_ok, beq_iff_eq] at h
  obtain ⟨rfl, h⟩ := h
  split at h
  case h_8 => cases h
  all_goals
    rename_i hop
    obtain rfl := eq_ofNat_of_toNat hop
    simp [opSize] at hsz
    subst hsz
    obtain rfl | rfl | rfl | rfl := two_bits m <;> revert h <;> simp [accField_eq_ok, -Bool.exists_bool, -Bool.forall_bool, descDA_eq_ok, getElem_eq_false_iff, -BitVec.extractLsb'_toNat]
  all_goals
    intros
    subst_vars
    exact ⟨by simp [Instr.wf, -BitVec.extractLsb'_toNat, *], rfl, by
      simp (disch := omega) [encode, g8, words, xrc, dr_dc, append_eq_iff, setWidth_low_eq_iff, -Nat.reduceAdd, *]⟩

/-- Class 11 (R289). -/
theorem decode11_encodes (hsz : opSize 11 op = some sz) (h : decode11 ⟨imm, rc, rb, ra, rd, m, tk, op, 11, sz⟩ = .ok i) :
    Encodes i (words ⟨imm, rc, rb, ra, rd, m, tk, op, 11, sz⟩ x1 x2 x3) := by
  simp only [decode11, ck_eq_ok, Bool.and_eq_true, beq_iff_eq] at h
  obtain ⟨⟨rfl, rfl⟩, h⟩ := h
  split at h
  case h_7 => cases h
  all_goals
    rename_i hop
    obtain rfl := eq_ofNat_of_toNat hop
    simp [opSize] at hsz
    subst hsz
    obtain rfl | rfl | rfl | rfl := two_bits m <;> revert h <;> simp [-BitVec.extractLsb'_toNat]
  all_goals
    intros
    subst_vars
    exact ⟨by simp [Instr.wf, -BitVec.extractLsb'_toNat, *], rfl, by
      simp (disch := omega) [encode, g8, words, i8, dr_dc, append_eq_iff, setWidth_low_eq_iff, -Nat.reduceAdd, *]⟩

/-- Class 12 (R327). -/
theorem decode12_encodes (hsz : opSize 12 op = some sz) (h : decode12 ⟨imm, rc, rb, ra, rd, m, tk, op, 12, sz⟩ = .ok i) :
    Encodes i (words ⟨imm, rc, rb, ra, rd, m, tk, op, 12, sz⟩ x1 x2 x3) := by
  simp only [decode12, ck_eq_ok, beq_iff_eq] at h
  obtain ⟨rfl, rfl, h⟩ := h
  split at h
  case h_12 => cases h
  all_goals
    rename_i hop
    obtain rfl := eq_ofNat_of_toNat hop
    simp [opSize] at hsz
    subst hsz
    obtain rfl | rfl | rfl | rfl := two_bits m <;> revert h <;> simp [barOp_eq_ok, -BitVec.extractLsb'_toNat]
  all_goals
    intros
    subst_vars
    exact ⟨by simp [Instr.wf, -BitVec.extractLsb'_toNat, *], rfl, by
      simp (disch := omega) [encode, g8, words, i8, -Nat.reduceAdd, *]⟩

/-- Class 13 (R346). -/
theorem decode13_encodes (hsz : opSize 13 op = some sz) (h : decode13 ⟨imm, rc, rb, ra, rd, m, tk, op, 13, sz⟩ x1 = .ok i) :
    Encodes i (words ⟨imm, rc, rb, ra, rd, m, tk, op, 13, sz⟩ x1 x2 x3) := by
  simp only [decode13, ck_eq_ok, beq_iff_eq] at h
  obtain ⟨rfl, h⟩ := h
  split at h
  case h_6 => cases h
  all_goals
    rename_i hop
    obtain rfl := eq_ofNat_of_toNat hop
    simp [opSize] at hsz
    subst hsz
    obtain rfl | rfl | rfl | rfl := two_bits m <;> revert h <;> simp [tokStore_eq_ok, -BitVec.extractLsb'_toNat]
  all_goals
    intros
    subst_vars
    exact ⟨by simp [Instr.wf, -BitVec.extractLsb'_toNat, *], rfl, by
      simp (disch := omega) [encode, g8, words, i8, x13, dr_dc, setWidth_setWidth_of_toNat_lt, append_eq_iff, setWidth_low_eq_iff, -Nat.reduceAdd, *]⟩

/-- Class 14 (R367). -/
theorem decode14_encodes (hsz : opSize 14 op = some sz) (h : decode14 ⟨imm, rc, rb, ra, rd, m, tk, op, 14, sz⟩ = .ok i) :
    Encodes i (words ⟨imm, rc, rb, ra, rd, m, tk, op, 14, sz⟩ x1 x2 x3) := by
  simp only [decode14, ck_eq_ok, Bool.and_eq_true, beq_iff_eq] at h
  obtain ⟨rfl, ⟨rfl, rfl⟩, h⟩ := h
  split at h
  case h_10 => cases h
  all_goals
    rename_i hop
    obtain rfl := eq_ofNat_of_toNat hop
    simp [opSize] at hsz
    subst hsz
    obtain rfl | rfl | rfl | rfl := two_bits m <;> revert h <;> simp [toNat_le_iff_low 4, -BitVec.extractLsb'_toNat]
  all_goals
    intros
    subst_vars
    exact ⟨by simp [Instr.wf, -BitVec.extractLsb'_toNat, *], rfl, by
      simp (disch := omega) [encode, g8, words, i8, setWidth_low_eq_iff, -Nat.reduceAdd, *]⟩

end

/-- What the decoder accepts has a class and a size that the opcode map gives (R37, R45 to R50). -/
theorem decodeW_sized {f : W8} {x1 x2 x3 : Word} {i : Instr} (h : decodeW f x1 x2 x3 = .ok i) : f.cl ≠ 15 ∧ opSize f.cl f.op = some f.sz := by
  unfold decodeW at h
  split at h
  · cases h
  · rename_i hcl
    split at h
    · cases h
    · rename_i sz hsz
      split at h
      · cases h
      · rename_i hs
        exact ⟨by simpa using hcl, hsz.trans (congrArg some (by simpa using hs : f.sz = _).symm)⟩

/-- What the decoder accepts from the fields of an instruction is the encoding of what it answers. -/
theorem decodeW_encodes {f : W8} {x1 x2 x3 : Word} {i : Instr} (h : decodeW f x1 x2 x3 = .ok i) : Encodes i (words f x1 x2 x3) := by
  obtain ⟨hcl, hsz⟩ := decodeW_sized h
  obtain ⟨imm, rc, rb, ra, rd, m, tk, op, cl, sz⟩ := f
  simp only at hcl hsz
  simp only [decodeW, hsz, beq_iff_eq, hcl, bne_self_eq_false, if_false, Bool.false_eq_true] at h
  split at h
  case h_16 => cases h
  all_goals
    rename_i hc
    obtain rfl := eq_ofNat_of_toNat hc
  · exact decode0_encodes hsz h
  · exact decode1_encodes hsz h
  · exact decode2_encodes hsz h
  · exact decode3_encodes hsz h
  · exact decode4_encodes hsz h
  · exact decode5_encodes hsz h
  · exact decode6_encodes hsz h
  · exact decode7_encodes hsz h
  · exact decode8_encodes hsz h
  · exact decode9_encodes hsz h
  · exact decode10_encodes hsz h
  · exact decode11_encodes hsz h
  · exact decode12_encodes hsz h
  · exact decode13_encodes hsz h
  · exact decode14_encodes hsz h

theorem map_eq_ok {r : Except DecodeErr Instr} {i : Instr} {l rest : List Word} (h : r.map (·, l) = .ok (i, rest)) : r = .ok i ∧ l = rest := by
  cases r with
  | error e => cases h
  | ok j => cases h; exact ⟨rfl, rfl⟩

/-- The words that the decoder reads are those of the fields it decodes. -/
theorem decodeWords_reads {w : Word} {ws rest : List Word} {i : Instr} (h : decodeWords (w :: ws) = .ok (i, rest)) :
    ∃ x1 x2 x3, w :: ws = words (W8.unpack w) x1 x2 x3 ++ rest ∧ decodeW (W8.unpack w) x1 x2 x3 = .ok i := by
  simp only [decodeWords] at h
  split at h
  case h_4 | h_5 => cases h
  all_goals
    rename_i hsz
    obtain ⟨hd, rfl⟩ := map_eq_ok h
  · exact ⟨0, 0, 0, by simp [words, hsz, pack_unpack], hd⟩
  · exact ⟨_, 0, 0, by simp [words, hsz, pack_unpack], hd⟩
  · exact ⟨_, _, _, by simp [words, hsz, pack_unpack], hd⟩

/-- Settles O3: the class of an accepted word fixes the function that decoded it, and each check of that function is an equation on a field, which
together say that the fields are those the encoder writes. -/
theorem encodingIsUnique : Obligations.EncodingIsUnique := by
  intro ws i rest h
  cases ws with
  | nil => cases h
  | cons w ws =>
    obtain ⟨x1, x2, x3, hw, hd⟩ := decodeWords_reads h
    obtain ⟨hwf, hev, he⟩ := decodeW_encodes hd
    exact ⟨hwf, hev, by rw [hw, he]⟩

/-! ### Sizes (R30, R37) -/

/-- The opcode map's size of an opcode is its number of granules. -/
theorem sizeGran_of_opSize {cl : BitVec 4} {op : BitVec 8} {sz : BitVec 2} (h : opSize cl op = some sz) :
    sizeGran sz = mapGranules cl.toNat op.toNat := by
  simp only [opSize] at h
  split at h
  case h_16 => cases h
  all_goals
    rename_i hcl
    simp only [hcl, mapGranules]
    split_ifs at h ⊢ <;> simp_all [sizeGran, ← Option.some.inj h]
  all_goals omega

theorem granCount_eq (w : Word) : granCount w = sizeGran (W8.unpack w).sz := rfl

theorem words_length {f : W8} {x1 x2 x3 : Word} : (words f x1 x2 x3).length = sizeGran f.sz := by
  unfold words sizeGran
  split <;> rename_i hsz <;> simp [hsz]

/-- Settles O4: what is accepted has a class below 15 and the size that the opcode map gives its class and OP. -/
theorem reservedEncodingsRefused : Obligations.ReservedEncodingsRefused := by
  intro w ws
  refine ⟨fun h p hp => ?_, fun h p hp => ?_, fun i rest h => ?_, fun h p hp => ?_⟩
  · have hs : (W8.unpack w).sz.toNat = 3 := congrArg BitVec.toNat h
    simp [decodeWords, hs] at hp
  · obtain ⟨x1, x2, x3, -, hd⟩ := decodeWords_reads hp
    exact (decodeW_sized hd).1 h
  · obtain ⟨x1, x2, x3, hw, -⟩ := decodeWords_reads h
    rw [hw, List.length_append, words_length, granCount_eq, Nat.add_comm]
  · obtain ⟨x1, x2, x3, -, hd⟩ := decodeWords_reads hp
    exact h (sizeGran_of_opSize (decodeW_sized hd).2)

end Sys2Proof.Machine
end

section
/-! Decoding an encoded instruction answers it: each field of the encoder's words is where the decoder reads it (R35 to R38, O1, O2). -/

namespace Sys2Proof.Machine

open Laws

section
variable (cl : BitVec 4) (op : BitVec 8) (m : BitVec 2) (tk : BitVec 4) (rd ra rb rc : Reg) (imm : BitVec 20) (x1 x2 x3 : Word) (rest : List Word) (i : Instr)

@[simp] theorem map_pair_eq_ok (r : Except DecodeErr Instr) : r.map (·, rest) = .ok (i, rest) ↔ r = .ok i := by
  cases r <;> simp [Except.map]

@[simp] theorem decodeWords_one : decodeWords (g8 cl op 0#2 m tk rd ra rb rc imm :: rest) = .ok (i, rest) ↔
    decodeW ⟨imm, rc, rb, ra, rd, m, tk, op, cl, 0#2⟩ 0 0 0 = .ok i := by
  simp [decodeWords, g8, w8_unpack_pack]

@[simp] theorem decodeWords_two : decodeWords (g8 cl op 1#2 m tk rd ra rb rc imm :: x1 :: rest) = .ok (i, rest) ↔
    decodeW ⟨imm, rc, rb, ra, rd, m, tk, op, cl, 1#2⟩ x1 0 0 = .ok i := by
  simp [decodeWords, g8, w8_unpack_pack]

@[simp] theorem decodeWords_four : decodeWords (g8 cl op 2#2 m tk rd ra rb rc imm :: x1 :: x2 :: x3 :: rest) = .ok (i, rest) ↔
    decodeW ⟨imm, rc, rb, ra, rd, m, tk, op, cl, 2#2⟩ x1 x2 x3 = .ok i := by
  simp [decodeWords, g8, w8_unpack_pack]

end

/-- A channel's number is below 8 (R346). -/
theorem channel_lt (n : BitVec 3) : n.toNat < 8 := n.isLt

/-- The class of an instruction of the control stream, by the opcode map (R45 to R50); 15, the reserved one, for an event of the device. -/
def opClass : Instr → Nat
  | .add .. | .sub .. | .addi .. | .mul .. | .mulh .. | .div .. | .rem .. | .and .. | .or .. | .xor .. | .andn .. | .shl .. | .shr .. | .sar ..
  | .rot .. | .clz .. | .popc .. | .min .. | .max .. | .sel .. | .ceq .. | .clt .. | .cltu .. | .lea .. | .bfx .. | .bfi .. | .movi .. => 0
  | .brEq .. | .brNe .. | .brLt .. | .brGe .. | .brLtu .. | .brGeu .. | .jmp .. | .jmpr .. | .call .. | .ret .. | .loop .. | .nop .. | .hint .. => 1
  | .ld .. | .st .. | .ldDsc .. | .stDsc .. | .spl .. | .sps .. | .pref .. | .cln .. | .inv .. | .invI .. | .commit .. | .acq .. | .phase ..
  | .fence .. | .twait .. | .tread .. => 2
  | .mfsr .. | .mtsr .. | .tlbiVa .. | .tlbiCtx .. | .tlbiCid .. | .tlbiAll .. | .tlbfence .. | .probe .. | .rfhint .. | .rdcyc .. | .keysel ..
  | .keyselClr .. | .mode .. => 3
  | .cvt .. | .cvts .. | .qntw .. | .dqw .. | .retag .. | .retagDsc .. | .tagget .. | .tagchk .. | .scalex .. => 4
  | .trvlIn .. | .trvlOut .. | .trvsIn .. | .trvsOut .. | .copyIn .. | .copyOut .. | .fillIn .. | .fillOut .. | .gthr .. | .sctr .. | .fard ..
  | .cmpx .. | .tierq .. => 5
  | .awr .. | .awrT .. | .axch .. | .acas .. | .aflg .. => 6
  | .vrun .. | .vruna .. => 7
  | .lnx .. | .lnr .. => 8
  | .mma .. | .mzero .. | .mzeroCb .. | .mswap .. | .mst .. | .mcks .. | .mckv .. | .mfix .. | .mtm .. | .mte .. | .wgrp .. => 9
  | .sxf .. | .sxi .. | .scmac .. | .scmul .. | .sconj .. | .sdom .. | .sexp .. => 10
  | .blkb .. | .blke .. | .revb .. | .rpush .. | .rpushSpl .. | .rstkSet .. | .rstkGet .. | .gzero .. => 11
  | .launch .. | .launchRec .. | .join .. | .tend .. | .yield .. | .stepb .. | .bari .. | .bariLv .. | .bara .. | .barw .. | .baraw .. | .barx ..
  | .prio .. => 12
  | .chcfgUp .. | .chcfgDn .. | .chsendFw .. | .chsendRv .. | .coll .. | .cdig .. | .cdigClr .. | .cstat .. | .cstatTl .. => 13
  | .trap .. | .eret .. | .eretKill .. | .ctxsv .. | .ctxrs .. | .fltrec .. | .brk .. | .halt .. | .crst .. | .mchkq .. => 14
  | _ => 15

/-- The fields of an instruction of classes 0 to 3 are read back. -/
theorem decodeWords_encode_class_0_to_3 (i : Instr) (rest : List Word) (hwf : i.wf = true) (hcl : 0 ≤ opClass i ∧ opClass i ≤ 3) :
    decodeWords (encode i ++ rest) = .ok (i, rest) := by
  cases i with
  | mulh md =>
    cases md <;>
      simp (disch := omega) [encode, decodeW, opSize, decode0,
        i8, MulMode.code, -Nat.reduceAdd,
        -BitVec.extractLsb'_toNat, -Bool.exists_bool, -BitVec.getLsbD_eq_getElem]
  | shl _ _ k | shr _ _ k | sar _ _ k | rot _ _ k =>
    cases k <;>
      simp (disch := omega) [encode, decodeW, opSize, decode0,
        BitVec.extractLsb'_setWidth_of_le, extract_beyond, i8, encShift, -Nat.reduceAdd,
        -BitVec.extractLsb'_toNat, -Bool.exists_bool, -BitVec.getLsbD_eq_getElem]
  | add | sub | addi | mul | div | rem | and | or | xor | andn | clz | popc | min | max | sel | ceq | clt | cltu | lea | bfx | bfi | movi =>
    simp [Instr.wf] at hwf
    simp (disch := omega) [encode, decodeW, opSize, decode0, BitVec.extractLsb'_append_eq_of_add_le, BitVec.extractLsb'_append_eq_of_le,
      i8, hwf, -Nat.reduceAdd, -BitVec.extractLsb'_toNat,
      -Bool.exists_bool, -BitVec.getLsbD_eq_getElem]
  | brEq | brNe | brLt | brGe | brLtu | brGeu | jmp | jmpr | call | ret | loop | nop | hint =>
    simp [Instr.wf] at hwf
    simp (disch := omega) [encode, decodeW, opSize, decode1,
      BitVec.extractLsb'_setWidth_of_le, i8, i8j, W8.imm38, imm38_parts, Nat.mod_eq_of_lt,
      hwf, -Nat.reduceAdd, -BitVec.extractLsb'_toNat, -Bool.exists_bool, -BitVec.getLsbD_eq_getElem]
  | ld | st | ldDsc | stDsc | spl | sps | pref | cln | inv | invI | commit | acq | phase | fence | twait | tread =>
    simp [Instr.wf] at hwf
    simp (disch := omega) [encode, decodeW, opSize, decode2,
      BitVec.extractLsb'_setWidth_of_le, extract_beyond, i8, scopeOp_eq_ok, hwf, -Nat.reduceAdd,
      -BitVec.extractLsb'_toNat, -Bool.exists_bool, -BitVec.getLsbD_eq_getElem]
  | probe md =>
    cases md <;>
      simp (disch := omega) [encode, decodeW, opSize, decode3,
        i8, Acc.code, -Nat.reduceAdd,
        -BitVec.extractLsb'_toNat, -Bool.exists_bool, -BitVec.getLsbD_eq_getElem]
  | mfsr | mtsr | tlbiVa | tlbiCtx | tlbiCid | tlbiAll | tlbfence | rfhint | rdcyc | keysel | keyselClr | mode =>
    simp [Instr.wf] at hwf
    simp (disch := omega) [encode, decodeW, opSize, decode3,
      BitVec.extractLsb'_setWidth_of_le, extract_beyond, i8, scopeOp_eq_ok, hwf, -Nat.reduceAdd,
      -BitVec.extractLsb'_toNat, -Bool.exists_bool, -BitVec.getLsbD_eq_getElem]
  | _ => exact absurd hcl (of_decide_eq_false rfl)

/-- The fields of an instruction of classes 4 to 8 are read back. -/
theorem decodeWords_encode_class_4_to_8 (i : Instr) (rest : List Word) (hwf : i.wf = true) (hcl : 4 ≤ opClass i ∧ opClass i ≤ 8) :
    decodeWords (encode i ++ rest) = .ok (i, rest) := by
  cases i with
  | tagchk t n x =>
    simp [Instr.wf] at hwf
    cases x <;> cases n <;>
      simp (disch := omega) [encode, decodeW, opSize, decode4,
        BitVec.extractLsb'_setWidth_of_le, extract_beyond,

        hwf, -Nat.reduceAdd, -BitVec.extractLsb'_toNat, -Bool.exists_bool, -BitVec.getLsbD_eq_getElem]
  | cvt | cvts | qntw | dqw | retag | retagDsc | tagget | scalex =>
    simp [Instr.wf] at hwf
    simp (disch := omega) [encode, decodeW, opSize, decode4, BitVec.extractLsb'_append_eq_of_add_le, BitVec.extractLsb'_append_eq_of_le,
      BitVec.extractLsb'_setWidth_of_le, extract_beyond, x4, descDA_eq_ok, extract_three_lt_four_iff,
      extract_eq_zero_split _ 8 1 2, BitVec.setWidth_extractLsb'_of_le, extract_signExtend_low, append_bit_low, append_bit_high,
      Nat.mod_eq_of_lt, hwf, -Nat.reduceAdd, -BitVec.extractLsb'_toNat, -Bool.exists_bool, -BitVec.getLsbD_eq_getElem]
  | fillIn _ sp =>
    simp [Instr.wf] at hwf
    cases sp
    case cb => simp at hwf
    all_goals
      simp (disch := omega) [encode, decodeW, opSize, decode5, BitVec.extractLsb'_append_eq_of_add_le, BitVec.extractLsb'_append_eq_of_le,
        tokLoad_eq_ok,
        BSpace.code, hwf, -Nat.reduceAdd, -BitVec.extractLsb'_toNat, -Bool.exists_bool, -BitVec.getLsbD_eq_getElem]
  | tierq _ st =>
    cases st <;>
      simp (disch := omega) [encode, decodeW, opSize, decode5,
        i8,
        -Nat.reduceAdd, -BitVec.extractLsb'_toNat, -Bool.exists_bool, -BitVec.getLsbD_eq_getElem]
  | trvlIn | trvlOut | trvsIn | trvsOut | copyIn | copyOut | fillOut | gthr | sctr | fard | cmpx =>
    simp [Instr.wf] at hwf
    simp (disch := omega) [encode, decodeW, opSize, decode5, BitVec.extractLsb'_append_eq_of_add_le, BitVec.extractLsb'_append_eq_of_le,
      BitVec.extractLsb'_setWidth_of_le, extract_beyond, tokLoad_eq_ok, tokStore_eq_ok, x5c, append_bit_low,
      append_bit_high, Nat.mod_eq_of_lt, hwf, -Nat.reduceAdd, -BitVec.extractLsb'_toNat, -Bool.exists_bool, -BitVec.getLsbD_eq_getElem]
  | awrT _ _ sp =>
    simp [Instr.wf] at hwf
    cases sp
    case wb => simp [atomOk_tensor_wb] at hwf
    all_goals
      simp (disch := omega) [encode, decodeW, opSize, decode6, BitVec.extractLsb'_append_eq_of_add_le, BitVec.extractLsb'_append_eq_of_le,
        x6, tokStore_eq_ok, append_bit_low,
        append_bit_high, BSpace.code, hwf, -Nat.reduceAdd, -BitVec.extractLsb'_toNat, -Bool.exists_bool, -BitVec.getLsbD_eq_getElem]
  | awr | axch | acas | aflg =>
    simp [Instr.wf] at hwf
    simp (disch := omega) [encode, decodeW, opSize, decode6, BitVec.extractLsb'_append_eq_of_add_le, BitVec.extractLsb'_append_eq_of_le,
      i8, x6, tokStore_eq_ok, append_bit_low,
      append_bit_high, hwf, -Nat.reduceAdd, -BitVec.extractLsb'_toNat, -Bool.exists_bool, -BitVec.getLsbD_eq_getElem]
  | vrun | vruna =>
    simp [Instr.wf] at hwf
    simp (disch := omega) [encode, decodeW, opSize, decode7, BitVec.extractLsb'_append_eq_of_add_le, BitVec.extractLsb'_append_eq_of_le,
      BitVec.extractLsb'_setWidth_of_le, extract_beyond, hwf, -Nat.reduceAdd, -BitVec.extractLsb'_toNat, -Bool.exists_bool,
      -BitVec.getLsbD_eq_getElem]
  | lnx | lnr =>
    simp [Instr.wf] at hwf
    simp (disch := omega) [encode, decodeW, opSize, decode8, BitVec.extractLsb'_append_eq_of_add_le, BitVec.extractLsb'_append_eq_of_le,
      encLn, lnFields, Lv5.bits, Lv5.ofBits, append_bit_low,
      append_bit_high, hwf, -Nat.reduceAdd, -BitVec.extractLsb'_toNat, -Bool.exists_bool, -BitVec.getLsbD_eq_getElem]
  | _ => exact absurd hcl (of_decide_eq_false rfl)

/-- The fields of an instruction of classes 9 to 14 are read back. -/
theorem decodeWords_encode_class_9_to_14 (i : Instr) (rest : List Word) (hwf : i.wf = true) (hcl : 9 ≤ opClass i ∧ opClass i ≤ 14) :
    decodeWords (encode i ++ rest) = .ok (i, rest) := by
  cases i with
  | mma | mzero | mzeroCb | mswap | mst | mcks | mckv | mfix | mtm | mte | wgrp =>
    simp [Instr.wf] at hwf
    simp (disch := omega) [encode, decodeW, opSize, decode9, BitVec.extractLsb'_append_eq_of_add_le, BitVec.extractLsb'_append_eq_of_le,
      accField_eq_ok, ↓xrc_setWidth, xrc, extract_three_lt_four_iff,
      extract_signExtend_low, append_bit_low, append_bit_high, hwf, -Nat.reduceAdd, -BitVec.extractLsb'_toNat, -Bool.exists_bool,
      -BitVec.getLsbD_eq_getElem]
  | sxf | sxi | scmac | scmul | sconj | sdom | sexp =>
    simp [Instr.wf] at hwf
    simp (disch := omega) [encode, decodeW, opSize, decode10, BitVec.extractLsb'_append_eq_of_add_le, BitVec.extractLsb'_append_eq_of_le,
      BitVec.extractLsb'_setWidth_of_le, extract_beyond, accField_eq_ok, descDA_eq_ok, xrc, append_bit_low,
      append_bit_high, hwf, -Nat.reduceAdd, -BitVec.extractLsb'_toNat, -Bool.exists_bool, -BitVec.getLsbD_eq_getElem]
  | blkb | blke | revb | rpush | rpushSpl | rstkSet | rstkGet | gzero =>
    simp [Instr.wf] at hwf
    simp (disch := omega) [encode, decodeW, opSize, decode11, BitVec.extractLsb'_append_eq_of_add_le, BitVec.extractLsb'_append_eq_of_le,
      BitVec.extractLsb'_setWidth_of_le, extract_beyond, i8, append_bit_low, append_bit_high, hwf,
      -Nat.reduceAdd, -BitVec.extractLsb'_toNat, -Bool.exists_bool, -BitVec.getLsbD_eq_getElem]
  | launch | launchRec | join | tend | yield | stepb | bari | bariLv | bara | barw | baraw | barx | prio =>
    simp [Instr.wf] at hwf
    simp (disch := omega) [encode, decodeW, opSize, decode12,
      i8, barOp_eq_ok, hwf, -Nat.reduceAdd, -BitVec.extractLsb'_toNat,
      -Bool.exists_bool, -BitVec.getLsbD_eq_getElem]
  | chcfgUp | chcfgDn | chsendFw | chsendRv | coll | cdig | cdigClr | cstat | cstatTl =>
    simp [Instr.wf] at hwf
    simp (disch := omega) [encode, decodeW, opSize, decode13, BitVec.extractLsb'_append_eq_of_add_le, BitVec.extractLsb'_append_eq_of_le,
      BitVec.extractLsb'_setWidth_of_le, extract_beyond, i8, x13, tokStore_eq_ok, channel_lt, append_bit_low, append_bit_high,
      Nat.mod_eq_of_lt, hwf, -Nat.reduceAdd, -BitVec.extractLsb'_toNat, -Bool.exists_bool, -BitVec.getLsbD_eq_getElem]
  | trap | eret | eretKill | ctxsv | ctxrs | fltrec | brk | halt | crst | mchkq =>
    simp [Instr.wf] at hwf
    simp (disch := omega) [encode, decodeW, opSize, decode14,
      BitVec.extractLsb'_setWidth_of_le, extract_beyond, i8, Nat.mod_eq_of_lt, hwf, -Nat.reduceAdd,
      -BitVec.extractLsb'_toNat, -Bool.exists_bool, -BitVec.getLsbD_eq_getElem]
  | _ => exact absurd hcl (of_decide_eq_false rfl)

/-- An instruction of the control stream has one of the 15 classes. -/
theorem opClass_le_of_stream {i : Instr} (h : i.isEvent = false) : opClass i ≤ 14 := by
  cases i with
  | bundleIssue | resultLanding | fetchLine | lineRefetch | checkerCompare | queueHeadIssue | commandComplete | heldPushRelease | mteRetire
  | tileReplay | pageWalk | trapEntry | taskDispatch | nestLaunchDispatch | recordAging | forcedPreemption | quadClockSwitch | barrierRelease
  | phaseMerge | stepBarrierComplete | rstkRefill | tileLanding | creditReturn | chsendPairTimeout | partnerLoss | collMatch | collComplete | portRd
  | portWr | portAop | portAxc | portAcs | portReply | atomicHomeEvent | quantumFlush | speculativeConfirm | l2WriteBack | tierTimeout
  | tierPortFailure | flashSectorArrival | uncorrectableError | correctableError | coreHalted | dbgctlRun | dbgctlStep | dwhlt | debugApertureRead
  | debugApertureWrite | doorbell | hostRingRecordRead | ringReadFailure | windowAccess | attcmd | attestationReportWritten | hostRegisterWrite
  | hbmcapWrite | tlnbaseWrite | powerOnBoot | thermalLimitReached | thermalLimitCleared | droopStretch | refreshDue | rfhintIntervalEnd
  | flitReceive | linkPortDown | keyRevocation | powerOff | loggedHostWrite | loggedLaunchRecord =>
    cases h
  | _ => exact of_decide_eq_true rfl

/-- Settles O2: the encoder puts each operand into a field of its own, and the decoder, class by class, reads that field and finds its checks met. -/
theorem decodeInvertsEncode : Obligations.DecodeInvertsEncode := by
  intro i rest hwf he
  have hle := opClass_le_of_stream he
  by_cases h3 : opClass i ≤ 3
  · exact decodeWords_encode_class_0_to_3 i rest hwf ⟨Nat.zero_le _, h3⟩
  · by_cases h8 : opClass i ≤ 8
    · exact decodeWords_encode_class_4_to_8 i rest hwf ⟨by omega, h8⟩
    · exact decodeWords_encode_class_9_to_14 i rest hwf ⟨by omega, hle⟩

/-- Settles O1: the decoder run on each of the words. -/
theorem decodeSpecWords : Obligations.DecodeSpecWords :=
  ⟨rfl, rfl, rfl, rfl, rfl, rfl, rfl, rfl, rfl, rfl, rfl, rfl, rfl, rfl, rfl, rfl, rfl, rfl, rfl, rfl, rfl, rfl, rfl, rfl, rfl, rfl⟩

end Sys2Proof.Machine
end

section
/-! The registers at reset and under a write, and the sequential advance (R32, R39, R94, R148, O7, O8). -/

namespace Sys2Proof.Machine

/-- The line of a PC starts at the multiple of 128 below it. -/
theorem lineOf_toNat (pc : Word) : (lineOf pc).toNat = pc.toNat / 128 * 128 := by
  have hsh : lineOf pc = (pc >>> 7) <<< 7 := by
    have hm : ∀ i < 64, (~~~127#64).getLsbD i = decide (7 ≤ i) := by decide
    apply BitVec.eq_of_getLsbD_eq
    intro i hi
    rw [lineOf, BitVec.getLsbD_and, hm i hi]
    by_cases h7 : i < 7
    · simp [h7]
    · simp [h7, hi, show 7 ≤ i by omega, show 7 + (i - 7) = i by omega]
  have hlt := pc.isLt
  rw [hsh, BitVec.toNat_shiftLeft, BitVec.toNat_ushiftRight, Nat.shiftRight_eq_div_pow, Nat.shiftLeft_eq]
  omega

theorem granuleOf_eq (pc : Word) : granuleOf pc = pc.toNat / 8 % 16 := by
  simp [granuleOf, Nat.shiftRight_eq_div_pow]

/-- The sequential advance from a granule's start, away from the top of the address space: within the line, or to granule 1 of the next one. -/
theorem nextPc_toNat {pc : Word} {n : Nat} (hn : n ≤ 16) (hpc : pc.toNat + 272 < 2 ^ 64) :
    (nextPc pc n).toNat = if pc.toNat / 8 % 16 + n < 16 then pc.toNat + 8 * n else pc.toNat / 128 * 128 + 136 := by
  unfold nextPc
  rw [granuleOf_eq]
  split
  · rw [BitVec.toNat_add, BitVec.toNat_ofNat]
    omega
  · rw [BitVec.toNat_add, lineOf_toNat, BitVec.toNat_ofNat]
    omega

/-- Settles O8, from the laws of a register's write and of the sequential advance. -/
theorem hardwiredRegisters : Obligations.HardwiredRegisters := by
  intro s r m x n
  refine ⟨rfl, rfl, rfl, rfl, fun _ => rfl, fun hr => ?_, poisS_wrS_same _ r x,
    fun hm => ⟨S_setS_other s x hm, poisS_wrS_other _ x hm⟩, fun hn _ hpc => nextPc_toNat hn hpc⟩
  rw [S_setS_same, if_neg hr]

/-- Settles O7: each register file of the reset state is one value replicated. -/
theorem resetValues : Obligations.ResetValues := by
  refine ⟨fun r => ?_, fun n => ?_, fun n => ?_, fun n => ?_, rfl, fun q => ?_, ?_, ?_, rfl⟩
  · simp [State.S, Regs.rdS, State.reset, Core.fresh, Task.zero, Regs.zero]
  · simp [State.V, State.reset, Core.fresh, Task.zero, Regs.zero, VReg.zero]
  · simp [Regs.rdK, State.reset, Core.fresh, Task.zero, Regs.zero]
  · simp [State.D, State.reset, Core.fresh, Task.zero, Regs.zero]
  · rfl
  · decide
  · decide

end Sys2Proof.Machine
end

section
/-! The control core's turn: what each outcome of the fetch makes of it (R28 to R37, R108, O5, O6). -/

namespace Sys2Proof.Machine

section
variable {s s1 : State} {b : BitVec 1024} {f : FaultInfo}

/-- The state of a core that has fetched a line: what the fetch keeps, with the line's kind. -/
def keepLine (u s1 : State) (b : BitVec 1024) : State := (keepFills u s1).modC fun c => { c with lineKind := hdrKind (lineGran b 0) }

theorem pcAligned_iff (p : Word) : p.extractLsb' 0 3 = 0#3 ↔ p.toNat % 8 = 0 := by
  rw [← BitVec.toNat_inj]
  simp

theorem fetchInstr_misaligned (h : s.core.t.pc.toNat % 8 ≠ 0) : fetchInstr s = (s, .error (.fault (.at cALIGN s.core.t.pc))) := by
  simp [fetchInstr, mt (pcAligned_iff _).1 h, -BitVec.extractLsb'_toNat]

theorem fetchInstr_header (h : s.core.t.pc.toNat % 8 = 0) (hg : granuleOf s.core.t.pc = 0) (he : s.core.entry = false) :
    fetchInstr s = (s, .error (.fault (.cc cBRTGT))) := by
  simp [fetchInstr, (pcAligned_iff _).2 h, hg, he]

theorem notAtHeader {g : Nat} {e : Bool} (h : g ≠ 0 ∨ e = true) : ¬ (g = 0 ∧ e = false) := by
  rcases h with h | h <;> simp [h]

section
variable (h : s.core.t.pc.toNat % 8 = 0) (hg : granuleOf s.core.t.pc ≠ 0 ∨ s.core.entry = true)
include h hg

theorem fetchInstr_unfetched {e : Stop} (hf : fetchLine s.core.t.pc s = .error (e, s1)) : fetchInstr s = (keepFills s s1, .error e) := by
  simp [fetchInstr, (pcAligned_iff _).2 h, hf, notAtHeader hg]

variable (hf : fetchLine s.core.t.pc s = .ok (b, s1))
include hf

theorem fetchInstr_badLine (hb : lineBad b = true ∨ hdrKind (lineGran b 0) = 2#2) :
    fetchInstr s = (keepLine s s1 b, .error (.fault { FaultInfo.cc cILLOP with unit := 8 })) := by
  simp [fetchInstr, (pcAligned_iff _).2 h, hf, notAtHeader hg, hb, keepLine]

variable (hb : lineBad b = false) (hk : hdrKind (lineGran b 0) ≠ 2#2)
include hb hk

theorem fetchInstr_header_line (hz : granuleOf s.core.t.pc = 0) :
    fetchInstr s = (keepLine s s1 b, .error (.fault (.cc (if hdrKind (lineGran b 0) = 1 ∧ s.core.t.blk = none then cBLKOP else cBRTGT)))) := by
  have he : s.core.entry = true := hg.resolve_left (absurd hz ·)
  simp [fetchInstr, (pcAligned_iff _).2 h, he, hf, hb, hk, hz, keepLine]

omit hg in
theorem fetchInstr_undecoded (hz : granuleOf s.core.t.pc ≠ 0) (hd : ∀ q, decodeWords (lineFrom b (granuleOf s.core.t.pc)) ≠ .ok q) :
    fetchInstr s = (keepLine s s1 b, .error (.fault (.cc cILLOP))) := by
  cases hw : decodeWords (lineFrom b (granuleOf s.core.t.pc)) with
  | ok q => exact absurd hw (hd q)
  | error e => simp [fetchInstr, (pcAligned_iff _).2 h, hf, hb, hk, hz, hw, keepLine]

omit hg in
theorem fetchInstr_decoded (hz : granuleOf s.core.t.pc ≠ 0) {i : Instr} {rest : List Word}
    (hd : decodeWords (lineFrom b (granuleOf s.core.t.pc)) = .ok (i, rest)) :
    fetchInstr s = (keepLine s s1 b, .ok (i, placeOk (keepLine s s1 b) (hdrKind (lineGran b 0)) (lineGran b (granuleOf s.core.t.pc)))) := by
  simp [fetchInstr, (pcAligned_iff _).2 h, hf, hb, hk, hz, hd, keepLine]
  rfl

end
end

section
variable {s : State}

theorem step_control (ha : s.agenda = []) (hp : s.powered = true) (ht : s.turn % 2 = 0) : step s = controlStep s.tick := by
  simp [step, ha, hp, ht]

theorem step_background (ha : s.agenda = []) (hp : s.powered = true) (ht : s.turn % 2 = 1) : step s = backgroundStep s.tick := by
  simp [step, ha, hp, ht]

/-- An event at the head of the agenda happens. -/
theorem step_agenda_event {i : Instr} {l : List Move} (hp : s.powered = true) (hi : i.isEvent = true) (ha : s.agenda = .event i :: l) :
    step s = exec i { s with agenda := l } := by
  unfold step
  split
  case h_1 hl => cases ha.symm.trans hl; rfl
  case h_2 hl => cases ha.symm.trans hl; simp [hp, agendaStep, hi]
  case h_3 hl => cases ha.symm.trans hl

variable (hr : s.core.running = true) (hh : s.core.health.halted = false) (hq : s.core.health.haltReq = false)
include hr hh hq

/-- A running core that faults in fetching takes the fault as its turn. -/
theorem controlStep_fault {v : State} {f : FaultInfo} (h : fetchInstr s = (v, .error (.fault f))) : controlStep s = .next (faultTurn s v f) := by
  simp only [controlStep, hr, hh, hq, h, withhold, faultTurn]
  by_cases hv : v.core.hold = some true <;> simp [hv]

theorem controlStep_wait {v : State} (h : fetchInstr s = (v, .error .wait)) : controlStep s = .next (v.modC fun c => { c with waiting := true }) := by
  simp [controlStep, hr, hh, hq, h]

/-- A running core issues what it has fetched, once the checker has compared equal what acts outside it. -/
theorem controlStep_decoded {v : State} {i : Instr} (h : fetchInstr s = (v, .ok (i, true))) (hd : v.dueFault = none) :
    controlStep s = withhold (!runsAhead i v || (trial i v).isSome) v fun v => (issueInstr i true (v.checkpoint i)).map v.issued := by
  simp [controlStep, hr, hh, hq, h, hd]

end

/-- Noting the committed state leaves the faults that are due. -/
@[simp] theorem checkpoint_dueFault (s : State) (i : Instr) : (s.checkpoint i).dueFault = s.dueFault := by
  unfold State.checkpoint
  dsimp only
  split <;> rfl

/-- With no engine fault due, an instruction in its place executes. -/
theorem issueInstr_placed {s : State} (i : Instr) (h : s.dueFault = none) : issueInstr i true s = exec i s := by
  simp [issueInstr, h]

theorem backgroundStep_event {s : State} {i : Instr} (h : s.turnEvent = some i) : backgroundStep s = exec i s := by
  simp [backgroundStep, h]

section
variable (act : Bool) {s : State} (k : State → Out)

theorem withhold_compared (h : s.core.hold = some true) :
    withhold act s k = Out.map (fun t => t.modC fun c => { c with hold := if c.waiting then some true else none }) (k s) := by
  simp only [withhold, h, if_true]
  cases k s <;> rfl

theorem withhold_free (h : s.core.hold ≠ some true) : withhold false s k = k s := by simp [withhold, h]

theorem withhold_action (h : s.core.hold ≠ some true) : withhold true s k = .next (s.modC fun c => { c with hold := some false }) := by
  simp [withhold, h]

end

/-- Settles O5: the turn of the control core is the fetch, the check of the place and then exec, behind the wait for the checker. -/
theorem stepRunsDecoded : Obligations.StepRunsDecoded := by
  refine ⟨?_, fun s i l hp hi ha => step_agenda_event hp hi ha, fun s i ha hp ht he => (step_background ha hp ht).trans (backgroundStep_event he)⟩
  intro s s1 b i rest u g v ha hp ht hr hh hq hal hg hf hb hk hd hpl hdue act run
  have hfetch : fetchInstr u = (v, .ok (i, true)) := by
    rw [fetchInstr_decoded ((pcAligned_iff _).1 hal) hf hb hk hg hd]
    exact congrArg (fun x => (v, Except.ok (i, x))) hpl
  have hstep : step s = withhold act v fun v => (issueInstr i true (v.checkpoint i)).map v.issued :=
    (step_control ha hp ht).trans (controlStep_decoded hr hh hq hfetch hdue)
  have hrun : (issueInstr i true (v.checkpoint i)).map v.issued = run :=
    congrArg (Out.map v.issued) (issueInstr_placed i ((checkpoint_dueFault v i).trans hdue))
  refine ⟨fun h => ?_, fun h hact => ?_, fun h hact => ?_⟩
  · rw [hstep, withhold_compared _ _ h, hrun]
  · rw [hstep, hact, withhold_free _ h, hrun]
  · rw [hstep, hact, withhold_action _ h]

/-- Settles O6: the fetch's faults, in their order, each taken as the turn. -/
theorem stepTakesFetchFaults : Obligations.StepTakesFetchFaults := by
  intro s ha hp ht hr hh hq u p
  have hfault {v f} (h : fetchInstr u = (v, .error (.fault f))) : step s = .next (faultTurn u v f) :=
    (step_control ha hp ht).trans (controlStep_fault (s := u) hr hh hq h)
  refine ⟨fun hal => hfault (fetchInstr_misaligned hal), fun hal hg he => hfault (fetchInstr_header hal hg he), fun hal hg => ⟨?_, ?_, ?_⟩⟩
  · exact fun f s1 hf => hfault (fetchInstr_unfetched (s := u) hal hg hf)
  · exact fun s1 hf => (step_control ha hp ht).trans (controlStep_wait (s := u) hr hh hq (fetchInstr_unfetched (s := u) hal hg hf))
  · intro b s1 hf v
    exact ⟨fun hb => hfault (fetchInstr_badLine hal hg hf hb), fun hb hk hz => hfault (fetchInstr_header_line hal hg hf hb hk hz),
      fun hb hk hz hd => hfault (fetchInstr_undecoded hal hf hb hk hz hd)⟩

end Sys2Proof.Machine
end

section
/-! Transfers to a place that is no target (R33, R103, O23). -/

namespace Sys2Proof.Machine

/-- A control-core instruction outside a block whose body stops at a fault, having fetched nothing, traps with it. -/
theorem trapsAt_of_fault {s : State} {i : Instr} {m : M Unit} {f : FaultInfo} (hb : s.noBlock) (he : exec i s = cc s false m) (hu : f.unit = 0)
    (hm : m s = .error (.fault f, s)) : trapsAt i s f.code := by
  refine ⟨f, s, rfl, hu, rfl, ?_⟩
  rw [he, cc_body m hb (by simp), runM_fault hm, keepFills_self]

section
variable {s : State} {t : Word}

/-- R103, step 4: what refuses a target raises BRTGT. -/
theorem targetCheck_refused (hb : s.noBlock) (h : targetRefused t s) : (targetCheck t s).2 = some cBRTGT := by
  obtain ⟨b, s1, hf, hl, h⟩ := h
  simp only [State.noBlock] at hb
  rcases h with hk | ⟨hk, hg⟩ | ⟨hk, hg, hi, ht⟩
  · simp [targetCheck, hf, hl, hk]
  · simp [targetCheck, hf, hl, hk, hg]
  · simp [targetCheck, hf, hl, hk, hg, hi, ht, hb]

/-- A transfer to a refused target, given aligned, changes nothing (R33). -/
theorem transfer_refused {reg : Bool} (hb : s.noBlock) (hal : reg = true → t.extractLsb' 0 3 = 0#3) (h : targetRefused t s) :
    transfer t reg s = .error (.fault (.cc cBRTGT), s) := by
  have hm : (reg && t.extractLsb' 0 3 != 0) = false := by
    cases reg
    · rfl
    · simp [hal rfl, -BitVec.extractLsb'_toNat]
  have hheld : lineHeld t s = false := by
    obtain ⟨b, s1, hf, -⟩ := h
    simp [lineHeld, hf]
  have hc := targetCheck_refused hb h
  rw [transfer, hm, bind_ok (failIf_false _ s), bind_ok (now_run s)]
  simp [hheld, hc]

theorem transfer_misaligned (h : t.toNat % 8 ≠ 0) : transfer t true s = .error (.fault (.at cALIGN t), s) := by
  have hm : (true && t.extractLsb' 0 3 != 0) = true := by simpa using fun e => h (by simpa using congrArg BitVec.toNat e)
  rw [transfer, hm, bind_error (failIf_true _ s)]

/-- What follows a transfer that faults does not happen: no link is written, no counter moves. -/
theorem transfer_stops {α : Type} {reg : Bool} {f : FaultInfo} {k : Unit → M α} (h : transfer t reg s = .error (.fault f, s)) :
    (transfer t reg >>= k) s = .error (.fault f, s) := bind_error h

theorem pcNow_run (s : State) : pcNow s = .ok (s.core.t.pc, s) := rfl

variable (hb : s.noBlock)
include hb

theorem branch_trapsAt {i : Instr} {c : Word → Word → Bool} {ra rb : Reg} {off : BitVec 20} (he : exec i s = branch c ra rb off s)
    (hc : s.cleanS [ra, rb]) (h : targetRefused (s.core.t.pc + 8 * off.signExtend 64) s) (ht : c (s.S ra) (s.S rb) = true) :
    trapsAt i s cBRTGT := by
  refine trapsAt_of_fault (f := .cc cBRTGT) hb he rfl ?_
  rw [bind_ok (rdS_ok (hc ra (by simp))), bind_ok (rdS_ok (hc rb (by simp))), bind_ok (pcNow_run s), if_pos ht]
  exact transfer_refused hb (by simp) h

theorem loop_trapsAt {ra : Reg} {off : BitVec 20} (hc : s.core.t.regs.poisS ra = false)
    (h : targetRefused (s.core.t.pc + 8 * off.signExtend 64) s) (h2 : 2 ≤ (s.S ra).toNat) : trapsAt (.loop ra off) s cBRTGT := by
  refine trapsAt_of_fault (f := .cc cBRTGT) (i := .loop ra off) hb rfl rfl ?_
  have h0 : s.S ra ≠ 0 := fun e => by simp [e] at h2
  have h1 : s.S ra ≠ 1 := fun e => by simp [e] at h2
  rw [bind_ok (rdS_ok hc), bind_ok (pcNow_run s), if_neg h0, if_neg h1]
  exact transfer_stops (transfer_refused hb (by simp) h)

section
variable {off : BitVec 38} (h : targetRefused (s.core.t.pc + 8 * off.signExtend 64) s)
include h

theorem jmp_trapsAt : trapsAt (.jmp off) s cBRTGT := by
  refine trapsAt_of_fault (f := .cc cBRTGT) (i := .jmp off) hb rfl rfl ?_
  rw [bind_ok (pcNow_run s)]
  exact transfer_refused hb (by simp) h

theorem call_trapsAt (rd : Reg) : trapsAt (.call rd off) s cBRTGT := by
  refine trapsAt_of_fault (f := .cc cBRTGT) (i := .call rd off) hb rfl rfl ?_
  rw [bind_ok (pcNow_run s)]
  exact transfer_stops (transfer_refused hb (by simp) h)

end

section
variable {ra : Reg} (hc : s.core.t.regs.poisS ra = false) {f : FaultInfo} (hu : f.unit = 0)
  (h : transfer (s.S ra) true s = .error (.fault f, s))
include hc hu h

theorem jmpr_trapsAt (rd : Reg) : trapsAt (.jmpr rd ra) s f.code := by
  refine trapsAt_of_fault (f := f) (i := .jmpr rd ra) hb rfl hu ?_
  rw [bind_ok (rdS_ok hc), bind_ok (pcNow_run s)]
  exact transfer_stops h

theorem ret_trapsAt : trapsAt (.ret ra) s f.code := by
  refine trapsAt_of_fault (f := f) (i := .ret ra) hb rfl hu ?_
  rw [bind_ok (rdS_ok hc)]
  exact h

end
end

/-- Settles O23: the transfer is the last thing before the writes, and a refused target ends the instruction there. -/
theorem refusedTransfers : Obligations.RefusedTransfers := by
  intro s rd ra rb off off38 hb hc p
  have ha : s.core.t.regs.poisS ra = false := hc ra (by simp)
  refine ⟨fun h => ⟨?_, ?_, ?_, ?_, ?_, ?_, loop_trapsAt hb ha h⟩, fun h => ⟨jmp_trapsAt hb h, call_trapsAt hb h rd⟩, fun hal h => ?_, fun hal => ?_⟩
  · exact fun e => branch_trapsAt hb (i := .brEq ra rb off) rfl hc h (by simp [e])
  · exact fun e => branch_trapsAt hb (i := .brNe ra rb off) rfl hc h (by simp [e])
  · exact fun e => branch_trapsAt hb (i := .brLt ra rb off) rfl hc h e
  · exact fun e => branch_trapsAt hb (i := .brGe ra rb off) rfl hc h (by simp [e])
  · exact fun e => branch_trapsAt hb (i := .brLtu ra rb off) rfl hc h e
  · exact fun e => branch_trapsAt hb (i := .brGeu ra rb off) rfl hc h (by simp [e])
  · have ht := transfer_refused (reg := true) hb (fun _ => BitVec.eq_of_toNat_eq (by simpa using hal)) h
    exact ⟨jmpr_trapsAt hb ha rfl ht rd, ret_trapsAt hb ha rfl ht⟩
  · have ht := transfer_misaligned (s := s) hal
    exact ⟨jmpr_trapsAt hb ha rfl ht rd, ret_trapsAt hb ha rfl ht⟩

end Sys2Proof.Machine
end

section
/-! The elements of a vector register, bit by bit (R205, R206, O44). -/

namespace Sys2Proof.Machine

/-! ### Element sizes (R205) -/

theorem vBits_cases (f : BitVec 4) : vBits f = 4 ∨ vBits f = 8 ∨ vBits f = 16 ∨ vBits f = 32 ∨ vBits f = 64 := by
  revert f
  decide

/-- An element size divides the register. -/
structure ElemSize (z n : Nat) : Prop where
  pos : 0 < z
  total : z * n = 4096

theorem elemSize (f : BitVec 4) : ElemSize (vBits f) (vCount f) := by
  unfold vCount
  rcases vBits_cases f with h | h | h | h | h <;> rw [h] <;> exact ⟨by decide, by decide⟩

section
variable {z n i p : Nat}

theorem ElemSize.count (h : ElemSize z n) : 4096 / z = n := by rw [← h.total, Nat.mul_div_cancel_left _ h.pos]

/-- The bit of a place in terms of its element. -/
theorem place_iff (hz : 0 < z) : p * z ≤ i ∧ i < p * z + z ↔ i / z = p := by
  rw [Nat.div_eq_iff hz]
  omega

theorem ElemSize.lt (h : ElemSize z n) (hp : p < n) : p * z + z ≤ 4096 := by
  calc p * z + z = z * (p + 1) := by ring
    _ ≤ z * n := Nat.mul_le_mul_left z hp
    _ = 4096 := h.total

theorem ElemSize.div_lt (h : ElemSize z n) (hi : i < 4096) : i / z < n := by
  rw [Nat.div_lt_iff_lt_mul h.pos, Nat.mul_comm, h.total]
  exact hi

end

/-! ### The bits of elements -/

section
variable {z n p j : Nat} {d : BitVec 4096}

theorem testBit_vElem : (vElem d z p).testBit j = (decide (j < z) && d.getLsbD (p * z + j)) := by
  rw [vElem, BitVec.testBit_toNat, BitVec.getLsbD_extractLsb']

/-- An element by its bits. -/
theorem vElem_eq {v : Nat} (h : ∀ j, j < z → d.getLsbD (p * z + j) = v.testBit j) : vElem d z p = v % 2 ^ z := by
  refine Nat.eq_of_testBit_eq fun j => ?_
  rw [testBit_vElem, Nat.testBit_mod_two_pow]
  by_cases hj : j < z <;> simp [hj, h]

/-- An element with all bits alike. -/
theorem vElem_ones (h : ∀ j, j < z → d.getLsbD (p * z + j) = true) : vElem d z p = 2 ^ z - 1 := by
  rw [vElem_eq (v := 2 ^ z - 1) fun j hj => by rw [h j hj, Nat.testBit_two_pow_sub_one]; simp [hj]]
  exact Nat.mod_eq_of_lt (Nat.sub_lt (Nat.two_pow_pos z) Nat.one_pos)

theorem vElem_zero (h : ∀ j, j < z → d.getLsbD (p * z + j) = false) : vElem d z p = 0 := by
  rw [vElem_eq (v := 0) fun j hj => by rw [h j hj, Nat.zero_testBit]]
  exact Nat.zero_mod _

end

/-! ### Registers put together of elements -/

/-- A bit of a union of parts. -/
theorem getLsbD_foldl_or {w : Nat} {α : Type} (l : List α) (f : α → BitVec w) (d : BitVec w) (i : Nat) :
    (l.foldl (fun d x => d ||| f x) d).getLsbD i = (d.getLsbD i || l.any fun x => (f x).getLsbD i) := by
  induction l generalizing d with
  | nil => simp
  | cons x l ih => rw [List.foldl_cons, ih, BitVec.getLsbD_or, List.any_cons, Bool.or_assoc]

/-- A bit of a union of the parts for which a condition holds. -/
theorem getLsbD_foldl_or_if {w : Nat} {α : Type} (l : List α) (c : α → Bool) (f : α → BitVec w) (d : BitVec w) (i : Nat) :
    (l.foldl (fun d x => if c x then d ||| f x else d) d).getLsbD i = (d.getLsbD i || l.any fun x => c x && (f x).getLsbD i) := by
  induction l generalizing d with
  | nil => simp
  | cons x l ih =>
    rw [List.foldl_cons, ih, List.any_cons, ← Bool.or_assoc]
    cases c x <;> simp

/-- A value in its place. -/
theorem getLsbD_placed {z p i v : Nat} (hz : 0 < z) : ((BitVec.ofNat 4096 (v % 2 ^ z)) <<< (p * z)).getLsbD i =
    (decide (i < 4096) && decide (i / z = p) && v.testBit (i % z)) := by
  rw [BitVec.getLsbD_shiftLeft, BitVec.getLsbD_ofNat, Nat.testBit_mod_two_pow]
  by_cases hi : i < 4096
  · by_cases hp : i / z = p
    · obtain ⟨h1, h2⟩ := (place_iff hz).2 hp
      have hm : i - p * z = i % z := by
        have := Nat.div_add_mod i z
        rw [hp, Nat.mul_comm] at this
        omega
      simp [hi, hp, hm, Nat.not_lt.2 h1, Nat.mod_lt i hz, show i % z < 4096 by have := Nat.mod_le i z; omega]
    · have : ¬ (p * z ≤ i ∧ i < p * z + z) := fun h => hp ((place_iff hz).1 h)
      by_cases h1 : i < p * z
      · simp [h1, hp]
      · have : ¬ i - p * z < z := by omega
        simp [this, hp]
  · simp [hi]

theorem getLsbD_vOnes {z p i : Nat} (hz : 0 < z) : (vOnes z p).getLsbD i = (decide (i < 4096) && decide (i / z = p)) := by
  have h := getLsbD_placed (v := 2 ^ z - 1) (p := p) (i := i) hz
  rw [Nat.mod_eq_of_lt (Nat.sub_lt (Nat.two_pow_pos z) Nat.one_pos), Nat.testBit_two_pow_sub_one] at h
  rw [vOnes, h]
  simp [Nat.mod_lt i hz]

theorem getLsbD_vPack {z i : Nat} (hz : 0 < z) (l : List (Nat × Nat)) : (vPack z l).getLsbD i =
    (decide (i < 4096) && l.any fun x => decide (i / z = x.1) && x.2.testBit (i % z)) := by
  rw [vPack, getLsbD_foldl_or]
  simp only [getLsbD_placed hz]
  by_cases hi : i < 4096 <;> simp [hi]

theorem getLsbD_vWhere {z n i : Nat} (hz : 0 < z) (c : Nat → Bool) : (vWhere z n c).getLsbD i =
    (decide (i < 4096) && decide (i / z < n) && c (i / z)) := by
  rw [vWhere, getLsbD_foldl_or_if, Bool.eq_iff_iff]
  simp only [getLsbD_vOnes hz]
  simp
  exact ⟨fun ⟨hn, hc, hi⟩ => ⟨⟨hi, hn⟩, hc⟩, fun ⟨⟨hi, hn⟩, hc⟩ => ⟨hn, hc, hi⟩⟩

section
variable {z n p : Nat} (hs : ElemSize z n)
include hs

theorem getLsbD_place {j : Nat} (hp : p < n) (hj : j < z) : p * z + j < 4096 ∧ (p * z + j) / z = p ∧ (p * z + j) % z = j := by
  have := hs.lt hp
  refine ⟨by omega, (place_iff hs.pos).1 ⟨by omega, by omega⟩, ?_⟩
  rw [Nat.mul_comm, Nat.mul_add_mod, Nat.mod_eq_of_lt hj]

theorem vElem_vWhere {m : Nat} {c : Nat → Bool} (hp : p < n) : vElem (vWhere z m c) z p = if p < m ∧ c p = true then 2 ^ z - 1 else 0 := by
  split
  · next h =>
    refine vElem_ones fun j hj => ?_
    obtain ⟨h1, h2, -⟩ := getLsbD_place hs hp hj
    simp [getLsbD_vWhere hs.pos, h1, h2, h]
  · next h =>
    refine vElem_zero fun j hj => ?_
    obtain ⟨h1, h2, -⟩ := getLsbD_place hs hp hj
    rw [getLsbD_vWhere hs.pos, h2]
    simpa using fun _ hm => by simpa [hm] using h

/-- Elements computed for some indices, each for a place of its own. -/
theorem vElem_vPack_map {l : List Nat} {κ v : Nat → Nat} {e : Nat} (hκ : ∀ a ∈ l, κ a = κ e → a = e) (he : e ∈ l) (hp : κ e < n) :
    vElem (vPack z (l.map fun a => (κ a, v a))) z (κ e) = v e % 2 ^ z := by
  refine vElem_eq fun j hj => ?_
  obtain ⟨h1, h2, h3⟩ := getLsbD_place hs hp hj
  rw [getLsbD_vPack hs.pos, h2, h3, Bool.eq_iff_iff]
  simp only [List.any_map, h1, decide_true, Bool.true_and, List.any_eq_true, Function.comp_apply, Bool.and_eq_true, decide_eq_true_eq]
  constructor
  · rintro ⟨a, ha, hk, hv⟩
    rwa [hκ a ha hk.symm] at hv
  · exact fun hv => ⟨e, he, rfl, hv⟩

theorem vElem_vPack_map_none {l : List Nat} {κ v : Nat → Nat} (hκ : ∀ a ∈ l, κ a ≠ p) (hp : p < n) :
    vElem (vPack z (l.map fun a => (κ a, v a))) z p = 0 := by
  refine vElem_zero fun j hj => ?_
  obtain ⟨h1, h2, h3⟩ := getLsbD_place hs hp hj
  rw [getLsbD_vPack hs.pos, h2, h3]
  simpa [h1] using fun a ha hk => absurd hk.symm (hκ a ha)

end

end Sys2Proof.Machine
end

section
/-! The arithmetic of vector elements (R221, R222, R226, O44). -/

namespace Sys2Proof.Machine

/-! ### Integer formats (R221, R222) -/

/-- No format is both. -/
theorem floatFmt?_of_intFmt? {f : BitVec 4} {p : Nat × Bool} (h : intFmt? f = some p) : floatFmt? f = none := by
  have hd : ∀ f : BitVec 4, (intFmt? f).isSome = true → floatFmt? f = none := by decide
  exact hd f (by rw [h]; rfl)

theorem intBits_intOf (w : Nat) (s : Bool) (x : Nat) : intBits w (intOf w s x) = x % 2 ^ w := by
  unfold intBits intOf
  dsimp only
  split
  · rw [Int.sub_emod_right, ← Int.natCast_mod, Int.toNat_natCast, Nat.mod_mod]
  · rw [← Int.natCast_mod, Int.toNat_natCast, Nat.mod_mod]

theorem intBits_lt (w : Nat) (i : Int) : intBits w i < 2 ^ w := by
  have h := Int.emod_lt_of_pos i (show (0 : Int) < (2 ^ w : Nat) by exact_mod_cast Nat.two_pow_pos w)
  unfold intBits
  omega

theorem ite_zero_mul_self (x k : Int) : (if x = 0 then 0 else x * k) = x * k := by
  split
  · next h => rw [h, Int.zero_mul]
  · rfl

section
variable {f : BitVec 4} {w : Nat} {sg : Bool} (h : intFmt? f = some (w, sg)) (rm : RM)
include h

theorem vopElem_int (opc fn : Nat) (sat : Bool) (a b c : Nat) : vopElem opc fn rm sat f a b c = (wrapInt w sg sat (vopInt opc fn w sg a b c), 0) := by
  simp [vopElem, floatFmt?_of_intFmt? h, h]

/-- Where the exact result is the value of a pattern, the result is the pattern. -/
theorem vopElem_pattern {opc fn a b c x : Nat} (hx : x < 2 ^ w) (ho : vopInt opc fn w sg a b c = intOf w sg x) :
    vopElem opc fn rm false f a b c = (x, 0) := by
  simp [vopElem_int h, wrapInt, ho, intBits_intOf, Nat.mod_eq_of_lt hx]

theorem vcmpElem_int (fn a b : Nat) : vcmpElem fn f a b =
    (match fn with
      | 0 => decide (intOf w sg a = intOf w sg b) | 1 => decide (intOf w sg a ≠ intOf w sg b) | 2 => decide (intOf w sg a < intOf w sg b)
      | 3 => decide (intOf w sg a ≤ intOf w sg b) | 4 => decide (intOf w sg b < intOf w sg a) | _ => decide (intOf w sg b ≤ intOf w sg a), 0) := by
  simp only [vcmpElem, floatFmt?_of_intFmt? h, h]
  split <;> simp <;> grind

theorem wideElem_int {g : BitVec 4} {v : Nat} {s : Bool} (hg : intFmt? g = some (v, s)) (a b : Nat) :
    wideElem rm f g a b = (intBits v (intOf w sg a * intOf w sg b), 0) := by
  simp [wideElem, floatFmt?_of_intFmt? h, h, hg]

end

/-! ### The tree on integers (R226) -/

/-- What a node of the tree computes of two integers. -/
def redInt (red : Nat) (p q : Int) : Int := if red = 0 then p + q else if red = 1 then max p q else min p q

theorem redInt_assoc (red : Nat) (p q r : Int) : redInt red (redInt red p q) r = redInt red p (redInt red q r) := by
  unfold redInt
  split
  · exact Int.add_assoc p q r
  · split
    · exact max_assoc p q r
    · exact min_assoc p q r

/-- A fold of the reduction takes its first value out. -/
theorem foldl_redInt (red : Nat) (l : List Int) (a b : Int) : l.foldl (redInt red) (redInt red a b) = redInt red a (l.foldl (redInt red) b) := by
  induction l generalizing b with
  | nil => rfl
  | cons c l ih => rw [List.foldl_cons, List.foldl_cons, redInt_assoc, ih]

/-- A pass over integers halves their number and keeps what they reduce to. -/
theorem treePass_ints (red : Nat) : ∀ (i : Int) (l : List Int), ∃ (j : Int) (m : List Int), treePass red (.i i :: l.map .i) = (.i j :: m.map .i, 0) ∧
    m.length = l.length / 2 ∧ m.foldl (redInt red) j = l.foldl (redInt red) i
  | i, [] => ⟨i, [], rfl, rfl, rfl⟩
  | i, [k] => ⟨redInt red i k, [], rfl, by simp, rfl⟩
  | i, k :: x :: l => by
    obtain ⟨j, m, ht, hl, hf⟩ := treePass_ints red x l
    refine ⟨redInt red i k, j :: m, ?_, by simp; omega, ?_⟩
    · rw [List.map_cons, List.map_cons, treePass, ht]
      rfl
    · rw [List.foldl_cons, List.foldl_cons, List.foldl_cons, foldl_redInt, foldl_redInt, hf]

theorem tree_ints {red n : Nat} {i : Int} {l : List Int} (h : l.length < n) : tree red n (.i i :: l.map .i) = (.i (l.foldl (redInt red) i), 0) := by
  induction n generalizing i l with
  | zero => omega
  | succ n ih =>
    match l with
    | [] => rfl
    | k :: l =>
      obtain ⟨j, m, ht, hl, hf⟩ := treePass_ints red i (k :: l)
      have hm : m.length < n := by simp at h hl; omega
      rw [tree]
      · rw [ht]
        dsimp only
        rw [ih hm, hf]
        simp
      · simp
      · simp

/-- The clause of O44 on the integer operations. -/
theorem intElements {f : BitVec 4} {w : Nat} {sg : Bool} (sat : Bool) (rm : RM) (a b c : Nat) (h : intFmt? f = some (w, sg)) :
    let x := intOf w sg a
    let y := intOf w sg b
    let z := intOf w sg c
    let fit (i : Int) : Nat := intBits w (if sat = true then max (intMin w sg) (min (intMax w sg) i) else i)
    (∀ e ∈ [(1, 0, x + y), (2, 0, x - y), (3, 0, x * y), (4, 0, x * y + z), (4, 1, x * y - z), (4, 2, -(x * y) + z), (4, 3, -(x * y) - z), (5, 0, max x y),
      (6, 0, min x y), (7, 0, (x.natAbs : Int)), (8, 0, -x), (0x13, 0, x * (2 ^ (b % 256) : Nat))], vopElem e.1 e.2.1 rm sat f a b c = (fit e.2.2, 0)) ∧
    (a < 2 ^ w → b < 2 ^ w → ∀ e ∈ [(9, 0, a &&& b), (0xA, 0, a ||| b), (0x12, 0, a ^^^ b), (0x11, 0, intBits w (x * y / (2 ^ w : Nat))),
      (0x11, 1, intBits w ((x * y + (2 ^ (w - 1) : Nat)) / (2 ^ w : Nat)))], vopElem e.1 e.2.1 rm false f a b c = (e.2.2, 0)) ∧
    (a < 2 ^ w → ∀ e ∈ [(0, a / 2 ^ (b % 256)), (1, intBits w (x / (2 ^ (b % 256) : Nat)))], vopElem 0xB e.1 rm false f a b c = (e.2, 0)) ∧
    (∀ e ∈ [(0, decide (x = y)), (1, decide (x ≠ y)), (2, decide (x < y)), (3, decide (x ≤ y)), (4, decide (y < x)), (5, decide (y ≤ x))],
      vcmpElem e.1 f a b = (e.2, 0)) ∧
    (∀ g v h, intFmt? g = some (v, h) → wideElem rm f g a b = (intBits v (x * y), 0)) ∧
    ∀ red n i (l : List Int), l.length < n → tree red n (.i i :: l.map .i) =
      (.i (l.foldl (fun p q => if red = 0 then p + q else if red = 1 then max p q else min p q) i), 0) := by
  intro x y z fit
  refine ⟨?_, fun ha hb => ?_, fun ha => ?_, ?_, fun g v s hg => wideElem_int h rm hg a b, fun red n i l hl => tree_ints hl⟩
  · simp only [List.forall_mem_cons, List.not_mem_nil, false_imp_iff, implies_true, and_true, vopElem_int h, wrapInt, vopInt, fit]
    simp [x, y, z, Int.sub_eq_add_neg, ite_zero_mul_self]
  · simp only [List.forall_mem_cons, List.not_mem_nil, false_imp_iff, implies_true, and_true]
    exact ⟨vopElem_pattern h rm (Nat.and_lt_two_pow _ hb) rfl, vopElem_pattern h rm (Nat.or_lt_two_pow ha hb) rfl,
      vopElem_pattern h rm (Nat.xor_lt_two_pow ha hb) rfl, vopElem_pattern h rm (intBits_lt ..) (by simp [vopInt, x, y]),
      vopElem_pattern h rm (intBits_lt ..) (by simp [vopInt, x, y])⟩
  · simp only [List.forall_mem_cons, List.not_mem_nil, false_imp_iff, implies_true, and_true]
    exact ⟨vopElem_pattern h rm (lt_of_le_of_lt (Nat.div_le_self ..) ha) rfl, by simp [vopElem_int h, wrapInt, vopInt, x]⟩
  · simp [vcmpElem_int h, x, y]

/-- A result rounded once to a float format, with the flags of both steps. -/
theorem floatElements {f : BitVec 4} {F : FloatFmt} (sat : Bool) (rm : RM) (fn a b c : Nat) (h : floatFmt? f = some F) :
    let x := F.decode a
    let y := F.decode b
    let once (G : FloatFmt) (p : Machine.Num × FFlags) : Nat × FFlags := ((G.round rm false p.1).1, p.2 ||| (G.round rm false p.1).2)
    (∀ e ∈ [(1, Machine.Num.add rm x y), (2, Machine.Num.add rm x y.neg), (3, Machine.Num.mul x y), (4, fmaNum rm fn x y (F.decode c)), (5, (numMaxMin true x y, 0)),
      (6, (numMaxMin false x y, 0))], vopElem e.1 fn rm sat f a b c = once F e.2) ∧
    (∀ e, 0x20 ≤ e → e ≤ 0x26 → vopElem e fn rm sat f a b c = once F (specialNum e x)) ∧
    (∀ e ∈ [(7, a % 2 ^ (F.width - 1)), (8, a ^^^ 2 ^ (F.width - 1)), (9, a &&& b), (0xA, a ||| b), (0x12, a ^^^ b)], vopElem e.1 fn rm sat f a b c = (e.2, 0)) ∧
    (∀ g G, floatFmt? g = some G → wideElem rm f g a b = once G (Machine.Num.mul x (F.decode b))) := by
  intro x y once
  refine ⟨?_, fun e h1 h2 => ?_, ?_, fun g G hg => ?_⟩
  · simp [vopElem, h, vopBits, vopNum, once, x, y]
  · interval_cases e <;> simp [vopElem, h, vopBits, vopNum, once, x]
  · simp [vopElem, h, vopBits]
  · simp [wideElem, h, hg, once, x]

end Sys2Proof.Machine
end

section
/-! What an A or a B slot leaves pending (R220 to R227, O44). -/

namespace Sys2Proof.Machine

/-- A flag is set where a part sets it. -/
theorem getLsbD_foldl_flags {α : Type} {w : Nat} (l : List α) (g : α → BitVec w) (i : Nat) :
    (l.foldl (fun f x => f ||| g x) 0).getLsbD i = true ↔ ∃ x ∈ l, (g x).getLsbD i = true := by
  rw [getLsbD_foldl_or]
  simp

/-- A list of indices of which each gets a value and flags at a place of its own lands there. -/
theorem landV_lands {z n left : Nat} (hs : ElemSize z n) {reg : BitVec 6} {tag : FTag} {keep : BitVec 4096} {l : List Nat} {κ : Nat → Nat}
    {x : Nat → Nat × FFlags} {act kept : Nat → Prop} {val : Nat → Nat} {fl : Nat → FFlags} (hκ : ∀ a ∈ l, ∀ b ∈ l, κ a = κ b → a = b)
    (hlt : ∀ a ∈ l, κ a < n) (hact : ∀ e, e < n → (act e ↔ ∃ a ∈ l, κ a = e)) (hx : ∀ a ∈ l, x a = (val (κ a), fl (κ a)))
    (hkeep : ∀ e, e < n → (kept e → vElem keep z e = 2 ^ z - 1) ∧ (¬ kept e → vElem keep z e = 0)) :
    Lands (landV reg (vPack z (l.map fun a => (κ a, (x a).1))) keep tag (l.foldl (fun f a => f ||| (x a).2) 0) left) reg tag left z act kept val fl := by
  have hcount := hs.count
  refine ⟨⟨rfl, rfl, rfl, rfl, rfl, rfl⟩, fun e he ha => ?_, fun e he ha => ?_, fun e he => ?_, fun i _ => ?_⟩
  · rw [hcount] at he
    obtain ⟨a, hl, rfl⟩ := (hact e he).1 ha
    rw [landV, vElem_vPack_map hs (fun b hb h => hκ b hb a hl h) hl he, hx a hl]
  · rw [hcount] at he
    exact vElem_vPack_map_none hs (fun a hl h => ha ((hact e he).2 ⟨a, hl, h⟩)) he
  · rw [hcount] at he
    exact hkeep e he
  · rw [hcount, landV, getLsbD_foldl_flags]
    constructor
    · rintro ⟨a, hl, h⟩
      rw [hx a hl] at h
      exact ⟨κ a, hlt a hl, (hact _ (hlt a hl)).2 ⟨a, hl, rfl⟩, h⟩
    · rintro ⟨e, he, ha, h⟩
      obtain ⟨a, hl, rfl⟩ := (hact e he).1 ha
      exact ⟨a, hl, by rw [hx a hl]; exact h⟩

/-- A write of every element keeps nothing. -/
theorem keep_none {z e : Nat} : (False → vElem 0 z e = 2 ^ z - 1) ∧ (¬ False → vElem 0 z e = 0) :=
  ⟨False.elim, fun _ => vElem_zero (by simp)⟩

section
variable (s : State) (a : AB)

/-- The second operand of an A or B slot (R221). -/
def abArg (e : Nat) : Nat := if a.imm = true then (immPattern a.et a.opc a.imm16).getD 0 else vElem (s.vreg a.vb).data (vBits a.et) e

/-- The places that an A or B slot keeps: those of inactive elements, without KZ (R206). -/
theorem abKeep {z n e : Nat} (hs : ElemSize z n) (kz : Bool) (c : Nat → Bool) (he : e < n) :
    (kz = false ∧ c e = false → vElem (if kz then 0 else vWhere z n fun p => !c p) z e = 2 ^ z - 1) ∧
    (¬ (kz = false ∧ c e = false) → vElem (if kz then 0 else vWhere z n fun p => !c p) z e = 0) := by
  cases kz
  · rw [if_neg Bool.false_ne_true, vElem_vWhere hs he]
    simp +contextual [he]
  · exact ⟨fun h => absurd h.1 (by simp), fun _ => vElem_zero (by simp)⟩

theorem abElementwise_lands :
    let z := vBits a.et
    let on (e : Nat) : Bool := vActive (s.mask a.km) z e
    let r (e : Nat) := vopElem a.opc a.fn a.rm a.sat a.et (vElem (s.vreg a.va).data z e) (abArg s a e) (vElem (s.vreg a.vc).data z e)
    Lands (abElementwise s a) (s.vec.physV a.vd)
      ((s.vreg a.va).tag ||| (if abReadsB a.opc = true ∧ a.imm = false then (s.vreg a.vb).tag &&& 0x40 else 0))
      (abLatency a.opc) z (on · = true) (fun e => a.kz = false ∧ on e = false) (fun e => (r e).1) (fun e => (r e).2) := by
  intro z on r
  have hs := elemSize a.et
  have htag : (if abReadsB a.opc = true ∧ a.imm = false then (s.vreg a.vb).tag &&& 0x40 else 0) =
      (if (abReadsB a.opc && !a.imm) = true then (s.vreg a.vb).tag &&& 0x40 else 0) := by simp
  rw [htag]
  simp only [abElementwise, List.map_map, List.foldl_map]
  exact landV_lands hs (κ := id) (x := r) (fun _ _ _ _ h => h) (by simp +contextual) (by simp +contextual [on, z]) (fun _ _ => rfl)
    fun e he => abKeep hs a.kz on he

theorem abSelect_lands :
    let z := vBits a.et
    Lands (abSelect s a) (s.vec.physV a.vd) ((s.vreg a.va).tag ||| ((s.vreg a.vb).tag &&& 0x40)) 2 z (fun _ => True) (fun _ => False)
      (fun e => vElem (if vActive (s.mask a.km) z e = true then (s.vreg a.va).data else (s.vreg a.vb).data) z e) (fun _ => 0) := by
  intro z
  have hs : ElemSize z (vCount a.et) := elemSize a.et
  refine ⟨⟨rfl, rfl, rfl, rfl, rfl, rfl⟩, fun e he _ => ?_, fun e _ h => absurd trivial h, fun e _ => keep_none, fun i _ => by simp [abSelect, landV]⟩
  rw [hs.count] at he
  refine vElem_eq fun j hj => ?_
  obtain ⟨h1, h2, -⟩ := getLsbD_place hs he hj
  have hw : (vWhere z (vCount a.et) (vActive (s.mask a.km) z)).getLsbD (e * z + j) = vActive (s.mask a.km) z e := by
    rw [getLsbD_vWhere hs.pos, h2]
    simp [h1, he]
  change (((s.vreg a.va).data &&& vWhere z (vCount a.et) (vActive (s.mask a.km) z)) |||
    ((s.vreg a.vb).data &&& ~~~vWhere z (vCount a.et) (vActive (s.mask a.km) z))).getLsbD (e * z + j) = _
  rw [BitVec.getLsbD_or, BitVec.getLsbD_and, BitVec.getLsbD_and, BitVec.getLsbD_not, hw, testBit_vElem]
  cases vActive (s.mask a.km) z e <;> simp [h1, hj]

/-- Groups of a reduction (R226). -/
theorem abReduce_lands :
    let z := vBits a.et
    let g := 2 ^ (a.imm16.toNat % 16)
    let x (e : Nat) : TVal := if vActive (s.mask a.km) z e = true then treeIn a.et (vElem (s.vreg a.va).data z e) else treeId a.fn a.et
    let y (e : Nat) := tree a.fn g ((List.range g).map fun i => x (e * g + i))
    let r (e : Nat) := treeOut a.rm a.sat a.et (y e).1
    Lands (abReduce s a) (s.vec.physV a.vd) (s.vreg a.va).tag 6 z (· < vCount a.et / g) (fun _ => False) (fun e => (r e).1)
      (fun e => (y e).2 ||| (r e).2) := by
  intro z g x y r
  have hs := elemSize a.et
  have hg : 2 ^ (a.imm16.extractLsb' 0 4).toNat = g := by simp [g]
  simp only [abReduce, List.map_map, List.foldl_map, hg]
  exact landV_lands hs (κ := id) (x := fun e => ((r e).1, (y e).2 ||| (r e).2)) (fun _ _ _ _ h => h)
    (fun e he => lt_of_lt_of_le (List.mem_range.1 he) (Nat.div_le_self ..)) (by simp [g]) (fun _ _ => rfl) fun _ _ => keep_none

/-- Elements of the wider format, in a pair or a quad. -/
theorem elemSize_wide (f : BitVec 4) {m : Nat} (hm : m = 2 ∨ m = 4) : ElemSize (m * vBits f) (vCount f / m) := by
  unfold vCount
  rcases vBits_cases f with h | h | h | h | h <;> rcases hm with rfl | rfl <;> rw [h] <;> exact ⟨by decide, by decide⟩

theorem foldl_filter_vOnes (z n : Nat) (c : Nat → Bool) : ((List.range n).filter c).foldl (fun d p => d ||| vOnes z p) 0 = vWhere z n c :=
  List.foldl_filter

/-- The registers of a widening product (R225): register r of m holds the products r, m + r, and so on. -/
theorem abWiden_lands {m i : Nat} {p : PendW} (hm : (if a.fn = 1 then 4 else 2) = m) (hp : (abWiden s a)[i]? = some p) :
    let z := vBits a.et
    let on (e : Nat) : Bool := vActive (s.mask a.km) z e
    let r (e : Nat) := wideElem a.rm a.et (wideFmt a.fn a.et) (vElem (s.vreg a.va).data z (m * e + i)) (vElem (s.vreg a.vb).data z (m * e + i))
    Lands p (s.vec.physV (a.vd + BitVec.ofNat 6 i)) ((wideFmt a.fn a.et).setWidth 16 ||| (((s.vreg a.va).tag ||| (s.vreg a.vb).tag) &&& 0x40)) 4
      (m * z) (fun e => on (m * e + i) = true) (fun e => a.kz = false ∧ on (m * e + i) = false) (fun e => (r e).1) (fun e => (r e).2) := by
  intro z on r
  have hm2 : m = 2 ∨ m = 4 := by rw [← hm]; split <;> simp
  have hs := elemSize_wide a.et hm2
  simp only [abWiden, hm, List.getElem?_map, Option.map_eq_some_iff, List.getElem?_eq_some_iff, List.getElem_range] at hp
  obtain ⟨_, ⟨-, rfl⟩, rfl⟩ := hp
  simp only [List.filter_map, List.map_map, List.foldl_map]
  exact landV_lands hs (κ := id) (x := r) (fun _ _ _ _ h => h) (by simp +contextual) (by simp +contextual [on, z]) (fun _ _ => rfl)
    fun e he => foldl_filter_vOnes (m * z) _ (fun e => !on (m * e + i)) ▸ abKeep hs a.kz (fun e => on (m * e + i)) he

/-- The half of the accumulator that VDOT4 writes (R225). -/
theorem abDot_lands (hz : vBits a.et = 8 ∨ vBits a.et = 16 ∧ a.fn ≤ 1) :
    let z := vBits a.et
    let A := s.vreg a.va
    let B := s.vreg a.vb
    let C := s.vreg a.vc
    let on (z e : Nat) : Bool := vActive (s.mask a.km) z e
    let lo := if z = 16 then 64 * a.fn else 0
    let within (e : Nat) : Prop := lo ≤ e ∧ e < lo + 1024 / z
    let x (e : Nat) : List (Nat × Nat) := (List.range 4).map fun i => (vElem A.data z (4 * (e - lo) + i), vElem B.data z (4 * (e - lo) + i))
    let c (e : Nat) : Nat := vElem C.data 32 e
    let r (e : Nat) : Nat × FFlags := match intFmt? a.et, floatFmt? a.et with
      | some (n, sg), _ => (wrapInt 32 true a.sat ((x e).foldl (fun i y => i + intOf n sg y.1 * intOf n sg y.2) (intOf 32 true (c e))), 0)
      | _, some F =>
        let u := dotNum a.rm (fp32.decode (c e)) ((x e).map fun y => (F.decode y.1, F.decode y.2))
        let v := fp32.round a.rm false u.1
        (v.1, u.2 ||| v.2)
      | _, _ => (0, 0)
    Lands (abDot s a) (s.vec.physV a.vd) ((dotFmt a.et).setWidth 16 ||| ((A.tag ||| B.tag) &&& 0x40)) 4 32 (fun e => within e ∧ on 32 e = true)
      (fun e => ¬ within e ∨ a.kz = false ∧ on 32 e = false) (fun e => (r e).1) (fun e => (r e).2) := by
  intro z A B C on lo within x c r
  have hs : ElemSize 32 128 := ⟨by decide, by decide⟩
  have hlo : (if vBits a.et = 16 then 64 * a.fn else 0) = lo := rfl
  obtain ⟨n, hn⟩ : ∃ n, 1024 / z = n := ⟨_, rfl⟩
  have hn4 : 4096 / vBits a.et / 4 = n := by rw [← hn, Nat.div_div_eq_div_mul, Nat.mul_comm, ← Nat.div_div_eq_div_mul]
  have hin : lo + n ≤ 128 := by
    rw [← hlo, ← hn]
    rcases hz with h | ⟨h, hf⟩ <;> simp [z, h]
    omega
  have hw (e : Nat) : within e ↔ lo ≤ e ∧ e < lo + n := by rw [← hn]
  clear_value lo within
  simp only [abDot, List.map_map, List.foldl_map, hlo, hn4]
  refine landV_lands hs (κ := (lo + ·)) (val := fun e => (r e).1) (fl := fun e => (r e).2) (fun _ _ _ _ h => by simpa using h) ?_ ?_ (fun p _ => ?_)
    fun e he => ?_
  · intro p hp
    have := List.mem_range.1 (List.mem_of_mem_filter hp)
    omega
  · intro e he
    simp only [List.mem_filter, List.mem_range, hw]
    constructor
    · rintro ⟨⟨h1, h2⟩, ho⟩
      exact ⟨e - lo, ⟨by omega, by rw [Nat.add_sub_cancel' h1]; exact ho⟩, by omega⟩
    · rintro ⟨p, ⟨h1, h2⟩, rfl⟩
      exact ⟨⟨by omega, by omega⟩, h2⟩
  · dsimp only [r, x, c]
    rw [Nat.add_sub_cancel_left]
    cases hi : intFmt? a.et with
    | some q => simp only [floatFmt?_of_intFmt? hi]; rfl
    | none => cases hf : floatFmt? a.et <;> rfl
  · have hk : (decide (e < lo) || decide (lo + n ≤ e) || !a.kz && !vActive (s.mask a.km) 32 e) = true ↔
        ¬ within e ∨ a.kz = false ∧ on 32 e = false := by
      rw [hw, not_and_or, not_le, not_lt]
      simp [on]
    rw [vElem_vWhere hs he]
    exact ⟨fun h => if_pos ⟨he, hk.2 h⟩, fun h => if_neg fun h' => h (hk.1 h'.2)⟩

/-- A bit of a mask is one place. -/
theorem getLsbD_maskBit {w i k : Nat} (hi : i < w) : (1#w <<< k).getLsbD i = decide (i = k) := by
  rw [BitVec.getLsbD_shiftLeft, BitVec.getLsbD_one]
  by_cases h : i < k
  · simp [h, show i ≠ k by omega]
  · have hk : i - k = 0 ↔ i = k := by omega
    have hw : 0 < w := by omega
    simp [hi, h, hk, hw]

/-- VCMP writes the mask bits of its elements (R222). -/
theorem abCompare_bits :
    let z := vBits a.et
    let on (z e : Nat) : Bool := vActive (s.mask a.km) z e
    let r (e : Nat) := vcmpElem a.fn a.et (vElem (s.vreg a.va).data z e) (abArg s a e)
    let p := abCompare s a
    p.isMask = true ∧ p.reg = (s.vec.physK (a.vd.toNat % 16)).setWidth 6 ∧ p.tag = none ∧ p.left = 2 ∧ p.pois = 0 ∧
    (∀ i, i < 1024 → (p.data.getLsbD i = true ↔ ∃ e, e < vCount a.et ∧ i = e * z / 4 ∧ on z e = true ∧ (r e).1 = true)) ∧
    (∀ i, i < 1024 → (p.keep.getLsbD i = false ↔ ∃ e, e < vCount a.et ∧ i = e * z / 4 ∧ ¬ (a.kz = false ∧ on z e = false))) ∧
    ∀ i, i < 5 → (p.flags.getLsbD i = true ↔ ∃ e, e < vCount a.et ∧ on z e = true ∧ (r e).2.getLsbD i = true) := by
  intro z on r p
  refine ⟨rfl, by simp [p, abCompare], rfl, rfl, rfl, fun i hi => ?_, fun i hi => ?_, fun i _ => ?_⟩
  · simp only [p, abCompare, List.foldl_map, getLsbD_foldl_or_if, getLsbD_maskBit (show i < 4096 by omega)]
    simp [r, on, z, abArg, and_comm, and_left_comm]
  · simp only [p, abCompare, BitVec.getLsbD_not, getLsbD_foldl_or, getLsbD_maskBit (show i < 4096 by omega)]
    cases a.kz <;> simp [on, z, show i < 4096 by omega, and_comm, and_left_comm]
  · simp only [p, abCompare, List.foldl_map, getLsbD_foldl_flags]
    simp [r, on, z, abArg, and_assoc]

end

end Sys2Proof.Machine
end

section
/-! What a C slot leaves pending (R231, O44). -/

namespace Sys2Proof.Machine

/-! ### What the C slot leaves pending (R231) -/

/-- Every element written, without a flag. -/
theorem landV_lands_all {z n left : Nat} (hs : ElemSize z n) (reg : BitVec 6) (tag : FTag) (v : Nat → Nat) :
    Lands (landV reg (vPack z ((List.range n).map fun e => (e, v e))) 0 tag 0 left) reg tag left z (fun _ => True) (fun _ => False) v (fun _ => 0) := by
  refine ⟨⟨rfl, rfl, rfl, rfl, rfl, rfl⟩, fun e he _ => ?_, fun e _ h => absurd trivial h, fun e _ => keep_none, fun i _ => by simp [landV]⟩
  rw [hs.count] at he
  exact vElem_vPack_map hs (κ := id) (fun _ _ h => h) (List.mem_range.2 he) he

/-- The element that VPERM takes for a place. -/
theorem permFrom_elem (c : CS) (A B : VReg) (z n e : Nat) :
    (vElem (if (permFrom c n B e).1 then B.data else A.data) z (permFrom c n B e).2) = (match c.fn with
      | 0 => vElem A.data z (vElem B.data 16 e % n)
      | 1 => vElem A.data z (n - 1 - e)
      | 2 => vElem A.data z ((e + c.imm.toNat) % n)
      | 3 => vElem (if e % 2 = 0 then A.data else B.data) z (e / 2)
      | 4 => vElem (if e % 2 = 0 then A.data else B.data) z (e / 2 + n / 2)
      | 5 => vElem (if e < n / 2 then A.data else B.data) z (2 * (e % (n / 2)))
      | _ => vElem (if e < n / 2 then A.data else B.data) z (2 * (e % (n / 2)) + 1)) := by
  have hpar : (if decide (e % 2 = 1) = true then B.data else A.data) = if e % 2 = 0 then A.data else B.data := by
    rcases Nat.mod_two_eq_zero_or_one e with h | h <;> simp [h]
  have hhalf : (if decide (n / 2 ≤ e) = true then B.data else A.data) = if e < n / 2 then A.data else B.data := by
    by_cases h : e < n / 2
    · simp [h]
    · simp [h, Nat.not_lt.1 h]
  unfold permFrom
  split <;> simp only [*, Bool.false_eq_true, if_false]

/-- Values count up to the element's size. -/
theorem Lands.congr_val {p : PendW} {reg : BitVec 6} {tag : FTag} {left z : Nat} {act kept : Nat → Prop} {v v' : Nat → Nat} {fl : Nat → FFlags}
    (h : Lands p reg tag left z act kept v fl) (hv : ∀ e, v e % 2 ^ z = v' e % 2 ^ z) : Lands p reg tag left z act kept v' fl :=
  { h with hit := fun e he ha => (h.hit e he ha).trans (hv e) }

section
variable {s : State} {w : BitVec 48}

theorem cPends_perm (h : (csOf w).opc = 1) : ∃ p, cPends s w = [p] ∧
    let c := csOf w
    let A := s.vreg c.a
    let B := s.vreg c.b
    let z := vBits (tFmt A.tag)
    let n := vCount (tFmt A.tag)
    Lands p (s.vec.physV c.d) A.tag 3 z (fun _ => True) (fun _ => False) (fun e => match c.fn with
      | 0 => vElem A.data z (vElem B.data 16 e % n)
      | 1 => vElem A.data z (n - 1 - e)
      | 2 => vElem A.data z ((e + c.imm.toNat) % n)
      | 3 => vElem (if e % 2 = 0 then A.data else B.data) z (e / 2)
      | 4 => vElem (if e % 2 = 0 then A.data else B.data) z (e / 2 + n / 2)
      | 5 => vElem (if e < n / 2 then A.data else B.data) z (2 * (e % (n / 2)))
      | _ => vElem (if e < n / 2 then A.data else B.data) z (2 * (e % (n / 2)) + 1)) (fun _ => 0) := by
  refine ⟨_, by simp only [cPends, h]; rfl, ?_⟩
  simp only [permFrom_elem]
  exact landV_lands_all (elemSize _) ..

theorem cPends_bcast (h : (csOf w).opc = 2) : ∃ p, cPends s w = [p] ∧
    let c := csOf w
    let A := s.vreg c.a
    let f := if c.fn = 0 then tFmt A.tag else c.f4
    Lands p (s.vec.physV c.d) (if c.fn = 0 then A.tag else f.setWidth 16) 2 (vBits f) (fun _ => True) (fun _ => False) (fun _ => match c.fn with
      | 0 => vElem A.data (vBits f) (c.imm.toNat % vCount f)
      | 1 => (immPattern f 1 c.imm).getD 0
      | _ => (s.vec.a[(c.a.extractLsb' 0 3).toFin]).toNat) (fun _ => 0) := by
  refine ⟨_, by simp only [cPends, h]; rfl, ?_⟩
  intro c A f
  have hl := landV_lands_all (left := 2) (elemSize f) (s.vec.physV c.d) (if c.fn = 0 then A.tag else c.f4.setWidth 16) fun _ => match c.fn with
    | 0 => vElem A.data (vBits f) (c.imm.toNat % vCount f)
    | 1 => (immPattern f 1 c.imm).getD 0
    | _ => (s.vec.a[(c.a.extractLsb' 0 3).toFin]).toNat % 2 ^ vBits f
  have ht : (if c.fn = 0 then A.tag else f.setWidth 16) = if c.fn = 0 then A.tag else c.f4.setWidth 16 := by
    split
    · rfl
    · next hf => simp only [f, if_neg hf]
  rw [ht]
  refine hl.congr_val fun _ => ?_
  split <;> simp

theorem cPends_kop (h : (csOf w).opc = 5) : ∃ p, cPends s w = [p] ∧
    let c := csOf w
    let K := s.mask c.a.toNat
    let L := s.mask c.b.toNat
    p.isMask = true ∧ p.reg = (s.vec.physK c.d.toNat).setWidth 6 ∧ p.keep = 0 ∧ p.tag = none ∧ p.left = 1 ∧ p.flags = 0 ∧
    ∀ i, i < 1024 → (p.data.getLsbD i = true ↔ match c.fn with
      | 0 => K.getLsbD i = true ∧ L.getLsbD i = true
      | 1 => K.getLsbD i = true ∨ L.getLsbD i = true
      | 2 => K.getLsbD i ≠ L.getLsbD i
      | 3 => K.getLsbD i = true ∧ L.getLsbD i = false
      | 4 => K.getLsbD i = false
      | 5 => K.getLsbD i = true
      | _ => ∃ e, e < c.imm.toNat ∧ i = e * vBits c.f4 / 4) := by
  refine ⟨_, by simp only [cPends, h]; rfl, rfl, rfl, rfl, rfl, rfl, rfl, fun i hi => ?_⟩
  have h4 : i < 4096 := by omega
  dsimp only
  rw [BitVec.getLsbD_setWidth]
  split
  case h_7 =>
    simp only [h4, decide_true, Bool.true_and, getLsbD_foldl_or, getLsbD_maskBit hi]
    simp
  all_goals simp_all

end

end Sys2Proof.Machine
end

section
/-! The issue of a bundle, and of one with an A or a B slot (R211 to R218, O44). -/

namespace Sys2Proof.Machine

/-! ### What a bundle reads (R211, R214) -/

/-- The vector engine's registers of two states are the same. -/
structure SameVec (s x : State) : Prop where
  vec : x.vec = s.vec
  regs : x.core.t.regs = s.core.t.regs

section
variable {s x : State}

theorem SameVec.vreg (h : SameVec s x) (n : BitVec 6) : x.vreg n = s.vreg n := by
  unfold State.vreg State.V
  rw [h.vec, h.regs]

theorem SameVec.mask (h : SameVec s x) (n : Nat) : x.mask n = s.mask n := by
  unfold State.mask
  rw [h.vec, h.regs]

theorem SameVec.maskPois (h : SameVec s x) (n : Nat) : x.maskPois n = s.maskPois n := by
  unfold State.maskPois
  rw [h.vec, h.regs]

theorem SameVec.abFaults (h : SameVec s x) (w : Word) : abFaults x w = abFaults s w := by
  simp only [Machine.abFaults, h.vreg, h.mask, h.maskPois]

theorem SameVec.cFaults (h : SameVec s x) (w : BitVec 48) : cFaults x w = cFaults s w := by
  simp only [Machine.cFaults, h.vreg, h.maskPois]

theorem SameVec.abRun (h : SameVec s x) (w : Word) : abRun x w = abRun s w := by
  simp only [Machine.abRun, abCompare, abSelect, abReduce, abWiden, abDot, abElementwise, h.vreg, h.mask, h.vec]

theorem SameVec.cPends (h : SameVec s x) (w : BitVec 48) : cPends x w = cPends s w := by
  simp only [Machine.cPends, h.vreg, h.mask, h.vec]

theorem SameVec.selGet (h : SameVec s x) (n : Nat) : selGet x n = selGet s n := by
  simp only [Machine.selGet, h.vec, h.regs]

end

/-! ### Landing slots that a bundle does not meet (R353) -/

section
variable {s : State} {k : Cmd} {l : List (Nat × Nat)}

theorem meetsSlot_of_noHit (h : slotsHit s.core.t l = []) : meetsSlot s.core.t l = false := by
  unfold meetsSlot
  rw [List.any_eq_false]
  exact fun y hy => List.filter_eq_nil_iff.1 h y hy

theorem slotsHit_of_noSlots (h : slotsOf s.core.t = []) : slotsHit s.core.t l = [] := by simp [slotsHit, h]

theorem slotsHit_nil (t : Task) : slotsHit t [] = [] := by simp [slotsHit]

theorem slotsMissing_of_noHit (num : Word) (h : slotsHit s.core.t l = []) : slotsMissing s num l = [] := by simp [slotsMissing, h]

theorem bindSlots_of_noHit (num : Word) (h : slotsHit s.core.t l = []) : bindSlots s num l = s := by simp [bindSlots, h]

theorem slotStop_of_noHit (h : slotsHit s.core.t l = []) : slotStop k s l = none := by
  simp [slotStop, meetsSlot_of_noHit h, slotsMissing_of_noHit _ h]

@[simp] theorem unfailed_nil (s : State) : s.unfailed [] = s := by simp [State.unfailed, State.modB]

end

/-! ### The issue of a bundle (R214) -/

/-- Whether the slots of a bundle perform, under its stage. -/
def performs (b : BitVec 256) (s : State) : Bool := bStg b = 0 || s.vec.sp.getLsbD (bStg b - 1)

theorem performs_iff {b : BitVec 256} {s : State} : performs b s = true ↔ stageOn s b := by simp [performs, stageOn]

/-- A bundle counts, its results are pending, and the program moves on. -/
def advanceProg (k : Cmd) (b : BitVec 256) (s : State) (ps : List PendW) (next : Nat) (took : Bool) : State :=
  let s3 := s.modVec fun v => { v with
    bc := v.bc + 1, bidx := BitVec.ofNat 16 next,
    pend := (v.pend ++ ps).map fun p => { p with left := p.left - 1 } }
  if bLast b && !took then endProgram k next s3
  else s3.modCmd .compute k.num fun q => { q with upc := next }

/-- What follows the slots: VMOVS, VLOOP, and the count. -/
def bundleEnd (k : Cmd) (b : BitVec 256) (s s1 : State) (ps : List PendW) : State :=
  let c := csOf (slotC b)
  let s1 := if performs b s && bPres b 3 && c.opc = 3 then vmovs s c s1 else s1
  match (if bPres b 3 && c.opc = 4 then vloop s1 c k.upc else some (s1, k.upc + 1, false)) with
  | none => stopCmd (s.modVec fun v => { v with fslot := 3 }) k k.upc (.fault cILLOP none 0)
  | some (s2, next, took) => advanceProg k b s2 ps next took

section
variable {k : Cmd} {b : BitVec 256} {s s1 : State} {ps : List PendW}

/-- A well-formed bundle that meets no landing slot performs its slots, faults or ends. -/
theorem issueBundle_eq (hf : bundleIllop b = false) (hh : slotsHit s.core.t (if performs b s then bundleSlots s b else []) = []) :
    issueBundle k b s = match (if performs b s then slotsRun b s else .ok (s, [])) with
      | .error e => stopCmd (s.modVec fun v => { v with fslot := faultSlot b s e }) k k.upc e
      | .ok (s1, ps) => bundleEnd k b s s1 ps := by
  have hp : (decide (bStg b = 0) || s.vec.sp.getLsbD (bStg b - 1)) = performs b s := rfl
  unfold issueBundle
  simp only [hf, Bool.false_eq_true, if_false, hp, bindSlots_of_noHit k.num hh, slotsMissing_of_noHit k.num hh, slotStop_of_noHit hh, List.map_nil,
    unfailed_nil]
  cases (if performs b s then slotsRun b s else .ok (s, [])) <;> rfl

end

/-! ### The fault of a bundle (R12, R211) -/

theorem lowest_mem {l : List (BitVec 8 × Option Word)} {x : BitVec 8 × Option Word} (h : lowest l = some x) : x ∈ l := by
  induction l generalizing x with
  | nil => cases h
  | cons y l ih =>
    unfold lowest at h
    split at h
    · next z hz =>
      split at h <;> cases h
      · exact .tail _ (ih hz)
      · exact .head _
    · cases h; exact .head _

theorem lowest_ne_none {l : List (BitVec 8 × Option Word)} (h : l ≠ []) : lowest l ≠ none := by
  cases l with
  | nil => exact absurd rfl h
  | cons y l =>
    unfold lowest
    split
    · split <;> simp
    · simp

@[simp] theorem bundleFault_nil : bundleFault [] = none := rfl

/-- Of faults found, one is raised. -/
theorem bundleFault_some {l : List (BitVec 8 × Option Word)} (h : l ≠ []) : ∃ x ∈ l, bundleFault l = some x := by
  unfold bundleFault
  split
  · next x hx => exact ⟨x, List.mem_of_mem_filter (lowest_mem hx), rfl⟩
  · obtain ⟨x, hx⟩ := Option.ne_none_iff_exists'.1 (lowest_ne_none h)
    exact ⟨x, lowest_mem hx, hx⟩

section
variable {b : BitVec 256} {s : State}

/-- Without an M slot: the faults of the other slots, or their results. -/
theorem slotsRun_noM {l : List (BitVec 8)} {ps : List PendW} (h0 : bPres b 0 = false)
    (hl : (if bPres b 1 then abFaults s (slotA b) else []) ++ (if bPres b 2 then abFaults s (slotB b) else []) ++
      (if bPres b 3 then cFaults s (slotC b) else []) = l)
    (hps : (if bPres b 1 then abRun s (slotA b) else []) ++ (if bPres b 2 then abRun s (slotB b) else []) ++
      (if bPres b 3 then cPends s (slotC b) else []) = ps) :
    (l = [] → slotsRun b s = .ok (s, ps)) ∧ (l ≠ [] → ∃ c ∈ l, slotsRun b s = .error (.fault c none 0)) := by
  have hc : (if bPres b 1 then (abFaults s (slotA b)).map fun c => (c, (none : Option Word)) else []) ++
      (if bPres b 2 then (abFaults s (slotB b)).map fun c => (c, none) else []) ++
      (if bPres b 3 then (cFaults s (slotC b)).map fun c => (c, none) else []) = l.map fun c => (c, none) := by
    rw [← hl]
    simp only [List.map_append, apply_ite (List.map fun c => (c, (none : Option Word))), List.map_nil]
  unfold slotsRun
  simp only [h0, Bool.false_eq_true, if_false, Bool.false_and, List.nil_append, List.append_nil, hc]
  constructor
  · rintro rfl
    exact congrArg (fun q => Except.ok (s, q)) hps
  · intro hne
    obtain ⟨x, hx, hb⟩ := bundleFault_some (l := l.map fun c => (c, none)) (by simpa using hne)
    obtain ⟨c, hcl, rfl⟩ := List.mem_map.1 hx
    exact ⟨c, hcl, by rw [hb]⟩

/-- An M slot alone, without a fault of its own before its accesses. -/
theorem slotsRun_M (h : onlySlot b 0) (hf : mFaults s (msOf (slotM b)) = []) {ps : List PendW} {t : State}
    (hr : mRun s (msOf (slotM b)) s = .ok (ps, t)) : slotsRun b s = .ok (t, ps) := by
  have h0 : bPres b 0 = true := (h 0 (by omega)).2 rfl
  have h1 : bPres b 1 = false := eq_false_of_ne_true fun e => absurd ((h 1 (by omega)).1 e) (by omega)
  have h2 : bPres b 2 = false := eq_false_of_ne_true fun e => absurd ((h 2 (by omega)).1 e) (by omega)
  have h3 : bPres b 3 = false := eq_false_of_ne_true fun e => absurd ((h 3 (by omega)).1 e) (by omega)
  simp [slotsRun, h0, h1, h2, h3, hf, hr]

end

/-! ### BUNDLE_ISSUE of a bundle that is ready (R211, R214, R217) -/

theorem fetchBundle_onlyFills {va : Word} {b : BitVec 256} {s t : State} (h : fetchBundle va s = .ok (b, t)) : OnlyFills s t := by
  obtain ⟨x, u, hx, h⟩ := eBind_ok h
  have hu := exlate_onlyFills hx
  obtain ⟨v, w, hv, h⟩ := eBind_ok h
  cases hv
  cases hl : Sparse.find u.core.vcache (x.pa / 128) with
  | some l =>
    simp only [hl] at h
    cases h
    exact hu
  | none =>
    simp only [hl] at h
    split at h
    · cases h
    · split at h
      · cases h
      · split at h
        · cases h; exact hu
        · cases h; exact ⟨hu.task, hu.buf, hu.bytes, hu.comp, hu.plat⟩

/-- x is s as a bundle of command k performs in it: fetched, and under the registers that k has captured. -/
structure AsFetched (s : State) (k : Cmd) (x : State) : Prop where
  task : x.core.t = s.core.t.routedBy k
  buf : x.core.buf = s.core.buf
  bytes : x.mem.bytes = s.mem.bytes

section
variable {s s1 x : State} {k : Cmd} {b : BitVec 256}

theorem AsFetched.sameVec (h : AsFetched s k x) : SameVec s x := ⟨(congrArg Task.vec h.task).trans rfl, (congrArg Task.regs h.task).trans rfl⟩

theorem AsFetched.sameBytes (h : AsFetched s k x) : sameBytes s x := sameBytes_of ((congrArg Task.view h.task).trans rfl) h.bytes

theorem AsFetched.performs (h : AsFetched s k x) : performs b x = performs b s := by
  unfold Machine.performs
  rw [h.sameVec.vec]

theorem AsFetched.slotsOf (h : AsFetched s k x) : slotsOf x.core.t = slotsOf s.core.t := by rw [h.task]; rfl

theorem BundleReady.asFetched (h : BundleReady s s1 k b) : AsFetched s k (s1.asRouted k) := by
  have hf := fetchBundle_onlyFills h.fetched
  exact ⟨by rw [asRouted_task, hf.task], by rw [asRouted_buf, hf.buf], by rw [asRouted_mem, hf.bytes]⟩

theorem BundleReady.exec_eq (h : BundleReady s s1 k b) : exec .bundleIssue s = .next ((issueBundle k b (s1.asRouted k)).backFrom s1) := by
  obtain ⟨hph, hupc, hfpx⟩ := h.live
  have hdue : (s.vec.pend.any fun p => decide (p.left = 0)) = false := by
    rw [List.any_eq_false]
    exact fun p hp => by simpa using h.due p hp
  change execBundleIssue s = _
  simp only [execBundleIssue, h.runs, h.cmd, hdue, hfpx, hph, h.fetched, Bool.not_true, Bool.false_eq_true, if_false]
  rw [if_neg (by decide), if_neg (by omega)]
  rfl

end

/-! ### What the issue of a bundle leaves (R211, R214) -/

/-- What a bundle that has issued makes of its command: it stands at the next bundle, or has ended, drained or draining. -/
structure MovesOn (b : BitVec 256) (f : Cmd → Cmd) (next : Nat) (took : Bool) (drained : Bool) : Prop where
  upc : ∀ c, (f c).upc = next
  live : (bLast b = false ∨ took = true) → ∀ c, (f c).done = c.done
  ended : bLast b = true → took = false → drained = true → ∀ c, (f c).done = true

section
variable {s u x t : State} {k : Cmd} {b : BitVec 256} {ps : List PendW} {n : Nat} {took : Bool}

/-- The vector engine's state after a bundle: one more has issued, its results are pending, and every result is one bundle nearer (R217). -/
def VecState.counted (v : VecState) (n : Nat) (ps : List PendW) : VecState :=
  { v with bc := v.bc + 1, bidx := BitVec.ofNat 16 n, pend := (v.pend ++ ps).map fun p => { p with left := p.left - 1 } }

theorem advanceProg_eq (k : Cmd) (b : BitVec 256) (s : State) (ps : List PendW) (n : Nat) (took : Bool) :
    ∃ f, advanceProg k b s ps n took = (s.modVec (·.counted n ps)).modCmd .compute k.num f ∧
      MovesOn b f n took ((s.vec.pend ++ ps).isEmpty && !s.vec.fpx) := by
  have hpend : (s.modVec (·.counted n ps)).vec.pend.isEmpty = (s.vec.pend ++ ps).isEmpty := List.isEmpty_map
  unfold advanceProg
  dsimp only
  split
  · next hl =>
    simp only [Bool.and_eq_true, Bool.not_eq_true'] at hl
    have hno : ¬ (bLast b = false ∨ took = true) := by simp [hl]
    unfold endProgram
    split
    · exact ⟨_, rfl, fun _ => rfl, fun h => absurd h hno, fun _ _ _ _ => rfl⟩
    · next hd => exact ⟨_, rfl, fun _ => rfl, fun h => absurd h hno, fun _ _ h => absurd ((congrArg (· && !s.vec.fpx) hpend).trans h) hd⟩
  · next hl =>
    exact ⟨_, rfl, fun _ => rfl, fun _ _ => rfl, fun h1 h2 => absurd (by simp [h1, h2]) hl⟩

/-- What is left of the state that the slots have been performed in. -/
theorem backFrom_modCmd_parts (v s0 : State) (f : Cmd → Cmd) :
    let t := (v.modCmd .compute k.num f).backFrom s0
    t.core.t = { v.core.t with q := t.core.t.q, sys := t.core.t.sys } ∧ t.core.buf = v.core.buf ∧ t.mem = v.mem ∧
      t.core.t.q.compute = v.core.t.q.compute.map fun c => if c.num = k.num then f c else c := by
  refine ⟨?_, ?_, ?_, modCmd_queue (q := .compute)⟩
  · dsimp only
    rw [backFrom_task]
    rfl
  · rw [backFrom_eq]; rfl
  · rw [backFrom_eq]; rfl

theorem BundleReady.notDone (h : BundleReady s x k b) : k.done = false := by
  have hk := List.find?_some h.cmd
  simp only [Bool.and_eq_true, Bool.not_eq_true'] at hk
  exact hk.1.2

/-- A bundle that has issued, u being what its slots have written at once. -/
theorem issued_of {v s0 : State} (hr : BundleReady s x k b) (htask : v.core.t = { u.core.t with sys := v.core.t.sys }) (hbuf : v.core.buf = u.core.buf)
    (hpc : u.core.t.pc = s.core.t.pc) (hq : u.core.t.q.compute = s.core.t.q.compute) (hbc : u.vec.bc = s.vec.bc) (hp : u.vec.pend = s.vec.pend) :
    Issued s u ((advanceProg k b v ps n took).backFrom s0) k b ps n took := by
  obtain ⟨f, hf, hm⟩ := advanceProg_eq k b v ps n took
  obtain ⟨ht, hb, -, hc⟩ := backFrom_modCmd_parts (k := k) (v.modVec (·.counted n ps)) s0 f
  rw [hf]
  generalize ((v.modVec (·.counted n ps)).modCmd .compute k.num f).backFrom s0 = t at ht hb hc ⊢
  have hv : v.core.t.vec = u.core.t.vec := (congrArg Task.vec htask).trans rfl
  have hvec : t.vec = u.vec.counted n ps := (congrArg Task.vec ht).trans (congrArg (VecState.counted · n ps) hv)
  refine ⟨?_, ?_, hb.trans hbuf, ?_, ?_, fun hl c hcm hn => ?_⟩
  · rw [hvec, VecState.counted, hbc, hp]
  · exact (congrArg Task.regs ht).trans ((congrArg Task.regs htask).trans rfl)
  · exact (congrArg Task.spill ht).trans ((congrArg Task.spill htask).trans rfl)
  · exact (congrArg Task.pc ht).trans ((congrArg Task.pc htask).trans hpc)
  · have hvq : (v.modVec (·.counted n ps)).core.t.q.compute = s.core.t.q.compute :=
      (congrArg (fun t : Task => t.q.compute) htask).trans hq
    rw [hc, hvq] at hcm
    obtain ⟨d, hd, rfl⟩ := List.mem_map.1 hcm
    by_cases hdn : d.num = k.num
    · rw [if_pos hdn]
      refine ⟨hm.upc d, (hm.live hl d).trans ?_⟩
      rw [hr.alone d hd hdn]
      exact hr.notDone
    · rw [if_neg hdn] at hn
      exact absurd hn hdn

/-- The bytes that a bundle which has issued leaves. -/
theorem advanceProg_sameBytes (v s0 : State) : sameBytes v ((advanceProg k b v ps n took).backFrom s0) := by
  obtain ⟨f, hf, -⟩ := advanceProg_eq k b v ps n took
  obtain ⟨ht, -, hmem, -⟩ := backFrom_modCmd_parts (k := k) (v.modVec (·.counted n ps)) s0 f
  rw [hf]
  exact sameBytes_of ((congrArg Task.view ht).trans rfl) (congrArg Mem.bytes hmem)

/-- Where no result is left to land, a program's last bundle ends it. -/
theorem advanceProg_done {v s0 : State} (hr : BundleReady s x k b) (hq : v.core.t.q.compute = s.core.t.q.compute) (hp : v.vec.pend = [])
    (hx : v.vec.fpx = false) : ∀ c ∈ ((advanceProg k b v [] n false).backFrom s0).core.t.q.compute, c.num = k.num → c.done = bLast b := by
  obtain ⟨f, hf, hm⟩ := advanceProg_eq k b v [] n false
  obtain ⟨-, -, -, hc⟩ := backFrom_modCmd_parts (k := k) (v.modVec (·.counted n [])) s0 f
  intro c hcm hn
  rw [hf, hc] at hcm
  obtain ⟨d, hd, rfl⟩ := List.mem_map.1 hcm
  rw [show (v.modVec (·.counted n [])).core.t.q.compute = s.core.t.q.compute from hq] at hd
  by_cases hdn : d.num = k.num
  · rw [if_pos hdn]
    cases hl : bLast b with
    | false => rw [hm.live (.inl hl), hr.alone d hd hdn, hr.notDone]
    | true => exact hm.ended hl rfl (by simp [hp, hx]) d
  · rw [if_neg hdn] at hn
    exact absurd hn hdn

end

section
variable {s s1 u v x : State} {k : Cmd} {b : BitVec 256} {ps : List PendW} {n : Nat} {took : Bool}

theorem onlySlot.absent (h : onlySlot b n) {i : Nat} (hi : i < 4) (hn : i ≠ n) : bPres b i = false :=
  eq_false_of_ne_true fun e => hn ((h i hi).1 e)

theorem onlySlot.present (h : onlySlot b n) (hn : n < 4) : bPres b n = true := (h n hn).2 rfl

/-- The bundle after its slots: what it has issued to, and what it leaves. -/
theorem BundleReady.exec_issued (hr : BundleReady s s1 k b) (hi : issueBundle k b (s1.asRouted k) = advanceProg k b v ps n took)
    (htask : v.core.t = { u.core.t with sys := v.core.t.sys }) (hbuf : v.core.buf = u.core.buf)
    (hpc : u.core.t.pc = s.core.t.pc) (hq : u.core.t.q.compute = s.core.t.q.compute) (hbc : u.vec.bc = s.vec.bc) (hp : u.vec.pend = s.vec.pend) :
    ∃ t, exec .bundleIssue s = .next t ∧ Issued s u t k b ps n took ∧ sameBytes v t :=
  ⟨_, hr.exec_eq.trans (congrArg (fun y => Host.Outcome.next (y.backFrom s1)) hi), issued_of hr htask hbuf hpc hq hbc hp, advanceProg_sameBytes v s1⟩

theorem AsFetched.withSys (h : AsFetched s k x) : x.core.t = { s.core.t with sys := x.core.t.sys } := by
  rw [h.task]
  rfl

/-- A bundle whose slots have written nothing yet. -/
theorem BundleReady.exec_pending (hr : BundleReady s s1 k b) (hi : issueBundle k b (s1.asRouted k) = advanceProg k b (s1.asRouted k) ps n took) :
    ∃ t, exec .bundleIssue s = .next t ∧ Issued s s t k b ps n took ∧ sameBytes s t := by
  have hx := hr.asFetched
  obtain ⟨t, ht, hit, hb⟩ := hr.exec_issued hi hx.withSys hx.buf rfl rfl rfl rfl
  exact ⟨t, ht, hit, hx.sameBytes.trans hb⟩

theorem bundleEnd_eq (h3 : (performs b s && bPres b 3 && decide ((csOf (slotC b)).opc = 3)) = false)
    (h4 : (bPres b 3 && decide ((csOf (slotC b)).opc = 4)) = false) : bundleEnd k b s v ps = advanceProg k b v ps (k.upc + 1) false := by
  simp only [bundleEnd, h3, h4, Bool.false_eq_true, if_false]

/-- Without an M slot a bundle meets no landing slot. -/
theorem bundleSlots_of_noM (h : bPres b 0 = false) : bundleSlots s b = [] := by simp [bundleSlots, h]

theorem noHit_of_noM (h : bPres b 0 = false) : slotsHit s.core.t (if performs b s then bundleSlots s b else []) = [] := by
  rw [bundleSlots_of_noM h, ite_self, slotsHit_nil]

/-- A bundle of which no slot performs only counts. -/
theorem issueBundle_idle (hf : bundleIllop b = false)
    (h : (∀ n, n < 4 → bPres b n = false) ∨ ¬ stageOn s b ∧ ¬ (bPres b 3 = true ∧ (csOf (slotC b)).opc = 4)) :
    issueBundle k b s = advanceProg k b s [] (k.upc + 1) false := by
  rcases h with h | ⟨hs, h4⟩
  · have hr : slotsRun b s = .ok (s, []) := (slotsRun_noM (l := []) (ps := []) (h 0 (by omega)) (by simp [h]) (by simp [h])).1 rfl
    rw [issueBundle_eq hf (noHit_of_noM (h 0 (by omega))), hr, ite_self]
    exact bundleEnd_eq (by simp [h]) (by simp [h])
  · have hp : performs b s = false := eq_false_of_ne_true fun e => hs (performs_iff.1 e)
    rw [issueBundle_eq hf (by simp [hp, slotsHit_nil]), hp, if_neg Bool.false_ne_true]
    exact bundleEnd_eq (by simp [hp]) (by simpa using h4)

theorem BundleReady.exec_idle (hr : BundleReady s s1 k b)
    (h : (∀ n, n < 4 → bPres b n = false) ∨ ¬ stageOn s b ∧ ¬ (bPres b 3 = true ∧ (csOf (slotC b)).opc = 4)) :
    ∃ t, exec .bundleIssue s = .next t ∧ Issued s s t k b [] (k.upc + 1) false ∧ sameBytes s t ∧
      (s.vec.pend = [] → ∀ c ∈ t.core.t.q.compute, c.num = k.num → c.done = bLast b) := by
  have hx := hr.asFetched
  have hi : issueBundle k b (s1.asRouted k) = advanceProg k b (s1.asRouted k) [] (k.upc + 1) false :=
    issueBundle_idle hr.form (by rwa [stageOn, hx.sameVec.vec])
  refine ⟨_, hr.exec_eq.trans (congrArg (fun y => Host.Outcome.next (y.backFrom s1)) hi), ?_, ?_, fun hp => ?_⟩
  · exact issued_of hr hx.withSys hx.buf rfl rfl rfl rfl
  · exact hx.sameBytes.trans (advanceProg_sameBytes _ _)
  · exact advanceProg_done hr ((congrArg (fun t : Task => t.q.compute) hx.task).trans rfl) (by rw [hx.sameVec.vec, hp]) (by rw [hx.sameVec.vec, hr.live.2.2])

/-! ### An A or a B slot alone (R220 to R227) -/

/-- The faults and the results of an A or a B slot alone are those of the bundle. -/
theorem slotsRun_AB {w : Word} (hn : (n, w) ∈ [(1, slotA b), (2, slotB b)]) (ho : onlySlot b n) :
    (abFaults s w = [] → slotsRun b s = .ok (s, abRun s w)) ∧
    (abFaults s w ≠ [] → ∃ c ∈ abFaults s w, slotsRun b s = .error (.fault c none 0)) := by
  simp only [List.mem_cons, Prod.mk.injEq, List.not_mem_nil, or_false] at hn
  rcases hn with ⟨rfl, rfl⟩ | ⟨rfl, rfl⟩ <;>
    exact slotsRun_noM (ho.absent (by omega) (by omega)) (by simp [ho]) (by simp [ho])

theorem BundleReady.exec_AB (hr : BundleReady s s1 k b) (hs : stageOn s b) {w : Word} (hn : (n, w) ∈ [(1, slotA b), (2, slotB b)])
    (ho : onlySlot b n) (hf : abFaults s w = []) :
    ∃ t, exec .bundleIssue s = .next t ∧ Issued s s t k b (abRun s w) (k.upc + 1) false ∧ sameBytes s t := by
  have hx := hr.asFetched
  have hn3 : n ≠ 0 ∧ n ≠ 3 ∧ n < 4 := by simp at hn; omega
  have h3 := ho.absent (i := 3) (by omega) (by omega)
  have h0 := ho.absent (i := 0) (by omega) (by omega)
  refine hr.exec_pending ?_
  rw [issueBundle_eq hr.form (noHit_of_noM h0), hx.performs, performs_iff.2 hs, if_pos rfl,
    (slotsRun_AB hn ho).1 ((hx.sameVec.abFaults w).trans hf), hx.sameVec.abRun]
  exact bundleEnd_eq (by simp [h3]) (by simp [h3])

/-- A program stops at a fault of its bundle. -/
theorem stopCmd_fault (v : State) (k : Cmd) (m : Nat) (c : BitVec 8) :
    ∃ f, stopCmd v k m (.fault c none 0) = v.modCmd .compute k.num f ∧ ∀ d, ∃ g, (f d).fault = some g ∧ g.code = c :=
  ⟨_, rfl, fun _ => ⟨_, rfl, rfl⟩⟩

/-- A bundle that faults has no effect but its report: the slot, and the fault of the command (R211, R213). -/
theorem BundleReady.exec_faulting (hr : BundleReady s s1 k b) {j : BitVec 2} {c : BitVec 8}
    (hi : issueBundle k b (s1.asRouted k) = stopCmd ((s1.asRouted k).modVec fun v => { v with fslot := j }) k k.upc (.fault c none 0)) :
    ∃ t, exec .bundleIssue s = .next t ∧ t.core.t.regs = s.core.t.regs ∧ t.vec.pend = s.vec.pend ∧ t.vec.bc = s.vec.bc ∧ t.vec.fslot = j ∧
      ∀ d ∈ t.core.t.q.compute, d.num = k.num → ∃ f, d.fault = some f ∧ f.code = c := by
  have hx := hr.asFetched
  obtain ⟨f, hf, hg⟩ := stopCmd_fault ((s1.asRouted k).modVec fun v => { v with fslot := j }) k k.upc c
  obtain ⟨ht, -, -, hc⟩ := backFrom_modCmd_parts (k := k) ((s1.asRouted k).modVec fun v => { v with fslot := j }) s1 f
  refine ⟨_, hr.exec_eq.trans (congrArg (fun y => Host.Outcome.next (y.backFrom s1)) (hi.trans hf)), ?_⟩
  generalize (((s1.asRouted k).modVec fun v => { v with fslot := j }).modCmd .compute k.num f).backFrom s1 = t at ht hc ⊢
  have hv : t.vec = { s.vec with fslot := j } := by
    refine (congrArg Task.vec ht).trans ?_
    change { (s1.asRouted k).vec with fslot := j } = _
    rw [hx.sameVec.vec]
  refine ⟨((congrArg Task.regs ht).trans rfl).trans hx.sameVec.regs, by rw [hv], by rw [hv], by rw [hv], fun d hd hn => ?_⟩
  rw [hc] at hd
  obtain ⟨e, -, rfl⟩ := List.mem_map.1 hd
  by_cases he : e.num = k.num
  · rw [if_pos he]
    exact hg e
  · rw [if_neg he] at hn
    exact absurd hn he

/-- The slot that an A or a B slot's fault is reported with. -/
theorem faultSlot_AB {w : Word} (hn : (n, w) ∈ [(1, slotA b), (2, slotB b)]) (ho : onlySlot b n) {c : BitVec 8} (hc : c ∈ abFaults s w) :
    (faultSlot b s (.fault c none 0)).toNat = n := by
  simp only [List.mem_cons, Prod.mk.injEq, List.not_mem_nil, or_false] at hn
  rcases hn with ⟨rfl, rfl⟩ | ⟨rfl, rfl⟩
  · simp [faultSlot, ho.absent (i := 0), ho.present, hc]
  · simp [faultSlot, ho.absent (i := 0), ho.absent (i := 1), ho.present, hc]

theorem BundleReady.exec_AB_fault (hr : BundleReady s s1 k b) (hs : stageOn s b) {w : Word} (hn : (n, w) ∈ [(1, slotA b), (2, slotB b)])
    (ho : onlySlot b n) (hf : abFaults s w ≠ []) :
    ∃ t, exec .bundleIssue s = .next t ∧ t.core.t.regs = s.core.t.regs ∧ t.vec.pend = s.vec.pend ∧ t.vec.bc = s.vec.bc ∧ t.vec.fslot.toNat = n ∧
      ∀ d ∈ t.core.t.q.compute, d.num = k.num → ∃ f, d.fault = some f ∧ f.code ∈ abFaults s w := by
  have hx := hr.asFetched
  have hn0 : n ≠ 0 := by simp at hn; omega
  obtain ⟨c, hc, hsr⟩ := (slotsRun_AB (s := s1.asRouted k) hn ho).2 (by rwa [hx.sameVec.abFaults])
  obtain ⟨t, ht, h1, h2, h3, h4, h5⟩ := hr.exec_faulting (j := faultSlot b (s1.asRouted k) (.fault c none 0)) (c := c) (by
    rw [issueBundle_eq hr.form (noHit_of_noM (ho.absent (by omega) hn0.symm)), hx.performs, performs_iff.2 hs, if_pos rfl, hsr])
  refine ⟨t, ht, h1, h2, h3, by rw [h4, faultSlot_AB hn ho hc], fun d hd hdn => ?_⟩
  obtain ⟨f, hdf, rfl⟩ := h5 d hd hdn
  exact ⟨f, hdf, hx.sameVec.abFaults w ▸ hc⟩

end

end Sys2Proof.Machine
end

section
/-! A bundle with a C slot: VMOVS, VLOOP and the others (R231, R232, O44). -/

namespace Sys2Proof.Machine

/-! ### A C slot alone (R231, R232) -/

section
variable {s s1 x : State} {k : Cmd} {b : BitVec 256}

theorem slotsRun_C (ho : onlySlot b 3) (hf : cFaults s (slotC b) = []) : slotsRun b s = .ok (s, cPends s (slotC b)) :=
  (slotsRun_noM (ho.absent (by omega) (by omega)) (by simp [ho]) (by simp [ho])).1 hf

/-- A bundle of one C slot performs it, and ends. -/
theorem BundleReady.issue_C (hr : BundleReady s s1 k b) (hs : stageOn s b) (ho : onlySlot b 3) (hf : cFaults s (slotC b) = []) :
    issueBundle k b (s1.asRouted k) = bundleEnd k b (s1.asRouted k) (s1.asRouted k) (cPends s (slotC b)) := by
  have hx := hr.asFetched
  rw [issueBundle_eq hr.form (noHit_of_noM (ho.absent (by omega) (by omega))), hx.performs, performs_iff.2 hs, if_pos rfl,
    slotsRun_C ho ((hx.sameVec.cFaults _).trans hf), hx.sameVec.cPends]

/-- VPERM, VBCAST and KOP leave their result pending. -/
theorem BundleReady.exec_C (hr : BundleReady s s1 k b) (hs : stageOn s b) (ho : onlySlot b 3) (hf : cFaults s (slotC b) = [])
    (h3 : (csOf (slotC b)).opc ≠ 3) (h4 : (csOf (slotC b)).opc ≠ 4) :
    ∃ t, exec .bundleIssue s = .next t ∧ Issued s s t k b (cPends s (slotC b)) (k.upc + 1) false ∧ sameBytes s t :=
  hr.exec_pending ((hr.issue_C hs ho hf).trans (bundleEnd_eq (by simp [h3]) (by simp [h4])))

theorem cPends_of_none (h : (csOf (slotC b)).opc = 3 ∨ (csOf (slotC b)).opc = 4) : cPends s (slotC b) = [] := by
  rcases h with h | h <;> simp [cPends, h]

/-! ### VMOVS (R231) -/

/-- A selector's write keeps all but the register it names. -/
theorem AsFetched.selSet (h : AsFetched s k x) (n : Nat) (y : Word) : AsFetched (selSet s n y) k (selSet x n y) := by
  unfold Machine.selSet
  split_ifs <;> exact ⟨by simp [State.modVec, h.task, Task.routedBy], h.buf, h.bytes⟩

theorem selSet_task (s : State) (n : Nat) (y : Word) : (selSet s n y).core.t =
    { s.core.t with regs := (selSet s n y).core.t.regs, vec := { (selSet s n y).core.t.vec with bc := s.vec.bc, pend := s.vec.pend } } := by
  unfold selSet
  split_ifs <;> rfl

theorem selSet_sameBytes (s : State) (n : Nat) (y : Word) : sameBytes s (selSet s n y) := by
  unfold selSet
  split_ifs <;> exact sameBytes_of rfl rfl

/-- What a selector reads after a write to it, modulo its width. -/
theorem selGet_selSet {n : Nat} (hn : selOk n = true) (y : Word) :
    (selGet (selSet s n y) n).toNat = y.toNat % 2 ^ (match n with | 0 | 1 | 2 | 3 => 32 | 0x10 => 7 | 0x11 => 5 | 0x12 => 3 | _ => 64) := by
  have hn' : n ≤ 3 ∨ 8 ≤ n ∧ n ≤ 18 := by simpa [selOk] using hn
  by_cases h4 : n < 4
  · simp [selGet, selSet, h4, State.modR]
    have hy : y.toNat % 4294967296 % 18446744073709551616 = y.toNat % 2 ^ 32 := by omega
    interval_cases n <;> exact hy
  · by_cases h16 : n < 16
    · have h8 : 8 ≤ n ∧ n < 16 := by omega
      have hy := Nat.mod_eq_of_lt y.isLt
      simp [selGet, selSet, h4, h8, State.modVec, State.vec]
      interval_cases n <;> exact hy.symm
    · obtain ⟨hl, hu⟩ : 16 ≤ n ∧ n ≤ 18 := by omega
      interval_cases n <;> simp [selGet, selSet, State.modVec, State.vec] <;> omega

theorem vmovs_eq (h : SameVec s x) (c : CS) (v : State) : vmovs x c v = selSet v c.d.toNat
    ((if 2 ≤ c.fn then selGet s c.d.toNat else 0) + (if c.fn % 2 = 1 then c.imm.signExtend 64 else selGet s c.a.toNat)) := by
  unfold vmovs
  simp only [h.selGet, sx]
  split_ifs <;> simp

theorem BundleReady.exec_vmovs (hr : BundleReady s s1 k b) (hs : stageOn s b) (ho : onlySlot b 3) (hf : cFaults s (slotC b) = [])
    (h3 : (csOf (slotC b)).opc = 3) :
    let c := csOf (slotC b)
    let x := (if 2 ≤ c.fn then selGet s c.d.toNat else 0) + (if c.fn % 2 = 1 then c.imm.signExtend 64 else selGet s c.a.toNat)
    ∃ t, exec .bundleIssue s = .next t ∧ Issued s (Machine.selSet s c.d.toNat x) t k b [] (k.upc + 1) false ∧ sameBytes s t := by
  intro c y
  have hx := hr.asFetched
  have hp : performs b (s1.asRouted k) = true := hx.performs.trans (performs_iff.2 hs)
  have hi : issueBundle k b (s1.asRouted k) = advanceProg k b (Machine.selSet (s1.asRouted k) c.d.toNat y) [] (k.upc + 1) false := by
    rw [hr.issue_C hs ho hf, cPends_of_none (.inl h3)]
    simp [bundleEnd, hp, ho.present (show 3 < 4 by omega), h3, vmovs_eq hx.sameVec, c, y]
  have hv := hx.selSet c.d.toNat y
  have hu := selSet_task s c.d.toNat y
  obtain ⟨t, ht, hit, hb⟩ := hr.exec_issued (u := Machine.selSet s c.d.toNat y) hi hv.withSys hv.buf ((congrArg Task.pc hu).trans rfl)
    ((congrArg (fun t : Task => t.q.compute) hu).trans rfl) ((congrArg (fun t : Task => t.vec.bc) hu).trans rfl)
    ((congrArg (fun t : Task => t.vec.pend) hu).trans rfl)
  exact ⟨t, ht, hit, (selSet_sameBytes s c.d.toNat y).trans (hv.sameBytes.trans hb)⟩

/-- The issue of a bundle changes no register that a selector names. -/
theorem Issued.selGet {u t : State} {q : List PendW} {n : Nat} {loops : Bool} (h : Issued s u t k b q n loops) (m : Nat) : selGet t m = selGet u m := by
  have ha : t.vec.a = u.vec.a := by rw [h.vec]
  have hsp : t.vec.sp = u.vec.sp := by rw [h.vec]
  have hr : t.vec.rrb = u.vec.rrb := by rw [h.vec]
  have hm : t.vec.mrb = u.vec.mrb := by rw [h.vec]
  simp only [Machine.selGet, h.regs, ha, hsp, hr, hm]

/-! ### VLOOP (R232) -/

/-- The low bits of the stage predicate, as VLOOP reads them. -/
theorem stage_bits (sp : BitVec 7) (n : Nat) : ((sp &&& BitVec.ofNat 7 (2 ^ n - 1)) != 0) = decide (sp.toNat % 2 ^ n ≠ 0) := by
  have h : (sp &&& BitVec.ofNat 7 (2 ^ n - 1)).toNat = sp.toNat % 2 ^ n := by
    refine Nat.eq_of_testBit_eq fun i => ?_
    rw [BitVec.toNat_and, BitVec.toNat_ofNat, Nat.testBit_and, Nat.testBit_mod_two_pow, Nat.testBit_two_pow_sub_one, Nat.testBit_mod_two_pow]
    by_cases hi : i < 7
    · simp [hi, Bool.and_comm]
    · simp [BitVec.testBit_toNat, BitVec.getLsbD_of_ge sp i (by omega)]
  rw [Bool.eq_iff_iff, bne_iff_ne, decide_eq_true_eq, ne_eq, ne_eq, ← BitVec.toNat_inj, h]
  rfl

/-- VLOOP with its stage predicate, its count and its decision. -/
def vloopTo (v : State) (c : CS) (m : Nat) (sp : BitVec 7) (l : BitVec 32) (take : Bool) : Option (State × Nat × Bool) :=
  let t : Int := if take then (m : Int) + c.imm.toInt else m + 1
  if take && (t < 0 || 65535 < t) then none
  else some ((v.modR fun r => { r with lc := r.lc.set (c.d.extractLsb' 0 2).toFin l }).modVec fun k =>
    { k with sp := sp, rrb := k.rrb - 1, mrb := k.mrb - 1 }, t.toNat, take)

/-- The decision of VLOOP: the target, nothing where that is out of range, or the next bundle. -/
theorem vloop_eq (v : State) (c : CS) (m : Nat) :
    let n : Fin 4 := (c.d.extractLsb' 0 2).toFin
    let l := v.core.t.regs.lc[n]
    let sp := (v.vec.sp <<< 1) ||| (if l = 0 then 0 else 1)
    vloop v c m = vloopTo v c m sp (if l = 0 then 0 else l - 1) (decide (sp.toNat % 2 ^ c.f4.toNat ≠ 0)) := by
  intro n l sp
  have hin : (if (l != 0) = true then (1 : BitVec 7) else 0) = if l = 0 then 0 else 1 := by by_cases h : l = 0 <;> simp [h]
  have hdec : (if (l != 0) = true then l - 1 else l) = if l = 0 then 0 else l - 1 := by
    by_cases h : l = 0
    · rw [h]; rfl
    · rw [if_pos (bne_iff_ne.2 h), if_neg h]
  have hdef : vloop v c m = vloopTo v c m ((v.vec.sp <<< 1) ||| (if (l != 0) = true then (1 : BitVec 7) else 0)) (if (l != 0) = true then l - 1 else l)
      (((v.vec.sp <<< 1) ||| (if (l != 0) = true then (1 : BitVec 7) else 0)) &&& BitVec.ofNat 7 (2 ^ c.f4.toNat - 1) != 0) := rfl
  rw [hdef, hin, hdec, stage_bits]

/-- The state after VLOOP's count: the loop counter, the stage predicate and the rotations (R232). -/
def looped (v : State) (c : CS) (sp : BitVec 7) (l : BitVec 32) : State :=
  (v.modR fun r => { r with lc := r.lc.set (c.d.extractLsb' 0 2).toFin l }).modVec fun k => { k with sp := sp, rrb := k.rrb - 1, mrb := k.mrb - 1 }

theorem AsFetched.looped (h : AsFetched s k x) (c : CS) (sp : BitVec 7) (l : BitVec 32) : AsFetched (looped s c sp l) k (looped x c sp l) :=
  ⟨by simp [Machine.looped, State.modVec, h.task, Task.routedBy], h.buf, h.bytes⟩

/-- A bundle of a VLOOP alone decides it, whether or not its stage is on. -/
theorem BundleReady.issue_loop (hr : BundleReady s s1 k b) (ho : onlySlot b 3) (h4 : (csOf (slotC b)).opc = 4) :
    (vloop (s1.asRouted k) (csOf (slotC b)) k.upc = none →
      issueBundle k b (s1.asRouted k) = stopCmd ((s1.asRouted k).modVec fun v => { v with fslot := 3 }) k k.upc (.fault cILLOP none 0)) ∧
    ∀ v next took, vloop (s1.asRouted k) (csOf (slotC b)) k.upc = some (v, next, took) →
      issueBundle k b (s1.asRouted k) = advanceProg k b v [] next took := by
  have hf : cFaults (s1.asRouted k) (slotC b) = [] := by simp [cFaults, h4]
  have he : issueBundle k b (s1.asRouted k) = bundleEnd k b (s1.asRouted k) (s1.asRouted k) [] := by
    rw [issueBundle_eq hr.form (noHit_of_noM (ho.absent (by omega) (by omega))), slotsRun_C ho hf, cPends_of_none (.inr h4), ite_self]
  have h3 := ho.present (show 3 < 4 by omega)
  rw [he]
  exact ⟨fun hv => by simp [bundleEnd, h3, h4, hv], fun v next took hv => by simp [bundleEnd, h3, h4, hv]⟩

theorem BundleReady.exec_loop (hr : BundleReady s s1 k b) (ho : onlySlot b 3) (h4 : (csOf (slotC b)).opc = 4) :
    let c := csOf (slotC b)
    let n : Fin 4 := (c.d.extractLsb' 0 2).toFin
    let v := s.core.t.regs.lc[n]
    let sp := (s.vec.sp <<< 1) ||| (if v = 0 then 0 else 1)
    let loops : Bool := sp.toNat % 2 ^ c.f4.toNat ≠ 0
    let target : Int := k.upc + c.imm.toInt
    let u := looped s c sp (if v = 0 then 0 else v - 1)
    (loops = false → ∃ t, exec .bundleIssue s = .next t ∧ Issued s u t k b [] (k.upc + 1) false ∧ sameBytes s t) ∧
    (loops = true → 0 ≤ target ∧ target < 65536 →
      ∃ t, exec .bundleIssue s = .next t ∧ Issued s u t k b [] target.toNat true ∧ sameBytes s t) ∧
    (loops = true → ¬ (0 ≤ target ∧ target < 65536) → ∃ t, exec .bundleIssue s = .next t ∧ t.core.t.regs = s.core.t.regs ∧ t.vec.bc = s.vec.bc ∧
      ∀ c ∈ t.core.t.q.compute, c.num = k.num → ∃ f, c.fault = some f ∧ f.code = cILLOP) := by
  intro c n v sp loops target u
  have hx := hr.asFetched
  have hu := hx.looped c sp (if v = 0 then 0 else v - 1)
  have hl : vloop (s1.asRouted k) c k.upc = vloopTo (s1.asRouted k) c k.upc sp (if v = 0 then 0 else v - 1) loops := by
    rw [vloop_eq, hx.sameVec.vec, hx.sameVec.regs]
  obtain ⟨hstop, hnext⟩ := hr.issue_loop ho h4
  rw [hl] at hstop hnext
  have issues {m took} (hto : vloopTo (s1.asRouted k) c k.upc sp (if v = 0 then 0 else v - 1) loops =
      some (looped (s1.asRouted k) c sp (if v = 0 then 0 else v - 1), m, took)) :
      ∃ t, exec .bundleIssue s = .next t ∧ Issued s u t k b [] m took ∧ sameBytes s t := by
    obtain ⟨t, ht, hit, hb⟩ := hr.exec_issued (hnext _ _ _ hto) hu.withSys hu.buf rfl rfl rfl rfl
    exact ⟨t, ht, hit, .trans (sameBytes_of rfl rfl) (hu.sameBytes.trans hb)⟩
  refine ⟨fun h => issues (by simp only [vloopTo, h]; rfl), fun h ht => issues ?_, fun h ht => ?_⟩
  · simp only [vloopTo, h]
    rw [if_neg (by simp; omega)]
    rfl
  · have hto : vloopTo (s1.asRouted k) c k.upc sp (if v = 0 then 0 else v - 1) loops = none := by
      simp only [vloopTo, h]
      rw [if_pos (by simp; omega)]
    obtain ⟨t, ht, h1, -, h3, -, h5⟩ := hr.exec_faulting (hstop hto)
    exact ⟨t, ht, h1, h3, h5⟩

end

end Sys2Proof.Machine
end

section
/-! The M slot: loads, stores and global accesses (R228 to R230, O44). -/

namespace Sys2Proof.Machine

/-! ### The accesses of an M slot (R228 to R230) -/

section
variable {s x : State} {k : Cmd} {m : MS}

theorem SameVec.mFmt (h : SameVec s x) (m : MS) : mFmt x m = mFmt s m := by rw [Machine.mFmt, Machine.mFmt, h.vreg]

theorem SameVec.gthCount (h : SameVec s x) (m : MS) : gthCount x m = gthCount s m := by rw [Machine.gthCount, Machine.gthCount, h.vreg]

theorem SameVec.mAccesses (h : SameVec s x) (m : MS) : mAccesses x m = mAccesses s m := by
  have hg : gthIdx x m = gthIdx s m := funext fun p => by rw [gthIdx, gthIdx, h.vreg]
  simp only [Machine.mAccesses, mBase, h.mFmt, h.gthCount, h.mask, h.vec, hg]

theorem AsFetched.mFaults (h : AsFetched s k x) (m : MS) : mFaults x m = mFaults s m := by
  have hv := h.sameVec
  have hb : mBase x m = mBase s m := by rw [mBase, mBase, hv.vec]
  have hm (l) : meetsSlot x.core.t l = meetsSlot s.core.t l := by rw [h.task]; rfl
  have ht (l) : meetsTop x.core.t l = meetsTop s.core.t l := by rw [h.task]; rfl
  simp only [Machine.mFaults, hv.vreg, hv.mask, hv.maskPois, hv.mAccesses, hv.mFmt, hv.gthCount, hb, hm, ht, h.buf]

/-- An M slot without faults of its own lies within its space, and a gather's indices within the register. -/
theorem mFaults_nil (h : mFaults s m = []) (h2 : m.spc ≠ 2) :
    (∀ a ∈ mAccesses s m, 0 ≤ a.at_) ∧ (m.opc = 4 → gthCount s m ≤ vCount (mFmt s m)) := by
  unfold mFaults at h
  dsimp only at h
  split at h
  · cases h
  · simp only [List.append_eq_nil_iff, ite_eq_right_iff, reduceCtorEq, imp_false] at h
    obtain ⟨⟨⟨⟨⟨⟨⟨hill, -⟩, hoob⟩, -⟩, -⟩, -⟩, -⟩, -⟩ := h
    refine ⟨fun a ha => ?_, fun h4 => ?_⟩
    · by_contra hn
      refine hoob ?_
      simp only [Bool.and_eq_true, List.any_eq_true]
      exact ⟨by simpa using h2, a, ha, by simp; omega⟩
    · by_contra hn
      exact hill (by simp [h4]; omega)

/-- The address of element e (R229, R230). -/
def mPlace (s : State) (m : MS) (e : Nat) : Int := (mBase s m).toNat + (match m.opc with
  | 3 => (e : Int) * (s.vec.a[(m.xv.extractLsb' 0 3).toFin]).toInt
  | 4 => ((vBits (mFmt s m) / 8 : Nat) : Int) * gthIdx s m e
  | _ => ((e * vBits (mFmt s m) / 8 : Nat) : Int))

/-- Without strides and indices the elements lie in a row. -/
theorem mPlace_row (h : m.opc < 3) (e : Nat) : mPlace s m e = (mBase s m).toNat + ((e * vBits (mFmt s m) / 8 : Nat) : Int) := by
  unfold mPlace
  generalize m.opc = o at h ⊢
  interval_cases o <;> rfl

/-- How many elements an M slot moves. -/
def mCount (s : State) (m : MS) : Nat := if m.opc = 4 then gthCount s m else vCount (mFmt s m)

/-- Whether an M slot moves element e. -/
def mOn (s : State) (m : MS) (e : Nat) : Bool := decide (e < mCount s m) && vActive (s.mask m.km) (vBits (mFmt s m)) e

/-- What an M slot names, beside global memory: its elements are bytes, or pairs to a byte in a row, and no more than the register's. -/
structure MPlain (s : State) (m : MS) : Prop where
  space : m.spc = 0 ∨ m.spc = 1 ∨ m.spc = 3
  whole : 3 ≤ m.opc → vBits (mFmt s m) ≠ 4
  count : m.opc = 4 → gthCount s m ≤ vCount (mFmt s m)
  low : ∀ a ∈ mAccesses s m, 0 ≤ a.at_

theorem MPlain.notGlobal (h : MPlain s m) : m.spc ≠ 2 := by
  have := h.space
  omega

theorem MPlain.le (h : MPlain s m) : mCount s m ≤ vCount (mFmt s m) := by
  unfold mCount
  split
  · next h4 => exact h.count h4
  · exact le_rfl

/-- The half bytes of a pair of elements that take part. -/
def halfBits (s : State) (m : MS) (i : Nat) : BitVec 8 :=
  (if vActive (s.mask m.km) 4 (2 * i) then 0x0F else 0) ||| (if vActive (s.mask m.km) 4 (2 * i + 1) then 0xF0 else 0)

theorem getLsbD_halfBits {i j : Nat} (hj : j < 8) : (halfBits s m i).getLsbD j = vActive (s.mask m.km) 4 (2 * i + j / 4) := by
  have hb : ∀ (p q : Bool) (j : Fin 8), ((if p then (0x0F : BitVec 8) else 0) ||| (if q then 0xF0 else 0)).getLsbD j = if j.val < 4 then p else q := by
    decide
  refine (hb _ _ ⟨j, hj⟩).trans ?_
  dsimp only
  split
  · next h4 => rw [Nat.div_eq_of_lt h4]; rfl
  · rw [show j / 4 = 1 by omega]

/-- Accesses of half bytes: a byte for each pair of elements of which one is active. -/
theorem mAccesses_half (hz : vBits (mFmt s m) = 4) (h2 : m.spc ≠ 2) (a : MAcc) : a ∈ mAccesses s m ↔
    ∃ i, i < 512 ∧ halfBits s m i ≠ 0 ∧ a = ⟨i, (mBase s m).toNat + (i : Int), 1, halfBits s m i⟩ := by
  unfold mAccesses
  simp only [hz, if_true, List.mem_filterMap, List.mem_range, mAt, h2, if_false]
  refine exists_congr fun i => and_congr_right fun _ => ?_
  change (if halfBits s m i = 0 then none else some (⟨i, (mBase s m).toNat + (i : Int), 1, halfBits s m i⟩ : MAcc)) = some a ↔ _
  by_cases h0 : halfBits s m i = 0
  · simp [h0]
  · simp only [h0, if_false, ne_eq, not_false_eq_true, true_and, Option.some.injEq]
    exact eq_comm

theorem bits_whole {f : BitVec 4} (hz : vBits f ≠ 4) : vBits f = 8 * (vBits f / 8) := by
  rcases vBits_cases f with hv | hv | hv | hv | hv
  · exact absurd hv hz
  all_goals rw [hv]

/-- Accesses of elements of whole bytes: one for each active element. -/
theorem mAccesses_whole (hz : vBits (mFmt s m) ≠ 4) (h : MPlain s m) (a : MAcc) : a ∈ mAccesses s m ↔ ∃ e, mOn s m e = true ∧
    a = ⟨e * (vBits (mFmt s m) / 8), mPlace s m e, vBits (mFmt s m) / 8, 0xFF⟩ := by
  have hc : (if m.opc = 4 then min (gthCount s m) (vCount (mFmt s m)) else vCount (mFmt s m)) = mCount s m := by
    unfold mCount
    split
    · next h4 => exact min_eq_left (h.count h4)
    · rfl
  have h8 (e : Nat) : e * vBits (mFmt s m) / 8 = e * (vBits (mFmt s m) / 8) := by
    conv_lhs => rw [bits_whole hz, Nat.mul_left_comm, Nat.mul_div_cancel_left _ (by omega)]
  unfold mAccesses
  simp only [hz, if_false, hc, List.mem_map, List.mem_filter, List.mem_range, mAt, h.notGlobal, mOn, Bool.and_eq_true, decide_eq_true_eq]
  refine exists_congr fun e => and_congr_right fun _ => eq_comm.trans (Eq.congr_right ?_)
  simp only [mPlace, h8] <;> rfl

/-- The bytes that an access touches are those of the elements which lie in them, at these elements' addresses. -/
theorem MPlain.access (h : MPlain s m) {a : MAcc} (ha : a ∈ mAccesses s m) {i j : Nat} (hi : i < a.n) (hj : j < 8) :
    let z := vBits (mFmt s m)
    let e := (8 * (a.reg + i) + j) / z
    a.reg + i < 512 ∧ a.at_ + i = mPlace s m e + ((8 * (a.reg + i) + j) % z / 8 : Nat) ∧ a.bits.getLsbD j = mOn s m e := by
  intro z e
  have hle := h.le
  have hs := elemSize (mFmt s m)
  by_cases hz : vBits (mFmt s m) = 4
  · obtain ⟨r, hr, -, rfl⟩ := (mAccesses_half hz h.notGlobal a).1 ha
    dsimp only at hi
    obtain rfl : i = 0 := by omega
    have ho : m.opc < 3 := Nat.lt_of_not_le fun ho => h.whole ho hz
    have he : e = 2 * r + j / 4 := by simp only [e, z, hz]; omega
    have hc : mCount s m = 1024 := by simp [mCount, vCount, hz, show m.opc ≠ 4 by omega]
    refine ⟨hr, ?_, ?_⟩
    · rw [he, mPlace_row ho]
      simp only [z, hz]
      omega
    · rw [getLsbD_halfBits hj, mOn, hz, hc, he, decide_eq_true (by omega), Bool.true_and]
  · obtain ⟨p, hp, rfl⟩ := (mAccesses_whole hz h a).1 ha
    dsimp only at hi
    have hpn : p < vCount (mFmt s m) := by
      simp only [mOn, Bool.and_eq_true, decide_eq_true_eq] at hp
      omega
    have hlt := hs.lt hpn
    have h8 := bits_whole hz
    have hj8 : 8 * i + j < z := by omega
    have hsum : 8 * (p * (vBits (mFmt s m) / 8) + i) + j = p * z + (8 * i + j) := by rw [Nat.mul_add, Nat.mul_left_comm, ← h8, Nat.add_assoc]
    obtain ⟨h4096, hdiv, hmod⟩ := getLsbD_place hs hpn hj8
    have h512 : 8 * (p * (vBits (mFmt s m) / 8) + i) + j < 4096 := hsum ▸ h4096
    dsimp only [e]
    rw [hsum, hdiv, hmod, hp]
    exact ⟨by omega, by rw [show (8 * i + j) / 8 = i by omega], by interval_cases j <;> rfl⟩

/-- Every bit that an M slot moves is one of an access. -/
theorem MPlain.covered (h : MPlain s m) {i : Nat} (hi : i < 4096) (ho : mOn s m (i / vBits (mFmt s m)) = true) :
    ∃ a ∈ mAccesses s m, ∃ r, r < a.n ∧ i / 8 = a.reg + r := by
  have hs := elemSize (mFmt s m)
  by_cases hz : vBits (mFmt s m) = 4
  · have hb : (halfBits s m (i / 8)).getLsbD (i % 8) = true := by
      rw [hz, mOn, hz, Bool.and_eq_true] at ho
      rw [getLsbD_halfBits (by omega), show 2 * (i / 8) + i % 8 / 4 = i / 4 by omega]
      exact ho.2
    have hne : halfBits s m (i / 8) ≠ 0 := fun h0 => by rw [h0] at hb; simp at hb
    exact ⟨_, (mAccesses_half hz h.notGlobal _).2 ⟨i / 8, by omega, hne, rfl⟩, 0, Nat.one_pos, rfl⟩
  · refine ⟨_, (mAccesses_whole hz h _).2 ⟨_, ho, rfl⟩, i % vBits (mFmt s m) / 8, ?_, ?_⟩
    · have := bits_whole hz
      have := Nat.mod_lt i hs.pos
      dsimp only
      omega
    · have h8 : 8 * (i / vBits (mFmt s m) * (vBits (mFmt s m) / 8)) = i / vBits (mFmt s m) * vBits (mFmt s m) := by
        rw [Nat.mul_left_comm, ← bits_whole hz]
      have := Nat.div_add_mod' i (vBits (mFmt s m))
      dsimp only
      omega

end

/-! ### Loads of an M slot (R229, R230) -/

section
variable {s x : State} {k : Cmd} {m : MS}

/-- The memory that an M slot names, beside global memory. -/
def mMem (m : MS) (s : State) : Sparse Byte := match m.spc with | 0 => s.core.buf.ab | 1 => s.core.buf.wb | _ => s.core.t.spill

/-- The bytes that an access has read. -/
structure ReadOf (m : MS) (s : State) (r : MAcc × List GByte) : Prop where
  length : r.2.length = r.1.n
  byte : ∀ i, i < r.1.n → (r.2.getD i ⟨0, false, false⟩).b = Sparse.get 0 (mMem m s) (r.1.at_.toNat + i)

theorem eCarryB_ok {sp : Nat} (hsp : sp ≤ 1) (off n : Nat) : ∃ bs, eCarryB sp off n s = .ok (bs, s) ∧ bs.length = n ∧
    ∀ i, i < n → (bs.getD i ⟨0, false, false⟩).b = Sparse.get 0 (s.core.buf.mem sp) (off + i) := by
  refine ⟨_, rfl, by simp, fun i hi => ?_⟩
  simp [hi, Buffers.read, readBytes, show sp ≠ 2 by omega]

theorem mRead_ok (h : MPlain s m) (s' : State) (a : MAcc) : ∃ bs, mRead m a s' = .ok (bs, s') ∧ ReadOf m s' (a, bs) := by
  have carry (b : Nat) (hb : b ≤ 1) (hm : mMem m s' = s'.core.buf.mem b) (he : mRead m a = eCarryB b a.at_.toNat a.n) :
      ∃ bs, mRead m a s' = .ok (bs, s') ∧ ReadOf m s' (a, bs) := by
    obtain ⟨bs, h1, h2, h3⟩ := eCarryB_ok (s := s') hb a.at_.toNat a.n
    exact ⟨bs, he ▸ h1, h2, hm ▸ h3⟩
  rcases h.space with h0 | h1 | h3
  · exact carry 1 le_rfl (by simp [mMem, h0, Buffers.mem]) (by simp [mRead, h0, spcBuf])
  · exact carry 0 (by omega) (by simp [mMem, h1, Buffers.mem]) (by simp [mRead, h1, spcBuf])
  · refine ⟨(List.range a.n).map fun i =>
      ⟨Sparse.get 0 s'.core.t.spill (a.at_.toNat + i), setHas s'.core.t.spPois ((a.at_.toNat + i) / 8), false⟩, ?_, by simp, fun i hi => ?_⟩
    · simp only [mRead, h3]
      rfl
    · dsimp only at hi
      simp [mMem, h3, hi]

theorem mReads_ok (h : MPlain s m) (l : List MAcc) : ∃ rs, mReads m l s = .ok (rs, s) ∧ rs.map (·.1) = l ∧ ∀ r ∈ rs, ReadOf m s r := by
  induction l with
  | nil => exact ⟨[], rfl, rfl, fun _ h => absurd h List.not_mem_nil⟩
  | cons a l ih =>
    obtain ⟨rs, h1, h2, h3⟩ := ih
    obtain ⟨bs, h4, h5⟩ := mRead_ok h s a
    refine ⟨(a, bs) :: rs, ?_, by rw [List.map_cons, h2], ?_⟩
    · simp only [mReads, bind, StateT.bind, Except.bind, h4, h1]
      rfl
    · rintro r (_ | ⟨_, hr⟩)
      · exact h5
      · exact h3 r hr

theorem getLsbD_foldl_foldl_or {α β : Type} {w : Nat} (l : List α) (r : α → List β) (f : α → β → BitVec w) (d : BitVec w) (i : Nat) :
    (l.foldl (fun acc x => (r x).foldl (fun acc y => acc ||| f x y) acc) d).getLsbD i =
      (d.getLsbD i || l.any fun x => (r x).any fun y => (f x y).getLsbD i) := by
  induction l generalizing d with
  | nil => simp
  | cons x l ih => rw [List.foldl_cons, ih, getLsbD_foldl_or, List.any_cons, Bool.or_assoc]

/-- The byte of a register that one byte read gives. -/
theorem getLsbD_byteAt (v : BitVec 8) {r i : Nat} (hi : i < 4096) : ((v.setWidth 4096) <<< (8 * r)).getLsbD i = (decide (i / 8 = r) && v.getLsbD (i % 8)) := by
  rw [BitVec.getLsbD_shiftLeft, BitVec.getLsbD_setWidth]
  by_cases h : i / 8 = r
  · simp [hi, h, show ¬ i < 8 * r by omega, show i - 8 * r = i % 8 by omega, show i % 8 < 4096 by omega]
  · by_cases hl : i < 8 * r
    · simp [hl, h]
    · simp [h, BitVec.getLsbD_of_ge v (i - 8 * r) (by omega)]

theorem getLsbD_mKeep (f : BitVec 4) (i : Nat) : (mKeep f (i / 8)).getLsbD (i % 8) = !decide (f = 0xB ∧ 56 ≤ i % 64) := by
  have hj : i % 8 < 8 := Nat.mod_lt i (by omega)
  unfold mKeep
  by_cases h : f = 0xB ∧ 56 ≤ i % 64
  · simp [h.1, h.2, show i / 8 % 8 = 7 by omega]
  · have hn : ¬ ((f = 0xB && i / 8 % 8 = 7) = true) := by
      rw [Bool.and_eq_true, decide_eq_true_eq, decide_eq_true_eq]
      exact fun ⟨hf, h7⟩ => h ⟨hf, by omega⟩
    rw [if_neg hn, decide_eq_false h]
    interval_cases i % 8 <;> rfl

/-- The bits that a load's accesses bring. -/
theorem getLsbD_load (h : MPlain s m) {rs : List (MAcc × List GByte)} (hl : rs.map (·.1) = mAccesses s m) (hr : ∀ r ∈ rs, ReadOf m s r) {i : Nat} (hi : i < 4096) :
    (rs.any fun r => (List.range r.2.length).any fun j => ((((r.2.getD j ⟨0, false, false⟩).b &&& r.1.bits &&& mKeep (mFmt s m) (r.1.reg + j)).setWidth 4096)
      <<< (8 * (r.1.reg + j))).getLsbD i) =
    (mOn s m (i / vBits (mFmt s m)) && !decide (mFmt s m = 0xB ∧ 56 ≤ i % 64) &&
      (Sparse.get 0 (mMem m s) (mPlace s m (i / vBits (mFmt s m)) + (i % vBits (mFmt s m) / 8 : Nat)).toNat).getLsbD (i % 8)) := by
  have key {r : MAcc × List GByte} (hm : r ∈ rs) {j : Nat} (hj : j < r.1.n) (he : i / 8 = r.1.reg + j) :
      ((r.2.getD j ⟨0, false, false⟩).b &&& r.1.bits &&& mKeep (mFmt s m) (r.1.reg + j)).getLsbD (i % 8) =
      (mOn s m (i / vBits (mFmt s m)) && !decide (mFmt s m = 0xB ∧ 56 ≤ i % 64) &&
        (Sparse.get 0 (mMem m s) (mPlace s m (i / vBits (mFmt s m)) + (i % vBits (mFmt s m) / 8 : Nat)).toNat).getLsbD (i % 8)) := by
    have ha : r.1 ∈ mAccesses s m := hl ▸ List.mem_map_of_mem hm
    obtain ⟨-, hat, hb⟩ := h.access ha hj (Nat.mod_lt i (show 8 > 0 by omega))
    rw [show 8 * (r.1.reg + j) + i % 8 = i by omega] at hat hb
    have h0 := h.low _ ha
    rw [BitVec.getLsbD_and, BitVec.getLsbD_and, (hr r hm).byte j hj, hb, ← he, getLsbD_mKeep, ← hat,
      show (r.1.at_ + (j : Int)).toNat = r.1.at_.toNat + j by omega,
      Bool.and_comm, Bool.and_comm _ (mOn s m _), ← Bool.and_assoc, Bool.and_comm _ (mOn s m _)]
  simp only [getLsbD_byteAt _ hi]
  by_cases ho : mOn s m (i / vBits (mFmt s m)) = true
  · obtain ⟨a, ha, j, hj, he⟩ := h.covered hi ho
    rw [← hl] at ha
    obtain ⟨r, hrm, rfl⟩ := List.mem_map.1 ha
    rw [Bool.eq_iff_iff, List.any_eq_true]
    simp only [List.any_eq_true, List.mem_range, Bool.and_eq_true (decide _), decide_eq_true_eq]
    constructor
    · rintro ⟨q, hq, j', hj', he', hb⟩
      rwa [key hq ((hr q hq).length ▸ hj') he'] at hb
    · intro hb
      exact ⟨r, hrm, j, (hr r hrm).length ▸ hj, he, by rwa [key hrm hj he]⟩
  · rw [Bool.eq_false_of_not_eq_true ho, Bool.false_and, Bool.false_and, List.any_eq_false]
    intro q hq
    rw [List.any_eq_true]
    rintro ⟨j, hj, hb⟩
    rw [Bool.and_eq_true, decide_eq_true_eq] at hb
    obtain ⟨he, hb⟩ := hb
    rw [key hq ((hr q hq).length ▸ List.mem_range.1 hj) he, Bool.eq_false_of_not_eq_true ho] at hb
    simp at hb

theorem mLatency_eq (h2 : m.spc ≠ 2) : mLatency m = if m.spc = 3 then 3 else if m.opc = 1 then 6 else if m.opc = 3 then 8 else 10 := by
  unfold mLatency
  split <;> simp_all

/-- What a load leaves pending. -/
theorem mLoad_ok (h : MPlain s m) : ∃ p, mLoad s m s = .ok ([p], s) ∧ p.isMask = false ∧ p.reg = s.vec.physV m.vr ∧ p.tag = some m.tag ∧ p.flags = 0 ∧
    p.left = mLatency m ∧ ∀ i, i < 4096 →
      p.data.getLsbD i = (mOn s m (i / vBits (mFmt s m)) && !decide (mFmt s m = 0xB ∧ 56 ≤ i % 64) &&
        (Sparse.get 0 (mMem m s) (mPlace s m (i / vBits (mFmt s m)) + (i % vBits (mFmt s m) / 8 : Nat)).toNat).getLsbD (i % 8)) ∧
      p.keep.getLsbD i = (!m.kz && decide (i / vBits (mFmt s m) < mCount s m) && !vActive (s.mask m.km) (vBits (mFmt s m)) (i / vBits (mFmt s m))) := by
  obtain ⟨rs, h1, h2, h3⟩ := mReads_ok h (mAccesses s m)
  unfold mLoad
  simp only [bind, StateT.bind, Except.bind, h1, pure, StateT.pure, Except.pure]
  refine ⟨_, rfl, rfl, rfl, rfl, rfl, rfl, fun i hi => ⟨?_, ?_⟩⟩
  · rw [← getLsbD_load h h2 h3 hi]
    refine (getLsbD_foldl_foldl_or _ _ _ _ _).trans ?_
    exact (congrArg (· || _) BitVec.getLsbD_zero).trans (Bool.false_or _)
  · cases m.kz
    · simp only [Bool.false_eq_true, if_false, Bool.not_false, Bool.true_and]
      refine (getLsbD_vWhere (elemSize _).pos _).trans ?_
      rw [decide_eq_true hi, Bool.true_and]
      rfl
    · simp

/-! ### A bundle of one M slot -/

theorem AsFetched.modVec (h : AsFetched s k x) (f : VecState → VecState) : AsFetched (s.modVec f) k (x.modVec f) :=
  ⟨(congrArg (fun t : Task => { t with vec := f t.vec }) h.task).trans rfl, h.buf, h.bytes⟩

/-- An M slot's address register moves to an address under PI (R229). -/
def stepTo (m : MS) (a : Word) (v : VecState) : VecState := if m.pi = true then { v with a := v.a.set m.ar a } else v

/-- The state after an M slot's address register has moved. -/
def stepped (s : State) (m : MS) : State := s.modVec (stepTo m (s.vec.a[m.ar] + m.off))

theorem AsFetched.stepped (h : AsFetched s k x) (m : MS) : AsFetched (stepped s m) k (stepped x m) := by
  rw [Machine.stepped, Machine.stepped, h.sameVec.vec]
  exact h.modVec _

theorem stepped_bc_pend (s : State) (m : MS) : (stepped s m).vec.bc = s.vec.bc ∧ (stepped s m).vec.pend = s.vec.pend := by
  change (stepTo m _ s.vec).bc = _ ∧ (stepTo m _ s.vec).pend = _
  unfold stepTo
  split <;> exact ⟨rfl, rfl⟩

/-- The accesses of an M slot, and what they leave pending. -/
def mWork (s : State) (m : MS) : E (List PendW) :=
  if m.opc = 2 then (do mStores (s.vreg m.vr) m (joinWords (mAccesses s m)); pure []) else mLoad s m

/-- After its accesses an M slot moves its address register. -/
theorem mRun_eq (s : State) (m : MS) :
    mRun s m = (do let ps ← mWork s m; eupd fun t => t.modVec (stepTo m (s.vec.a[m.ar] + m.off)); pure ps) := by
  unfold mRun mWork stepTo
  by_cases h2 : m.opc = 2
  · simp only [if_pos h2]
    cases m.pi <;> rfl
  · simp only [if_neg h2]
    cases m.pi <;> rfl

theorem mRun_of {v : State} {ps : List PendW} (h : mWork s m s = .ok (ps, v)) :
    mRun s m s = .ok (ps, v.modVec (stepTo m (s.vec.a[m.ar] + m.off))) := by
  rw [mRun_eq]
  simp only [bind, StateT.bind, Except.bind, h]
  rfl

theorem mRun_ok {v : State} {ps : List PendW} (h : mRun s m s = .ok (ps, v)) :
    ∃ w, mWork s m s = .ok (ps, w) ∧ v = w.modVec (stepTo m (s.vec.a[m.ar] + m.off)) := by
  rw [mRun_eq] at h
  obtain ⟨qs, w, hw, h⟩ := eBind_ok h
  cases h
  exact ⟨w, hw, rfl⟩

variable {s1 : State} {b : BitVec 256}

theorem mIllop_of (hf : bundleIllop b = false) (ho : onlySlot b 0) : mIllop (slotM b) = false := by
  simp only [bundleIllop, badSlots, Bool.or_eq_false_iff, List.any_cons, ho.present (show 0 < 4 by omega), if_true] at hf
  exact hf.2.1

/-- What a well-formed M slot without faults names, beside global memory. -/
theorem mPlain_of (hf : bundleIllop b = false) (ho : onlySlot b 0) (h2 : (msOf (slotM b)).spc ≠ 2) (hm : mFaults s (msOf (slotM b)) = []) :
    MPlain s (msOf (slotM b)) := by
  obtain ⟨hlow, hcount⟩ := mFaults_nil hm h2
  refine ⟨?_, fun h3 hz => ?_, hcount, hlow⟩
  · have : (msOf (slotM b)).spc < 4 := BitVec.isLt _
    have hi := mIllop_of hf ho
    omega
  · have hi := mIllop_of hf ho
    simp only [mIllop, Bool.or_eq_false_iff, Bool.and_eq_false_iff, decide_eq_false_iff_not, beq_eq_false_iff_ne] at hi
    have hc : tFmt (msOf (slotM b)).tag ≠ 0xC := (hi.2.resolve_left (not_not.2 h3)).1.1
    rw [mFmt, if_neg (by omega)] at hz
    generalize tFmt (msOf (slotM b)).tag = f at hc hz
    revert f
    decide

/-- A bundle of one M slot whose accesses succeed. -/
theorem BundleReady.issue_M (hr : BundleReady s s1 k b) (hs : stageOn s b) (ho : onlySlot b 0) (hf : mFaults s (msOf (slotM b)) = [])
    (hh : slotsOf s.core.t = [] ∨ (msOf (slotM b)).opc = 2 ∨ (msOf (slotM b)).spc = 2) {ps : List PendW} {v : State}
    (hrun : mRun (s1.asRouted k) (msOf (slotM b)) (s1.asRouted k) = .ok (ps, v)) :
    issueBundle k b (s1.asRouted k) = advanceProg k b v ps (k.upc + 1) false := by
  have hx := hr.asFetched
  have h3 := ho.absent (i := 3) (by omega) (by omega)
  have hno : slotsHit (s1.asRouted k).core.t (if performs b (s1.asRouted k) then bundleSlots (s1.asRouted k) b else []) = [] := by
    rcases hh with h | h | h
    · exact slotsHit_of_noSlots (hx.slotsOf.trans h)
    · simp [bundleSlots, h, slotsHit_nil]
    · simp [bundleSlots, h, slotsHit_nil]
  rw [issueBundle_eq hr.form hno, hx.performs, performs_iff.2 hs, if_pos rfl, slotsRun_M ho ((hx.mFaults _).trans hf) hrun]
  exact bundleEnd_eq (by simp [h3]) (by simp [h3])

theorem SameVec.mPlace (h : SameVec s x) (m : MS) : mPlace x m = mPlace s m := by
  funext e
  simp only [Machine.mPlace, mBase, gthIdx, h.vec, h.mFmt, h.vreg]

theorem SameVec.mCount (h : SameVec s x) (m : MS) : mCount x m = mCount s m := by rw [Machine.mCount, Machine.mCount, h.gthCount, h.mFmt]

theorem SameVec.mOn (h : SameVec s x) (m : MS) : mOn x m = mOn s m := by
  funext e
  rw [Machine.mOn, Machine.mOn, h.mCount, h.mask, h.mFmt]

theorem AsFetched.mMem (h : AsFetched s k x) (m : MS) : mMem m x = mMem m s := by
  rw [Machine.mMem, Machine.mMem, h.buf, h.task]
  rfl

theorem AsFetched.mPlain (h : AsFetched s k x) (hp : MPlain s m) : MPlain x m := by
  have hv := h.sameVec
  exact ⟨hp.space, fun h3 => hv.mFmt m ▸ hp.whole h3, fun h4 => hv.mFmt m ▸ hv.gthCount m ▸ hp.count h4, fun a ha => hp.low a (hv.mAccesses m ▸ ha)⟩

/-- VLD, VLDS and VGTH from a buffer or spill memory leave what they have read pending. -/
theorem BundleReady.exec_load (hr : BundleReady s s1 k b) (hs : stageOn s b) (ho : onlySlot b 0) (hf : mFaults s (msOf (slotM b)) = [])
    (h2 : (msOf (slotM b)).spc ≠ 2) (hh : slotsOf s.core.t = []) (hl : (msOf (slotM b)).opc ≠ 2) :
    let m := msOf (slotM b)
    ∃ t p, exec .bundleIssue s = .next t ∧ Issued s (Machine.stepped s m) t k b [p] (k.upc + 1) false ∧ sameBytes s t ∧
      p.isMask = false ∧ p.reg = s.vec.physV m.vr ∧ p.tag = some m.tag ∧ p.flags = 0 ∧ p.left = mLatency m ∧ ∀ i, i < 4096 →
        p.data.getLsbD i = (Machine.mOn s m (i / vBits (mFmt s m)) && !decide (mFmt s m = 0xB ∧ 56 ≤ i % 64) &&
          (Sparse.get 0 (Machine.mMem m s) (Machine.mPlace s m (i / vBits (mFmt s m)) + (i % vBits (mFmt s m) / 8 : Nat)).toNat).getLsbD (i % 8)) ∧
        p.keep.getLsbD i = (!m.kz && decide (i / vBits (mFmt s m) < Machine.mCount s m) &&
          !vActive (s.mask m.km) (vBits (mFmt s m)) (i / vBits (mFmt s m))) := by
  intro m
  have hx := hr.asFetched
  have hv := hx.sameVec
  obtain ⟨p, hp, h1, h3, h4, h5, h6, h7⟩ := mLoad_ok (hx.mPlain (mPlain_of hr.form ho h2 hf))
  rw [hv.vec] at h3
  rw [hv.mFmt, hv.mOn, hv.mPlace, hv.mCount, hv.mask, hx.mMem] at h7
  obtain ⟨t, ht, hit, hb⟩ := hr.exec_issued (u := Machine.stepped s m) (hr.issue_M hs ho hf (.inl hh) (mRun_of (by rw [mWork, if_neg hl]; exact hp)))
    (hx.stepped m).withSys (hx.stepped m).buf rfl rfl (stepped_bc_pend s m).1 (stepped_bc_pend s m).2
  exact ⟨t, p, ht, hit, (sameBytes_of rfl rfl : sameBytes s (Machine.stepped s m)).trans ((hx.stepped m).sameBytes.trans hb), h1, h3, h4, h5, h6, h7⟩

end

/-! ### VST to a buffer or spill memory (R229, R230) -/

section
variable {s s1 x u v w : State} {k : Cmd} {m : MS} {b : BitVec 256}

/-- Whether accesses cover bit j of a register's byte r. -/
def Covers (l : List MAcc) (r j : Nat) : Prop := ∃ a ∈ l, a.reg ≤ r ∧ r < a.reg + a.n ∧ a.bits.getLsbD j = true

theorem covers_cons (a : MAcc) (l : List MAcc) (r j : Nat) :
    Covers (a :: l) r j ↔ (a.reg ≤ r ∧ r < a.reg + a.n ∧ a.bits.getLsbD j = true) ∨ Covers l r j := by simp [Covers]

/-- Accesses that are joined are two of whole bytes, one after the other. -/
theorem joinWords_cons (a : MAcc) (l : List MAcc) : joinWords (a :: l) = a :: joinWords l ∨
    ∃ c r, joinWords l = c :: r ∧ a.bits = 0xFF ∧ c.bits = 0xFF ∧ c.reg = a.reg + a.n ∧ joinWords (a :: l) = { a with n := a.n + c.n } :: r := by
  rw [joinWords]
  cases h : joinWords l with
  | nil => exact .inl rfl
  | cons c r =>
    dsimp only
    split
    · next hc =>
      simp only [Bool.and_eq_true, decide_eq_true_eq] at hc
      obtain ⟨⟨⟨⟨ha, hb⟩, hr⟩, -⟩, -⟩ := hc
      exact .inr ⟨c, r, rfl, ha, hb, hr, rfl⟩
    · exact .inl rfl

theorem joinWords_covers (l : List MAcc) (r : Nat) {j : Nat} (hj : j < 8) : Covers (joinWords l) r j ↔ Covers l r j := by
  induction l with
  | nil => rfl
  | cons a l ih =>
    rw [covers_cons, ← ih]
    rcases joinWords_cons a l with h | ⟨c, q, hl, ha, hc, hr, h⟩
    · rw [h, covers_cons]
    · have h8 : (0xFF : BitVec 8).getLsbD j = true := by interval_cases j <;> rfl
      rw [h, hl, covers_cons, covers_cons, ha, hc, hr]
      simp only [h8, and_true, ← or_assoc]
      refine or_congr_left ?_
      omega

/-- Accesses whose addresses lie as their register bytes do. -/
def InRow (base : Nat) (l : List MAcc) : Prop := ∀ a ∈ l, a.at_ = ((base + a.reg : Nat) : Int)

theorem InRow.joinWords {base : Nat} {l : List MAcc} (h : InRow base l) : InRow base (joinWords l) := by
  induction l with
  | nil => exact h
  | cons a l ih =>
    obtain ⟨ha, hl⟩ := List.forall_mem_cons.1 h
    rcases joinWords_cons a l with e | ⟨c, q, e1, -, -, -, e⟩
    · rw [e]
      exact List.forall_mem_cons.2 ⟨ha, ih hl⟩
    · rw [e]
      exact List.forall_mem_cons.2 ⟨ha, (List.forall_mem_cons.1 (e1 ▸ ih hl)).2⟩

/-- The accesses of VST lie in a row from its base address. -/
theorem MPlain.inRow (h : MPlain s m) (ho : m.opc < 3) : InRow (mBase s m).toNat (mAccesses s m) := by
  intro a ha
  by_cases hz : vBits (mFmt s m) = 4
  · obtain ⟨r, -, -, rfl⟩ := (mAccesses_half hz h.notGlobal a).1 ha
    push_cast
    rfl
  · obtain ⟨p, -, rfl⟩ := (mAccesses_whole hz h a).1 ha
    have h8 : p * vBits (mFmt s m) / 8 = p * (vBits (mFmt s m) / 8) := by
      conv_lhs => rw [bits_whole hz, Nat.mul_left_comm, Nat.mul_div_cancel_left _ (by omega)]
    dsimp only
    rw [mPlace_row ho, h8]
    push_cast
    rfl

/-- The bits of a register that an M slot's accesses cover are its active elements'. -/
theorem MPlain.covers_iff (h : MPlain s m) (r : Nat) {j : Nat} (hj : j < 8) :
    Covers (mAccesses s m) r j ↔ r < 512 ∧ mOn s m ((8 * r + j) / vBits (mFmt s m)) = true := by
  constructor
  · rintro ⟨a, ha, h1, h2, hb⟩
    obtain ⟨hlt, -, hon⟩ := h.access ha (i := r - a.reg) (by omega) hj
    rw [show a.reg + (r - a.reg) = r by omega] at hlt hon
    exact ⟨hlt, hon ▸ hb⟩
  · rintro ⟨hr, hon⟩
    obtain ⟨a, ha, i, hi, he⟩ := h.covered (i := 8 * r + j) (by omega) hon
    obtain ⟨-, -, hb⟩ := h.access ha hi hj
    rw [show a.reg + i = r by omega, hon] at hb
    exact ⟨a, ha, by omega, by omega, hb⟩

/-- v is u but for buffers and spill memory. -/
structure OnlyBytes (u v : State) : Prop where
  task : v.core.t = { u.core.t with spill := v.core.t.spill, spPois := v.core.t.spPois }
  mem : v.mem = u.mem

theorem OnlyBytes.refl (u : State) : OnlyBytes u u := ⟨rfl, rfl⟩

theorem OnlyBytes.trans (h : OnlyBytes u v) (h' : OnlyBytes v w) : OnlyBytes u w := ⟨by rw [h'.task, h.task], h'.mem.trans h.mem⟩

theorem OnlyBytes.sameBytes (h : OnlyBytes u v) : sameBytes u v := sameBytes_of ((congrArg Task.view h.task).trans rfl) (congrArg Mem.bytes h.mem)

theorem spillPutG_parts (off : Nat) (bs : List GByte) (u : State) : OnlyBytes u (u.spillPutG off bs) ∧
    (u.spillPutG off bs).core.t.spill = writeBytes u.core.t.spill off (bs.map (·.b)) := by
  unfold State.spillPutG
  refine List.foldlRecOn (motive := fun w : State => OnlyBytes u w ∧ w.core.t.spill = writeBytes u.core.t.spill off (bs.map (·.b)))
    _ _ ⟨⟨rfl, rfl⟩, rfl⟩ fun w ⟨h, hs⟩ i _ => ?_
  split
  · exact ⟨h.trans ⟨rfl, rfl⟩, hs⟩
  · exact ⟨h, hs⟩

theorem mWrite_ok (h : m.spc = 0 ∨ m.spc = 3) (a : MAcc) (bs : List GByte) (u : State) : ∃ v, mWrite m a bs u = .ok ((), v) ∧ OnlyBytes u v ∧
    mMem m v = writeBytes (mMem m u) a.at_.toNat (bs.map (·.b)) := by
  rcases h with h0 | h3
  · have he : mWrite m a bs u = eWriteB 1 a.at_.toNat bs u := by simp [mWrite, h0, spcBuf]
    refine ⟨_, he.trans rfl, ⟨rfl, rfl⟩, ?_⟩
    simp only [mMem, h0]
    exact (eWriteB_fills (u := u) (off := a.at_.toNat) (bs := bs) (le_refl 1) rfl).mem
  · obtain ⟨h1, h2⟩ := spillPutG_parts a.at_.toNat bs u
    have he : mWrite m a bs u = eupd (fun s => s.spillPutG a.at_.toNat bs) u := by simp [mWrite, h3]
    exact ⟨_, he.trans rfl, h1, by simpa only [mMem, h3] using h2⟩

theorem rising_writeBytes {p : Sparse Byte} (h : Sparse.rising p = true) (a : Nat) (bs : List Byte) : Sparse.rising (writeBytes p a bs) = true := by
  induction bs generalizing p a with
  | nil => exact h
  | cons b bs ih => exact ih (Sparse.rising_put 0 a b h) (a + 1)

/-- The bytes that an access of VST writes: the register's where they take part, the old ones where not. -/
def newBytes (r : VReg) (a : MAcc) (old : List GByte) : List GByte :=
  (List.range a.n).map fun i =>
    let o := old.getD i ⟨0, false, false⟩
    let v : Byte := r.data.extractLsb' (8 * (a.reg + i)) 8 &&& mKeep (tFmt r.tag) (a.reg + i)
    (⟨(v &&& a.bits) ||| (o.b &&& ~~~a.bits), r.pois.getLsbD ((a.reg + i) / 8) || o.pois, false⟩ : GByte)

/-- The bit of a register that VST stores as bit j of byte i: FA56's top byte as zero (R60). -/
def storeBit (r : VReg) (i j : Nat) : Bool := r.data.getLsbD (8 * i + j) && (mKeep (tFmt r.tag) i).getLsbD j

theorem newBytes_bit {r : VReg} {a : MAcc} {old : List GByte} {i j : Nat} (hi : i < a.n) (hj : j < 8) :
    (((newBytes r a old).map GByte.b).getD i 0).getLsbD j =
      if a.bits.getLsbD j = true then storeBit r (a.reg + i) j else (old.getD i ⟨0, false, false⟩).b.getLsbD j := by
  have hb : ((newBytes r a old).map GByte.b).getD i 0 = (r.data.extractLsb' (8 * (a.reg + i)) 8 &&& mKeep (tFmt r.tag) (a.reg + i) &&& a.bits) |||
      ((old.getD i ⟨0, false, false⟩).b &&& ~~~a.bits) := by simp [newBytes, hi]
  rw [hb, storeBit]
  simp only [BitVec.getLsbD_or, BitVec.getLsbD_and, BitVec.getLsbD_not, BitVec.getLsbD_extractLsb', hj, decide_true, Bool.true_and]
  cases a.bits.getLsbD j <;> simp

/-- What VST keeps of the bytes that it writes in part. -/
def oldBytes (m : MS) (a : MAcc) : E (List GByte) := if a.bits = 0xFF then pure [] else mRead m a

theorem mStores_cons (r : VReg) (m : MS) (a : MAcc) (l : List MAcc) :
    mStores r m (a :: l) = (do let old ← oldBytes m a; mWrite m a (newBytes r a old); mStores r m l) := by
  rw [mStores, oldBytes]
  by_cases h : a.bits = 0xFF
  · simp only [if_pos h]
    rfl
  · simp only [if_neg h]
    rfl

theorem eBind_of {α β : Type} {e : E α} {f : α → E β} {y : α} (h : e u = .ok (y, v)) : (e >>= f) u = f y v := by
  simp only [bind, StateT.bind, Except.bind, h]

theorem oldBytes_ok (h : MPlain s m) (a : MAcc) (u : State) :
    ∃ old, oldBytes m a u = .ok (old, u) ∧ ∀ i j, i < a.n → j < 8 → a.bits.getLsbD j = false →
      (old.getD i ⟨0, false, false⟩).b = Sparse.get 0 (mMem m u) (a.at_.toNat + i) := by
  unfold oldBytes
  by_cases hb : a.bits = 0xFF
  · refine ⟨[], by rw [if_pos hb]; rfl, fun i j _ hj hc => ?_⟩
    rw [hb] at hc
    interval_cases j <;> cases hc
  · obtain ⟨old, ho, hro⟩ := mRead_ok h u a
    exact ⟨old, by rw [if_neg hb]; exact ho, fun i _ hi _ _ => hro.byte i hi⟩

/-- One access of VST puts the bits that it covers. -/
theorem mStore_bit {r : VReg} {a : MAcc} {old : List GByte} {p : Sparse Byte} {base : Nat} (hr : Sparse.rising p = true)
    (ha : a.at_ = ((base + a.reg : Nat) : Int))
    (ho : ∀ i j, i < a.n → j < 8 → a.bits.getLsbD j = false → (old.getD i ⟨0, false, false⟩).b = Sparse.get 0 p (a.at_.toNat + i))
    {y j : Nat} (hj : j < 8) :
    let g := (Sparse.get 0 (writeBytes p a.at_.toNat ((newBytes r a old).map (·.b))) y).getLsbD j
    let c := a.reg ≤ y - base ∧ y - base < a.reg + a.n ∧ a.bits.getLsbD j = true
    (base ≤ y ∧ c → g = storeBit r (y - base) j) ∧ (¬ (base ≤ y ∧ c) → g = (Sparse.get 0 p y).getLsbD j) := by
  intro g c
  have hlen : ((newBytes r a old).map (·.b)).length = a.n := by simp [newBytes]
  have hat : a.at_.toNat = base + a.reg := by omega
  have hg : g = (if base + a.reg ≤ y ∧ y < base + a.reg + a.n then ((newBytes r a old).map (·.b)).getD (y - (base + a.reg)) 0
      else Sparse.get 0 p y).getLsbD j := by
    simp only [g]
    rw [get_writeBytes hr, hlen, hat]
  by_cases hin : base + a.reg ≤ y ∧ y < base + a.reg + a.n
  · rw [hg, if_pos hin, newBytes_bit (by omega) hj, show a.reg + (y - (base + a.reg)) = y - base by omega]
    cases hb : a.bits.getLsbD j
    · refine ⟨fun h => ?_, fun _ => ?_⟩
      · simp [c, hb] at h
      · rw [if_neg Bool.false_ne_true, ho _ j (by omega) hj hb, hat, show base + a.reg + (y - (base + a.reg)) = y by omega]
    · exact ⟨fun _ => if_pos rfl, fun h => absurd ⟨by omega, by omega, by omega, hb⟩ h⟩
  · rw [hg, if_neg hin]
    exact ⟨fun ⟨h1, h2, h3, _⟩ => absurd ⟨by omega, by omega⟩ hin, fun _ => rfl⟩

/-- Stores in a row put the covered bits of the register at their places, and leave every other bit. -/
theorem mStores_ok (h : MPlain s m) (hsp : m.spc = 0 ∨ m.spc = 3) (r : VReg) {base : Nat} {l : List MAcc} (hl : InRow base l)
    (hr : Sparse.rising (mMem m u) = true) : ∃ v, mStores r m l u = .ok ((), v) ∧ OnlyBytes u v ∧ ∀ y j, j < 8 →
      (base ≤ y ∧ Covers l (y - base) j → (Sparse.get 0 (mMem m v) y).getLsbD j = storeBit r (y - base) j) ∧
      (¬ (base ≤ y ∧ Covers l (y - base) j) → (Sparse.get 0 (mMem m v) y).getLsbD j = (Sparse.get 0 (mMem m u) y).getLsbD j) := by
  induction l generalizing u with
  | nil => exact ⟨u, rfl, .refl u, fun y j _ => ⟨fun h => absurd h.2 (by simp [Covers]), fun _ => rfl⟩⟩
  | cons a l ih =>
    obtain ⟨ha, hl⟩ := List.forall_mem_cons.1 hl
    obtain ⟨old, ho, hob⟩ := oldBytes_ok h a u
    obtain ⟨w, hw, hf, hm⟩ := mWrite_ok hsp a (newBytes r a old) u
    obtain ⟨v, hv, hf', hb⟩ := ih hl (u := w) (hm ▸ rising_writeBytes hr _ _)
    refine ⟨v, ?_, hf.trans hf', fun y j hj => ?_⟩
    · rw [mStores_cons]
      exact (eBind_of ho).trans ((eBind_of hw).trans hv)
    · obtain ⟨h1, h2⟩ := mStore_bit (r := r) hr ha hob hj (y := y)
      obtain ⟨h3, h4⟩ := hb y j hj
      rw [← hm] at h1 h2
      rw [covers_cons]
      by_cases hc : base ≤ y ∧ Covers l (y - base) j
      · exact ⟨fun _ => h3 hc, fun hn => absurd ⟨hc.1, .inr hc.2⟩ hn⟩
      · exact ⟨fun hy => (h4 hc).trans (h1 ⟨hy.1, hy.2.resolve_right fun h => hc ⟨hy.1, h⟩⟩),
          fun hn => (h4 hc).trans (h2 fun hy => hn ⟨hy.1, .inl hy.2⟩)⟩

theorem storeBit_eq (r : VReg) (i : Nat) {j : Nat} (hj : j < 8) :
    storeBit r i j = (r.data.getLsbD (8 * i + j) && !decide (tFmt r.tag = 0xB ∧ 56 ≤ (8 * i + j) % 64)) := by
  have h := getLsbD_mKeep (tFmt r.tag) (8 * i + j)
  rw [show (8 * i + j) / 8 = i by omega, show (8 * i + j) % 8 = j by omega] at h
  rw [storeBit, h]

theorem OnlyBytes.vec (h : OnlyBytes u v) : v.vec = u.vec := (congrArg Task.vec h.task).trans rfl

/-- What VST to a buffer or spill memory writes. -/
theorem mStores_accesses (h : MPlain s m) (hsp : m.spc = 0 ∨ m.spc = 3) (ho : m.opc = 2) (hr : Sparse.rising (mMem m s) = true) :
    ∃ v, mWork s m s = .ok ([], v) ∧ OnlyBytes s v ∧ ∀ y j, j < 8 →
      (Sparse.get 0 (mMem m v) y).getLsbD j = if (mBase s m).toNat ≤ y ∧ y < (mBase s m).toNat + 512 ∧
          vActive (s.mask m.km) (vBits (mFmt s m)) ((8 * (y - (mBase s m).toNat) + j) / vBits (mFmt s m)) = true then
        ((s.vreg m.vr).data.getLsbD (8 * (y - (mBase s m).toNat) + j) && !decide (mFmt s m = 0xB ∧ 56 ≤ (8 * (y - (mBase s m).toNat) + j) % 64))
      else (Sparse.get 0 (mMem m s) y).getLsbD j := by
  obtain ⟨v, hv, hf, hb⟩ := mStores_ok h hsp (s.vreg m.vr) (h.inRow (by omega)).joinWords hr
  refine ⟨v, ?_, hf, fun y j hj => ?_⟩
  · rw [mWork, if_pos ho]
    exact eBind_of hv
  · obtain ⟨h1, h2⟩ := hb y j hj
    have hfm : mFmt s m = tFmt (s.vreg m.vr).tag := if_pos ho
    have hon {r : Nat} (hr : r < 512) : mOn s m ((8 * r + j) / vBits (mFmt s m)) =
        vActive (s.mask m.km) (vBits (mFmt s m)) ((8 * r + j) / vBits (mFmt s m)) := by
      have hlt := (elemSize (mFmt s m)).div_lt (i := 8 * r + j) (by omega)
      rw [mOn, mCount, if_neg (by omega), decide_eq_true hlt, Bool.true_and]
    rw [joinWords_covers _ _ hj, h.covers_iff _ hj] at h1 h2
    split
    · next hc =>
      obtain ⟨hlo, hhi, ha⟩ := hc
      rw [h1 ⟨hlo, by omega, by rw [hon (by omega)]; exact ha⟩, storeBit_eq _ _ hj, hfm]
    · next hc => exact h2 fun ⟨hlo, hhi, ha⟩ => hc ⟨hlo, by omega, by rwa [hon hhi] at ha⟩

/-- VST to AB or spill memory writes at once. -/
theorem BundleReady.exec_store (hr : BundleReady s s1 k b) (hs : stageOn s b) (ho : onlySlot b 0) (hf : mFaults s (msOf (slotM b)) = [])
    (h2 : (msOf (slotM b)).spc ≠ 2) (hl : (msOf (slotM b)).opc = 2) (hab : Sparse.rising s.core.buf.ab = true) (hsl : Sparse.rising s.core.t.spill = true) :
    let m := msOf (slotM b)
    ∃ t u, exec .bundleIssue s = .next t ∧ Issued s u t k b [] (k.upc + 1) false ∧ u.vec = (stepped s m).vec ∧ u.core.t.regs = s.core.t.regs ∧
      sameBytes s t ∧ ∀ y j, j < 8 →
        (Sparse.get 0 (Machine.mMem m t) y).getLsbD j = if (mBase s m).toNat ≤ y ∧ y < (mBase s m).toNat + 512 ∧
            vActive (s.mask m.km) (vBits (mFmt s m)) ((8 * (y - (mBase s m).toNat) + j) / vBits (mFmt s m)) = true then
          ((s.vreg m.vr).data.getLsbD (8 * (y - (mBase s m).toNat) + j) && !decide (mFmt s m = 0xB ∧ 56 ≤ (8 * (y - (mBase s m).toNat) + j) % 64))
        else (Sparse.get 0 (Machine.mMem m s) y).getLsbD j := by
  intro m
  have hx := hr.asFetched
  have hv := hx.sameVec
  have hp := mPlain_of hr.form ho h2 hf
  have hsp : m.spc = 0 ∨ m.spc = 3 := by
    have hi := mIllop_of hr.form ho
    simp only [mIllop, Bool.or_eq_false_iff, Bool.and_eq_false_iff, decide_eq_false_iff_not, bne_eq_false_iff_eq] at hi
    have h1 : m.spc ≠ 1 := hi.1.1.1.1.2.resolve_left (by omega)
    rcases hp.space with h | h | h
    · exact .inl h
    · exact absurd h h1
    · exact .inr h
  have hrise : Sparse.rising (Machine.mMem m (s1.asRouted k)) = true := by
    rw [hx.mMem]
    rcases hsp with h | h <;> simpa only [Machine.mMem, h]
  obtain ⟨v, hw, hfr, hb⟩ := mStores_accesses (hx.mPlain hp) hsp hl hrise
  have hbase : mBase (s1.asRouted k) m = mBase s m := by rw [mBase, mBase, hv.vec]
  rw [hbase, hv.mFmt, hv.mask, hv.vreg, hx.mMem] at hb
  let u := v.modVec (stepTo m ((s1.asRouted k).vec.a[m.ar] + m.off))
  have huv : u.vec = (stepped s m).vec := by
    change stepTo m ((s1.asRouted k).vec.a[m.ar] + m.off) v.vec = stepTo m (s.vec.a[m.ar] + m.off) s.vec
    rw [hfr.vec, hv.vec]
  obtain ⟨hbc, hpe⟩ := stepped_bc_pend s m
  have htask : u.core.t = { s.core.t.routedBy k with spill := v.core.t.spill, spPois := v.core.t.spPois, vec := u.core.t.vec } :=
    congrArg (fun t : Task => { t with vec := u.core.t.vec }) (hx.task ▸ hfr.task)
  obtain ⟨t, ht, hit, hbt⟩ := hr.exec_issued (u := u) (hr.issue_M hs ho hf (.inr (.inl hl)) (mRun_of hw)) rfl rfl
    ((congrArg Task.pc htask).trans rfl) ((congrArg (·.q.compute) htask).trans rfl) (huv ▸ hbc) (huv ▸ hpe)
  refine ⟨t, u, ht, hit, huv, (congrArg Task.regs htask).trans rfl, hx.sameBytes.trans (hfr.sameBytes.trans (.trans (sameBytes_of rfl rfl) hbt)), ?_⟩
  have hmem : Machine.mMem m t = Machine.mMem m v := by
    unfold Machine.mMem
    rw [hit.buf, hit.spill]
    rfl
  rw [hmem]
  exact hb

end

/-! ### An M slot in global memory (R133, R229) -/

section
variable {s s1 u v w : State} {k : Cmd} {m : MS} {b : BitVec 256} {α β : Type}

/-- A piece of an engine that changes neither the task nor the buffers. -/
def KeepsTask (e : E α) : Prop := ∀ u y v, e u = .ok (y, v) → SameTask u v

theorem KeepsTask.bind {e : E α} {f : α → E β} (he : KeepsTask e) (hf : ∀ y, KeepsTask (f y)) : KeepsTask (e >>= f) := fun u y v h => by
  obtain ⟨a, w, h1, h2⟩ := eBind_ok h
  exact (he u a w h1).trans (hf a w y v h2)

theorem KeepsTask.pure (y : α) : KeepsTask (pure y) := fun u z v h => by
  cases h
  exact .refl u

theorem KeepsTask.enow : KeepsTask enow := fun u z v h => by
  cases h
  exact .refl u

theorem KeepsTask.eRange (a : Acc) (va : Word) (n : Nat) : KeepsTask (eRange a va n) := fun _ _ _ h =>
  let hf := eRange_onlyFills h
  ⟨hf.task, hf.buf⟩

theorem KeepsTask.eReadG (va : Word) (n : Nat) : KeepsTask (eReadG va n) := (KeepsTask.eRange _ _ _).bind fun _ => .bind .enow fun _ => .pure _

theorem writePiece_sameTask {va : Word} {pa : Nat} {bs : List GByte} (h : writePiece u va pa bs = .ok v) : SameTask u v := by
  unfold writePiece at h
  split at h
  · cases h
    exact .refl _
  · refine SameTask.map (fun _ => SameTask.store) (fun x => .foldl x (fun y i => ?_) _) h
    split
    · exact .modM _
    · exact .refl y

theorem writePieces_sameTask {l : List (Word × Xl × Nat)} {bs : List GByte} (h : writePieces u l bs = .ok v) : SameTask u v := by
  induction l generalizing u bs with
  | nil => cases h; exact .refl _
  | cons p l ih =>
    unfold writePieces at h
    split at h
    · cases h
    · next hw => exact .trans (.trans (.modM _) (writePiece_sameTask hw)) (ih h)

theorem KeepsTask.eWriteG (va : Word) (bs : List GByte) : KeepsTask (eWriteG va bs) := fun _ _ _ h => by
  obtain ⟨l, w, g, hl, -, -, hw⟩ := eWriteG_ok h
  exact (KeepsTask.eRange _ _ _ _ _ _ hl).trans (writePieces_sameTask hw)

theorem KeepsTask.mRead (h2 : m.spc = 2) (a : MAcc) : KeepsTask (mRead m a) := by
  have he : Machine.mRead m a = Machine.eReadG (BitVec.ofInt 64 a.at_) a.n := by simp [Machine.mRead, h2]
  exact he ▸ .eReadG _ _

theorem KeepsTask.mReads (h2 : m.spc = 2) (l : List MAcc) : KeepsTask (mReads m l) := by
  induction l with
  | nil => exact .pure _
  | cons a l ih => exact .bind (.mRead h2 a) fun _ => .bind ih fun _ => .pure _

theorem KeepsTask.mStores (h2 : m.spc = 2) (r : VReg) (l : List MAcc) : KeepsTask (mStores r m l) := by
  induction l with
  | nil => exact .pure _
  | cons a l ih =>
    rw [mStores_cons]
    refine .bind ?_ fun old => .bind ?_ fun _ => ih
    · unfold oldBytes
      split
      · exact .pure _
      · exact .mRead h2 a
    · have he : mWrite m a (newBytes r a old) = Machine.eWriteG (BitVec.ofInt 64 a.at_) (newBytes r a old) := by simp [mWrite, h2]
      exact he ▸ .eWriteG _ _

theorem KeepsTask.mWork (h2 : m.spc = 2) (s : State) : KeepsTask (mWork s m) := by
  unfold Machine.mWork
  split
  · exact .bind (.mStores h2 _ _) fun _ => .pure _
  · exact .bind (.mReads h2 _) fun _ => .pure _

/-- An access to global memory does what the shared reads and writes give. -/
theorem BundleReady.exec_global (hr : BundleReady s s1 k b) (hs : stageOn s b) (ho : onlySlot b 0) (hf : mFaults s (msOf (slotM b)) = [])
    (h2 : (msOf (slotM b)).spc = 2) {ps : List PendW} (hrun : mRun (s1.asRouted k) (msOf (slotM b)) (s1.asRouted k) = .ok (ps, u)) :
    ∃ t, exec .bundleIssue s = .next t ∧ Issued s u t k b ps (k.upc + 1) false ∧ sameBytes u t := by
  have hx := hr.asFetched
  obtain ⟨w, hw, rfl⟩ := mRun_ok hrun
  have hwt : w.core.t = s.core.t.routedBy k := (KeepsTask.mWork h2 _ _ _ _ hw).1.trans hx.task
  have hvec : w.vec = s.vec := (congrArg Task.vec hwt).trans rfl
  have hstep : (w.modVec (stepTo (msOf (slotM b)) ((s1.asRouted k).vec.a[(msOf (slotM b)).ar] + (msOf (slotM b)).off))).vec = (stepped s (msOf (slotM b))).vec := by
    change stepTo _ _ w.vec = stepTo _ _ s.vec
    rw [hvec, hx.sameVec.vec]
  exact hr.exec_issued (hr.issue_M hs ho hf (.inr (.inr h2)) hrun) rfl rfl ((congrArg Task.pc hwt).trans rfl)
    ((congrArg (·.q.compute) hwt).trans rfl) (hstep ▸ (stepped_bc_pend s _).1) (hstep ▸ (stepped_bc_pend s _).2)

end

end Sys2Proof.Machine
end

section
/-! Fetching, walking, and results that land (R29, R138, R143, R216, O44). -/

namespace Sys2Proof.Machine

/-! ### Fetching and walking (R29, R138, R143) -/

section
variable {s t u : State}

/-- t is s but for translation structures and the log of mismatches. -/
def OnlyWalks (s t : State) : Prop :=
  t = { s with core := { s.core with l1tlb := t.core.l1tlb }, mem := { s.mem with l2tlb := t.mem.l2tlb, wcache := t.mem.wcache, attlog := t.mem.attlog } }

theorem OnlyWalks.trans (h : OnlyWalks s t) (h' : OnlyWalks t u) : OnlyWalks s u :=
  Eq.trans h' (congrArg (fun y : State => { y with
    core := { y.core with l1tlb := u.core.l1tlb }, mem := { y.mem with l2tlb := u.mem.l2tlb, wcache := u.mem.wcache, attlog := u.mem.attlog } }) h)

theorem lookup_onlyWalks (ctx : BitVec 12) (va : Nat) : OnlyWalks s (lookup s ctx va).1 := by
  unfold lookup
  split
  · rfl
  · dsimp only
    split <;> rfl

/-- A translation for execution changes nothing else. -/
theorem translate_onlyWalks (ctx : BitVec 12) (va : Word) (task : Bool) : OnlyWalks s (translate s ctx va .x task).1 := by
  have hl := lookup_onlyWalks (s := s) ctx va.toNat
  unfold translate
  split
  · rfl
  · dsimp only
    split
    · exact hl
    · split
      · exact hl.trans rfl
      · exact hl

theorem OnlyWalks.onlyFills (h : OnlyWalks s t) : onlyFills s t := by
  unfold Machine.onlyFills
  conv_lhs => rw [h]
  conv_rhs => rw [h]

/-- What is kept of a walk or a fetch is all it has changed. -/
theorem keepFills_onlyFills (h : onlyFills s t) : onlyFills s (keepFills s t) := by
  have hf : t.fresh = s.fresh := (congrArg State.fresh h).trans rfl
  unfold Machine.onlyFills keepFills
  rw [hf]

theorem OnlyWalks.cached (h : OnlyWalks s t) (l : Sparse (BitVec 1024)) : Machine.onlyFills s (t.modC fun c => { c with icache := l }) := by
  unfold Machine.onlyFills
  conv_lhs => rw [h]
  conv_rhs => rw [h]
  rfl

/-- The state that a fetch leaves, whether or not it succeeds. -/
def fetched (va : Word) (s : State) : State := match fetchLine va s with | .ok (_, t) => t | .error (_, t) => t

theorem fetched_onlyFills (va : Word) : onlyFills s (fetched va s) := by
  have ht := translate_onlyWalks (s := s) s.cid va (!s.core.t.prv)
  unfold fetched fetchLine
  generalize translate s s.cid va .x (!s.core.t.prv) = r at ht ⊢
  obtain ⟨s1, c | x⟩ := r
  · exact ht.onlyFills
  · dsimp only
    cases Sparse.find s1.core.icache (x.pa / 128) with
    | some b => exact ht.onlyFills
    | none =>
      dsimp only
      by_cases h1 : s1.rfHeld x.pa = true
      · rw [if_pos h1]
        exact ht.onlyFills
      by_cases h2 : s1.homeFail (128 * (x.pa / 128)) 128 = true
      · rw [if_neg h1, if_pos h2]
        exact ht.onlyFills
      by_cases h3 : s1.homePoisN (128 * (x.pa / 128)) 128 = true
      · rw [if_neg h1, if_neg h2, if_pos h3]
        exact ht.onlyFills
      by_cases h4 : lineBad (s1.homeLine (x.pa / 128)) = true
      · rw [if_neg h1, if_neg h2, if_neg h3, if_pos h4]
        exact ht.onlyFills
      · rw [if_neg h1, if_neg h2, if_neg h3, if_neg h4]
        exact ht.cached _

theorem fetchAhead_eq (va : Word) (s : State) : fetchAhead va s = if s.core.running = true then keepFills s (fetched va s) else s := by
  unfold fetchAhead fetched
  cases s.core.running with
  | false => rfl
  | true => cases fetchLine va s <;> rfl

theorem fetchAhead_onlyFills (va : Word) : onlyFills s (fetchAhead va s) := by
  rw [fetchAhead_eq]
  split
  · exact keepFills_onlyFills (fetched_onlyFills va)
  · rfl

theorem pageWalk_onlyFills (va : Word) : ∃ t, exec (.pageWalk va) s = .next t ∧ onlyFills s t := by
  refine ⟨_, rfl, ?_⟩
  split
  · rfl
  · have hl := lookup_onlyWalks (s := s) s.cid va.toNat
    generalize lookup s s.cid va.toNat = r at hl ⊢
    obtain ⟨s1, c | e⟩ := r
    · exact keepFills_onlyFills hl.onlyFills
    · exact keepFills_onlyFills (hl.trans rfl : OnlyWalks s (installTlb s1 e)).onlyFills

theorem Sparse.ins_length_le {α : Type} (p : Sparse α) (a : Nat) (v : α) : (Sparse.ins p a v).length ≤ p.length + 1 := by
  induction p with
  | nil => exact le_rfl
  | cons q p ih =>
    obtain ⟨k, w⟩ := q
    unfold Sparse.ins
    split
    · simp
    · split
      · simp
      · simpa using ih

/-- A line whose checks pass is kept where there is room. -/
theorem fetchAhead_cached {va : Word} {x : Xl} (hrun : s.core.running = true) (ht : translate s s.cid va .x (!s.core.t.prv) = (t, .ok x))
    (hh : s.rfHeld x.pa = false) (hc : Sparse.find t.core.icache (x.pa / 128) = none) (hp : t.homePoisN (128 * (x.pa / 128)) 128 = false)
    (hf : t.homeFail (128 * (x.pa / 128)) 128 = false) (hb : lineBad (s.homeLine (x.pa / 128)) = false) (hl : s.core.icache.length < Config.icacheLines) :
    Sparse.find (fetchAhead va s).core.icache (x.pa / 128) = some (s.homeLine (x.pa / 128)) := by
  have hw : OnlyWalks s t := by simpa only [ht] using translate_onlyWalks (s := s) s.cid va (!s.core.t.prv)
  have hline : t.homeLine (x.pa / 128) = s.homeLine (x.pa / 128) := by
    rw [hw]
    rfl
  have hheld : t.rfHeld x.pa = false := by
    rw [hw]
    exact hh
  have hic : t.core.icache = s.core.icache := by rw [hw]
  have hft : fetched va s = t.modC fun c => { c with icache := (Sparse.ins c.icache (x.pa / 128) (t.homeLine (x.pa / 128))).take Config.icacheLines } := by
    unfold fetched fetchLine
    simp only [ht, hc, hheld, hf, hp, hline, hb, Bool.false_eq_true, if_false]
  have hlen := Sparse.ins_length_le s.core.icache (x.pa / 128) (s.homeLine (x.pa / 128))
  rw [fetchAhead_eq, if_pos hrun, hft]
  change Sparse.find ((Sparse.ins t.core.icache (x.pa / 128) (t.homeLine (x.pa / 128))).take Config.icacheLines) _ = _
  rw [hic, hline, List.take_of_length_le (by omega), Sparse.find_ins_same]

/-- A walk that ends at a leaf installs it in both TLBs. -/
theorem pageWalk_installs {va : Word} {e : TlbE} (hrun : s.core.running = true) (hva : va.toNat < 2 ^ 57) (hl : lookup s s.cid va.toNat = (t, .ok e)) :
    ∃ u, exec (.pageWalk va) s = .next u ∧ e ∈ u.core.l1tlb ∧ e ∈ Sparse.get [] u.mem.l2tlb (quadOf s.core.phys.toNat) := by
  have hw : OnlyWalks s t := by simpa only [hl] using lookup_onlyWalks (s := s) s.cid va.toNat
  have h0 : va.extractLsb' 57 7 = 0 := by
    refine BitVec.eq_of_toNat_eq ?_
    rw [BitVec.extractLsb'_toNat, Nat.shiftRight_eq_div_pow, Nat.div_eq_of_lt hva]
    rfl
  have he : exec (.pageWalk va) s = .next (keepFills s (installTlb t e)) := by
    change execPageWalk va s = _
    simp [execPageWalk, hrun, h0, hl]
  refine ⟨_, he, ?_, ?_⟩
  · exact List.mem_cons_self ..
  · have hq : t.core.phys = s.core.phys := by rw [hw]
    have hn : ∀ l : List TlbE, (e :: l).take Config.l2TlbEntries = e :: l.take (Config.l2TlbEntries - 1) := fun _ => rfl
    change e ∈ Sparse.get [] (Sparse.put [] t.mem.l2tlb (quadOf t.core.phys.toNat)
      ((e :: (Sparse.get [] t.mem.l2tlb (quadOf t.core.phys.toNat)).filter (· ≠ e)).take Config.l2TlbEntries)) _
    rw [hn, hq, Sparse.put, if_neg (List.cons_ne_nil _ _), Sparse.get, Sparse.find_ins_same]
    exact List.mem_cons_self ..

end

/-! ### A result that lands (R216) -/

section
variable {s : State} {k : Cmd}

/-- BUNDLE_ISSUE waits for a running program, and for the results that are due. -/
theorem bundleIssue_waits (h : s.running = none ∨ ∃ p ∈ s.vec.pend, p.left = 0) : exec .bundleIssue s = .next s := by
  change execBundleIssue s = _
  unfold execBundleIssue
  split
  · rfl
  · rcases h with h | ⟨p, hp, h0⟩
    · rw [h]
    · have hdue : (s.vec.pend.any fun p => decide (p.left = 0)) = true := List.any_eq_true.2 ⟨p, hp, by simpa using h0⟩
      cases s.running with
      | none => rfl
      | some k => simp [hdue]

/-- A landed result of a vector register. -/
def VReg.merged (o : VReg) (p : PendW) (y z : BitVec 64) : VReg := ⟨(o.data &&& p.keep) ||| p.data, p.tag.getD o.tag, y, z⟩

theorem land_task {y : State} {p : PendW} (hm : p.isMask = false) : ∃ a b, (land y p).core.t = { y.core.t with
      regs := { y.core.t.regs with v := y.core.t.regs.v.set p.reg.toNat ((y.V p.reg).merged p a b) },
      sys := { y.core.t.sys with fpst := y.core.t.sys.fpst ||| (p.flags.setWidth 64 <<< 0) }, vec := (land y p).core.t.vec } ∧
    (land y p).vec.pend = y.vec.pend ∧ (land y p).mem = y.mem := by
  unfold land
  simp only [hm, Bool.false_eq_true, if_false]
  split <;> exact ⟨_, _, rfl, rfl, rfl⟩

/-- RESULT_LANDING of a vector register's result. -/
theorem resultLanding_lands {p : PendW} {rest : List PendW} (hrun : enginesRun s = true) (hk : s.running = some k) (hph : k.ph = 1)
    (hp : s.vec.pend = p :: rest) (h0 : p.left = 0) (hm : p.isMask = false) :
    ∃ t, exec .resultLanding s = .next t ∧ (t.V p.reg).data = ((s.V p.reg).data &&& p.keep) ||| p.data ∧ (t.V p.reg).tag = p.tag.getD (s.V p.reg).tag ∧
      (∀ r, r ≠ p.reg → t.V r = s.V r) ∧ t.core.t.vec.pend = rest ∧ t.core.t.sys.fpst = s.core.t.sys.fpst ||| p.flags.setWidth 64 ∧
      (∀ r, t.S r = s.S r) ∧ sameBytes s t := by
  have he : exec .resultLanding s = .next ((s.modVec fun v => { v with pend := rest }).underRegs k (land · p)) := by
    change execResultLanding s = _
    simp [execResultLanding, hrun, hk, hph, hp, takeDue, h0]
  refine ⟨_, he, ?_⟩
  unfold State.underRegs
  let y := (s.modVec fun v => { v with pend := rest }).asRouted k
  have hy : y.core.t = ({ s.core.t with vec := { s.vec with pend := rest } } : Task).routedBy k := asRouted_task _ _
  have hym : y.mem = s.mem := asRouted_mem _ _
  obtain ⟨a, b, ht, hpend, hmem⟩ := land_task (y := y) hm
  have hb := backFrom_task (land y p) (s.modVec fun v => { v with pend := rest })
  have hbm : ((land y p).backFrom (s.modVec fun v => { v with pend := rest })).mem = s.mem := by
    rw [backFrom_eq]
    exact hmem.trans hym
  rw [ht, hy, show y.V p.reg = s.V p.reg by rw [State.V, hy]; rfl] at hb
  have hpr : (land y p).vec.pend = rest := by rw [hpend, State.vec, hy]; rfl
  generalize (land y p).backFrom (s.modVec fun v => { v with pend := rest }) = t at hb hbm ⊢
  have hv (r : BitVec 6) : t.V r = (s.core.t.regs.v.set p.reg.toNat ((s.V p.reg).merged p a b))[r.toNat] := by rw [State.V, hb]; rfl
  have hvp : t.V p.reg = (s.V p.reg).merged p a b := by rw [hv, Vector.getElem_set_self]
  refine ⟨by rw [hvp]; rfl, by rw [hvp]; rfl, fun r hr => ?_, by rw [hb]; exact hpr, ?_, fun r => ?_, sameBytes_of ?_ (by rw [hbm])⟩
  · rw [hv, Vector.getElem_set_ne _ _ fun h => hr (BitVec.eq_of_toNat_eq h.symm)]
    rfl
  · rw [hb]
    exact congrArg (s.core.t.sys.fpst ||| ·) (BitVec.shiftLeft_zero _)
  · rw [State.S, hb]
    rfl
  · rw [hb]
    rfl

end

end Sys2Proof.Machine
end

section
/-! The events of fetching and of the vector engine (O44). -/

namespace Sys2Proof.Machine

/-! ### What the slots of a bundle do (R211 to R232) -/

section
variable {s s1 : State} {k : Cmd} {b : BitVec 256} {w : Word} {n : Nat}

theorem abRun_elementwise (h : (abOf w).opc ∉ [0xC, 0xD, 0xE, 0xF, 0x10]) : abRun s w = [abElementwise s (abOf w)] := by
  unfold abRun
  dsimp only
  split <;> simp_all

theorem abRun_compare (h : (abOf w).opc = 0xC) : abRun s w = [abCompare s (abOf w)] := by simp only [abRun, h]
theorem abRun_select (h : (abOf w).opc = 0xD) : abRun s w = [abSelect s (abOf w)] := by simp only [abRun, h]
theorem abRun_reduce (h : (abOf w).opc = 0xE) : abRun s w = [abReduce s (abOf w)] := by simp only [abRun, h]
theorem abRun_widen (h : (abOf w).opc = 0xF) : abRun s w = abWiden s (abOf w) := by simp only [abRun, h]
theorem abRun_dot (h : (abOf w).opc = 0x10) : abRun s w = [abDot s (abOf w)] := by simp only [abRun, h]

theorem abLatency_elementwise {o : Nat} (h : o ∉ [0xC, 0xD, 0xE, 0xF, 0x10]) :
    abLatency o = if o ∈ [3, 4, 0x11] then 4 else if 0x20 ≤ o then 12 else 2 := by
  unfold abLatency
  split <;> simp_all

/-- The word of a present A or B slot is well formed. -/
theorem abIllop_of (hf : bundleIllop b = false) (hn : (n, w) ∈ [(1, slotA b), (2, slotB b)]) (ho : onlySlot b n) : ∃ isB, abIllop isB w = false := by
  simp only [bundleIllop, badSlots, Bool.or_eq_false_iff, List.any_cons] at hf
  obtain ⟨-, -, h1, h2, -⟩ := hf
  simp only [List.mem_cons, Prod.mk.injEq, List.not_mem_nil, or_false] at hn
  rcases hn with ⟨rfl, rfl⟩ | ⟨rfl, rfl⟩
  · exact ⟨false, by simpa [ho.present (show 1 < 4 by omega)] using h1⟩
  · exact ⟨true, by simpa [ho.present (show 2 < 4 by omega)] using h2⟩

theorem mBase_eq (s : State) (m : MS) : mBase s m = s.vec.a[m.ar] + (if m.pi = true then 0 else m.off) := by
  unfold mBase
  cases m.pi
  · rfl
  · exact (BitVec.add_zero _).symm

/-- A well-formed VMOVS names a register (R231). -/
theorem selOk_of (hf : bundleIllop b = false) (ho : onlySlot b 3) (h3 : (csOf (slotC b)).opc = 3) : selOk (csOf (slotC b)).d.toNat = true := by
  simp only [bundleIllop, badSlots, Bool.or_eq_false_iff, List.any_cons] at hf
  obtain ⟨-, -, -, -, hc, -⟩ := hf
  simp only [ho.present (show 3 < 4 by omega), if_true, id, cIllop, h3, Bool.or_eq_false_iff, Bool.not_eq_false'] at hc
  exact hc.1.2

/-- VDOT4 takes formats of 8 bits, or of 16 with a half of the accumulator (R225). -/
theorem dot_bits {isB : Bool} (hi : abIllop isB w = false) (hf : abFaults s w = []) (h : (abOf w).opc = 0x10) :
    vBits (abOf w).et = 8 ∨ vBits (abOf w).et = 16 ∧ (abOf w).fn ≤ 1 := by
  have hfmt : abFmtOk 0x10 (abOf w).et = true := by
    by_contra hc
    simp [abFaults, h, hc] at hf
  have hfn : abFnOk (abOf w) = true := by
    simp only [abIllop, Bool.or_eq_false_iff, Bool.not_eq_false'] at hi
    exact hi.1.1.1.1.1.1.1.1.2
  unfold abFnOk at hfn
  simp only [h] at hfn
  simp only [abFmtOk, Bool.or_eq_true, beq_iff_eq] at hfmt
  rcases hfmt with ((((hf | hf) | hf) | hf) | hf) | hf <;> rw [hf] at hfn ⊢ <;> simp_all [vBits]

end

/-- Settles O44, slot by slot: what a bundle of one slot issues, and what the pending results are, element by element. -/
theorem fetchAndVectorEvents : Obligations.FetchAndVectorEvents := by
  unfold Obligations.FetchAndVectorEvents
  refine ⟨fun s va => ⟨?_, fun s1 x hrun ht hh hc hp hf hb hl => ?_, fun s1 e hrun hva hl => pageWalk_installs hrun hva hl, bundleIssue_waits,
      fun k p rest => resultLanding_lands⟩,
    fun s s1 k b hr => ⟨hr.exec_idle, fun n w hs hn ho => ⟨hr.exec_AB_fault hs hn ho, fun hf => ?_⟩, fun hs ho hf => ⟨fun h2 hh hl => ?_, fun h2 _ hl => ?_,
      fun h2 ps u => hr.exec_global hs ho hf h2⟩, fun hs ho hf => ⟨fun h => ?_, fun h => ?_, fun h => ?_, fun h => ?_⟩, hr.exec_loop⟩,
    fun f w sg sat rm a b c _ h => intElements sat rm a b c h, fun f F sat rm fn a b c _ h => floatElements sat rm fn a b c h⟩
  · simp only [List.forall_mem_cons, List.not_mem_nil, false_imp_iff, implies_true, and_true]
    exact ⟨⟨_, rfl, fetchAhead_onlyFills va⟩, ⟨_, rfl, fetchAhead_onlyFills va⟩, pageWalk_onlyFills va⟩
  · have hline := fetchAhead_cached hrun ht hh hc hp hf hb hl
    simp only [List.forall_mem_cons, List.not_mem_nil, false_imp_iff, implies_true, and_true]
    exact ⟨⟨_, rfl, hline⟩, ⟨_, rfl, hline⟩⟩
  · intro a A B C d z on left arg G
    obtain ⟨t, ht, hit, hb⟩ := hr.exec_AB hs hn ho hf
    refine ⟨t, abRun s w, ht, hit, hb, fun h => ⟨_, abRun_elementwise h, ?_⟩, fun h => ⟨_, abRun_compare h, abCompare_bits s a⟩,
      fun h => ⟨_, abRun_select h, abSelect_lands s a⟩, fun h => ⟨_, abRun_reduce h, abReduce_lands s a⟩, fun h => ?_, fun h => ⟨_, abRun_dot h, ?_⟩⟩
    · rw [← abLatency_elementwise h]
      exact abElementwise_lands s a
    · rw [abRun_widen h]
      exact ⟨by rw [abWiden, List.length_map, List.length_range], fun i p hp => abWiden_lands s a rfl hp⟩
    · obtain ⟨isB, hi⟩ := abIllop_of hr.form hn ho
      exact abDot_lands s a (dot_bits hi hf h)
  · obtain ⟨t, p, ht, hit, hb, h1, h3, h4, h5, h6, h7⟩ := hr.exec_load hs ho hf h2 hh hl
    refine ⟨t, p, ht, hit, hb, h1, h3, h4, h5, h6.trans (mLatency_eq h2), fun i hi => ?_⟩
    obtain ⟨hd, hk⟩ := h7 i hi
    simp only [mOn, mPlace, mBase_eq] at hd
    exact ⟨hd, hk⟩
  · intro hab hsl
    obtain ⟨t, u, ht, hit, hv, hreg, hb, hbits⟩ := hr.exec_store hs ho hf h2 hl hab hsl
    simp only [mBase_eq] at hbits
    exact ⟨t, u, ht, hit, hv, hreg, hb, hbits⟩
  · obtain ⟨t, ht, hit, hb⟩ := hr.exec_C hs ho hf (by omega) (by omega)
    obtain ⟨p, hp, hl⟩ := cPends_perm (s := s) h
    exact ⟨t, p, ht, hp ▸ hit, hb, hl⟩
  · obtain ⟨t, ht, hit, hb⟩ := hr.exec_C hs ho hf (by omega) (by omega)
    obtain ⟨p, hp, hl⟩ := cPends_bcast (s := s) h
    exact ⟨t, p, ht, hp ▸ hit, hb, hl⟩
  · obtain ⟨t, ht, hit, hb⟩ := hr.exec_vmovs hs ho hf h
    exact ⟨t, ht, hit, hb, (congrArg BitVec.toNat (hit.selGet _)).trans (selGet_selSet (selOk_of hr.form ho h) _)⟩
  · obtain ⟨t, ht, hit, hb⟩ := hr.exec_C hs ho hf (by omega) (by omega)
    obtain ⟨p, hp, hl⟩ := cPends_kop (s := s) h
    exact ⟨t, p, ht, hp ▸ hit, hb, hl⟩

end Sys2Proof.Machine
end
